-- ==== Sys2Proof/Word.lean ====
section
/-! DEFINITION. The machine words: the 80-bit instruction word, register contents and specifiers. -/

namespace Sys2Proof

/-- One instruction word (R68, R71). -/
abbrev Word := BitVec 80
/-- A register specifier (R74). -/
abbrev Reg := BitVec 6
/-- One byte of memory. -/
abbrev Byte := BitVec 8
/-- A stagehand or manager scalar (R77). -/
abbrev X := BitVec 64
/-- An element scalar (R77). -/
abbrev E32 := BitVec 32
/-- A vector register, a line of memory or a beat of the vector network (R77). -/
abbrev Line := BitVec 512
/-- A sum register, or an even and odd pair of vector registers (R116, R101). -/
abbrev Wide := BitVec 1024

/-- A value a floating format can hold, exactly (R91): a NaN (signalling or quiet), an infinity, or a
finite number, whose `negZero` is read only when the number is zero. -/
inductive FVal where
  | nan (signalling : Bool)
  | inf (neg : Bool)
  | fin (q : Rat) (negZero : Bool)
  deriving DecidableEq, Repr, Inhabited

end Sys2Proof
end

