-- ==== Sys2Proof/Syntax.lean ====
section
/-! DEFINITION. The instructions and events of the opcode table, one constructor per row.

A word of the machine carries its common header `h` (Table 3-1) and the body fields its reference
entry uses (Tables 3-4 to 3-17); a field the entry leaves out is zero in the word (R82). The ten rows
that are uses of MTSR or MFSR on one register carry the fields of that word. The rows after them are
steps of agents that fetch no word (operator units, ports, the memory system, the supervisor, the
world outside); they carry the numbers that name the agent, and what arrives from outside. -/

namespace Sys2Proof

/-- The common header of Table 3-1 without FMT and OP. -/
structure Hdr where
  /-- Tile predicate tq0 to tq7. -/
  qsel : BitVec 3
  /-- Inverts the selected predicate. -/
  qneg : BitVec 1
  /-- Restart mark (R53). -/
  rstp : BitVec 1
  deriving DecidableEq, Repr, Inhabited

/-- One constructor per row of the opcode table. -/
inductive Instr where
  /-- NOP (R73). -/
  | nop (h : Hdr)
  /-- HALT (R376). -/
  | halt (h : Hdr)
  /-- TRAP (R450). -/
  | trap (h : Hdr) (imm : BitVec 32)
  /-- ERET (R362). -/
  | eret (h : Hdr)
  /-- MFSR (R395). -/
  | mfsr (h : Hdr) (d : Reg) (sr : BitVec 12)
  /-- MTSR (R395). -/
  | mtsr (h : Hdr) (a : Reg) (sr : BitVec 12)
  /-- LAUNCH (R380). -/
  | launch (h : Hdr) (d a b : Reg)
  /-- TLAUNCH (R447). -/
  | tlaunch (h : Hdr) (d a b : Reg)
  /-- LOADCFG (R385). -/
  | loadcfg (h : Hdr) (a : Reg)
  /-- RECONF (R407). -/
  | reconf (h : Hdr)
  /-- SHRINK (R436). -/
  | shrink (h : Hdr) (d a b : Reg)
  /-- SHRINK_QUERY (R314). -/
  | shrinkQuery (h : Hdr) (d a b : Reg)
  /-- CSAVE (R316). -/
  | csave (h : Hdr) (d a b : Reg) (imm : BitVec 32)
  /-- CREST (R318). -/
  | crest (h : Hdr) (d a : Reg)
  /-- WDOG_RESTART (R306). -/
  | wdogRestart (h : Hdr) (d a : Reg)
  /-- WDOG_REPORT (R306). -/
  | wdogReport (h : Hdr) (d a : Reg)
  /-- WDOG_NEXT_STEP (R306). -/
  | wdogNextStep (h : Hdr) (d a : Reg)
  /-- WDOG_SUSPEND (R306). -/
  | wdogSuspend (h : Hdr) (d a : Reg)
  /-- PHCRD (R402). -/
  | phcrd (h : Hdr) (d a : Reg)
  /-- SSLOT_BIND (R439). -/
  | sslotBind (h : Hdr) (d a b : Reg)
  /-- SSLOT_REFRESH (R439). -/
  | sslotRefresh (h : Hdr) (d a b : Reg)
  /-- SSLOT_EVICT (R439). -/
  | sslotEvict (h : Hdr) (d a : Reg)
  /-- RTYW_SUPPLY (R415). -/
  | rtywSupply (h : Hdr) (d a b : Reg)
  /-- RTYW_REPLAY (R415). -/
  | rtywReplay (h : Hdr) (d a b : Reg)
  /-- RTYPOP (R414). -/
  | rtypop (h : Hdr) (d : Reg)
  /-- TLBINV_ALL (R282). -/
  | tlbinvAll (h : Hdr)
  /-- TLBINV_ASID (R282). -/
  | tlbinvAsid (h : Hdr) (b : Reg)
  /-- TLBINV_ADDRESS (R282). -/
  | tlbinvAddress (h : Hdr) (a b : Reg)
  /-- IFENCE (R296). -/
  | ifence (h : Hdr)
  /-- VCSET (R459). -/
  | vcset (h : Hdr) (d a : Reg)
  /-- TQSET (R449). -/
  | tqset (h : Hdr) (d a : Reg)
  /-- TQTEST (R449). -/
  | tqtest (h : Hdr) (d a : Reg)
  /-- ADD (R341). -/
  | add (h : Hdr) (d a b : Reg)
  /-- SUB (R444). -/
  | sub (h : Hdr) (d a b : Reg)
  /-- MUL (R398). -/
  | mul (h : Hdr) (d a b : Reg)
  /-- AND (R345). -/
  | and (h : Hdr) (d a b : Reg)
  /-- OR (R401). -/
  | or (h : Hdr) (d a b : Reg)
  /-- XOR (R477). -/
  | xor (h : Hdr) (d a b : Reg)
  /-- SHL (R435). -/
  | shl (h : Hdr) (d a b : Reg)
  /-- SHR (R435). -/
  | shr (h : Hdr) (d a b : Reg)
  /-- SRA (R435). -/
  | sra (h : Hdr) (d a b : Reg)
  /-- MULH (R398). -/
  | mulh (h : Hdr) (d a b : Reg) (u : BitVec 1)
  /-- DIV (R361). -/
  | div (h : Hdr) (d a b : Reg) (u : BitVec 1)
  /-- REM (R411). -/
  | rem (h : Hdr) (d a b : Reg) (u : BitVec 1)
  /-- MIN (R394). -/
  | min (h : Hdr) (d a b : Reg) (u : BitVec 1)
  /-- MAX (R394). -/
  | max (h : Hdr) (d a b : Reg) (u : BitVec 1)
  /-- CLZ (R356). -/
  | clz (h : Hdr) (d a : Reg)
  /-- POPC (R404). -/
  | popc (h : Hdr) (d a : Reg)
  /-- SETC (R432). -/
  | setc (h : Hdr) (d a b : Reg) (u : BitVec 1) (cc : BitVec 3)
  /-- SEL (R429). -/
  | sel (h : Hdr) (d a b c : Reg)
  /-- BFX (R349). -/
  | bfx (h : Hdr) (d a : Reg) (u : BitVec 1) (pos len : BitVec 6)
  /-- BFI (R349). -/
  | bfi (h : Hdr) (d a b : Reg) (pos len : BitVec 6)
  /-- LEA (R384). -/
  | lea (h : Hdr) (d a b : Reg) (pos : BitVec 6)
  /-- ADD_IMM (R341). -/
  | addImm (h : Hdr) (d a : Reg) (imm : BitVec 32)
  /-- AND_IMM (R345). -/
  | andImm (h : Hdr) (d a : Reg) (imm : BitVec 32)
  /-- OR_IMM (R401). -/
  | orImm (h : Hdr) (d a : Reg) (imm : BitVec 32)
  /-- XOR_IMM (R477). -/
  | xorImm (h : Hdr) (d a : Reg) (imm : BitVec 32)
  /-- SHL_IMM (R435). -/
  | shlImm (h : Hdr) (d a : Reg) (imm : BitVec 32)
  /-- SHR_IMM (R435). -/
  | shrImm (h : Hdr) (d a : Reg) (imm : BitVec 32)
  /-- SRA_IMM (R435). -/
  | sraImm (h : Hdr) (d a : Reg) (imm : BitVec 32)
  /-- SETC_IMM (R432). -/
  | setcImm (h : Hdr) (d a : Reg) (u : BitVec 1) (cc : BitVec 3) (imm : BitVec 32)
  /-- MOVI (R397). -/
  | movi (h : Hdr) (d : Reg) (imm : BitVec 32)
  /-- MOVH (R397). -/
  | movh (h : Hdr) (d a : Reg) (imm : BitVec 32)
  /-- FADD (R363). -/
  | fadd (h : Hdr) (d a b : Reg) (ty : BitVec 4) (rm : BitVec 3)
  /-- FSUB (R363). -/
  | fsub (h : Hdr) (d a b : Reg) (ty : BitVec 4) (rm : BitVec 3)
  /-- FMUL (R371). -/
  | fmul (h : Hdr) (d a b : Reg) (ty : BitVec 4) (rm : BitVec 3)
  /-- FDIV (R367). -/
  | fdiv (h : Hdr) (d a b : Reg) (ty : BitVec 4) (rm : BitVec 3)
  /-- FFMA (R369). -/
  | ffma (h : Hdr) (d a b c : Reg) (ty : BitVec 4) (rm : BitVec 3)
  /-- FSQRT (R374). -/
  | fsqrt (h : Hdr) (d a : Reg) (ty : BitVec 4) (rm : BitVec 3)
  /-- FMIN (R370). -/
  | fmin (h : Hdr) (d a b : Reg) (ty : BitVec 4)
  /-- FMAX (R370). -/
  | fmax (h : Hdr) (d a b : Reg) (ty : BitVec 4)
  /-- FSETC (R373). -/
  | fsetc (h : Hdr) (d a b : Reg) (ty : BitVec 4) (cc : BitVec 3)
  /-- FCVT (R365). -/
  | fcvt (h : Hdr) (d a : Reg) (ty : BitVec 4) (rm : BitVec 3) (tty : BitVec 4)
  /-- FCLASS (R364). -/
  | fclass (h : Hdr) (d a : Reg) (ty : BitVec 4)
  /-- VADD (R456). -/
  | vadd (h : Hdr) (d a b : Reg) (ty : BitVec 4) (rm : BitVec 3) (sat : BitVec 1)
  /-- VSUB (R456). -/
  | vsub (h : Hdr) (d a b : Reg) (ty : BitVec 4) (rm : BitVec 3) (sat : BitVec 1)
  /-- VMUL (R456). -/
  | vmul (h : Hdr) (d a b : Reg) (ty : BitVec 4) (rm : BitVec 3) (sat : BitVec 1)
  /-- VFMA (R456). -/
  | vfma (h : Hdr) (d a b c : Reg) (ty : BitVec 4) (rm : BitVec 3) (sat : BitVec 1)
  /-- VMIN (R456). -/
  | vmin (h : Hdr) (d a b : Reg) (ty : BitVec 4)
  /-- VMAX (R456). -/
  | vmax (h : Hdr) (d a b : Reg) (ty : BitVec 4)
  /-- VABS (R456). -/
  | vabs (h : Hdr) (d a : Reg) (ty : BitVec 4) (sat : BitVec 1)
  /-- VNEG (R456). -/
  | vneg (h : Hdr) (d a : Reg) (ty : BitVec 4) (sat : BitVec 1)
  /-- VEXP (R464). -/
  | vexp (h : Hdr) (d a : Reg) (ty : BitVec 4) (rm : BitVec 3)
  /-- VLOG (R464). -/
  | vlog (h : Hdr) (d a : Reg) (ty : BitVec 4) (rm : BitVec 3)
  /-- VRCP (R464). -/
  | vrcp (h : Hdr) (d a : Reg) (ty : BitVec 4) (rm : BitVec 3)
  /-- VRSQ (R464). -/
  | vrsq (h : Hdr) (d a : Reg) (ty : BitVec 4) (rm : BitVec 3)
  /-- VSETC (R470). -/
  | vsetc (h : Hdr) (d a b : Reg) (ty : BitVec 4) (cc : BitVec 3)
  /-- VSEL (R470). -/
  | vsel (h : Hdr) (d a b c : Reg) (ty : BitVec 4)
  /-- VAND (R457). -/
  | vand (h : Hdr) (d a b : Reg)
  /-- VOR (R457). -/
  | vor (h : Hdr) (d a b : Reg)
  /-- VXOR (R457). -/
  | vxor (h : Hdr) (d a b : Reg)
  /-- VMOV (R457). -/
  | vmov (h : Hdr) (d a : Reg)
  /-- VSHL (R471). -/
  | vshl (h : Hdr) (d a b : Reg) (ty : BitVec 4)
  /-- VSHR (R471). -/
  | vshr (h : Hdr) (d a b : Reg) (ty : BitVec 4) (sat : BitVec 1)
  /-- VDOT (R462). -/
  | vdot (h : Hdr) (d a b : Reg) (ty : BitVec 4) (rm : BitVec 3) (oty : BitVec 4) (sat : BitVec 1)
  /-- VRED (R462). -/
  | vred (h : Hdr) (d a : Reg) (ty : BitVec 4) (rm : BitVec 3) (oty : BitVec 4) (sat : BitVec 1)
  /-- VSCAN (R462). -/
  | vscan (h : Hdr) (d a : Reg) (ty : BitVec 4) (rm : BitVec 3) (oty : BitVec 4) (sat : BitVec 1)
  /-- VSHUF (R458). -/
  | vshuf (h : Hdr) (d a b : Reg) (ty : BitVec 4)
  /-- VBCAST (R458). -/
  | vbcast (h : Hdr) (d a : Reg) (ty : BitVec 4) (idx : BitVec 6)
  /-- VEXTR (R458). -/
  | vextr (h : Hdr) (d a b : Reg) (ty : BitVec 4) (idx : BitVec 6)
  /-- VINS (R458). -/
  | vins (h : Hdr) (d a b : Reg) (ty : BitVec 4) (idx : BitVec 6)
  /-- VPACK (R460). -/
  | vpack (h : Hdr) (d a b : Reg) (ty : BitVec 4) (rm : BitVec 3) (oty : BitVec 4)
  /-- VUNPK (R460). -/
  | vunpk (h : Hdr) (d a : Reg) (ty : BitVec 4) (rm : BitVec 3) (oty : BitVec 4) (imm8 : BitVec 8)
  /-- VCVT (R460). -/
  | vcvt (h : Hdr) (d a : Reg) (ty : BitVec 4) (rm : BitVec 3) (oty : BitVec 4)
  /-- VQNT (R463). -/
  | vqnt (h : Hdr) (d a b : Reg) (ty : BitVec 4) (rm : BitVec 3) (oty : BitVec 4) (imm8 : BitVec 8)
  /-- VDQNT (R463). -/
  | vdqnt (h : Hdr) (d a : Reg) (ty : BitVec 4) (rm : BitVec 3) (oty : BitVec 4) (imm8 : BitVec 8)
  /-- MMODE (R148). -/
  | mmode (h : Hdr) (ty : BitVec 4) (f : BitVec 1)
  /-- WLOAD (R149). -/
  | wload (h : Hdr) (a b : Reg) (ty : BitVec 4) (f : BitVec 1)
  /-- MMA (R152). -/
  | mma (h : Hdr) (a b : Reg) (ty : BitVec 4) (rm : BitVec 3) (row : BitVec 9) (f : BitVec 1)
  /-- MMASP (R153). -/
  | mmasp (h : Hdr) (a b : Reg) (ty : BitVec 4) (rm : BitVec 3) (row : BitVec 9) (f : BitVec 1)
  /-- MMETA (R150). -/
  | mmeta (h : Hdr) (a : Reg)
  /-- ACCZ (R154). -/
  | accz (h : Hdr) (b : Reg) (row : BitVec 9)
  /-- ACCLD (R154). -/
  | accld (h : Hdr) (a b : Reg) (ty : BitVec 4) (row : BitVec 9)
  /-- ACCST (R154). -/
  | accst (h : Hdr) (a b : Reg) (ty : BitVec 4) (rm : BitVec 3) (row : BitVec 9)
  /-- ACCRD (R154). -/
  | accrd (h : Hdr) (d b : Reg) (row : BitVec 9) (colb : BitVec 4)
  /-- ACCWR (R154). -/
  | accwr (h : Hdr) (a b : Reg) (row : BitVec 9) (colb : BitVec 4)
  /-- PRMLD (R119). -/
  | prmld (h : Hdr) (a b : Reg) (grp : BitVec 8)
  /-- PRMAP (R120). -/
  | prmap (h : Hdr) (d a b : Reg) (grp : BitVec 8)
  /-- SCANS (R121). -/
  | scans (h : Hdr) (d a : Reg)
  /-- DIFLD (R123). -/
  | difld (h : Hdr) (d a : Reg)
  /-- DIFMUL (R124). -/
  | difmul (h : Hdr) (d a b c : Reg)
  /-- SBPFIN (R125). -/
  | sbpfin (h : Hdr) (d a b c : Reg) (rm : BitVec 3)
  /-- WSORT (R126). -/
  | wsort (h : Hdr) (d a b : Reg) (grp : BitVec 8)
  /-- YCLR (R127). -/
  | yclr (h : Hdr) (d : Reg)
  /-- LD (R381). -/
  | ld (h : Hdr) (d a b : Reg) (off : BitVec 20) (port : BitVec 6) (hint : BitVec 3) (ty : BitVec 4)
  /-- ST (R441). -/
  | st (h : Hdr) (d a b : Reg) (off : BitVec 20) (port : BitVec 6) (hint : BitVec 3) (ty : BitVec 4)
  /-- VLD (R465). -/
  | vld (h : Hdr) (d a b : Reg) (off : BitVec 20) (port : BitVec 6) (hint : BitVec 3) (ty : BitVec 4)
  /-- VST (R465). -/
  | vst (h : Hdr) (d a b : Reg) (off : BitVec 20) (port : BitVec 6) (hint : BitVec 3) (ty : BitVec 4)
  /-- LDW (R381). -/
  | ldw (h : Hdr) (d a b : Reg) (off : BitVec 20) (win : BitVec 5) (port : BitVec 6) (hint : BitVec 3) (ty : BitVec 4)
  /-- VLDW (R465). -/
  | vldw (h : Hdr) (d a b : Reg) (off : BitVec 20) (win : BitVec 5) (port : BitVec 6) (hint : BitVec 3) (ty : BitVec 4)
  /-- VLDX (R467). -/
  | vldx (h : Hdr) (d a b : Reg) (off : BitVec 20) (port : BitVec 6) (hint : BitVec 3) (ty : BitVec 4)
  /-- VSTX (R467). -/
  | vstx (h : Hdr) (d a b : Reg) (off : BitVec 20) (port : BitVec 6) (hint : BitVec 3) (ty : BitVec 4)
  /-- BUFPUT (R353). -/
  | bufput (h : Hdr) (d a : Reg) (off : BitVec 20) (port : BitVec 6) (ty : BitVec 4)
  /-- BUFGET (R353). -/
  | bufget (h : Hdr) (d : Reg) (off : BitVec 20) (port : BitVec 6) (ty : BitVec 4)
  /-- LDSP (R381). -/
  | ldsp (h : Hdr) (d a b : Reg) (off : BitVec 20) (ty : BitVec 4)
  /-- STSP (R441). -/
  | stsp (h : Hdr) (d a b : Reg) (off : BitVec 20) (ty : BitVec 4)
  /-- PREF (R405). -/
  | pref (h : Hdr) (d a b : Reg) (off : BitVec 20)
  /-- SHADOW (R433). -/
  | shadow (h : Hdr) (d a b : Reg) (off : BitVec 20) (port : BitVec 6)
  /-- UNSHADOW (R451). -/
  | unshadow (h : Hdr) (a : Reg) (port : BitVec 6)
  /-- CLEAN (R355). -/
  | clean (h : Hdr) (a b : Reg) (off : BitVec 20)
  /-- INVAL (R378). -/
  | inval (h : Hdr) (a b : Reg) (off : BitVec 20)
  /-- SEND (R430). -/
  | send (h : Hdr) (a : Reg) (chan : BitVec 6)
  /-- RECV (R409). -/
  | recv (h : Hdr) (d : Reg) (chan : BitVec 6)
  /-- VSEND (R469). -/
  | vsend (h : Hdr) (a : Reg) (chan : BitVec 6)
  /-- VRECV (R469). -/
  | vrecv (h : Hdr) (d : Reg) (chan : BitVec 6)
  /-- CSEND (R358). -/
  | csend (h : Hdr) (a : Reg) (chan : BitVec 6)
  /-- CRECV (R358). -/
  | crecv (h : Hdr) (d : Reg) (chan : BitVec 6)
  /-- SBIND (R418). -/
  | sbind (h : Hdr) (a b : Reg) (port : BitVec 6) (strm : BitVec 8)
  /-- SQ (R419). -/
  | sq (h : Hdr) (a : Reg) (port : BitVec 6) (strm : BitVec 8)
  /-- SCOPY (R422). -/
  | scopy (h : Hdr) (d a b c : Reg) (port : BitVec 6) (strm : BitVec 8)
  /-- SCANCEL (R423). -/
  | scancel (h : Hdr) (d : Reg) (port : BitVec 6) (strm : BitVec 8)
  /-- SSUB (R424). -/
  | ssub (h : Hdr) (d a : Reg) (port : BitVec 6) (strm : BitVec 8)
  /-- SDIST (R425). -/
  | sdist (h : Hdr) (a : Reg) (strm : BitVec 8)
  /-- SSTAT (R426). -/
  | sstat (h : Hdr) (d a : Reg) (port : BitVec 6) (strm : BitVec 8)
  /-- OPSET (R172). -/
  | opset (h : Hdr) (a : Reg) (unit : BitVec 10) (param : BitVec 6)
  /-- OPGET (R172). -/
  | opget (h : Hdr) (d : Reg) (unit : BitVec 10) (param : BitVec 6)
  /-- ROUTE (R173). -/
  | route (h : Hdr) (a : Reg) (unit : BitVec 10) (param : BitVec 6)
  /-- TINJ (R446). -/
  | tinj (h : Hdr) (a b : Reg) (unit : BitVec 10) (param : BitVec 6)
  /-- TDRAIN (R174). -/
  | tdrain (h : Hdr) (d : Reg) (unit : BitVec 10)
  /-- TCONV (R446). -/
  | tconv (h : Hdr) (d a : Reg) (unit : BitVec 10)
  /-- TAPPEND (R194). -/
  | tappend (h : Hdr) (d a b : Reg) (unit : BitVec 10)
  /-- TSPLIT (R199). -/
  | tsplit (h : Hdr) (d a b : Reg) (unit : BitVec 10)
  /-- TMERGE (R199). -/
  | tmerge (h : Hdr) (d a b : Reg) (unit : BitVec 10)
  /-- TFORK (R202). -/
  | tfork (h : Hdr) (d a : Reg) (unit : BitVec 10)
  /-- TEVICT (R203). -/
  | tevict (h : Hdr) (d a b : Reg) (unit : BitVec 10)
  /-- TEVICT_RELEASE (R203). -/
  | tevictRelease (h : Hdr) (d a b : Reg) (unit : BitVec 10)
  /-- TQUERY (R205). -/
  | tquery (h : Hdr) (d a b c : Reg) (unit : BitVec 10)
  /-- TNODE (R214). -/
  | tnode (h : Hdr) (d a b c : Reg) (unit : BitVec 10) (param : BitVec 6)
  /-- PKLOOK (R403). -/
  | pklook (h : Hdr) (d a b c : Reg) (unit : BitVec 10)
  /-- SMPDRAW_SAMPLE (R227). -/
  | smpdrawSample (h : Hdr) (d a b : Reg) (unit : BitVec 10)
  /-- SMPDRAW_VERIFY (R229). -/
  | smpdrawVerify (h : Hdr) (d a b c : Reg) (unit : BitVec 10)
  /-- ACPT (R340). -/
  | acpt (h : Hdr) (d a b c : Reg) (unit : BitVec 10)
  /-- GMSTEP (R375). -/
  | gmstep (h : Hdr) (d a : Reg) (unit : BitVec 10)
  /-- FENCE (R287). -/
  | fence (h : Hdr) (scope : BitVec 3)
  /-- FRAME (R59). -/
  | frame (h : Hdr)
  /-- RMWS (R243). -/
  | rmws (h : Hdr) (d a b c : Reg) (aop : BitVec 5) (ty : BitVec 4) (slot : BitVec 8)
  /-- REDSEQ (R410). -/
  | redseq (h : Hdr) (a b c : Reg) (aop : BitVec 5) (ty : BitVec 4)
  /-- AMO (R343). -/
  | amo (h : Hdr) (d a b c : Reg) (aop : BitVec 5) (ty : BitVec 4)
  /-- BARA (R346). -/
  | bara (h : Hdr) (a b : Reg)
  /-- BARW (R346). -/
  | barw (h : Hdr) (a : Reg)
  /-- MARM (R392). -/
  | marm (h : Hdr) (a : Reg)
  /-- MWAIT (R392). -/
  | mwait (h : Hdr) (d a : Reg)
  /-- XBEGIN (R475). -/
  | xbegin (h : Hdr)
  /-- XEND (R475). -/
  | xend (h : Hdr) (d : Reg)
  /-- XABORT (R475). -/
  | xabort (h : Hdr) (a : Reg)
  /-- BR (R350). -/
  | br (h : Hdr) (off : BitVec 32)
  /-- BC (R347). -/
  | bc (h : Hdr) (a b : Reg) (cc : BitVec 3) (u : BitVec 1) (off : BitVec 32)
  /-- JAL (R379). -/
  | jal (h : Hdr) (d : Reg) (off : BitVec 32)
  /-- JALR (R379). -/
  | jalr (h : Hdr) (d a : Reg) (off : BitVec 32)
  /-- ISTART_FRESH_START (R46). -/
  | istartFreshStart (h : Hdr) (sr : BitVec 12) (a : Reg)
  /-- ISTART_RESUME (R55). -/
  | istartResume (h : Hdr) (sr : BitVec 12) (a : Reg)
  /-- ISTART_CANCEL (R46). -/
  | istartCancel (h : Hdr) (sr : BitVec 12) (a : Reg)
  /-- EFLAGS_CLEAR (R112). -/
  | eflagsClear (h : Hdr) (sr : BitVec 12) (a : Reg)
  /-- UFINFO_READ (R167). -/
  | ufinfoRead (h : Hdr) (d : Reg) (sr : BitVec 12)
  /-- UCFG_READ (R307). -/
  | ucfgRead (h : Hdr) (d : Reg) (sr : BitVec 12)
  /-- LQSTAT_CLEAR_DROPS (R299). -/
  | lqstatClearDrops (h : Hdr) (sr : BitVec 12) (a : Reg)
  /-- SHCTL_RUN (R310). -/
  | shctlRun (h : Hdr) (sr : BitVec 12) (a : Reg)
  /-- SHCTL_FREEZE (R310). -/
  | shctlFreeze (h : Hdr) (sr : BitVec 12) (a : Reg)
  /-- SHCTL_RESET (R310). -/
  | shctlReset (h : Hdr) (sr : BitVec 12) (a : Reg)
  /-- WINDOW_DATA_ARRIVAL (R47). -/
  | windowDataArrival (g : Nat) (e : Nat) (w : Nat)
  /-- WINDOW_CLOSE (R129). -/
  | windowClose (g : Nat) (e : Nat) (w : Nat)
  /-- FREEZE_LIMIT (R50). -/
  | freezeLimit (g : Nat)
  /-- INVOCATION_END (R43). -/
  | invocationEnd (g : Nat)
  /-- CUE_RELEASE (R61). -/
  | cueRelease (gr : Nat)
  /-- UNDERSTUDY_SWITCH (R315). -/
  | understudySwitch (gr : Nat)
  /-- LOADCFG_INSTALL (R391). -/
  | loadcfgInstall (g : Nat)
  /-- RECONF_TOKEN_PASS (R64). -/
  | reconfTokenPass (gr : Nat)
  /-- SCORE_FIRING (R208). -/
  | scoreFiring (u : Nat)
  /-- DESCEND_FIRING (R209). -/
  | descendFiring (u : Nat)
  /-- TREEUPD_FIRING (R209). -/
  | treeupdFiring (u : Nat)
  /-- QUERY_PIN (R211). -/
  | queryPin (u : Nat)
  /-- QUERY_UNPIN (R205). -/
  | queryUnpin (u : Nat)
  /-- PKEY_FIRING (R234). -/
  | pkeyFiring (u : Nat)
  /-- CASCELL_HEADER (R225). -/
  | cascellHeader (u : Nat)
  /-- CASCELL_COLLECT (R224). -/
  | cascellCollect (u : Nat)
  /-- CASCELL_DRAIN (R225). -/
  | cascellDrain (u : Nat)
  /-- CUMSEL_SAMPLE_FIRING (R227). -/
  | cumselSampleFiring (u : Nat)
  /-- CUMSEL_VERIFY_FIRING (R229). -/
  | cumselVerifyFiring (u : Nat)
  /-- ACCEPT_FIRING (R230). -/
  | acceptFiring (u : Nat)
  /-- GRAMMAR_STEP_FIRING (R237). -/
  | grammarStepFiring (u : Nat)
  /-- GRAMMAR_MASK_FIRING (R237). -/
  | grammarMaskFiring (u : Nat)
  /-- GATHER_FIRING (R176). -/
  | gatherFiring (u : Nat)
  /-- GATHER_ROW_ARRIVAL (R177). -/
  | gatherRowArrival (u : Nat) (k : Nat)
  /-- REDUCE_FIRING (R161). -/
  | reduceFiring (u : Nat)
  /-- QUANT_FIRING (R161). -/
  | quantFiring (u : Nat)
  /-- SWITCH_STEER (R161). -/
  | switchSteer (u : Nat)
  /-- SWITCH_MERGE (R161). -/
  | switchMerge (u : Nat)
  /-- SWITCH_COPY (R161). -/
  | switchCopy (u : Nat)
  /-- UNIT_TOKEN_EMIT (R165). -/
  | unitTokenEmit (u : Nat)
  /-- CONVERTER_TOKEN_IN (R170). -/
  | converterTokenIn (k : Nat)
  /-- REMOTE_BUFPUT_ARRIVAL (R354). -/
  | remoteBufputArrival (g : Nat)
  /-- SCALAR_CHANNEL_ARRIVAL (R431). -/
  | scalarChannelArrival (gr : Nat) (ch : Nat)
  /-- VECTOR_CHANNEL_ARRIVAL (R469). -/
  | vectorChannelArrival (gr : Nat) (ch : Nat)
  /-- DISTRIBUTOR_SEND_BEAT (R158). -/
  | distributorSendBeat (st : Nat) (sub : Nat)
  /-- STREAM_PRODUCER_START (R420). -/
  | streamProducerStart (g : Nat) (p : Nat)
  /-- STREAM_COMMAND_FINISH (R254). -/
  | streamCommandFinish (g : Nat) (p : Nat)
  /-- REDSEQ_PLACE_FREE (R291). -/
  | redseqPlaceFree (k : Nat)
  /-- MWAIT_RETURN (R392). -/
  | mwaitReturn (c : Nat)
  /-- BARW_RETURN (R289). -/
  | barwReturn (c : Nat)
  /-- ASYNC_EVENT_TAKE (R309). -/
  | asyncEventTake (c : Nat)
  /-- GRAPH_START (R303). -/
  | graphStart (q : Nat)
  /-- GRAPH_END (R304). -/
  | graphEnd (gr : Nat)
  /-- WDOG_PREEMPT (R305). -/
  | wdogPreempt (gr : Nat)
  /-- WDOG_KILL (R305). -/
  | wdogKill (gr : Nat)
  /-- WDOG_FENCE (R305). -/
  | wdogFence (gr : Nat)
  /-- SAVE_COMPLETE (R316). -/
  | saveComplete
  /-- SOFT_ERROR (R312). -/
  | softError
  /-- FATAL_DUMP_DONE (R334). -/
  | fatalDumpDone
  /-- POWER_AVERAGE_HIGH (R333). -/
  | powerAverageHigh (n : Nat)
  /-- POWER_FATAL (R333). -/
  | powerFatal (n : Nat)
  /-- TEMPERATURE_FATAL (R333). -/
  | temperatureFatal (n : Nat)
  /-- POWER_ON_RESET (R332). -/
  | powerOnReset
  /-- BRING_UP_COMPLETE (R332). -/
  | bringUpComplete
  /-- ATTESTATION_REQUEST (R331). -/
  | attestationRequest (nonce : BitVec 256)
  /-- ATTESTATION_REPORT (R331). -/
  | attestationReport
  /-- HOST_WRITE (R294). -/
  | hostWrite (link : Nat) (addr : Nat) (data : List (BitVec 8))
  /-- HOST_READ (R294). -/
  | hostRead (link : Nat) (addr : Nat) (len : Nat)
  /-- PEER_WRITE (R326). -/
  | peerWrite (port : Nat) (seq : Nat) (addr : Nat) (data : List (BitVec 8))
  /-- PEER_READ (R326). -/
  | peerRead (port : Nat) (addr : Nat) (len : Nat)
  /-- BRUNEX_PACKET_ARRIVAL (R181): channel `link` % 4 of link `link` / 4. -/
  | brunexPacketArrival (link : Nat)
  /-- LINK_RETRAIN (R182). -/
  | linkRetrain (link : Nat)
  /-- ETHERNET_LINK_EVENT (R327). -/
  | ethernetLinkEvent (port : Nat)
  /-- PTP_EVENT_TIMESTAMP (R329). -/
  | ptpEventTimestamp (port : Nat)
  /-- POWER_AVERAGE_NORMAL (R333). -/
  | powerAverageNormal (n : Nat)
  /-- HOST_LAUNCH_WRITE (R301). -/
  | hostLaunchWrite (q : Nat) (len : Nat) (data : BitVec 512)
  /-- SILENCE_EVICTION (R258). -/
  | silenceEviction (slot : Nat)
  /-- PAGE_TABLE_WALK (R277). -/
  | pageTableWalk (root : BitVec 64) (va : BitVec 64)
  /-- CODEC_BLOCK_OPERATION (R267). -/
  | codecBlockOperation (addr : Nat) (codec : Nat) (key : Nat) (party : Nat) (data : List (BitVec 8))
  /-- REDSEQ_ARRIVAL (R291). -/
  | redseqArrival (k : Nat)
  /-- PREF_COMPLETE (R249). -/
  | prefComplete (k : Nat)
  deriving DecidableEq, Repr, Inhabited

end Sys2Proof
end

