-- ==== Sys2Proof/Decode.lean ====
section
/-! DEFINITION. The decoder and the encoder of the 80-bit instruction word (Tables 3-1, 3-3 to 3-18).

`decode` reads the fields of the word's format, forms the instruction that FMT and OP (and, where one
OP serves several rows, IMM or PARAM) select, and accepts it only if the word has no other bit set:
a word with a nonzero reserved bit is refused by name (R82), and so is an unassigned OP (R83). Coded
values and specifiers are judged when the word executes, because R85 puts the context checks first. -/

namespace Sys2Proof

/-- Why a word is no instruction: an unassigned FMT or OP (R85 step 2), or the instruction that its
FMT and OP select together with a nonzero reserved bit (R85 step 5) and the register fields of the
word's format, used or not, which step 3 looks at first (R76). -/
inductive DecodeError where
  | unassigned
  | reserved (i : Instr) (fields : List Reg)
  deriving DecidableEq, Repr

/-- The header of a word (Table 3-1). -/
def hdrOf (w : Word) : Hdr :=
  { qsel := w.extractLsb' 67 3, qneg := w.extractLsb' 66 1, rstp := w.extractLsb' 65 1 }

/-- A word put together from FMT, OP, the header and the body (Table 3-1). -/
def wordOf (fmt : BitVec 4) (op : BitVec 6) (h : Hdr) (body : BitVec 65) : Word :=
  fmt ++ op ++ h.qsel ++ h.qneg ++ h.rstp ++ body

/-- The body of format SYS. -/
def bodySys (d a b : Reg) (sr : BitVec 12) (imm : BitVec 32) : BitVec 65 :=
  d ++ a ++ b ++ sr ++ imm ++ (0 : BitVec 3)

/-- The body of format II. -/
def bodyIi (d a : Reg) (u : BitVec 1) (cc : BitVec 3) (imm : BitVec 32) : BitVec 65 :=
  d ++ a ++ u ++ cc ++ (0 : BitVec 17) ++ imm

/-- The body of format IR. -/
def bodyIr (d a b c : Reg) (u : BitVec 1) (cc : BitVec 3) (pos len : BitVec 6) : BitVec 65 :=
  d ++ a ++ b ++ c ++ u ++ cc ++ pos ++ len ++ (0 : BitVec 25)

/-- The body of format FS. -/
def bodyFs (d a b c : Reg) (ty : BitVec 4) (rm : BitVec 3) (tty : BitVec 4) (cc : BitVec 3) : BitVec 65 :=
  d ++ a ++ b ++ c ++ ty ++ rm ++ tty ++ cc ++ (0 : BitVec 27)

/-- The body of format VA. -/
def bodyVa (d a b c : Reg) (ty : BitVec 4) (rm : BitVec 3) (oty : BitVec 4) (cc : BitVec 3) (sat : BitVec 1) : BitVec 65 :=
  d ++ a ++ b ++ c ++ ty ++ rm ++ oty ++ cc ++ sat ++ (0 : BitVec 26)

/-- The body of format VP. -/
def bodyVp (d a b c : Reg) (ty : BitVec 4) (rm : BitVec 3) (oty : BitVec 4) (idx : BitVec 6) (imm8 : BitVec 8) : BitVec 65 :=
  d ++ a ++ b ++ c ++ ty ++ rm ++ oty ++ idx ++ imm8 ++ (0 : BitVec 16)

/-- The body of format MX. -/
def bodyMx (d a b c : Reg) (ty : BitVec 4) (rm : BitVec 3) (row : BitVec 9) (colb : BitVec 4) (f : BitVec 1) : BitVec 65 :=
  d ++ a ++ b ++ c ++ ty ++ rm ++ row ++ colb ++ f ++ (0 : BitVec 20)

/-- The body of format SB. -/
def bodySb (d a b c : Reg) (grp : BitVec 8) (rm : BitVec 3) : BitVec 65 :=
  d ++ a ++ b ++ c ++ grp ++ rm ++ (0 : BitVec 30)

/-- The body of format ME. -/
def bodyMe (d a b : Reg) (off : BitVec 20) (win : BitVec 5) (port : BitVec 6) (hint : BitVec 3) (ty : BitVec 4) : BitVec 65 :=
  d ++ a ++ b ++ off ++ win ++ port ++ hint ++ ty ++ (0 : BitVec 9)

/-- The body of format CH. -/
def bodyCh (d a : Reg) (chan : BitVec 6) : BitVec 65 :=
  d ++ a ++ chan ++ (0 : BitVec 47)

/-- The body of format SQ. -/
def bodySq (d a b c : Reg) (port : BitVec 6) (strm : BitVec 8) : BitVec 65 :=
  d ++ a ++ b ++ c ++ port ++ strm ++ (0 : BitVec 27)

/-- The body of format TK. -/
def bodyTk (d a b c : Reg) (unit : BitVec 10) (param : BitVec 6) : BitVec 65 :=
  d ++ a ++ b ++ c ++ unit ++ param ++ (0 : BitVec 25)

/-- The body of format SY. -/
def bodySy (d a b c : Reg) (scope : BitVec 3) (aop : BitVec 5) (ty : BitVec 4) (slot : BitVec 8) : BitVec 65 :=
  d ++ a ++ b ++ c ++ scope ++ aop ++ ty ++ slot ++ (0 : BitVec 21)

/-- The body of format BR. -/
def bodyBr (d a b : Reg) (cc : BitVec 3) (u : BitVec 1) (off : BitVec 32) : BitVec 65 :=
  d ++ a ++ b ++ cc ++ u ++ off ++ (0 : BitVec 11)

/-- The instruction that an OP of format SYS selects, with its fields read from the word. -/
def candSys (w : Word) : Nat → Option Instr
  | 0 => some (.nop (hdrOf w))
  | 1 => some (.halt (hdrOf w))
  | 2 => some (.trap (hdrOf w) (w.extractLsb' 3 32))
  | 3 => some (.eret (hdrOf w))
  | 4 => some (.mfsr (hdrOf w) (w.extractLsb' 59 6) (w.extractLsb' 35 12))
  | 5 => some (.mtsr (hdrOf w) (w.extractLsb' 53 6) (w.extractLsb' 35 12))
  | 6 => some (.launch (hdrOf w) (w.extractLsb' 59 6) (w.extractLsb' 53 6) (w.extractLsb' 47 6))
  | 7 => some (.tlaunch (hdrOf w) (w.extractLsb' 59 6) (w.extractLsb' 53 6) (w.extractLsb' 47 6))
  | 8 => some (.loadcfg (hdrOf w) (w.extractLsb' 53 6))
  | 9 => some (.reconf (hdrOf w))
  | 10 => some (
    if (w.extractLsb' 3 32) = 1 then .shrinkQuery (hdrOf w) (w.extractLsb' 59 6) (w.extractLsb' 53 6) (w.extractLsb' 47 6)
    else .shrink (hdrOf w) (w.extractLsb' 59 6) (w.extractLsb' 53 6) (w.extractLsb' 47 6))
  | 11 => some (.csave (hdrOf w) (w.extractLsb' 59 6) (w.extractLsb' 53 6) (w.extractLsb' 47 6) (w.extractLsb' 3 32))
  | 12 => some (.crest (hdrOf w) (w.extractLsb' 59 6) (w.extractLsb' 53 6))
  | 13 => some (
    if (w.extractLsb' 3 32) = 1 then .wdogReport (hdrOf w) (w.extractLsb' 59 6) (w.extractLsb' 53 6)
    else if (w.extractLsb' 3 32) = 2 then .wdogNextStep (hdrOf w) (w.extractLsb' 59 6) (w.extractLsb' 53 6)
    else if (w.extractLsb' 3 32) = 3 then .wdogSuspend (hdrOf w) (w.extractLsb' 59 6) (w.extractLsb' 53 6)
    else .wdogRestart (hdrOf w) (w.extractLsb' 59 6) (w.extractLsb' 53 6))
  | 14 => some (.phcrd (hdrOf w) (w.extractLsb' 59 6) (w.extractLsb' 53 6))
  | 15 => some (
    if (w.extractLsb' 3 32) = 1 then .sslotRefresh (hdrOf w) (w.extractLsb' 59 6) (w.extractLsb' 53 6) (w.extractLsb' 47 6)
    else if (w.extractLsb' 3 32) = 2 then .sslotEvict (hdrOf w) (w.extractLsb' 59 6) (w.extractLsb' 53 6)
    else .sslotBind (hdrOf w) (w.extractLsb' 59 6) (w.extractLsb' 53 6) (w.extractLsb' 47 6))
  | 16 => some (
    if (w.extractLsb' 3 32) = 1 then .rtywReplay (hdrOf w) (w.extractLsb' 59 6) (w.extractLsb' 53 6) (w.extractLsb' 47 6)
    else .rtywSupply (hdrOf w) (w.extractLsb' 59 6) (w.extractLsb' 53 6) (w.extractLsb' 47 6))
  | 17 => some (.rtypop (hdrOf w) (w.extractLsb' 59 6))
  | 18 => some (
    if (w.extractLsb' 3 32) = 1 then .tlbinvAsid (hdrOf w) (w.extractLsb' 47 6)
    else if (w.extractLsb' 3 32) = 2 then .tlbinvAddress (hdrOf w) (w.extractLsb' 53 6) (w.extractLsb' 47 6)
    else .tlbinvAll (hdrOf w))
  | 19 => some (.ifence (hdrOf w))
  | 20 => some (.vcset (hdrOf w) (w.extractLsb' 59 6) (w.extractLsb' 53 6))
  | 21 => some (.tqset (hdrOf w) (w.extractLsb' 59 6) (w.extractLsb' 53 6))
  | 22 => some (.tqtest (hdrOf w) (w.extractLsb' 59 6) (w.extractLsb' 53 6))
  | _ => none

/-- The instruction that an OP of format IR selects, with its fields read from the word. -/
def candIr (w : Word) : Nat → Option Instr
  | 0 => some (.add (hdrOf w) (w.extractLsb' 59 6) (w.extractLsb' 53 6) (w.extractLsb' 47 6))
  | 1 => some (.sub (hdrOf w) (w.extractLsb' 59 6) (w.extractLsb' 53 6) (w.extractLsb' 47 6))
  | 2 => some (.mul (hdrOf w) (w.extractLsb' 59 6) (w.extractLsb' 53 6) (w.extractLsb' 47 6))
  | 3 => some (.mulh (hdrOf w) (w.extractLsb' 59 6) (w.extractLsb' 53 6) (w.extractLsb' 47 6) (w.extractLsb' 40 1))
  | 4 => some (.div (hdrOf w) (w.extractLsb' 59 6) (w.extractLsb' 53 6) (w.extractLsb' 47 6) (w.extractLsb' 40 1))
  | 5 => some (.rem (hdrOf w) (w.extractLsb' 59 6) (w.extractLsb' 53 6) (w.extractLsb' 47 6) (w.extractLsb' 40 1))
  | 6 => some (.and (hdrOf w) (w.extractLsb' 59 6) (w.extractLsb' 53 6) (w.extractLsb' 47 6))
  | 7 => some (.or (hdrOf w) (w.extractLsb' 59 6) (w.extractLsb' 53 6) (w.extractLsb' 47 6))
  | 8 => some (.xor (hdrOf w) (w.extractLsb' 59 6) (w.extractLsb' 53 6) (w.extractLsb' 47 6))
  | 9 => some (.shl (hdrOf w) (w.extractLsb' 59 6) (w.extractLsb' 53 6) (w.extractLsb' 47 6))
  | 10 => some (.shr (hdrOf w) (w.extractLsb' 59 6) (w.extractLsb' 53 6) (w.extractLsb' 47 6))
  | 11 => some (.sra (hdrOf w) (w.extractLsb' 59 6) (w.extractLsb' 53 6) (w.extractLsb' 47 6))
  | 12 => some (.clz (hdrOf w) (w.extractLsb' 59 6) (w.extractLsb' 53 6))
  | 13 => some (.popc (hdrOf w) (w.extractLsb' 59 6) (w.extractLsb' 53 6))
  | 14 => some (.min (hdrOf w) (w.extractLsb' 59 6) (w.extractLsb' 53 6) (w.extractLsb' 47 6) (w.extractLsb' 40 1))
  | 15 => some (.max (hdrOf w) (w.extractLsb' 59 6) (w.extractLsb' 53 6) (w.extractLsb' 47 6) (w.extractLsb' 40 1))
  | 16 => some (.setc (hdrOf w) (w.extractLsb' 59 6) (w.extractLsb' 53 6) (w.extractLsb' 47 6) (w.extractLsb' 40 1) (w.extractLsb' 37 3))
  | 17 => some (.sel (hdrOf w) (w.extractLsb' 59 6) (w.extractLsb' 53 6) (w.extractLsb' 47 6) (w.extractLsb' 41 6))
  | 18 => some (.bfx (hdrOf w) (w.extractLsb' 59 6) (w.extractLsb' 53 6) (w.extractLsb' 40 1) (w.extractLsb' 31 6) (w.extractLsb' 25 6))
  | 19 => some (.bfi (hdrOf w) (w.extractLsb' 59 6) (w.extractLsb' 53 6) (w.extractLsb' 47 6) (w.extractLsb' 31 6) (w.extractLsb' 25 6))
  | 20 => some (.lea (hdrOf w) (w.extractLsb' 59 6) (w.extractLsb' 53 6) (w.extractLsb' 47 6) (w.extractLsb' 31 6))
  | _ => none

/-- The instruction that an OP of format II selects, with its fields read from the word. -/
def candIi (w : Word) : Nat → Option Instr
  | 0 => some (.addImm (hdrOf w) (w.extractLsb' 59 6) (w.extractLsb' 53 6) (w.extractLsb' 0 32))
  | 6 => some (.andImm (hdrOf w) (w.extractLsb' 59 6) (w.extractLsb' 53 6) (w.extractLsb' 0 32))
  | 7 => some (.orImm (hdrOf w) (w.extractLsb' 59 6) (w.extractLsb' 53 6) (w.extractLsb' 0 32))
  | 8 => some (.xorImm (hdrOf w) (w.extractLsb' 59 6) (w.extractLsb' 53 6) (w.extractLsb' 0 32))
  | 9 => some (.shlImm (hdrOf w) (w.extractLsb' 59 6) (w.extractLsb' 53 6) (w.extractLsb' 0 32))
  | 10 => some (.shrImm (hdrOf w) (w.extractLsb' 59 6) (w.extractLsb' 53 6) (w.extractLsb' 0 32))
  | 11 => some (.sraImm (hdrOf w) (w.extractLsb' 59 6) (w.extractLsb' 53 6) (w.extractLsb' 0 32))
  | 16 => some (.setcImm (hdrOf w) (w.extractLsb' 59 6) (w.extractLsb' 53 6) (w.extractLsb' 52 1) (w.extractLsb' 49 3) (w.extractLsb' 0 32))
  | 32 => some (.movi (hdrOf w) (w.extractLsb' 59 6) (w.extractLsb' 0 32))
  | 33 => some (.movh (hdrOf w) (w.extractLsb' 59 6) (w.extractLsb' 53 6) (w.extractLsb' 0 32))
  | _ => none

/-- The instruction that an OP of format FS selects, with its fields read from the word. -/
def candFs (w : Word) : Nat → Option Instr
  | 0 => some (.fadd (hdrOf w) (w.extractLsb' 59 6) (w.extractLsb' 53 6) (w.extractLsb' 47 6) (w.extractLsb' 37 4) (w.extractLsb' 34 3))
  | 1 => some (.fsub (hdrOf w) (w.extractLsb' 59 6) (w.extractLsb' 53 6) (w.extractLsb' 47 6) (w.extractLsb' 37 4) (w.extractLsb' 34 3))
  | 2 => some (.fmul (hdrOf w) (w.extractLsb' 59 6) (w.extractLsb' 53 6) (w.extractLsb' 47 6) (w.extractLsb' 37 4) (w.extractLsb' 34 3))
  | 3 => some (.ffma (hdrOf w) (w.extractLsb' 59 6) (w.extractLsb' 53 6) (w.extractLsb' 47 6) (w.extractLsb' 41 6) (w.extractLsb' 37 4) (w.extractLsb' 34 3))
  | 4 => some (.fdiv (hdrOf w) (w.extractLsb' 59 6) (w.extractLsb' 53 6) (w.extractLsb' 47 6) (w.extractLsb' 37 4) (w.extractLsb' 34 3))
  | 5 => some (.fsqrt (hdrOf w) (w.extractLsb' 59 6) (w.extractLsb' 53 6) (w.extractLsb' 37 4) (w.extractLsb' 34 3))
  | 6 => some (.fmin (hdrOf w) (w.extractLsb' 59 6) (w.extractLsb' 53 6) (w.extractLsb' 47 6) (w.extractLsb' 37 4))
  | 7 => some (.fmax (hdrOf w) (w.extractLsb' 59 6) (w.extractLsb' 53 6) (w.extractLsb' 47 6) (w.extractLsb' 37 4))
  | 8 => some (.fsetc (hdrOf w) (w.extractLsb' 59 6) (w.extractLsb' 53 6) (w.extractLsb' 47 6) (w.extractLsb' 37 4) (w.extractLsb' 27 3))
  | 9 => some (.fcvt (hdrOf w) (w.extractLsb' 59 6) (w.extractLsb' 53 6) (w.extractLsb' 37 4) (w.extractLsb' 34 3) (w.extractLsb' 30 4))
  | 10 => some (.fclass (hdrOf w) (w.extractLsb' 59 6) (w.extractLsb' 53 6) (w.extractLsb' 37 4))
  | _ => none

/-- The instruction that an OP of format VA selects, with its fields read from the word. -/
def candVa (w : Word) : Nat → Option Instr
  | 0 => some (.vadd (hdrOf w) (w.extractLsb' 59 6) (w.extractLsb' 53 6) (w.extractLsb' 47 6) (w.extractLsb' 37 4) (w.extractLsb' 34 3) (w.extractLsb' 26 1))
  | 1 => some (.vsub (hdrOf w) (w.extractLsb' 59 6) (w.extractLsb' 53 6) (w.extractLsb' 47 6) (w.extractLsb' 37 4) (w.extractLsb' 34 3) (w.extractLsb' 26 1))
  | 2 => some (.vmul (hdrOf w) (w.extractLsb' 59 6) (w.extractLsb' 53 6) (w.extractLsb' 47 6) (w.extractLsb' 37 4) (w.extractLsb' 34 3) (w.extractLsb' 26 1))
  | 3 => some (.vfma (hdrOf w) (w.extractLsb' 59 6) (w.extractLsb' 53 6) (w.extractLsb' 47 6) (w.extractLsb' 41 6) (w.extractLsb' 37 4) (w.extractLsb' 34 3) (w.extractLsb' 26 1))
  | 4 => some (.vmin (hdrOf w) (w.extractLsb' 59 6) (w.extractLsb' 53 6) (w.extractLsb' 47 6) (w.extractLsb' 37 4))
  | 5 => some (.vmax (hdrOf w) (w.extractLsb' 59 6) (w.extractLsb' 53 6) (w.extractLsb' 47 6) (w.extractLsb' 37 4))
  | 6 => some (.vabs (hdrOf w) (w.extractLsb' 59 6) (w.extractLsb' 53 6) (w.extractLsb' 37 4) (w.extractLsb' 26 1))
  | 7 => some (.vneg (hdrOf w) (w.extractLsb' 59 6) (w.extractLsb' 53 6) (w.extractLsb' 37 4) (w.extractLsb' 26 1))
  | 8 => some (.vexp (hdrOf w) (w.extractLsb' 59 6) (w.extractLsb' 53 6) (w.extractLsb' 37 4) (w.extractLsb' 34 3))
  | 9 => some (.vlog (hdrOf w) (w.extractLsb' 59 6) (w.extractLsb' 53 6) (w.extractLsb' 37 4) (w.extractLsb' 34 3))
  | 10 => some (.vrcp (hdrOf w) (w.extractLsb' 59 6) (w.extractLsb' 53 6) (w.extractLsb' 37 4) (w.extractLsb' 34 3))
  | 11 => some (.vrsq (hdrOf w) (w.extractLsb' 59 6) (w.extractLsb' 53 6) (w.extractLsb' 37 4) (w.extractLsb' 34 3))
  | 12 => some (.vsetc (hdrOf w) (w.extractLsb' 59 6) (w.extractLsb' 53 6) (w.extractLsb' 47 6) (w.extractLsb' 37 4) (w.extractLsb' 27 3))
  | 13 => some (.vsel (hdrOf w) (w.extractLsb' 59 6) (w.extractLsb' 53 6) (w.extractLsb' 47 6) (w.extractLsb' 41 6) (w.extractLsb' 37 4))
  | 14 => some (.vand (hdrOf w) (w.extractLsb' 59 6) (w.extractLsb' 53 6) (w.extractLsb' 47 6))
  | 15 => some (.vor (hdrOf w) (w.extractLsb' 59 6) (w.extractLsb' 53 6) (w.extractLsb' 47 6))
  | 16 => some (.vxor (hdrOf w) (w.extractLsb' 59 6) (w.extractLsb' 53 6) (w.extractLsb' 47 6))
  | 17 => some (.vshl (hdrOf w) (w.extractLsb' 59 6) (w.extractLsb' 53 6) (w.extractLsb' 47 6) (w.extractLsb' 37 4))
  | 18 => some (.vshr (hdrOf w) (w.extractLsb' 59 6) (w.extractLsb' 53 6) (w.extractLsb' 47 6) (w.extractLsb' 37 4) (w.extractLsb' 26 1))
  | 19 => some (.vmov (hdrOf w) (w.extractLsb' 59 6) (w.extractLsb' 53 6))
  | 20 => some (.vdot (hdrOf w) (w.extractLsb' 59 6) (w.extractLsb' 53 6) (w.extractLsb' 47 6) (w.extractLsb' 37 4) (w.extractLsb' 34 3) (w.extractLsb' 30 4) (w.extractLsb' 26 1))
  | 21 => some (.vred (hdrOf w) (w.extractLsb' 59 6) (w.extractLsb' 53 6) (w.extractLsb' 37 4) (w.extractLsb' 34 3) (w.extractLsb' 30 4) (w.extractLsb' 26 1))
  | 22 => some (.vscan (hdrOf w) (w.extractLsb' 59 6) (w.extractLsb' 53 6) (w.extractLsb' 37 4) (w.extractLsb' 34 3) (w.extractLsb' 30 4) (w.extractLsb' 26 1))
  | _ => none

/-- The instruction that an OP of format VP selects, with its fields read from the word. -/
def candVp (w : Word) : Nat → Option Instr
  | 0 => some (.vshuf (hdrOf w) (w.extractLsb' 59 6) (w.extractLsb' 53 6) (w.extractLsb' 47 6) (w.extractLsb' 37 4))
  | 1 => some (.vbcast (hdrOf w) (w.extractLsb' 59 6) (w.extractLsb' 53 6) (w.extractLsb' 37 4) (w.extractLsb' 24 6))
  | 2 => some (.vextr (hdrOf w) (w.extractLsb' 59 6) (w.extractLsb' 53 6) (w.extractLsb' 47 6) (w.extractLsb' 37 4) (w.extractLsb' 24 6))
  | 3 => some (.vins (hdrOf w) (w.extractLsb' 59 6) (w.extractLsb' 53 6) (w.extractLsb' 47 6) (w.extractLsb' 37 4) (w.extractLsb' 24 6))
  | 4 => some (.vpack (hdrOf w) (w.extractLsb' 59 6) (w.extractLsb' 53 6) (w.extractLsb' 47 6) (w.extractLsb' 37 4) (w.extractLsb' 34 3) (w.extractLsb' 30 4))
  | 5 => some (.vunpk (hdrOf w) (w.extractLsb' 59 6) (w.extractLsb' 53 6) (w.extractLsb' 37 4) (w.extractLsb' 34 3) (w.extractLsb' 30 4) (w.extractLsb' 16 8))
  | 6 => some (.vcvt (hdrOf w) (w.extractLsb' 59 6) (w.extractLsb' 53 6) (w.extractLsb' 37 4) (w.extractLsb' 34 3) (w.extractLsb' 30 4))
  | 7 => some (.vqnt (hdrOf w) (w.extractLsb' 59 6) (w.extractLsb' 53 6) (w.extractLsb' 47 6) (w.extractLsb' 37 4) (w.extractLsb' 34 3) (w.extractLsb' 30 4) (w.extractLsb' 16 8))
  | 8 => some (.vdqnt (hdrOf w) (w.extractLsb' 59 6) (w.extractLsb' 53 6) (w.extractLsb' 37 4) (w.extractLsb' 34 3) (w.extractLsb' 30 4) (w.extractLsb' 16 8))
  | _ => none

/-- The instruction that an OP of format MX selects, with its fields read from the word. -/
def candMx (w : Word) : Nat → Option Instr
  | 0 => some (.mmode (hdrOf w) (w.extractLsb' 37 4) (w.extractLsb' 20 1))
  | 1 => some (.wload (hdrOf w) (w.extractLsb' 53 6) (w.extractLsb' 47 6) (w.extractLsb' 37 4) (w.extractLsb' 20 1))
  | 2 => some (.mma (hdrOf w) (w.extractLsb' 53 6) (w.extractLsb' 47 6) (w.extractLsb' 37 4) (w.extractLsb' 34 3) (w.extractLsb' 25 9) (w.extractLsb' 20 1))
  | 3 => some (.mmasp (hdrOf w) (w.extractLsb' 53 6) (w.extractLsb' 47 6) (w.extractLsb' 37 4) (w.extractLsb' 34 3) (w.extractLsb' 25 9) (w.extractLsb' 20 1))
  | 4 => some (.mmeta (hdrOf w) (w.extractLsb' 53 6))
  | 5 => some (.accz (hdrOf w) (w.extractLsb' 47 6) (w.extractLsb' 25 9))
  | 6 => some (.accld (hdrOf w) (w.extractLsb' 53 6) (w.extractLsb' 47 6) (w.extractLsb' 37 4) (w.extractLsb' 25 9))
  | 7 => some (.accst (hdrOf w) (w.extractLsb' 53 6) (w.extractLsb' 47 6) (w.extractLsb' 37 4) (w.extractLsb' 34 3) (w.extractLsb' 25 9))
  | 8 => some (.accrd (hdrOf w) (w.extractLsb' 59 6) (w.extractLsb' 47 6) (w.extractLsb' 25 9) (w.extractLsb' 21 4))
  | 9 => some (.accwr (hdrOf w) (w.extractLsb' 53 6) (w.extractLsb' 47 6) (w.extractLsb' 25 9) (w.extractLsb' 21 4))
  | _ => none

/-- The instruction that an OP of format SB selects, with its fields read from the word. -/
def candSb (w : Word) : Nat → Option Instr
  | 0 => some (.prmld (hdrOf w) (w.extractLsb' 53 6) (w.extractLsb' 47 6) (w.extractLsb' 33 8))
  | 1 => some (.prmap (hdrOf w) (w.extractLsb' 59 6) (w.extractLsb' 53 6) (w.extractLsb' 47 6) (w.extractLsb' 33 8))
  | 2 => some (.scans (hdrOf w) (w.extractLsb' 59 6) (w.extractLsb' 53 6))
  | 3 => some (.difld (hdrOf w) (w.extractLsb' 59 6) (w.extractLsb' 53 6))
  | 4 => some (.difmul (hdrOf w) (w.extractLsb' 59 6) (w.extractLsb' 53 6) (w.extractLsb' 47 6) (w.extractLsb' 41 6))
  | 5 => some (.sbpfin (hdrOf w) (w.extractLsb' 59 6) (w.extractLsb' 53 6) (w.extractLsb' 47 6) (w.extractLsb' 41 6) (w.extractLsb' 30 3))
  | 6 => some (.wsort (hdrOf w) (w.extractLsb' 59 6) (w.extractLsb' 53 6) (w.extractLsb' 47 6) (w.extractLsb' 33 8))
  | 7 => some (.yclr (hdrOf w) (w.extractLsb' 59 6))
  | _ => none

/-- The instruction that an OP of format ME selects, with its fields read from the word. -/
def candMe (w : Word) : Nat → Option Instr
  | 0 => some (.ld (hdrOf w) (w.extractLsb' 59 6) (w.extractLsb' 53 6) (w.extractLsb' 47 6) (w.extractLsb' 27 20) (w.extractLsb' 16 6) (w.extractLsb' 13 3) (w.extractLsb' 9 4))
  | 1 => some (.st (hdrOf w) (w.extractLsb' 59 6) (w.extractLsb' 53 6) (w.extractLsb' 47 6) (w.extractLsb' 27 20) (w.extractLsb' 16 6) (w.extractLsb' 13 3) (w.extractLsb' 9 4))
  | 2 => some (.vld (hdrOf w) (w.extractLsb' 59 6) (w.extractLsb' 53 6) (w.extractLsb' 47 6) (w.extractLsb' 27 20) (w.extractLsb' 16 6) (w.extractLsb' 13 3) (w.extractLsb' 9 4))
  | 3 => some (.vst (hdrOf w) (w.extractLsb' 59 6) (w.extractLsb' 53 6) (w.extractLsb' 47 6) (w.extractLsb' 27 20) (w.extractLsb' 16 6) (w.extractLsb' 13 3) (w.extractLsb' 9 4))
  | 4 => some (.ldw (hdrOf w) (w.extractLsb' 59 6) (w.extractLsb' 53 6) (w.extractLsb' 47 6) (w.extractLsb' 27 20) (w.extractLsb' 22 5) (w.extractLsb' 16 6) (w.extractLsb' 13 3) (w.extractLsb' 9 4))
  | 5 => some (.vldw (hdrOf w) (w.extractLsb' 59 6) (w.extractLsb' 53 6) (w.extractLsb' 47 6) (w.extractLsb' 27 20) (w.extractLsb' 22 5) (w.extractLsb' 16 6) (w.extractLsb' 13 3) (w.extractLsb' 9 4))
  | 6 => some (.vldx (hdrOf w) (w.extractLsb' 59 6) (w.extractLsb' 53 6) (w.extractLsb' 47 6) (w.extractLsb' 27 20) (w.extractLsb' 16 6) (w.extractLsb' 13 3) (w.extractLsb' 9 4))
  | 7 => some (.vstx (hdrOf w) (w.extractLsb' 59 6) (w.extractLsb' 53 6) (w.extractLsb' 47 6) (w.extractLsb' 27 20) (w.extractLsb' 16 6) (w.extractLsb' 13 3) (w.extractLsb' 9 4))
  | 8 => some (.bufput (hdrOf w) (w.extractLsb' 59 6) (w.extractLsb' 53 6) (w.extractLsb' 27 20) (w.extractLsb' 16 6) (w.extractLsb' 9 4))
  | 9 => some (.bufget (hdrOf w) (w.extractLsb' 59 6) (w.extractLsb' 27 20) (w.extractLsb' 16 6) (w.extractLsb' 9 4))
  | 10 => some (.ldsp (hdrOf w) (w.extractLsb' 59 6) (w.extractLsb' 53 6) (w.extractLsb' 47 6) (w.extractLsb' 27 20) (w.extractLsb' 9 4))
  | 11 => some (.stsp (hdrOf w) (w.extractLsb' 59 6) (w.extractLsb' 53 6) (w.extractLsb' 47 6) (w.extractLsb' 27 20) (w.extractLsb' 9 4))
  | 12 => some (.pref (hdrOf w) (w.extractLsb' 59 6) (w.extractLsb' 53 6) (w.extractLsb' 47 6) (w.extractLsb' 27 20))
  | 13 => some (.shadow (hdrOf w) (w.extractLsb' 59 6) (w.extractLsb' 53 6) (w.extractLsb' 47 6) (w.extractLsb' 27 20) (w.extractLsb' 16 6))
  | 14 => some (.unshadow (hdrOf w) (w.extractLsb' 53 6) (w.extractLsb' 16 6))
  | 15 => some (.clean (hdrOf w) (w.extractLsb' 53 6) (w.extractLsb' 47 6) (w.extractLsb' 27 20))
  | 16 => some (.inval (hdrOf w) (w.extractLsb' 53 6) (w.extractLsb' 47 6) (w.extractLsb' 27 20))
  | _ => none

/-- The instruction that an OP of format CH selects, with its fields read from the word. -/
def candCh (w : Word) : Nat → Option Instr
  | 0 => some (.send (hdrOf w) (w.extractLsb' 53 6) (w.extractLsb' 47 6))
  | 1 => some (.recv (hdrOf w) (w.extractLsb' 59 6) (w.extractLsb' 47 6))
  | 2 => some (.vsend (hdrOf w) (w.extractLsb' 53 6) (w.extractLsb' 47 6))
  | 3 => some (.vrecv (hdrOf w) (w.extractLsb' 59 6) (w.extractLsb' 47 6))
  | 4 => some (.csend (hdrOf w) (w.extractLsb' 53 6) (w.extractLsb' 47 6))
  | 5 => some (.crecv (hdrOf w) (w.extractLsb' 59 6) (w.extractLsb' 47 6))
  | _ => none

/-- The instruction that an OP of format SQ selects, with its fields read from the word. -/
def candSq (w : Word) : Nat → Option Instr
  | 0 => some (.sbind (hdrOf w) (w.extractLsb' 53 6) (w.extractLsb' 47 6) (w.extractLsb' 35 6) (w.extractLsb' 27 8))
  | 1 => some (.sq (hdrOf w) (w.extractLsb' 53 6) (w.extractLsb' 35 6) (w.extractLsb' 27 8))
  | 2 => some (.scopy (hdrOf w) (w.extractLsb' 59 6) (w.extractLsb' 53 6) (w.extractLsb' 47 6) (w.extractLsb' 41 6) (w.extractLsb' 35 6) (w.extractLsb' 27 8))
  | 3 => some (.scancel (hdrOf w) (w.extractLsb' 59 6) (w.extractLsb' 35 6) (w.extractLsb' 27 8))
  | 4 => some (.ssub (hdrOf w) (w.extractLsb' 59 6) (w.extractLsb' 53 6) (w.extractLsb' 35 6) (w.extractLsb' 27 8))
  | 5 => some (.sdist (hdrOf w) (w.extractLsb' 53 6) (w.extractLsb' 27 8))
  | 6 => some (.sstat (hdrOf w) (w.extractLsb' 59 6) (w.extractLsb' 53 6) (w.extractLsb' 35 6) (w.extractLsb' 27 8))
  | _ => none

/-- The instruction that an OP of format TK selects, with its fields read from the word. -/
def candTk (w : Word) : Nat → Option Instr
  | 0 => some (.opset (hdrOf w) (w.extractLsb' 53 6) (w.extractLsb' 31 10) (w.extractLsb' 25 6))
  | 1 => some (.opget (hdrOf w) (w.extractLsb' 59 6) (w.extractLsb' 31 10) (w.extractLsb' 25 6))
  | 2 => some (.route (hdrOf w) (w.extractLsb' 53 6) (w.extractLsb' 31 10) (w.extractLsb' 25 6))
  | 3 => some (.tinj (hdrOf w) (w.extractLsb' 53 6) (w.extractLsb' 47 6) (w.extractLsb' 31 10) (w.extractLsb' 25 6))
  | 4 => some (.tdrain (hdrOf w) (w.extractLsb' 59 6) (w.extractLsb' 31 10))
  | 5 => some (.tconv (hdrOf w) (w.extractLsb' 59 6) (w.extractLsb' 53 6) (w.extractLsb' 31 10))
  | 6 => some (.tappend (hdrOf w) (w.extractLsb' 59 6) (w.extractLsb' 53 6) (w.extractLsb' 47 6) (w.extractLsb' 31 10))
  | 7 => some (.tsplit (hdrOf w) (w.extractLsb' 59 6) (w.extractLsb' 53 6) (w.extractLsb' 47 6) (w.extractLsb' 31 10))
  | 8 => some (.tmerge (hdrOf w) (w.extractLsb' 59 6) (w.extractLsb' 53 6) (w.extractLsb' 47 6) (w.extractLsb' 31 10))
  | 9 => some (.tfork (hdrOf w) (w.extractLsb' 59 6) (w.extractLsb' 53 6) (w.extractLsb' 31 10))
  | 10 => some (
    if (w.extractLsb' 25 6) = 1 then .tevictRelease (hdrOf w) (w.extractLsb' 59 6) (w.extractLsb' 53 6) (w.extractLsb' 47 6) (w.extractLsb' 31 10)
    else .tevict (hdrOf w) (w.extractLsb' 59 6) (w.extractLsb' 53 6) (w.extractLsb' 47 6) (w.extractLsb' 31 10))
  | 11 => some (.tquery (hdrOf w) (w.extractLsb' 59 6) (w.extractLsb' 53 6) (w.extractLsb' 47 6) (w.extractLsb' 41 6) (w.extractLsb' 31 10))
  | 12 => some (.tnode (hdrOf w) (w.extractLsb' 59 6) (w.extractLsb' 53 6) (w.extractLsb' 47 6) (w.extractLsb' 41 6) (w.extractLsb' 31 10) (w.extractLsb' 25 6))
  | 13 => some (.pklook (hdrOf w) (w.extractLsb' 59 6) (w.extractLsb' 53 6) (w.extractLsb' 47 6) (w.extractLsb' 41 6) (w.extractLsb' 31 10))
  | 14 => some (
    if (w.extractLsb' 25 6) = 1 then .smpdrawVerify (hdrOf w) (w.extractLsb' 59 6) (w.extractLsb' 53 6) (w.extractLsb' 47 6) (w.extractLsb' 41 6) (w.extractLsb' 31 10)
    else .smpdrawSample (hdrOf w) (w.extractLsb' 59 6) (w.extractLsb' 53 6) (w.extractLsb' 47 6) (w.extractLsb' 31 10))
  | 15 => some (.acpt (hdrOf w) (w.extractLsb' 59 6) (w.extractLsb' 53 6) (w.extractLsb' 47 6) (w.extractLsb' 41 6) (w.extractLsb' 31 10))
  | 16 => some (.gmstep (hdrOf w) (w.extractLsb' 59 6) (w.extractLsb' 53 6) (w.extractLsb' 31 10))
  | _ => none

/-- The instruction that an OP of format SY selects, with its fields read from the word. -/
def candSy (w : Word) : Nat → Option Instr
  | 0 => some (.fence (hdrOf w) (w.extractLsb' 38 3))
  | 1 => some (.frame (hdrOf w))
  | 2 => some (.rmws (hdrOf w) (w.extractLsb' 59 6) (w.extractLsb' 53 6) (w.extractLsb' 47 6) (w.extractLsb' 41 6) (w.extractLsb' 33 5) (w.extractLsb' 29 4) (w.extractLsb' 21 8))
  | 3 => some (.redseq (hdrOf w) (w.extractLsb' 53 6) (w.extractLsb' 47 6) (w.extractLsb' 41 6) (w.extractLsb' 33 5) (w.extractLsb' 29 4))
  | 4 => some (.amo (hdrOf w) (w.extractLsb' 59 6) (w.extractLsb' 53 6) (w.extractLsb' 47 6) (w.extractLsb' 41 6) (w.extractLsb' 33 5) (w.extractLsb' 29 4))
  | 5 => some (.bara (hdrOf w) (w.extractLsb' 53 6) (w.extractLsb' 47 6))
  | 6 => some (.barw (hdrOf w) (w.extractLsb' 53 6))
  | 7 => some (.marm (hdrOf w) (w.extractLsb' 53 6))
  | 8 => some (.mwait (hdrOf w) (w.extractLsb' 59 6) (w.extractLsb' 53 6))
  | 9 => some (.xbegin (hdrOf w))
  | 10 => some (.xend (hdrOf w) (w.extractLsb' 59 6))
  | 11 => some (.xabort (hdrOf w) (w.extractLsb' 53 6))
  | _ => none

/-- The instruction that an OP of format BR selects, with its fields read from the word. -/
def candBr (w : Word) : Nat → Option Instr
  | 0 => some (.br (hdrOf w) (w.extractLsb' 11 32))
  | 1 => some (.bc (hdrOf w) (w.extractLsb' 53 6) (w.extractLsb' 47 6) (w.extractLsb' 44 3) (w.extractLsb' 43 1) (w.extractLsb' 11 32))
  | 2 => some (.jal (hdrOf w) (w.extractLsb' 59 6) (w.extractLsb' 11 32))
  | 3 => some (.jalr (hdrOf w) (w.extractLsb' 59 6) (w.extractLsb' 53 6) (w.extractLsb' 11 32))
  | _ => none

/-- The instruction that FMT and OP of a word select (Table 3-18). -/
def candidate (w : Word) : Option Instr :=
  let op := (w.extractLsb' 70 6).toNat
  match (w.extractLsb' 76 4).toNat with
  | 0 => candSys w op
  | 1 => candIr w op
  | 2 => candIi w op
  | 3 => candFs w op
  | 4 => candVa w op
  | 5 => candVp w op
  | 6 => candMx w op
  | 7 => candSb w op
  | 8 => candMe w op
  | 9 => candCh w op
  | 10 => candSq w op
  | 11 => candTk w op
  | 12 => candSy w op
  | 13 => candBr w op
  | _ => none

/-- The word of an instruction; none for a row that no word encodes. -/
def encode : Instr → Option Word
  | .nop h => some (wordOf 0 0 h (bodySys 0 0 0 0 0))
  | .halt h => some (wordOf 0 1 h (bodySys 0 0 0 0 0))
  | .trap h imm => some (wordOf 0 2 h (bodySys 0 0 0 0 imm))
  | .eret h => some (wordOf 0 3 h (bodySys 0 0 0 0 0))
  | .mfsr h d sr => some (wordOf 0 4 h (bodySys d 0 0 sr 0))
  | .mtsr h a sr => some (wordOf 0 5 h (bodySys 0 a 0 sr 0))
  | .launch h d a b => some (wordOf 0 6 h (bodySys d a b 0 0))
  | .tlaunch h d a b => some (wordOf 0 7 h (bodySys d a b 0 0))
  | .loadcfg h a => some (wordOf 0 8 h (bodySys 0 a 0 0 0))
  | .reconf h => some (wordOf 0 9 h (bodySys 0 0 0 0 0))
  | .shrink h d a b => some (wordOf 0 10 h (bodySys d a b 0 0))
  | .shrinkQuery h d a b => some (wordOf 0 10 h (bodySys d a b 0 1))
  | .csave h d a b imm => some (wordOf 0 11 h (bodySys d a b 0 imm))
  | .crest h d a => some (wordOf 0 12 h (bodySys d a 0 0 0))
  | .wdogRestart h d a => some (wordOf 0 13 h (bodySys d a 0 0 0))
  | .wdogReport h d a => some (wordOf 0 13 h (bodySys d a 0 0 1))
  | .wdogNextStep h d a => some (wordOf 0 13 h (bodySys d a 0 0 2))
  | .wdogSuspend h d a => some (wordOf 0 13 h (bodySys d a 0 0 3))
  | .phcrd h d a => some (wordOf 0 14 h (bodySys d a 0 0 0))
  | .sslotBind h d a b => some (wordOf 0 15 h (bodySys d a b 0 0))
  | .sslotRefresh h d a b => some (wordOf 0 15 h (bodySys d a b 0 1))
  | .sslotEvict h d a => some (wordOf 0 15 h (bodySys d a 0 0 2))
  | .rtywSupply h d a b => some (wordOf 0 16 h (bodySys d a b 0 0))
  | .rtywReplay h d a b => some (wordOf 0 16 h (bodySys d a b 0 1))
  | .rtypop h d => some (wordOf 0 17 h (bodySys d 0 0 0 0))
  | .tlbinvAll h => some (wordOf 0 18 h (bodySys 0 0 0 0 0))
  | .tlbinvAsid h b => some (wordOf 0 18 h (bodySys 0 0 b 0 1))
  | .tlbinvAddress h a b => some (wordOf 0 18 h (bodySys 0 a b 0 2))
  | .ifence h => some (wordOf 0 19 h (bodySys 0 0 0 0 0))
  | .vcset h d a => some (wordOf 0 20 h (bodySys d a 0 0 0))
  | .tqset h d a => some (wordOf 0 21 h (bodySys d a 0 0 0))
  | .tqtest h d a => some (wordOf 0 22 h (bodySys d a 0 0 0))
  | .add h d a b => some (wordOf 1 0 h (bodyIr d a b 0 0 0 0 0))
  | .sub h d a b => some (wordOf 1 1 h (bodyIr d a b 0 0 0 0 0))
  | .mul h d a b => some (wordOf 1 2 h (bodyIr d a b 0 0 0 0 0))
  | .and h d a b => some (wordOf 1 6 h (bodyIr d a b 0 0 0 0 0))
  | .or h d a b => some (wordOf 1 7 h (bodyIr d a b 0 0 0 0 0))
  | .xor h d a b => some (wordOf 1 8 h (bodyIr d a b 0 0 0 0 0))
  | .shl h d a b => some (wordOf 1 9 h (bodyIr d a b 0 0 0 0 0))
  | .shr h d a b => some (wordOf 1 10 h (bodyIr d a b 0 0 0 0 0))
  | .sra h d a b => some (wordOf 1 11 h (bodyIr d a b 0 0 0 0 0))
  | .mulh h d a b u => some (wordOf 1 3 h (bodyIr d a b 0 u 0 0 0))
  | .div h d a b u => some (wordOf 1 4 h (bodyIr d a b 0 u 0 0 0))
  | .rem h d a b u => some (wordOf 1 5 h (bodyIr d a b 0 u 0 0 0))
  | .min h d a b u => some (wordOf 1 14 h (bodyIr d a b 0 u 0 0 0))
  | .max h d a b u => some (wordOf 1 15 h (bodyIr d a b 0 u 0 0 0))
  | .clz h d a => some (wordOf 1 12 h (bodyIr d a 0 0 0 0 0 0))
  | .popc h d a => some (wordOf 1 13 h (bodyIr d a 0 0 0 0 0 0))
  | .setc h d a b u cc => some (wordOf 1 16 h (bodyIr d a b 0 u cc 0 0))
  | .sel h d a b c => some (wordOf 1 17 h (bodyIr d a b c 0 0 0 0))
  | .bfx h d a u pos len => some (wordOf 1 18 h (bodyIr d a 0 0 u 0 pos len))
  | .bfi h d a b pos len => some (wordOf 1 19 h (bodyIr d a b 0 0 0 pos len))
  | .lea h d a b pos => some (wordOf 1 20 h (bodyIr d a b 0 0 0 pos 0))
  | .addImm h d a imm => some (wordOf 2 0 h (bodyIi d a 0 0 imm))
  | .andImm h d a imm => some (wordOf 2 6 h (bodyIi d a 0 0 imm))
  | .orImm h d a imm => some (wordOf 2 7 h (bodyIi d a 0 0 imm))
  | .xorImm h d a imm => some (wordOf 2 8 h (bodyIi d a 0 0 imm))
  | .shlImm h d a imm => some (wordOf 2 9 h (bodyIi d a 0 0 imm))
  | .shrImm h d a imm => some (wordOf 2 10 h (bodyIi d a 0 0 imm))
  | .sraImm h d a imm => some (wordOf 2 11 h (bodyIi d a 0 0 imm))
  | .setcImm h d a u cc imm => some (wordOf 2 16 h (bodyIi d a u cc imm))
  | .movi h d imm => some (wordOf 2 32 h (bodyIi d 0 0 0 imm))
  | .movh h d a imm => some (wordOf 2 33 h (bodyIi d a 0 0 imm))
  | .fadd h d a b ty rm => some (wordOf 3 0 h (bodyFs d a b 0 ty rm 0 0))
  | .fsub h d a b ty rm => some (wordOf 3 1 h (bodyFs d a b 0 ty rm 0 0))
  | .fmul h d a b ty rm => some (wordOf 3 2 h (bodyFs d a b 0 ty rm 0 0))
  | .fdiv h d a b ty rm => some (wordOf 3 4 h (bodyFs d a b 0 ty rm 0 0))
  | .ffma h d a b c ty rm => some (wordOf 3 3 h (bodyFs d a b c ty rm 0 0))
  | .fsqrt h d a ty rm => some (wordOf 3 5 h (bodyFs d a 0 0 ty rm 0 0))
  | .fmin h d a b ty => some (wordOf 3 6 h (bodyFs d a b 0 ty 0 0 0))
  | .fmax h d a b ty => some (wordOf 3 7 h (bodyFs d a b 0 ty 0 0 0))
  | .fsetc h d a b ty cc => some (wordOf 3 8 h (bodyFs d a b 0 ty 0 0 cc))
  | .fcvt h d a ty rm tty => some (wordOf 3 9 h (bodyFs d a 0 0 ty rm tty 0))
  | .fclass h d a ty => some (wordOf 3 10 h (bodyFs d a 0 0 ty 0 0 0))
  | .vadd h d a b ty rm sat => some (wordOf 4 0 h (bodyVa d a b 0 ty rm 0 0 sat))
  | .vsub h d a b ty rm sat => some (wordOf 4 1 h (bodyVa d a b 0 ty rm 0 0 sat))
  | .vmul h d a b ty rm sat => some (wordOf 4 2 h (bodyVa d a b 0 ty rm 0 0 sat))
  | .vfma h d a b c ty rm sat => some (wordOf 4 3 h (bodyVa d a b c ty rm 0 0 sat))
  | .vmin h d a b ty => some (wordOf 4 4 h (bodyVa d a b 0 ty 0 0 0 0))
  | .vmax h d a b ty => some (wordOf 4 5 h (bodyVa d a b 0 ty 0 0 0 0))
  | .vabs h d a ty sat => some (wordOf 4 6 h (bodyVa d a 0 0 ty 0 0 0 sat))
  | .vneg h d a ty sat => some (wordOf 4 7 h (bodyVa d a 0 0 ty 0 0 0 sat))
  | .vexp h d a ty rm => some (wordOf 4 8 h (bodyVa d a 0 0 ty rm 0 0 0))
  | .vlog h d a ty rm => some (wordOf 4 9 h (bodyVa d a 0 0 ty rm 0 0 0))
  | .vrcp h d a ty rm => some (wordOf 4 10 h (bodyVa d a 0 0 ty rm 0 0 0))
  | .vrsq h d a ty rm => some (wordOf 4 11 h (bodyVa d a 0 0 ty rm 0 0 0))
  | .vsetc h d a b ty cc => some (wordOf 4 12 h (bodyVa d a b 0 ty 0 0 cc 0))
  | .vsel h d a b c ty => some (wordOf 4 13 h (bodyVa d a b c ty 0 0 0 0))
  | .vand h d a b => some (wordOf 4 14 h (bodyVa d a b 0 15 0 0 0 0))
  | .vor h d a b => some (wordOf 4 15 h (bodyVa d a b 0 15 0 0 0 0))
  | .vxor h d a b => some (wordOf 4 16 h (bodyVa d a b 0 15 0 0 0 0))
  | .vmov h d a => some (wordOf 4 19 h (bodyVa d a 0 0 15 0 0 0 0))
  | .vshl h d a b ty => some (wordOf 4 17 h (bodyVa d a b 0 ty 0 0 0 0))
  | .vshr h d a b ty sat => some (wordOf 4 18 h (bodyVa d a b 0 ty 0 0 0 sat))
  | .vdot h d a b ty rm oty sat => some (wordOf 4 20 h (bodyVa d a b 0 ty rm oty 0 sat))
  | .vred h d a ty rm oty sat => some (wordOf 4 21 h (bodyVa d a 0 0 ty rm oty 0 sat))
  | .vscan h d a ty rm oty sat => some (wordOf 4 22 h (bodyVa d a 0 0 ty rm oty 0 sat))
  | .vshuf h d a b ty => some (wordOf 5 0 h (bodyVp d a b 0 ty 0 0 0 0))
  | .vbcast h d a ty idx => some (wordOf 5 1 h (bodyVp d a 0 0 ty 0 0 idx 0))
  | .vextr h d a b ty idx => some (wordOf 5 2 h (bodyVp d a b 0 ty 0 0 idx 0))
  | .vins h d a b ty idx => some (wordOf 5 3 h (bodyVp d a b 0 ty 0 0 idx 0))
  | .vpack h d a b ty rm oty => some (wordOf 5 4 h (bodyVp d a b 0 ty rm oty 0 0))
  | .vunpk h d a ty rm oty imm8 => some (wordOf 5 5 h (bodyVp d a 0 0 ty rm oty 0 imm8))
  | .vcvt h d a ty rm oty => some (wordOf 5 6 h (bodyVp d a 0 0 ty rm oty 0 0))
  | .vqnt h d a b ty rm oty imm8 => some (wordOf 5 7 h (bodyVp d a b 0 ty rm oty 0 imm8))
  | .vdqnt h d a ty rm oty imm8 => some (wordOf 5 8 h (bodyVp d a 0 0 ty rm oty 0 imm8))
  | .mmode h ty f => some (wordOf 6 0 h (bodyMx 0 0 0 0 ty 0 0 0 f))
  | .wload h a b ty f => some (wordOf 6 1 h (bodyMx 0 a b 0 ty 0 0 0 f))
  | .mma h a b ty rm row f => some (wordOf 6 2 h (bodyMx 0 a b 0 ty rm row 0 f))
  | .mmasp h a b ty rm row f => some (wordOf 6 3 h (bodyMx 0 a b 0 ty rm row 0 f))
  | .mmeta h a => some (wordOf 6 4 h (bodyMx 0 a 0 0 0 0 0 0 0))
  | .accz h b row => some (wordOf 6 5 h (bodyMx 0 0 b 0 0 0 row 0 0))
  | .accld h a b ty row => some (wordOf 6 6 h (bodyMx 0 a b 0 ty 0 row 0 0))
  | .accst h a b ty rm row => some (wordOf 6 7 h (bodyMx 0 a b 0 ty rm row 0 0))
  | .accrd h d b row colb => some (wordOf 6 8 h (bodyMx d 0 b 0 0 0 row colb 0))
  | .accwr h a b row colb => some (wordOf 6 9 h (bodyMx 0 a b 0 0 0 row colb 0))
  | .prmld h a b grp => some (wordOf 7 0 h (bodySb 0 a b 0 grp 0))
  | .prmap h d a b grp => some (wordOf 7 1 h (bodySb d a b 0 grp 0))
  | .scans h d a => some (wordOf 7 2 h (bodySb d a 0 0 0 0))
  | .difld h d a => some (wordOf 7 3 h (bodySb d a 0 0 0 0))
  | .difmul h d a b c => some (wordOf 7 4 h (bodySb d a b c 0 0))
  | .sbpfin h d a b c rm => some (wordOf 7 5 h (bodySb d a b c 0 rm))
  | .wsort h d a b grp => some (wordOf 7 6 h (bodySb d a b 0 grp 0))
  | .yclr h d => some (wordOf 7 7 h (bodySb d 0 0 0 0 0))
  | .ld h d a b off port hint ty => some (wordOf 8 0 h (bodyMe d a b off 0 port hint ty))
  | .st h d a b off port hint ty => some (wordOf 8 1 h (bodyMe d a b off 0 port hint ty))
  | .vld h d a b off port hint ty => some (wordOf 8 2 h (bodyMe d a b off 0 port hint ty))
  | .vst h d a b off port hint ty => some (wordOf 8 3 h (bodyMe d a b off 0 port hint ty))
  | .ldw h d a b off win port hint ty => some (wordOf 8 4 h (bodyMe d a b off win port hint ty))
  | .vldw h d a b off win port hint ty => some (wordOf 8 5 h (bodyMe d a b off win port hint ty))
  | .vldx h d a b off port hint ty => some (wordOf 8 6 h (bodyMe d a b off 0 port hint ty))
  | .vstx h d a b off port hint ty => some (wordOf 8 7 h (bodyMe d a b off 0 port hint ty))
  | .bufput h d a off port ty => some (wordOf 8 8 h (bodyMe d a 0 off 0 port 0 ty))
  | .bufget h d off port ty => some (wordOf 8 9 h (bodyMe d 0 0 off 0 port 0 ty))
  | .ldsp h d a b off ty => some (wordOf 8 10 h (bodyMe d a b off 0 0 0 ty))
  | .stsp h d a b off ty => some (wordOf 8 11 h (bodyMe d a b off 0 0 0 ty))
  | .pref h d a b off => some (wordOf 8 12 h (bodyMe d a b off 0 0 0 15))
  | .shadow h d a b off port => some (wordOf 8 13 h (bodyMe d a b off 0 port 0 15))
  | .unshadow h a port => some (wordOf 8 14 h (bodyMe 0 a 0 0 0 port 0 15))
  | .clean h a b off => some (wordOf 8 15 h (bodyMe 0 a b off 0 0 0 15))
  | .inval h a b off => some (wordOf 8 16 h (bodyMe 0 a b off 0 0 0 15))
  | .send h a chan => some (wordOf 9 0 h (bodyCh 0 a chan))
  | .recv h d chan => some (wordOf 9 1 h (bodyCh d 0 chan))
  | .vsend h a chan => some (wordOf 9 2 h (bodyCh 0 a chan))
  | .vrecv h d chan => some (wordOf 9 3 h (bodyCh d 0 chan))
  | .csend h a chan => some (wordOf 9 4 h (bodyCh 0 a chan))
  | .crecv h d chan => some (wordOf 9 5 h (bodyCh d 0 chan))
  | .sbind h a b port strm => some (wordOf 10 0 h (bodySq 0 a b 0 port strm))
  | .sq h a port strm => some (wordOf 10 1 h (bodySq 0 a 0 0 port strm))
  | .scopy h d a b c port strm => some (wordOf 10 2 h (bodySq d a b c port strm))
  | .scancel h d port strm => some (wordOf 10 3 h (bodySq d 0 0 0 port strm))
  | .ssub h d a port strm => some (wordOf 10 4 h (bodySq d a 0 0 port strm))
  | .sdist h a strm => some (wordOf 10 5 h (bodySq 0 a 0 0 0 strm))
  | .sstat h d a port strm => some (wordOf 10 6 h (bodySq d a 0 0 port strm))
  | .opset h a unit param => some (wordOf 11 0 h (bodyTk 0 a 0 0 unit param))
  | .opget h d unit param => some (wordOf 11 1 h (bodyTk d 0 0 0 unit param))
  | .route h a unit param => some (wordOf 11 2 h (bodyTk 0 a 0 0 unit param))
  | .tinj h a b unit param => some (wordOf 11 3 h (bodyTk 0 a b 0 unit param))
  | .tdrain h d unit => some (wordOf 11 4 h (bodyTk d 0 0 0 unit 0))
  | .tconv h d a unit => some (wordOf 11 5 h (bodyTk d a 0 0 unit 0))
  | .tappend h d a b unit => some (wordOf 11 6 h (bodyTk d a b 0 unit 0))
  | .tsplit h d a b unit => some (wordOf 11 7 h (bodyTk d a b 0 unit 0))
  | .tmerge h d a b unit => some (wordOf 11 8 h (bodyTk d a b 0 unit 0))
  | .tfork h d a unit => some (wordOf 11 9 h (bodyTk d a 0 0 unit 0))
  | .tevict h d a b unit => some (wordOf 11 10 h (bodyTk d a b 0 unit 0))
  | .tevictRelease h d a b unit => some (wordOf 11 10 h (bodyTk d a b 0 unit 1))
  | .tquery h d a b c unit => some (wordOf 11 11 h (bodyTk d a b c unit 0))
  | .tnode h d a b c unit param => some (wordOf 11 12 h (bodyTk d a b c unit param))
  | .pklook h d a b c unit => some (wordOf 11 13 h (bodyTk d a b c unit 0))
  | .smpdrawSample h d a b unit => some (wordOf 11 14 h (bodyTk d a b 0 unit 0))
  | .smpdrawVerify h d a b c unit => some (wordOf 11 14 h (bodyTk d a b c unit 1))
  | .acpt h d a b c unit => some (wordOf 11 15 h (bodyTk d a b c unit 0))
  | .gmstep h d a unit => some (wordOf 11 16 h (bodyTk d a 0 0 unit 0))
  | .fence h scope => some (wordOf 12 0 h (bodySy 0 0 0 0 scope 0 0 0))
  | .frame h => some (wordOf 12 1 h (bodySy 0 0 0 0 0 0 0 0))
  | .rmws h d a b c aop ty slot => some (wordOf 12 2 h (bodySy d a b c 0 aop ty slot))
  | .redseq h a b c aop ty => some (wordOf 12 3 h (bodySy 0 a b c 0 aop ty 0))
  | .amo h d a b c aop ty => some (wordOf 12 4 h (bodySy d a b c 0 aop ty 0))
  | .bara h a b => some (wordOf 12 5 h (bodySy 0 a b 0 0 0 0 0))
  | .barw h a => some (wordOf 12 6 h (bodySy 0 a 0 0 0 0 0 0))
  | .marm h a => some (wordOf 12 7 h (bodySy 0 a 0 0 0 0 0 0))
  | .mwait h d a => some (wordOf 12 8 h (bodySy d a 0 0 0 0 0 0))
  | .xbegin h => some (wordOf 12 9 h (bodySy 0 0 0 0 0 0 0 0))
  | .xend h d => some (wordOf 12 10 h (bodySy d 0 0 0 0 0 0 0))
  | .xabort h a => some (wordOf 12 11 h (bodySy 0 a 0 0 0 0 0 0))
  | .br h off => some (wordOf 13 0 h (bodyBr 0 0 0 0 0 off))
  | .bc h a b cc u off => some (wordOf 13 1 h (bodyBr 0 a b cc u off))
  | .jal h d off => some (wordOf 13 2 h (bodyBr d 0 0 0 0 off))
  | .jalr h d a off => some (wordOf 13 3 h (bodyBr d a 0 0 0 off))
  | .istartFreshStart h sr a => some (wordOf 0 5 h (bodySys 0 a 0 sr 0))
  | .istartResume h sr a => some (wordOf 0 5 h (bodySys 0 a 0 sr 0))
  | .istartCancel h sr a => some (wordOf 0 5 h (bodySys 0 a 0 sr 0))
  | .eflagsClear h sr a => some (wordOf 0 5 h (bodySys 0 a 0 sr 0))
  | .ufinfoRead h d sr => some (wordOf 0 4 h (bodySys d 0 0 sr 0))
  | .ucfgRead h d sr => some (wordOf 0 4 h (bodySys d 0 0 sr 0))
  | .lqstatClearDrops h sr a => some (wordOf 0 5 h (bodySys 0 a 0 sr 0))
  | .shctlRun h sr a => some (wordOf 0 5 h (bodySys 0 a 0 sr 0))
  | .shctlFreeze h sr a => some (wordOf 0 5 h (bodySys 0 a 0 sr 0))
  | .shctlReset h sr a => some (wordOf 0 5 h (bodySys 0 a 0 sr 0))
  | .windowDataArrival _ _ _ => none
  | .windowClose _ _ _ => none
  | .freezeLimit _ => none
  | .invocationEnd _ => none
  | .cueRelease _ => none
  | .understudySwitch _ => none
  | .loadcfgInstall _ => none
  | .reconfTokenPass _ => none
  | .scoreFiring _ => none
  | .descendFiring _ => none
  | .treeupdFiring _ => none
  | .queryPin _ => none
  | .queryUnpin _ => none
  | .pkeyFiring _ => none
  | .cascellHeader _ => none
  | .cascellCollect _ => none
  | .cascellDrain _ => none
  | .cumselSampleFiring _ => none
  | .cumselVerifyFiring _ => none
  | .acceptFiring _ => none
  | .grammarStepFiring _ => none
  | .grammarMaskFiring _ => none
  | .gatherFiring _ => none
  | .gatherRowArrival _ _ => none
  | .reduceFiring _ => none
  | .quantFiring _ => none
  | .switchSteer _ => none
  | .switchMerge _ => none
  | .switchCopy _ => none
  | .unitTokenEmit _ => none
  | .converterTokenIn _ => none
  | .remoteBufputArrival _ => none
  | .scalarChannelArrival _ _ => none
  | .vectorChannelArrival _ _ => none
  | .distributorSendBeat _ _ => none
  | .streamProducerStart _ _ => none
  | .streamCommandFinish _ _ => none
  | .redseqPlaceFree _ => none
  | .mwaitReturn _ => none
  | .barwReturn _ => none
  | .asyncEventTake _ => none
  | .graphStart _ => none
  | .graphEnd _ => none
  | .wdogPreempt _ => none
  | .wdogKill _ => none
  | .wdogFence _ => none
  | .saveComplete => none
  | .softError => none
  | .fatalDumpDone => none
  | .powerAverageHigh _ => none
  | .powerFatal _ => none
  | .temperatureFatal _ => none
  | .powerOnReset => none
  | .bringUpComplete => none
  | .attestationRequest _ => none
  | .attestationReport => none
  | .hostWrite _ _ _ => none
  | .hostRead _ _ _ => none
  | .peerWrite _ _ _ _ => none
  | .peerRead _ _ _ => none
  | .brunexPacketArrival _ => none
  | .linkRetrain _ => none
  | .ethernetLinkEvent _ => none
  | .ptpEventTimestamp _ => none
  | .powerAverageNormal _ => none
  | .hostLaunchWrite _ _ _ => none
  | .silenceEviction _ => none
  | .pageTableWalk _ _ => none
  | .codecBlockOperation _ _ _ _ _ => none
  | .redseqArrival _ => none
  | .prefComplete _ => none

/-- The register fields of a word's format, used or not (Tables 3-3 to 3-17). -/
def registerFields (w : Word) : List Reg :=
  let d : Reg := w.extractLsb' 59 6
  let a : Reg := w.extractLsb' 53 6
  let b : Reg := w.extractLsb' 47 6
  match (w.extractLsb' 76 4).toNat with
  | 0 | 8 | 13 => [d, a, b]
  | 2 | 9 => [d, a]
  | _ => [d, a, b, w.extractLsb' 41 6]

/-- The instruction of a word, or why it is none. Total on every word. -/
def decode (w : Word) : Except DecodeError Instr :=
  match candidate w with
  | none => .error .unassigned
  | some i => if encode i = some w then .ok i else .error (.reserved i (registerFields w))

/-- The ten bytes of a word, lowest address first (R68). -/
def wordBytes (w : Word) : List (BitVec 8) :=
  (List.range 10).map fun i => w.extractLsb' (8 * i) 8

/-- A word put together from its ten bytes, lowest address first (R68). -/
def wordOfBytes (l : List (BitVec 8)) : Word :=
  BitVec.ofNat 80 (l.foldr (fun b n => n * 256 + b.toNat) 0)

/-- The instruction that the word of a row is: the rows of single registers are words of MTSR and MFSR, every other row is itself. -/
def coreForm : Instr → Instr
  | .istartFreshStart h sr a | .istartResume h sr a | .istartCancel h sr a | .eflagsClear h sr a
  | .lqstatClearDrops h sr a | .shctlRun h sr a | .shctlFreeze h sr a | .shctlReset h sr a => .mtsr h a sr
  | .ufinfoRead h d sr | .ucfgRead h d sr => .mfsr h d sr
  | i => i

/-- The decoder on the table's numbering of bits: bit 0 is the least significant bit of the word. -/
def decodeTableWord (nbits w : Nat) : Option Instr :=
  if nbits ≤ 80 then
    match decode (BitVec.ofNat 80 w) with
    | .ok i => some i
    | .error _ => none
  else none

end Sys2Proof
end

