-- ==== Sys2Proof/Machine/Legal.lean ====
section
/-! DEFINITION. Which words are legal where: contexts (Table 3-20), the register files each field
admits (Table 3-2, R76), coded values (R81), and the element latency of each operation (R88). -/

namespace Sys2Proof.Machine

/-- The three contexts in which a word executes (Table 3-20). -/
inductive Kind where
  | elem
  | stage
  | mgr
  deriving DecidableEq, Repr

/-- XLEN of the context (R335). -/
def Kind.xlen : Kind → Nat
  | .elem => 32
  | .stage => 64
  | .mgr => 64

/-- A stagehand or manager core. -/
def Kind.isCore (k : Kind) : Bool := k != .elem

/-- The manager core. -/
def Kind.isMgr (k : Kind) : Bool := k == .mgr

/-- A row of Table 3-20. -/
inductive Contexts where
  | all | elemOnly | stageOnly | elemStage | cores | privileged | none
  deriving DecidableEq, Repr

/-- The use of a register field: the files it admits in its contexts (R76). -/
inductive Role where
  /-- Scalar source: 0 to 31, and in an element the predicates, vc, lane and iter (Table 3-2). -/
  | scalar
  /-- A scalar register alone (R357, R430). -/
  | plain
  /-- Element scalar or iter (R117, R144, R458). -/
  | index
  /-- Vector source. -/
  | vector
  /-- Vector source, or lane (R453). -/
  | lanes
  /-- The source of VBCAST: `lanes` or `index`. -/
  | bcast
  /-- Sum register. -/
  | sum
  /-- Scalar destination. -/
  | scalarDst
  /-- Vector destination. -/
  | vectorDst
  /-- Sum destination. -/
  | sumDst
  /-- The valid count as destination of VCSET. -/
  | vcDst
  /-- A tile predicate as destination of TQSET. -/
  | tqDst
  /-- A tile predicate as source of TQTEST. -/
  | tqSrc
  deriving DecidableEq, Repr

/-- Lane width of a tag (Table 24-2); 0 for a tag without lanes. -/
def tagWidth (t : BitVec 4) : Nat :=
  match t.toNat with
  | 12 => 64
  | 0 | 11 => 32
  | 1 | 2 | 10 => 16
  | 3 | 4 | 5 | 9 => 8
  | 15 => 512
  | _ => 0

/-- INT8, INT16, INT32. -/
def intTag (t : BitVec 4) : Bool := t == 9 || t == 10 || t == 11
/-- FP32, FP16, BF16, FP64: the tags of floating arithmetic. -/
def floatTag (t : BitVec 4) : Bool := t == 0 || t == 1 || t == 2 || t == 12
/-- MXF8, MXF4, MXI8. -/
def mxTag (t : BitVec 4) : Bool := t == 6 || t == 7 || t == 8
/-- Tags of lane arithmetic (R456). -/
def laneTag (t : BitVec 4) : Bool := floatTag t || intTag t
/-- Tags of Table 24-2 but RAW (R458). -/
def widthTag (t : BitVec 4) : Bool := t ≤ 5 || (9 ≤ t && t ≤ 12)
/-- Tags of Table 7-1. -/
def matrixTag (t : BitVec 4) : Bool := t ≤ 9 || t == 12
/-- TYPE of an FS word (R337). -/
def fsTag (k : Kind) (t : BitVec 4) : Bool := t ≤ 2 || (t == 12 && k.isCore)
/-- TYPE or TTYPE of FCVT (R365). -/
def cvtTag (k : Kind) (t : BitVec 4) : Bool := widthTag t && (t != 12 || k.isCore)
/-- TYPE of a scalar load or store (Table 22-2). -/
def sizeTag (k : Kind) (t : BitVec 4) : Bool := t == 15 || cvtTag k t
/-- TYPE of a line load or store (R465). -/
def lineTag (t : BitVec 4) : Bool := !mxTag t
/-- TYPE of an indexed load or store (R467). -/
def indexTag (t : BitVec 4) : Bool := widthTag t
/-- TYPE of a buffer word (R351). -/
def beatTag (t : BitVec 4) : Bool := t == 15 || mxTag t
/-- An MX operand names an even vector register (R101). -/
def pairIfMx (t : BitVec 4) (r : Reg) : Bool := !mxTag t || r.getLsbD 0 == false
/-- RM of an operation that rounds (Table 3-19). -/
def rmAny (rm : BitVec 3) : Bool := rm ≤ 5
/-- RM of an operation that excludes RSTO (R110, R144). -/
def rmDet (rm : BitVec 3) : Bool := rm ≤ 4
/-- RM of lane arithmetic: 0 for integer tags (R454). -/
def laneMode (t : BitVec 4) (rm : BitVec 3) : Bool := if intTag t then rm == 0 else rmAny rm
/-- RM of a reduction (R110, R454). -/
def laneModeNoSto (t : BitVec 4) (rm : BitVec 3) : Bool := if intTag t then rm == 0 else rmDet rm
/-- SAT is 0 unless TYPE is an integer tag (R454). -/
def satMode (t : BitVec 4) (sat : BitVec 1) : Bool := intTag t || sat == 0
/-- CC of an integer comparison (Table 3-19). -/
def ccInt (cc : BitVec 3) : Bool := cc ≤ 5
/-- CC of a floating comparison (Table 3-19). -/
def ccFloat (cc : BitVec 3) : Bool := cc ≤ 6
/-- A bit field inside XLEN (R349). -/
def fieldFits (k : Kind) (pos len : BitVec 6) : Bool := pos.toNat + len.toNat + 1 ≤ k.xlen
/-- Formats of VDOT and VRED (Table 24-6). (DEDUCED, log 63) -/
def redTags (t o : BitVec 4) : Bool :=
  match t.toNat with
  | 12 => o == 12
  | 0 => o == 0 || o == 12
  | 1 | 2 | 3 | 4 | 5 => o ≤ 2
  | 9 | 10 | 11 => o == 11
  | _ => false
/-- A conversion whose results are exact for every value, or integers formed from integers: a copy, between integers, or of
a tag other than DX8 into a floating tag of twice the width (R454). (DEDUCED, log 36) -/
def cvtExact (t o : BitVec 4) : Bool :=
  t == o || (intTag t && intTag o) || (!intTag o && t != 5 && tagWidth o == 2 * tagWidth t)
/-- Tags and mode of the lane conversions (R460, R454). -/
def cvtLanes (t o : BitVec 4) (rm : BitVec 3) : Bool :=
  widthTag t && widthTag o && (if cvtExact t o then rm == 0 else rmAny rm)
/-- IDX of VBCAST (R458). -/
def bcastIdx (a : Reg) (t : BitVec 4) (idx : BitVec 6) : Bool :=
  if 32 ≤ a && a != 62 then decide (idx.toNat < 512 / tagWidth t) else idx == 0 && t != 12
/-- BLK within the blocks of an MX pair (R463). -/
def blkFits (o : BitVec 4) (imm8 : BitVec 8) : Bool :=
  (imm8.extractLsb' 2 5 == 0) && (o == 7 || imm8.extractLsb' 1 1 == 0)
/-- VQNT (R463). -/
def quantForm (d a b : Reg) (t : BitVec 4) (rm : BitVec 3) (o : BitVec 4) (imm8 : BitVec 8) : Bool :=
  t ≤ 2 && mxTag o && rmAny rm && blkFits o imm8 && d.getLsbD 0 == false &&
    (t != 0 || a.getLsbD 0 == false) && (imm8.getLsbD 7 || b == 0)
/-- VDQNT (R463). -/
def dequantForm (d a : Reg) (t : BitVec 4) (rm : BitVec 3) (o : BitVec 4) (imm8 : BitVec 8) : Bool :=
  mxTag t && o ≤ 2 && rmAny rm && blkFits t imm8 && imm8.getLsbD 7 == false &&
    a.getLsbD 0 == false && (o != 0 || d.getLsbD 0 == false)
/-- PORT is 0 on a core load or store (R381, R441). -/
def corePort (k : Kind) (port : BitVec 6) : Bool := !k.isCore || port == 0
/-- STRM of the stream words that take no stream (R416). -/
def portRegion (k : Kind) (strm : BitVec 8) : Bool := if k.isMgr then strm < 32 else strm == 0
/-- UNIT of the listed kind. -/
def unitIn (u : BitVec 10) (lo hi : Nat) : Bool := decide (lo ≤ u.toNat) && decide (u.toNat < hi)
/-- TYPE that Table 14-2 allows for AOP. -/
def aopTag (aop : BitVec 5) (t : BitVec 4) : Bool :=
  if aop ≤ 2 then t ≤ 2 || t == 11 else aop ≤ 7 && (t == 11 || t == 15)

/-- Where each word is legal (Table 3-20), VSEND and VRECV among the CH words of stagehands (DEDUCED, log 34). -/
def contexts : Instr → Contexts
  | .nop _ => .all
  | .halt _ => .cores
  | .trap _ _ => .all
  | .eret _ => .cores
  | .mfsr _ _ _ => .all
  | .mtsr _ _ _ => .cores
  | .launch _ _ _ _ => .cores
  | .tlaunch _ _ _ _ => .cores
  | .loadcfg _ _ => .stageOnly
  | .reconf _ => .stageOnly
  | .shrink _ _ _ _ => .privileged
  | .shrinkQuery _ _ _ _ => .privileged
  | .csave _ _ _ _ _ => .privileged
  | .crest _ _ _ => .privileged
  | .wdogRestart _ _ _ => .privileged
  | .wdogReport _ _ _ => .privileged
  | .wdogNextStep _ _ _ => .privileged
  | .wdogSuspend _ _ _ => .privileged
  | .phcrd _ _ _ => .cores
  | .sslotBind _ _ _ _ => .cores
  | .sslotRefresh _ _ _ _ => .cores
  | .sslotEvict _ _ _ => .cores
  | .rtywSupply _ _ _ _ => .privileged
  | .rtywReplay _ _ _ _ => .privileged
  | .rtypop _ _ => .privileged
  | .tlbinvAll _ => .privileged
  | .tlbinvAsid _ _ => .privileged
  | .tlbinvAddress _ _ _ => .privileged
  | .ifence _ => .cores
  | .vcset _ _ _ => .stageOnly
  | .tqset _ _ _ => .stageOnly
  | .tqtest _ _ _ => .stageOnly
  | .add _ _ _ _ => .all
  | .sub _ _ _ _ => .all
  | .mul _ _ _ _ => .all
  | .and _ _ _ _ => .all
  | .or _ _ _ _ => .all
  | .xor _ _ _ _ => .all
  | .shl _ _ _ _ => .all
  | .shr _ _ _ _ => .all
  | .sra _ _ _ _ => .all
  | .mulh _ _ _ _ _ => .all
  | .div _ _ _ _ _ => .all
  | .rem _ _ _ _ _ => .all
  | .min _ _ _ _ _ => .all
  | .max _ _ _ _ _ => .all
  | .clz _ _ _ => .all
  | .popc _ _ _ => .all
  | .setc _ _ _ _ _ _ => .all
  | .sel _ _ _ _ _ => .all
  | .bfx _ _ _ _ _ _ => .all
  | .bfi _ _ _ _ _ _ => .all
  | .lea _ _ _ _ _ => .all
  | .addImm _ _ _ _ => .all
  | .andImm _ _ _ _ => .all
  | .orImm _ _ _ _ => .all
  | .xorImm _ _ _ _ => .all
  | .shlImm _ _ _ _ => .all
  | .shrImm _ _ _ _ => .all
  | .sraImm _ _ _ _ => .all
  | .setcImm _ _ _ _ _ _ => .all
  | .movi _ _ _ => .all
  | .movh _ _ _ _ => .all
  | .fadd _ _ _ _ _ _ => .all
  | .fsub _ _ _ _ _ _ => .all
  | .fmul _ _ _ _ _ _ => .all
  | .fdiv _ _ _ _ _ _ => .all
  | .ffma _ _ _ _ _ _ _ => .all
  | .fsqrt _ _ _ _ _ => .all
  | .fmin _ _ _ _ _ => .all
  | .fmax _ _ _ _ _ => .all
  | .fsetc _ _ _ _ _ _ => .all
  | .fcvt _ _ _ _ _ _ => .all
  | .fclass _ _ _ _ => .all
  | .vadd _ _ _ _ _ _ _ => .elemOnly
  | .vsub _ _ _ _ _ _ _ => .elemOnly
  | .vmul _ _ _ _ _ _ _ => .elemOnly
  | .vfma _ _ _ _ _ _ _ _ => .elemOnly
  | .vmin _ _ _ _ _ => .elemOnly
  | .vmax _ _ _ _ _ => .elemOnly
  | .vabs _ _ _ _ _ => .elemOnly
  | .vneg _ _ _ _ _ => .elemOnly
  | .vexp _ _ _ _ _ => .elemOnly
  | .vlog _ _ _ _ _ => .elemOnly
  | .vrcp _ _ _ _ _ => .elemOnly
  | .vrsq _ _ _ _ _ => .elemOnly
  | .vsetc _ _ _ _ _ _ => .elemOnly
  | .vsel _ _ _ _ _ _ => .elemOnly
  | .vand _ _ _ _ => .elemOnly
  | .vor _ _ _ _ => .elemOnly
  | .vxor _ _ _ _ => .elemOnly
  | .vmov _ _ _ => .elemOnly
  | .vshl _ _ _ _ _ => .elemOnly
  | .vshr _ _ _ _ _ _ => .elemOnly
  | .vdot _ _ _ _ _ _ _ _ => .elemOnly
  | .vred _ _ _ _ _ _ _ => .elemOnly
  | .vscan _ _ _ _ _ _ _ => .elemOnly
  | .vshuf _ _ _ _ _ => .elemOnly
  | .vbcast _ _ _ _ _ => .elemOnly
  | .vextr _ _ _ _ _ _ => .elemOnly
  | .vins _ _ _ _ _ _ => .elemOnly
  | .vpack _ _ _ _ _ _ _ => .elemOnly
  | .vunpk _ _ _ _ _ _ _ => .elemOnly
  | .vcvt _ _ _ _ _ _ => .elemOnly
  | .vqnt _ _ _ _ _ _ _ _ => .elemOnly
  | .vdqnt _ _ _ _ _ _ _ => .elemOnly
  | .mmode _ _ _ => .elemOnly
  | .wload _ _ _ _ _ => .elemOnly
  | .mma _ _ _ _ _ _ _ => .elemOnly
  | .mmasp _ _ _ _ _ _ _ => .elemOnly
  | .mmeta _ _ => .elemOnly
  | .accz _ _ _ => .elemOnly
  | .accld _ _ _ _ _ => .elemOnly
  | .accst _ _ _ _ _ _ => .elemOnly
  | .accrd _ _ _ _ _ => .elemOnly
  | .accwr _ _ _ _ _ => .elemOnly
  | .prmld _ _ _ _ => .elemOnly
  | .prmap _ _ _ _ _ => .elemOnly
  | .scans _ _ _ => .elemOnly
  | .difld _ _ _ => .elemOnly
  | .difmul _ _ _ _ _ => .elemOnly
  | .sbpfin _ _ _ _ _ _ => .elemOnly
  | .wsort _ _ _ _ _ => .elemOnly
  | .yclr _ _ => .elemOnly
  | .ld _ _ _ _ _ _ _ _ => .all
  | .st _ _ _ _ _ _ _ _ => .all
  | .vld _ _ _ _ _ _ _ _ => .elemOnly
  | .vst _ _ _ _ _ _ _ _ => .elemOnly
  | .ldw _ _ _ _ _ _ _ _ _ => .elemOnly
  | .vldw _ _ _ _ _ _ _ _ _ => .elemOnly
  | .vldx _ _ _ _ _ _ _ _ => .elemOnly
  | .vstx _ _ _ _ _ _ _ _ => .elemOnly
  | .bufput _ _ _ _ _ _ => .elemOnly
  | .bufget _ _ _ _ _ => .elemOnly
  | .ldsp _ _ _ _ _ _ => .all
  | .stsp _ _ _ _ _ _ => .all
  | .pref _ _ _ _ _ => .cores
  | .shadow _ _ _ _ _ _ => .cores
  | .unshadow _ _ _ => .cores
  | .clean _ _ _ _ => .cores
  | .inval _ _ _ _ => .cores
  | .send _ _ _ => .elemStage
  | .recv _ _ _ => .elemStage
  | .vsend _ _ _ => .elemStage
  | .vrecv _ _ _ => .elemStage
  | .csend _ _ _ => .elemStage
  | .crecv _ _ _ => .elemStage
  | .sbind _ _ _ _ _ => .cores
  | .sq _ _ _ _ => .cores
  | .scopy _ _ _ _ _ _ _ => .cores
  | .scancel _ _ _ _ => .cores
  | .ssub _ _ _ _ _ => .cores
  | .sdist _ _ _ => .cores
  | .sstat _ _ _ _ _ => .cores
  | .opset _ _ _ _ => .cores
  | .opget _ _ _ _ => .cores
  | .route _ _ _ _ => .cores
  | .tinj _ _ _ _ _ => .cores
  | .tdrain _ _ _ => .cores
  | .tconv _ _ _ _ => .cores
  | .tappend _ _ _ _ _ => .cores
  | .tsplit _ _ _ _ _ => .cores
  | .tmerge _ _ _ _ _ => .cores
  | .tfork _ _ _ _ => .cores
  | .tevict _ _ _ _ _ => .cores
  | .tevictRelease _ _ _ _ _ => .cores
  | .tquery _ _ _ _ _ _ => .cores
  | .tnode _ _ _ _ _ _ _ => .cores
  | .pklook _ _ _ _ _ _ => .cores
  | .smpdrawSample _ _ _ _ _ => .cores
  | .smpdrawVerify _ _ _ _ _ _ => .cores
  | .acpt _ _ _ _ _ _ => .cores
  | .gmstep _ _ _ _ => .cores
  | .fence _ _ => .all
  | .frame _ => .elemOnly
  | .rmws _ _ _ _ _ _ _ _ => .elemOnly
  | .redseq _ _ _ _ _ _ => .all
  | .amo _ _ _ _ _ _ _ => .all
  | .bara _ _ _ => .cores
  | .barw _ _ => .cores
  | .marm _ _ => .cores
  | .mwait _ _ _ => .cores
  | .xbegin _ => .cores
  | .xend _ _ => .cores
  | .xabort _ _ => .cores
  | .br _ _ => .cores
  | .bc _ _ _ _ _ _ => .cores
  | .jal _ _ _ => .cores
  | .jalr _ _ _ _ => .cores
  | .istartFreshStart _ _ _ => .cores
  | .istartResume _ _ _ => .cores
  | .istartCancel _ _ _ => .cores
  | .eflagsClear _ _ _ => .cores
  | .ufinfoRead _ _ _ => .all
  | .ucfgRead _ _ _ => .all
  | .lqstatClearDrops _ _ _ => .cores
  | .shctlRun _ _ _ => .cores
  | .shctlFreeze _ _ _ => .cores
  | .shctlReset _ _ _ => .cores
  | .windowDataArrival _ _ _ => .none
  | .windowClose _ _ _ => .none
  | .freezeLimit _ => .none
  | .invocationEnd _ => .none
  | .cueRelease _ => .none
  | .understudySwitch _ => .none
  | .loadcfgInstall _ => .none
  | .reconfTokenPass _ => .none
  | .scoreFiring _ => .none
  | .descendFiring _ => .none
  | .treeupdFiring _ => .none
  | .queryPin _ => .none
  | .queryUnpin _ => .none
  | .pkeyFiring _ => .none
  | .cascellHeader _ => .none
  | .cascellCollect _ => .none
  | .cascellDrain _ => .none
  | .cumselSampleFiring _ => .none
  | .cumselVerifyFiring _ => .none
  | .acceptFiring _ => .none
  | .grammarStepFiring _ => .none
  | .grammarMaskFiring _ => .none
  | .gatherFiring _ => .none
  | .gatherRowArrival _ _ => .none
  | .reduceFiring _ => .none
  | .quantFiring _ => .none
  | .switchSteer _ => .none
  | .switchMerge _ => .none
  | .switchCopy _ => .none
  | .unitTokenEmit _ => .none
  | .converterTokenIn _ => .none
  | .remoteBufputArrival _ => .none
  | .scalarChannelArrival _ _ => .none
  | .vectorChannelArrival _ _ => .none
  | .distributorSendBeat _ _ => .none
  | .streamProducerStart _ _ => .none
  | .streamCommandFinish _ _ => .none
  | .redseqPlaceFree _ => .none
  | .mwaitReturn _ => .none
  | .barwReturn _ => .none
  | .asyncEventTake _ => .none
  | .graphStart _ => .none
  | .graphEnd _ => .none
  | .wdogPreempt _ => .none
  | .wdogKill _ => .none
  | .wdogFence _ => .none
  | .saveComplete => .none
  | .softError => .none
  | .fatalDumpDone => .none
  | .powerAverageHigh _ => .none
  | .powerFatal _ => .none
  | .temperatureFatal _ => .none
  | .powerOnReset => .none
  | .bringUpComplete => .none
  | .attestationRequest _ => .none
  | .attestationReport => .none
  | .hostWrite _ _ _ => .none
  | .hostRead _ _ _ => .none
  | .peerWrite _ _ _ _ => .none
  | .peerRead _ _ _ => .none
  | .brunexPacketArrival _ => .none
  | .linkRetrain _ => .none
  | .ethernetLinkEvent _ => .none
  | .ptpEventTimestamp _ => .none
  | .powerAverageNormal _ => .none
  | .hostLaunchWrite _ _ _ => .none
  | .silenceEviction _ => .none
  | .pageTableWalk _ _ => .none
  | .codecBlockOperation _ _ _ _ _ => .none
  | .redseqArrival _ => .none
  | .prefComplete _ => .none

/-- The register fields a word uses, each with its role. (DEDUCED, log 11) -/
def operands : Instr → List (Role × Reg)
  | .nop _ => []
  | .halt _ => []
  | .trap _ _ => []
  | .eret _ => []
  | .mfsr _ d _ => [(.scalarDst, d)]
  | .mtsr _ a _ => [(.scalar, a)]
  | .launch _ d a b => [(.scalarDst, d), (.scalar, a), (.scalar, b)]
  | .tlaunch _ d a b => [(.scalarDst, d), (.scalar, a), (.scalar, b)]
  | .loadcfg _ a => [(.scalar, a)]
  | .reconf _ => []
  | .shrink _ d a b => [(.scalarDst, d), (.scalar, a), (.scalar, b)]
  | .shrinkQuery _ d a b => [(.scalarDst, d), (.scalar, a), (.scalar, b)]
  | .csave _ d a b _ => [(.scalarDst, d), (.scalar, a), (.scalar, b)]
  | .crest _ d a => [(.scalarDst, d), (.scalar, a)]
  | .wdogRestart _ d a => [(.scalarDst, d), (.scalar, a)]
  | .wdogReport _ d a => [(.scalarDst, d), (.scalar, a)]
  | .wdogNextStep _ d a => [(.scalarDst, d), (.scalar, a)]
  | .wdogSuspend _ d a => [(.scalarDst, d), (.scalar, a)]
  | .phcrd _ d a => [(.scalarDst, d), (.scalarDst, a)]
  | .sslotBind _ d a b => [(.scalarDst, d), (.scalar, a), (.scalar, b)]
  | .sslotRefresh _ d a b => [(.scalarDst, d), (.scalar, a), (.scalar, b)]
  | .sslotEvict _ d a => [(.scalarDst, d), (.scalar, a)]
  | .rtywSupply _ d a b => [(.scalarDst, d), (.scalar, a), (.scalar, b)]
  | .rtywReplay _ d a b => [(.scalarDst, d), (.scalar, a), (.scalar, b)]
  | .rtypop _ d => [(.scalarDst, d)]
  | .tlbinvAll _ => []
  | .tlbinvAsid _ b => [(.scalar, b)]
  | .tlbinvAddress _ a b => [(.scalar, a), (.scalar, b)]
  | .ifence _ => []
  | .vcset _ d a => [(.vcDst, d), (.scalar, a)]
  | .tqset _ d a => [(.tqDst, d), (.scalar, a)]
  | .tqtest _ d a => [(.scalarDst, d), (.tqSrc, a)]
  | .add _ d a b => [(.scalarDst, d), (.scalar, a), (.scalar, b)]
  | .sub _ d a b => [(.scalarDst, d), (.scalar, a), (.scalar, b)]
  | .mul _ d a b => [(.scalarDst, d), (.scalar, a), (.scalar, b)]
  | .and _ d a b => [(.scalarDst, d), (.scalar, a), (.scalar, b)]
  | .or _ d a b => [(.scalarDst, d), (.scalar, a), (.scalar, b)]
  | .xor _ d a b => [(.scalarDst, d), (.scalar, a), (.scalar, b)]
  | .shl _ d a b => [(.scalarDst, d), (.scalar, a), (.scalar, b)]
  | .shr _ d a b => [(.scalarDst, d), (.scalar, a), (.scalar, b)]
  | .sra _ d a b => [(.scalarDst, d), (.scalar, a), (.scalar, b)]
  | .mulh _ d a b _ => [(.scalarDst, d), (.scalar, a), (.scalar, b)]
  | .div _ d a b _ => [(.scalarDst, d), (.scalar, a), (.scalar, b)]
  | .rem _ d a b _ => [(.scalarDst, d), (.scalar, a), (.scalar, b)]
  | .min _ d a b _ => [(.scalarDst, d), (.scalar, a), (.scalar, b)]
  | .max _ d a b _ => [(.scalarDst, d), (.scalar, a), (.scalar, b)]
  | .clz _ d a => [(.scalarDst, d), (.scalar, a)]
  | .popc _ d a => [(.scalarDst, d), (.scalar, a)]
  | .setc _ d a b _ _ => [(.scalarDst, d), (.scalar, a), (.scalar, b)]
  | .sel _ d a b c => [(.scalarDst, d), (.scalar, a), (.scalar, b), (.scalar, c)]
  | .bfx _ d a _ _ _ => [(.scalarDst, d), (.scalar, a)]
  | .bfi _ d a b _ _ => [(.scalarDst, d), (.scalar, a), (.scalar, b)]
  | .lea _ d a b _ => [(.scalarDst, d), (.scalar, a), (.scalar, b)]
  | .addImm _ d a _ => [(.scalarDst, d), (.scalar, a)]
  | .andImm _ d a _ => [(.scalarDst, d), (.scalar, a)]
  | .orImm _ d a _ => [(.scalarDst, d), (.scalar, a)]
  | .xorImm _ d a _ => [(.scalarDst, d), (.scalar, a)]
  | .shlImm _ d a _ => [(.scalarDst, d), (.scalar, a)]
  | .shrImm _ d a _ => [(.scalarDst, d), (.scalar, a)]
  | .sraImm _ d a _ => [(.scalarDst, d), (.scalar, a)]
  | .setcImm _ d a _ _ _ => [(.scalarDst, d), (.scalar, a)]
  | .movi _ d _ => [(.scalarDst, d)]
  | .movh _ d a _ => [(.scalarDst, d), (.scalar, a)]
  | .fadd _ d a b _ _ => [(.scalarDst, d), (.scalar, a), (.scalar, b)]
  | .fsub _ d a b _ _ => [(.scalarDst, d), (.scalar, a), (.scalar, b)]
  | .fmul _ d a b _ _ => [(.scalarDst, d), (.scalar, a), (.scalar, b)]
  | .fdiv _ d a b _ _ => [(.scalarDst, d), (.scalar, a), (.scalar, b)]
  | .ffma _ d a b c _ _ => [(.scalarDst, d), (.scalar, a), (.scalar, b), (.scalar, c)]
  | .fsqrt _ d a _ _ => [(.scalarDst, d), (.scalar, a)]
  | .fmin _ d a b _ => [(.scalarDst, d), (.scalar, a), (.scalar, b)]
  | .fmax _ d a b _ => [(.scalarDst, d), (.scalar, a), (.scalar, b)]
  | .fsetc _ d a b _ _ => [(.scalarDst, d), (.scalar, a), (.scalar, b)]
  | .fcvt _ d a _ _ _ => [(.scalarDst, d), (.scalar, a)]
  | .fclass _ d a _ => [(.scalarDst, d), (.scalar, a)]
  | .vadd _ d a b _ _ _ => [(.vectorDst, d), (.lanes, a), (.lanes, b)]
  | .vsub _ d a b _ _ _ => [(.vectorDst, d), (.lanes, a), (.lanes, b)]
  | .vmul _ d a b _ _ _ => [(.vectorDst, d), (.lanes, a), (.lanes, b)]
  | .vfma _ d a b c _ _ _ => [(.vectorDst, d), (.lanes, a), (.lanes, b), (.lanes, c)]
  | .vmin _ d a b _ => [(.vectorDst, d), (.lanes, a), (.lanes, b)]
  | .vmax _ d a b _ => [(.vectorDst, d), (.lanes, a), (.lanes, b)]
  | .vabs _ d a _ _ => [(.vectorDst, d), (.lanes, a)]
  | .vneg _ d a _ _ => [(.vectorDst, d), (.lanes, a)]
  | .vexp _ d a _ _ => [(.vectorDst, d), (.lanes, a)]
  | .vlog _ d a _ _ => [(.vectorDst, d), (.lanes, a)]
  | .vrcp _ d a _ _ => [(.vectorDst, d), (.lanes, a)]
  | .vrsq _ d a _ _ => [(.vectorDst, d), (.lanes, a)]
  | .vsetc _ d a b _ _ => [(.vectorDst, d), (.lanes, a), (.lanes, b)]
  | .vsel _ d a b c _ => [(.vectorDst, d), (.lanes, a), (.lanes, b), (.lanes, c)]
  | .vand _ d a b => [(.vectorDst, d), (.vector, a), (.vector, b)]
  | .vor _ d a b => [(.vectorDst, d), (.vector, a), (.vector, b)]
  | .vxor _ d a b => [(.vectorDst, d), (.vector, a), (.vector, b)]
  | .vmov _ d a => [(.vectorDst, d), (.vector, a)]
  | .vshl _ d a b _ => [(.vectorDst, d), (.lanes, a), (.lanes, b)]
  | .vshr _ d a b _ _ => [(.vectorDst, d), (.lanes, a), (.lanes, b)]
  | .vdot _ d a b _ _ _ _ => [(.vectorDst, d), (.lanes, a), (.lanes, b)]
  | .vred _ d a _ _ _ _ => [(.vectorDst, d), (.lanes, a)]
  | .vscan _ d a _ _ _ _ => [(.vectorDst, d), (.lanes, a)]
  | .vshuf _ d a b _ => [(.vectorDst, d), (.lanes, a), (.lanes, b)]
  | .vbcast _ d a _ _ => [(.vectorDst, d), (.bcast, a)]
  | .vextr _ d a b _ _ => [(.scalarDst, d), (.lanes, a), (.index, b)]
  | .vins _ d a b _ _ => [(.vectorDst, d), (.index, a), (.index, b)]
  | .vpack _ d a b _ _ _ => [(.vectorDst, d), (.lanes, a), (.lanes, b)]
  | .vunpk _ d a _ _ _ _ => [(.vectorDst, d), (.lanes, a)]
  | .vcvt _ d a _ _ _ => [(.vectorDst, d), (.lanes, a)]
  | .vqnt _ d a b _ _ _ _ => [(.vectorDst, d), (.lanes, a), (.index, b)]
  | .vdqnt _ d a _ _ _ _ => [(.vectorDst, d), (.vector, a)]
  | .mmode _ _ _ => []
  | .wload _ a b _ _ => [(.vector, a), (.index, b)]
  | .mma _ a b _ _ _ _ => [(.vector, a), (.index, b)]
  | .mmasp _ a b _ _ _ _ => [(.vector, a), (.index, b)]
  | .mmeta _ a => [(.vector, a)]
  | .accz _ b _ => [(.index, b)]
  | .accld _ a b _ _ => [(.index, a), (.index, b)]
  | .accst _ a b _ _ _ => [(.index, a), (.index, b)]
  | .accrd _ d b _ _ => [(.vectorDst, d), (.index, b)]
  | .accwr _ a b _ _ => [(.vector, a), (.index, b)]
  | .prmld _ a b _ => [(.vector, a), (.index, b)]
  | .prmap _ d a b _ => [(.vectorDst, d), (.vector, a), (.index, b)]
  | .scans _ d a => [(.sumDst, d), (.vector, a)]
  | .difld _ d a => [(.sumDst, d), (.vector, a)]
  | .difmul _ d a b c => [(.sumDst, d), (.sum, a), (.sum, b), (.index, c)]
  | .sbpfin _ d a b c _ => [(.vectorDst, d), (.sum, a), (.vector, b), (.vector, c)]
  | .wsort _ d a b _ => [(.vectorDst, d), (.vector, a), (.index, b)]
  | .yclr _ d => [(.sumDst, d)]
  | .ld _ d a b _ _ _ _ => [(.scalarDst, d), (.scalar, a), (.scalar, b)]
  | .st _ d a b _ _ _ _ => [(.scalar, d), (.scalar, a), (.scalar, b)]
  | .vld _ d a b _ _ _ _ => [(.vectorDst, d), (.scalar, a), (.scalar, b)]
  | .vst _ d a b _ _ _ _ => [(.vector, d), (.scalar, a), (.scalar, b)]
  | .ldw _ d a b _ _ _ _ _ => [(.scalarDst, d), (.scalar, a), (.scalar, b)]
  | .vldw _ d a b _ _ _ _ _ => [(.vectorDst, d), (.scalar, a), (.scalar, b)]
  | .vldx _ d a b _ _ _ _ => [(.vectorDst, d), (.scalar, a), (.vector, b)]
  | .vstx _ d a b _ _ _ _ => [(.vector, d), (.scalar, a), (.vector, b)]
  | .bufput _ d a _ _ _ => [(.vector, d), (.scalar, a)]
  | .bufget _ d _ _ _ => [(.vectorDst, d)]
  | .ldsp _ d a b _ _ => [(.scalarDst, d), (.scalar, a), (.scalar, b)]
  | .stsp _ d a b _ _ => [(.scalar, d), (.scalar, a), (.scalar, b)]
  | .pref _ d a b _ => [(.scalar, d), (.scalar, a), (.scalar, b)]
  | .shadow _ d a b _ _ => [(.scalar, d), (.scalar, a), (.scalar, b)]
  | .unshadow _ a _ => [(.scalar, a)]
  | .clean _ a b _ => [(.scalar, a), (.scalar, b)]
  | .inval _ a b _ => [(.scalar, a), (.scalar, b)]
  | .send _ a _ => [(.plain, a)]
  | .recv _ d _ => [(.scalarDst, d)]
  | .vsend _ a _ => [(.vector, a)]
  | .vrecv _ d _ => [(.vectorDst, d)]
  | .csend _ a _ => [(.plain, a)]
  | .crecv _ d _ => [(.scalarDst, d)]
  | .sbind _ a b _ _ => [(.scalar, a), (.scalar, b)]
  | .sq _ a _ _ => [(.scalar, a)]
  | .scopy _ d a b c _ _ => [(.scalar, d), (.scalar, a), (.scalar, b), (.scalar, c)]
  | .scancel _ d _ _ => [(.scalarDst, d)]
  | .ssub _ d a _ _ => [(.scalarDst, d), (.scalar, a)]
  | .sdist _ a _ => [(.scalar, a)]
  | .sstat _ d a _ _ => [(.scalarDst, d), (.scalarDst, a)]
  | .opset _ a _ _ => [(.scalar, a)]
  | .opget _ d _ _ => [(.scalarDst, d)]
  | .route _ a _ _ => [(.scalar, a)]
  | .tinj _ a b _ _ => [(.scalar, a), (.scalar, b)]
  | .tdrain _ d _ => [(.scalarDst, d)]
  | .tconv _ d a _ => [(.scalarDst, d), (.scalar, a)]
  | .tappend _ d a b _ => [(.scalarDst, d), (.scalar, a), (.scalar, b)]
  | .tsplit _ d a b _ => [(.scalarDst, d), (.scalar, a), (.scalar, b)]
  | .tmerge _ d a b _ => [(.scalarDst, d), (.scalar, a), (.scalar, b)]
  | .tfork _ d a _ => [(.scalarDst, d), (.scalar, a)]
  | .tevict _ d a b _ => [(.scalarDst, d), (.scalar, a), (.scalar, b)]
  | .tevictRelease _ d a b _ => [(.scalarDst, d), (.scalar, a), (.scalar, b)]
  | .tquery _ d a b c _ => [(.scalarDst, d), (.scalar, a), (.scalar, b), (.scalar, c)]
  | .tnode _ d a b c _ _ => [(.scalarDst, d), (.scalar, a), (.scalar, b), (.scalar, c)]
  | .pklook _ d a b c _ => [(.scalarDst, d), (.scalar, a), (.scalar, b), (.scalar, c)]
  | .smpdrawSample _ d a b _ => [(.scalarDst, d), (.scalar, a), (.scalar, b)]
  | .smpdrawVerify _ d a b c _ => [(.scalarDst, d), (.scalar, a), (.scalar, b), (.scalar, c)]
  | .acpt _ d a b c _ => [(.scalarDst, d), (.scalar, a), (.scalar, b), (.scalar, c)]
  | .gmstep _ d a _ => [(.scalarDst, d), (.scalar, a)]
  | .fence _ _ => []
  | .frame _ => []
  | .rmws _ d a b c _ _ _ => [(.scalarDst, d), (.scalar, a), (.scalar, b), (.scalar, c)]
  | .redseq _ a b c _ _ => [(.scalar, a), (.scalar, b), (.scalar, c)]
  | .amo _ d a b c _ _ => [(.scalarDst, d), (.scalar, a), (.scalar, b), (.scalar, c)]
  | .bara _ a b => [(.scalar, a), (.scalar, b)]
  | .barw _ a => [(.scalar, a)]
  | .marm _ a => [(.scalar, a)]
  | .mwait _ d a => [(.scalarDst, d), (.scalar, a)]
  | .xbegin _ => []
  | .xend _ d => [(.scalarDst, d)]
  | .xabort _ a => [(.scalar, a)]
  | .br _ _ => []
  | .bc _ a b _ _ _ => [(.scalar, a), (.scalar, b)]
  | .jal _ d _ => [(.scalarDst, d)]
  | .jalr _ d a _ => [(.scalarDst, d), (.scalar, a)]
  | .istartFreshStart _ _ a => [(.scalar, a)]
  | .istartResume _ _ a => [(.scalar, a)]
  | .istartCancel _ _ a => [(.scalar, a)]
  | .eflagsClear _ _ a => [(.scalar, a)]
  | .ufinfoRead _ d _ => [(.scalarDst, d)]
  | .ucfgRead _ d _ => [(.scalarDst, d)]
  | .lqstatClearDrops _ _ a => [(.scalar, a)]
  | .shctlRun _ _ a => [(.scalar, a)]
  | .shctlFreeze _ _ a => [(.scalar, a)]
  | .shctlReset _ _ a => [(.scalar, a)]
  | .windowDataArrival _ _ _ => []
  | .windowClose _ _ _ => []
  | .freezeLimit _ => []
  | .invocationEnd _ => []
  | .cueRelease _ => []
  | .understudySwitch _ => []
  | .loadcfgInstall _ => []
  | .reconfTokenPass _ => []
  | .scoreFiring _ => []
  | .descendFiring _ => []
  | .treeupdFiring _ => []
  | .queryPin _ => []
  | .queryUnpin _ => []
  | .pkeyFiring _ => []
  | .cascellHeader _ => []
  | .cascellCollect _ => []
  | .cascellDrain _ => []
  | .cumselSampleFiring _ => []
  | .cumselVerifyFiring _ => []
  | .acceptFiring _ => []
  | .grammarStepFiring _ => []
  | .grammarMaskFiring _ => []
  | .gatherFiring _ => []
  | .gatherRowArrival _ _ => []
  | .reduceFiring _ => []
  | .quantFiring _ => []
  | .switchSteer _ => []
  | .switchMerge _ => []
  | .switchCopy _ => []
  | .unitTokenEmit _ => []
  | .converterTokenIn _ => []
  | .remoteBufputArrival _ => []
  | .scalarChannelArrival _ _ => []
  | .vectorChannelArrival _ _ => []
  | .distributorSendBeat _ _ => []
  | .streamProducerStart _ _ => []
  | .streamCommandFinish _ _ => []
  | .redseqPlaceFree _ => []
  | .mwaitReturn _ => []
  | .barwReturn _ => []
  | .asyncEventTake _ => []
  | .graphStart _ => []
  | .graphEnd _ => []
  | .wdogPreempt _ => []
  | .wdogKill _ => []
  | .wdogFence _ => []
  | .saveComplete => []
  | .softError => []
  | .fatalDumpDone => []
  | .powerAverageHigh _ => []
  | .powerFatal _ => []
  | .temperatureFatal _ => []
  | .powerOnReset => []
  | .bringUpComplete => []
  | .attestationRequest _ => []
  | .attestationReport => []
  | .hostWrite _ _ _ => []
  | .hostRead _ _ _ => []
  | .peerWrite _ _ _ _ => []
  | .peerRead _ _ _ => []
  | .brunexPacketArrival _ => []
  | .linkRetrain _ => []
  | .ethernetLinkEvent _ => []
  | .ptpEventTimestamp _ => []
  | .powerAverageNormal _ => []
  | .hostLaunchWrite _ _ _ => []
  | .silenceEviction _ => []
  | .pageTableWalk _ _ => []
  | .codecBlockOperation _ _ _ _ _ => []
  | .redseqArrival _ => []
  | .prefComplete _ => []

/-- The coded values and the combinations of fields that the word's entry admits in context `k`
(R81 and the entries of the reference). -/
def codedOk (k : Kind) : Instr → Bool
  | .nop _ => true
  | .halt _ => true
  | .trap _ imm => imm < 256
  | .eret _ => true
  | .mfsr _ _ _ => true
  | .mtsr _ _ _ => true
  | .launch _ _ _ _ => true
  | .tlaunch _ _ _ _ => true
  | .loadcfg _ _ => true
  | .reconf _ => true
  | .shrink _ _ _ _ => true
  | .shrinkQuery _ _ _ _ => true
  | .csave _ _ _ _ imm => imm ≠ 0
  | .crest _ _ _ => true
  | .wdogRestart _ _ _ => true
  | .wdogReport _ _ _ => true
  | .wdogNextStep _ _ _ => true
  | .wdogSuspend _ _ _ => true
  | .phcrd _ d a => d ≠ a
  | .sslotBind _ _ _ _ => true
  | .sslotRefresh _ _ _ _ => true
  | .sslotEvict _ _ _ => true
  | .rtywSupply _ _ _ _ => true
  | .rtywReplay _ _ _ _ => true
  | .rtypop _ _ => true
  | .tlbinvAll _ => true
  | .tlbinvAsid _ _ => true
  | .tlbinvAddress _ _ _ => true
  | .ifence _ => true
  | .vcset _ _ _ => true
  | .tqset _ d _ => d ≠ 52
  | .tqtest _ _ _ => true
  | .add _ _ _ _ => true
  | .sub _ _ _ _ => true
  | .mul _ _ _ _ => true
  | .and _ _ _ _ => true
  | .or _ _ _ _ => true
  | .xor _ _ _ _ => true
  | .shl _ _ _ _ => true
  | .shr _ _ _ _ => true
  | .sra _ _ _ _ => true
  | .mulh _ _ _ _ _ => true
  | .div _ _ _ _ _ => true
  | .rem _ _ _ _ _ => true
  | .min _ _ _ _ _ => true
  | .max _ _ _ _ _ => true
  | .clz _ _ _ => true
  | .popc _ _ _ => true
  | .setc _ _ _ _ _ cc => ccInt cc
  | .sel _ _ _ _ _ => true
  | .bfx _ _ _ _ pos len => fieldFits k pos len
  | .bfi _ _ _ _ pos len => fieldFits k pos len
  | .lea _ _ _ _ pos => pos.toNat < k.xlen
  | .addImm _ _ _ _ => true
  | .andImm _ _ _ _ => true
  | .orImm _ _ _ _ => true
  | .xorImm _ _ _ _ => true
  | .shlImm _ _ _ imm => imm.toNat < k.xlen
  | .shrImm _ _ _ imm => imm.toNat < k.xlen
  | .sraImm _ _ _ imm => imm.toNat < k.xlen
  | .setcImm _ _ _ _ cc _ => ccInt cc
  | .movi _ _ _ => true
  | .movh _ _ _ _ => k.isCore
  | .fadd _ _ _ _ ty rm => fsTag k ty && rmAny rm
  | .fsub _ _ _ _ ty rm => fsTag k ty && rmAny rm
  | .fmul _ _ _ _ ty rm => fsTag k ty && rmAny rm
  | .fdiv _ _ _ _ ty rm => fsTag k ty && rmAny rm
  | .ffma _ _ _ _ _ ty rm => fsTag k ty && rmAny rm
  | .fsqrt _ _ _ ty rm => fsTag k ty && rmAny rm
  | .fmin _ _ _ _ ty => fsTag k ty
  | .fmax _ _ _ _ ty => fsTag k ty
  | .fsetc _ _ _ _ ty cc => fsTag k ty && ccFloat cc
  | .fcvt _ _ _ ty rm tty => cvtTag k ty && cvtTag k tty && rmAny rm
  | .fclass _ _ _ ty => fsTag k ty
  | .vadd _ _ _ _ ty rm sat => laneTag ty && laneMode ty rm && satMode ty sat
  | .vsub _ _ _ _ ty rm sat => laneTag ty && laneMode ty rm && satMode ty sat
  | .vmul _ _ _ _ ty rm sat => laneTag ty && laneMode ty rm && satMode ty sat
  | .vfma _ _ _ _ _ ty rm sat => laneTag ty && laneMode ty rm && satMode ty sat
  | .vmin _ _ _ _ ty => laneTag ty
  | .vmax _ _ _ _ ty => laneTag ty
  | .vabs _ _ _ ty sat => laneTag ty && satMode ty sat
  | .vneg _ _ _ ty sat => laneTag ty && satMode ty sat
  | .vexp _ _ _ ty rm => floatTag ty && rmAny rm
  | .vlog _ _ _ ty rm => floatTag ty && rmAny rm
  | .vrcp _ _ _ ty rm => floatTag ty && rmAny rm
  | .vrsq _ _ _ ty rm => floatTag ty && rmAny rm
  | .vsetc _ _ _ _ ty cc => laneTag ty && (if intTag ty then ccInt cc else ccFloat cc)
  | .vsel _ _ _ _ _ ty => widthTag ty
  | .vand _ _ _ _ => true
  | .vor _ _ _ _ => true
  | .vxor _ _ _ _ => true
  | .vmov _ _ _ => true
  | .vshl _ _ _ _ ty => intTag ty
  | .vshr _ _ _ _ ty _ => intTag ty
  | .vdot _ _ _ _ ty rm oty sat => redTags ty oty && laneModeNoSto ty rm && satMode ty sat
  | .vred _ _ _ ty rm oty sat => redTags ty oty && laneModeNoSto ty rm && satMode ty sat
  | .vscan _ _ _ ty rm oty sat => laneTag ty && oty == ty && laneModeNoSto ty rm && satMode ty sat
  | .vshuf _ _ _ _ ty => widthTag ty
  | .vbcast _ _ a ty idx => widthTag ty && bcastIdx a ty idx
  | .vextr _ _ _ _ ty _ => widthTag ty && ty != 12
  | .vins _ _ _ _ ty _ => widthTag ty && ty != 12
  | .vpack _ _ _ _ ty rm oty => cvtLanes ty oty rm && 2 * tagWidth oty == tagWidth ty
  | .vunpk _ _ _ ty rm oty imm8 => cvtLanes ty oty rm && tagWidth oty == 2 * tagWidth ty && imm8 < 2
  | .vcvt _ _ _ ty rm oty => cvtLanes ty oty rm && tagWidth oty == tagWidth ty
  | .vqnt _ d a b ty rm oty imm8 => quantForm d a b ty rm oty imm8
  | .vdqnt _ d a ty rm oty imm8 => dequantForm d a ty rm oty imm8
  | .mmode _ ty f => matrixTag ty && (f == 1 || ty == 0)
  | .wload _ _ _ ty _ => matrixTag ty
  | .mma _ a _ ty rm _ f => matrixTag ty && rmDet rm && pairIfMx ty a
  | .mmasp _ _ _ ty rm _ _ => (ty == 3 || ty == 4 || ty == 9) && rmDet rm
  | .mmeta _ _ => true
  | .accz _ _ _ => true
  | .accld _ _ _ ty _ => ty ≤ 2
  | .accst _ _ _ ty rm _ => ty ≤ 2 && rmDet rm
  | .accrd _ _ _ _ _ => true
  | .accwr _ _ _ _ _ => true
  | .prmld _ _ _ _ => true
  | .prmap _ _ _ _ _ => true
  | .scans _ _ _ => true
  | .difld _ _ _ => true
  | .difmul _ _ _ _ _ => true
  | .sbpfin _ _ _ _ _ rm => rmAny rm
  | .wsort _ _ _ _ _ => true
  | .yclr _ _ => true
  | .ld _ _ _ _ _ port hint ty => sizeTag k ty && hint ≤ 3 && corePort k port
  | .st _ _ _ _ _ port hint ty => sizeTag k ty && hint ≤ 3 && corePort k port
  | .vld _ _ _ _ _ _ hint ty => lineTag ty && hint ≤ 3
  | .vst _ _ _ _ _ _ hint ty => lineTag ty && hint ≤ 3
  | .ldw _ _ _ _ _ _ _ hint ty => sizeTag k ty && hint ≤ 3
  | .vldw _ _ _ _ _ _ _ hint ty => lineTag ty && hint ≤ 3
  | .vldx _ _ _ _ _ _ hint ty => indexTag ty && hint ≤ 3
  | .vstx _ _ _ _ _ _ hint ty => indexTag ty && hint ≤ 3
  | .bufput _ d _ _ _ ty => beatTag ty && pairIfMx ty d
  | .bufget _ d _ _ ty => beatTag ty && pairIfMx ty d
  | .ldsp _ _ _ _ _ ty => sizeTag k ty
  | .stsp _ _ _ _ _ ty => sizeTag k ty
  | .pref _ _ _ _ _ => true
  | .shadow _ _ _ _ _ port => port < 8
  | .unshadow _ a port => port < 8 && (k.isMgr || a == 0)
  | .clean _ _ _ _ => true
  | .inval _ _ _ _ => true
  | .send _ _ chan => 16 ≤ chan && chan < 48
  | .recv _ _ chan => 16 ≤ chan && chan < 48
  | .vsend _ _ chan => chan < 16
  | .vrecv _ _ chan => chan < 16
  | .csend _ _ chan => 48 ≤ chan
  | .crecv _ _ chan => 48 ≤ chan
  | .sbind _ _ _ port strm => portRegion k strm
  | .sq _ _ port strm => portRegion k strm
  | .scopy _ _ _ _ _ port strm => portRegion k strm
  | .scancel _ _ port strm => portRegion k strm
  | .ssub _ _ a _ _ => k.isMgr || a == 0
  | .sdist _ _ _ => true
  | .sstat _ d a port strm => d ≠ a && portRegion k strm
  | .opset _ _ unit param => unit < 768 && (param == 0 || 4 ≤ param)
  | .opget _ _ unit _ => unit < 768
  | .route _ _ unit param => unit < 768 && param < 2
  | .tinj _ _ _ unit param => unit < 768 && param < 4
  | .tdrain _ _ unit => unit < 768
  | .tconv _ _ _ unit => unit < 64
  | .tappend _ _ _ _ unit => unitIn unit 224 240
  | .tsplit _ _ _ _ unit => unitIn unit 224 240
  | .tmerge _ _ _ _ unit => unitIn unit 224 240
  | .tfork _ _ _ unit => unitIn unit 224 240
  | .tevict _ _ _ _ unit => unitIn unit 224 240
  | .tevictRelease _ _ _ _ unit => unitIn unit 224 240
  | .tquery _ _ _ _ _ unit => unitIn unit 192 224
  | .tnode _ _ _ _ _ unit _ => unitIn unit 224 240
  | .pklook _ _ _ _ _ unit => unitIn unit 240 256
  | .smpdrawSample _ _ _ _ unit => unitIn unit 512 544
  | .smpdrawVerify _ _ _ _ _ unit => unitIn unit 512 544
  | .acpt _ _ _ _ _ unit => unitIn unit 544 560
  | .gmstep _ _ _ unit => unitIn unit 560 576
  | .fence _ scope => 1 ≤ scope && scope ≤ 4
  | .frame _ => true
  | .rmws _ _ _ _ c aop ty _ => aopTag aop ty && (aop == 7 || c == 0)
  | .redseq _ _ _ _ aop ty => aopTag aop ty && aop != 7
  | .amo _ d _ _ c aop ty => aopTag aop ty && (aop == 7 || c == 0) && (k.isCore || d == 0)
  | .bara _ _ _ => true
  | .barw _ _ => true
  | .marm _ _ => true
  | .mwait _ _ _ => true
  | .xbegin _ => true
  | .xend _ _ => true
  | .xabort _ _ => true
  | .br _ _ => true
  | .bc _ _ _ cc _ _ => ccInt cc
  | .jal _ _ _ => true
  | .jalr _ _ _ _ => true
  | .istartFreshStart _ _ _ => true
  | .istartResume _ _ _ => true
  | .istartCancel _ _ _ => true
  | .eflagsClear _ _ _ => true
  | .ufinfoRead _ _ _ => true
  | .ucfgRead _ _ _ => true
  | .lqstatClearDrops _ _ _ => true
  | .shctlRun _ _ _ => true
  | .shctlFreeze _ _ _ => true
  | .shctlReset _ _ _ => true
  | .windowDataArrival _ _ _ => true
  | .windowClose _ _ _ => true
  | .freezeLimit _ => true
  | .invocationEnd _ => true
  | .cueRelease _ => true
  | .understudySwitch _ => true
  | .loadcfgInstall _ => true
  | .reconfTokenPass _ => true
  | .scoreFiring _ => true
  | .descendFiring _ => true
  | .treeupdFiring _ => true
  | .queryPin _ => true
  | .queryUnpin _ => true
  | .pkeyFiring _ => true
  | .cascellHeader _ => true
  | .cascellCollect _ => true
  | .cascellDrain _ => true
  | .cumselSampleFiring _ => true
  | .cumselVerifyFiring _ => true
  | .acceptFiring _ => true
  | .grammarStepFiring _ => true
  | .grammarMaskFiring _ => true
  | .gatherFiring _ => true
  | .gatherRowArrival _ _ => true
  | .reduceFiring _ => true
  | .quantFiring _ => true
  | .switchSteer _ => true
  | .switchMerge _ => true
  | .switchCopy _ => true
  | .unitTokenEmit _ => true
  | .converterTokenIn _ => true
  | .remoteBufputArrival _ => true
  | .scalarChannelArrival _ _ => true
  | .vectorChannelArrival _ _ => true
  | .distributorSendBeat _ _ => true
  | .streamProducerStart _ _ => true
  | .streamCommandFinish _ _ => true
  | .redseqPlaceFree _ => true
  | .mwaitReturn _ => true
  | .barwReturn _ => true
  | .asyncEventTake _ => true
  | .graphStart _ => true
  | .graphEnd _ => true
  | .wdogPreempt _ => true
  | .wdogKill _ => true
  | .wdogFence _ => true
  | .saveComplete => true
  | .softError => true
  | .fatalDumpDone => true
  | .powerAverageHigh _ => true
  | .powerFatal _ => true
  | .temperatureFatal _ => true
  | .powerOnReset => true
  | .bringUpComplete => true
  | .attestationRequest _ => true
  | .attestationReport => true
  | .hostWrite _ _ _ => true
  | .hostRead _ _ _ => true
  | .peerWrite _ _ _ _ => true
  | .peerRead _ _ _ => true
  | .brunexPacketArrival _ => true
  | .linkRetrain _ => true
  | .ethernetLinkEvent _ => true
  | .ptpEventTimestamp _ => true
  | .powerAverageNormal _ => true
  | .hostLaunchWrite _ _ _ => true
  | .silenceEviction _ => true
  | .pageTableWalk _ _ => true
  | .codecBlockOperation _ _ _ _ _ => true
  | .redseqArrival _ => true
  | .prefComplete _ => true

/-- The element latency of a word (R336, R337, R381, R441, Tables 5-1, 7-2, 24-3). A load from
memory takes its place in the retirement order with latency 1 (R129). -/
def latency : Instr → Nat
  | .nop _ => 1
  | .halt _ => 1
  | .trap _ _ => 1
  | .eret _ => 1
  | .mfsr _ _ _ => 1
  | .mtsr _ _ _ => 1
  | .launch _ _ _ _ => 1
  | .tlaunch _ _ _ _ => 1
  | .loadcfg _ _ => 1
  | .reconf _ => 1
  | .shrink _ _ _ _ => 1
  | .shrinkQuery _ _ _ _ => 1
  | .csave _ _ _ _ _ => 1
  | .crest _ _ _ => 1
  | .wdogRestart _ _ _ => 1
  | .wdogReport _ _ _ => 1
  | .wdogNextStep _ _ _ => 1
  | .wdogSuspend _ _ _ => 1
  | .phcrd _ _ _ => 1
  | .sslotBind _ _ _ _ => 1
  | .sslotRefresh _ _ _ _ => 1
  | .sslotEvict _ _ _ => 1
  | .rtywSupply _ _ _ _ => 1
  | .rtywReplay _ _ _ _ => 1
  | .rtypop _ _ => 1
  | .tlbinvAll _ => 1
  | .tlbinvAsid _ _ => 1
  | .tlbinvAddress _ _ _ => 1
  | .ifence _ => 1
  | .vcset _ _ _ => 1
  | .tqset _ _ _ => 1
  | .tqtest _ _ _ => 1
  | .add _ _ _ _ => 1
  | .sub _ _ _ _ => 1
  | .mul _ _ _ _ => 3
  | .and _ _ _ _ => 1
  | .or _ _ _ _ => 1
  | .xor _ _ _ _ => 1
  | .shl _ _ _ _ => 1
  | .shr _ _ _ _ => 1
  | .sra _ _ _ _ => 1
  | .mulh _ _ _ _ _ => 3
  | .div _ _ _ _ _ => 12
  | .rem _ _ _ _ _ => 12
  | .min _ _ _ _ _ => 1
  | .max _ _ _ _ _ => 1
  | .clz _ _ _ => 1
  | .popc _ _ _ => 1
  | .setc _ _ _ _ _ _ => 1
  | .sel _ _ _ _ _ => 1
  | .bfx _ _ _ _ _ _ => 1
  | .bfi _ _ _ _ _ _ => 1
  | .lea _ _ _ _ _ => 1
  | .addImm _ _ _ _ => 1
  | .andImm _ _ _ _ => 1
  | .orImm _ _ _ _ => 1
  | .xorImm _ _ _ _ => 1
  | .shlImm _ _ _ _ => 1
  | .shrImm _ _ _ _ => 1
  | .sraImm _ _ _ _ => 1
  | .setcImm _ _ _ _ _ _ => 1
  | .movi _ _ _ => 1
  | .movh _ _ _ _ => 1
  | .fadd _ _ _ _ _ _ => 3
  | .fsub _ _ _ _ _ _ => 3
  | .fmul _ _ _ _ _ _ => 3
  | .fdiv _ _ _ _ _ _ => 12
  | .ffma _ _ _ _ _ _ _ => 4
  | .fsqrt _ _ _ _ _ => 12
  | .fmin _ _ _ _ _ => 1
  | .fmax _ _ _ _ _ => 1
  | .fsetc _ _ _ _ _ _ => 1
  | .fcvt _ _ _ _ _ _ => 2
  | .fclass _ _ _ _ => 1
  | .vadd _ _ _ _ _ _ _ => 2
  | .vsub _ _ _ _ _ _ _ => 2
  | .vmul _ _ _ _ _ _ _ => 2
  | .vfma _ _ _ _ _ _ _ _ => 4
  | .vmin _ _ _ _ _ => 1
  | .vmax _ _ _ _ _ => 1
  | .vabs _ _ _ _ _ => 1
  | .vneg _ _ _ _ _ => 1
  | .vexp _ _ _ _ _ => 6
  | .vlog _ _ _ _ _ => 6
  | .vrcp _ _ _ _ _ => 6
  | .vrsq _ _ _ _ _ => 6
  | .vsetc _ _ _ _ _ _ => 1
  | .vsel _ _ _ _ _ _ => 1
  | .vand _ _ _ _ => 1
  | .vor _ _ _ _ => 1
  | .vxor _ _ _ _ => 1
  | .vmov _ _ _ => 1
  | .vshl _ _ _ _ _ => 1
  | .vshr _ _ _ _ _ _ => 1
  | .vdot _ _ _ _ _ _ _ _ => 4
  | .vred _ _ _ _ _ _ _ => 4
  | .vscan _ _ _ _ _ _ _ => 6
  | .vshuf _ _ _ _ _ => 2
  | .vbcast _ _ _ _ _ => 1
  | .vextr _ _ _ _ _ _ => 1
  | .vins _ _ _ _ _ _ => 1
  | .vpack _ _ _ _ _ _ _ => 2
  | .vunpk _ _ _ _ _ _ _ => 2
  | .vcvt _ _ _ _ _ _ => 2
  | .vqnt _ _ _ _ _ _ _ _ => 6
  | .vdqnt _ _ _ _ _ _ _ => 3
  | .mmode _ _ _ => 1
  | .wload _ _ _ _ _ => 2
  | .mma _ _ _ _ _ _ _ => 4
  | .mmasp _ _ _ _ _ _ _ => 4
  | .mmeta _ _ => 2
  | .accz _ _ _ => 1
  | .accld _ _ _ _ _ => 2
  | .accst _ _ _ _ _ _ => 2
  | .accrd _ _ _ _ _ => 2
  | .accwr _ _ _ _ _ => 1
  | .prmld _ _ _ _ => 2
  | .prmap _ _ _ _ _ => 2
  | .scans _ _ _ => 3
  | .difld _ _ _ => 2
  | .difmul _ _ _ _ _ => 4
  | .sbpfin _ _ _ _ _ _ => 4
  | .wsort _ _ _ _ _ => 8
  | .yclr _ _ => 1
  | .ld _ _ _ _ _ _ _ _ => 1
  | .st _ _ _ _ _ _ _ _ => 1
  | .vld _ _ _ _ _ _ _ _ => 1
  | .vst _ _ _ _ _ _ _ _ => 1
  | .ldw _ _ _ _ _ _ _ _ _ => 1
  | .vldw _ _ _ _ _ _ _ _ _ => 1
  | .vldx _ _ _ _ _ _ _ _ => 1
  | .vstx _ _ _ _ _ _ _ _ => 1
  | .bufput _ _ _ _ _ _ => 1
  | .bufget _ _ _ _ _ => 2
  | .ldsp _ _ _ _ _ _ => 2
  | .stsp _ _ _ _ _ _ => 1
  | .pref _ _ _ _ _ => 1
  | .shadow _ _ _ _ _ _ => 1
  | .unshadow _ _ _ => 1
  | .clean _ _ _ _ => 1
  | .inval _ _ _ _ => 1
  | .send _ _ _ => 1
  | .recv _ _ _ => 1
  | .vsend _ _ _ => 1
  | .vrecv _ _ _ => 1
  | .csend _ _ _ => 1
  | .crecv _ _ _ => 1
  | .sbind _ _ _ _ _ => 1
  | .sq _ _ _ _ => 1
  | .scopy _ _ _ _ _ _ _ => 1
  | .scancel _ _ _ _ => 1
  | .ssub _ _ _ _ _ => 1
  | .sdist _ _ _ => 1
  | .sstat _ _ _ _ _ => 1
  | .opset _ _ _ _ => 1
  | .opget _ _ _ _ => 1
  | .route _ _ _ _ => 1
  | .tinj _ _ _ _ _ => 1
  | .tdrain _ _ _ => 1
  | .tconv _ _ _ _ => 1
  | .tappend _ _ _ _ _ => 1
  | .tsplit _ _ _ _ _ => 1
  | .tmerge _ _ _ _ _ => 1
  | .tfork _ _ _ _ => 1
  | .tevict _ _ _ _ _ => 1
  | .tevictRelease _ _ _ _ _ => 1
  | .tquery _ _ _ _ _ _ => 1
  | .tnode _ _ _ _ _ _ _ => 1
  | .pklook _ _ _ _ _ _ => 1
  | .smpdrawSample _ _ _ _ _ => 1
  | .smpdrawVerify _ _ _ _ _ _ => 1
  | .acpt _ _ _ _ _ _ => 1
  | .gmstep _ _ _ _ => 1
  | .fence _ _ => 1
  | .frame _ => 1
  | .rmws _ _ _ _ _ _ _ _ => 3
  | .redseq _ _ _ _ _ _ => 1
  | .amo _ _ _ _ _ _ _ => 1
  | .bara _ _ _ => 1
  | .barw _ _ => 1
  | .marm _ _ => 1
  | .mwait _ _ _ => 1
  | .xbegin _ => 1
  | .xend _ _ => 1
  | .xabort _ _ => 1
  | .br _ _ => 1
  | .bc _ _ _ _ _ _ => 1
  | .jal _ _ _ => 1
  | .jalr _ _ _ _ => 1
  | .istartFreshStart _ _ _ => 1
  | .istartResume _ _ _ => 1
  | .istartCancel _ _ _ => 1
  | .eflagsClear _ _ _ => 1
  | .ufinfoRead _ _ _ => 1
  | .ucfgRead _ _ _ => 1
  | .lqstatClearDrops _ _ _ => 1
  | .shctlRun _ _ _ => 1
  | .shctlFreeze _ _ _ => 1
  | .shctlReset _ _ _ => 1
  | .windowDataArrival _ _ _ => 1
  | .windowClose _ _ _ => 1
  | .freezeLimit _ => 1
  | .invocationEnd _ => 1
  | .cueRelease _ => 1
  | .understudySwitch _ => 1
  | .loadcfgInstall _ => 1
  | .reconfTokenPass _ => 1
  | .scoreFiring _ => 1
  | .descendFiring _ => 1
  | .treeupdFiring _ => 1
  | .queryPin _ => 1
  | .queryUnpin _ => 1
  | .pkeyFiring _ => 1
  | .cascellHeader _ => 1
  | .cascellCollect _ => 1
  | .cascellDrain _ => 1
  | .cumselSampleFiring _ => 1
  | .cumselVerifyFiring _ => 1
  | .acceptFiring _ => 1
  | .grammarStepFiring _ => 1
  | .grammarMaskFiring _ => 1
  | .gatherFiring _ => 1
  | .gatherRowArrival _ _ => 1
  | .reduceFiring _ => 1
  | .quantFiring _ => 1
  | .switchSteer _ => 1
  | .switchMerge _ => 1
  | .switchCopy _ => 1
  | .unitTokenEmit _ => 1
  | .converterTokenIn _ => 1
  | .remoteBufputArrival _ => 1
  | .scalarChannelArrival _ _ => 1
  | .vectorChannelArrival _ _ => 1
  | .distributorSendBeat _ _ => 1
  | .streamProducerStart _ _ => 1
  | .streamCommandFinish _ _ => 1
  | .redseqPlaceFree _ => 1
  | .mwaitReturn _ => 1
  | .barwReturn _ => 1
  | .asyncEventTake _ => 1
  | .graphStart _ => 1
  | .graphEnd _ => 1
  | .wdogPreempt _ => 1
  | .wdogKill _ => 1
  | .wdogFence _ => 1
  | .saveComplete => 1
  | .softError => 1
  | .fatalDumpDone => 1
  | .powerAverageHigh _ => 1
  | .powerFatal _ => 1
  | .temperatureFatal _ => 1
  | .powerOnReset => 1
  | .bringUpComplete => 1
  | .attestationRequest _ => 1
  | .attestationReport => 1
  | .hostWrite _ _ _ => 1
  | .hostRead _ _ _ => 1
  | .peerWrite _ _ _ _ => 1
  | .peerRead _ _ _ => 1
  | .brunexPacketArrival _ => 1
  | .linkRetrain _ => 1
  | .ethernetLinkEvent _ => 1
  | .ptpEventTimestamp _ => 1
  | .powerAverageNormal _ => 1
  | .hostLaunchWrite _ _ _ => 1
  | .silenceEviction _ => 1
  | .pageTableWalk _ _ => 1
  | .codecBlockOperation _ _ _ _ _ => 1
  | .redseqArrival _ => 1
  | .prefComplete _ => 1

/-- The header of a word; events have none. -/
def header : Instr → Hdr
  | .nop h => h
  | .halt h => h
  | .trap h _ => h
  | .eret h => h
  | .mfsr h _ _ => h
  | .mtsr h _ _ => h
  | .launch h _ _ _ => h
  | .tlaunch h _ _ _ => h
  | .loadcfg h _ => h
  | .reconf h => h
  | .shrink h _ _ _ => h
  | .shrinkQuery h _ _ _ => h
  | .csave h _ _ _ _ => h
  | .crest h _ _ => h
  | .wdogRestart h _ _ => h
  | .wdogReport h _ _ => h
  | .wdogNextStep h _ _ => h
  | .wdogSuspend h _ _ => h
  | .phcrd h _ _ => h
  | .sslotBind h _ _ _ => h
  | .sslotRefresh h _ _ _ => h
  | .sslotEvict h _ _ => h
  | .rtywSupply h _ _ _ => h
  | .rtywReplay h _ _ _ => h
  | .rtypop h _ => h
  | .tlbinvAll h => h
  | .tlbinvAsid h _ => h
  | .tlbinvAddress h _ _ => h
  | .ifence h => h
  | .vcset h _ _ => h
  | .tqset h _ _ => h
  | .tqtest h _ _ => h
  | .add h _ _ _ => h
  | .sub h _ _ _ => h
  | .mul h _ _ _ => h
  | .and h _ _ _ => h
  | .or h _ _ _ => h
  | .xor h _ _ _ => h
  | .shl h _ _ _ => h
  | .shr h _ _ _ => h
  | .sra h _ _ _ => h
  | .mulh h _ _ _ _ => h
  | .div h _ _ _ _ => h
  | .rem h _ _ _ _ => h
  | .min h _ _ _ _ => h
  | .max h _ _ _ _ => h
  | .clz h _ _ => h
  | .popc h _ _ => h
  | .setc h _ _ _ _ _ => h
  | .sel h _ _ _ _ => h
  | .bfx h _ _ _ _ _ => h
  | .bfi h _ _ _ _ _ => h
  | .lea h _ _ _ _ => h
  | .addImm h _ _ _ => h
  | .andImm h _ _ _ => h
  | .orImm h _ _ _ => h
  | .xorImm h _ _ _ => h
  | .shlImm h _ _ _ => h
  | .shrImm h _ _ _ => h
  | .sraImm h _ _ _ => h
  | .setcImm h _ _ _ _ _ => h
  | .movi h _ _ => h
  | .movh h _ _ _ => h
  | .fadd h _ _ _ _ _ => h
  | .fsub h _ _ _ _ _ => h
  | .fmul h _ _ _ _ _ => h
  | .fdiv h _ _ _ _ _ => h
  | .ffma h _ _ _ _ _ _ => h
  | .fsqrt h _ _ _ _ => h
  | .fmin h _ _ _ _ => h
  | .fmax h _ _ _ _ => h
  | .fsetc h _ _ _ _ _ => h
  | .fcvt h _ _ _ _ _ => h
  | .fclass h _ _ _ => h
  | .vadd h _ _ _ _ _ _ => h
  | .vsub h _ _ _ _ _ _ => h
  | .vmul h _ _ _ _ _ _ => h
  | .vfma h _ _ _ _ _ _ _ => h
  | .vmin h _ _ _ _ => h
  | .vmax h _ _ _ _ => h
  | .vabs h _ _ _ _ => h
  | .vneg h _ _ _ _ => h
  | .vexp h _ _ _ _ => h
  | .vlog h _ _ _ _ => h
  | .vrcp h _ _ _ _ => h
  | .vrsq h _ _ _ _ => h
  | .vsetc h _ _ _ _ _ => h
  | .vsel h _ _ _ _ _ => h
  | .vand h _ _ _ => h
  | .vor h _ _ _ => h
  | .vxor h _ _ _ => h
  | .vmov h _ _ => h
  | .vshl h _ _ _ _ => h
  | .vshr h _ _ _ _ _ => h
  | .vdot h _ _ _ _ _ _ _ => h
  | .vred h _ _ _ _ _ _ => h
  | .vscan h _ _ _ _ _ _ => h
  | .vshuf h _ _ _ _ => h
  | .vbcast h _ _ _ _ => h
  | .vextr h _ _ _ _ _ => h
  | .vins h _ _ _ _ _ => h
  | .vpack h _ _ _ _ _ _ => h
  | .vunpk h _ _ _ _ _ _ => h
  | .vcvt h _ _ _ _ _ => h
  | .vqnt h _ _ _ _ _ _ _ => h
  | .vdqnt h _ _ _ _ _ _ => h
  | .mmode h _ _ => h
  | .wload h _ _ _ _ => h
  | .mma h _ _ _ _ _ _ => h
  | .mmasp h _ _ _ _ _ _ => h
  | .mmeta h _ => h
  | .accz h _ _ => h
  | .accld h _ _ _ _ => h
  | .accst h _ _ _ _ _ => h
  | .accrd h _ _ _ _ => h
  | .accwr h _ _ _ _ => h
  | .prmld h _ _ _ => h
  | .prmap h _ _ _ _ => h
  | .scans h _ _ => h
  | .difld h _ _ => h
  | .difmul h _ _ _ _ => h
  | .sbpfin h _ _ _ _ _ => h
  | .wsort h _ _ _ _ => h
  | .yclr h _ => h
  | .ld h _ _ _ _ _ _ _ => h
  | .st h _ _ _ _ _ _ _ => h
  | .vld h _ _ _ _ _ _ _ => h
  | .vst h _ _ _ _ _ _ _ => h
  | .ldw h _ _ _ _ _ _ _ _ => h
  | .vldw h _ _ _ _ _ _ _ _ => h
  | .vldx h _ _ _ _ _ _ _ => h
  | .vstx h _ _ _ _ _ _ _ => h
  | .bufput h _ _ _ _ _ => h
  | .bufget h _ _ _ _ => h
  | .ldsp h _ _ _ _ _ => h
  | .stsp h _ _ _ _ _ => h
  | .pref h _ _ _ _ => h
  | .shadow h _ _ _ _ _ => h
  | .unshadow h _ _ => h
  | .clean h _ _ _ => h
  | .inval h _ _ _ => h
  | .send h _ _ => h
  | .recv h _ _ => h
  | .vsend h _ _ => h
  | .vrecv h _ _ => h
  | .csend h _ _ => h
  | .crecv h _ _ => h
  | .sbind h _ _ _ _ => h
  | .sq h _ _ _ => h
  | .scopy h _ _ _ _ _ _ => h
  | .scancel h _ _ _ => h
  | .ssub h _ _ _ _ => h
  | .sdist h _ _ => h
  | .sstat h _ _ _ _ => h
  | .opset h _ _ _ => h
  | .opget h _ _ _ => h
  | .route h _ _ _ => h
  | .tinj h _ _ _ _ => h
  | .tdrain h _ _ => h
  | .tconv h _ _ _ => h
  | .tappend h _ _ _ _ => h
  | .tsplit h _ _ _ _ => h
  | .tmerge h _ _ _ _ => h
  | .tfork h _ _ _ => h
  | .tevict h _ _ _ _ => h
  | .tevictRelease h _ _ _ _ => h
  | .tquery h _ _ _ _ _ => h
  | .tnode h _ _ _ _ _ _ => h
  | .pklook h _ _ _ _ _ => h
  | .smpdrawSample h _ _ _ _ => h
  | .smpdrawVerify h _ _ _ _ _ => h
  | .acpt h _ _ _ _ _ => h
  | .gmstep h _ _ _ => h
  | .fence h _ => h
  | .frame h => h
  | .rmws h _ _ _ _ _ _ _ => h
  | .redseq h _ _ _ _ _ => h
  | .amo h _ _ _ _ _ _ => h
  | .bara h _ _ => h
  | .barw h _ => h
  | .marm h _ => h
  | .mwait h _ _ => h
  | .xbegin h => h
  | .xend h _ => h
  | .xabort h _ => h
  | .br h _ => h
  | .bc h _ _ _ _ _ => h
  | .jal h _ _ => h
  | .jalr h _ _ _ => h
  | .istartFreshStart h _ _ => h
  | .istartResume h _ _ => h
  | .istartCancel h _ _ => h
  | .eflagsClear h _ _ => h
  | .ufinfoRead h _ _ => h
  | .ucfgRead h _ _ => h
  | .lqstatClearDrops h _ _ => h
  | .shctlRun h _ _ => h
  | .shctlFreeze h _ _ => h
  | .shctlReset h _ _ => h
  | .windowDataArrival _ _ _ => default
  | .windowClose _ _ _ => default
  | .freezeLimit _ => default
  | .invocationEnd _ => default
  | .cueRelease _ => default
  | .understudySwitch _ => default
  | .loadcfgInstall _ => default
  | .reconfTokenPass _ => default
  | .scoreFiring _ => default
  | .descendFiring _ => default
  | .treeupdFiring _ => default
  | .queryPin _ => default
  | .queryUnpin _ => default
  | .pkeyFiring _ => default
  | .cascellHeader _ => default
  | .cascellCollect _ => default
  | .cascellDrain _ => default
  | .cumselSampleFiring _ => default
  | .cumselVerifyFiring _ => default
  | .acceptFiring _ => default
  | .grammarStepFiring _ => default
  | .grammarMaskFiring _ => default
  | .gatherFiring _ => default
  | .gatherRowArrival _ _ => default
  | .reduceFiring _ => default
  | .quantFiring _ => default
  | .switchSteer _ => default
  | .switchMerge _ => default
  | .switchCopy _ => default
  | .unitTokenEmit _ => default
  | .converterTokenIn _ => default
  | .remoteBufputArrival _ => default
  | .scalarChannelArrival _ _ => default
  | .vectorChannelArrival _ _ => default
  | .distributorSendBeat _ _ => default
  | .streamProducerStart _ _ => default
  | .streamCommandFinish _ _ => default
  | .redseqPlaceFree _ => default
  | .mwaitReturn _ => default
  | .barwReturn _ => default
  | .asyncEventTake _ => default
  | .graphStart _ => default
  | .graphEnd _ => default
  | .wdogPreempt _ => default
  | .wdogKill _ => default
  | .wdogFence _ => default
  | .saveComplete => default
  | .softError => default
  | .fatalDumpDone => default
  | .powerAverageHigh _ => default
  | .powerFatal _ => default
  | .temperatureFatal _ => default
  | .powerOnReset => default
  | .bringUpComplete => default
  | .attestationRequest _ => default
  | .attestationReport => default
  | .hostWrite _ _ _ => default
  | .hostRead _ _ _ => default
  | .peerWrite _ _ _ _ => default
  | .peerRead _ _ _ => default
  | .brunexPacketArrival _ => default
  | .linkRetrain _ => default
  | .ethernetLinkEvent _ => default
  | .ptpEventTimestamp _ => default
  | .powerAverageNormal _ => default
  | .hostLaunchWrite _ _ _ => default
  | .silenceEviction _ => default
  | .pageTableWalk _ _ => default
  | .codecBlockOperation _ _ _ _ _ => default
  | .redseqArrival _ => default
  | .prefComplete _ => default

/-- A row that is a word, or a use of one. -/
def isWord (i : Instr) : Bool := contexts i != .none

/-- The outcome of a register field in a context (Table 3-2, R76). -/
inductive SpecCheck where
  | ok | context | illegal
  deriving DecidableEq, Repr

/-- The files a role admits in an element (Table 3-2). -/
def elemAdmits (role : Role) (r : Reg) : Bool :=
  let n := r.toNat
  match role with
  | .scalar => n < 32 || (52 ≤ n && n ≤ 62)
  | .plain => n < 32
  | .index => n < 32 || n == 62
  | .vector => 32 ≤ n && n < 48
  | .lanes => (32 ≤ n && n < 48) || n == 61
  | .bcast => n < 48 || n == 61 || n == 62
  | .sum => 48 ≤ n && n < 52
  | .scalarDst => n < 32
  | .vectorDst => 32 ≤ n && n < 48
  | .sumDst => 48 ≤ n && n < 52
  | .vcDst => false
  | .tqDst => false
  | .tqSrc => false

/-- The words whose operands may be tile predicates or vc in a core (Table 3-2). -/
def predWord : Instr → Bool
  | .vcset _ _ _ => true
  | .tqset _ _ _ => true
  | .tqtest _ _ _ => true
  | _ => false

/-- A register field in a core (Table 3-2). A predicate or VC specifier in a field that VCSET, TQSET or TQTEST does not use is ILLEGAL, as in
a field that takes another file: the word is one of those that name the file (R76, DESIGN CHOICE, log 93). -/
def coreSpec (i : Instr) (role : Role) (r : Reg) : SpecCheck :=
  let n := r.toNat
  if n < 32 then
    (match role with
     | .scalar | .plain | .scalarDst => .ok
     | _ => .illegal)
  else if n == 63 then .illegal
  else if 52 ≤ n && n < 60 then
    (if predWord i then (match role with | .tqDst | .tqSrc => .ok | _ => .illegal) else .context)
  else if n == 60 then
    (match i, role with
     | .vcset _ _ _, .vcDst => .ok
     | .vcset _ _ _, _ => .illegal
     | _, _ => .context)
  else .context

/-- A register field in a context. -/
def specCheck (k : Kind) (i : Instr) (role : Role) (r : Reg) : SpecCheck :=
  match k with
  | .elem => if elemAdmits role r then .ok else .illegal
  | _ => coreSpec i role r

/-- The operation is legal in the context or privileged there (R84). -/
def contextOk (k : Kind) (c : Contexts) : Bool :=
  match c, k with
  | .all, _ => true
  | .elemOnly, .elem => true
  | .stageOnly, .stage => true
  | .elemStage, .elem => true
  | .elemStage, .stage => true
  | .cores, .stage => true
  | .cores, .mgr => true
  | .privileged, .stage => true
  | .privileged, .mgr => true
  | _, _ => false

/-- A fault code of Table 19-6. -/
abbrev Code := BitVec 8

/-- Steps 3 to 5 of R85 for a word with no reserved bit set: the code of the first check that fails,
or none. -/
def legal (k : Kind) (i : Instr) : Option Code :=
  if !contextOk k (contexts i) || (operands i).any (fun p => specCheck k i p.1 p.2 == .context) then
    some 0x02
  else if contexts i == .privileged && k == .stage then some 0x03
  else if (k.isCore && header i != default) ||
      (operands i).any (fun p => specCheck k i p.1 p.2 == .illegal) || !codedOk k i then some 0x01
  else none

/-- A field of a core word holds a specifier that Table 3-2 marks CONTEXT there, whether the operation uses the field or not
(R76). -/
def fieldContext (k : Kind) (i : Instr) (r : Reg) : Bool := specCheck k i .scalar r == .context

/-- Steps 2 to 5 of R85 for a word that decodes to no instruction: step 3 looks at every register field of the format, used or
not, ahead of the reserved bits (R76). -/
def illegalCode (k : Kind) : DecodeError → Code
  | .unassigned => 0x01
  | .reserved i fields =>
    if fields.any (fieldContext k i) then 0x02
    else
      match legal k i with
      | some 0x02 => 0x02
      | some 0x03 => 0x03
      | _ => 0x01

end Sys2Proof.Machine
end

