-- ==== Sys2Proof/Machine/Table.lean ====
section
/-! DEFINITION. Sparse data by number, in one canonical form: a list of pairs with rising numbers and no
entry equal to the value an unlisted number reads as. Memory, nodes, accumulators and the numbered
records of the machine are held in this form, so that equal contents are equal data. -/

namespace Sys2Proof.Machine

/-- A finite table from numbers to values. -/
abbrev Table (α : Type) := List (Nat × α)

/-- The value at a number; `dflt` where none is listed. -/
def Table.get {α : Type} (dflt : α) : Table α → Nat → α
  | [], _ => dflt
  | (k, v) :: t, n => if n = k then v else if n < k then dflt else Table.get dflt t n

/-- The table with the value `v` at `n`. -/
def Table.set {α : Type} [DecidableEq α] (dflt : α) (n : Nat) (v : α) : Table α → Table α
  | [] => if v = dflt then [] else [(n, v)]
  | (k, w) :: t =>
    if n < k then (if v = dflt then (k, w) :: t else (n, v) :: (k, w) :: t)
    else if n = k then (if v = dflt then t else (n, v) :: t)
    else (k, w) :: Table.set dflt n v t

/-- Every number of the table is above `lo`. -/
def Table.above {α : Type} (lo : Nat) (t : Table α) : Bool := t.all fun p => lo < p.1

/-- The canonical form. -/
def Table.wf {α : Type} [DecidableEq α] (dflt : α) : Table α → Bool
  | [] => true
  | (k, v) :: t => v ≠ dflt && Table.above k t && Table.wf dflt t

/-- The bytes at `n`, `n + 1`, …, `n + len - 1`, lowest first. -/
def Table.bytes (t : Table Byte) (n : Nat) : Nat → List Byte
  | 0 => []
  | len + 1 => t.get 0 n :: Table.bytes t (n + 1) len

/-- The table with the bytes of the list written from `n` upward. -/
def Table.setBytes (t : Table Byte) (n : Nat) : List Byte → Table Byte
  | [] => t
  | b :: l => Table.setBytes (t.set 0 n b) (n + 1) l

/-- Little-endian number of a list of bytes (R1). -/
def bytesNat : List Byte → Nat
  | [] => 0
  | b :: l => b.toNat + 256 * bytesNat l

/-- The `len` low bytes of a number, lowest first (R1). -/
def natBytes (v : Nat) : Nat → List Byte
  | 0 => []
  | len + 1 => BitVec.ofNat 8 v :: natBytes (v / 256) len

/-- The 64 bytes of a line, lowest first. -/
def lineBytes (l : Line) : List Byte := natBytes l.toNat 64
/-- The line of a list of bytes. -/
def bytesLine (l : List Byte) : Line := BitVec.ofNat 512 (bytesNat l)

/-- The field of `width` bits from bit `lo` of a number. -/
def bits (v lo width : Nat) : Nat := (v >>> lo) % 2 ^ width

/-- Element `n` of a list, or the default. -/
def nth {α : Type} (dflt : α) (l : List α) (n : Nat) : α := l.getD n dflt

/-- The list with element `n` changed by `f`. -/
def modNth {α : Type} (l : List α) (n : Nat) (f : α → α) : List α := l.modify n f

/-- A list with an element put before the first one with a larger key. -/
def insertBy {α : Type} (key : α → Nat) (a : α) : List α → List α
  | [] => [a]
  | b :: l => if key a < key b then a :: b :: l else b :: insertBy key a l

/-- A list in rising order of a key; equal keys keep their order. -/
def sortBy {α : Type} (key : α → Nat) (l : List α) : List α := l.foldl (fun acc a => insertBy key a acc) []

/-- The vector read at a number; `dflt` beyond its end. -/
def vget {α : Type} {n : Nat} (dflt : α) (v : Vector α n) (i : Nat) : α := v.getD i dflt

/-- The vector with `x` at `i`; unchanged beyond its end. -/
def vset {α : Type} {n : Nat} (v : Vector α n) (i : Nat) (x : α) : Vector α n := v.setIfInBounds i x

/-- The vector with entry `i` changed by `f`. -/
def vmod {α : Type} {n : Nat} (v : Vector α n) (i : Nat) (f : α → α) : Vector α n :=
  if h : i < n then v.set i (f v[i]) else v

end Sys2Proof.Machine
end

