-- ==== Sys2Proof/Machine/Numeric.lean ====
section
/-! DEFINITION. Number formats, rounding and exact arithmetic ("Number formats, tags and rounding").

Every operation takes the exact value of its operands, computes exactly in the rationals and rounds
once. Flags are the bits of Table 4-6. -/

namespace Sys2Proof.Machine

/-- Sticky flags (Table 4-6). -/
abbrev Flags := BitVec 7

def flagNX : Flags := 1
def flagUF : Flags := 2
def flagOF : Flags := 4
def flagDZ : Flags := 8
def flagNV : Flags := 16
def flagUZ : Flags := 32
def flagSAT : Flags := 64

/-- A flag if a condition holds. -/
def flagIf (c : Bool) (f : Flags) : Flags := if c then f else 0

/-- 2 to an integer power. -/
def pow2 (e : Int) : Rat :=
  if 0 ≤ e then (((2 ^ e.toNat : Nat) : Int) : Rat) else mkRat 1 (2 ^ (-e).toNat)

/-- ⌊log2 q⌋ of a positive rational. -/
def ilog2 (q : Rat) : Int :=
  let e : Int := (q.num.natAbs.log2 : Int) - (q.den.log2 : Int)
  if pow2 e ≤ q then (if pow2 (e + 1) ≤ q then e + 1 else e) else e - 1

/-- The magnitude of a rational. -/
def ratAbs (q : Rat) : Rat := if q < 0 then -q else q

/-- A binary floating format (Table 4-2). -/
structure Fmt where
  width : Nat
  eb : Nat
  mb : Nat
  bias : Int
  hasInf : Bool
  maxQ : Rat
  nan : Nat

/-- Exponent of the smallest normal. -/
def Fmt.emin (f : Fmt) : Int := 1 - f.bias

def fp64 : Fmt := ⟨64, 11, 52, 1023, true, (2 - pow2 (-52)) * pow2 1023, 0x7FF8000000000000⟩
def fp32 : Fmt := ⟨32, 8, 23, 127, true, (2 - pow2 (-23)) * pow2 127, 0x7FC00000⟩
def bf16 : Fmt := ⟨16, 8, 7, 127, true, (2 - pow2 (-7)) * pow2 127, 0x7FC0⟩
def fp16 : Fmt := ⟨16, 5, 10, 15, true, 65504, 0x7E00⟩
def fp8e5 : Fmt := ⟨8, 5, 2, 15, true, 57344, 0x7E⟩
def fp8e4 : Fmt := ⟨8, 4, 3, 7, false, 448, 0x7F⟩
/-- E2M1, the element format of MXF4; it has no NaN. -/
def e2m1 : Fmt := ⟨4, 2, 1, 1, false, 6, 0⟩

/-- The binary format of a tag (R90). -/
def fmtOf (t : BitVec 4) : Fmt :=
  match t.toNat with
  | 12 => fp64
  | 1 => fp16
  | 2 => bf16
  | 3 => fp8e4
  | 4 => fp8e5
  | _ => fp32

/-- A tag of a binary floating format. -/
def binTag (t : BitVec 4) : Bool := t ≤ 4 || t == 12

/-- The value of a code of a binary format (R91). -/
def Fmt.value (f : Fmt) (b : Nat) : FVal :=
  let neg := bits b (f.width - 1) 1 == 1
  let e := bits b f.mb f.eb
  let m := bits b 0 f.mb
  if f.hasInf && e == 2 ^ f.eb - 1 then
    (if m == 0 then .inf neg else .nan (bits b (f.mb - 1) 1 == 0))
  else if !f.hasInf && f.nan != 0 && bits b 0 (f.width - 1) == f.nan then .nan false
  else
    let q : Rat := if e == 0 then (m : Int) * pow2 (f.emin - f.mb)
      else ((2 ^ f.mb + m : Nat) : Int) * pow2 ((e : Int) - 1 + f.emin - f.mb)
    .fin (if neg then -q else q) neg

/-- The rounding choice of R108 and R109 between the bracketing magnitudes: whether the larger is
taken, for a fraction `g` strictly between 0 and 1, an odd smaller value, and the sign. -/
def takeLarger (rm : BitVec 3) (draw : Nat) (neg odd : Bool) (g : Rat) : Bool :=
  match rm.toNat with
  | 0 => decide (mkRat 1 2 < g) || (g == mkRat 1 2 && odd)
  | 1 => false
  | 2 => !neg
  | 3 => neg
  | 4 => decide (mkRat 1 2 ≤ g)
  | _ => decide ((draw : Rat) < g * 16777216)

/-- A magnitude rounded to multiples of 2 to the `qe`: the multiple, and whether it is exact. -/
def roundAt (rm : BitVec 3) (draw : Nat) (neg : Bool) (m : Rat) (qe : Int) : Nat × Bool :=
  let s := m * pow2 (-qe)
  let lo := s.floor.toNat
  let g := s - (lo : Int)
  if g == 0 then (lo, true)
  else (if takeLarger rm draw neg (lo % 2 == 1) g then lo + 1 else lo, false)

/-- The code with a sign. -/
def Fmt.signed (f : Fmt) (neg : Bool) (b : Nat) : Nat := if neg then b + 2 ^ (f.width - 1) else b
/-- The code of infinity. -/
def Fmt.infCode (f : Fmt) : Nat := (2 ^ f.eb - 1) * 2 ^ f.mb
/-- The code of the largest finite value. -/
def Fmt.maxCode (f : Fmt) : Nat :=
  if f.hasInf then f.infCode - 1 else if f.nan == 0 then 2 ^ (f.width - 1) - 1 else f.nan - 1

/-- A finite value that overflows a format (R94, R109). -/
def Fmt.overflow (f : Fmt) (rm : BitVec 3) (draw : Nat) (neg : Bool) (m : Rat) : Nat :=
  if !f.hasInf then f.signed neg f.maxCode
  else
    let inf := match rm.toNat with
      | 1 => false
      | 2 => !neg
      | 3 => neg
      | 5 =>
        let top := pow2 (1 + (2 ^ f.eb - 2 : Nat) - f.bias)
        decide (top ≤ m) || decide ((draw : Rat) < (m - f.maxQ) / (top - f.maxQ) * 16777216)
      | _ => true
    f.signed neg (if inf then f.infCode else f.maxCode)

/-- A finite nonzero value rounded into a binary format, with its flags (R92, R94, R108, R109). -/
def Fmt.roundFin (f : Fmt) (rm : BitVec 3) (draw : Nat) (q : Rat) : Nat × Flags :=
  let neg := decide (q < 0)
  let m := ratAbs q
  let e := ilog2 m
  let base := f.emin - f.mb
  let qe := (if e < f.emin then f.emin else e) - f.mb
  let r := roundAt rm draw neg m qe
  let ovf := if rm == 5 then decide (f.maxQ < m) else decide (f.maxQ < (r.1 : Int) * pow2 qe)
  if ovf then (f.overflow rm draw neg m, flagOF ||| flagNX)
  else
    let tiny := decide (e < f.emin) &&
      (let u := roundAt rm draw neg m (e - f.mb)
       decide ((u.1 : Int) * pow2 (e - f.mb) < pow2 f.emin))
    (f.signed neg ((qe - base).toNat * 2 ^ f.mb + r.1),
      flagIf (!r.2) flagNX ||| flagIf (tiny && !r.2) flagUF)

/-- Any value rounded into a binary format (R93, R94). -/
def Fmt.round (f : Fmt) (rm : BitVec 3) (draw : Nat) : FVal → Nat × Flags
  | .nan s => (f.nan, flagIf s flagNV)
  | .inf neg =>
    if f.hasInf then (f.signed neg f.infCode, 0)
    else if f.nan == 0 then (f.signed neg f.maxCode, flagOF ||| flagNX)
    else (f.nan, flagOF ||| flagNX)
  | .fin q neg => if q == 0 then (f.signed neg 0, 0) else f.roundFin rm draw q

/-! ### DX8 (R95 to R98) -/

/-- Length of the run of bits equal to `bit` from bit `n - 1` downward. -/
def runLen (v : Nat) (bit : Nat) : Nat → Nat
  | 0 => 0
  | n + 1 => if bits v n 1 == bit then runLen v bit n + 1 else 0

/-- 10 to an integer power. -/
def pow10 (k : Int) : Rat :=
  if 0 ≤ k then (((10 ^ k.toNat : Nat) : Int) : Rat) else mkRat 1 (10 ^ (-k).toNat)

/-- The value of a positive DX8 code, 1 to 127 (R95). -/
def dx8Pos (c : Nat) : Rat :=
  let top := bits c 6 1
  let n := runLen c top 7
  let k : Int := if top == 1 then (n : Int) - 1 else -(n : Int)
  let f := 6 - n
  pow10 k * (1 + mkRat (9 * bits c 0 f) (2 ^ f))

/-- The value of a DX8 code; NaR counts as a quiet NaN (R93). -/
def dx8Value (c : Nat) : FVal :=
  if c == 0x80 then .nan false
  else if c % 128 == 0 then .fin 0 false
  else if 128 ≤ c then .fin (-dx8Pos (c - 128)) true else .fin (dx8Pos c) false

/-- The largest code in 0 to `n` whose value does not exceed `m`. -/
def dx8Floor (m : Rat) : Nat → Nat
  | 0 => 0
  | n + 1 => if dx8Pos (n + 1) ≤ m then n + 1 else dx8Floor m n

/-- The value of code 0 to 127. -/
def dx8Mag (c : Nat) : Rat := if c == 0 then 0 else dx8Pos c

/-- A value rounded into DX8 (R97). -/
def dx8Round (rm : BitVec 3) (draw : Nat) : FVal → Nat × Flags
  | .nan s => (0x80, flagIf s flagNV)
  | .inf _ => (0x80, flagNV)
  | .fin q negZero =>
    if q == 0 then (0, flagIf negZero flagUZ)
    else
      let neg := decide (q < 0)
      let m := ratAbs q
      if 1000000 < m then (if neg then 0xFF else 0x7F, flagOF ||| flagNX)
      else
        let lo := dx8Floor m 127
        let a := dx8Mag lo
        let c := if m == a then lo
          else if takeLarger rm draw neg (lo % 2 == 1) ((m - a) / (dx8Mag (lo + 1) - a)) then lo + 1 else lo
        if c == 0 then (0, flagUF ||| flagNX ||| flagIf neg flagUZ)
        else (if neg then c + 128 else c, flagIf (m != a) flagNX)

/-! ### Integers and conversions (R104, R107) -/

/-- A `w`-bit pattern read as two's complement. -/
def sInt (w v : Nat) : Int := if 2 ^ (w - 1) ≤ v then (v : Int) - (2 ^ w : Nat) else v
/-- An integer as a `w`-bit pattern. -/
def toBits (w : Nat) (i : Int) : Nat := (i % (2 ^ w : Nat)).toNat

/-- An integer clamped to `w` bits, and whether it was out of range. -/
def clampInt (w : Nat) (i : Int) : Int × Bool :=
  let lo : Int := -(2 ^ (w - 1) : Nat)
  let hi : Int := (2 ^ (w - 1) : Nat) - 1
  if i < lo then (lo, true) else if hi < i then (hi, true) else (i, false)

/-- A rational rounded to an integer (R108, R109). -/
def roundInt (rm : BitVec 3) (draw : Nat) (q : Rat) : Int :=
  let neg := decide (q < 0)
  let r := (roundAt rm draw neg (ratAbs q) 0).1
  if neg then -(r : Int) else r

/-- A value rounded into a `w`-bit integer (R104): the pattern and the flags. -/
def intRound (w : Nat) (rm : BitVec 3) (draw : Nat) : FVal → Nat × Flags
  | .nan _ => (0, flagNV)
  | .inf neg => (toBits w (if neg then -(2 ^ (w - 1) : Nat) else (2 ^ (w - 1) : Nat) - 1), flagNV)
  | .fin q _ =>
    let i := roundInt rm draw q
    let c := clampInt w (if rm == 5 then (if q < 0 then q.floor else q.ceil) else i)
    if c.2 then (toBits w c.1, flagNV) else (toBits w i, flagIf ((i : Rat) != q) flagNX)

/-- Width in bits of a value of a tag in a lane. -/
def laneBits (t : BitVec 4) : Nat :=
  match t.toNat with
  | 12 => 64
  | 0 | 11 => 32
  | 1 | 2 | 10 => 16
  | _ => 8

/-- INT8, INT16 or INT32. -/
def isInt (t : BitVec 4) : Bool := t == 9 || t == 10 || t == 11

/-- The exact value of a pattern of a tag (R91, R95, R104). -/
def valueOf (t : BitVec 4) (b : Nat) : FVal :=
  if isInt t then .fin (sInt (laneBits t) (bits b 0 (laneBits t)) : Int) false
  else if t == 5 then dx8Value (bits b 0 8)
  else (fmtOf t).value (bits b 0 (laneBits t))

/-- The value with which a pattern enters arithmetic: DX8 by its RNE conversion to FP32 (R98), which sets no flag (DESIGN CHOICE, log 81). -/
def arithValue (t : BitVec 4) (b : Nat) : FVal :=
  if t == 5 then fp32.value (fp32.round 0 0 (dx8Value (bits b 0 8))).1 else valueOf t b

/-- A value rounded into a tag (Table 4-5). -/
def roundTag (t : BitVec 4) (rm : BitVec 3) (draw : Nat) (x : FVal) : Nat × Flags :=
  if isInt t then intRound (laneBits t) rm draw x
  else if t == 5 then dx8Round rm draw x
  else (fmtOf t).round rm draw x

/-- A pattern converted from one tag to another by an instruction or a port (R107, R104, R365): an
integer narrows with saturation, an equal tag is copied but for NaNs. -/
def convertTag (t o : BitVec 4) (rm : BitVec 3) (draw : Nat) (b : Nat) : Nat × Flags :=
  if isInt t && isInt o then
    let i := sInt (laneBits t) (bits b 0 (laneBits t))
    let c := clampInt (laneBits o) i
    (toBits (laneBits o) c.1, flagIf c.2 flagSAT)
  else if t == o then
    match valueOf t b with
    | .nan s => (if t == 5 then 0x80 else (fmtOf t).nan, flagIf s flagNV)
    | _ => (bits b 0 (laneBits t), 0)
  else roundTag o rm draw (valueOf t b)

/-! ### Exact arithmetic on values -/

end Sys2Proof.Machine

namespace Sys2Proof

/-- Is the value a NaN, and a signalling one. -/
def FVal.isNan : FVal → Bool
  | .nan _ => true
  | _ => false
def FVal.isSnan : FVal → Bool
  | .nan s => s
  | _ => false
def FVal.isZero : FVal → Bool
  | .fin q _ => q == 0
  | _ => false
/-- The sign of a value. -/
def FVal.negative : FVal → Bool
  | .nan _ => false
  | .inf n => n
  | .fin q z => if q == 0 then z else decide (q < 0)
def FVal.neg : FVal → FVal
  | .nan s => .nan s
  | .inf n => .inf (!n)
  | .fin q z => .fin (-q) (!z)
def FVal.abs : FVal → FVal
  | .nan s => .nan s
  | .inf _ => .inf false
  | .fin q _ => .fin (Machine.ratAbs q) false

/-- Is the value finite. -/
def FVal.finite : FVal → Bool
  | .fin _ _ => true
  | _ => false

end Sys2Proof

namespace Sys2Proof.Machine

/-- The NaN that an operation on NaN operands gives, with NV for a signalling operand (R93). -/
def nanOf (l : List FVal) : FVal × Flags := (.nan false, flagIf (l.any FVal.isSnan) flagNV)

/-- An invalid operation (R93). -/
def invalid : FVal × Flags := (.nan false, flagNV)

/-- The exact sum; a zero sum of opposite signs is +0, or −0 under RDN (R363). -/
def addV (rm : BitVec 3) (a b : FVal) : FVal × Flags :=
  match a, b with
  | .nan _, _ => nanOf [a, b]
  | _, .nan _ => nanOf [a, b]
  | .inf x, .inf y => if x == y then (a, 0) else invalid
  | .inf _, .fin _ _ => (a, 0)
  | .fin _ _, .inf _ => (b, 0)
  | .fin p _, .fin q _ =>
    let s := p + q
    (.fin s (if s == 0 then
      (if a.negative == b.negative then a.negative else rm == 3) else decide (s < 0)), 0)

/-- The exact product; ∞·0 is invalid. -/
def mulV (a b : FVal) : FVal × Flags :=
  let s := a.negative != b.negative
  match a, b with
  | .nan _, _ => nanOf [a, b]
  | _, .nan _ => nanOf [a, b]
  | .inf _, .inf _ => (.inf s, 0)
  | .inf _, .fin q _ => if q == 0 then invalid else (.inf s, 0)
  | .fin p _, .inf _ => if p == 0 then invalid else (.inf s, 0)
  | .fin p _, .fin q _ => (.fin (p * q) s, 0)

/-- The exact value of a·b + c; ∞·0 is invalid whatever c holds (R369). -/
def fmaV (rm : BitVec 3) (a b c : FVal) : FVal × Flags :=
  let p := mulV a b
  let s := addV rm p.1 c
  (s.1, p.2 ||| s.2)

/-- The exact quotient (R367). -/
def divV (a b : FVal) : FVal × Flags :=
  let s := a.negative != b.negative
  match a, b with
  | .nan _, _ => nanOf [a, b]
  | _, .nan _ => nanOf [a, b]
  | .inf _, .inf _ => invalid
  | .inf _, .fin _ _ => (.inf s, 0)
  | .fin _ _, .inf _ => (.fin 0 s, 0)
  | .fin p _, .fin q _ =>
    if q == 0 then (if p == 0 then invalid else (.inf s, flagDZ)) else (.fin (p / q) s, 0)

/-- Order of values with −0 below +0, for minimum and maximum (R370). -/
def lessV (a b : FVal) : Bool :=
  match a, b with
  | .fin p _, .fin q _ => if p == q then (p == 0 && a.negative && !b.negative) else decide (p < q)
  | .inf x, .inf y => x && !y
  | .inf x, .fin _ _ => x
  | .fin _ _, .inf y => !y
  | _, _ => false

/-- Minimum or maximum (R370). -/
def minmaxV (max : Bool) (a b : FVal) : FVal × Flags :=
  if a.isNan || b.isNan then nanOf [a, b]
  else (if lessV a b == max then b else a, 0)

/-- Numeric equality; −0 = +0. -/
def eqV (a b : FVal) : Bool :=
  match a, b with
  | .fin p _, .fin q _ => p == q
  | .inf x, .inf y => x == y
  | _, _ => false

/-- Numeric order; −0 = +0. -/
def ltV (a b : FVal) : Bool := !eqV a b && lessV a b

/-- A floating comparison with its NV flag (R373). -/
def compareV (cc : BitVec 3) (a b : FVal) : Bool × Flags :=
  let un := a.isNan || b.isNan
  let sn := flagIf (a.isSnan || b.isSnan) flagNV
  match cc.toNat with
  | 0 => (!un && eqV a b, sn)
  | 1 => (un || !eqV a b, sn)
  | 2 => (!un && ltV a b, flagIf un flagNV)
  | 3 => (!un && !ltV a b, flagIf un flagNV)
  | 4 => (!un && !ltV b a, flagIf un flagNV)
  | 5 => (!un && ltV b a, flagIf un flagNV)
  | _ => (un, sn)

/-- The class mask of FCLASS (R364): bit numbers of the table there. -/
def classOf (f : Fmt) (b : Nat) : Nat :=
  match f.value b with
  | .nan s => if s then 2 ^ 8 else 2 ^ 9
  | .inf n => if n then 2 ^ 0 else 2 ^ 7
  | .fin q z =>
    let neg := (FVal.fin q z).negative
    if q == 0 then (if neg then 2 ^ 3 else 2 ^ 4)
    else if ratAbs q < pow2 f.emin then (if neg then 2 ^ 2 else 2 ^ 5)
    else (if neg then 2 ^ 1 else 2 ^ 6)

/-! ### Sums (R113, R152) -/

/-- One level of the pairwise tree. -/
def pairLevel {α : Type} (add : α → α → α) : List α → List α
  | a :: b :: l => add a b :: pairLevel add l
  | l => l

/-- The pairwise tree over a list of 2^fuel elements or fewer (R113). -/
def pairTree {α : Type} [Inhabited α] (add : α → α → α) : Nat → List α → α
  | 0, l => l.headD default
  | fuel + 1, l => if l.length ≤ 1 then l.headD default else pairTree add fuel (pairLevel add l)

/-- pairwise_sum of exact values, each addition rounding into `f` (R113). -/
def pairwiseSum (f : Fmt) (rm : BitVec 3) (l : List FVal) : FVal × Flags :=
  pairTree (fun a b =>
    let s := addV rm a.1 b.1
    let r := f.round rm 0 s.1
    (f.value r.1, a.2 ||| b.2 ||| s.2 ||| r.2)) 8 (l.map fun v => (v, (0 : Flags)))

/-- One exact sum of many terms (R152): a NaN or opposite infinities give a NaN; an exact zero is −0
when every term is −0, and otherwise +0, or −0 under RDN unless every term is +0 (DESIGN CHOICE, log 85). -/
def sumTerms (rm : BitVec 3) (l : List FVal) : FVal × Flags :=
  let infs := l.filterMap fun v => match v with | .inf n => some n | _ => none
  if l.any FVal.isNan then nanOf l
  else match infs with
  | n :: t => if t.all (· == n) then (.inf n, 0) else invalid
  | [] =>
    let s := l.foldl (fun acc v => match v with | .fin q _ => acc + q | _ => acc) (0 : Rat)
    (.fin s (if s == 0 then (l.all FVal.negative && !l.isEmpty) || (rm == 3 && !(l.all fun v => !v.negative))
      else decide (s < 0)), 0)

/-! ### Square root, exponential and logarithm, correctly rounded (R374, R464, DEDUCED, log 16) -/

/-- Newton's iteration for the integer square root. -/
def isqrtIter (n : Nat) : Nat → Nat → Nat
  | 0, x => x
  | fuel + 1, x => let y := (x + n / x) / 2; if y < x then isqrtIter n fuel y else x

/-- ⌊√n⌋. -/
def isqrt (n : Nat) : Nat := if n == 0 then 0 else isqrtIter n (n.log2 + 8) (2 ^ (n.log2 / 2 + 1))

/-- Rational bounds of a real number at each level of precision; equal bounds mean the value is exact. -/
abbrev Bounds := Nat → Rat × Rat

/-- The precision in bits of each level (DEDUCED, log 16). -/
def precision (level : Nat) : Nat := 192 * 4 ^ level

/-- Rounds a real number given by bounds: the first level at which both bounds round alike decides. -/
def Fmt.roundReal (f : Fmt) (rm : BitVec 3) (draw : Nat) (b : Bounds) : Nat → Nat → Nat × Flags
  | 0, level => f.round rm draw (.fin (b level).1 false)
  | fuel + 1, level =>
    let p := b level
    let lo := f.round rm draw (.fin p.1 (decide (p.1 < 0)))
    let hi := f.round rm draw (.fin p.2 (decide (p.2 < 0)))
    if lo == hi then lo else f.roundReal rm draw b fuel (level + 1)

/-- Bounds of √q for q > 0. -/
def sqrtBounds (q : Rat) : Bounds := fun level =>
  let p := precision level + q.den.log2
  let n := q.num.toNat * q.den * 2 ^ (2 * p)
  let s := isqrt n
  let d := q.den * 2 ^ p
  if s * s == n then (mkRat s d, mkRat s d) else (mkRat s d, mkRat (s + 1) d)

/-- ⌈√⌉-style bounds of 1/√q. -/
def rsqrtBounds (q : Rat) : Bounds := fun level =>
  let b := sqrtBounds q level
  (1 / b.2, 1 / b.1)

/-- Σ zⁿ⁺¹-terms of atanh in fixed point: `z2` is z² and `t` the current power, both scaled by 2^p. -/
def atanhSum (p z2 : Nat) : Nat → Nat → Nat → Nat
  | 0, _, _ => 0
  | fuel + 1, t, i => t / (2 * i + 1) + atanhSum p z2 fuel (t * z2 / 2 ^ p) (i + 1)

/-- Fixed-point bounds of atanh z, 0 ≤ z ≤ 1/3, scaled by 2^p: floor errors stay below 4·terms. -/
def atanhBounds (p : Nat) (z : Rat) : Int × Int :=
  let terms := p / 3 + 4
  let zf := (z * pow2 p).floor.toNat
  let z2 := zf * zf / 2 ^ p
  let s := atanhSum p z2 terms zf 0
  (s, s + 8 * terms + 8)

/-- Fixed-point bounds of ln 2. -/
def ln2Bounds (p : Nat) : Int × Int :=
  let a := atanhBounds p (mkRat 1 3)
  (2 * a.1, 2 * a.2)

/-- Bounds of ln q for q > 0, q ≠ 1. -/
def lnBounds (q : Rat) : Bounds := fun level =>
  let p := precision level
  let k := ilog2 q
  let m := q * pow2 (-k)
  let a := atanhBounds p ((m - 1) / (m + 1))
  let l := ln2Bounds p
  let kl := if 0 ≤ k then (k * l.1, k * l.2) else (k * l.2, k * l.1)
  (mkRat (kl.1 + 2 * a.1) (2 ^ p), mkRat (kl.2 + 2 * a.2) (2 ^ p))

/-- Σ rⁿ/n! in fixed point. -/
def expSum (p r : Nat) : Nat → Nat → Nat → Nat
  | 0, _, _ => 0
  | fuel + 1, t, n => t + expSum p r fuel (t * r / 2 ^ p / (n + 1)) (n + 1)

/-- Bounds of e^q for q ≠ 0. -/
def expBounds (q : Rat) : Bounds := fun level =>
  let p := precision level
  if 3000 < q then (pow2 4000, pow2 4000)
  else if q < -3000 then (pow2 (-4100), pow2 (-4000))
  else if ratAbs q < pow2 (-160) then (1 + q, 1 + q + q * q)
  else
    let l := ln2Bounds p
    let k := (q * pow2 p / l.1).floor
    -- q·2^p − k·ln2·2^p lies in [r0, r1]
    let x := q * pow2 p
    let r0 := ((x - (if 0 ≤ k then k * l.2 else k * l.1)).floor - 1)
    let r1 := ((x - (if 0 ≤ k then k * l.1 else k * l.2)).ceil + 1)
    let n := p / 3 + 12
    let lo := expSum p r0.toNat n (2 ^ p) 0
    let hi := expSum p r1.toNat n (2 ^ p) 0 + 8 * n + 8
    (mkRat lo (2 ^ p) * pow2 k, mkRat hi (2 ^ p) * pow2 k)

/-- Bounds of e^q − 1 for q > 0. -/
def expm1Bounds (q : Rat) : Bounds := fun level =>
  if q < pow2 (-160) then (q, q + q * q)
  else let b := expBounds q level; (b.1 - 1, b.2 - 1)

/-- √a (R374). -/
def Fmt.sqrt (f : Fmt) (rm : BitVec 3) (draw : Nat) (a : FVal) : Nat × Flags :=
  match a with
  | .nan s => (f.nan, flagIf s flagNV)
  | .inf n => if n then (f.nan, flagNV) else (f.infCode, 0)
  | .fin q z =>
    if q == 0 then (f.signed z 0, 0)
    else if q < 0 then (f.nan, flagNV) else f.roundReal rm draw (sqrtBounds q) 4 0

/-- e^a (R464). -/
def Fmt.exp (f : Fmt) (rm : BitVec 3) (draw : Nat) (a : FVal) : Nat × Flags :=
  match a with
  | .nan s => (f.nan, flagIf s flagNV)
  | .inf n => if n then (0, 0) else (f.infCode, 0)
  | .fin q _ =>
    if q == 0 then f.round rm draw (.fin 1 false) else f.roundReal rm draw (expBounds q) 4 0

/-- ln a (R464). -/
def Fmt.log (f : Fmt) (rm : BitVec 3) (draw : Nat) (a : FVal) : Nat × Flags :=
  match a with
  | .nan s => (f.nan, flagIf s flagNV)
  | .inf n => if n then (f.nan, flagNV) else (f.infCode, 0)
  | .fin q _ =>
    if q == 0 then (f.signed true f.infCode, flagDZ)
    else if q < 0 then (f.nan, flagNV)
    else if q == 1 then (0, 0)
    else f.roundReal rm draw (lnBounds q) 4 0

/-- 1/a (R464). -/
def Fmt.recip (f : Fmt) (rm : BitVec 3) (draw : Nat) (a : FVal) : Nat × Flags :=
  let d := divV (.fin 1 false) a
  let r := f.round rm draw d.1
  (r.1, d.2 ||| r.2)

/-- 1/√a (R464). -/
def Fmt.rsqrt (f : Fmt) (rm : BitVec 3) (draw : Nat) (a : FVal) : Nat × Flags :=
  match a with
  | .nan s => (f.nan, flagIf s flagNV)
  | .inf n => if n then (f.nan, flagNV) else (0, 0)
  | .fin q z =>
    if q == 0 then (f.signed z f.infCode, flagDZ)
    else if q < 0 then (f.nan, flagNV) else f.roundReal rm draw (rsqrtBounds q) 4 0

/-! ### FP32 helpers of the unit chapters: each step rounds once -/

/-- An FP32 pattern. -/
abbrev F32 := BitVec 32
def F32.val (x : F32) : FVal := fp32.value x.toNat
/-- The FP32 result of an exact value. -/
def f32Of (rm : BitVec 3) (v : FVal) : F32 := BitVec.ofNat 32 (fp32.round rm 0 v).1
def f32Add (rm : BitVec 3) (a b : F32) : F32 := f32Of rm (addV rm a.val b.val).1
def f32Sub (rm : BitVec 3) (a b : F32) : F32 := f32Of rm (addV rm a.val b.val.neg).1
def f32Mul (rm : BitVec 3) (a b : F32) : F32 := f32Of rm (mulV a.val b.val).1
def f32Div (rm : BitVec 3) (a b : F32) : F32 := f32Of rm (divV a.val b.val).1
def f32Fma (rm : BitVec 3) (a b c : F32) : F32 := f32Of rm (fmaV rm a.val b.val c.val).1
def f32Exp (rm : BitVec 3) (a : F32) : F32 := BitVec.ofNat 32 (fp32.exp rm 0 a.val).1
def f32Log (rm : BitVec 3) (a : F32) : F32 := BitVec.ofNat 32 (fp32.log rm 0 a.val).1
def f32Sqrt (rm : BitVec 3) (a : F32) : F32 := BitVec.ofNat 32 (fp32.sqrt rm 0 a.val).1
/-- e^a − 1 (R204); defined for a ≥ 0. -/
def f32Expm1 (rm : BitVec 3) (a : F32) : F32 :=
  match a.val with
  | .nan _ => 0x7FC00000
  | .inf n => if n then 0xBF800000 else 0x7F800000
  | .fin q _ => if q == 0 then 0 else BitVec.ofNat 32 (fp32.roundReal rm 0 (expm1Bounds q) 4 0).1
def f32Lt (a b : F32) : Bool := ltV a.val b.val
def f32Le (a b : F32) : Bool := !ltV b.val a.val && !a.val.isNan && !b.val.isNan
/-- FP32 of an FP16 pattern, exact. -/
def f32OfF16 (h : Nat) : F32 := f32Of 0 (fp16.value h)
/-- FP32 of a natural number. -/
def f32OfNat (n : Nat) : F32 := f32Of 0 (.fin (n : Int) false)

/-! ### The draw of RSTO (R109) -/

/-- splitmix64_fin (R109). -/
def splitmix (z : BitVec 64) : BitVec 64 :=
  let z := (z ^^^ (z >>> 30)) * 0xBF58476D1CE4E5B9
  let z := (z ^^^ (z >>> 27)) * 0x94D049BB133111EB
  z ^^^ (z >>> 31)

/-- The draw of lane `n` of the word at position `pos` in iteration `i` (R109). -/
def elemDraw (seed : BitVec 64) (i pos n : Nat) : Nat :=
  ((splitmix (seed ^^^ BitVec.ofNat 64 (i <<< 14 ||| pos <<< 6 ||| n))) >>> 40).toNat

/-- The draw of a core (R109). -/
def coreDraw (seed sctr : BitVec 64) : Nat := ((splitmix (seed ^^^ sctr)) >>> 40).toNat

/-! ### MX blocks (R99 to R103) -/

/-- emax of an MX format's elements (R102). -/
def mxEmax (t : BitVec 4) : Int := if t == 6 then 8 else if t == 7 then 2 else 0
/-- Bits of an MX element. -/
def mxBits (t : BitVec 4) : Nat := if t == 7 then 4 else 8

/-- The value of an element code before the scale (R99). -/
def mxElem (t : BitVec 4) (c : Nat) : FVal :=
  if t == 6 then fp8e4.value c
  else if t == 7 then e2m1.value c
  else .fin ((sInt 8 c : Int) * pow2 (-6)) false

/-- A side record entry: valid, index and FP16 value (Table 4-4). -/
def sideEntry (side : Nat) (e : Nat) : Option (Nat × Nat) :=
  let w := bits side (24 * e) 24
  if bits w 23 1 == 1 then some (bits w 16 5, bits w 0 16) else none

/-- The value of element `i` of a block, its side record applied (R99). -/
def mxValue (t : BitVec 4) (elems scale side : Nat) (i : Nat) : FVal :=
  if scale == 0xFF then .nan false
  else
    match (List.range 4).reverse.findSome? fun e =>
        (sideEntry side e).bind fun p => if p.1 == i then some p.2 else none with
    | some h => fp16.value h
    | none =>
      match mxElem t (bits elems (mxBits t * i) (mxBits t)) with
      | .fin q z => .fin (q * pow2 ((scale : Int) - 127)) z
      | v => v

/-- std_scale of R102. -/
def stdScale (amax : Rat) (t : BitVec 4) : Nat :=
  if amax == 0 then 127
  else
    let e := ilog2 amax - mxEmax t
    ((if e < -127 then -127 else if 127 < e then 127 else e) + 127).toNat

/-- round_sat of R102 into an element code. -/
def roundSat (t : BitVec 4) (rm : BitVec 3) (draw : Nat) (x : FVal) : Nat × Flags :=
  if t == 6 then fp8e4.round rm draw x
  else if t == 7 then e2m1.round rm draw x
  else match x with
    | .fin q _ =>
      let s := q * 64
      let i := if rm == 5 && 127 < ratAbs s then (if s < 0 then -128 else 128) else roundInt rm draw s
      if i < -127 then (toBits 8 (-127), flagOF ||| flagNX)
      else if 127 < i then (127, flagOF ||| flagNX)
      else (toBits 8 i, flagIf ((i : Rat) != s) flagNX)
    | _ => (0, 0)

/-- A quantised block: elements, scale byte, side record and flags. -/
structure MxBlock where
  elems : Nat
  scale : Nat
  side : Nat
  flags : Flags

/-- A value scaled by a power of two. -/
def scaleV (x : FVal) (e : Int) : FVal :=
  match x with
  | .fin q z => .fin (q * pow2 e) z
  | v => v

/-- The magnitude of a finite value. -/
def magOf (x : FVal) : Rat :=
  match x with
  | .fin q _ => ratAbs q
  | _ => 0

/-- A block that holds a non-finite input (R102). -/
def mxNonFinite : MxBlock := ⟨0, 0xFF, 0, flagNV⟩

/-- The elements of a block under a scale; the elements of `skip` are 0 (R102, R103). -/
def mxElems (x : List FVal) (t : BitVec 4) (s : Nat) (skip : List Nat) (rm : BitVec 3) (draws : List Nat) :
    Nat × Flags :=
  ((List.range 32).map fun i =>
    if skip.contains i then (i, (0, (0 : Flags)))
    else (i, roundSat t rm (nth 0 draws i) (scaleV (nth (.fin 0 false) x i) (127 - (s : Int))))).foldl
    (fun acc p => (acc.1 + p.2.1 * 2 ^ (mxBits t * p.1), acc.2 ||| p.2.2)) (0, 0)

/-- The larger of two rationals. -/
def ratMax (a b : Rat) : Rat := if a < b then b else a

/-- mx_quant_std (R102). -/
def mxQuantStd (x : List FVal) (t : BitVec 4) (rm : BitVec 3) (draws : List Nat) : MxBlock :=
  if x.any fun v => !v.finite then mxNonFinite
  else
    let s := stdScale (x.foldl (fun a v => ratMax a (magOf v)) 0) t
    let r := mxElems x t s [] rm draws
    ⟨r.1, s, 0, r.2⟩

/-- The indices of a list of magnitudes that exceed a threshold, largest first, ties to the lower
index (R103). -/
def outliers (mags : List Rat) (thr : Rat) : List Nat :=
  let out := (List.range mags.length).filter fun i => decide (thr < nth 0 mags i)
  out.mergeSort fun i j => decide (nth 0 mags j < nth 0 mags i) || (nth 0 mags i == nth 0 mags j && i ≤ j)

/-- mx_quant_split (R103); the roundings of the sum and of the threshold set no flag (DESIGN CHOICE, log 82). -/
def mxQuantSplit (x : List FVal) (t : BitVec 4) (kappa : FVal) (rm : BitVec 3) (draws : List Nat) : MxBlock :=
  if x.any fun v => !v.finite then mxNonFinite
  else
    let bad := match kappa with
      | .nan _ => true
      | .inf n => n
      | .fin q _ => decide (q ≤ 0)
    let mags := x.map magOf
    let mu := (pairwiseSum fp32 0 (x.map FVal.abs)).1
    let thr : FVal := if bad then .inf false
      else match kappa, mu with
        | .fin k _, .fin m _ => fp32.value (fp32.round 0 0 (.fin (k * (m / 32)) false)).1
        | .inf _, .fin m _ => if m == 0 then .nan false else .inf false
        | _, _ => .inf false
    let out := match thr with
      | .fin q _ => outliers mags q
      | _ => []
    let side := (out.take 4).mergeSort fun i j => decide (i ≤ j)
    let s := stdScale ((List.range 32).foldl (fun a i => if out.contains i then a else ratMax a (nth 0 mags i)) 0) t
    let r := mxElems x t s side rm draws
    let recs := side.map fun i => (i, fp16.round 0 0 (nth (.fin 0 false) x i))
    let rec0 := (recs.zipIdx).foldl
      (fun acc p => (acc.1 + (2 ^ 23 + p.1.1 * 2 ^ 16 + p.1.2.1) * 2 ^ (24 * p.2), acc.2 ||| p.1.2.2)) (0, (0 : Flags))
    ⟨r.1, s, rec0.1, r.2 ||| rec0.2 ||| flagIf bad flagNV⟩

/-- The layout of an MX pair (R101): bits per block of elements in the even register. -/
def mxBlockBits (t : BitVec 4) : Nat := 32 * mxBits t

/-- Elements, scale and side record of block `b` of a pair (R101). -/
def pairBlock (t : BitVec 4) (even odd : Line) (b : Nat) : Nat × Nat × Nat :=
  (bits even.toNat (mxBlockBits t * b) (mxBlockBits t), bits odd.toNat (8 * b) 8, bits odd.toNat (32 + 96 * b) 96)

/-- A number with the field of `width` bits from bit `lo` replaced. -/
def setBits (v lo width x : Nat) : Nat := v - bits v lo width * 2 ^ lo + (x % 2 ^ width) * 2 ^ lo

/-- A pair with block `b` written (R101, R463). -/
def setPairBlock (t : BitVec 4) (even odd : Line) (b : Nat) (m : MxBlock) : Line × Line :=
  (BitVec.ofNat 512 (setBits even.toNat (mxBlockBits t * b) (mxBlockBits t) m.elems),
   BitVec.ofNat 512 (setBits (setBits odd.toNat (8 * b) 8 m.scale) (32 + 96 * b) 96 m.side))

end Sys2Proof.Machine
end

