-- ==== Sys2Proof/Machine/State.lean ====
section
/-! DEFINITION. The state of a Thekel 24 module as plain data, and the state right after reset.

The module is 24 compute dies, the HBM behind them, and the I/O dies. A step is one turn of one agent;
`agenda` and `focus` say which agent moves next (DESIGN CHOICE, log 1). The docstring of a field names the rule that
gives it; INVENTORY.md lists every field with its reset value. -/

namespace Sys2Proof.Machine

/-- What executes the current word. -/
inductive Who where
  | elem (g : Fin 32) (r : Fin 8) (c : Fin 16)
  | stage (g : Fin 32)
  | mgr
  deriving DecidableEq, Repr, Inhabited

/-- One turn of one agent of the focused die, or a change of the focused die (DESIGN CHOICE, log 1). -/
inductive Turn where
  /-- Stagehand 0 to 31, or the manager, 32. -/
  | core (c : Fin 33)
  /-- The elements of a region. -/
  | region (g : Fin 32)
  /-- The end of a cycle of the arithmetic clock. -/
  | tick
  | die (n : Fin 24)
  | event (i : Instr)
  deriving DecidableEq, Repr, Inhabited

/-- Where a core stands (R303, R304, R310, R311). -/
inductive Run where
  | idle | running | halted | firmware
  deriving DecidableEq, Repr, Inhabited

/-- An asynchronous event that waits at a core (R309, R311). -/
structure Event where
  code : BitVec 8
  src : BitVec 3
  region : BitVec 5
  tval : BitVec 64
  epc : BitVec 54
  async : Bool
  more : Bool
  job : BitVec 14
  deriving DecidableEq, Repr, Inhabited

/-- A window bound by SHADOW (R178, R433). -/
structure Shadow where
  bound : Bool
  base : Nat
  tile : Nat
  head : Line
  deriving DecidableEq, Repr, Inhabited

/-- The record of a load image (Table 22-3). -/
inductive LoadRec where
  | region (g ii : Nat) (framed : Bool) (stages : List (BitVec 3)) (words : List Word)
  | buffer (g index node depth logb : Nat) (wm : BitVec 16) (sport : Option Nat)
  | unit (u : Nat)
  | route (src : Nat) (fromConv : Bool) (out : Nat) (value : BitVec 16)
  | conv (k : Nat) (cfg : BitVec 17)
  | chan (ch preg : Nat) (psh : Bool) (prow creg : Nat) (csh : Bool) (crow : Nat)
  | rmw (g slot pos : Nat)
  deriving DecidableEq, Repr, Inhabited

/-- An understudy: its configuration number, mask and records (R314, R389). -/
structure Under where
  cfg : Nat
  mask : BitVec 32
  recs : List LoadRec
  deriving DecidableEq, Repr, Inhabited

/-- A checked load image (R387). -/
structure LoadImage where
  recs : List LoadRec
  unders : List Under
  deriving DecidableEq, Repr, Inhabited

/-- The requester of a retry entry (R281, Table 17-4). -/
inductive Requester where
  /-- An access of the window that the word at a position of an iteration opened. -/
  | window (g e iter pos : Nat)
  /-- The held stores of a line. -/
  | held (g line : Nat)
  | amo (g : Nat)
  | core (g : Nat)
  | port (g p : Nat)
  | gather (u : Nat)
  | opUnit (u : Nat)
  deriving DecidableEq, Repr, Inhabited

/-- A translated address: physical address, codec code, key index and deduplication bit (R276). -/
structure Xlat where
  pa : Nat
  codec : Nat
  key : Nat
  dedup : Bool
  deriving DecidableEq, Repr, Inhabited

/-- An open retry entry (R281, R413, R414). -/
structure Retry where
  slot : Nat
  who : Requester
  acc : Nat
  va : Nat
  size : Nat
  root : BitVec 64
  /-- The access is the index read of a shadow window (R179). -/
  index : Bool
  /-- Already returned by an RTYPOP. -/
  popped : Bool
  deriving DecidableEq, Repr, Inhabited

/-- What a core waits for. -/
inductive Wait where
  | none
  /-- MWAIT with its destination and threshold, and the first value it has read since that reaches the threshold (R392). -/
  | mwait (d : Reg) (thr : BitVec 64) (met : Option (BitVec 64))
  /-- BARW on the object at a translated address, and whether its PEND has been 0 since (R248, R289). -/
  | barw (x : Xlat) (met : Bool)
  /-- The reconfiguration token (R407). -/
  | reconf
  /-- The installation of a checked image (R385). -/
  | load (img : LoadImage)
  /-- A retry-ring entry (R281). -/
  | retry (slot : Nat)
  /-- RTYW until the access it replays has performed at its requester, with its destination and the entry (R415). -/
  | rtyw (d : Reg) (e : Retry)
  /-- REDSEQ until its contribution is judged (R291, R292). -/
  | redseq
  /-- TQUERY between its pin and its unpin (R205, R211): D, the pool unit, the pinned root, the lines of the result block
  and the status word, all as the version at the pin gives them. -/
  | query (d : Reg) (pool root : Nat) (out : List (Nat × List Byte)) (status : BitVec 64)
  deriving DecidableEq, Repr, Inhabited

/-- A stagehand or manager core. -/
structure Core where
  /-- x1 to x31 (R74); entry 0 is never read. -/
  x : Vector (BitVec 64) 32
  /-- Program counter, a word index (R69). -/
  pc : BitVec 54
  run : Run
  /-- SHCTL.FROZEN (R310). -/
  frozen : Bool
  /-- SHCTL.DF (R310). -/
  df : Bool
  /-- RUN = 0 written and not yet taken (R310). -/
  freezeReq : Bool
  wait : Wait
  /-- Data that RTYW supplied for an access of the current word: its address and bytes (R415). -/
  supplied : List (Nat × List Byte)
  /-- ASROOT of the issue of the current word, whose access took PAGE and is to be made again; and whether that was its fetch (R275,
  R281). -/
  issued : Option (Bool × BitVec 64)
  tvec : BitVec 64
  tcause : BitVec 64
  tepc : BitVec 54
  tval : BitVec 64
  /-- TSTAT.INH (R307). -/
  inh : Bool
  /-- TSTAT.IEN (R307). -/
  ien : Bool
  /-- UCFG.SWITCHED, which a read of this stagehand's UCFG clears (R307, R315). -/
  switched : Bool
  /-- Waiting asynchronous events, oldest first: at most 64 in the manager (R309, R311). -/
  events : List Event
  /-- FFLAGS (R111). -/
  fflags : BitVec 7
  /-- RSBASE (R112). -/
  rsbase : BitVec 64
  /-- SCTR (R112). -/
  sctr : BitVec 64
  /-- ASROOT (R275). -/
  asroot : BitVec 64
  /-- UFINFO (R167). -/
  ufinfo : BitVec 64
  /-- The monitor: physical address, codec code and key index (R392). -/
  mon : Option (Nat × Nat × Nat)
  /-- Code lines fetched and held: the L1 instruction cache (R23, R296), by physical line number. -/
  l1i : Table (Option Line)
  /-- Lines the core has written since its last `fence.sys` (R287). -/
  wrote : List Nat
  /-- A LOADCFG of the core is in progress (R386). -/
  loading : Bool
  /-- Registers that an SSLOT refresh in an open commit group has still to write: the register, and the number of the refresh among
  those of its group (R89, R439). -/
  awaits : List (Nat × Nat)
  deriving DecidableEq, Repr, Inhabited

/-- An access of an element load: its address, its bytes when they have arrived, its retry entry or
its fault (R47 to R50). -/
structure Access where
  va : Nat
  size : Nat
  data : Option (List Byte)
  retry : Option Nat
  fault : Option (BitVec 8)
  /-- The index that RTYW supplied for the index read of a shadow window (R179, R415). -/
  ix : Option Nat
  deriving DecidableEq, Repr, Inhabited

/-- What the bytes of a window become at its close (R129, R381, R465, R467). -/
inductive LoadForm where
  | scalar (ty : BitVec 4)
  | line
  | indexed (w : Nat)
  deriving DecidableEq, Repr, Inhabited

/-- An open load window (R47). -/
structure Window where
  iter : Nat
  pos : Nat
  close : Nat
  dst : Reg
  form : LoadForm
  port : BitVec 6
  hint : BitVec 3
  accs : List Access
  /-- The held bytes that the load sees: address and byte (R41). -/
  held : List (Nat × Byte)
  /-- Region cycle of the word's retirement (R129, R285). -/
  ret : Nat
  /-- Format tag of the word (Table 17-4). -/
  ty : BitVec 4
  /-- ASROOT as it stood when the load was issued (R275). -/
  root : BitVec 64
  /-- The window has closed in this region cycle, at whose end its destination is written (R129). -/
  closed : Bool
  deriving DecidableEq, Repr, Inhabited

/-- A store of an invocation before its release (R40), or a REDSEQ contribution with its AOP, tag,
index and operand. -/
structure HeldStore where
  /-- Place among the stores of the invocation, in the order they were held (R54). -/
  seq : Nat
  iter : Nat
  pos : Nat
  row : Nat
  col : Nat
  off : Nat
  data : List Byte
  /-- Format tag of the access (Table 17-4). -/
  ty : BitVec 4
  hint : BitVec 3
  red : Option (BitVec 5 × BitVec 4 × BitVec 32)
  /-- Its translation, once it is found (R281). -/
  xlat : Option Xlat
  /-- The retry entry on which its translation waits (R281). -/
  retry : Option Nat
  /-- ASROOT as it stood when it retired (R275). -/
  root : BitVec 64
  /-- The shadow window of its invocation that redirects it (R178, R434). -/
  win : Option Shadow
  /-- The index that RTYW supplied for the index read of its window (R179, R415). -/
  ix : Option Nat
  deriving DecidableEq, Repr, Inhabited

/-- A line of the hold buffer: its virtual line number and its stores, oldest first (R40). -/
structure HoldEntry where
  vline : Nat
  stores : List HeldStore
  deriving DecidableEq, Repr, Inhabited

/-- An effect that an element's word has at its retirement (R87, R88). -/
inductive Fx where
  | scalar (d : Reg) (v : BitVec 32)
  | vector (d : Reg) (v : Line)
  | sum (d : Reg) (v : Wide)
  /-- A write to lane `n` of a sum register (R124). -/
  | sumLane (d : Reg) (n : Nat) (v : BitVec 64)
  | flags (f : BitVec 7)
  | weight (q : Nat) (v : Line)
  | scale (v : BitVec 128)
  | metaFile (v : Line)
  | mode (f : BitVec 1) (ty : BitVec 4)
  /-- MMA or MMASP in one element column: the accumulator row, the first cell, whether the cells are
  replaced, the mode type, the rounding mode, and the exact product sum of each cell with its flags (R152). -/
  | mma (row col : Nat) (fresh : Bool) (mt : BitVec 4) (rm : BitVec 3) (dots : List (FVal × BitVec 7))
  | accZero (row : Nat)
  | accCells (row col : Nat) (cells : List (BitVec 32))
  | perm (g : Nat) (p : BitVec 384)
  /-- A store for the hold buffer, at the number of its virtual line (R40, R180). -/
  | hold (vline : Nat) (st : HeldStore)
  /-- Bytes for a memory node (R42). -/
  | node (j off : Nat) (data : List Byte)
  /-- A BUFPUT beat of the executing column into a buffer of its own region, at the place that the word saw (R353). -/
  | bufPut (buf off place : Nat) (data : List Byte) (last : Bool) (wm : BitVec 16)
  /-- A BUFGET of the executing column from a place, and whether it completes its tile (R353). -/
  | bufGet (buf place : Nat) (last : Bool)
  | amo (addr : Nat) (aop : BitVec 5) (ty : BitVec 4) (b c : BitVec 32)
  | level (ch : Nat) (v : Bool)
  | send (ch : Nat) (v : BitVec 32)
  | beat (ch : Nat) (v : Line)
  | frame
  /-- The retirement in column 15 of a word with a restart mark (R53). -/
  | mark
  deriving DecidableEq, Repr, Inhabited

/-- A word executed and not yet retired (R88). -/
structure Pending where
  /-- Region cycle in which it executed, and in which it retires. -/
  start : Nat
  ret : Nat
  iter : Nat
  pos : Nat
  fx : List Fx
  deriving DecidableEq, Repr, Inhabited

/-- A processing element. -/
structure Element where
  /-- e1 to e31 (R74); entry 0 is never read. -/
  e : Vector (BitVec 32) 32
  v : Vector Line 16
  y : Vector Wide 4
  fflags : BitVec 7
  /-- Weight, scale and metadata files (R141). -/
  weight : BitVec 2048
  scale : BitVec 128
  metaFile : Line
  pend : List Pending
  /-- Retirement cycle of the word executed last (R88). -/
  lastRet : Nat
  wins : List Window
  deriving DecidableEq, Repr, Inhabited

/-- A running, frozen, faulted or starting invocation (R34 to R37, R53 to R55). -/
structure Invocation where
  first : Nat
  count : Nat
  ext : BitVec 64
  /-- Region cycle in which the first word is handed to column 0; none until the cue (R46). -/
  c0 : Option Nat
  vc : BitVec 32
  tq : BitVec 8
  seed : BitVec 64
  shadow : List Shadow
  /-- Re-entry position, plus 1, of each iteration that has passed a mark (R53). -/
  marks : Table Nat
  /-- Positions below which a resumed iteration's words have no effect (R55). -/
  resume : Table Nat
  deriving DecidableEq, Repr, Inhabited

/-- A fault found in the current region cycle (R51). -/
structure FaultRec where
  iter : Nat
  row : Nat
  col : Nat
  pos : Nat
  code : BitVec 8
  cause : Nat
  deriving DecidableEq, Repr, Inhabited

/-- A memory-node buffer (R57, R155, R353). -/
structure Buffer where
  node : Nat
  base : Nat
  depth : Nat
  bytes : Nat
  sport : Option Nat
  /-- Places that are full, each with its tile's watermark. -/
  full : Table (Option (BitVec 16))
  /-- Each column's put and get index. -/
  putIx : Vector Nat 16
  getIx : Vector Nat 16
  expect : BitVec 16
  /-- Column 0 has read the tile at its get index for the first time (R57). -/
  opened : Bool
  /-- The stream and the subscriber that have delivered the tile of a place (R158). -/
  fed : Table (Option (Nat × Nat))
  deriving DecidableEq, Repr, Inhabited

/-- A remote BUFPUT beat on the vector network (R354): cycles left, the word that sent it, the buffer of region `g` and the
offset in its place, and the beat. -/
structure RemoteBeat where
  left : Nat
  iter : Nat
  pos : Nat
  row : Nat
  col : Nat
  g : Nat
  buf : Nat
  off : Nat
  data : List Byte
  last : Bool
  wm : BitVec 16
  deriving DecidableEq, Repr, Inhabited

/-- What an element of a copy holds: the bits of an element, or the elements, scale and side record of an MX block. -/
inductive Piece where
  | plain (v : Nat)
  | block (m : Nat × Nat × Nat)
  deriving DecidableEq, Repr, Inhabited

/-- A command of a stream port (R250, R420, R422). -/
structure Command where
  src : Line
  dst : Line
  scopy : Bool
  /-- The stamp address as it was translated at enqueue (R254). -/
  stamp : Option Xlat
  /-- Address space of the core that enqueued it, and whether that is the manager (R417). -/
  asroot : BitVec 64
  mgr : Bool
  /-- Enqueued while the graph's commit group was open (R319), and that group has aborted and ended (R476). -/
  grouped : Bool
  void : Bool
  /-- The producer has started (R420). -/
  started : Bool
  /-- Values completed: elements, or 32 to each MX block. -/
  done : Nat
  /-- Elements read for a block that is not yet whole, and elements of a block that are not yet written (R421). -/
  gather : List Piece
  spill : List Piece
  retry : Option Nat
  supplied : List (Nat × List Byte)
  /-- Cycles in which the next group has taken its node ports (R16). -/
  cycles : Nat
  deriving DecidableEq, Repr, Inhabited

/-- A stream port (R417, R426). -/
structure Port where
  queue : List Command
  bound : Option (Line × Line)
  seq : BitVec 64
  /-- Stream and subscriber index. -/
  sub : Option (Nat × Nat)
  bytes : Nat
  code : BitVec 8
  cancelled : Bool
  deriving DecidableEq, Repr, Inhabited

/-- A subscriber of an operand stream (R157 to R159). -/
structure Subscriber where
  g : Nat
  port : Nat
  window : Nat
  sent : Nat
  acked : Nat
  live : Bool
  deriving DecidableEq, Repr, Inhabited

/-- An operand stream of a die (R157). -/
structure Stream where
  /-- Region and port of the queued or running producer. -/
  producer : Option (Nat × Nat)
  subs : List Subscriber
  started : Bool
  /-- Beats read from memory and held in the replay store, by beat number (R158). -/
  replay : Table (Option Line)
  read : Nat
  total : Nat
  deriving DecidableEq, Repr, Inhabited

/-- An element AMO that has retired and waits for its page, or behind an earlier AMO to its cell: its retry entry,
iteration, position and place, its address and operation, and ASROOT as it stood when it retired (R275, R285, R344). -/
structure AmoWait where
  retry : Option Nat
  iter : Nat
  pos : Nat
  row : Nat
  col : Nat
  addr : Nat
  aop : BitVec 5
  ty : BitVec 4
  b : BitVec 32
  c : BitVec 32
  root : BitVec 64
  /-- The shadow window of its invocation that redirects it (R178, R434). -/
  win : Option Shadow
  ix : Option Nat
  /-- Region cycle of its retirement (R285). -/
  ret : Nat
  deriving DecidableEq, Repr, Inhabited

/-- An RMWS in its three cycles: its node, its last cycle, the word it writes there and at which offset, and who executed it
(R243, R244). -/
structure RmwOp where
  node : Nat
  last : Nat
  off : Nat
  data : List Byte
  iter : Nat
  pos : Nat
  row : Nat
  col : Nat
  deriving DecidableEq, Repr, Inhabited

/-- The turns of the stagehand core and the copy engines at one port of a node (R16): in this region cycle taken by one of
them, the one served last, and the arithmetic cycle in which each was last kept waiting. -/
structure PortTurn where
  taken : Bool
  engineLast : Bool
  coreWaits : Option Nat
  engineWaits : Option Nat
  deriving DecidableEq, Repr, Inhabited

/-- A region of the static fabric. -/
structure Region where
  /-- Initiation interval; 0 while no kernel is installed (R33). -/
  ii : Nat
  /-- Ring word and stage of row `r`, slot `s`, at 32·r + s (R33). -/
  ring : Table Word
  stage : Table (BitVec 3)
  /-- Frame participation (R61). -/
  framed : Bool
  /-- Lowest region of the freeze group (R52). -/
  group : Nat
  vc : BitVec 32
  tq : BitVec 8
  iext : BitVec 64
  frzlim : BitVec 64
  /-- ISTAT.STATE and DONE (R45). -/
  state : BitVec 3
  done : BitVec 32
  ifvec : BitVec 64
  ifinfo : BitVec 64
  /-- FRMCNT.FRAMES, and the region cycle of the last cue (R59). -/
  frames : BitVec 32
  cueRc : Nat
  inv : Option Invocation
  /-- Region cycle, and the element whose turn it is in it (DESIGN CHOICE, log 1). -/
  rc : Nat
  cursor : Nat
  /-- The slot counter, held after a frame completes until the cue (R60). -/
  slot : Nat
  framePending : Bool
  cueReq : Bool
  /-- Arithmetic cycle in which the freeze began, and that in which the delay of the end by retry entries began (R49, R50). -/
  freezeStart : Option Nat
  endStart : Option Nat
  freezeWanted : Bool
  faults : List FaultRec
  hold : List HoldEntry
  /-- Stores held so far. -/
  holdSeq : Nat
  elems : Vector Element 128
  /-- Permutation of row `r`, group `g`, at 256·r + g; the identity where none is listed (R115). -/
  perm : Table (BitVec 384)
  mm : BitVec 1
  mt : BitVec 4
  /-- Accumulator cell `c` of row `r` at 256·r + c (R143). -/
  acc : Table (BitVec 32)
  /-- Byte `b` of node `j` at 2^19·j + b (R16). -/
  nodes : Table Byte
  bufs : List Buffer
  beats : List RemoteBeat
  /-- Position of each reserved RMW slot (R243). -/
  rmw : Table (Option Nat)
  /-- The RMWS words in their three cycles (R243, R244). -/
  rmwBusy : List RmwOp
  /-- Node ports taken in this cycle: node, write port, and the element that took it (R339). -/
  portUse : List (Nat × Bool × Nat)
  /-- The turns at each node port, at 2·node, plus 1 for the write port (R16). -/
  portTurn : Table (Option PortTurn)
  /-- Values that travel east with a word: 8·(hand-out cycle) + row (R151, R409, R469). -/
  travel : Table (List Wide)
  shadow : List Shadow
  ports : Vector Port 64
  /-- Element AMOs whose access waits on the retry ring (R344). -/
  amoWait : List AmoWait
  /-- 4 KiB node granules written since LOADCFG (R316). -/
  touched : List Nat
  fenced : Bool
  /-- The graph that owns the region (R65). -/
  owner : Option Nat
  deriving DecidableEq, Repr, Inhabited

/-- A token of the fabric: its tag, whether it is a vector beat, and its bits (R163). -/
structure Token where
  tag : BitVec 4
  vec : Bool
  data : Line
  deriving DecidableEq, Repr, Inhabited

/-- A candidate of the top-K chain (Table 13-3). -/
structure Cand where
  id : BitVec 24
  l : BitVec 32
  deriving DecidableEq, Repr, Inhabited

/-- The phase of a CASCELL or GRAMMAR unit (R225, R237). -/
inductive Phase where
  | header | collect | drain | step | mask
  deriving DecidableEq, Repr, Inhabited

/-- A row of a GATHER unit in flight: its die, address and size, the bytes read so far, and its retry entry
(R176, R177). -/
structure GatherRow where
  die : Nat
  addr : Nat
  size : Nat
  data : List Byte
  retry : Option Nat
  /-- The index beat whose last index this row is, and the fault of its read (R167). -/
  beat : Option Token
  fault : Option (BitVec 8)
  /-- The address space of the read, as it stood when the row was put in flight (R275). -/
  root : BitVec 64
  deriving DecidableEq, Repr, Inhabited

/-- An operator unit (R161 to R166). -/
structure OpUnit where
  /-- Parameter registers 0 to 63; 68 to 71 hold registers 4 to 7 as a query read them at its pin (R218). -/
  params : Table (BitVec 64)
  inq : Vector (List Token) 4
  /-- Emissions that wait for space: output port and token (R165). -/
  out : List (Nat × Token)
  firings : BitVec 32
  err : BitVec 8
  halted : Bool
  rrp : Nat
  phase : Phase
  cells : List Cand
  /-- Logits of the step taken so far (CASCELL, GRAMMAR), drafts accepted in it (ACCEPT), or 1 while a finished query of a
  DESCEND unit still holds its pin. -/
  count : Nat
  mx : BitVec 32
  sum : BitVec 32
  fid : BitVec 24
  forced : Bool
  rej : Bool
  /-- GATHER: the header of the tile being taken, its next index, and its rows in flight (R175, R177). -/
  tile : Option (Line × Nat)
  rows : List GatherRow
  /-- The graph whose resident load names the unit (R172). -/
  owner : Option Nat
  /-- Root pinned by the query being served (R205, R211). -/
  pin : Option Nat
  /-- Retry entry a read of the unit waits on. -/
  retry : Option Nat
  supplied : List (Nat × List Byte)
  /-- Address space of the issue of a firing whose read took PAGE and is to be made again (R275, R281). -/
  issued : Option (BitVec 64)
  /-- The unit served an instruction last, not a firing (R210, R238). -/
  served : Bool
  deriving DecidableEq, Repr, Inhabited

/-- A converter (R168). -/
structure Conv where
  cfg : BitVec 17
  latch : List Token
  deriving DecidableEq, Repr, Inhabited

/-- The executor at one end of a channel (R388). -/
structure Party where
  g : Nat
  sh : Bool
  row : Nat
  deriving DecidableEq, Repr, Inhabited

/-- A channel record of a load with its state (R358, R408, R469). -/
structure Chan where
  ch : Nat
  prod : Party
  cons : Party
  hops : Nat
  queue : List Line
  /-- Values under way: cycles left, the value, and the iteration and position of the word. -/
  flight : List (Nat × Line × Nat × Nat)
  /-- Levels of a control line since the token, newest first: consumer's region cycle and level. -/
  levels : List (Nat × Bool)
  deriving DecidableEq, Repr, Inhabited

/-- The load that is resident for a graph (R63). -/
structure Resident where
  img : LoadImage
  recs : List LoadRec
  /-- Region of the stagehand that executed LOADCFG (R167). -/
  loader : Nat
  deriving DecidableEq, Repr, Inhabited

/-- A line that a commit group has captured: its codec code, key index and deduplication bit, the hint of its last write, whose
codec counters its release counts to, and who has written to it (R245, R270, R287, R319). -/
structure Capture where
  codec : Nat
  key : Nat
  dedup : Bool
  hint : Nat
  counter : Nat
  writers : List Nat
  /-- Address spaces under which its writes were translated (R282). -/
  asids : List Nat
  deriving DecidableEq, Repr, Inhabited

/-- An SSLOT refresh that a commit group has captured: its slot, its core and its D (R439). -/
structure Refresh where
  slot : Nat
  core : Nat
  dst : Reg
  deriving DecidableEq, Repr, Inhabited

/-- A commit group (R319, R320). -/
structure Group where
  /-- TXSTAT.STATE, WHY and ARG. -/
  state : BitVec 2
  why : BitVec 3
  arg : BitVec 32
  /-- Region of the stagehand that executed XBEGIN. -/
  opener : Nat
  /-- Captured bytes by physical address, and how each line was captured. -/
  bytes : Table (Option Byte)
  attrs : Table (Option Capture)
  /-- ALLOC of each TREEUPD unit at the group's first edit (R320). -/
  alloc : List (Nat × BitVec 64)
  /-- Roots pinned at the group's first edit of their sequences, and roots its edits have given: unit and root
  (R212). -/
  pins : List (Nat × Nat)
  made : List (Nat × Nat)
  /-- Header lines of tree records captured, with the RC that stood at home at the first capture (R232). -/
  refBase : List (Nat × Nat)
  /-- Nodes whose records the group holds: unit and index (R232). -/
  nodes : List (Nat × Nat)
  /-- Refreshes whose status the release decides (R439). -/
  refreshes : List Refresh
  deriving DecidableEq, Repr, Inhabited

/-- A graph that owns regions (R65). -/
structure Graph where
  gid : Nat
  mask : BitVec 32
  queue : Nat
  job : BitVec 16
  asroot : BitVec 64
  load : Option Resident
  /-- Units that the graph's previous load named (R162). -/
  oldUnits : List Nat
  chans : List Chan
  group : Group
  /-- UCFG (R307, R315). -/
  cfg : BitVec 3
  pending : Option Nat
  /-- Arithmetic cycle in which SHRINK recorded the pending switch (R314). -/
  pendingSince : Nat
  shrunk : Bool
  /-- Watchdog: steps taken, cycles elapsed toward the next, suspended (R305, R306). -/
  wdStep : Nat
  wdCycles : Nat
  wdOff : Bool
  killed : Bool
  /-- Regions the graph started with. -/
  full : BitVec 32
  /-- Arithmetic cycle in which the last marked region raised its cue request (R61). -/
  cueAt : Option Nat
  deriving DecidableEq, Repr, Inhabited

/-- An entry of a launch queue: the descriptor, and the cycle of enqueue (R301). -/
structure Launch where
  desc : Line
  since : Nat
  ready : Option Nat
  deriving DecidableEq, Repr, Inhabited

/-- A launch queue (R299). -/
structure Queue where
  cfg : BitVec 64
  done : BitVec 32
  drops : Nat
  entries : List Launch
  stamp : BitVec 64
  wd : BitVec 64
  deriving DecidableEq, Repr, Inhabited

/-- A cached translation: ASID, level of the leaf, page number at the leaf's size, page size, and the
walked entry (R279). -/
structure Tlb where
  asid : Nat
  size : Nat
  page : Nat
  pte : BitVec 64
  deriving DecidableEq, Repr, Inhabited

/-- A cached table entry of the walk: ASID, level, the address bits above the level's index, and the
table entry (R279). -/
structure WalkEntry where
  asid : Nat
  level : Nat
  tag : Nat
  pte : BitVec 64
  deriving DecidableEq, Repr, Inhabited

/-- A contribution at a home (R291): line, cell offset, operation, tag, index, value, and who sent it from which
die. -/
structure Contribution where
  line : Nat
  off : Nat
  aop : BitVec 5
  ty : BitVec 4
  k : BitVec 32
  v : BitVec 32
  die : Nat
  src : Who
  key : Nat
  dedup : Bool
  /-- In the reorder store; otherwise it waits for a place or travels to the home. -/
  stored : Bool
  arrived : Bool
  /-- Address space under which it was translated (R282). -/
  asid : Nat
  deriving DecidableEq, Repr, Inhabited

/-- A prefetch in progress (R249). -/
structure Prefetch where
  line : Nat
  count : Nat
  next : Nat
  root : BitVec 64
  manager : Bool
  obj : Xlat
  /-- The graph of the core that executed the PREF (R295). -/
  gid : Option Nat
  deriving DecidableEq, Repr, Inhabited

/-- A context save in progress (R316). -/
structure Save where
  gid : Nat
  area : Nat
  units : Nat
  root : BitVec 64
  deriving DecidableEq, Repr, Inhabited

/-- A codec counter set (Table 15-4). -/
structure Codec where
  cblk : BitVec 64
  clossy : BitVec 64
  cmaxe : BitVec 16
  cnonf : BitVec 64
  deriving DecidableEq, Repr, Inhabited

/-- A line of a home wing tile's L2 (R245, R246, R266). -/
structure L2Line where
  data : Line
  code : Line
  codec : Nat
  key : Nat
  dedup : Bool
  dirty : Bool
  keep : Bool
  used : Nat
  deriving DecidableEq, Repr, Inhabited

/-- The state of a graph and its regions as a save image holds it, by the number in word 5 of its header (R316, DESIGN CHOICE, log 15). -/
structure SaveImage where
  id : Nat
  step : BitVec 8
  graph : Graph
  regions : List (Nat × Region)
  cores : List (Nat × Core)
  units : List (Nat × OpUnit)
  convs : List (Nat × Conv)
  streams : List (Nat × Stream)
  deriving DecidableEq, Repr, Inhabited

/-- A compute die. -/
structure Die where
  /-- IDENT.STEP (R30). -/
  stepping : BitVec 8
  /-- Stagehands 0 to 31 and the manager, 32 (R22). -/
  cores : Vector Core 33
  regions : Vector Region 32
  units : Vector OpUnit 768
  convs : Vector Conv 64
  graphs : List Graph
  queues : Vector Queue 64
  lqage : BitVec 64
  rtybase : BitVec 64
  retry : List Retry
  xattr : BitVec 64
  tlb : List Tlb
  /-- Micro-TLBs: memory interfaces 0 to 31, cores 32 to 64, GATHER groups 65 to 72 (R279). -/
  utlb : Table (List Tlb)
  walk : List WalkEntry
  sctbase : BitVec 64
  sctctl : BitVec 64
  /-- Granules allocated: slot, first granule and count (R257, R439). -/
  granules : List (Nat × Nat × Nat)
  /-- Bound slots past their deadline and evicting slots, with the cycles since (R258). -/
  evicting : List (Nat × Nat)
  /-- Codec sets of regions 0 to 31, the manager, 32, and the external set, 33 (R270). -/
  codec : Vector Codec 34
  streams : Vector Stream 256
  reds : List Contribution
  prefs : List Prefetch
  /-- The PHC in units of 1/16,000 of a nanosecond, and its slew per cycle (R329). -/
  phc : Nat
  slew : Int
  /-- The 1 ms power average is above 560 W (R333). -/
  hot : Bool
  save : Option Save
  /-- Events whose sources wait for a place among the manager's 64, oldest first (R311). -/
  mgrWait : List Event
  /-- Events handed to firmware (R311). -/
  fwEvents : List Event
  deriving DecidableEq, Repr, Inhabited

/-- A PTP timestamp: the port, the reading of its I/O die's clock, whether the message leaves, and whether it is a two-step one
(R329). -/
structure Stamp where
  port : Nat
  phc : Nat
  egress : Bool
  twoStep : Bool
  deriving DecidableEq, Repr, Inhabited

/-- A frame to a peer: its sequence number, the die and the parties that wrote it (R287, R304), the address spaces under which its
address was translated (R282), the address there, the slot reference that stands for its block, and its bytes (R326, R327). -/
structure Frame where
  seq : Nat
  die : Nat
  parties : List Nat
  asids : List Nat
  addr : Nat
  ref : Option Nat
  data : List Byte
  deriving DecidableEq, Repr, Inhabited

/-- An Ethernet port and its peer: the next sequence number to send, the frames that the peer has not acknowledged, the sender's cache
and its blocks sent in full; the next sequence number expected, the receiver's ring and the blocks it has written, and how many of the
peer's next frames are retransmissions (R326, R327). -/
structure EthPort where
  outSeq : Nat
  unacked : List Frame
  cache : Table (Option Line)
  sent : Nat
  inSeq : Nat
  ring : Table (Option Line)
  got : Nat
  again : Nat
  deriving DecidableEq, Repr, Inhabited

/-- The I/O dies (R28, R326 to R334). -/
structure Io where
  /-- FSTAT (R332, R334). -/
  ready : Bool
  dumped : Bool
  fatal : Bool
  cause : BitVec 2
  /-- The key store: the keys of indices 1 to 255, and at 0 the 256th, which protects the dump area (R330). -/
  keys : Vector (BitVec 512) 256
  /-- M0 to M7 (R331). -/
  meas : List (BitVec 256)
  nonce : Option (BitVec 256)
  report : List Byte
  booted : Bool
  /-- MSI-X vectors sent: link and vector (R334). -/
  msi : List (Nat × Nat)
  /-- The last report request met another in progress (R331). -/
  busy : Bool
  /-- PTP timestamps, in their order (R329). -/
  stamps : List Stamp
  /-- The clock master on I/O die 24 and its replicas on dies 25 to 27, and their slew, as a die's (R329). -/
  phcs : Vector Nat 4
  slew : Int
  /-- Values returned to hosts and peers (R294, R326). -/
  reads : List (Nat × List Byte)
  /-- The Ethernet ports (R326, R327). -/
  eth : Table EthPort
  deriving DecidableEq, Repr, Inhabited

/-- The virtual channels of a link (R13). -/
inductive VirtualChannel where
  | request | response | reduction | control
  deriving DecidableEq, Repr, Inhabited

/-- The number of a channel. -/
def VirtualChannel.num : VirtualChannel → Nat
  | .request => 0
  | .response => 1
  | .reduction => 2
  | .control => 3

/-- A Brunex packet: the dies between which it goes, its channel, the slot reference that stands for its block, and what it carries
(R13, R181). -/
structure Packet where
  src : Nat
  dest : Nat
  chan : VirtualChannel
  ref : Option Nat
  data : List Byte
  deriving DecidableEq, Repr, Inhabited

/-- A Brunex link direction: the sender's cache by ring slot and the blocks it has sent in full, the receiver's mirror
ring and the blocks it has written, the packets on the wire in their order, the packets that have crossed, by channel, and the packet
delivered last (R13, R181). -/
structure Link where
  cache : Table (Option Line)
  sent : Nat
  ring : Table (Option Line)
  got : Nat
  wire : List Packet
  queues : Vector (List Packet) 4
  delivered : Option Packet
  deriving DecidableEq, Repr, Inhabited

/-- A write-back dedup copy of a wing tile: its bytes in the clear, and the line in whose slot it lies (R247). -/
structure DedupCopy where
  id : Nat
  tile : Nat
  key : Nat
  data : List Byte
  line : Nat
  refs : Nat
  deriving DecidableEq, Repr, Inhabited

/-- The module. -/
structure State where
  dies : Vector Die 24
  /-- The die in focus. -/
  cur : Fin 24
  /-- Memory and system space by 52-bit physical address (R240, R324). -/
  mem : List Host.Cell
  /-- L2 lines by physical line number; a line's home tile is fixed by its address (R241, R245). -/
  l2 : Table (Option L2Line)
  /-- Count of L2 uses, for recency (R245). -/
  useCtr : Nat
  dedup : List DedupCopy
  /-- Indirection of deduplicated lines: line to the copy's number (R247). -/
  dedupMap : Table (Option Nat)
  images : List SaveImage
  /-- The dump of the fatal state: every die, die 0 first, or nothing (R312, R334). -/
  dump : List Die
  clock : Nat
  gid : Nat
  io : Io
  /-- Brunex link directions: from compute die and edge, 0 E, 1 W, 2 N, 3 S, at 4·die + edge, and from the I/O dies, three each, at 96
  and up (R8, R9, R12). -/
  links : Table Link
  agenda : List Turn
  focus : Turn
  who : Who
  /-- Counter of free values (DESIGN CHOICE, log 12). -/
  free : Nat
  deriving DecidableEq, Repr, Inhabited

/-- The canonical form of memory: addresses strictly rising, and no entry equal to what an unlisted address reads as, 0
(DESIGN CHOICE, log 3). -/
def Memory.wf (m : List Host.Cell) : Bool := Table.wf (0 : Byte) m

/-- Why a step stops for good. -/
inductive Fault where
  /-- Raised by a core's turn in the fatal state, in which every die stops (R312). Safe: the spec gives
  no further step before the host re-issues its work. -/
  | fatalState
  deriving DecidableEq, Repr

/-- Why a step is refused. -/
inductive Refusal where
  /-- Raised by an arm of `exec` whose instruction has no meaning yet. Safe: nothing is claimed of it. -/
  | notModelled (mnemonic : String)
  deriving DecidableEq, Repr

/-- A core after reset (DESIGN CHOICE, log 2). -/
def Core.reset : Core :=
  { x := Vector.replicate 32 0, pc := 0, run := .idle, frozen := false, df := false, freezeReq := false,
    wait := .none, supplied := [], issued := none, tvec := 0, tcause := 0, tepc := 0, tval := 0, inh := false, ien := false, switched := false,
    events := [], fflags := 0, rsbase := 0, sctr := 0, asroot := 0, ufinfo := 0, mon := none, l1i := [], wrote := [], loading := false, awaits := [] }

/-- An element after reset, and after LOADCFG (R78, R141, DESIGN CHOICE, log 2). -/
def Element.reset : Element :=
  { e := Vector.replicate 32 0, v := Vector.replicate 16 0, y := Vector.replicate 4 0, fflags := 0,
    weight := 0, scale := 0, metaFile := 0, pend := [], lastRet := 0, wins := [] }

/-- A stream port after reset. -/
def Port.reset : Port :=
  { queue := [], bound := none, seq := 0, sub := none, bytes := 0, code := 0, cancelled := false }

/-- An unbound shadow window. -/
def Shadow.none : Shadow := { bound := false, base := 0, tile := 0, head := 0 }

/-- A region after reset: IEXT and FRZLIM as R45 gives, the rest as the model names it (DESIGN CHOICE, log 2). -/
def Region.reset : Region :=
  { ii := 0, ring := [], stage := [], framed := false, group := 0, vc := 0xFFFFFFFF, tq := 0xFF,
    iext := 0x0001000100010001, frzlim := 0x00100000, state := 0, done := 0, ifvec := 0, ifinfo := 0,
    frames := 0, cueRc := 0, inv := none, rc := 0, cursor := 0, slot := 0, framePending := false, cueReq := false,
    freezeStart := none, endStart := none, freezeWanted := false, faults := [], hold := [], holdSeq := 0,
    elems := Vector.replicate 128 Element.reset, perm := [], mm := 0, mt := 0, acc := [], nodes := [],
    bufs := [], beats := [], rmw := [], rmwBusy := [], portUse := [], portTurn := [], travel := [],
    shadow := List.replicate 8 Shadow.none, ports := Vector.replicate 64 Port.reset, amoWait := [],
    touched := [], fenced := false, owner := none }

/-- An operator unit after reset (DESIGN CHOICE, log 2). -/
def OpUnit.reset : OpUnit :=
  { params := [], inq := Vector.replicate 4 [], out := [], firings := 0, err := 0, halted := false,
    rrp := 0, phase := .header, cells := [], count := 0, mx := 0, sum := 0, fid := 0, forced := false,
    rej := false, tile := none, rows := [], owner := none, pin := none,
    retry := none, supplied := [], issued := none, served := false }

/-- No commit group (R319). -/
def Group.none : Group :=
  { state := 0, why := 0, arg := 0, opener := 0, bytes := [], attrs := [], alloc := [], pins := [], made := [], refBase := [], nodes := [], refreshes := [] }

/-- An idle operand stream (R157). -/
def Stream.idle : Stream :=
  { producer := none, subs := [], started := false, replay := [], read := 0, total := 0 }

/-- A launch queue after reset: disabled and empty, its counters 0 (R299). -/
def Queue.reset : Queue :=
  { cfg := 0, done := 0, drops := 0, entries := [], stamp := 0, wd := 0 }

/-- A codec counter set after reset (R271). -/
def Codec.reset : Codec := { cblk := 0, clossy := 0, cmaxe := 0x8000, cnonf := 0 }

/-- A compute die after reset: its stagehands idle, its manager running (DESIGN CHOICE, log 4),
with stepping 0x01 (DESIGN CHOICE, log 5). -/
def Die.reset : Die :=
  { stepping := 0x01, cores := (Vector.replicate 33 Core.reset).set 32 { Core.reset with run := .running },
    regions := Vector.replicate 32 Region.reset, units := Vector.replicate 768 OpUnit.reset,
    convs := Vector.replicate 64 { cfg := 0, latch := [] }, graphs := [],
    queues := Vector.replicate 64 Queue.reset, lqage := 0, rtybase := 0, retry := [],
    xattr := 0, tlb := [], utlb := [], walk := [], sctbase := 0, sctctl := 0, granules := [], evicting := [],
    codec := Vector.replicate 34 Codec.reset, streams := Vector.replicate 256 Stream.idle, reds := [],
    prefs := [], phc := 0, slew := 0, hot := false, save := none, mgrWait := [], fwEvents := [] }

/-- The I/O dies after reset: FSTAT reads 0 (R332, R334). -/
def Io.reset : Io :=
  { ready := false, dumped := false, fatal := false, cause := 0, keys := Vector.replicate 256 0, meas := List.replicate 8 0, nonce := none,
    report := [], booted := false, msi := [], busy := false, stamps := [], phcs := Vector.replicate 4 0, slew := 0, reads := [],
    eth := [] }

/-- A link with empty caches and nothing in flight. -/
def Link.idle : Link :=
  { cache := [], sent := 0, ring := [], got := 0, wire := [], queues := Vector.replicate 4 [], delivered := none }

/-- A port that has sent and received nothing. -/
def EthPort.idle : EthPort := { outSeq := 0, unacked := [], cache := [], sent := 0, inSeq := 0, ring := [], got := 0, again := 0 }

/-- The module right after reset. -/
def State.reset : State :=
  { dies := Vector.replicate 24 Die.reset, cur := 0, mem := [], l2 := [], useCtr := 0,
    dedup := [], dedupMap := [], images := [], dump := [], clock := 0, gid := 0, io := Io.reset, links := [],
    agenda := [], focus := .core 32, who := .mgr, free := 0 }

end Sys2Proof.Machine
end

