-- ==== Sys2Proof/Machine/Convert.lean ====
section
/-! DEFINITION. Conversion at input ports and in copies (Table 4-5, R100 to R107, R163, R164): which conversions exist, the
values of a token, and beats put together from values. A token of several lanes is a sequence of values in lane order,
and an MX pair the values of its blocks in order; a converted sequence fills as many beats as it needs (DESIGN CHOICE, log 17). -/

namespace Sys2Proof.Machine

/-- A value of tag `t` converts to tag `o` (Table 4-5, R106). -/
def convertible (t o : BitVec 4) : Bool :=
  if t == o || t == 15 then true
  else if o == 15 then !(mxTag t || t == 13)
  else if t == 13 || o == 13 then false
  else if t == 14 then isInt o
  else if o == 14 then isInt t
  else true

/-- One value, a pattern of `w` bits, converted RNE (R107); IDX zero-extends or truncates, and RAW passes bits (R106). -/
def convertValue (t o : BitVec 4) (w v : Nat) : Nat :=
  if t == 15 || o == 15 || t == 14 || o == 14 then bits v 0 (if o == 15 || o == 14 then w else laneBits o)
  else (convertTag t o 0 0 v).1

/-- Lane `n` of a line, of width `w`, and the lanes of a line (R77). -/
def beatLane (l : Line) (w n : Nat) : Nat := bits l.toNat (w * n) w
def beatLanes (l : Line) (w : Nat) : List Nat := (List.range (512 / w)).map (beatLane l w)

/-- Blocks of an MX pair (R101). -/
def mxBlocks (t : BitVec 4) : Nat := if t == 7 then 4 else 2
/-- The values of an MX pair, its blocks in order (R99, R101). -/
def pairVals (t : BitVec 4) (elems side : Line) : List FVal :=
  (List.range (mxBlocks t)).flatMap fun b =>
    let p := pairBlock t elems side b
    (List.range 32).map (mxValue t p.1 p.2.1 p.2.2)

/-- The values of a beat or scalar that is no part of an MX pair. -/
def tokenVals (t : Token) : List FVal :=
  if t.vec then (beatLanes t.data (laneBits t.tag)).map (valueOf t.tag)
  else [valueOf t.tag (bits t.data.toNat 0 (laneBits t.tag))]

/-- The patterns of a token in format `o` (R164); a RAW token is read as lanes of that format. An IDX or RAW scalar has 32 bits
(DESIGN CHOICE, log 80), and so has what an IDX or RAW port makes of a scalar. No rule gives the lane width of an IDX beat at a port
whose operation names none: one taken as an integer is read at that integer's width, and integer lanes keep their count under tag 14, each 8 bits wide there.
(DESIGN CHOICE, log 104) -/
def tokenPatterns (o : BitVec 4) (t : Token) : List Nat :=
  if t.vec then
    let w := if t.tag == 15 || t.tag == 14 then laneBits o else laneBits t.tag
    (beatLanes t.data w).map (convertValue t.tag o w)
  else
    let w := if t.tag == 15 || t.tag == 14 then 32 else laneBits t.tag
    [convertValue t.tag o w (bits t.data.toNat 0 w)]

/-- What the head of an input queue gives. -/
inductive Taken (α : Type) where
  | wait
  | illegal
  | got (v : α) (rest : List Token)
  deriving Repr

/-- The patterns of the token, or of the MX pair, at the head of a queue, in format `o`, no MX format (R101, R164). -/
def takeOne (o : BitVec 4) : List Token → Taken (List Nat)
  | [] => .wait
  | t :: l =>
    if !convertible t.tag o then .illegal
    else if mxTag t.tag && t.vec then
      match l with
      | [] => .wait
      | u :: l => .got ((pairVals t.tag t.data u.data).map fun v => (roundTag o 0 0 v).1) l
    else .got (tokenPatterns o t) l

/-- Tokens taken from a queue until they give `need` patterns in format `o`. -/
def takeMany (o : BitVec 4) (need : Nat) : Nat → List Nat → List Token → Taken (List Nat)
  | 0, vs, q => if need ≤ vs.length then .got vs q else .wait
  | n + 1, vs, q =>
    if need ≤ vs.length then .got vs q else
      match takeOne o q with
      | .wait => .wait
      | .illegal => .illegal
      | .got ws q => takeMany o need n (vs ++ ws) q

/-- `n` RAW beats taken; a beat of another tag passes its bits, where it converts to RAW (R106, R164). -/
def takeBeats (n : Nat) (q : List Token) : Taken (List Line) :=
  if (q.take n).any fun t => !t.vec || !convertible t.tag 15 then .illegal
  else if q.length < n then .wait
  else .got ((q.take n).map fun t => t.data) (q.drop n)

/-- The exact values that go into the blocks of an MX format: those of tokens taken until there are whole pairs of `need` values
(R101, R107, DESIGN CHOICE, log 17). -/
def takeExact (o : BitVec 4) (need : Nat) : Nat → List FVal → List Token → Taken (List FVal)
  | 0, _, _ => .wait
  | n + 1, vs, q =>
    if !vs.isEmpty && vs.length % need == 0 then .got vs q else
      match q with
      | [] => .wait
      | t :: l =>
        if !convertible t.tag o || t.tag == 15 then .illegal
        else if mxTag t.tag then
          (match l with
           | [] => .wait
           | u :: l => takeExact o need n (vs ++ pairVals t.tag t.data u.data) l)
        else takeExact o need n (vs ++ tokenVals t) l

/-- A list cut into pieces of `n`. -/
def chunks {α : Type} (n : Nat) : Nat → List α → List (List α)
  | 0, _ => []
  | k + 1, l => if l.isEmpty then [] else l.take n :: chunks n k (l.drop n)

/-- The number of a list of lanes, lowest first. -/
def packLanes (w : Nat) (l : List Nat) : Nat := l.foldr (fun v acc => v % 2 ^ w + 2 ^ w * acc) 0

/-- Values of width `w` as beats; what the last beat has no value for is `pad`. -/
def packBeats (w : Nat) (pad : Line) (vs : List Nat) : List Line :=
  (chunks (512 / w) vs.length vs).map fun l =>
    BitVec.ofNat 512 (packLanes w l + (bits pad.toNat (w * l.length) (512 - w * l.length)) * 2 ^ (w * l.length))

/-- An MX pair quantised from its values (R101 to R103): the element beat and the side beat. -/
def packPair (o : BitVec 4) (split : Option FVal) (rm : BitVec 3) (vs : List FVal) : Line × Line :=
  (chunks 32 4 vs).zipIdx.foldl (fun p b =>
    let m := match split with
      | some k => mxQuantSplit b.1 o k rm []
      | none => mxQuantStd b.1 o rm []
    setPairBlock o p.1 p.2 b.2 m) (0, 0)

/-- The pairs that exact values give under the standard rule, each as its two beats (R102). -/
def packPairs (o : BitVec 4) (vs : List FVal) : List Line :=
  (chunks (32 * mxBlocks o) vs.length vs).flatMap fun c => [(packPair o none 0 c).1, (packPair o none 0 c).2]

/-- The beats of one object at the head of a queue: an MX pair is one, and any other token (R100, R163). -/
def headUnit : List Token → Option (List Token × List Token)
  | [] => none
  | t :: l =>
    if t.vec && mxTag t.tag then
      (match l with
       | [] => none
       | u :: l => some ([t, u], l))
    else some ([t], l)

end Sys2Proof.Machine
end

