-- ==== Sys2Proof/Config.lean ====
section
/-! DEFINITION. What the spec leaves to the implementation or leaves open: values no proof can see. -/

namespace Sys2Proof.Config

/-- A value the spec leaves open, for each count of the state's counter of free values (DESIGN CHOICE, log 12). -/
opaque freeValue : Nat → BitVec 512

/-- Whether the signature of the firmware image at hand verifies against the fused digest of its key (R331), for each count of the
state's counter of free values (DESIGN CHOICE, log 12). -/
opaque firmwareVerifies : Nat → Bool

/-- The module serial (R331, DESIGN CHOICE, log 12). -/
opaque serial : List (BitVec 8)

/-- The ML-DSA-44 signature of a report under the module's identity key, which no program can read (R331, DESIGN CHOICE, log 12). -/
opaque sign : List (BitVec 8) → List (BitVec 8)

end Sys2Proof.Config
end

