-- ==== Sys2Proof/Machine/Access.lean ====
section
/-! DEFINITION. Reading and changing one part of the state: the focused die, its cores, regions, elements,
units, ports and graphs. Every other file reaches the state through these. -/

namespace Sys2Proof.Machine

/-- Compute die `n`. -/
def dieAt (s : State) (n : Nat) : Die := vget Die.reset s.dies n
/-- The state with die `n` changed. -/
def modDieAt (s : State) (n : Nat) (f : Die → Die) : State := { s with dies := vmod s.dies n f }
/-- The die in focus. -/
def die (s : State) : Die := s.dies[s.cur]
/-- The state with the focused die changed. -/
def modDie (s : State) (f : Die → Die) : State := { s with dies := s.dies.set s.cur (f s.dies[s.cur]) }

/-- A change made with die `n` in focus. -/
def onDie (s : State) (n : Nat) (f : State → State) : State := { f { s with cur := Fin.ofNat 24 n } with cur := s.cur }

/-- Core `c` of the focused die: stagehands 0 to 31, the manager 32 (R22). -/
def core (s : State) (c : Nat) : Core := vget Core.reset (die s).cores c
/-- The state with core `c` changed. -/
def modCore (s : State) (c : Nat) (f : Core → Core) : State :=
  modDie s fun d => { d with cores := vmod d.cores c f }
/-- Region `g` of the focused die. -/
def region (s : State) (g : Nat) : Region := vget Region.reset (die s).regions g
/-- The state with region `g` changed. -/
def modRegion (s : State) (g : Nat) (f : Region → Region) : State :=
  modDie s fun d => { d with regions := vmod d.regions g f }

/-- Element `k` of region `g`, where element (r, c) has number 16·r + c. -/
def elemAt (s : State) (g k : Nat) : Element := vget Element.reset (region s g).elems k
/-- The state with an element changed. -/
def modElem (s : State) (g k : Nat) (f : Element → Element) : State :=
  modRegion s g fun r => { r with elems := vmod r.elems k f }

/-- Operator unit `u` (R161). -/
def opUnit (s : State) (u : Nat) : OpUnit := vget OpUnit.reset (die s).units u
/-- The state with unit `u` changed. -/
def modUnit (s : State) (u : Nat) (f : OpUnit → OpUnit) : State :=
  modDie s fun d => { d with units := vmod d.units u f }
/-- Converter `k` (R168). -/
def conv (s : State) (k : Nat) : Conv := vget { cfg := 0, latch := [] } (die s).convs k
/-- The state with converter `k` changed. -/
def modConv (s : State) (k : Nat) (f : Conv → Conv) : State :=
  modDie s fun d => { d with convs := vmod d.convs k f }

/-- Stream port `p` of region `g` (R250). -/
def port (s : State) (g p : Nat) : Port := vget Port.reset (region s g).ports p
/-- The state with a port changed. -/
def modPort (s : State) (g p : Nat) (f : Port → Port) : State :=
  modRegion s g fun r => { r with ports := vmod r.ports p f }
/-- Operand stream `n` (R157). -/
def stream (s : State) (n : Nat) : Stream := vget Stream.idle (die s).streams n
/-- The state with an operand stream changed. -/
def modStream (s : State) (n : Nat) (f : Stream → Stream) : State :=
  modDie s fun d => { d with streams := vmod d.streams n f }
/-- Launch queue `q` (R299). -/
def queue (s : State) (q : Nat) : Queue := vget Queue.reset (die s).queues q
/-- The state with a launch queue changed. -/
def modQueue (s : State) (q : Nat) (f : Queue → Queue) : State :=
  modDie s fun d => { d with queues := vmod d.queues q f }

/-- The graph with number `gid` on the focused die. -/
def graph? (s : State) (gid : Nat) : Option Graph := (die s).graphs.find? fun g => g.gid == gid
/-- The state with a graph changed. -/
def modGraph (s : State) (gid : Nat) (f : Graph → Graph) : State :=
  modDie s fun d => { d with graphs := d.graphs.map fun g => if g.gid == gid then f g else g }
/-- The graph that owns region `g` (R65). -/
def ownerOf (s : State) (g : Nat) : Option Graph := (region s g).owner.bind (graph? s)

/-- The context of the current word. -/
def kindOf (s : State) : Kind :=
  match s.who with
  | .elem _ _ _ => .elem
  | .stage _ => .stage
  | .mgr => .mgr

/-- The core of the current word: the stagehand's, or the manager's. -/
def myCore (s : State) : Nat :=
  match s.who with
  | .elem g _ _ => g.val
  | .stage g => g.val
  | .mgr => 32

/-- The region of the current word; 0 in the manager. -/
def myRegion (s : State) : Nat :=
  match s.who with
  | .elem g _ _ => g.val
  | .stage g => g.val
  | .mgr => 0

/-- Row of the executing element. -/
def myRow (s : State) : Nat := match s.who with | .elem _ r _ => r.val | _ => 0
/-- Column of the executing element. -/
def myCol (s : State) : Nat := match s.who with | .elem _ _ c => c.val | _ => 0
/-- Number of the executing element in its region. -/
def myElemIx (s : State) : Nat := 16 * myRow s + myCol s
/-- The executing element. -/
def myElem (s : State) : Element := elemAt s (myRegion s) (myElemIx s)
/-- The state with the executing element changed. -/
def modMyElem (s : State) (f : Element → Element) : State := modElem s (myRegion s) (myElemIx s) f
/-- The graph of the executing element or stagehand; none for the manager (R65). -/
def myGraph (s : State) : Option Graph :=
  match s.who with
  | .mgr => none
  | _ => ownerOf s (myRegion s)

/-- The ASROOT through which a core's accesses go: that of their issue, where one took PAGE and is made again (R275). -/
def coreRoot (s : State) (c : Nat) : BitVec 64 := ((core s c).issued.map Prod.snd).getD (core s c).asroot

/-- The ASROOT through which the current word translates (R275). -/
def myRoot (s : State) : BitVec 64 := coreRoot s (myCore s)

/-- Register `r` of core `c`: x0 reads 0 (R74). -/
def xreg (s : State) (c : Nat) (r : Nat) : X := if r = 0 then 0 else vget 0 (core s c).x r
/-- Core `c` with register `r` written; a write of x0 is discarded (R74), and a write stands over the status that an earlier refresh
would give the register (R89). -/
def setX (s : State) (c r : Nat) (v : X) : State :=
  if r = 0 then s else modCore s c fun k => { k with x := vset k.x r v, awaits := k.awaits.filter fun p => p.1 != r }

/-- The next free value (DESIGN CHOICE, log 12). -/
def fresh (s : State) : Line × State := (Config.freeValue s.free, { s with free := s.free + 1 })

/-- An event that waits at a stagehand; while one of the same source waits there, a second only marks it (R309). -/
def addEvent (e : Event) (l : List Event) : List Event :=
  if l.any fun o => o.src == e.src then l.map fun o => if o.src == e.src then { o with more := true } else o else l ++ [e]

/-- The job number that an event about region `g` reports (Table 19-5). -/
def jobOf (s : State) (g : Nat) : BitVec 14 := ((ownerOf s g).map fun gr => gr.job.setWidth 14).getD 0

/-- An event with its record. -/
def mkEvent (s : State) (code src g : Nat) (tval : BitVec 64) (epc : BitVec 54) : Event :=
  { code := BitVec.ofNat 8 code, src := BitVec.ofNat 3 src, region := BitVec.ofNat 5 g, tval := tval, epc := epc,
    async := true, more := false, job := jobOf s g }

/-- An asynchronous event for stagehand `g` (R309). -/
def postStage (s : State) (g : Nat) (code src : Nat) (tval : BitVec 64) : State :=
  modCore s g fun c => { c with events := addEvent (mkEvent s code src g tval 0) c.events }

/-- A trap event for the manager: it joins the 64 that wait, or its source waits for a place (R310, R311, DESIGN CHOICE, log 20). -/
def putMgr (s : State) (e : Event) : State :=
  if (core s 32).events.length < 64 then modCore s 32 fun c => { c with events := c.events ++ [e] }
  else modDie s fun d => { d with mgrWait := d.mgrWait ++ [e] }

/-- A trap event for the manager about region `g` (R310, R311). -/
def postMgr (s : State) (code src g : Nat) (tval : BitVec 64) (epc : BitVec 54) : State :=
  putMgr s (mkEvent s code src g tval epc)

/-- The source that has waited longest takes a free place among the manager's events (R311). -/
def refillMgr (s : State) : State :=
  match (die s).mgrWait with
  | [] => s
  | e :: l =>
    if 64 ≤ (core s 32).events.length then s
    else modDie (modCore s 32 fun c => { c with events := c.events ++ [e] }) fun d => { d with mgrWait := l }

/-- D of refresh `n` of a group: its status, where no later word has written the register (R89, R439). -/
def answerRefresh (s : State) (n : Nat) (q : Refresh) (v : X) : State :=
  if (core s q.core).awaits.contains (q.dst.toNat, n) then setX s q.core q.dst.toNat v else s

/-- The refreshes of a group answered, each by its status. -/
def answerRefreshes (s : State) (g : Group) (status : Refresh → X) : State :=
  g.refreshes.zipIdx.foldl (fun s q => answerRefresh s q.2 q.1 (status q.1)) s

/-- The graph's commit group is discarded and marked aborted: captured bytes are dropped, each TREEUPD unit it touched returns ALLOC
to its value at the first edit (R320), and its refreshes have failed (DESIGN CHOICE, log 73). -/
def abortGroup (s : State) (gid why : Nat) (arg : BitVec 32) : State :=
  match graph? s gid with
  | none => s
  | some g =>
    let s := answerRefreshes s g.group fun _ => 1
    let s := g.group.alloc.foldl (fun s (p : Nat × BitVec 64) =>
      modUnit s p.1 fun u => { u with params := u.params.set 0 7 p.2 }) s
    modGraph s gid fun g => { g with group :=
      { Group.none with state := 3, why := BitVec.ofNat 3 why, arg := arg, opener := g.group.opener } }

end Sys2Proof.Machine
end

