-- ==== Sys2Proof/Machine/Brunex.lean ====
section
/-! DEFINITION. Brunex: the ways of packets between the dies (R8, R12, R28), the channels of a link (R13), and the deduplication of data
blocks (R181, R182). An access performs at its home in the step that makes it (DEDUCED, log 7); the links carry its packets after it,
in an order that no program can observe (R298). -/

namespace Sys2Proof.Machine

/-- Slots of a ring, and blocks of a cache (R181). -/
def ringSlots : Nat := 4096

/-! ### Ways (R8, R12, R28) -/

/-- The I/O die of an Ethernet port, and of a host link (Table 1-4). -/
def ioOfPort (p : Nat) : Nat := 24 + p / 12
def ioOfHost (link : Nat) : Nat := 24 + 2 * link
/-- The first of the three columns of an I/O die's links, and the grid row that they reach (R12). -/
def ioColumn (d : Nat) : Nat := if d % 2 == 0 then 0 else 3
def ioRow (d : Nat) : Nat := if d < 26 then 0 else 3

/-- Hops E from a column to another, and hops the shorter way round (R12). -/
def eastHops (a b : Nat) : Nat := (b % 6 + 6 - a % 6) % 6
def ringHops (a b : Nat) : Nat := min (eastHops a b) (eastHops b a)

/-- The gateway column of an I/O die for a column: the nearest of its three, of two as near the lower (R12). -/
def gateway (d col : Nat) : Nat :=
  let c := ioColumn d
  let far := fun (n : Nat) => ringHops (c + n) col
  if far 0 ≤ far 1 ∧ far 0 ≤ far 2 then c else if far 1 ≤ far 2 then c + 1 else c + 2

/-- Edge by which a packet leaves die `n` for compute die `d`: along the row's ring, E where both ways are three hops, then N or
S (R12). -/
def edgeTo (n d : Nat) : Nat :=
  let east := eastHops n d
  if east != 0 then (if east ≤ 3 then 0 else 1) else if d < n then 2 else 3

/-- The compute die beyond an edge of die `n` (R8). -/
def dieBeyond (n edge : Nat) : Nat :=
  match edge with
  | 0 => n / 6 * 6 + (n % 6 + 1) % 6
  | 1 => n / 6 * 6 + (n % 6 + 5) % 6
  | 2 => n - 6
  | _ => n + 6

/-- The link on which die `n` sends a packet for die `d`: links 0 to 95 leave the edges of compute dies, at 4·die + edge, and 96 to 107
leave the I/O dies, three each in the order of their columns (R8, R12). -/
def linkFor (n d : Nat) : Nat :=
  if 24 ≤ n then
    96 + 3 * (n - 24) + (gateway n (if d < 24 then d else ioColumn d + 1) - ioColumn n)
  else
    let x := if d < 24 then d else 6 * ioRow d + gateway d n
    4 * n + (if n != x then edgeTo n x else if d < 26 then 2 else 3)

/-- The die to which a link leads. -/
def linkEnd (k : Nat) : Nat :=
  let n := k / 4
  if 96 ≤ k then 6 * ioRow (24 + (k - 96) / 3) + ioColumn (24 + (k - 96) / 3) + (k - 96) % 3
  else if n < 6 && k % 4 == 2 then 24 + n / 3
  else if 18 ≤ n && k % 4 == 3 then 26 + (n - 18) / 3
  else dieBeyond n (k % 4)

/-! ### Links (R13, R181, R182) -/

/-- A link direction by its number. -/
def linkAt (s : State) (k : Nat) : Link := s.links.get Link.idle k
/-- The state with a link direction changed. -/
def modLink (s : State) (k : Nat) (f : Link → Link) : State :=
  { s with links := s.links.set Link.idle k (f (linkAt s k)) }

/-- The data block of a packet that is deduplicated: 64 bytes on the request or the response channel (R181, R182). -/
def Packet.block (p : Packet) : Option Line :=
  if (p.chan == .request || p.chan == .response) && p.data.length == 64 then some (bytesLine p.data) else none

/-- A sender's cache and its count of blocks sent in full, with the slot by which a block goes: of an equal block, or, in full, the next
(R181). -/
def dedupSend (cache : Table (Option Line)) (sent : Nat) (block : Line) : Table (Option Line) × Nat × Option Nat :=
  match cache.find? fun p => p.2 == some block with
  | some p => (cache, sent, some p.1)
  | none => (cache.set none (sent % ringSlots) (some block), sent + 1, none)

/-- A packet put on a link: its block as a reference to the slot of an equal block, or in full (R181). -/
def sendOn (l : Link) (p : Packet) : Link :=
  match p.block with
  | none => { l with wire := l.wire ++ [{ p with ref := none }] }
  | some b =>
    let (cache, sent, ref) := dedupSend l.cache l.sent b
    { l with cache := cache, sent := sent, wire := l.wire ++ [{ p with ref := ref }] }

/-- A packet sent from a die to another. (DESIGN CHOICE, log 55) -/
def sendPacket (s : State) (src dest : Nat) (chan : VirtualChannel) (data : List Byte) : State :=
  if src == dest || 28 ≤ src || 28 ≤ dest then s else
    modLink s (linkFor src dest) fun l => sendOn l ⟨src, dest, chan, none, data⟩

/-- The oldest packet on the wire reaches the far side: a full block enters the next slot of the ring, a reference gives the content
of its slot, and the packet stands in the queue of its channel (R13, R181). -/
def crossWire (l : Link) : Link :=
  match l.wire with
  | [] => l
  | p :: rest =>
    let q := match p.ref.bind (l.ring.get none) with
      | some b => { p with ref := none, data := lineBytes b }
      | none => p
    let l := { l with wire := rest, queues := vmod l.queues p.chan.num fun w => w ++ [q] }
    match p.block, p.ref with
    | some b, none => { l with ring := l.ring.set none (l.got % ringSlots) (some b), got := l.got + 1 }
    | _, _ => l

/-- The wire up to the first packet of a channel crosses, where none of the channel stands at the far side. -/
def crossUntil (c : Nat) : Nat → Link → Link
  | 0, l => l
  | n + 1, l => if (vget [] l.queues c).isEmpty then crossUntil c n (crossWire l) else l

/-- THE ARRIVAL of the oldest packet of channel `k` % 4 of link `k` / 4, which waits for no packet of another channel: at its die it is
delivered, and at any other it goes on (R12, R13, R181). -/
def arrivePacket (s : State) (k : Nat) : State :=
  let l := linkAt s (k / 4)
  let l := crossUntil (k % 4) l.wire.length l
  match vget [] l.queues (k % 4) with
  | [] => s
  | p :: rest =>
    let n := linkEnd (k / 4)
    let l := { l with queues := vset l.queues (k % 4) rest }
    if p.dest == n then modLink s (k / 4) fun _ => { l with delivered := some p }
    else modLink (modLink s (k / 4) fun _ => l) (linkFor n p.dest) fun l => sendOn l p

/-- A block of a packet in flight sent again, in full. -/
def sendFull (l : Link) (p : Packet) : Link :=
  let l := { l with wire := l.wire ++ [{ p with ref := none }] }
  match p.block with
  | none => l
  | some b => { l with cache := l.cache.set none (l.sent % ringSlots) (some b), sent := l.sent + 1 }

/-- A retrain or an error of link `k`: the cache and the ring are emptied, and the blocks in flight go again in full (R182). -/
def retrainLink (s : State) (k : Nat) : State :=
  modLink s k fun l => l.wire.foldl sendFull { l with cache := [], sent := 0, ring := [], got := 0, wire := [] }

/-! ### Peers over Ethernet (R326, R327) -/

/-- Ethernet port `p`. -/
def ethAt (s : State) (p : Nat) : EthPort := s.io.eth.get EthPort.idle p
/-- The state with a port changed. -/
def modEth (s : State) (p : Nat) (f : EthPort → EthPort) : State :=
  { s with io := { s.io with eth := s.io.eth.set EthPort.idle p (f (ethAt s p)) } }

/-- A write sent to the peer of a port: the next frame of its stream, kept until it is acknowledged; its block goes as a reference to an
equal one, or in full (R181, R326, R327). -/
def sendFrame (s : State) (die party p addr : Nat) (data : List Byte) : State :=
  modEth s p fun e =>
    let (cache, sent, ref) := if data.length == 64 then dedupSend e.cache e.sent (bytesLine data) else (e.cache, e.sent, none)
    { e with
      cache := cache, sent := sent, outSeq := e.outSeq + 1
      unacked := e.unacked ++ [⟨e.outSeq, die, [party], [], addr, ref, data⟩] }

/-- What a port receives of bytes, in a request or in an answer (R181, R327): a block that the ring holds came as a reference to its slot,
whose content is delivered, unless it came in full; a block in full enters the next slot. -/
def receiveBlock (e : EthPort) (full : Bool) (data : List Byte) : EthPort × List Byte :=
  let slot := if data.length != 64 || full then none else e.ring.findSome? fun q => if q.2 == some (bytesLine data) then some q.1 else none
  match slot.bind (e.ring.get none) with
  | some b => (e, lineBytes b)
  | none =>
    (if data.length != 64 then e
      else { e with ring := e.ring.set none (e.got % ringSlots) (some (bytesLine data)), got := e.got + 1 }, data)

/-- A frame that a port has received, and its bytes: its block may be one that the peer sends again, in full, after the caches were
emptied (R181, R327). (DESIGN CHOICE, log 78) -/
def receiveFrame (e : EthPort) (data : List Byte) : EthPort × List Byte :=
  let r := receiveBlock e (e.again != 0) data
  ({ r.1 with inSeq := e.inSeq + 1, again := e.again - 1 }, r.2)

/-- The blocks of 64 bytes of an answer, each a line of the address space that was read. -/
def answerBlocks (addr : Nat) (data : List Byte) : List (List Byte) :=
  let rest := data.drop ((64 - addr % 64) % 64)
  (List.range (rest.length / 64)).map fun k => (rest.drop (64 * k)).take 64

/-- An answer to a read of the peer leaves through a port: its blocks pass the sender's cache as those of a request do (R181, R327). -/
def sendAnswer (s : State) (p addr : Nat) (data : List Byte) : State :=
  modEth s p fun e => (answerBlocks addr data).foldl (fun e b =>
    let r := dedupSend e.cache e.sent (bytesLine b)
    { e with cache := r.1, sent := r.2.1 }) e

/-- An answer of the peer of a port arrives: its block passes the mirror ring (R181, R327). -/
def receiveAnswer (s : State) (p : Nat) (data : List Byte) : State := modEth s p fun e => (receiveBlock e false data).1

/-- A frame that the peer has not acknowledged goes again, in full (R326, R327). -/
def resendFrame (e : EthPort) (f : Frame) : EthPort :=
  let e := { e with unacked := e.unacked ++ [{ f with ref := none }] }
  if f.data.length != 64 then e
  else { e with cache := e.cache.set none (e.sent % ringSlots) (some (bytesLine f.data)), sent := e.sent + 1 }

/-- The peers acknowledge frames, in a cycle a free number of the oldest of each port (R326, DESIGN CHOICE, log 78). -/
def ackFrames (s : State) : State :=
  s.io.eth.foldl (fun s p =>
    if p.2.unacked.isEmpty then s else
      let (v, s) := fresh s
      modEth s p.1 fun e => { e with unacked := e.unacked.drop (v.toNat % (e.unacked.length + 1)) }) s

/-- A write to a peer that `p` selects has not been acknowledged, so that it may still have to perform there (R294, R326). -/
def frameOpen (s : State) (p : Frame → Bool) : Bool := s.io.eth.any fun q => q.2.unacked.any p

/-- A party's writes to peers have not all performed (R287). -/
def framesOpen (s : State) (die party : Nat) : Bool := frameOpen s fun f => f.die == die && f.parties.contains party

/-- A sequence gap, a retransmission or a link that is down: cache and ring are emptied, and what the peer has not acknowledged, a free
value of the oldest frames apart, goes again in full; so do a free number of the peer's own frames (R326, R327). (DESIGN CHOICE, log 78) -/
def clearEthernet (s : State) (p : Nat) : State :=
  let (v, s) := fresh s
  let (n, s) := fresh s
  modEth s p fun e =>
    (e.unacked.drop (v.toNat % (e.unacked.length + 1))).foldl resendFrame
      { e with unacked := [], cache := [], sent := 0, ring := [], got := 0, again := n.toNat }

end Sys2Proof.Machine
end

