-- ==== Sys2Proof/Machine/Cipher.lean ====
section
/-! DEFINITION. The two ciphers that the spec names by their standards: AES-256-XTS, which protects a page under a nonzero key
index (R265, R276, R330), and SHA3-256, by which the root of trust extends its measurements (R331). Both follow their
published standards, FIPS 197 with IEEE 1619, and FIPS 202 (PRESUMED, log 66). -/

namespace Sys2Proof.Machine

/-! ### AES-256 (FIPS 197) -/

/-- A product in the field of 2^8 elements. -/
def gfMul (a b : Byte) : Byte :=
  ((List.range 8).foldl (fun (p : Byte × Byte) i =>
    (if b.getLsbD i then p.1 ^^^ p.2 else p.1, (p.2 <<< 1) ^^^ (if p.2.getLsbD 7 then 0x1B else 0))) (0, a)).1

/-- The inverse in that field, a^254, and 0 for 0. -/
def gfInv (a : Byte) : Byte :=
  let b := (List.range 6).foldl (fun r _ => gfMul (gfMul r r) a) a
  gfMul b b

/-- The substitution of a byte, and its inverse. -/
def subByte (b : Byte) : Byte :=
  let x := gfInv b
  x ^^^ x.rotateLeft 1 ^^^ x.rotateLeft 2 ^^^ x.rotateLeft 3 ^^^ x.rotateLeft 4 ^^^ 0x63
def invSubByte (b : Byte) : Byte := gfInv (b.rotateLeft 1 ^^^ b.rotateLeft 3 ^^^ b.rotateLeft 6 ^^^ 0x05)

/-- The exclusive-or of two lists of bytes. -/
def xorBytes (a b : List Byte) : List Byte := List.zipWith (fun x y => x ^^^ y) a b

/-- The rows of a block of 16 bytes, column by column, turned by `k` times their number. -/
def turnRows (k : Nat) (b : List Byte) : List Byte :=
  (List.range 16).map fun i => nth 0 b (i % 4 + 4 * ((i / 4 + k * (i % 4)) % 4))

/-- Each column of a block multiplied by the circulant of four coefficients. -/
def mixColumns (m : List Byte) (b : List Byte) : List Byte :=
  (List.range 16).map fun i => (List.range 4).foldl (fun acc j =>
    acc ^^^ gfMul (nth 0 m ((j + 4 - i % 4) % 4)) (nth 0 b (i / 4 * 4 + j))) 0

/-- The schedule of a 32-byte key: 60 words of four bytes, the last first. -/
def keyWords (key : List Byte) : List (List Byte) :=
  let first := (List.range 8).map fun i => (key.drop (4 * i)).take 4
  (List.range 52).foldl (fun acc n =>
    let i := n + 8
    let t := acc.headD []
    let t := if i % 8 == 0 then
        xorBytes ((t.drop 1 ++ t.take 1).map subByte) [BitVec.ofNat 8 (2 ^ (i / 8 - 1)), 0, 0, 0]
      else if i % 8 == 4 then t.map subByte else t
    xorBytes (nth [] acc 7) t :: acc) first.reverse

/-- The 15 round keys of a 32-byte key. -/
def roundKeys (key : List Byte) : List (List Byte) :=
  let ws := (keyWords key).reverse
  (List.range 15).map fun n => ((ws.drop (4 * n)).take 4).flatten

/-- AES-256 of a block of 16 bytes under its round keys, and its inverse. -/
def aesEncrypt (ks : List (List Byte)) (b : List Byte) : List Byte :=
  let b := (List.range 13).foldl (fun b n =>
    xorBytes (mixColumns [2, 3, 1, 1] (turnRows 1 (b.map subByte))) (nth [] ks (n + 1))) (xorBytes b (nth [] ks 0))
  xorBytes (turnRows 1 (b.map subByte)) (nth [] ks 14)
def aesDecrypt (ks : List (List Byte)) (b : List Byte) : List Byte :=
  let b := (turnRows 3 (xorBytes b (nth [] ks 14))).map invSubByte
  let b := (List.range 13).foldl (fun b n =>
    (turnRows 3 (mixColumns [14, 11, 13, 9] (xorBytes b (nth [] ks (13 - n))))).map invSubByte) b
  xorBytes b (nth [] ks 0)

/-! ### XTS (IEEE 1619) -/

/-- A tweak multiplied by the primitive element of the field of 2^128 elements. -/
def xtsNext (t : BitVec 128) : BitVec 128 := (t <<< 1) ^^^ (if t.getLsbD 127 then 0x87 else 0)

/-- The whole blocks of a data unit, each passed through `f` between two additions of its tweak. -/
def xtsBlocks (f : List Byte → List Byte) : Nat → BitVec 128 → List Byte → List Byte
  | 0, _, _ => []
  | n + 1, t, data =>
    let tw := natBytes t.toNat 16
    xorBytes (f (xorBytes (data.take 16) tw)) tw ++ xtsBlocks f n (xtsNext t) (data.drop 16)

/-- AES-256-XTS of a data unit of whole blocks: the low 32 bytes of the key encrypt the data, the high 32 the tweak
(R330, PRESUMED, log 66). -/
def xtsUnit (decrypt : Bool) (key : BitVec 512) (tweak : Nat) (data : List Byte) : List Byte :=
  let bytes := lineBytes key
  let k1 := roundKeys (bytes.take 32)
  let t := aesEncrypt (roundKeys (bytes.drop 32)) (natBytes tweak 16)
  xtsBlocks (if decrypt then aesDecrypt k1 else aesEncrypt k1) (data.length / 16) (BitVec.ofNat 128 (bytesNat t)) data

/-! ### SHA3-256 (FIPS 202) -/

/-- Lane (x, y) of a Keccak state of 25 lanes. -/
def kLane (a : List (BitVec 64)) (x y : Nat) : BitVec 64 := nth 0 a (x % 5 + 5 * (y % 5))

/-- The 25 lanes that a function of x and y gives. -/
def kLanes (f : Nat → Nat → BitVec 64) : List (BitVec 64) := (List.range 25).map fun i => f (i % 5) (i / 5)

/-- The next state of the eight-bit register of the round constants. -/
def kNext (r : BitVec 8) : BitVec 8 := (r <<< 1) ^^^ (if r.getLsbD 7 then 0x71 else 0)

/-- The register after `n` steps. -/
def kReg (n : Nat) : BitVec 8 := (List.range n).foldl (fun r _ => kNext r) 1

/-- The constant of round `n`. -/
def kConst (n : Nat) : BitVec 64 :=
  (List.range 7).foldl (fun c j => if (kReg (7 * n + j)).getLsbD 0 then c ||| (1 <<< (2 ^ j - 1)) else c) 0

/-- The rotations of the lanes with their places, by the walk (x, y) to (y, 2x + 3y). -/
def kTurns : List (Nat × Nat × Nat) :=
  ((List.range 24).foldl (fun (p : (Nat × Nat) × List (Nat × Nat × Nat)) t =>
    ((p.1.2, (2 * p.1.1 + 3 * p.1.2) % 5), (p.1.1, p.1.2, (t + 1) * (t + 2) / 2 % 64) :: p.2)) ((1, 0), [])).2

/-- One round: theta, rho, pi, chi and iota. -/
def kRound (a : List (BitVec 64)) (n : Nat) : List (BitVec 64) :=
  let c := (List.range 5).map fun x => (List.range 5).foldl (fun v y => v ^^^ kLane a x y) 0
  let a := kLanes fun x y => kLane a x y ^^^ nth 0 c ((x + 4) % 5) ^^^ (nth 0 c ((x + 1) % 5)).rotateLeft 1
  let b := kTurns.foldl (fun b p => b.set (p.2.1 + 5 * ((2 * p.1 + 3 * p.2.1) % 5)) ((kLane a p.1 p.2.1).rotateLeft p.2.2)) a
  kLanes fun x y => kLane b x y ^^^ (~~~(kLane b (x + 1) y) &&& kLane b (x + 2) y) ^^^ (if x + y == 0 then kConst n else 0)

/-- A block of 136 bytes absorbed. -/
def kAbsorb (a : List (BitVec 64)) (block : List Byte) : List (BitVec 64) :=
  (List.range 24).foldl kRound (a.zipIdx.map fun p =>
    p.1 ^^^ (if p.2 < 17 then BitVec.ofNat 64 (bytesNat ((block.drop (8 * p.2)).take 8)) else 0))

/-- The blocks of 136 bytes of a padded message. -/
def kBlocks : Nat → List Byte → List (List Byte)
  | 0, _ => []
  | n + 1, l => l.take 136 :: kBlocks n (l.drop 136)

/-- SHA3-256 of a message, lowest byte first. -/
def sha3 (m : List Byte) : BitVec 256 :=
  let gap := 136 - m.length % 136
  let pad := if gap == 1 then [0x86] else 0x06 :: (List.replicate (gap - 2) 0 ++ [0x80])
  let l := m ++ pad
  let a := (kBlocks (l.length / 136) l).foldl kAbsorb (List.replicate 25 0)
  BitVec.ofNat 256 (bytesNat ((a.take 4).flatMap fun v => natBytes v.toNat 8))

end Sys2Proof.Machine
end

