-- ==== Sys2Proof/Machine/Codec.lean ====
section
/-! DEFINITION. The FP64 block codec (R259 to R271): encoding and decoding of a block of eight values. -/

namespace Sys2Proof.Machine

/-- Bits per block of a codec code (Table 15-1). -/
def codecBudget (code : Nat) : Nat :=
  match code with
  | 1 => 64
  | 2 => 96
  | 3 => 128
  | 4 => 192
  | 5 => 256
  | _ => 512

/-- Widths of DC, d3, d2 and d1 (Table 15-2). -/
def codecWidths (code : Nat) : Nat × Nat × Nat × Nat :=
  match code with
  | 1 => (20, 12, 6, 2)
  | 2 => (24, 16, 10, 6)
  | 3 => (28, 20, 14, 10)
  | 4 => (36, 28, 26, 16)
  | _ => (44, 44, 30, 24)

/-- Bytes of the HBM slot that a line of the codec code occupies (R265, Table 15-1). -/
def codecBytes (code : Nat) (encrypted : Bool) : Nat :=
  let b := codecBudget code / 8
  if encrypted then (b + 15) / 16 * 16 else b

/-- Rounding to the nearest integer of `c / 2^k`, ties away from zero (R262). -/
def roundNa (c : Int) (k : Nat) : Int :=
  let d : Int := 2 ^ k
  if 0 ≤ c then (2 * c + d) / (2 * d) else -((2 * -c + d) / (2 * d))

/-- code(c, N, w) of R262. -/
def codeField (c : Int) (n w : Nat) : Int :=
  let r := roundNa c (n - w)
  let hi : Int := 2 ^ (w - 1)
  if r < -hi then -hi else if hi - 1 < r then hi - 1 else r

/-- Value `i` of a line. -/
def lineF64 (l : Line) (i : Nat) : Nat := bits l.toNat (64 * i) 64

/-- Biased exponent field of an FP64 value. -/
def expF64 (v : Nat) : Nat := bits v 52 11

/-- trunc(x · 2^(61 − e)) of a finite FP64 value (R262). -/
def codecQ (v : Nat) (e : Int) : Int :=
  match fp64.value v with
  | .fin q _ =>
    let y := q * pow2 (61 - e)
    if y < 0 then -((-y).floor) else y.floor
  | _ => 0

/-- The packed code of a block without NaN or infinity under codes 1 to 5 (R262, R263). -/
def encodeBlock (code : Nat) (l : Line) : Nat :=
  let xs := (List.range 8).map (lineF64 l)
  if xs.all fun v => bits v 0 63 == 0 then 2 ^ 11 else
  let eb := max 1 ((xs.map expF64).foldl max 0)
  let e : Int := (eb : Int) - 1023
  let q := fun i => codecQ (nth 0 xs i) e
  let s1 := fun j => (q (2 * j) + q (2 * j + 1)) / 2
  let d1 := fun j => q (2 * j) - q (2 * j + 1)
  let s2 := fun j => (s1 (2 * j) + s1 (2 * j + 1)) / 2
  let d2 := fun j => s1 (2 * j) - s1 (2 * j + 1)
  let dc := (s2 0 + s2 1) / 2
  let d3 := s2 0 - s2 1
  let (w0, w1, w2, w3) := codecWidths code
  let fields := [(dc, 63, w0), (d3, 64, w1), (d2 0, 64, w2), (d2 1, 64, w2), (d1 0, 64, w3), (d1 1, 64, w3),
    (d1 2, 64, w3), (d1 3, 64, w3)]
  (fields.foldl (fun (acc : Nat × Nat) f =>
    (acc.1 + toBits f.2.2 (codeField f.1 f.2.1 f.2.2) * 2 ^ acc.2, acc.2 + f.2.2)) (eb, 12)).1

/-- The block of a packed code under codes 1 to 5 (R264). -/
def decodeBlock (code : Nat) (c : Nat) : Line :=
  if bits c 11 1 == 1 then 0 else
  let e : Int := (max (bits c 0 11) 1 : Nat) - 1023
  let (w0, w1, w2, w3) := codecWidths code
  let field := fun (lo w n : Nat) => sInt w (bits c lo w) * 2 ^ (n - w)
  let half := fun (i : Int) => -((-i) / 2)
  let dc := field 12 w0 63
  let d3 := field (12 + w0) w1 64
  let d2 := fun (j : Nat) => field (12 + w0 + w1 + j * w2) w2 64
  let d1 := fun (j : Nat) => field (12 + w0 + w1 + 2 * w2 + j * w3) w3 64
  let s20 := dc + half d3
  let s2 := fun (j : Nat) => if j == 0 then s20 else s20 - d3
  let s1 := fun (j : Nat) =>
    let a := s2 (j / 2) + half (d2 (j / 2))
    if j % 2 == 0 then a else a - d2 (j / 2)
  let q := fun (i : Nat) =>
    let a := s1 (i / 2) + half (d1 (i / 2))
    if i % 2 == 0 then a else a - d1 (i / 2)
  let v := fun (i : Nat) =>
    let r := (q i : Rat) * pow2 (e - 61)
    if r == 0 then 0 else
      let y := (fp64.round 0 0 (.fin r false)).1
      if expF64 y == 2047 then fp64.signed (r < 0) fp64.maxCode else
      if bits y 0 63 == 0 then 0 else y
  BitVec.ofNat 512 ((List.range 8).foldl (fun acc i => acc + v i * 2 ^ (64 * i)) 0)

/-- The code and the decoded block that one operation of R267 stores: code 0 and code 6 keep the bytes. -/
def codecStore (code : Nat) (l : Line) : Line × Line :=
  if code == 0 || code == 6 then (l, l) else
    let c := encodeBlock code l
    (BitVec.ofNat 512 c, decodeBlock code c)

/-- The values of a slot's first bytes under a codec code. -/
def codecLoad (code : Nat) (slot : Line) : Line :=
  if code == 0 || code == 6 then slot else decodeBlock code (bits slot.toNat 0 (codecBudget code))

/-- Largest floor(log2 |x′ − x|) of a block whose values differ, or none (R271). -/
def errorExp (merged decoded : Line) : Option Int :=
  (List.range 8).foldl (fun acc i =>
    match fp64.value (lineF64 merged i), fp64.value (lineF64 decoded i) with
    | .fin a _, .fin b _ =>
      if a == b then acc else
        let e := ilog2 (ratAbs (b - a))
        match acc with
        | some m => some (if m < e then e else m)
        | none => some e
    | _, _ => acc) none

/-- A whole value of the line among the bytes written is a NaN or an infinity (R268). -/
def nonFinite (written : List (Nat × Byte)) : Bool :=
  (List.range 8).any fun i =>
    let vs := (List.range 8).map fun b => written.find? fun p => p.1 == 8 * i + b
    vs.all Option.isSome && expF64 (bytesNat (vs.map fun o => match o with | some p => p.2 | none => 0)) == 2047

end Sys2Proof.Machine
end

