-- ==== Sys2Proof/Machine/Memory.lean ====
section
/-! DEFINITION. Memory at the home wing tiles: physical addresses (R240, R241, R324), the L2 (R245, R246), the
coded slots (R265 to R267), write-back deduplication (R247), keys (R330), and the one read and the one
write through which every party reaches a byte, with the view of a commit group (R295, R319). -/

namespace Sys2Proof.Machine

/-- What a physical address names (R240, R241, R324, R334). -/
inductive Place where
  | hbm
  | host (link : Nat)
  | launch (n q : Nat)
  | fstat
  | mailbox
  | peer (p : Nat)
  | absent
  deriving DecidableEq, Repr

/-- First byte of the dump area of a die's HBM (R334). -/
def dumpBase : Nat := 0x1D8D650000

/-- The place of a physical address. -/
def place (pa : Nat) : Place :=
  if pa < 2 ^ 43 then
    (if pa / 2 ^ 38 < 24 && pa % 2 ^ 38 < dumpBase then .hbm else .absent)
  else if pa < 2 ^ 47 then .absent
  else if pa < 0x0000C00000000000 then .host 0
  else if pa < 0x0001000000000000 then .host 1
  else if pa < 0x0001000000180000 then
    (if pa % 2 ^ 16 < 4096 then .launch ((pa - 0x0001000000000000) / 2 ^ 16) (pa % 2 ^ 16 / 64) else .absent)
  else if pa < 0x0001000000180008 then .fstat
  else if 0x0001000000181000 ≤ pa && pa < 0x0001000000182000 then .mailbox
  else if 2 ^ 51 ≤ pa && pa < 2 ^ 51 + 48 * 2 ^ 43 then .peer ((pa - 2 ^ 51) / 2 ^ 43)
  else .absent

/-- An access of `len` bytes at a physical address names bytes that exist (R241, R324). -/
def reachable (pa len : Nat) : Bool := place pa != .absent && place (pa + len - 1) != .absent

/-- A stamp's address: of HBM, or of a system-space window (R299, R324). -/
def stampable (pa : Nat) : Bool :=
  match place pa with
  | .hbm | .host _ | .peer _ => true
  | _ => false

/-- Home die of a physical line, and the wing tile in the module (R240). -/
def homeDie (ln : Nat) : Nat := ln / 2 ^ 32
def homeTile (ln : Nat) : Nat := 8 * homeDie ln + ln / 4 % 8

/-- The attributes with which a line is reached. -/
structure LineAttr where
  codec : Nat
  key : Nat
  dedup : Bool
  deriving DecidableEq, Repr, Inhabited

/-- The attributes of a translated address. -/
def Xlat.attr (x : Xlat) : LineAttr := ⟨x.codec, x.key, x.dedup⟩

/-- ASID of an ASROOT value (Table 17-2). -/
def rootAsid (root : X) : Nat := bits root.toNat 0 12

/-! ### HBM slots -/

/-- The copy that a deduplicated line is mapped to (R247). -/
def copyOf (s : State) (ln : Nat) : Option DedupCopy :=
  (s.dedupMap.get none ln).bind fun id => s.dedup.find? fun c => c.id == id

/-- Bytes of a line encrypted under a key of the store: one AES-256-XTS data unit whose tweak is the line's number (R265, R330). -/
def encryptUnit (s : State) (key ln : Nat) (data : List Byte) : List Byte := xtsUnit false (vget 0 s.io.keys key) ln data
/-- Bytes of a line under a key index: in the clear under 0, else encrypted (R330). -/
def sealBytes (s : State) (key ln : Nat) (data : List Byte) : List Byte :=
  if key == 0 then data else encryptUnit s key ln data
def unsealBytes (s : State) (key ln : Nat) (data : List Byte) : List Byte :=
  if key == 0 then data else xtsUnit true (vget 0 s.io.keys key) ln data

/-- The code that a line's HBM slot, or the copy it is mapped to, gives under a codec code and a key; the slot's bytes past
a copy's are the line's own (R247, R265). (DEDUCED, log 14) -/
def slotCode (s : State) (ln : Nat) (a : LineAttr) : Line :=
  let n := codecBytes a.codec (a.key != 0)
  let own := Table.bytes s.mem (64 * ln) n
  bytesLine <| match copyOf s ln with
    | none => unsealBytes s a.key ln own
    | some c =>
      if c.key == a.key && n ≤ c.data.length then c.data.take n
      else unsealBytes s a.key c.line ((sealBytes s c.key c.line c.data).take n ++ own.drop c.data.length)

/-- The values of a line's HBM slot under a codec code and a key (R264, R266). -/
def slotRead (s : State) (ln : Nat) (a : LineAttr) : Line := codecLoad a.codec (slotCode s ln a)

/-- The line drops its reference to a deduplicated copy (R247). -/
def unmapCopy (s : State) (ln : Nat) : State :=
  match s.dedupMap.get none ln with
  | none => s
  | some id =>
    { s with
      dedup := (s.dedup.map fun c => if c.id == id then { c with refs := c.refs - 1 } else c)
      dedupMap := s.dedupMap.set none ln none }

/-- A stored copy with the given bytes that a line may be mapped to (R247). -/
def findCopy (s : State) (ln key : Nat) (data : List Byte) : Option DedupCopy :=
  let tile := homeTile ln
  if (s.dedupMap.filter fun p => homeTile p.1 == tile).length < 2 ^ 20 then
    s.dedup.find? fun c => c.tile == tile && c.key == key && c.data == data && decide (c.refs < 65535)
  else none

/-- The stored bytes of a line written to its slot, or the line mapped to an equal copy when
`merge` (a write-back of a page with the deduplication bit, R247). -/
def slotWrite (s : State) (ln : Nat) (a : LineAttr) (stored : Line) (merge : Bool) : State :=
  let s := unmapCopy s ln
  let data := (lineBytes stored).take (codecBytes a.codec (a.key != 0))
  let s := { s with
    dedup := s.dedup.filter fun c => c.line != ln || c.refs != 0 }
  match if merge then findCopy s ln a.key data else none with
  | some c => { s with
      dedup := s.dedup.map fun d => if d.id == c.id then { d with refs := d.refs + 1 } else d
      dedupMap := s.dedupMap.set none ln (some c.id) }
  | none =>
    let id := s.dedup.foldl (fun m c => max m (c.id + 1)) 0
    { s with
      mem := Table.setBytes s.mem (64 * ln) (sealBytes s a.key ln data)
      dedup := if merge then s.dedup ++ [⟨id, homeTile ln, a.key, data, ln, 0⟩] else s.dedup }

/-! ### The L2 -/

/-- The line as the L2 holds it. -/
def l2get (s : State) (ln : Nat) : Option L2Line := s.l2.get none ln
/-- The L2 with a line put or dropped. -/
def l2put (s : State) (ln : Nat) (e : Option L2Line) : State := { s with l2 := s.l2.set none ln e }

/-- A dirty line is written back: the held code, not encoded again (R266). -/
def writeBack (s : State) (ln : Nat) (e : L2Line) : State :=
  if e.dirty then slotWrite s ln ⟨e.codec, e.key, e.dedup⟩ e.code e.dedup else s

/-- A line leaves the L2. -/
def l2drop (s : State) (ln : Nat) : State :=
  match l2get s ln with
  | none => s
  | some e => l2put (writeBack s ln e) ln none

/-- The lines of the set of `ln`, which its address fixes (R245). -/
def l2set (s : State) (ln : Nat) : List (Nat × L2Line) :=
  s.l2.filterMap fun p => if homeDie p.1 == homeDie ln && p.1 % 2 ^ 16 == ln % 2 ^ 16 && p.1 != ln then
    p.2.map fun e => (p.1, e) else none

/-- The least recently used line of a list. -/
def leastRecent : List (Nat × L2Line) → Option (Nat × L2Line)
  | [] => none
  | p :: l => match leastRecent l with
    | none => some p
    | some q => some (if q.2.used < p.2.used then q else p)

/-- A way is freed for a line when its set is full: the least recent line not marked keep, or the least
recent of all when every way holds a keep line (R245, R246). -/
def l2room (s : State) (ln : Nat) : State :=
  let set := l2set s ln
  if set.length < 16 then s else
    let plain := set.filter fun p => !p.2.keep
    match leastRecent (if plain.isEmpty then set else plain) with
    | some p => l2drop s p.1
    | none => s

/-- A set that holds eight keep lines gives up the mark of the least recent (R246). -/
def l2keepRoom (s : State) (ln : Nat) : State :=
  let kept := (l2set s ln).filter fun p => p.2.keep
  if kept.length < 8 then s else
    match leastRecent kept with
    | some p => l2put s p.1 (some { p.2 with keep := false })
    | none => s

/-- The line put into the L2 as the most recent of its set. -/
def l2touch (s : State) (ln : Nat) (e : L2Line) (hint : Nat) : State :=
  let s := if hint == 3 && !e.keep then l2keepRoom s ln else s
  let s := l2put s ln (some { e with used := s.useCtr, keep := e.keep || hint == 3 })
  { s with useCtr := s.useCtr + 1 }

/-- A line present under another codec code or key is written back and dropped (R261). -/
def l2agree (s : State) (ln : Nat) (a : LineAttr) : State :=
  match l2get s ln with
  | some e => if e.codec == a.codec && e.key == a.key then s else l2drop s ln
  | none => s

/-- The value of a line as a load returns it, without the effect of the hint. -/
def peekLine (s : State) (ln : Nat) (a : LineAttr) : Line :=
  let s := l2agree s ln a
  match l2get s ln with
  | some e => e.data
  | none => slotRead s ln a

/-- A load of a line: its value, and the L2 after it (Table 14-3). -/
def loadLine (s : State) (ln : Nat) (a : LineAttr) (hint : Nat) : Line × State :=
  let s := l2agree s ln a
  match l2get s ln with
  | some e => (e.data, if hint == 0 || hint == 3 then l2touch s ln e hint else s)
  | none =>
    let code := slotCode s ln a
    let v := codecLoad a.codec code
    (v, if hint == 0 || hint == 3 then
        l2touch (l2room s ln) ln ⟨v, code, a.codec, a.key, a.dedup, false, false, 0⟩ hint
      else s)

/-- A line with bytes merged: offset and byte. -/
def mergeLine (l : Line) (bs : List (Nat × Byte)) : Line :=
  bytesLine (bs.foldl (fun l p => l.set p.1 p.2) (lineBytes l))

/-- A codec counter set after one operation of R267 (R271). -/
def countBlock (merged decoded : Line) (c : Codec) : Codec :=
  let c := { c with cblk := c.cblk + 1 }
  if merged == decoded then c else
    let c := { c with clossy := c.clossy + 1 }
    match errorExp merged decoded with
    | some e => { c with cmaxe := if c.cmaxe.toInt < e then BitVec.ofInt 16 e else c.cmaxe }
    | none => c

/-- The counter set that an operation of the codec counts to (R270). -/
def countCodec (s : State) (a : LineAttr) (merged decoded : Line) (cd ci : Nat) : State :=
  if a.codec == 0 then s else
    modDieAt s cd fun d => { d with codec := vmod d.codec ci (countBlock merged decoded) }

/-- A write of bytes into a line as one operation at its home: merge, encode, store by the hint
(R267, Table 14-3). A line that a page with the deduplication bit has marked keeps the mark in the L2 (R247, DESIGN CHOICE, log 86). -/
def storeLine (s : State) (ln : Nat) (a : LineAttr) (bs : List (Nat × Byte)) (hint cd ci : Nat) : State :=
  let s := l2agree s ln a
  let old := match l2get s ln with
    | some e => e.data
    | none => slotRead s ln a
  let merged := mergeLine old bs
  let (code, data) := codecStore a.codec merged
  let s := countCodec s a merged data cd ci
  match l2get s ln, hint == 0 || hint == 3 with
  | some e, true => l2touch s ln { e with data := data, code := code, dedup := e.dedup || a.dedup, dirty := true } hint
  | none, true =>
    l2touch (l2room s ln) ln ⟨data, code, a.codec, a.key, a.dedup, true, false, 0⟩ hint
  | some e, false =>
    let s := slotWrite s ln a code false
    if hint == 1 then l2put s ln (some { e with data := data, code := code, dirty := false }) else l2put s ln none
  | none, false => slotWrite s ln a code false

/-! ### Performing a write -/

/-- The L1 instruction copies of a line on its home die, or on every die, are invalidated (R283, R294). -/
def invalidateCode (s : State) (ln : Nat) (everyDie : Bool) : State :=
  let hit := fun (d : Die) => d.cores.toList.any fun c => (c.l1i.get none ln).isSome
  let drop := fun (d : Die) => if hit d then
    { d with cores := d.cores.map fun c => { c with l1i := c.l1i.set none ln none } } else d
  if everyDie then { s with dies := s.dies.map drop } else modDieAt s (homeDie ln) drop

/-- A write that reaches SNEXT of a sequenced line discards its waiting contributions (R291). -/
def discardSequenced (s : State) (ln : Nat) (bs : List (Nat × Byte)) : State :=
  if bs.any fun p => 56 ≤ p.1 && p.1 < 60 then
    modDieAt s (homeDie ln) fun d => { d with reds := d.reds.filter fun c => !(c.line == ln && c.stored) }
  else s

/-- A write of bytes of one line performs at its home (R283). -/
def performLine (s : State) (ln : Nat) (a : LineAttr) (bs : List (Nat × Byte)) (hint cd ci : Nat)
    (everyDie : Bool) : State :=
  let s := sendPacket s cd (homeDie ln) .request (bs.map Prod.snd)
  let s := storeLine s ln a bs hint cd ci
  discardSequenced (invalidateCode s ln everyDie) ln bs

/-- Consecutive bytes of an access cut at line boundaries: line, and offset and byte within it. -/
def splitLines (pa : Nat) (data : List Byte) : List (Nat × List (Nat × Byte)) :=
  let cells := data.zipIdx.map fun p => (pa + p.2, p.1)
  let lines := (List.range ((pa % 64 + data.length + 63) / 64)).map fun k => pa / 64 + k
  lines.map fun ln => (ln, (cells.filter fun c => c.1 / 64 == ln).map fun c => (c.1 % 64, c.2))

/-- LQSTAT of a queue (Table 19-2). -/
def lqstat (q : Queue) : X := q.done ++ BitVec.ofNat 16 q.drops ++ (0 : BitVec 10) ++ BitVec.ofNat 6 q.entries.length

/-- A launch dropped and counted (R301). -/
def dropLaunch (s : State) (n q : Nat) : State :=
  modDieAt s n fun d => { d with queues := vmod d.queues q fun k => { k with drops := min 65535 (k.drops + 1) } }

/-- A launch that is enqueued; 0 enqueued, 1 full and counted, 2 disabled (R301, Table 19-7). -/
def enqueueLaunch (s : State) (n q : Nat) (desc : Line) : State × Nat :=
  let k := vget Queue.reset (dieAt s n).queues q
  if k.cfg.getLsbD 4 == false then (s, 2) else
  if 32 ≤ k.entries.length then (dropLaunch s n q, 1) else
  (modDieAt s n fun d => { d with queues := vmod d.queues q fun k =>
    { k with entries := k.entries ++ [⟨desc, s.clock, none⟩] } }, 0)

/-- A descriptor with no reserved bit set and nanoseconds below 10^9 (R301, Table 19-3). -/
def descriptorOk (desc : Line) : Bool :=
  bits desc.toNat 240 16 == 0 && bits desc.toNat 209 15 == 0 && decide (bits desc.toNat 128 32 < 10 ^ 9)

/-- A host or peer write to a launch register (R301, R332); none is enqueued in the fatal state (R312). (DESIGN CHOICE, log 25) -/
def launchWrite (s : State) (n q len : Nat) (desc : Line) : State :=
  let k := vget Queue.reset (dieAt s n).queues q
  if len != 64 || k.cfg.getLsbD 5 == false || !s.io.ready || s.io.fatal || !descriptorOk desc then dropLaunch s n q else
    match enqueueLaunch s n q desc with
    | (s', 2) => dropLaunch s' n q
    | (s', _) => s'

/-- The die at which an access to system space performs: an I/O die, or the die of a launch register (R324, Table 1-4, DESIGN CHOICE,
log 55). -/
def systemDie (pa : Nat) : Nat :=
  match place pa with
  | .host l => ioOfHost l
  | .peer p => ioOfPort p
  | .launch n _ => n
  | .hbm => homeDie (pa / 64)
  | .mailbox | .fstat | .absent => 24

/-- A write performs at its physical address: at the home of each line, or at the host, the peer or
the register (R283, R324, R326). FSTAT is read-only: a write to it does nothing. -/
def performBytes (s : State) (pa : Nat) (a : LineAttr) (data : List Byte) (hint cd ci : Nat) (everyDie : Bool) :
    State :=
  match place pa with
  | .hbm => (splitLines pa data).foldl (fun s p => performLine s p.1 a p.2 hint cd ci everyDie) s
  | .host _ | .mailbox => sendPacket { s with mem := Table.setBytes s.mem pa data } cd (systemDie pa) .request data
  | .peer p => sendPacket (sendFrame { s with mem := Table.setBytes s.mem pa data } cd ci p (pa % 2 ^ 43) data) cd (ioOfPort p) .request data
  | .launch n q => launchWrite (sendPacket s cd n .request data) n q (if pa % 64 == 0 then data.length else 0) (bytesLine data)
  | .fstat => sendPacket s cd (systemDie pa) .request data
  | .absent => s

/-- The frame that a write to a peer's window has just sent notes its writers and the address spaces of its translation (R282, R287). -/
def tagFrame (s : State) (pa : Nat) (parties asids : List Nat) : State :=
  match place pa with
  | .peer p => modEth s p fun e =>
    match e.unacked.getLast? with
    | some f => { e with unacked := e.unacked.dropLast ++ [{ f with parties := parties, asids := asids }] }
    | none => e
  | _ => s

/-! ### The one read and the one write of every party -/

/-- Who makes an access: its micro-TLB, its address space, whether the U bit is checked, the graph whose
commit group it sees, whether the group takes its writes, and its codec counter set. -/
structure Ctx where
  mtlb : Nat
  root : BitVec 64
  user : Bool
  gid : Option Nat
  capture : Bool
  counter : Nat
  deriving DecidableEq, Repr, Inhabited

/-- The commit group of a context's graph. -/
def ctxGroup (s : State) (c : Ctx) : Option Group := (c.gid.bind (graph? s)).map fun g => g.group

/-- The bytes of a line that a group has captured: offset and byte. -/
def capturedIn (bytes : Table (Option Byte)) (ln : Nat) : List (Nat × Byte) :=
  (List.range 64).filterMap fun o => (bytes.get none (64 * ln + o)).map fun b => (o, b)

/-- A line with what a group has captured of it, as though that had performed: in a coded region merged, encoded and decoded again
(R267, R272, R295). A reader whose codec or key is another reads what the captured write, made under its own, leaves in the slot (R261). -/
def groupLine (s : State) (g : Group) (ln : Nat) (a : LineAttr) (l : Line) : Line :=
  match g.attrs.get none ln with
  | none => l
  | some q =>
    let bs := capturedIn g.bytes ln
    if q.codec == a.codec && q.key == a.key then (codecStore q.codec (mergeLine l bs)).2
    else peekLine (storeLine s ln ⟨q.codec, q.key, q.dedup⟩ bs q.hint 0 0) ln a

/-- A line as the parties of a graph see it (R295). -/
def viewLine (s : State) (gid : Option Nat) (ln : Nat) (a : LineAttr) (l : Line) : Line :=
  match gid.bind (graph? s) with
  | none => l
  | some g => groupLine s g.group ln a l

/-- FSTAT (R332, R334). -/
def fstat (s : State) : X :=
  (0 : BitVec 46) ++ (if s.io.fatal then s.io.cause else 0) ++ (if s.io.fatal then (0x7F : BitVec 8) else 0) ++
    (0 : BitVec 6) ++ BitVec.ofBool s.io.dumped ++ BitVec.ofBool s.io.ready

/-- The bytes at a physical address, as a load returns them (R245, R295), and the state after it. What a
host, a peer or the mailbox answers is a free value (DESIGN CHOICE, log 3). -/
def readPlace (s : State) (c : Ctx) (x : Xlat) (len hint : Nat) : List Byte × State :=
  match place x.pa with
  | .hbm =>
    let (l, s') := loadLine s (x.pa / 64) x.attr hint
    (((lineBytes (viewLine s c.gid (x.pa / 64) x.attr l)).drop (x.pa % 64)).take len, s')
  | .launch n q =>
    (((lineBytes ((lqstat (vget Queue.reset (dieAt s n).queues q)).setWidth 512)).drop (x.pa % 64)).take len, s)
  | .fstat => (((lineBytes ((fstat s).setWidth 512)).drop (x.pa % 8)).take len, s)
  | .peer p =>
    let (v, s') := fresh s
    ((lineBytes v).take len, receiveAnswer s' p ((lineBytes v).take len))
  | .host _ | .mailbox | .absent =>
    let (v, s') := fresh s
    ((lineBytes v).take len, s')

/-- A read that die `src` makes of another: the request, and the response with its data (R11, R13). -/
def sendRead (s : State) (src dest : Nat) (data : List Byte) : State :=
  sendPacket (sendPacket s src dest .request []) dest src .response data

/-- A read by the focused die, over Brunex where the address lies elsewhere (R11). -/
def readBytes (s : State) (c : Ctx) (x : Xlat) (len hint : Nat) : List Byte × State :=
  let (bs, t) := readPlace s c x len hint
  (bs, sendRead t s.cur.val (systemDie x.pa) bs)

/-- A number in a list of them. -/
def noteNat (n : Nat) (l : List Nat) : List Nat := if l.contains n then l else n :: l

/-- A line's capture after a write of a party under a hint (R319). -/
def captureLine (c : Ctx) (x : Xlat) (hint : Nat) (q : Option Capture) : Capture :=
  { codec := x.codec, key := x.key, dedup := x.dedup, hint := hint, counter := c.counter
    writers := noteNat c.counter ((q.map fun q => q.writers).getD [])
    asids := noteNat (rootAsid c.root) ((q.map fun q => q.asids).getD []) }

/-- Bytes taken by a graph's commit group from a party; a group that would pass 2^18 lines on a die aborts, and its owner takes
TX_OVERFLOW (R319, R320). -/
def captureBytes (s : State) (g : Graph) (c : Ctx) (x : Xlat) (data : List Byte) (hint : Nat) : State :=
  let bytes := data.zipIdx.foldl (fun t p => Table.set none (x.pa + p.2) (some p.1) t) g.group.bytes
  let attrs := (splitLines x.pa data).foldl (fun t p => Table.set none p.1 (some (captureLine c x hint (t.get none p.1))) t)
    g.group.attrs
  if 2 ^ 18 < (attrs.filter fun p => homeDie p.1 == homeDie (x.pa / 64)).length then
    postStage (abortGroup s g.gid 2 0) g.group.opener 0x40 4 0
  else modGraph s g.gid fun g => { g with group := { g.group with bytes := bytes, attrs := attrs } }

/-- The RC of a tree record's captured header after a write of bytes that takes its place: it is as the write gives it, at home too
(R232). -/
def baseAfter (pa : Nat) (data : List Byte) (b : Nat × Nat) : Nat × Nat :=
  let o := 64 * b.1 + 17
  if pa ≤ o && o + 2 ≤ pa + data.length then (b.1, bytesNat ((data.drop (o - pa)).take 2)) else b

/-- Bytes that a graph writes and its group does not take stand over what the group has captured before: inside the graph the
group's writes count as performed (R295, DESIGN CHOICE, log 21). -/
def refreshCaptured (s : State) (gid : Option Nat) (pa : Nat) (data : List Byte) : State :=
  match gid.bind (graph? s) with
  | none => s
  | some g =>
    if g.group.state != 1 && g.group.state != 2 then s else
      let bytes := data.zipIdx.foldl (fun t p =>
        if (t.get none (pa + p.2)).isSome then Table.set none (pa + p.2) (some p.1) t else t) g.group.bytes
      modGraph s g.gid fun g => { g with group := { g.group with bytes := bytes, refBase := g.group.refBase.map (baseAfter pa data) } }

/-- A write of a party: into its open commit group, nowhere once that group has aborted, else to
memory (R319, R320). -/
def writeBytes (s : State) (c : Ctx) (x : Xlat) (data : List Byte) (hint : Nat) : State :=
  let perform := tagFrame (performBytes s x.pa x.attr data hint s.cur.val c.counter false) x.pa [c.counter] [rootAsid c.root]
  match c.gid.bind (graph? s) with
  | some g =>
    if c.capture && g.group.state == 1 then captureBytes s g c x data hint
    else if c.capture && g.group.state == 3 then s
    else refreshCaptured perform c.gid x.pa data
  | none => perform

/-- Offsets and bytes in ascending order, as runs of bytes that follow one another. -/
def byteRuns : List (Nat × Byte) → List (Nat × List Byte)
  | [] => []
  | p :: l =>
    match byteRuns l with
    | [] => [(p.1, [p.2])]
    | q :: m => if q.1 == p.1 + 1 then (p.1, p.2 :: q.2) :: m else (p.1, [p.2]) :: q :: m

/-- A core's lines written since its last `fence.sys` (R287). -/
def noteWritten (s : State) (c : Nat) (pa : Nat) : State :=
  if (core s c).wrote.contains (pa / 64) then s else
    modCore s c fun k => { k with wrote := pa / 64 :: k.wrote }

/-- A header of a tree record, its RC counted from `base`, with the references that others have added or dropped at home, where RC is `now`
(R232). -/
def mergeRefs (now base : Nat) (v : Nat) : Nat :=
  let rc := (bits v 136 16 + now + 2 ^ 16 - base) % 2 ^ 16
  setBits (setBits v 136 16 rc) 154 1 (if 1 < rc then 1 else 0)

/-- A line of a released group performs: at its home as one operation under the hint of its last write, which counts to the set of the
party that made that (R245, R270, DESIGN CHOICE, log 67), or as the accesses it was written by, one for each run of bytes (R324); every
core that has written to it notes it (R287). -/
def releaseLine (s : State) (bytes : Table (Option Byte)) (base : Option Nat) (ln : Nat) (q : Capture) : State :=
  let got := capturedIn bytes ln
  let a : LineAttr := ⟨q.codec, q.key, q.dedup⟩
  let bs := match base with
    | none => got
    | some n =>
      let v := mergeRefs (bits (peekLine s ln a).toNat 136 16) n (bytesNat (got.map Prod.snd))
      (natBytes v 64).zipIdx.map fun p => (p.2, p.1)
  if place (64 * ln) == .hbm then
    q.writers.foldl (fun s w => noteWritten s w (64 * ln)) (performLine s ln a bs q.hint s.cur.val q.counter false)
  else (byteRuns bs).foldl (fun s p =>
    tagFrame (performBytes s (64 * ln + p.1) a p.2 q.hint s.cur.val q.counter false) (64 * ln + p.1) q.writers q.asids) s

/-- A group in STATE 2 is released: each line performs at its home, coded lines as one operation
(R321). -/
def releaseGroup (s : State) (gid : Nat) : State :=
  match graph? s gid with
  | none => s
  | some g =>
    if g.group.state == 2 then
      let s := modGraph s gid fun g => { g with group := Group.none }
      g.group.attrs.foldl (fun s p => (p.2.map fun q =>
        releaseLine s g.group.bytes ((g.group.refBase.find? fun b => b.1 == p.1).map Prod.snd) p.1 q).getD s) s
    else s

end Sys2Proof.Machine
end

