-- ==== Sys2Proof/Machine/Translate.lean ====
section
/-! DEFINITION. Address translation (R274 to R282): the walk, its checks in the order of R277, the
translation caches (R279), and the external attribute walk (R479). -/

namespace Sys2Proof.Machine

/-- The kind of an access (Table 17-4). -/
inductive Acc where
  | read | write | fetch
  deriving DecidableEq, Repr, Inhabited

/-- ACC of a retry-ring entry. -/
def Acc.num : Acc → Nat
  | .read => 0
  | .write => 1
  | .fetch => 2

/-- Why a translation gives no address. -/
inductive XFault where
  /-- PAGE at a level: the access goes to the retry ring (R281). -/
  | page (lvl : Nat)
  | code (c : Code)
  deriving DecidableEq, Repr

/-- Fields of a page-table entry (Table 17-3). -/
def pteV (e : X) : Bool := e.getLsbD 0
def pteLeaf (e : X) : Bool := e.getLsbD 1
def pteW (e : X) : Bool := e.getLsbD 2
def pteX (e : X) : Bool := e.getLsbD 3
def pteU (e : X) : Bool := e.getLsbD 4
def pteCont (e : X) : Nat := bits e.toNat 6 2
def pteDedup (e : X) : Bool := e.getLsbD 8
def pteCodec (e : X) : Nat := bits e.toNat 9 3
def pteKey (e : X) : Nat := bits e.toNat 52 8
def ptePa (e : X) : Nat := bits e.toNat 12 40 * 4096

/-- log2 of the own leaf size of a level, and of the group that CONT names (Table 17-1). -/
def leafShift (lvl : Nat) : Nat := 12 + 9 * lvl
def groupShift (lvl : Nat) (e : X) : Nat := leafShift lvl + 2 * pteCont e

/-- A physical address that R241 admits and that is not system space: where a table may lie (R277). -/
def tableOk (pa : Nat) : Bool := place pa == .hbm

/-- A reserved bit or a malformed field of an entry at a level (R277 step 2). -/
def pteReserved (lvl : Nat) (va : Nat) (e : X) : Bool :=
  bits e.toNat 60 4 != 0 || bits e.toNat 5 1 != 0 ||
  (if pteLeaf e then
    lvl == 4 || pteCont e == 3 || (lvl == 3 && pteCont e != 0) || pteCodec e == 7 ||
      ptePa e % 2 ^ leafShift lvl != 0 ||
      (pteCont e != 0 && (ptePa e / 2 ^ leafShift lvl) % 2 ^ (2 * pteCont e) !=
        (va / 2 ^ leafShift lvl) % 2 ^ (2 * pteCont e))
  else lvl == 0 || bits e.toNat 2 10 != 0 || bits e.toNat 52 12 != 0)

/-- Rights of a leaf for an access (R277 step 3). -/
def pteDenies (e : X) (acc : Acc) (user : Bool) : Bool :=
  (user && !pteU e) || (acc == .write && !pteW e) || (acc == .fetch && !pteX e)

/-- The address to which a leaf translates (R277, R278). -/
def leafXlat (size : Nat) (e : X) (va : Nat) : Xlat :=
  ⟨ptePa e / 2 ^ size * 2 ^ size + va % 2 ^ size, pteCodec e, pteKey e, pteDedup e⟩

/-- The result of a walk from a table: the level and the entry of a leaf, with the state after the reads
and the table entries met on the way; or the fault. (DESIGN CHOICE, log 27) -/
def walkFrom (s : State) (va : Nat) (base : Nat) : Nat → List (Nat × X) →
    State × List (Nat × X) × Except XFault (Nat × X)
  | 0, met => (s, met, .error (.code 0x22))
  | n + 1, met =>
    let lvl := n
    if !tableOk base then (s, met, .error (.code 0x21)) else
      let pa := base + 8 * ((va / 2 ^ leafShift lvl) % 512)
      let (l, s) := loadLine s (pa / 64) ⟨0, 0, false⟩ 0
      let e : X := BitVec.ofNat 64 (bits l.toNat (8 * (pa % 64)) 64)
      let s := sendRead s s.cur.val (homeDie (pa / 64)) (natBytes e.toNat 8)
      if !pteV e then (s, met, .error (.page lvl))
      else if pteReserved lvl va e then (s, met, .error (.code 0x22))
      else if pteLeaf e then (s, met, .ok (lvl, e))
      else walkFrom s va (ptePa e) n (met ++ [(lvl, e)])

/-- Table base of an ASROOT value (Table 17-2). -/
def rootBase (root : X) : Nat := bits root.toNat 12 40 * 4096

/-- A cached leaf that covers an address. -/
def tlbHit (asid va : Nat) (l : List Tlb) : Option Tlb :=
  l.find? fun t => t.asid == asid && va / 2 ^ t.size == t.page

/-- A leaf put at the end of a cache of `cap` places; the oldest leaves when it is full (DESIGN CHOICE, log 13). -/
def tlbAdd (cap : Nat) (t : Tlb) (l : List Tlb) : List Tlb :=
  if l.contains t then l else (l ++ [t]).drop (l.length + 1 - cap)

/-- A leaf put into the shared TLB, 8-way: its set, of 512, is its page number's; the oldest of a full set leaves (R279,
DESIGN CHOICE, log 13). -/
def tlbAddShared (t : Tlb) (l : List Tlb) : List Tlb :=
  let same := fun (u : Tlb) => u.page % 512 == t.page % 512
  if l.contains t then l else
    match l.filter same with
    | o :: m => if m.length < 7 then l ++ [t] else l.erase o ++ [t]
    | [] => l ++ [t]

/-- No micro-TLB: an access of a party that has none (R279). -/
def noTlb : Nat := 73

/-- The deepest cached table entry for an address (R279). -/
def walkHit (asid va : Nat) (l : List WalkEntry) : Option WalkEntry :=
  [1, 2, 3, 4].findSome? fun lvl =>
    l.find? fun w => w.asid == asid && w.level == lvl && va / 2 ^ leafShift lvl == w.tag

/-- A table entry put in the walk cache of 64 places. -/
def walkAdd (w : WalkEntry) (l : List WalkEntry) : List WalkEntry :=
  if l.contains w then l else (l ++ [w]).drop (l.length + 1 - 64)

/-- A leaf whose physical address R241 admits, without which every access to it faults (R277 step 3). -/
def leafPlaced (va : Nat) (t : Tlb) : Bool := place (leafXlat t.size t.pte va).pa != .absent

/-- A leaf that the access may use: its rights and its physical address (R277 step 3). -/
def leafOk (acc : Acc) (user : Bool) (va : Nat) (t : Tlb) : Bool :=
  !pteDenies t.pte acc user && leafPlaced va t

/-- A leaf put into micro-TLB `n`. -/
def addMicro (n : Nat) (t : Tlb) (d : Die) : Die :=
  if noTlb ≤ n then d else { d with utlb := d.utlb.set [] n (tlbAdd 32 t (d.utlb.get [] n)) }

/-- The leaf for an address: from the micro-TLB, the shared TLB, or a walk, which fills the caches
(R279). A faulting entry is never cached (R277); `ok` is the check of step 3. -/
def findLeaf (s : State) (mtlb : Nat) (root : X) (ok : Tlb → Bool) (va : Nat) : State × Except XFault Tlb :=
  let asid := rootAsid root
  let d := die s
  let check := fun (t : Tlb) (s s' : State) => if ok t then (s', .ok t) else (s, .error (.code 0x21))
  match tlbHit asid va (d.utlb.get [] mtlb) with
  | some t => check t s s
  | none =>
    match tlbHit asid va d.tlb with
    | some t => check t s (modDie s (addMicro mtlb t))
    | none =>
      let (base, levels) := match walkHit asid va d.walk with
        | some w => (ptePa w.pte, w.level)
        | none => (rootBase root, 5)
      match walkFrom s va base levels [] with
      | (s, _, .error f) => (s, .error f)
      | (s, met, .ok (lvl, e)) =>
        let size := groupShift lvl e
        let t : Tlb := ⟨asid, size, va / 2 ^ size, e⟩
        check t s <| modDie s fun d => addMicro mtlb t
          { d with
            tlb := tlbAddShared t d.tlb
            walk := met.foldl (fun l m => walkAdd ⟨asid, m.1, va / 2 ^ leafShift m.1, m.2⟩ l) d.walk }

/-- Translation of a virtual address for an access of a context (R274, R277). -/
def translate (s : State) (c : Ctx) (acc : Acc) (va : Nat) : State × Except XFault Xlat :=
  if 2 ^ 57 ≤ va then (s, .error (.code 0x21)) else
    match findLeaf s c.mtlb c.root (leafOk acc c.user va) va with
    | (s, .error f) => (s, .error f)
    | (s, .ok t) => (s, .ok (leafXlat t.size t.pte va))

/-- Attributes of a host or peer access at a physical address, by the external attribute walk of the
home die (R479). -/
def externalAttr (s : State) (pa : Nat) : State × LineAttr :=
  let n := homeDie (pa / 64)
  let xattr := (dieAt s n).xattr
  if xattr.getLsbD 63 && decide (n < 24) then
    let cur := s.cur
    let s := { s with cur := Fin.ofNat 24 n }
    match findLeaf s noTlb xattr (fun _ => true) pa with
    | (s, .ok t) => ({ s with cur := cur }, ⟨pteCodec t.pte, pteKey t.pte, pteDedup t.pte⟩)
    | (s, .error _) => ({ s with cur := cur }, ⟨0, 0, false⟩)
  else (s, ⟨0, 0, false⟩)

/-- TLBINV on one die (R282): every entry, those of an ASID, or the leaves of an ASID covering an address
with the walk entries of that ASID. -/
def invalidateDie (keepLeaf : Tlb → Bool) (keepWalk : WalkEntry → Bool) (d : Die) : Die :=
  { d with
    tlb := d.tlb.filter keepLeaf
    utlb := (d.utlb.map fun p => (p.1, p.2.filter keepLeaf)).filter fun p => p.2 != []
    walk := d.walk.filter keepWalk }

/-- TLBINV acts on every die of the module (R282). -/
def invalidateTlbs (s : State) (keepLeaf : Tlb → Bool) (keepWalk : WalkEntry → Bool) : State :=
  { s with dies := s.dies.map (invalidateDie keepLeaf keepWalk) }

end Sys2Proof.Machine
end

