-- ==== Sys2Proof/WellFormed.lean ====
section
/-! DEFINITION. Which instructions are well formed: a word that its encoding admits and that is legal in its context
(R85), and an event whose agent exists. -/

namespace Sys2Proof

open Sys2Proof.Machine

/-- The agent that an event names exists: regions, elements, operator units, converters, ports, streams, queues,
cores, dies and links have the numbers that the organisation gives (R11 to R28). -/
def agentOk : Instr → Bool
  | .nop _ => true
  | .halt _ => true
  | .trap _ _ => true
  | .eret _ => true
  | .mfsr _ _ _ => true
  | .mtsr _ _ _ => true
  | .launch _ _ _ _ => true
  | .tlaunch _ _ _ _ => true
  | .loadcfg _ _ => true
  | .reconf _ => true
  | .shrink _ _ _ _ => true
  | .shrinkQuery _ _ _ _ => true
  | .csave _ _ _ _ _ => true
  | .crest _ _ _ => true
  | .wdogRestart _ _ _ => true
  | .wdogReport _ _ _ => true
  | .wdogNextStep _ _ _ => true
  | .wdogSuspend _ _ _ => true
  | .phcrd _ _ _ => true
  | .sslotBind _ _ _ _ => true
  | .sslotRefresh _ _ _ _ => true
  | .sslotEvict _ _ _ => true
  | .rtywSupply _ _ _ _ => true
  | .rtywReplay _ _ _ _ => true
  | .rtypop _ _ => true
  | .tlbinvAll _ => true
  | .tlbinvAsid _ _ => true
  | .tlbinvAddress _ _ _ => true
  | .ifence _ => true
  | .vcset _ _ _ => true
  | .tqset _ _ _ => true
  | .tqtest _ _ _ => true
  | .add _ _ _ _ => true
  | .sub _ _ _ _ => true
  | .mul _ _ _ _ => true
  | .and _ _ _ _ => true
  | .or _ _ _ _ => true
  | .xor _ _ _ _ => true
  | .shl _ _ _ _ => true
  | .shr _ _ _ _ => true
  | .sra _ _ _ _ => true
  | .mulh _ _ _ _ _ => true
  | .div _ _ _ _ _ => true
  | .rem _ _ _ _ _ => true
  | .min _ _ _ _ _ => true
  | .max _ _ _ _ _ => true
  | .clz _ _ _ => true
  | .popc _ _ _ => true
  | .setc _ _ _ _ _ _ => true
  | .sel _ _ _ _ _ => true
  | .bfx _ _ _ _ _ _ => true
  | .bfi _ _ _ _ _ _ => true
  | .lea _ _ _ _ _ => true
  | .addImm _ _ _ _ => true
  | .andImm _ _ _ _ => true
  | .orImm _ _ _ _ => true
  | .xorImm _ _ _ _ => true
  | .shlImm _ _ _ _ => true
  | .shrImm _ _ _ _ => true
  | .sraImm _ _ _ _ => true
  | .setcImm _ _ _ _ _ _ => true
  | .movi _ _ _ => true
  | .movh _ _ _ _ => true
  | .fadd _ _ _ _ _ _ => true
  | .fsub _ _ _ _ _ _ => true
  | .fmul _ _ _ _ _ _ => true
  | .fdiv _ _ _ _ _ _ => true
  | .ffma _ _ _ _ _ _ _ => true
  | .fsqrt _ _ _ _ _ => true
  | .fmin _ _ _ _ _ => true
  | .fmax _ _ _ _ _ => true
  | .fsetc _ _ _ _ _ _ => true
  | .fcvt _ _ _ _ _ _ => true
  | .fclass _ _ _ _ => true
  | .vadd _ _ _ _ _ _ _ => true
  | .vsub _ _ _ _ _ _ _ => true
  | .vmul _ _ _ _ _ _ _ => true
  | .vfma _ _ _ _ _ _ _ _ => true
  | .vmin _ _ _ _ _ => true
  | .vmax _ _ _ _ _ => true
  | .vabs _ _ _ _ _ => true
  | .vneg _ _ _ _ _ => true
  | .vexp _ _ _ _ _ => true
  | .vlog _ _ _ _ _ => true
  | .vrcp _ _ _ _ _ => true
  | .vrsq _ _ _ _ _ => true
  | .vsetc _ _ _ _ _ _ => true
  | .vsel _ _ _ _ _ _ => true
  | .vand _ _ _ _ => true
  | .vor _ _ _ _ => true
  | .vxor _ _ _ _ => true
  | .vmov _ _ _ => true
  | .vshl _ _ _ _ _ => true
  | .vshr _ _ _ _ _ _ => true
  | .vdot _ _ _ _ _ _ _ _ => true
  | .vred _ _ _ _ _ _ _ => true
  | .vscan _ _ _ _ _ _ _ => true
  | .vshuf _ _ _ _ _ => true
  | .vbcast _ _ _ _ _ => true
  | .vextr _ _ _ _ _ _ => true
  | .vins _ _ _ _ _ _ => true
  | .vpack _ _ _ _ _ _ _ => true
  | .vunpk _ _ _ _ _ _ _ => true
  | .vcvt _ _ _ _ _ _ => true
  | .vqnt _ _ _ _ _ _ _ _ => true
  | .vdqnt _ _ _ _ _ _ _ => true
  | .mmode _ _ _ => true
  | .wload _ _ _ _ _ => true
  | .mma _ _ _ _ _ _ _ => true
  | .mmasp _ _ _ _ _ _ _ => true
  | .mmeta _ _ => true
  | .accz _ _ _ => true
  | .accld _ _ _ _ _ => true
  | .accst _ _ _ _ _ _ => true
  | .accrd _ _ _ _ _ => true
  | .accwr _ _ _ _ _ => true
  | .prmld _ _ _ _ => true
  | .prmap _ _ _ _ _ => true
  | .scans _ _ _ => true
  | .difld _ _ _ => true
  | .difmul _ _ _ _ _ => true
  | .sbpfin _ _ _ _ _ _ => true
  | .wsort _ _ _ _ _ => true
  | .yclr _ _ => true
  | .ld _ _ _ _ _ _ _ _ => true
  | .st _ _ _ _ _ _ _ _ => true
  | .vld _ _ _ _ _ _ _ _ => true
  | .vst _ _ _ _ _ _ _ _ => true
  | .ldw _ _ _ _ _ _ _ _ _ => true
  | .vldw _ _ _ _ _ _ _ _ _ => true
  | .vldx _ _ _ _ _ _ _ _ => true
  | .vstx _ _ _ _ _ _ _ _ => true
  | .bufput _ _ _ _ _ _ => true
  | .bufget _ _ _ _ _ => true
  | .ldsp _ _ _ _ _ _ => true
  | .stsp _ _ _ _ _ _ => true
  | .pref _ _ _ _ _ => true
  | .shadow _ _ _ _ _ _ => true
  | .unshadow _ _ _ => true
  | .clean _ _ _ _ => true
  | .inval _ _ _ _ => true
  | .send _ _ _ => true
  | .recv _ _ _ => true
  | .vsend _ _ _ => true
  | .vrecv _ _ _ => true
  | .csend _ _ _ => true
  | .crecv _ _ _ => true
  | .sbind _ _ _ _ _ => true
  | .sq _ _ _ _ => true
  | .scopy _ _ _ _ _ _ _ => true
  | .scancel _ _ _ _ => true
  | .ssub _ _ _ _ _ => true
  | .sdist _ _ _ => true
  | .sstat _ _ _ _ _ => true
  | .opset _ _ _ _ => true
  | .opget _ _ _ _ => true
  | .route _ _ _ _ => true
  | .tinj _ _ _ _ _ => true
  | .tdrain _ _ _ => true
  | .tconv _ _ _ _ => true
  | .tappend _ _ _ _ _ => true
  | .tsplit _ _ _ _ _ => true
  | .tmerge _ _ _ _ _ => true
  | .tfork _ _ _ _ => true
  | .tevict _ _ _ _ _ => true
  | .tevictRelease _ _ _ _ _ => true
  | .tquery _ _ _ _ _ _ => true
  | .tnode _ _ _ _ _ _ _ => true
  | .pklook _ _ _ _ _ _ => true
  | .smpdrawSample _ _ _ _ _ => true
  | .smpdrawVerify _ _ _ _ _ _ => true
  | .acpt _ _ _ _ _ _ => true
  | .gmstep _ _ _ _ => true
  | .fence _ _ => true
  | .frame _ => true
  | .rmws _ _ _ _ _ _ _ _ => true
  | .redseq _ _ _ _ _ _ => true
  | .amo _ _ _ _ _ _ _ => true
  | .bara _ _ _ => true
  | .barw _ _ => true
  | .marm _ _ => true
  | .mwait _ _ _ => true
  | .xbegin _ => true
  | .xend _ _ => true
  | .xabort _ _ => true
  | .br _ _ => true
  | .bc _ _ _ _ _ _ => true
  | .jal _ _ _ => true
  | .jalr _ _ _ _ => true
  | .istartFreshStart _ _ _ => true
  | .istartResume _ _ _ => true
  | .istartCancel _ _ _ => true
  | .eflagsClear _ _ _ => true
  | .ufinfoRead _ _ _ => true
  | .ucfgRead _ _ _ => true
  | .lqstatClearDrops _ _ _ => true
  | .shctlRun _ _ _ => true
  | .shctlFreeze _ _ _ => true
  | .shctlReset _ _ _ => true
  | .windowDataArrival g e _ => decide (g < 32) && decide (e < 128)
  | .windowClose g e _ => decide (g < 32) && decide (e < 128)
  | .freezeLimit g => decide (g < 32)
  | .invocationEnd g => decide (g < 32)
  | .cueRelease _ => true
  | .understudySwitch _ => true
  | .loadcfgInstall g => decide (g < 32)
  | .reconfTokenPass _ => true
  | .scoreFiring u => decide (u < 768)
  | .descendFiring u => decide (u < 768)
  | .treeupdFiring u => decide (u < 768)
  | .queryPin u => decide (u < 768)
  | .queryUnpin u => decide (u < 768)
  | .pkeyFiring u => decide (u < 768)
  | .cascellHeader u => decide (u < 768)
  | .cascellCollect u => decide (u < 768)
  | .cascellDrain u => decide (u < 768)
  | .cumselSampleFiring u => decide (u < 768)
  | .cumselVerifyFiring u => decide (u < 768)
  | .acceptFiring u => decide (u < 768)
  | .grammarStepFiring u => decide (u < 768)
  | .grammarMaskFiring u => decide (u < 768)
  | .gatherFiring u => decide (u < 768)
  | .gatherRowArrival u _ => decide (u < 768)
  | .reduceFiring u => decide (u < 768)
  | .quantFiring u => decide (u < 768)
  | .switchSteer u => decide (u < 768)
  | .switchMerge u => decide (u < 768)
  | .switchCopy u => decide (u < 768)
  | .unitTokenEmit u => decide (u < 768)
  | .converterTokenIn k => decide (k < 64)
  | .remoteBufputArrival g => decide (g < 32)
  | .scalarChannelArrival _ _ => true
  | .vectorChannelArrival _ _ => true
  | .distributorSendBeat st _ => decide (st < 256)
  | .streamProducerStart g p => decide (g < 32) && decide (p < 64)
  | .streamCommandFinish g p => decide (g < 32) && decide (p < 64)
  | .redseqPlaceFree _ => true
  | .mwaitReturn c => decide (c < 33)
  | .barwReturn c => decide (c < 33)
  | .asyncEventTake c => decide (c < 33)
  | .graphStart q => decide (q < 64)
  | .graphEnd _ => true
  | .wdogPreempt _ => true
  | .wdogKill _ => true
  | .wdogFence _ => true
  | .saveComplete => true
  | .softError => true
  | .fatalDumpDone => true
  | .powerAverageHigh n => decide (n < 24)
  | .powerFatal n => decide (n < 24)
  | .temperatureFatal n => decide (n < 24)
  | .powerOnReset => true
  | .bringUpComplete => true
  | .attestationRequest _ => true
  | .attestationReport => true
  | .hostWrite link _ _ => decide (link < 2)
  | .hostRead link _ _ => decide (link < 2)
  | .peerWrite port _ _ _ => decide (port < 48)
  | .peerRead port _ _ => decide (port < 48)
  | .brunexPacketArrival link => decide (link < 432)
  | .linkRetrain link => decide (link < 108)
  | .ethernetLinkEvent port => decide (port < 48)
  | .ptpEventTimestamp port => decide (port < 48)
  | .powerAverageNormal n => decide (n < 24)
  | .hostLaunchWrite q _ _ => decide (q < 64)
  | .silenceEviction _ => true
  | .pageTableWalk _ _ => true
  | .codecBlockOperation _ _ _ party _ => decide (party < 34)
  | .redseqArrival _ => true
  | .prefComplete _ => true

/-- A word whose fields its encoding admits. -/
def encodable (i : Instr) : Bool := (encode i).isSome

/-- Well formed in a context: the agent exists, and a word passes every check of R85. -/
def Instr.wf (k : Kind) (i : Instr) : Bool := agentOk i && (!isWord i || (legal k i).isNone)

end Sys2Proof
end

