-- ==== Sys2Proof/Machine/Ops.lean ====
section
/-! DEFINITION. The operations every meaning is built from: the checks of R85, retirement, taking a trap and
returning from one (R308 to R311), the retry ring (R281, R413), instruction fetch (R68 to R70), and the
translated read and write of a core. -/

namespace Sys2Proof.Machine

/-! ### Contexts of access -/

/-- The context of accesses of core `c` (R275). -/
def coreCtx (s : State) (c : Nat) : Ctx :=
  { mtlb := 32 + c, root := coreRoot s c, user := c != 32,
    gid := if c == 32 then none else (region s c).owner, capture := true, counter := c }

/-- The context of accesses of the elements of region `g` (R275). -/
def elemCtx (s : State) (g : Nat) : Ctx :=
  { mtlb := g, root := (core s g).asroot, user := true, gid := (region s g).owner, capture := true, counter := g }

/-! ### The place of an element word in its schedule (R34) -/

/-- Region cycle, relative to the invocation's start, in which the word of column `c` was handed out. -/
def relCycle (r : Region) (c : Nat) : Nat := r.rc - c - ((r.inv.bind fun v => v.c0).getD 0)
/-- Ring slot of the word that column `c` executes. -/
def slotOf (r : Region) (c : Nat) : Nat := relCycle r c % r.ii
/-- Stage of the word that element (row, c) executes. -/
def stageOf (r : Region) (row c : Nat) : Nat := (r.stage.get 0 (32 * row + slotOf r c)).toNat
/-- Iteration of the word that element (row, c) executes (R34, R36). -/
def iterOf (r : Region) (row c : Nat) : Nat :=
  relCycle r c / r.ii - stageOf r row c + ((r.inv.map fun v => v.first).getD 0)
/-- Schedule position of the word that element (row, c) executes. -/
def posOf (r : Region) (row c : Nat) : Nat := stageOf r row c * r.ii + slotOf r c

/-- Iteration and schedule position of the executing word. -/
def myIter (s : State) : Nat := iterOf (region s (myRegion s)) (myRow s) (myCol s)
def myPos (s : State) : Nat := posOf (region s (myRegion s)) (myRow s) (myCol s)

/-- Valid count and tile predicates that the invocation sampled (R37). -/
def sampledVc (r : Region) : BitVec 32 := (r.inv.map fun v => v.vc).getD r.vc
def sampledTq (r : Region) : BitVec 8 := (r.inv.map fun v => v.tq).getD r.tq
/-- Tile predicate `n`; tq0 is always true (R37). -/
def tilePred (r : Region) (n : Nat) : Bool := n == 0 || (sampledTq r).getLsbD n

/-! ### The checks of R85 -/

/-- The outcome of steps 1 to 5 of R85. -/
inductive Gate where
  | run
  | skip
  | stop (c : Code)
  deriving DecidableEq, Repr

/-- The predicate of a header is false (R39). -/
def predFalse (r : Region) (h : Hdr) : Bool := tilePred r h.qsel.toNat == (h.qneg == 1)

/-- The word retires without effect: a false predicate, a skipped iteration (R38), or a position below
the re-entry position of a resumed iteration (R55). -/
def elemSkips (s : State) (h : Hdr) : Bool :=
  let r := region s (myRegion s)
  let i := myIter s
  predFalse r h || decide ((sampledVc r).toNat ≤ i) ||
    decide (myPos s < (r.inv.map fun v => v.resume.get 0 i).getD 0)

/-- Steps 1 to 5 of R85 for the word of an instruction. -/
def gate (i : Instr) (s : State) : Gate :=
  if kindOf s == .elem && elemSkips s (header i) then .skip
  else match legal (kindOf s) i with
    | some c => .stop c
    | none => .run

/-! ### Faults of elements -/

/-- A discarding fault of the executing element, for the end of the cycle (R51). -/
def elemFault (s : State) (c : Code) (cause : Nat) : State :=
  let rec_ : FaultRec := ⟨myIter s, myRow s, myCol s, myPos s, c, cause⟩
  modRegion s (myRegion s) fun r => { r with faults := r.faults ++ [rec_] }

/-! ### The fatal state (R312, R334) -/

/-- The work in flight in a region: what its words have begun and not completed (R312). -/
def discardInFlight (r : Region) : Region :=
  { r with
    hold := [], amoWait := [], beats := [], rmwBusy := [], portUse := [], portTurn := [], travel := [], faults := []
    elems := r.elems.map fun e => { e with pend := [], wins := [] }
    ports := r.ports.map fun p => { p with queue := [] } }

/-- The work in flight of a die, and its launch queues, emptied (R312). -/
def stopDie (d : Die) : Die :=
  { d with
    queues := d.queues.map fun q => { q with entries := [] }
    regions := d.regions.map discardInFlight
    streams := d.streams.map fun _ => { producer := none, subs := [], started := false, replay := [], read := 0, total := 0 }
    units := d.units.map fun u => { u with out := [], rows := [], tile := none }
    graphs := d.graphs.map fun g => { g with chans := g.chans.map fun c => { c with flight := [] } }
    reds := [], prefs := [], retry := [], save := none }

/-- Every die stops, its work in flight is discarded and its launch queues are emptied; FSTAT and the MSI tell the hosts. (DESIGN
CHOICE, log 58) -/
def enterFatal (s : State) (cause : Nat) : State :=
  if s.io.fatal then s else
  { s with
    io := { s.io with fatal := true, cause := BitVec.ofNat 2 cause, msi := s.io.msi ++ [(0, 0), (1, 0)],
                       eth := s.io.eth.map fun p => (p.1, { p.2 with unacked := [] }) }
    dies := s.dies.map stopDie
    links := s.links.map fun p => (p.1, { p.2 with wire := [], queues := Vector.replicate 4 [] }) }

/-! ### Instruction fetch -/

/-- Word indices at or above this name no word (R69). -/
def pcLimit : Nat := 6 * 2 ^ 51
/-- Virtual address of the code line of a word index (R69). -/
def codeLine (idx : Nat) : Nat := 64 * (idx / 6)
/-- Word `idx mod 6` of a code line (R68). -/
def lineWord (l : Line) (idx : Nat) : Word := l.extractLsb' (80 * (idx % 6)) 80

/-- The code line that core `c` fetches for a word index, through its L1 (R70, R283, R296); a line that RTYW
supplied is executed once and not cached (R415). (DEDUCED, log 18) -/
def fetchLine (s : State) (c idx : Nat) : State × Except XFault Line :=
  let k := core s c
  let va := codeLine idx
  match k.supplied.find? fun p => p.1 == va && p.2.length == 64 with
  | some p => (s, .ok (bytesLine p.2))
  | none =>
    match translate s (coreCtx s c) .fetch va with
    | (s, .error f) => (s, .error f)
    | (s, .ok x) =>
      match k.l1i.get none (x.pa / 64) with
      | some l => (s, .ok l)
      | none => if !reachable x.pa 64 then (s, .error (.code 0x21)) else
        let (bs, s) := readBytes s (coreCtx s c) x 64 0
        let l := bytesLine bs
        let held := (ctxGroup s (coreCtx s c)).any fun g => (g.attrs.get none (x.pa / 64)).isSome
        if place x.pa == .hbm && !held then
          (modCore s c fun k => { k with l1i := k.l1i.set none (x.pa / 64) (some l) }, .ok l)
        else (s, .ok l)

/-- The word at a word index for core `c` (R68, R69). -/
def fetchWord (s : State) (c idx : Nat) : State × Except XFault Word :=
  if pcLimit ≤ idx then (s, .error (.code 0x21)) else
    match fetchLine s c idx with
    | (s, .error f) => (s, .error f)
    | (s, .ok l) => if bits l.toNat 480 32 != 0 then (s, .error (.code 0x01)) else (s, .ok (lineWord l idx))

/-! ### Taking a trap, and returning -/

/-- TCAUSE (Table 19-5). -/
def tcauseOf (e : Event) : X :=
  (0 : BitVec 32) ++ e.job ++ BitVec.ofBool e.more ++ e.region ++ e.src ++ BitVec.ofBool e.async ++ e.code

/-- The trap registers written and the handler entered: TEPC, TCAUSE, TVAL, INH, pc (R308). -/
def enterHandler (s : State) (c : Nat) (e : Event) (epc : BitVec 54) : State :=
  modCore s c fun k =>
    { k with tepc := epc, tcause := tcauseOf e, tval := e.tval, inh := true, pc := k.tvec.setWidth 54,
             run := .running, wait := .none, supplied := [], issued := none, loading := false }

/-- Escalation of stagehand `g`: frozen at its word boundary, its own trap registers unchanged, and a trap
with SRC 6 for the manager with the code, word index and value of the fault (R310). -/
def escalate (s : State) (g : Nat) (code : Code) (epc : BitVec 54) (tval : X) (df : Bool) : State :=
  let s := modCore s g fun k => { k with frozen := true, freezeReq := false, df := k.df || df, wait := .none }
  postMgr s code.toNat 6 g tval epc

/-- An event of the manager handed to firmware (R311, DESIGN CHOICE, log 6). -/
def toFirmware (s : State) (e : Event) (stop : Bool) : State :=
  let s := modDie s fun d => { d with fwEvents := d.fwEvents ++ [e] }
  if stop then modCore s 32 fun k => { k with run := .firmware, wait := .none } else s

/-- TAKING A TRAP in stagehand `g` (R308, R310). -/
def stageTrap (s : State) (g : Nat) (e : Event) (epc : BitVec 54) : State :=
  let k := core s g
  if !k.tvec.getLsbD 63 || k.inh then escalate s g e.code epc e.tval false else
    let h := bits k.tvec.toNat 0 54
    match fetchWord s g h with
    | (_, .error _) => escalate s g 0x70 (BitVec.ofNat 54 h) (BitVec.ofNat 64 (codeLine h)) true
    | (s, .ok _) => enterHandler s g e epc

/-- The word that the manager's TEPC names for an event: that of an escalated fault (R310), and otherwise, as after a HALT and
in an MWAIT, the manager's next word (R304, R307, R393, DEDUCED, log 32). -/
def managerEpc (k : Core) (e : Event) : BitVec 54 :=
  if e.src == 6 && k.run == .running && k.wait == .none then e.epc else k.pc

/-- TAKING A TRAP in the manager (R308, R311). -/
def managerTrap (s : State) (e : Event) (epc : BitVec 54) : State :=
  let k := core s 32
  if !k.tvec.getLsbD 63 || k.inh then toFirmware s e false else
    match fetchWord s 32 (bits k.tvec.toNat 0 54) with
    | (_, .error _) => enterFatal s 0
    | (s, .ok _) => enterHandler s 32 e epc

/-- The record of a fault of core `c`'s own word. -/
def ownEvent (s : State) (c : Nat) (code : Code) (tval : X) : Event :=
  { code := code, src := 0, region := if c < 32 then BitVec.ofNat 5 c else 0, tval := tval, epc := (core s c).pc,
    async := false, more := false, job := if c < 32 then jobOf s c else 0 }

/-- A fault of core `c`'s own word: precise in a stagehand (R308), to firmware in the manager (R311). -/
def coreFault (s : State) (c : Nat) (code : Code) (tval : X) : State :=
  let e := ownEvent s c code tval
  if c == 32 then toFirmware s e true else stageTrap s c e (core s c).pc

/-- RETURNING FROM A TRAP: pc := TEPC, INH := 0 (R308). -/
def returnFromTrap (s : State) (c : Nat) : State :=
  modCore s c fun k => { k with pc := k.tepc, inh := false }

/-! ### The retry ring -/

/-- What a retry entry records (Table 17-4). -/
structure RetryReq where
  who : Requester
  src : Nat
  acc : Nat
  lvl : Nat
  va : Nat
  size : Nat
  ty : Nat
  dst : Nat
  region : Nat
  row : Nat
  col : Nat
  unit : Nat
  root : X
  /-- The access is the index read of a shadow window (R179). -/
  index : Bool
  deriving DecidableEq, Repr

/-- The 32 bytes of a retry entry (Table 17-4). -/
def retryBytes (slot : Nat) (q : RetryReq) : List Byte :=
  natBytes (q.va + 2 ^ 152 * q.size + 2 ^ 160 * q.ty + 2 ^ 164 * q.dst + 2 ^ 170 * q.unit + 2 ^ 180 * q.col +
    2 ^ 184 * q.row + 2 ^ 187 * q.region + 2 ^ 192 * q.src + 2 ^ 195 * q.acc + 2 ^ 197 * q.lvl + 2 ^ 208 * slot) 32

/-- The entry written at its slot of the ring (R281). -/
def writeRetry (s : State) (slot : Nat) (q : RetryReq) : State :=
  performBytes s (bits (die s).rtybase.toNat 15 37 * 2 ^ 15 + 32 * slot) ⟨0, 0, false⟩ (retryBytes slot q) 0
    s.cur.val 32 false

/-- The lowest slot that no open entry has. (DESIGN CHOICE, log 19) -/
def freeSlot (l : List Retry) : Nat :=
  ((List.range 1024).find? fun n => l.all fun r => r.slot != n).getD 0

/-- A PAGE fault becomes an entry of the ring and an event at the manager; a requester that finds the ring full
gets none (R281, R413). -/
def postRetry (s : State) (q : RetryReq) : Option (Nat × State) :=
  let open_ := (die s).retry
  if 1024 ≤ open_.length then none else
    let slot := freeSlot open_
    let s := modDie s fun d => { d with retry := d.retry ++
      [⟨slot, q.who, q.acc, q.va, q.size, q.root, q.index, false⟩] }
    let s := writeRetry s slot q
    some (slot, postMgr s 0x20 0 q.region (BitVec.ofNat 64 slot) 0)

/-- Retry entries withdrawn (R50). -/
def withdrawRetry (s : State) (p : Retry → Bool) : State :=
  modDie s fun d => { d with retry := d.retry.filter fun r => !p r }

/-! ### Words -/

/-- Why a word does not complete. -/
inductive Stop where
  /-- A fault, with TVAL in a core. -/
  | trap (c : Code) (tval : X)
  /-- SCHED_MISS in an element, with its cause (Table 2-7). -/
  | miss (cause : Nat)
  /-- PAGE: kind of access, level, address, size, type tag and destination specifier (R281). -/
  | page (acc : Acc) (lvl va size ty dst : Nat)
  /-- A core waits and its word stands (R89). -/
  | hold
  deriving DecidableEq, Repr

/-- The core goes on to the next word. -/
def advance (s : State) : State :=
  modCore s (myCore s) fun k => { k with pc := k.pc + 1, supplied := [], issued := none }

/-- A core's word that takes PAGE waits for its retry entry, or asks for one again; its access belongs to the address space in which it
was issued (R275); the manager's goes to firmware (R281). -/
def corePage (s : State) (acc : Acc) (lvl va size ty dst : Nat) : State :=
  let c := myCore s
  if c == 32 then coreFault s 32 0x20 (BitVec.ofNat 64 va) else
    let root := coreRoot s c
    let from_ := some (acc == .fetch, root)
    match postRetry s ⟨.core c, 1, acc.num, lvl, va, size, ty, dst, c, 0, 0, 0, root, false⟩ with
    | none => modCore s c fun k => { k with issued := from_ }
    | some (slot, s) => modCore s c fun k => { k with wait := .retry slot, issued := from_ }

/-- The outcome of a core's word. -/
def coreOutcome (s : State) (r : Except Stop State) : State :=
  match r with
  | .ok s' => s'
  | .error (.trap c v) => coreFault s (myCore s) c v
  | .error (.page acc lvl va size ty dst) => corePage s acc lvl va size ty dst
  | .error (.miss _) => s
  | .error .hold => s

/-- The retirement of an element's word with its effects (R88); a restart mark counts when it retires in
column 15 (R53). -/
def elemRetire (i : Instr) (s : State) (fx : List Fx) : State :=
  let rc := (region s (myRegion s)).rc
  let fx := if (header i).rstp == 1 && myCol s == 15 then fx ++ [.mark] else fx
  let iter := myIter s
  let pos := myPos s
  modMyElem s fun e =>
    let ret := max (rc + latency i - 1) e.lastRet
    { e with pend := e.pend ++ [⟨rc, ret, iter, pos, fx⟩], lastRet := ret }

/-- The outcome of an element's word. -/
def elemOutcome (i : Instr) (s : State) (r : Except Stop (State × List Fx)) : State :=
  match r with
  | .ok (s', fx) => elemRetire i s' fx
  | .error (.trap c _) => elemFault s c 0
  | .error (.miss cause) => elemFault s 0x10 cause
  | .error (.page _ _ _ _ _ _) => s
  | .error .hold => s

/-- EVERY WORD: the checks of R85, then what the word does in an element or in a core. -/
def word (i : Instr) (s : State) (onElem : State → Except Stop (State × List Fx)) (onCore : State → Except Stop State) :
    Host.Outcome State Fault Refusal :=
  match gate i s with
  | .skip => .next s
  | .stop c => .next (if kindOf s == .elem then elemFault s c 0 else coreFault s (myCore s) c 0)
  | .run => .next (if kindOf s == .elem then elemOutcome i s (onElem s) else coreOutcome s (onCore s))

/-- AN EVENT: a step of an agent that fetches no word. It happens where its agent exists and its conditions hold; named
by the agenda at any other moment, it is no step of the module and changes nothing (DESIGN CHOICE, log 1). -/
def event (i : Instr) (s : State) (enabled : Bool) (f : State → State) : Host.Outcome State Fault Refusal :=
  .next (if agentOk i && enabled then f s else s)

/-- An event that names no agent of a die, or names it by what it acts on. -/
def machineEvent (s : State) (enabled : Bool) (f : State → State) : Host.Outcome State Fault Refusal :=
  .next (if enabled then f s else s)

/-- A word of the elements alone. -/
def elemWord (i : Instr) (s : State) (f : State → Except Stop (State × List Fx)) : Host.Outcome State Fault Refusal :=
  word i s f .ok

/-- A word of the cores alone. -/
def coreWord (i : Instr) (s : State) (f : State → Except Stop State) : Host.Outcome State Fault Refusal :=
  word i s (fun s => .ok (s, [])) f

/-! ### Accesses of a core or of a unit -/

/-- A translation fault as the stop of a word. -/
def stopOf (acc : Acc) (va size ty dst : Nat) : XFault → Stop
  | .page lvl => .page acc lvl va size ty dst
  | .code c => .trap c (BitVec.ofNat 64 va)

/-- A virtual read of `size` bytes, which lie in one line: alignment, translation, R241 and R324, then the bytes. -/
def vread (s : State) (c : Ctx) (va size hint ty dst : Nat) : Except Stop (List Byte × State) :=
  if va % size != 0 then .error (.trap 0x23 (BitVec.ofNat 64 va)) else
    match translate s c .read va with
    | (_, .error f) => .error (stopOf .read va size ty dst f)
    | (s, .ok x) =>
      if !reachable x.pa size then .error (.trap 0x21 (BitVec.ofNat 64 va)) else .ok (readBytes s c x size hint)

/-- A read of the executing core: data that RTYW supplied for it, or memory (R415). -/
def coreRead (s : State) (va size hint ty dst : Nat) : Except Stop (List Byte × State) :=
  match (core s (myCore s)).supplied.find? fun p => p.1 == va && p.2.length == size with
  | some p => .ok (p.2, s)
  | none => vread s (coreCtx s (myCore s)) va size hint ty dst

/-- The checks of a store's data in a coded region: whole aligned values (R260), no NaN or infinity
(R268). -/
def codedStore (x : Xlat) (data : List Byte) : Option Code :=
  if x.codec == 0 then none
  else if x.pa % 8 != 0 || data.length % 8 != 0 then some 0x23
  else if nonFinite (data.zipIdx.map fun p => (x.pa % 64 + p.2, p.1)) then some 0x31
  else none

/-- The translation of a write of `size` bytes in one line, with its checks but those of the data. -/
def vwriteAddr (s : State) (c : Ctx) (va size ty : Nat) : Except Stop (Xlat × State) :=
  if va % size != 0 then .error (.trap 0x23 (BitVec.ofNat 64 va)) else
    match translate s c .write va with
    | (_, .error f) => .error (stopOf .write va size ty 0 f)
    | (s, .ok x) =>
      if !reachable x.pa size then .error (.trap 0x21 (BitVec.ofNat 64 va)) else .ok (x, s)

/-- A virtual write of bytes in one line. -/
def vwrite (s : State) (c : Ctx) (va : Nat) (data : List Byte) (hint ty : Nat) : Except Stop State :=
  match vwriteAddr s c va data.length ty with
  | .error e => .error e
  | .ok (x, s) =>
    match codedStore x data with
    | some code => .error (.trap code (BitVec.ofNat 64 va))
    | none => .ok (writeBytes s c x data hint)

end Sys2Proof.Machine
end

