-- ==== Sys2Proof/Machine/Operands.lean ====
section
/-! DEFINITION. Every operand form: scalars, vectors and sums of an element (Table 3-2, R75), registers of a core,
immediates, memory addresses (R135), and IDENT (R30). -/

namespace Sys2Proof.Machine

/-- Scalar operand of the executing element: e0 to e31, the sampled predicates and valid count, lane and
iter (Table 3-2, R75). -/
def eScalar (s : State) (r : Reg) : E32 :=
  let n := r.toNat
  if n == 0 then 0
  else if n < 32 then vget 0 (myElem s).e n
  else if n < 60 then (if tilePred (region s (myRegion s)) (n - 52) then 1 else 0)
  else if n == 60 then sampledVc (region s (myRegion s))
  else if n == 61 then BitVec.ofNat 32 (myElemIx s)
  else BitVec.ofNat 32 (myIter s)

/-- Each lane's own number at a lane width (R75). -/
def laneNumbers (w : Nat) : Line :=
  BitVec.ofNat 512 ((List.range (512 / w)).foldl (fun acc n => acc + n * 2 ^ (w * n)) 0)

/-- Vector operand of the executing element, or lane at the width `w` (Table 3-2, R75). -/
def eVector (s : State) (r : Reg) (w : Nat) : Line :=
  if r == 61 then laneNumbers w else vget 0 (myElem s).v (r.toNat - 32)

/-- Sum register of the executing element (R116). -/
def eSum (s : State) (r : Reg) : Wide := vget 0 (myElem s).y (r.toNat - 48)

/-- Register of the executing core. -/
def xval (s : State) (r : Reg) : X := xreg s (myCore s) r.toNat

/-- The core's word retires with a value for its destination (R87). -/
def retX (s : State) (d : Reg) (v : X) : State := advance (setX s (myCore s) d.toNat v)

/-- The 32-bit immediate, sign-extended (R335, R336). -/
def immS {w : Nat} (imm : BitVec 32) : BitVec w := imm.signExtend w

/-- Lane `n` of a line, of width `w` (R77). -/
def lane (l : Line) (w n : Nat) : Nat := bits l.toNat (w * n) w
/-- The lanes of a line, lowest first. -/
def lanes (l : Line) (w : Nat) : List Nat := (List.range (512 / w)).map (lane l w)
/-- A line put together from lanes. -/
def ofLanes (w : Nat) (l : List Nat) : Line :=
  BitVec.ofNat 512 ((l.foldr (fun v acc => v % 2 ^ w + 2 ^ w * acc) 0))

/-- IDENT of an executing context (Table 1-5). -/
def identOf (s : State) (w : Who) : BitVec 32 :=
  let base := (die s).stepping.toNat * 2 ^ 24 + s.cur.val * 2 ^ 19
  BitVec.ofNat 32 <| match w with
    | .elem g r c => base + g.val * 2 ^ 12 + r.val * 2 ^ 8 + c.val * 2 ^ 4
    | .stage g => base + 2 ^ 17 + g.val * 2 ^ 12
    | .mgr => base + 2 ^ 18

/-- IDENT of the current word's context. -/
def ident (s : State) : BitVec 32 := identOf s s.who

/-- Memory operand of a core: base, index and signed offset, 64 bits (R135). -/
def coreAddr (s : State) (a b : Reg) (off : BitVec 20) : Nat :=
  (xval s a + xval s b + off.signExtend 64).toNat
/-- Memory operand of an element: 32 bits, zero-extended (R135). -/
def elemAddr (s : State) (a b : Reg) (off : BitVec 20) : Nat :=
  (eScalar s a + eScalar s b + off.signExtend 32).toNat

end Sys2Proof.Machine
end

