-- ==== Sys2Proof/Machine/Flags.lean ====
section
/-! DEFINITION. Sticky flags (R111), comparisons (Table 3-19), and the draws of RSTO (R109). -/

namespace Sys2Proof.Machine

/-- FFLAGS of the executing core with flags set (R111). -/
def setCoreFlags (s : State) (f : Flags) : State := modCore s (myCore s) fun k => { k with fflags := k.fflags ||| f }

/-- Draw of lane `n` of the executing element (R109). -/
def myDraw (s : State) (n : Nat) : Nat :=
  let seed := ((region s (myRegion s)).inv.map fun v => v.seed).getD (core s (myRegion s)).rsbase
  elemDraw (seed ^^^ (ident s).setWidth 64) (myIter s) (myPos s) n

/-- Draw of the executing core (R109). -/
def myCoreDraw (s : State) : Nat :=
  coreDraw ((core s (myCore s)).rsbase ^^^ (ident s).setWidth 64) (core s (myCore s)).sctr

/-- SCTR counts a draw at retirement (R109). -/
def countDraw (s : State) (rm : BitVec 3) : State :=
  if rm == 5 then modCore s (myCore s) fun k => { k with sctr := k.sctr + 1 } else s

/-- compare(A, B, CC, U) of the integer words (Table 3-19). -/
def compareInt {w : Nat} (cc : BitVec 3) (u : BitVec 1) (a b : BitVec w) : Bool :=
  let lt := fun (x y : BitVec w) => if u == 1 then x.ult y else x.slt y
  match cc.toNat with
  | 0 => a == b
  | 1 => a != b
  | 2 => lt a b
  | 3 => !lt a b
  | 4 => !lt b a
  | _ => lt b a

/-- A truth value as a scalar. -/
def ofBool {w : Nat} (b : Bool) : BitVec w := if b then 1 else 0

end Sys2Proof.Machine
end

