-- ==== Sys2Proof/Machine/Atomic.lean ====
section
/-! DEFINITION. The atomic operations of Table 14-2 and their performing at a home (R243, R291, R293). -/

namespace Sys2Proof.Machine

/-- The new value of a 32-bit word under AOP, and the flags of the operation (Table 14-2). FP16 and BF16 act on
the low half. -/
def atomicNew (aop : BitVec 5) (ty : BitVec 4) (old b c : BitVec 32) : BitVec 32 × Flags :=
  let half : Nat := if ty == 1 || ty == 2 then 16 else 32
  let keep := fun (n : Nat) => BitVec.ofNat 32 (old.toNat / 2 ^ half * 2 ^ half + n)
  let val := fun (v : BitVec 32) => (fmtOf ty).value (bits v.toNat 0 half)
  let fp := fun (r : FVal × Flags) => let q := (fmtOf ty).round 0 0 r.1; (keep q.1, r.2 ||| q.2)
  match aop.toNat with
  | 0 => if ty == 11 then (old + b, 0) else fp (addV 0 (val old) (val b))
  | 1 => if ty == 11 then (if old.slt b then old else b, 0) else fp (minmaxV false (val old) (val b))
  | 2 => if ty == 11 then (if old.slt b then b else old, 0) else fp (minmaxV true (val old) (val b))
  | 3 => (old &&& b, 0)
  | 4 => (old ||| b, 0)
  | 5 => (old ^^^ b, 0)
  | 6 => (b, 0)
  | _ => (if old == c then b else old, 0)

/-- The 32-bit word at a translated address, read where it lies, and the state after the read. -/
def readWord32 (s : State) (c : Ctx) (x : Xlat) : BitVec 32 × State :=
  let (bs, s) := readPlace s c x 4 0
  (BitVec.ofNat 32 (bytesNat bs), s)

/-- AMO at the home: the old word, which the home returns, and the state after the one indivisible read and write (R293). -/
def performAmo (s : State) (c : Ctx) (x : Xlat) (aop : BitVec 5) (ty : BitVec 4) (b cmp : BitVec 32) :
    BitVec 32 × State :=
  let (old, s) := readWord32 s c x
  let new := (atomicNew aop ty old b cmp).1
  let data := natBytes new.toNat 4
  let s := performBytes s x.pa x.attr data 0 s.cur.val c.counter false
  (old, refreshCaptured (sendPacket s (systemDie x.pa) s.cur.val .response (natBytes old.toNat 4)) c.gid x.pa data)

/-! ### Monitors (R392) -/

/-- What stands in the eight bytes that core `c` monitors, as it reads them at their home. -/
def monitorValue (s : State) (c : Nat) : Option X :=
  (core s c).mon.map fun m => BitVec.ofNat 64 (bytesNat (readPlace s (coreCtx s c) ⟨m.1, m.2.1, m.2.2, false⟩ 8 0).1)

/-- A core in an MWAIT that has read no value at its threshold yet. -/
def waitsMonitor (k : Core) : Bool :=
  match k.wait with
  | .mwait _ _ none => true
  | _ => false

/-- A core in an MWAIT reads its bytes again. -/
def monitorSees (s : State) (c : Nat) : State :=
  match (core s c).wait, monitorValue s c with
  | .mwait d thr none, some v => if thr.toNat ≤ v.toNat then modCore s c fun k => { k with wait := .mwait d thr (some v) } else s
  | _, _ => s

/-- Every core in an MWAIT reads its bytes again: after each write that may reach them (R392). -/
def monitorsSee (s : State) : State :=
  if s.dies.toList.all fun d => d.cores.toList.all fun k => !waitsMonitor k then s else
    (List.range 24).foldl (fun s n => onDie s n fun s => (List.range 33).foldl monitorSees s) s

/-- A place where an AMO, a REDSEQ or a barrier object may not lie: a coded region (R260) or system
space (R343, R248). -/
def atomicDenied (x : Xlat) : Bool := x.codec != 0 || place x.pa != .hbm

/-! ### Sequenced lines (R291) -/

/-- The core whose counters and whose graph a contribution counts to. -/
def contributor (k : Contribution) : Nat :=
  match k.src with
  | .elem g _ _ => g.val
  | .stage g => g.val
  | .mgr => 32

/-- The graph of the party that sent a contribution, on its die; none for the manager. -/
def contributionGid (s : State) (k : Contribution) : Option Nat :=
  if contributor k == 32 then none else (vget Region.reset (dieAt s k.die).regions (contributor k)).owner

/-- The attributes of a sequenced line. -/
def Contribution.attr (k : Contribution) : LineAttr := ⟨0, k.key, k.dedup⟩

/-- The sequenced line as the sender of a contribution sees it (R295). -/
def sequencedLine (s : State) (k : Contribution) : Line :=
  viewLine { s with cur := Fin.ofNat 24 k.die } (contributionGid s k) k.line k.attr (peekLine s k.line k.attr)

/-- SNEXT of the line of a contribution. -/
def snext (s : State) (k : Contribution) : BitVec 32 := BitVec.ofNat 32 (bits (sequencedLine s k).toNat 448 32)

/-- A contribution is applied to its cell and SNEXT counts it, as one write at the home; it is no write that
discards (R291). -/
def applyContribution (s : State) (k : Contribution) : State :=
  let l := sequencedLine s k
  let w := if k.ty == 1 || k.ty == 2 then 2 else 4
  let old := BitVec.ofNat 32 (bits l.toNat (8 * k.off) (8 * w))
  let cell := natBytes (atomicNew k.aop k.ty old k.v 0).1.toNat w
  let next := natBytes (k.k + 1).toNat 4
  let bs := cell.zipIdx.map (fun p => (k.off + p.2, p.1)) ++ next.zipIdx.map fun p => (56 + p.2, p.1)
  let s := invalidateCode (storeLine s k.line k.attr bs 0 k.die (contributor k)) k.line false
  let gid := contributionGid s k
  onDie s k.die fun s => refreshCaptured (refreshCaptured s gid (64 * k.line + k.off) cell) gid (64 * k.line + 56) next

/-- The waiting contributions of a line that have become next are taken one after another (R291). -/
def drainSequenced (s : State) (ln : Nat) : Nat → State
  | 0 => s
  | n + 1 =>
    let d := dieAt s (homeDie ln)
    match d.reds.find? fun c => c.line == ln && c.stored && c.k == snext s c with
    | none => s
    | some c =>
      let s := modDieAt s (homeDie ln) fun d => { d with reds := d.reds.erase c }
      drainSequenced (monitorsSee (applyContribution s c)) ln n

/-- Whether a home accepts a contribution that it judges now (R291). -/
def acceptable (s : State) (k : Contribution) : Bool :=
  decide ((k.k - snext s k).toNat < 256) &&
    !(dieAt s (homeDie k.line)).reds.any fun c => c.line == k.line && c.stored && c.k == k.k

/-- Places of the reorder store of a wing tile that are taken. -/
def reorderUsed (s : State) (ln : Nat) : Nat :=
  ((dieAt s (homeDie ln)).reds.filter fun c => c.stored && homeTile c.line == homeTile ln).length

/-- The home can judge a contribution: its index is next, or the store has a free place (R291). -/
def judgeable (s : State) (k : Contribution) : Bool :=
  k.k == snext s k || decide (reorderUsed s k.line < 4096)

/-- An accepted contribution: applied with all that follow it, or held in the reorder store. -/
def acceptContribution (s : State) (k : Contribution) : State :=
  if k.k == snext s k then drainSequenced (monitorsSee (applyContribution s k)) k.line 256
  else modDieAt s (homeDie k.line) fun d => { d with reds := d.reds ++ [{ k with stored := true, arrived := true }] }

/-- A contribution leaves for the home of its line (R291). -/
def sendContribution (s : State) (k : Contribution) : State :=
  modDieAt (sendPacket s k.die (homeDie k.line) .request (natBytes k.v.toNat 4 ++ natBytes k.k.toNat 4)) (homeDie k.line) fun d =>
    { d with reds := d.reds ++ [k] }

/-- The sender of a judged contribution: a core's REDSEQ retires, or traps where it is refused; a refused
contribution of an element is an asynchronous trap of its stagehand (R292). -/
def settleContribution (s : State) (k : Contribution) (accepted : Bool) : State :=
  let c := contributor k
  let line := BitVec.ofNat 64 (64 * k.line)
  onDie (sendPacket s (homeDie k.line) k.die .response []) k.die fun s =>
    match k.src, accepted with
    | .elem _ _ _, true => s
    | .elem _ _ _, false => postStage s c 0x36 3 line
    | _, true => modCore s c fun q => if q.wait == .redseq then { q with wait := .none, pc := q.pc + 1, supplied := [], issued := none } else q
    | _, false => if (core s c).wait == .redseq then coreFault (modCore s c fun q => { q with wait := .none }) c 0x36 line else s

/-- The home takes contribution `k` of die `n`: it judges it, or the contribution waits for a place (R291). -/
def judgeContribution (s : State) (n k : Nat) : State :=
  match (dieAt s n).reds[k]? with
  | none => s
  | some c =>
    if c.stored then s
    else if !judgeable s c then
      modDieAt s n fun d => { d with reds := d.reds.set k { c with arrived := true } }
    else
      let t := modDieAt s n fun d => { d with reds := d.reds.eraseIdx k }
      if acceptable s c then settleContribution (acceptContribution t c) c true else settleContribution t c false

/-- The first contribution that a sender has under way or waiting: die and index. -/
def openContribution (s : State) (mine : Contribution → Bool) : Option (Nat × Nat) :=
  (List.range 24).findSome? fun n =>
    ((dieAt s n).reds.findIdx? fun c => !c.stored && c.die == s.cur.val && mine c).map fun k => (n, k)

/-- A contribution of the elements of region `g`. -/
def ofElems (g : Nat) (c : Contribution) : Bool :=
  match c.src with
  | .elem g' _ _ => g'.val == g
  | _ => false

/-- A contribution of core `c`, not yet applied. -/
def ofCore (c : Nat) (k : Contribution) : Bool :=
  match k.src with
  | .elem _ _ _ => false
  | .stage g => g.val == c
  | .mgr => c == 32

end Sys2Proof.Machine
end

