-- ==== Sys2Proof/Machine/Hold.lean ====
section
/-! DEFINITION. Accesses of elements: the shadow windows (R175, R179), the hold buffer (R40 to R44), held bytes over
memory (R41), and the performing of held stores at the end of an invocation (R43). -/

namespace Sys2Proof.Machine

/-! ### Index tiles and shadow windows -/

/-- Fields of an index tile header (Table 9-8). -/
def tileCount (h : Line) : Nat := bits h.toNat 96 32
def tileRow (h : Line) : Nat := 64 * bits h.toNat 80 16
def tileIw (h : Line) : Nat := bits h.toNat 72 2
def tileDie (h : Line) : Nat := bits h.toNat 64 5
def tileBase (h : Line) : Nat := bits h.toNat 0 64

/-- A header that R175 accepts. -/
def tileOk (h : Line) : Bool :=
  bits h.toNat 128 384 == 0 && bits h.toNat 74 6 == 0 && bits h.toNat 69 3 == 0 && tileIw h != 3 &&
    decide (64 ≤ tileRow h) && decide (tileRow h ≤ 4096) && tileCount h != 0 && decide (tileCount h ≤ 2 ^ 20)

/-- Bytes of one index. -/
def tileIndexBytes (h : Line) : Nat := 2 ^ tileIw h

/-- Die and virtual address of the row that an index names (R176). -/
def tileTarget (h : Line) (idx : Nat) : Nat × Nat :=
  let dr := if tileIw h == 2 then (idx / 2 ^ 27, idx % 2 ^ 27) else (tileDie h, idx)
  (dr.1, (tileBase h + dr.2 * tileRow h) % 2 ^ 64)

/-- The window of an invocation that covers an address: the lowest-numbered one (R434). -/
def shadowOf (r : Region) (va : Nat) : Option Shadow :=
  ((r.inv.map fun v => v.shadow).getD []).find? fun w =>
    w.bound && decide (w.base ≤ va) && decide (va < w.base + tileCount w.head * tileRow w.head)

/-- Why an element's access gives no address: the fault, the kind, address and size of the access that met it, and whether
that is the index read of a shadow window (R179). -/
structure ElemFault where
  fault : XFault
  acc : Acc
  va : Nat
  size : Nat
  index : Bool
  deriving DecidableEq, Repr

/-- The context of an element's access under a given ASROOT (R275). -/
def elemCtxAt (s : State) (g : Nat) (root : X) : Ctx := { elemCtx s g with root := root }

/-- Translation of an element's access with the faults of its place. -/
def elemTranslate (s : State) (g : Nat) (root : X) (acc : Acc) (va size : Nat) : Except XFault (Xlat × State) :=
  match translate s (elemCtxAt s g root) acc va with
  | (_, .error f) => .error f
  | (s, .ok x) => if reachable x.pa size then .ok (x, s) else .error (.code 0x21)

/-- The index at an address of an index tile, or the one that RTYW supplied (R179, R415). -/
def elemIndex (s : State) (g : Nat) (root : X) (ix : Option Nat) (va size : Nat) : Except XFault (Nat × State) :=
  match ix with
  | some n => .ok (n, s)
  | none =>
    match elemTranslate s g root .read va size with
    | .error f => .error f
    | .ok (x, s) =>
      let (bs, s) := readBytes s (elemCtxAt s g root) x size 0
      .ok (bytesNat bs, s)

/-- The address of the index that an access through a window reads (R179). -/
def indexAddr (w : Shadow) (va : Nat) : Nat := w.tile + 64 + (va - w.base) / tileRow w.head * tileIndexBytes w.head

/-- An element's access at a virtual address, redirected through a shadow window (R179), then translated; a line whose home is
not on the named die raises PROT (R176). (DESIGN CHOICE, log 26) -/
def elemResolve (s : State) (g : Nat) (root : X) (win : Option Shadow) (ix : Option Nat) (acc : Acc) (va size : Nat) :
    Except ElemFault (Xlat × State) :=
  match win with
  | none =>
    (match elemTranslate s g root acc va size with
     | .error f => .error ⟨f, acc, va, size, false⟩
     | .ok r => .ok r)
  | some w =>
    let o := va - w.base
    let byte := o % tileRow w.head
    if tileRow w.head < byte + size then .error ⟨.code 0x23, acc, va, size, false⟩ else
      let n := tileIndexBytes w.head
      let iva := indexAddr w va
      match elemIndex s g root ix iva n with
      | .error f => .error ⟨f, .read, iva, n, true⟩
      | .ok (idx, s) =>
        let (die, base) := tileTarget w.head idx
        if 24 ≤ die then .error ⟨.code 0x21, acc, va, size, false⟩ else
          let target := (base + byte) % 2 ^ 64
          if target % size != 0 then .error ⟨.code 0x23, acc, target, size, false⟩ else
          match elemTranslate s g root acc target size with
          | .error f => .error ⟨f, acc, target, size, false⟩
          | .ok (x, s) =>
            if place x.pa == .hbm && homeDie (x.pa / 64) == die then .ok (x, s)
            else .error ⟨.code 0x21, acc, target, size, false⟩

/-- The retry entry of an element's access that took PAGE (R281, Table 17-4). -/
def elemRetry (who : Requester) (g row col lvl : Nat) (f : ElemFault) (ty : BitVec 4) (dst : Reg) (root : X) : RetryReq :=
  ⟨who, 0, f.acc.num, lvl, f.va, f.size, ty.toNat, dst.toNat, g, row, col, 0, root, f.index⟩

/-! ### The hold buffer -/

/-- Entries of the hold buffer (R40). -/
def holdEntries : Nat := 2048

/-- The plain entry of a line. (DESIGN CHOICE, log 22) -/
def holdFind (r : Region) (vline : Nat) : Option HoldEntry :=
  r.hold.find? fun e => e.vline == vline && e.stores.all fun t => t.red.isNone

/-- The store whose byte an entry holds at an offset: the latest one that covers it (R40). -/
def holderOf (e : HoldEntry) (o : Nat) : Option HeldStore :=
  e.stores.reverse.find? fun t => decide (t.off ≤ o) && decide (o < t.off + t.data.length)

/-- The held byte at a virtual address: that of the latest store (R40, R41). -/
def heldByte (r : Region) (va : Nat) : Option Byte :=
  (holdFind r (va / 64)).bind fun e => (holderOf e (va % 64)).bind fun t => t.data[va % 64 - t.off]?

/-- The held bytes among the `size` bytes at a virtual address, for a load (R41). -/
def heldBytes (r : Region) (va size : Nat) : List (Nat × Byte) :=
  (List.range size).filterMap fun k => (heldByte r (va + k)).map fun b => (va + k, b)

/-- Bytes read from memory with held bytes merged over them (R41). -/
def mergeHeld (held : List (Nat × Byte)) (va : Nat) (bs : List Byte) : List Byte :=
  bs.zipIdx.map fun p => ((held.find? fun h => h.1 == va + p.2).map fun h => h.2).getD p.1

/-- The fault that a held store or contribution meets at its address (R260, R268, R291). -/
def heldFault (x : Xlat) (t : HeldStore) : Option Code :=
  if t.red.isSome then (if atomicDenied x || decide (56 < x.pa % 64 + t.data.length) then some 0x21 else none) else codedStore x t.data

/-- The requester is a held store of the region. -/
def isHeldOf (g : Nat) (q : Requester) : Bool :=
  match q with
  | .held g' _ => g' == g
  | _ => false

/-- The open entry of a region's stores for a faulting line (DESIGN CHOICE, log 22). -/
def heldEntryFor (s : State) (g : Nat) (root : X) (f : ElemFault) : Option Nat :=
  ((die s).retry.find? fun q => isHeldOf g q.who && q.va / 64 == f.va / 64 && q.index == f.index && q.root == root).map
    fun q => q.slot

/-- Translation of a held store: the store with its address, or with its retry entry, or as it was where the ring is full; or its
fault (R281). -/
def askStore (s : State) (g vline : Nat) (t : HeldStore) : Except Code (HeldStore × State) :=
  match elemResolve s g t.root t.win t.ix .write (64 * vline + t.off) t.data.length with
  | .ok (x, s) =>
    (match heldFault x t with
     | some c => .error c
     | none => .ok ({ t with xlat := some x, retry := none }, s))
  | .error f =>
    match f.fault with
    | .code c => .error c
    | .page lvl =>
      match heldEntryFor s g t.root f with
      | some slot => .ok ({ t with retry := some slot }, s)
      | none =>
        match postRetry s (elemRetry (.held g vline) g t.row t.col lvl f t.ty 0 t.root) with
        | some (slot, s) => .ok ({ t with retry := some slot }, s)
        | none => .ok (t, s)

/-- The hold buffer with one entry replaced. -/
def putEntry (s : State) (g : Nat) (old new : HoldEntry) : State :=
  modRegion s g fun r => { r with hold := r.hold.map fun o => if o == old then new else o }

/-- A store or contribution retires into the hold buffer: it is translated (R281), and merges into the entry of its line or takes
a new one (R40); or the fault that it meets: a full buffer (R44), its translation, a coded region (R260, R268), its cell (R291). -/
def holdStore (s : State) (g : Nat) (vline : Nat) (t : HeldStore) : Except (Code × Nat) State :=
  let r := region s g
  let t := { t with seq := r.holdSeq, root := (core s g).asroot, win := shadowOf r (64 * vline + t.off) }
  let found := if t.red.isNone then holdFind r vline else none
  if found.isNone && decide (holdEntries ≤ r.hold.length) then .error (0x10, 4) else
    match askStore s g vline t with
    | .error c => .error (c, 0)
    | .ok (t, s) =>
      let s := modRegion s g fun r => { r with holdSeq := r.holdSeq + 1 }
      .ok <| match found with
        | some e => putEntry s g e { e with stores := e.stores ++ [t] }
        | none => modRegion s g fun r => { r with hold := r.hold ++ [⟨vline, [t]⟩] }

/-- The bytes of an entry, each with its physical address and attributes, in the order of the line (R40, R180, R281). -/
def entryCells (e : HoldEntry) : List (Xlat × Byte) :=
  (List.range 64).filterMap fun o => (holderOf e o).bind fun t => t.xlat.bind fun x =>
    (t.data[o - t.off]?).map fun b => ({ x with pa := x.pa + (o - t.off) }, b)

/-- Bytes performed as the parts of one access of its line: one operation at the home of each line and attributes that they name
(R267, R269), and one access for each run of bytes elsewhere. -/
def performCells (s : State) (g : Nat) (cells : List (Xlat × Byte)) (hint : Nat) : State :=
  let keys := (cells.map fun c => (c.1.pa / 64, c.1.attr)).eraseDups
  keys.foldl (fun s q =>
    let own := (cells.filter fun c => c.1.pa / 64 == q.1 && c.1.attr == q.2).map fun c => (c.1.pa % 64, c.2)
    if place (64 * q.1) == .hbm then performLine s q.1 q.2 own hint s.cur.val g false
    else (byteRuns own).foldl (fun s p => performBytes s (64 * q.1 + p.1) q.2 p.2 hint s.cur.val g false) s) s

/-- The contribution that a held store stands for. -/
def entryContribution (s : State) (g : Nat) (x : Xlat) (t : HeldStore) (q : BitVec 5 × BitVec 4 × BitVec 32) : Contribution :=
  ⟨x.pa / 64, x.pa % 64, q.1, q.2.1, q.2.2, BitVec.ofNat 32 (bytesNat t.data), s.cur.val,
    .elem (Fin.ofNat 32 g) (Fin.ofNat 8 t.row) (Fin.ofNat 16 t.col), x.key, x.dedup, false, false, rootAsid t.root⟩

/-- The commit group of a region's graph is open (R319). -/
def regionGroupOpen (s : State) (g : Nat) : Bool := ((ownerOf s g).map fun gr => gr.group.state) == some 1

/-- The bytes of an entry are taken one after another by the commit group, as long as it has not aborted (R319, R320, R476). -/
def captureCells (g gid : Nat) (root : X) (hint : Nat) : State → List (Xlat × Byte) → State
  | s, [] => s
  | s, c :: l =>
    match graph? s gid with
    | none => s
    | some gr =>
      if gr.group.state != 1 then s
      else captureCells g gid root hint (captureBytes s gr (elemCtxAt s g root) c.1 [c.2] hint) l

/-- One entry of the hold buffer performs at its home, or goes into the commit group (R43, R269, R319). -/
def releaseEntry (s : State) (g : Nat) (e : HoldEntry) : State :=
  match e.stores.getLast? with
  | none => s
  | some t =>
    match t.red, t.xlat with
    | some q, some x => sendContribution s (entryContribution s g x t q)
    | some _, none => s
    | none, _ =>
      let cells := entryCells e
      let hint := t.hint.toNat
      match ownerOf s g with
      | none => performCells s g cells hint
      | some gr =>
        if gr.group.state == 1 then captureCells g gr.gid t.root hint s cells
        else if gr.group.state == 3 then s
        else cells.foldl (fun s c => refreshCaptured s (some gr.gid) c.1.pa [c.2]) (performCells s g cells hint)

/-- The entries of a hold buffer perform in the order their lines were first written; one that stands behind a
contribution not yet judged waits (R43, R285). -/
def releaseEntries (g : Nat) : List HoldEntry → State → State
  | [], s => modRegion s g fun r => { r with hold := [] }
  | e :: l, s =>
    if (openContribution s (ofElems g)).isSome then modRegion s g fun r => { r with hold := e :: l }
    else releaseEntries g l (monitorsSee (releaseEntry s g e))

/-- The hold buffer is released, as far as it can be now (R43). -/
def releaseHold (s : State) (g : Nat) : State := releaseEntries g (region s g).hold s

/-- A discarding fault of a store of the hold buffer, at its word (R51). -/
def storeFault (s : State) (g : Nat) (t : HeldStore) (c : Code) : State :=
  modRegion s g fun r => { r with faults := r.faults ++ [⟨t.iter, t.row, t.col, t.pos, c, 0⟩] }

/-- The held stores of a region. -/
def heldStores (r : Region) : List HeldStore := r.hold.flatMap fun e => e.stores

/-- The held contributions of a region, which may not be released while its graph's commit group is open (R319, R410). -/
def heldReds (r : Region) : List HeldStore := (heldStores r).filter fun t => t.red.isSome

/-- The held stores that stand after a discard with restart iteration `p` (R54). -/
def keepStore (v : Invocation) (p : Nat) (t : HeldStore) : Bool :=
  decide (t.iter < p) || decide (t.pos + 1 < v.marks.get 0 t.iter)

/-- The hold buffer after a discard: an entry that keeps some stores takes the place of its earliest
remaining store (R54). -/
def pruneHold (v : Invocation) (p : Nat) (l : List HoldEntry) : List HoldEntry :=
  sortBy (fun e => (e.stores.head?.map fun t => t.seq).getD 0)
    ((l.map fun e => { e with stores := e.stores.filter (keepStore v p) }).filter fun e => !e.stores.isEmpty)

end Sys2Proof.Machine
end

