-- ==== Sys2Proof/Machine/Perform.lean ====
section
/-! DEFINITION. The element accesses that wait: those of a load window (R47, R467), an AMO with its retry entry (R344), and a held
line with none (R281). Each performs here, at the data's arrival, at the replay of its entry or when it asks again, and
never before an earlier access of its region to the same address through the same PORT (R285). -/

namespace Sys2Proof.Machine

/-! ### The accesses of a window -/

/-- The access has neither its bytes nor a fault. -/
def openAccess (a : Access) : Bool := a.data.isNone && a.fault.isNone

/-- The state with window `n` of an element replaced, or removed. -/
def setWindow (s : State) (g k n : Nat) (w : Option Window) : State :=
  modElem s g k fun e => { e with wins := match w with
    | some w => e.wins.set n w
    | none => e.wins.eraseIdx n }

/-- The open entry of a window's word for a faulting line (R467). -/
def windowEntryFor (s : State) (who : Requester) (f : ElemFault) : Option Nat :=
  ((die s).retry.find? fun q => q.who == who && q.va / 64 == f.va / 64 && q.index == f.index).map fun q => q.slot

/-- An access of a window performs: held bytes are merged over memory (R41); PAGE goes to the ring, one entry for each faulting line
of the word (R467), and any other fault waits for the close. -/
def readAccess (s : State) (g k : Nat) (w : Window) (a : Access) : State × Access :=
  match elemResolve s g w.root (shadowOf (region s g) a.va) a.ix .read a.va a.size with
  | .ok (x, s) =>
    let (bs, s) := readBytes s (elemCtx s g) x a.size w.hint.toNat
    (s, { a with data := some (mergeHeld w.held a.va bs), retry := none })
  | .error f =>
    match f.fault with
    | .code c => (s, { a with fault := some c, retry := none })
    | .page lvl =>
      if a.retry.isSome then (s, a) else
      let who := Requester.window g k w.iter w.pos
      match windowEntryFor s who f with
      | some slot => (s, { a with retry := some slot })
      | none =>
        match postRetry s (elemRetry who g (k / 16) (k % 16) lvl f w.ty w.dst w.root) with
        | some (slot, s) => (s, { a with retry := some slot })
        | none => (s, a)

/-! ### AMOs -/

/-- A discarding fault of a waiting AMO, at its word (R51). -/
def amoFault (s : State) (g : Nat) (a : AmoWait) (c : Code) : State :=
  modRegion s g fun r => { r with faults := r.faults ++ [⟨a.iter, a.row, a.col, a.pos, c, 0⟩] }

/-- The waiting AMO of a region changed. -/
def putAmo (s : State) (g : Nat) (old new : AmoWait) : State :=
  modRegion s g fun r => { r with amoWait := r.amoWait.map fun o => if o == old then new else o }

/-- A waiting AMO performs, meets its fault, or takes PAGE and asks for its entry (R344). -/
def runAmo (s : State) (g : Nat) (a : AmoWait) : State :=
  let leave := fun (s : State) => modRegion s g fun r => { r with amoWait := r.amoWait.erase a }
  match elemResolve s g a.root a.win a.ix .write a.addr 4 with
  | .ok (x, s) =>
    if atomicDenied x then amoFault (leave s) g a 0x21
    else monitorsSee (performAmo (leave s) (elemCtx s g) x a.aop a.ty a.b a.c).2
  | .error f =>
    match f.fault with
    | .code c => amoFault (leave s) g a c
    | .page lvl =>
      if a.retry.isSome then s else
      match postRetry s (elemRetry (.amo g) g a.row a.col lvl f a.ty 0 a.root) with
      | some (slot, s) => putAmo s g a { a with retry := some slot }
      | none => s

/-! ### The order of R285 -/

/-- An access that waits: a window's, of an element, or an AMO, which counts as one through PORT 0 (DESIGN CHOICE, log 68). -/
inductive Waiting where
  | load (k : Nat) (w : Window)
  | amo (a : AmoWait)
  deriving DecidableEq, Repr

/-- The region cycle in which the word of a waiting access retired, its element, and the place of its word among those of the element
(R34, R88). -/
def Waiting.ret : Waiting → Nat
  | .load _ w => w.ret
  | .amo a => a.ret
def Waiting.elem : Waiting → Nat
  | .load k _ => k
  | .amo a => 16 * a.row + a.col
def Waiting.place (r : Region) : Waiting → Nat
  | .load _ w => w.iter * r.ii + w.pos
  | .amo a => a.iter * r.ii + a.pos

/-- A waiting access retired before another: in an earlier cycle, or, in one cycle, as the earlier word of the same element (R88, R285). -/
def Waiting.before (r : Region) (a b : Waiting) : Bool :=
  decide (a.ret < b.ret) || (a.ret == b.ret && a.elem == b.elem && decide (a.place r < b.place r))

/-- The AMOs to an address that are executed and have not retired (R344). -/
def pendingAmos (r : Region) (va : Nat) : List Waiting :=
  (List.range 128).flatMap fun k => (vget Element.reset r.elems k).pend.flatMap fun p => p.fx.filterMap fun fx =>
    match fx with
    | .amo addr aop ty b c =>
      if addr == va then some (.amo ⟨none, p.iter, p.pos, k / 16, k % 16, addr, aop, ty, b, c, 0, none, none, p.ret⟩) else none
    | _ => none

/-- The waiting accesses of a region to an address through a PORT, in the order of their retirement. -/
def waitingAt (r : Region) (port : BitVec 6) (va : Nat) : List Waiting :=
  let loads := (List.range 128).flatMap fun k =>
    ((vget Element.reset r.elems k).wins.filter fun w => w.port == port && w.accs.any fun a => a.va == va && openAccess a).map
      (Waiting.load k)
  let amos := if port == 0 then (r.amoWait.filter fun a => a.addr == va).map Waiting.amo else []
  sortBy Waiting.ret (sortBy (Waiting.place r) (loads ++ amos))

/-- A waiting access to an address performs, whether or not it has an entry. -/
def performWaiting (g va : Nat) (s : State) : Waiting → State
  | .amo a => runAmo s g a
  | .load k w =>
    (w.accs.zipIdx.filter fun a => a.1.va == va && openAccess a.1).foldl (fun s a =>
      let (s, b) := readAccess s g k w a.1
      modElem s g k fun e => { e with wins := e.wins.map fun o =>
        if o.iter == w.iter && o.pos == w.pos then { o with accs := o.accs.set a.2 b } else o }) s

/-- The accesses of a region to an address through a PORT that retired before another perform (R285). -/
def performEarlier (s : State) (g : Nat) (me : Waiting) (port : BitVec 6) (va : Nat) : State :=
  let r := region s g
  ((waitingAt r port va).filter fun w => w.before r me).foldl (performWaiting g va) s

/-- A load stands behind an AMO to its address that retires before it and has still to retire (R285). -/
def loadBehind (r : Region) (k : Nat) (w : Window) (va : Nat) : Bool :=
  w.port == 0 && (pendingAmos r va).any fun a => a.before r (.load k w)

/-- The word of a window has retired, so that every access that R285 puts before one of its own is known; where the window closes before
its word retires, it performs in the cycle of the close. (DESIGN CHOICE, log 68) -/
def loadMayPerform (r : Region) (w : Window) : Bool := decide (min w.ret w.close ≤ r.rc)

/-- An access of a window that waits performs, behind those that R285 puts before it. -/
def fillAccess (s : State) (g k : Nat) (w : Window) (a : Access) : State × Access :=
  if !openAccess a || a.retry.isSome || loadBehind (region s g) k w a.va || !loadMayPerform (region s g) w then (s, a)
  else readAccess (performEarlier s g (.load k w) w.port a.va) g k w a

/-- The accesses of a window perform. -/
def fillWindow (s : State) (g k : Nat) (w : Window) : List Access → List Access → State × List Access
  | done, [] => (s, done)
  | done, a :: l =>
    let (s, a) := fillAccess s g k w a
    fillWindow s g k w (done ++ [a]) l

/-- An AMO is behind an access that R285 puts before it and that has not performed. -/
def amoBehind (s : State) (g : Nat) (a : AmoWait) : Bool :=
  let r := region s g
  (waitingAt r 0 a.addr).any fun w => w.before r (.amo a) || match w with
    | .load _ _ => false
    | .amo b => b.ret == a.ret && b != a && (r.amoWait.takeWhile fun c => c != a).contains b

/-- A waiting AMO tries its access, behind those that R285 puts before it (R285, R344). -/
def tryAmo (s : State) (g : Nat) (a : AmoWait) : State :=
  let s := performEarlier s g (.amo a) 0 a.addr
  if amoBehind s g a then s else runAmo s g a

/-- An element AMO is issued (R344): it performs, or waits for its page or for an earlier access to its cell; or the fault
that its word meets. -/
def issueAmo (s : State) (g row col iter pos addr : Nat) (aop : BitVec 5) (ty : BitVec 4) (b c : BitVec 32) :
    Except (Code × Nat) State :=
  if regionGroupOpen s g then .error (0x01, 0) else
    let win := shadowOf (region s g) addr
    let a : AmoWait := ⟨none, iter, pos, row, col, addr, aop, ty, b, c, (core s g).asroot, win, none, (region s g).rc⟩
    let s := performEarlier s g (.amo a) 0 addr
    let queued := modRegion s g fun r => { r with amoWait := r.amoWait ++ [a] }
    if amoBehind queued g a then .ok queued else
    match elemResolve s g a.root win none .write addr 4 with
    | .ok (x, s) =>
      if atomicDenied x then .error (0x21, 0) else .ok (monitorsSee (performAmo s (elemCtx s g) x aop ty b c).2)
    | .error f =>
      match f.fault with
      | .code c => .error (c, 0)
      | .page _ => .ok (runAmo queued g a)

/-! ### Held lines -/

/-- The state with held store `seq` of a region replaced. -/
def putStore (s : State) (g seq : Nat) (t : HeldStore) : State :=
  modRegion s g fun r => { r with hold := r.hold.map fun e => { e with stores := e.stores.map fun o => if o.seq == seq then t else o } }

/-- A waiting store of a line asks again for its translation; and whether it faulted (R281, R415). -/
def retryStore (s : State) (g vline : Nat) (t : HeldStore) : State × Bool :=
  match askStore s g vline { t with retry := none } with
  | .error c => (storeFault (putStore s g t.seq { t with retry := none }) g t c, true)
  | .ok (n, s) => (putStore s g t.seq n, false)

/-- The waiting stores of a region that `p` selects ask again; and whether one of them faulted. -/
def retryHeld (s : State) (g : Nat) (p : HeldStore → Bool) : State × Bool :=
  let waiting := (region s g).hold.flatMap fun e => (e.stores.filter fun t => t.xlat.isNone && p t).map fun t => (e.vline, t)
  waiting.foldl (fun r w =>
    let (s, bad) := retryStore r.1 g w.1 w.2
    (s, r.2 || bad)) (s, false)

/-- The stores and AMOs of a region that wait without an entry ask again (R281, R344). -/
def askAgain (s : State) (g : Nat) : State :=
  let r := region s g
  let s := if r.state != 1 then s else (retryHeld s g fun t => t.retry.isNone).1
  if r.state == 3 then s else ((region s g).amoWait.filter fun a => a.retry.isNone).foldl (fun s a => tryAmo s g a) s

end Sys2Proof.Machine
end

