-- ==== Sys2Proof/Machine/Retire.lean ====
section
/-! DEFINITION. What an element's word does when it retires (R87, R88): each effect of `Fx` applied to its region. -/

namespace Sys2Proof.Machine

/-! ### Memory nodes and buffers -/

/-- Size of a node, and of its part below the pinned pool (R154, R256). -/
def nodeBytes : Nat := 524288
def poolStart : Nat := 262144
/-- The stream-context table is enabled (R256). -/
def poolOn (s : State) : Bool := (die s).sctctl.getLsbD 0

/-- Bytes of a node of a region (R16). -/
def nodeRead (r : Region) (j off len : Nat) : List Byte := Table.bytes r.nodes (nodeBytes * j + off) len

/-- A region with bytes of a node written; the granules written are remembered for a save (R316). -/
def nodeWrite (r : Region) (j off : Nat) (data : List Byte) : Region :=
  let gr := (nodeBytes * j + off) / 4096
  { r with
    nodes := Table.setBytes r.nodes (nodeBytes * j + off) data
    touched := if r.touched.contains gr then r.touched else r.touched ++ [gr] }

/-- Node `j` belongs to an RMWS in this region cycle (R244). -/
def rmwHolds (r : Region) (j : Nat) : Bool := r.rmwBusy.any fun p => p.node == j && decide (r.rc ≤ p.last)

/-- Buffer `n` of a region. -/
def bufAt (r : Region) (n : Nat) : Option Buffer := r.bufs[n]?
/-- The region with buffer `n` changed. -/
def modBuf (r : Region) (n : Nat) (f : Buffer → Buffer) : Region := { r with bufs := modNth r.bufs n f }
/-- Node offset of a place of a buffer (R388). -/
def placeOff (b : Buffer) (place : Nat) : Nat := b.base + place * b.bytes
/-- The next index of a buffer (R156). -/
def nextIx (b : Buffer) (i : Nat) : Nat := if i + 1 < b.depth then i + 1 else 0
/-- The place is full. -/
def isFull (b : Buffer) (place : Nat) : Bool := (b.full.get none place).isSome

/-- A beat of a BUFPUT lands in a buffer: its bytes, and for the completing word of a column its put index, and in
column 15 the full bit and the watermark (R156, R353). -/
def landBeat (r : Region) (buf place off col : Nat) (data : List Byte) (last : Bool) (wm : BitVec 16) : Region :=
  match bufAt r buf with
  | none => r
  | some b =>
    let r := nodeWrite r b.node (placeOff b place + off) data
    if !last then r else
      modBuf r buf fun b =>
        { b with
          putIx := vset b.putIx col (nextIx b (vget 0 b.putIx col))
          full := if col == 15 then b.full.set none place (some wm) else b.full
          fed := if col == 15 then b.fed.set none place none else b.fed }

/-- The subscriber of an operand stream that delivered a tile acknowledges its beats, when a BUFGET completes it (R158). -/
def ackTile (s : State) (b : Buffer) (place : Nat) : State :=
  match b.fed.get none place with
  | none => s
  | some (st, ix) => modStream s st fun q =>
    { q with subs := modNth q.subs ix fun u => { u with acked := u.acked + b.bytes / 64 } }

/-- A BUFGET of column `col` from a place of a buffer (R57, R156, R353): column 0's first of a tile compares the watermark; the
completing one advances the column's get index and in column 15 empties the place. The beats of its tile count as acknowledged there
(R158 names no column; DESIGN CHOICE, log 106). -/
def takeBeat (s : State) (g buf place col : Nat) (last : Bool) : Except (Code × Nat) State :=
  match bufAt (region s g) buf with
  | none => .ok s
  | some b =>
    if col == 0 && !b.opened && b.full.get none place != some b.expect then .error (0x11, 0) else
      let open_ := fun (b : Buffer) => if col == 0 then
          { b with opened := !last, expect := if b.opened then b.expect else b.expect + 1 } else b
      let close := fun (b : Buffer) => if !last then b else
        { b with
          getIx := vset b.getIx col (nextIx b (vget 0 b.getIx col))
          full := if col == 15 then b.full.set none place none else b.full
          fed := if col == 15 then b.fed.set none place none else b.fed }
      let s := if last && col == 15 then ackTile s b place else s
      .ok (modRegion s g fun r => modBuf r buf fun b => close (open_ b))

/-! ### The accumulator store -/

/-- A cell of the accumulator store (R143). -/
def accGet (r : Region) (row c : Nat) : BitVec 32 := r.acc.get 0 (256 * row + c)
/-- The region with a cell written. -/
def accSet (r : Region) (row c : Nat) (v : BitVec 32) : Region := { r with acc := r.acc.set 0 (256 * row + c) v }
/-- The region with cells written from column `c` upward. -/
def accSetList (r : Region) (row : Nat) : Nat → List (BitVec 32) → Region
  | _, [] => r
  | c, v :: l => accSetList (accSet r row c v) row (c + 1) l

/-- The value of a 32-bit cell, by mode type (Table 7-1). -/
def cellVal (mt : BitVec 4) (v : BitVec 32) : FVal := if mt == 9 then .fin (v.toInt : Int) false else fp32.value v.toNat

/-- A sum brought into a 32-bit cell: one rounding, or saturation for INT8 (R152). -/
def cellRound (mt : BitVec 4) (rm : BitVec 3) (v : FVal) : BitVec 32 × Flags :=
  if mt == 9 then
    (match v with
     | .fin q _ => let c := clampInt 32 q.floor; (BitVec.ofInt 32 c.1, flagIf c.2 flagSAT)
     | _ => (0, 0))
  else let r := fp32.round rm 0 v; (BitVec.ofNat 32 r.1, r.2)

/-- The update of one cell, or of one pair of cells for FP64, by MMA (R152). The products are summed first and their sum is added to the
cell, so a quiet NaN among the products hides infinities of both signs from NV, and a NaN in the cell does not. (DESIGN CHOICE,
log 105) -/
def mmaCell (r : Region) (row col n : Nat) (fresh : Bool) (mt : BitVec 4) (rm : BitVec 3) (dot : FVal × Flags) :
    Region × Flags :=
  if mt == 12 then
    let c := col + 2 * n
    let old := fp64.value ((accGet r row c).toNat + 2 ^ 32 * (accGet r row (c + 1)).toNat)
    let v := if fresh then dot else let t := sumTerms rm [dot.1, old]; (t.1, dot.2 ||| t.2)
    let q := fp64.round rm 0 v.1
    (accSet (accSet r row c (BitVec.ofNat 32 q.1)) row (c + 1) (BitVec.ofNat 32 (q.1 / 2 ^ 32)), v.2 ||| q.2)
  else
    let c := col + n
    let old := cellVal mt (accGet r row c)
    let v := if fresh then dot else let t := sumTerms rm [dot.1, old]; (t.1, dot.2 ||| t.2)
    let q := cellRound mt rm v.1
    (accSet r row c q.1, v.2 ||| q.2)

/-- MMA at its retirement in a column (R152). -/
def mmaRetire (r : Region) (row col : Nat) (fresh : Bool) (mt : BitVec 4) (rm : BitVec 3) :
    Nat → List (FVal × Flags) → Region × Flags
  | _, [] => (r, 0)
  | n, d :: l =>
    let (r, f) := mmaCell r row col n fresh mt rm d
    let (r, f') := mmaRetire r row col fresh mt rm (n + 1) l
    (r, f ||| f')

/-- The identity permutation, which a permutation store holds until it is written (R115). -/
def identPerm : BitVec 384 := BitVec.ofNat 384 ((List.range 64).foldr (fun j acc => j + 64 * acc) 0)

/-! ### Channels -/

/-- The channel record of a load by its number. -/
def chanFind (g : Graph) (ch : Nat) : Option Chan := g.chans.find? fun c => c.ch == ch
/-- The graph that owns a region, with one of its channels changed. -/
def modChan (s : State) (g ch : Nat) (f : Chan → Chan) : State :=
  match (region s g).owner with
  | none => s
  | some gid => modGraph s gid fun gr => { gr with chans := gr.chans.map fun c => if c.ch == ch then f c else c }

/-- The levels of a line that a consumer with `hops` may still read in cycle `rc` or later: the newer ones, and the newest
of the others. -/
def recentLevels (rc hops : Nat) (l : List (Nat × Bool)) : List (Nat × Bool) :=
  l.take ((l.takeWhile fun p => decide (rc < p.1 + hops)).length + 1)

/-- A control line driven to a level: every consumer remembers the level from its own cycle on (R358). -/
def driveLevel (s : State) (g ch : Nat) (v : Bool) : State :=
  let rc := fun (c : Chan) => (region s c.cons.g).rc
  modChan s g ch fun c => { c with levels := (rc c, v) :: recentLevels (rc c) c.hops c.levels }

/-- Fields of a converter's configuration word (R168). -/
def convEn (c : Conv) : Bool := bits c.cfg.toNat 16 1 == 1
def convChan (c : Conv) : Nat := bits c.cfg.toNat 8 4
def convTag (c : Conv) : BitVec 4 := BitVec.ofNat 4 (bits c.cfg.toNat 0 4)

/-- The load record binds converter `k`. -/
def bindsConv (k : Nat) (r : LoadRec) : Bool :=
  match r with
  | .conv n _ => n == k
  | _ => false

/-- Converter `k` is bound to a vector channel of region `g`: the load binds it or TCONV has configured it, and its
word names the channel (R168). -/
def convBound (s : State) (g k ch : Nat) : Bool :=
  let named := ((ownerOf s g).bind fun gr => gr.load).any fun l => l.recs.any (bindsConv k)
  (named || (conv s k).cfg != 0) && convChan (conv s k) == ch

/-! ### One effect -/

/-- An element's registers after an effect on them. -/
def setScalarReg (e : Element) (d : Reg) (v : BitVec 32) : Element :=
  if d == 0 then e else { e with e := vset e.e d.toNat v }

/-- A sum register with lane `n` written (R116). -/
def setSumLane (v : Wide) (n : Nat) (x : BitVec 64) : Wide :=
  BitVec.ofNat 1024 (v.toNat - bits v.toNat (64 * n) 64 * 2 ^ (64 * n) + x.toNat * 2 ^ (64 * n))

/-- The region's matrix mode after MMODE (R148). -/
def setMode (r : Region) (f : BitVec 1) (ty : BitVec 4) : Region :=
  if f == 1 && ty != r.mt then
    { r with mm := 1, mt := ty, elems := r.elems.map fun e => { e with weight := 0, scale := 0, metaFile := 0 } }
  else { r with mm := f }

/-- EVERY EFFECT: what it does in region `g` for the word that element `k` executed at a position of an iteration;
or the fault the word meets at its retirement, with its cause. -/
def applyFx (s : State) (g k iter pos : Nat) (fx : Fx) : Except (Code × Nat) State :=
  let col := k % 16
  let row := k / 16
  match fx with
  | .scalar d v => .ok (modElem s g k fun e => setScalarReg e d v)
  | .vector d v => .ok (modElem s g k fun e => { e with v := vset e.v (d.toNat - 32) v })
  | .sum d v => .ok (modElem s g k fun e => { e with y := vset e.y (d.toNat - 48) v })
  | .sumLane d n v => .ok (modElem s g k fun e => { e with y := vmod e.y (d.toNat - 48) fun y => setSumLane y n v })
  | .flags f => .ok (modElem s g k fun e => { e with fflags := e.fflags ||| f })
  | .weight q v => .ok (modElem s g k fun e =>
      { e with weight := BitVec.ofNat 2048 (setBits e.weight.toNat (512 * q) 512 v.toNat) })
  | .scale v => .ok (modElem s g k fun e => { e with scale := v })
  | .metaFile v => .ok (modElem s g k fun e => { e with metaFile := v })
  | .mode f ty => .ok (modRegion s g fun r => setMode r f ty)
  | .mma arow c fresh mt rm dots =>
    let (r, f) := mmaRetire (region s g) arow c fresh mt rm 0 dots
    .ok (modElem (modRegion s g fun _ => r) g col fun e => { e with fflags := e.fflags ||| f })
  | .accZero arow => .ok (modRegion s g fun r => accSetList r arow 0 (List.replicate 256 0))
  | .accCells arow c cells => .ok (modRegion s g fun r => accSetList r arow c cells)
  | .perm grp p => .ok (modRegion s g fun r => { r with perm := r.perm.set identPerm (256 * row + grp) p })
  | .hold vline t => holdStore s g vline t
  | .node j off data =>
    if rmwHolds (region s g) j then .error (0x12, 0) else .ok (modRegion s g fun r => nodeWrite r j off data)
  | .bufPut buf off place data last wm =>
    if (bufAt (region s g) buf).any fun b => rmwHolds (region s g) b.node then .error (0x12, 0)
    else .ok (modRegion s g fun r => landBeat r buf place off col data last wm)
  | .bufGet buf place last => takeBeat s g buf place col last
  | .amo addr aop ty b c => issueAmo s g row col iter pos addr aop ty b c
  | .level ch v => .ok (driveLevel s g ch v)
  | .send ch v =>
    .ok (modChan s g ch fun c => { c with flight := c.flight ++ [(c.hops, v.setWidth 512, iter, pos)] })
  | .beat ch v =>
    if convBound s g (2 * g) ch then
      let c := conv s (2 * g)
      if !convEn c || decide (16 ≤ c.latch.length) then .error (0x10, 2)
      else .ok (modConv s (2 * g) fun c => { c with latch := c.latch ++ [⟨convTag c, true, v⟩] })
    else .ok (modChan s g ch fun c => { c with flight := c.flight ++ [(c.hops, v, iter, pos)] })
  | .frame => .ok (modRegion s g fun r => if r.framed then { r with framePending := true } else r)
  | .mark => .ok (modRegion s g fun r => { r with inv := r.inv.map fun v =>
      { v with marks := v.marks.set 0 iter (max (v.marks.get 0 iter) (pos + 1)) } })

end Sys2Proof.Machine
end

