-- ==== Sys2Proof/Machine/Region.lean ====
section
/-! DEFINITION. The regions in time (R33 to R66): which word an element executes, the windows, the end of a region cycle
with its retirements, freezes and discards, the end of an invocation, frames and the cue, starts and resumes. -/

namespace Sys2Proof.Machine

/-! ### Kernels -/

/-- Ring word of a row and slot (R33). -/
def ringWord (r : Region) (row slot : Nat) : Word := r.ring.get 0 (32 * row + slot)
/-- Stage of a row and slot. -/
def ringStage (r : Region) (row slot : Nat) : Nat := (r.stage.get 0 (32 * row + slot)).toNat

/-- Schedule positions of the placed words: an unused slot holds the zero word with stage 0 (R33). -/
def placedPositions (r : Region) : List Nat :=
  (List.range 8).flatMap fun row => (List.range r.ii).filterMap fun slot =>
    if ringWord r row slot == 0 && ringStage r row slot == 0 then none else some (ringStage r row slot * r.ii + slot)

/-- Position of the last placed word. -/
def lastPos (r : Region) : Nat := (placedPositions r).foldl max 0

/-- Region cycle in which column 15 executes the word at a position of iteration `i` (R34). -/
def eastCycle (r : Region) (v : Invocation) (i pos : Nat) : Nat := v.c0.getD 0 + (i - v.first) * r.ii + pos + 15

/-- The word that element `k` executes in this region cycle; none where the row head handed out a NOP (R34). -/
def handedWord (r : Region) (k : Nat) : Option Word :=
  match r.inv.bind fun v => v.c0.map fun c0 => (v, c0) with
  | none => none
  | some (v, c0) =>
    let col := k % 16
    let row := k / 16
    if r.ii == 0 || decide (r.rc < c0 + col) then none else
      let q := (r.rc - c0 - col) / r.ii
      let slot := (r.rc - c0 - col) % r.ii
      let t := ringStage r row slot
      if decide (q < t) || decide (v.count ≤ v.first + (q - t)) then none else some (ringWord r row slot)

/-- The region runs cycles. -/
def isRunning (r : Region) : Bool := r.state == 1 && r.inv.isSome

/-! ### Windows -/

/-- Every access of the window has its bytes. -/
def windowFull (w : Window) : Bool := w.accs.all fun a => a.data.isSome
/-- An access of the window has a fault other than PAGE. -/
def windowFault (w : Window) : Option Code := w.accs.findSome? fun a => a.fault
/-- The window waits on the retry ring. -/
def windowPaged (w : Window) : Bool := w.accs.any fun a => a.data.isNone && a.retry.isSome

/-- What the loaded bytes become at the close (Table 22-2, R465, R467). -/
def windowValue (w : Window) : Fx :=
  let bs := w.accs.map fun a => a.data.getD []
  match w.form with
  | .scalar ty =>
    let n := bytesNat (bs.headD [])
    let len := (bs.headD []).length
    .scalar w.dst (if intTag ty then BitVec.ofInt 32 (sInt (8 * len) n) else BitVec.ofNat 32 n)
  | .line => .vector w.dst (bytesLine (bs.headD []))
  | .indexed width => .vector w.dst (ofLanes width (bs.map bytesNat))

/-- The close of a window is due and can be judged: it does not only wait on the ring. -/
def windowDue (r : Region) (w : Window) : Bool :=
  !w.closed && decide (w.close ≤ r.rc) && (windowFull w || (windowFault w).isSome || !windowPaged w)

/-- The first due window of element `k`, of several the one opened first (DESIGN CHOICE, log 87). -/
def dueWindowOf (r : Region) (k : Nat) : Option Nat :=
  (vget Element.reset r.elems k).wins.findIdx? (windowDue r)

/-- The first such window of a region: element and index. -/
def dueWindow (r : Region) : Option (Nat × Nat) :=
  (List.range 128).findSome? fun k => (dueWindowOf r k).map fun w => (k, w)

/-- A window of the region is due and waits on the retry ring, so the region must freeze (R49). (DESIGN CHOICE, log 64) -/
def mustFreeze (r : Region) : Bool :=
  r.elems.toList.any fun e => e.wins.any fun w => !w.closed && decide (w.close ≤ r.rc) && windowPaged w

/-- The fault with which a window closes: that of an access, or its missing data (R48). An access whose PAGE fault found the ring full
and that has no entry by the close counts as missing data (R281 gives no other end, DESIGN CHOICE, log 19). -/
def closeFault (w : Window) : Option Code :=
  match windowFault w with
  | some c => some c
  | none => if windowFull w then none else some 0x10

/-- A window of the region closes: its fault is found, or its destination is written at the end of this cycle, so that words of the
next cycle see it (R47, R48, R129). -/
def closeWindow (s : State) (g k n : Nat) (w : Window) : State :=
  match closeFault w with
  | some c => modRegion (setWindow s g k n none) g fun r => { r with faults := r.faults ++ [⟨w.iter, k / 16, k % 16, w.pos, c, 0⟩] }
  | none => setWindow s g k n (some { w with closed := true })

/-! ### Freeze, discard and the end of a cycle -/

/-- A word retiring in this cycle: element, and its record. -/
abbrev Retiring := Nat × Pending

/-- The effects of MMA and MMASP come first in a cycle (R143). -/
def isMma (fx : Fx) : Bool :=
  match fx with
  | .mma _ _ _ _ _ _ => true
  | _ => false

/-- The words of a region whose retirement is due, in element order. -/
def retiring (r : Region) (due : Pending → Bool) : List Retiring :=
  (List.range 128).flatMap fun k => ((vget Element.reset r.elems k).pend.filter due).map fun p => (k, p)

/-- The effects of one word: all of them, or none and its fault (R87). -/
def applyWord (g : Nat) (s : State) (w : Retiring) (l : List Fx) : State × List FaultRec :=
  match l.foldlM (fun s fx => applyFx s g w.1 w.2.iter w.2.pos fx) s with
  | .ok s => (s, [])
  | .error (c, cause) => (s, [⟨w.2.iter, w.1 / 16, w.1 % 16, w.2.pos, c, cause⟩])

/-- The words of one cycle retire: MMA first (R143), then each word's other effects in element order, so that an MMODE that changes the
type, which column 0 of row 0 executes, zeroes the files before a WLOAD or MMETA of the cycle writes them (R148, DESIGN CHOICE, log 100). -/
def applyWords (g : Nat) (s : State) (ws : List Retiring) : State × List FaultRec :=
  let part := fun (p : Fx → Bool) (acc : State × List FaultRec) =>
    ws.foldl (fun acc w =>
      let r := applyWord g acc.1 w (w.2.fx.filter p)
      (r.1, acc.2 ++ r.2)) acc
  part (fun fx => !isMma fx) (part isMma (s, []))

/-- The region without the pending words that `p` selects. -/
def dropPending (r : Region) (p : Pending → Bool) : Region :=
  { r with elems := r.elems.map fun e => { e with pend := e.pend.filter fun q => !p q } }

/-- The retirements of a region that `due` selects, all of one cycle: the state after them, and the faults they meet. -/
def retireRegion (s : State) (g : Nat) (due : Pending → Bool) : State × List FaultRec :=
  applyWords g (modRegion s g fun r => dropPending r due) (retiring (region s g) due)

/-- The result writes of the RMWS words whose last cycle is this one (R243). -/
def rmwStep (s : State) (g : Nat) : State :=
  modRegion s g fun r => (r.rmwBusy.filter fun p => p.last == r.rc).foldl (fun r p => nodeWrite r p.node p.off p.data) r

/-- The older of two faults: the oldest iteration, then the lowest row, then the lowest column (R51). -/
def olderFault (a b : FaultRec) : FaultRec :=
  let key := fun (f : FaultRec) => f.iter * 2 ^ 16 + f.row * 16 + f.col
  if key b < key a then b else a

/-- The fault that is reported (R51). -/
def reported : List FaultRec → Option FaultRec
  | [] => none
  | f :: l => some (l.foldl olderFault f)

/-- Iteration vector of a linear index under the sampled extents (R36, Table 2-6). -/
def iterVector (ext : BitVec 64) (i : Nat) : BitVec 64 :=
  let n := fun d => max 1 (bits ext.toNat (16 * d) 16)
  BitVec.ofNat 64 (i % n 0 + 2 ^ 16 * (i / n 0 % n 1) + 2 ^ 32 * (i / n 0 / n 1 % n 2) +
    2 ^ 48 * (i / n 0 / n 1 / n 2 % 2 ^ 16))

/-- Every word of iteration `i` has retired (R54): all were executed before this cycle and none is pending, where what fills the
slots after the last placed word counts for nothing (R33). -/
def iterRetired (r : Region) (v : Invocation) (i : Nat) : Bool :=
  decide (eastCycle r v i (lastPos r) < r.rc) && r.elems.toList.all fun e => e.pend.all fun p => p.iter != i || decide (lastPos r < p.pos)

/-- The oldest iteration that has not retired every word. -/
def oldestOpen (r : Region) (v : Invocation) : Nat → Nat → Option Nat
  | 0, _ => none
  | n + 1, i => if v.count ≤ i then none else if iterRetired r v i then oldestOpen r v n (i + 1) else some i

/-- IFINFO of a discard (Table 2-7). -/
def ifinfoOf (f : FaultRec) (p : Nat) (marked : Bool) : BitVec 64 :=
  BitVec.ofNat 64 (f.code.toNat + 2 ^ 13 * (f.row % 8) + 2 ^ 16 * (f.col % 16) + 2 ^ 20 * ((f.iter - p) % 256) +
    2 ^ 28 * (f.pos % 256) + (if marked then 2 ^ 36 else 0) + 2 ^ 37 * (f.cause % 8))

/-- Region cycle in which the word at a position of an iteration executes in a column (R34). -/
def execCycle (r : Region) (iter pos col : Nat) : Nat :=
  let v := r.inv.map fun v => (v.c0.getD 0, v.first)
  (v.getD (0, 0)).1 + iter * r.ii + pos + col - (v.getD (0, 0)).2 * r.ii

/-- The windows of a region that `p` selects write their destinations and go; of one element, the one opened first writes first, so
the value of a later one stands (DESIGN CHOICE, log 87). -/
def writeWindows (s : State) (g : Nat) (p : Nat → Window → Bool) : State :=
  (List.range 128).foldl (fun s k =>
    let ws := (elemAt s g k).wins.filter (p k)
    if ws.isEmpty then s else
      ws.foldl (fun s w => (applyWord g s (k, ⟨0, 0, w.iter, w.pos, []⟩) [windowValue w]).1)
        (modElem s g k fun e => { e with wins := e.wins.filter fun w => !p k w })) s

/-- The windows that have closed in this cycle write their destinations. They are written before the retirements of the cycle, so a
word that writes the register in that cycle writes it last (R129, DESIGN CHOICE, log 69). -/
def writeClosed (s : State) (g : Nat) : State := writeWindows s g fun _ w => w.closed

/-- Windows of words executed before cycle `cut` whose data have arrived complete with the words that opened them; the
others are dropped. They are written after every word that completes, in the order in which they opened (DEDUCED, log 9). -/
def dropWindows (s : State) (g cut : Nat) : State :=
  let r := region s g
  let s := writeWindows s g fun k w => windowFull w && decide (execCycle r w.iter w.pos (k % 16) < cut)
  modRegion s g fun r => { r with elems := r.elems.map fun e => { e with wins := [] } }

/-- The words left in flight that executed before cycle `cut` complete, in the order of their retirement, MMA first in a cycle
(R143); the later ones have no effect, and the windows follow these words (R48, DEDUCED, log 9). -/
def settleWords (s : State) (g cut : Nat) : State :=
  let stays := fun (iter pos col : Nat) => decide (execCycle (region s g) iter pos col < cut)
  let rmw := (region s g).rmwBusy.filter fun p => stays p.iter p.pos p.col
  let s := modRegion s g fun r =>
    { dropPending r fun p => decide (cut ≤ p.start) with
      beats := r.beats.filter fun b => stays b.iter b.pos b.col
      rmwBusy := [] }
  let s := modRegion s g fun r => rmw.foldl (fun r p => nodeWrite r p.node p.off p.data) r
  let order := fun (w : Retiring) => 2 * w.2.ret + if w.2.fx.any isMma then 0 else 1
  let ws := sortBy order (retiring (region s g) fun _ => true)
  let s := modRegion s g fun r => dropPending r fun _ => true
  ws.foldl (fun s w => (applyWord g s w w.2.fx).1) s

/-- The first region cycle of a region that a discard leaves without effect: that of its earliest faulting word, or this
one where it has no fault of its own (R48, R52). -/
def cutCycle (r : Region) : Nat :=
  r.faults.foldl (fun n f => min n (execCycle r f.iter f.pos f.col)) r.rc

/-- The requester is a window of the region. -/
def isWindowOf (g : Nat) (q : Requester) : Bool :=
  match q with
  | .window g' _ _ _ => g' == g
  | _ => false
/-- The requester is an AMO of the region. -/
def isAmoOf (g : Nat) (q : Requester) : Bool :=
  match q with
  | .amo g' => g' == g
  | _ => false

/-- The iteration at which a discarded invocation restarts: the oldest one that had not retired every word, or the faulting one
where it is older (R54); of an invocation that is discarded already, the restart iteration that stands, or the faulting one
(R160). A region with no fault of its own that has retired every word restarts at the first of its invocation (DESIGN CHOICE,
log 23). -/
def restartIter (r : Region) (v : Invocation) (f : FaultRec) (own : Bool) : Nat :=
  if r.state == 3 then min v.first f.iter else
    match oldestOpen r v (v.count - v.first) v.first with
    | some i => if own then min i f.iter else i
    | none => if own then f.iter else v.first

/-- The windows, words and beats of a region in flight that executed before cycle `cut` complete, in the order in which they would have
been written: what this cycle closes and retires first (R48, R51, DEDUCED, log 9). -/
def completeBefore (s : State) (g cut : Nat) : State :=
  let r := region s g
  let s := writeWindows s g fun k w => w.closed && decide (execCycle r w.iter w.pos (k % 16) < cut)
  (retireRegion s g fun p => decide (p.start < cut) && decide (p.ret ≤ r.rc)).1

/-- The restart marks that count though their words execute in cycle `cut` or later: a mark of column 15 that retires in this cycle (R53,
Table 2-10), or that retires with a word that completes (06_notation.md, "Restart mark"), where no word of its element before it goes
without effect and it is no faulting word itself. (DEDUCED, log 9) -/
def passMarks (s : State) (g cut : Nat) : State :=
  let r := region s g
  (List.range 8).foldl (fun s row =>
    let pend := (vget Element.reset r.elems (16 * row + 15)).pend
    let counts := fun (p : Pending) =>
      decide (cut ≤ p.start) && p.fx.contains .mark &&
        (decide (p.ret ≤ r.rc) || pend.any fun c => decide (c.start < cut) && c.ret == p.ret) &&
        pend.all (fun q => decide (q.start < cut) || decide (p.start ≤ q.start)) &&
        r.faults.all fun f => !(f.iter == p.iter && f.pos == p.pos && f.row == row && f.col == 15)
    (pend.filter counts).foldl (fun s p => (applyWord g s (16 * row + 15, p) [.mark]).1) s) s

/-- The hold buffer after a discard with restart iteration `p`, with the retry entries of the stores that go withdrawn (R50, R54). -/
def discardHeld (s : State) (g p : Nat) (v : Invocation) : State :=
  let kept := pruneHold v p (region s g).hold
  let slots := kept.flatMap fun e => e.stores.filterMap fun t => t.retry
  modRegion (withdrawRetry s fun q => isHeldOf g q.who && !slots.contains q.slot) g fun r => { r with hold := kept }

/-- A region's invocation is discarded in this cycle for a fault (R51, R54): words executed before the faulting one complete, it
and every later word have no effect (R48), and held stores of the restart iteration and later go. A fault of a kept store or AMO is
found when the invocation is discarded already: it takes the place of the fault before it (R160).
(DEDUCED, log 9, DESIGN CHOICE, log 23, DESIGN CHOICE, log 24) -/
def discardRegion (s : State) (g : Nat) (f : FaultRec) (own : Bool) : State :=
  let now := (region s g).rc
  let again := (region s g).state == 3
  let cut := cutCycle (region s g)
  let s := if again then s else completeBefore (passMarks s g cut) g cut
  match (region s g).inv with
  | none => s
  | some v =>
    let p := restartIter (region s g) v f own
    let s := if again then s else withdrawRetry (dropWindows (settleWords s g cut) g cut) fun q => isWindowOf g q.who
    let marks := (((region s g).inv.map fun v => v.marks).getD v.marks)
    let v := { v with marks := marks }
    let s := discardHeld s g p v
    let f := if own then f else { f with iter := p, row := 0, col := 0, pos := 0 }
    let s := modRegion s g fun r =>
      { r with
        state := 3
        ifvec := iterVector v.ext p
        ifinfo := ifinfoOf f p (marks.get 0 p != 0)
        inv := some { v with first := p, c0 := none }
        elems := r.elems.map fun e => { e with lastRet := min e.lastRet now }
        cursor := 0
        freezeStart := none
        endStart := none
        freezeWanted := false
        faults := []
        portUse := []
        rmwBusy := []
        travel := [] }
    if (core s g).ien then postStage s g f.code.toNat 1 0 else s

/-- The record of a fault of a word whose invocation has ended: nothing is left to discard. IFVEC is the vector of the faulting iteration
under IEXT as it stands, and MARKED is 0 (R51, R160, R431, DESIGN CHOICE, log 88). -/
def lateFault (s : State) (g : Nat) (f : FaultRec) : State :=
  let s := modRegion s g fun r => { r with ifvec := iterVector r.iext f.iter, ifinfo := ifinfoOf f f.iter false, faults := [] }
  if (core s g).ien then postStage s g f.code.toNat 1 0 else s

/-- The regions of freeze group `n` that hold an invocation in progress (R52). -/
def groupRegions (s : State) (n : Nat) : List Nat :=
  (List.range 32).filter fun g =>
    let r := region s g
    r.group == n && (r.state == 1 || r.state == 2) && r.inv.isSome

/-- The regions of freeze group `n` whose invocation is discarded and that have met a fault since (R160). -/
def againRegions (s : State) (n : Nat) : List Nat :=
  (List.range 32).filter fun g =>
    let r := region s g
    r.group == n && r.state == 3 && r.inv.isSome && !r.faults.isEmpty

/-- A freeze group is discarded: the fault is reported in the region that met it, and its siblings are discarded in
the same cycle (R52). Where several regions of the group fault in one cycle, each reports its own (DESIGN CHOICE, log 23). -/
def discardGroup (s : State) (n : Nat) : State :=
  let gs := groupRegions s n ++ againRegions s n
  let all := gs.flatMap fun g => (region s g).faults
  match reported all with
  | none => s
  | some first => gs.foldl (fun s g =>
      match reported (region s g).faults with
      | some f => discardRegion s g f true
      | none => discardRegion s g first false) s

/-- A freeze group freezes: its clock stops in this cycle, which is taken up again after the thaw (R49); no word of it uses a node port
meanwhile (R16). -/
def freezeGroup (s : State) (n : Nat) : State :=
  (groupRegions s n).foldl (fun s g => modRegion s g fun r =>
    { r with state := 2, freezeStart := some s.clock, freezeWanted := false, cursor := 128, portUse := [] }) s

/-- A region goes on to its next cycle. -/
def nextCycle (r : Region) : Region :=
  { r with
    rc := r.rc + 1
    cursor := 0
    portUse := []
    rmwBusy := r.rmwBusy.filter fun p => decide (r.rc + 1 ≤ p.last)
    travel := r.travel.filter fun p => decide (r.rc ≤ p.1 / 8 + 16) }

/-- The retirements of one cycle of a freeze group, with the faults they meet, by region. -/
def retireGroup : State → List Nat → State × List (Nat × FaultRec)
  | s, [] => (s, [])
  | s, g :: l =>
    let now := (region s g).rc
    let (s, fs) := retireRegion (writeClosed (rmwStep s g) g) g fun p => decide (p.ret ≤ now)
    let (s, rest) := retireGroup s l
    (s, fs.map (fun f => (g, f)) ++ rest)

/-- A thawed region goes on: its retry entries are complete (R49). -/
def thawGroup (s : State) (n : Nat) : State :=
  (groupRegions s n).foldl (fun s g => modRegion s g fun r => { r with state := 1, freezeStart := none }) s

/-- In a frozen region, the windows that are due and have met a fault close: a replay has met it, and it discards the invocation at
once, whatever other windows still wait (R51, R415). -/
def closeFaulted (s : State) (g : Nat) : State :=
  let bad := fun (w : Window) => windowDue (region s g) w && (windowFault w).isSome
  (List.range 128).foldl (fun s k =>
    ((elemAt s g k).wins.filter bad).foldl (fun s w => closeWindow s g k ((elemAt s g k).wins.findIdx fun o => o == w) w) s) s

/-- The end of a cycle of a freeze group: a discard, a freeze, or the retirements of the cycle (R48 to R52, R88). A group that
is frozen does nothing, unless a replay has met a fault (R51, R415). -/
def endGroup (s : State) (n : Nat) : State :=
  let gs := groupRegions s n
  let faulted := fun (s : State) => (gs ++ againRegions s n).any fun g => !(region s g).faults.isEmpty
  if gs.any fun g => (region s g).state == 2 then
    let s := gs.foldl closeFaulted s
    if faulted s then discardGroup s n else s
  else
  let (t, fs) := retireGroup s gs
  let s' := fs.foldl (fun s p => modRegion s p.1 fun r => { r with faults := r.faults ++ [p.2] }) s
  if faulted s' then discardGroup s' n
  else if gs.any fun g => (region s g).freezeWanted then freezeGroup s n
  else gs.foldl (fun s g => modRegion s g nextCycle) t

/-- The faults of region `g` that concern no invocation of it are recorded: of several, the one that R51 reports. -/
def recordLate (s : State) (g : Nat) : State :=
  if 1 ≤ (region s g).state.toNat && (region s g).state.toNat ≤ 3 then s else
    match reported (region s g).faults with
    | some f => lateFault s g f
    | none => s

/-- The cycles of the regions that run no word: they count while the region is idle or faulted, and neither frozen with its
group nor at a frame boundary (R35, R52). -/
def idleCycles (s : State) : State :=
  let frozen := fun (r : Region) => (die s).regions.toList.any fun q => q.group == r.group && q.state == 2
  let step := fun (r : Region) => if (r.state == 0 || r.state == 3) && !frozen r then nextCycle r else r
  modDie s fun d => { d with regions := d.regions.map step }

/-- Freeze groups with an invocation in progress, or with a discarded one that has met a fault. -/
def activeGroups (s : State) : List Nat :=
  (List.range 32).filter fun n => !(groupRegions s n).isEmpty || !(againRegions s n).isEmpty

/-! ### The end of an invocation, frames and starts -/

/-- The marked regions of a graph's load. -/
def markedRegions (s : State) (gid : Nat) : List Nat :=
  (List.range 32).filter fun g => (region s g).owner == some gid && (region s g).framed

/-- The region completes its frame: FRAMES, STATE 4, and its cue request; when it is the last of the load, the cue
follows eight cycles after cycle `now` (R60, R61). -/
def completeFrame (s : State) (g now : Nat) : State :=
  let s := modRegion s g fun r => { r with frames := r.frames + 1, state := 4, cueReq := true }
  match (region s g).owner with
  | none => s
  | some gid =>
    if (markedRegions s gid).all fun m => (region s m).cueReq then
      modGraph s gid fun gr => { gr with cueAt := some now }
    else s

/-- The invocation ends: its hold buffer is released, and when every entry has performed and every contribution is
judged, DONE counts it and a pending frame completes, with the slot counter held (R43, R60, R292). Contributions may not be released
while the graph's commit group is open: each is a discarding fault of its word, and nothing is released (R319, R410). (DEDUCED, log 48) -/
def endInvocation (s : State) (g now : Nat) : State :=
  let reds := heldReds (region s g)
  if regionGroupOpen s g && !reds.isEmpty then reds.foldl (fun s t => storeFault s g t 0x01) s else
  let s := releaseHold s g
  if (openContribution s (ofElems g)).isSome then s else
  let slot := fun (r : Region) => if r.ii == 0 then 0 else (r.rc - 1 - (r.inv.bind fun v => v.c0).getD r.rc) % r.ii
  let s := modRegion s g fun r =>
    { r with done := r.done + 1, state := 0, slot := slot r, inv := none, cursor := 0, freezeStart := none, endStart := none, faults := [],
             freezeWanted := false, travel := [], portUse := [], rmwBusy := [] }
  let r := region s g
  if r.framePending && r.framed then completeFrame s g now else s

/-- Every word of the last iteration has retired in column 15 and every window has closed (R43). -/
def wordsDone (r : Region) : Bool :=
  match r.inv with
  | none => false
  | some v =>
    v.c0.isSome && decide (eastCycle r v (v.count - 1) (lastPos r) < r.rc) &&
      r.elems.toList.all fun e => e.pend.isEmpty && e.wins.isEmpty

/-- The retry entries of the region's stores are complete (R43). -/
def storesDone (r : Region) : Bool := ((heldStores r).all fun t => t.xlat.isSome) && r.amoWait.isEmpty

/-- The extents of an IEXT value, and their product (R36). -/
def extents (ext : BitVec 64) : List Nat := (List.range 4).map fun d => bits ext.toNat (16 * d) 16
def extentProduct (ext : BitVec 64) : Nat := (extents ext).foldl (· * ·) 1

/-- An invocation begins at an iteration: it samples the registers, the seed and the shadow windows (R37, R109,
R178). Its first word is handed out in region cycle `c0`, or, with none, in the cue cycle. -/
def sampleInv (s : State) (g first : Nat) (c0 : Option Nat) (marks resume : Table Nat) : Invocation :=
  let r := region s g
  { first := first, count := extentProduct r.iext, ext := r.iext, c0 := c0, vc := r.vc, tq := r.tq,
    seed := (core s g).rsbase, shadow := r.shadow, marks := marks, resume := resume }

/-- A start that is handed out four cycles after the MTSR; one beyond its last iteration ends at once (R46). While the freeze group of
the region is frozen the started region reads STATE 1 and runs no cycle until the thaw (DESIGN CHOICE, log 99). -/
def startNow (s : State) (g : Nat) (v : Invocation) : State :=
  let v := { v with c0 := some ((region s g).rc + 4) }
  let s := modRegion s g fun r => { r with state := 1, inv := some v, cursor := 0, freezeWanted := false }
  if v.count ≤ v.first then endInvocation s g s.clock else s

/-- The value written to ISTART, split (Table 2-4): FIRST, RESUME and CANCEL. -/
def istartFirst (v : X) : Nat := bits v.toNat 0 32
def istartResume (v : X) : Bool := v.getLsbD 32
def istartCancel (v : X) : Bool := v.getLsbD 33

/-- The modulo slot counter: running in an invocation (R34), held at a frame boundary (R60), and 0 where the region is idle or
faulted (DESIGN CHOICE, log 70). -/
def slotCounter (r : Region) : Nat :=
  if r.state == 4 || r.state == 5 then r.slot
  else if r.ii == 0 then 0
  else match r.inv.bind fun v => v.c0 with
    | some c0 => if c0 ≤ r.rc then (r.rc - c0) % r.ii else 0
    | none => 0

/-- The faults that the discarded invocation of a region has met in this cycle are reported before a resume or a cancel that follows
them (R160). -/
def judged (s : State) (g : Nat) : State :=
  if (region s g).faults.isEmpty then s else discardGroup s (region s g).group

/-- A WRITE TO ISTART of region `g` (R46, Table 2-9, R55, R62): the state after it, or its fault. A resume keeps the seed of the
first start, under which its iterations round as they did (R109), and samples the rest afresh; the extents it samples are not checked
again, so with a zero extent it ends at once and a product beyond 2^31 is taken as it is (DESIGN CHOICE, log 39). -/
def writeIstart (s : State) (g : Nat) (v : X) : Except Code State :=
  let r := region s g
  if bits v.toNat 34 30 != 0 then .error 0x22 else
  match istartCancel v, istartResume v, r.state.toNat with
  | false, false, 0 =>
    if (extents r.iext).contains 0 || decide (2 ^ 31 < extentProduct r.iext) then .error 0x01
    else .ok (startNow (recordLate s g) g (sampleInv s g (istartFirst v) none [] []))
  | false, false, 4 =>
    if (extents r.iext).contains 0 || decide (2 ^ 31 < extentProduct r.iext) then .error 0x01
    else .ok (modRegion s g fun r => { r with state := 5, inv := some (sampleInv s g (istartFirst v) none [] []) })
  | false, true, 3 =>
    let s := judged s g
    (match (region s g).inv with
     | some w =>
       if istartFirst v != 0 then .error 0x01 else
         let kept := w.marks.filter fun p => decide (w.first ≤ p.1)
         let v := sampleInv s g w.first none kept (kept.map fun p => (p.1, p.2 - 1))
         .ok (startNow s g { v with seed := w.seed })
     | none => .error 0x01)
  | true, false, 3 =>
    if istartFirst v != 0 then .error 0x01 else
      let s := withdrawRetry (judged s g) fun q => isHeldOf g q.who
      let s := modRegion s g fun r => { r with state := 0, slot := slotCounter r, hold := [], inv := none }
      .ok (if (region s g).framePending && (region s g).framed then completeFrame s g s.clock else s)
  | _, _, _ => .error 0x01

/-- The cue wire releases every marked region of a graph's load: pending starts are handed out in this cycle, the
others are idle (R61). -/
def releaseCue (s : State) (gid : Nat) : State :=
  let s := modGraph s gid fun gr => { gr with cueAt := none }
  (markedRegions s gid).foldl (fun s g =>
    let waiting := (region s g).state == 5
    let s := modRegion s g fun r => { r with framePending := false, cueReq := false, cueRc := r.rc, slot := 0 }
    if !waiting then modRegion s g fun r => { r with state := 0 } else
      let s := modRegion s g fun r =>
        { r with state := 1, cursor := 0, faults := [], inv := r.inv.map fun v => { v with c0 := some r.rc } }
      match (region s g).inv with
      | some v => if v.count ≤ v.first then endInvocation s g s.clock else s
      | none => s) s

/-- ISTAT (Table 2-5); SLOT reads 0 in STATE 0 and 3 (DESIGN CHOICE, log 70). -/
def istat (r : Region) : X := BitVec.ofNat 64 (r.state.toNat + 2 ^ 8 * slotCounter r + 2 ^ 32 * r.done.toNat)

/-- II intervals of region cycles since the last cue (R59). -/
def frameIntervals (r : Region) : Nat := if r.ii == 0 then 0 else (r.rc - r.cueRc) / r.ii

/-- FRMCNT (Table 2-8). -/
def frmcnt (r : Region) : X := BitVec.ofNat 64 (r.frames.toNat + 2 ^ 32 * min 255 (frameIntervals r))

end Sys2Proof.Machine
end

