-- ==== Sys2Proof/Machine/Node.lean ====
section
/-! DEFINITION. The memory nodes as the words of a schedule reach them: ports (R16, R339), cycles that belong to an RMWS
(R244), scratch addresses (R242), and the limit of the pinned pool (R256). -/

namespace Sys2Proof.Machine

/-- A scheduled access of the executing element takes a port of node `j`, or conflicts (R339, R244). (DESIGN CHOICE, log 29) -/
def takePort (s : State) (j : Nat) (write : Bool) : Except Stop State :=
  let r := region s (myRegion s)
  if rmwHolds r j || r.portUse.any (fun p => p.1 == j && p.2.1 == write) then .error (.trap 0x12 0)
  else .ok (modRegion s (myRegion s) fun r => { r with portUse := r.portUse ++ [(j, write, myElemIx s)] })

/-- A port of each of the nodes is taken (R154). -/
def takePorts (s : State) (write : Bool) : List Nat → Except Stop State
  | [] => .ok s
  | j :: l =>
    match takePort s j write with
    | .error e => .error e
    | .ok s => takePorts s write l

/-- The scheduled accesses of this cycle to node `j` fault, because an RMWS takes it (R244). -/
def faultUsers (s : State) (j : Nat) : State :=
  modRegion s (myRegion s) fun r =>
    { r with faults := r.faults ++ (r.portUse.filter fun p => p.1 == j).map fun p =>
      ⟨iterOf r (p.2.2 / 16) (p.2.2 % 16), p.2.2 / 16, p.2.2 % 16, posOf r (p.2.2 / 16) (p.2.2 % 16), 0x12, 0⟩ }

/-! ### The cycles the schedule leaves free (R16) -/

/-- A port of node `j`, as a number. -/
def portNo (j : Nat) (write : Bool) : Nat := 2 * j + if write then 1 else 0

/-- The turns at a node port; the copy engine counts as served second, so it goes first where both wait for the first time (R16, DESIGN
CHOICE, log 90). -/
def turnOf (r : Region) (n : Nat) : PortTurn := (r.portTurn.get none n).getD ⟨false, false, none, none⟩

/-- A beat of a remote BUFPUT is written at node `j` of region `g` in this cycle (R354): it takes the write port, as the access of a
schedule; toward the words of the region itself it raises no conflict (DESIGN CHOICE, log 29). -/
def beatDue (s : State) (g j : Nat) : Bool :=
  (die s).regions.toList.any fun q => q.state != 2 &&
    q.beats.any fun b => decide (b.left ≤ 1) && b.g == g && (bufAt (region s g) b.buf).any fun b => b.node == j

/-- The schedule leaves a port of node `j` free in this cycle: the elements have executed, and neither one of them, nor an RMWS, nor a
beat from another region takes it (R16, R244, R354). -/
def portFree (s : State) (g j : Nat) (write : Bool) : Bool :=
  let r := region s g
  (!isRunning r || decide (128 ≤ r.cursor)) && !rmwHolds r j && !(r.portUse.any fun p => p.1 == j && p.2.1 == write) &&
    !(write && beatDue s g j)

/-- The stagehand core, or a copy engine, may take a port of node `j` in this cycle: it is free and not taken, and where the
other of the two waits for it, this one was not served last (R16). -/
def mayTakeNode (s : State) (g j : Nat) (write engine : Bool) : Bool :=
  let r := region s g
  let t := turnOf r (portNo j write)
  let waits := fun (w : Option Nat) => w.any fun c => decide (s.clock ≤ c + 1)
  portFree s g j write && !t.taken && !(waits (if engine then t.coreWaits else t.engineWaits) && t.engineLast == engine)

/-- One of the two takes a port of node `j` in this cycle. -/
def takeNode (s : State) (g j : Nat) (write engine : Bool) : State :=
  modRegion s g fun r =>
    let t := turnOf r (portNo j write)
    let t := { t with taken := true, engineLast := engine, coreWaits := if engine then t.coreWaits else none,
                      engineWaits := if engine then none else t.engineWaits }
    { r with portTurn := r.portTurn.set none (portNo j write) (some t) }

/-- One of the two is kept waiting for a port of node `j` in this cycle. -/
def awaitNode (s : State) (g j : Nat) (write engine : Bool) : State :=
  modRegion s g fun r =>
    let t := turnOf r (portNo j write)
    let t := if engine then { t with engineWaits := some s.clock } else { t with coreWaits := some s.clock }
    { r with portTurn := r.portTurn.set none (portNo j write) (some t) }

/-- The node ports are free again in the next cycle. -/
def freePorts (r : Region) : Region :=
  { r with portTurn := r.portTurn.map fun p => (p.1, p.2.map fun t => { t with taken := false }) }

/-- Bytes of a node from `off` on that lie below its end, and below the pinned pool while the table is enabled
(R154, R256). -/
def nodeInside (s : State) (off len : Nat) : Bool := decide (off + len ≤ if poolOn s then poolStart else nodeBytes)

/-- Bytes of node `j` that touch a declared buffer (R242). -/
def inBuffer (r : Region) (j off len : Nat) : Bool :=
  r.bufs.any fun b => b.node == j && decide (off < b.base + b.depth * b.bytes) && decide (b.base < off + len)

/-- A scratch address: region, node and byte; or PROT, then ALIGN (R242). -/
def scratchAddr (s : State) (a size : Nat) : Except Code (Nat × Nat × Nat) :=
  let mgr := (kindOf s).isMgr
  let g := if mgr then bits a 23 5 else myRegion s
  let j := bits a 19 4
  let off := bits a 0 19
  if 2 ^ 28 ≤ a || (!mgr && bits a 23 5 != 0) then .error 0x21
  else if (poolOn s && decide (poolStart < off + size)) || inBuffer (region s g) j off size then .error 0x21
  else if a % size != 0 then .error 0x23
  else .ok (g, j, off)

end Sys2Proof.Machine
end

