-- ==== Sys2Proof/Machine/Matrix.lean ====
section
/-! DEFINITION. The matrix words, format MX (R141 to R154). -/

namespace Sys2Proof.Machine

/-- The accumulator row that a word names (R146). -/
def accRow (s : State) (row : BitVec 9) (b : Reg) : Nat := (row.toNat + (eScalar s b).toNat) % 512

/-- A mode that a word of the array requires (R147). -/
def modeIs (s : State) (ty : BitVec 4) : Bool :=
  (region s (myRegion s)).mm == 1 && (region s (myRegion s)).mt == ty

/-- The executing element is in column 0. -/
def west (s : State) : Bool := myCol s == 0

/-- MMODE: acts in row 0, column 0 (R148). -/
def execMmode (h : Hdr) (ty : BitVec 4) (f : BitVec 1) (s : State) :=
  elemWord (.mmode h ty f) s fun s => .ok (s, if west s && myRow s == 0 then [.mode f ty] else [])

/-- WLOAD: a quarter of the weight file, or the scale file (R149). -/
def execWload (h : Hdr) (a b : Reg) (ty : BitVec 4) (f : BitVec 1) (s : State) :=
  elemWord (.wload h a b ty f) s fun s =>
    let v := eVector s a 8
    if !modeIs s ty || (f == 1 && !mxTag ty) then .error (.trap 0x01 0)
    else .ok (s, [if f == 1 then .scale (v.setWidth 128) else .weight ((eScalar s b).toNat % 4) v])

/-- MMETA (R150). -/
def execMmeta (h : Hdr) (a : Reg) (s : State) :=
  elemWord (.mmeta h a) s fun s => .ok (s, [.metaFile (eVector s a 8)])

/-! ### Products -/

/-- Values that a row presents to a column, and the output columns of an element (Table 7-1, R153). -/
def mmaDepth (mt : BitVec 4) (sparse : Bool) : Nat :=
  if sparse then 32 else if mt == 7 then 32 else if mt == 0 then 2 else if mt == 1 || mt == 2 then 8
  else if mt == 12 then 1 else 16
def mmaCols (mt : BitVec 4) : Nat := if mt == 12 then 8 else 16
/-- Lane width of the weight file. -/
def weightBits (mt : BitVec 4) : Nat := if mt == 7 then 4 else if mxTag mt then 8 else tagWidth mt

/-- Weight (k, n) of an element: its file's lane, with the scale of its column for an MX type (R142, R149). -/
def weightVal (e : Element) (mt : BitVec 4) (k n : Nat) : FVal :=
  let v := bits e.weight.toNat (weightBits mt * (k * mmaCols mt + n)) (weightBits mt)
  if !mxTag mt then arithValue mt v else
    let scale := bits e.scale.toNat (8 * n) 8
    if scale == 0xFF then .nan false else scaleV (mxElem mt v) ((scale : Int) - 127)

/-- Value `k` of the slice that a row presents: a lane, or an element of block 0 of an MX pair (R151). -/
def sliceVal (mt : BitVec 4) (v : Wide) (k : Nat) : FVal :=
  if mxTag mt then
    let p := pairBlock mt (v.setWidth 512) ((v >>> 512).setWidth 512) 0
    mxValue mt p.1 p.2.1 p.2.2 k
  else arithValue mt (bits v.toNat (tagWidth mt * k) (tagWidth mt))

/-- Nibble `j` of word `n` of a metadata file, and whether it is legal (R150, R153). -/
def metaNibble (e : Element) (n j : Nat) : Nat := bits e.metaFile.toNat (32 * n + 4 * j) 4
def nibbleOk (v : Nat) : Bool := decide (v % 4 < v / 4)

/-- Products of one row for output column `n`: dense (R152), or by the selectors of 2:4 form (R153). -/
def rowTerms (e : Element) (mt : BitVec 4) (sparse : Bool) (v : Wide) (n : Nat) : List (FVal × Flags) :=
  if sparse then (List.range 16).map fun k =>
    let nib := metaNibble e n (k / 2)
    mulV (sliceVal mt v (4 * (k / 2) + if k % 2 == 0 then nib % 4 else nib / 4)) (weightVal e mt k n)
  else (List.range (mmaDepth mt false)).map fun k => mulV (sliceVal mt v k) (weightVal e mt k n)

/-- One exact sum of products, with its flags. -/
def sumProducts (rm : BitVec 3) (ts : List (FVal × Flags)) : FVal × Flags :=
  let t := sumTerms rm (ts.map fun p => p.1)
  (t.1, ts.foldl (fun f p => f ||| p.2) t.2)

/-- What travels with the word that column `c` of a row executes now (R151). -/
def travelling (r : Region) (row c : Nat) : List Wide := r.travel.get [] (8 * (r.rc - c) + row)

/-- The word of a row of the executing region sends values east with it. -/
def sendEast (s : State) (vs : List Wide) : State :=
  modRegion s (myRegion s) fun r => { r with travel := r.travel.set [] (8 * (r.rc - myCol s) + myRow s) vs }

/-- The product sums of a column, over the eight rows whose words are under way together (R151, R152). Where the stages
of the rows differ, a cycle sums the rows that execute the word in it, and row 7's word is the one that updates the cells. (DEDUCED,
log 37) -/
def columnDots (s : State) (mt : BitVec 4) (sparse : Bool) (rm : BitVec 3) : List (FVal × Flags) :=
  let g := myRegion s
  let r := region s g
  let rows := (List.range 8).filterMap fun q =>
    match travelling r q (myCol s) with
    | [_, v] => some (elemAt s g (16 * q + myCol s), v)
    | _ => none
  (List.range (mmaCols mt)).map fun n => sumProducts rm (rows.flatMap fun p => rowTerms p.1 mt sparse p.2 n)

/-- MMA and MMASP in one element: column 0 presents its slice and its b, every column tests its mode and, in 2:4 form,
its nibbles, and the last row of a column updates the column's cells when its own word retires (R147, R151 to R153,
DESIGN CHOICE, log 84). -/
def arrayWord (i : Instr) (sparse : Bool) (a b : Reg) (ty : BitVec 4) (rm : BitVec 3) (row : BitVec 9)
    (f : BitVec 1) (s : State) : Host.Outcome State Fault Refusal :=
  elemWord i s fun s =>
    let g := myRegion s
    let bv : Wide := (eScalar s b).setWidth 1024
    let pair : Wide := (if mxTag ty then eVector s (a ||| 1) 512 else 0) ++ eVector s a 512
    let head := (travelling (region s g) 0 (myCol s)).headD bv
    let legalMeta := (List.range 16).all fun n => (List.range 8).all fun j => nibbleOk (metaNibble (myElem s) n j)
    if !modeIs s ty then .error (.trap 0x01 0)
    else if west s && head != bv then .error (.trap 0x01 0)
    else if sparse && !legalMeta then .error (.trap 0x30 0)
    else
      let s := if west s then sendEast s [bv, pair] else s
      .ok (s, if myRow s != 7 then [] else
        [.mma ((row.toNat + head.toNat) % 512) (16 * myCol s) (f == 1) ty rm (columnDots s ty sparse rm)])

def execMma (h : Hdr) (a b : Reg) (ty : BitVec 4) (rm : BitVec 3) (row : BitVec 9) (f : BitVec 1) (s : State) :=
  arrayWord (.mma h a b ty rm row f) false a b ty rm row f s
def execMmasp (h : Hdr) (a b : Reg) (ty : BitVec 4) (rm : BitVec 3) (row : BitVec 9) (f : BitVec 1) (s : State) :=
  arrayWord (.mmasp h a b ty rm row f) true a b ty rm row f s

/-! ### Transfers of the accumulator store (R154) -/

def execAccz (h : Hdr) (b : Reg) (row : BitVec 9) (s : State) :=
  elemWord (.accz h b row) s fun s => .ok (s, if west s then [.accZero (accRow s row b)] else [])

/-- ACCRD: block COLB of the row, as raw bits. -/
def execAccrd (h : Hdr) (d b : Reg) (row : BitVec 9) (colb : BitVec 4) (s : State) :=
  elemWord (.accrd h d b row colb) s fun s =>
    let r := region s (myRegion s)
    let cells := (List.range 16).map fun i => (accGet r (accRow s row b) (16 * colb.toNat + i)).toNat
    .ok (s, [.vector d (ofLanes 32 cells)])

/-- ACCWR: the lanes of vA into block COLB of the row. -/
def execAccwr (h : Hdr) (a b : Reg) (row : BitVec 9) (colb : BitVec 4) (s : State) :=
  elemWord (.accwr h a b row colb) s fun s =>
    let cells := (lanes (eVector s a 32) 32).map (BitVec.ofNat 32)
    .ok (s, if west s then [.accCells (accRow s row b) (16 * colb.toNat) cells] else [])

/-- Bytes of a block of 16 cells in a node under TYPE. -/
def accBytes (ty : BitVec 4) : Nat := if ty == 0 then 64 else 32

/-- The node offset of ACCLD and ACCST: ALIGN, then PROT, then the ports of all 16 nodes. -/
def accPlace (s : State) (a : Reg) (ty : BitVec 4) (write : Bool) : Except Stop (Nat × State) :=
  let o := (eScalar s a).toNat
  if o % 64 != 0 then .error (.trap 0x23 0)
  else if !nodeInside s o (accBytes ty) then .error (.trap 0x21 0)
  else match takePorts s write (List.range 16) with
    | .error e => .error e
    | .ok s => .ok (o, s)

/-- ACCLD: the places of a row in the nodes, widened exactly. -/
def execAccld (h : Hdr) (a b : Reg) (ty : BitVec 4) (row : BitVec 9) (s : State) :=
  elemWord (.accld h a b ty row) s fun s =>
    if !west s then .ok (s, []) else
    match accPlace s a ty false with
    | .error e => .error e
    | .ok (o, s) =>
      let r := region s (myRegion s)
      let w := accBytes ty / 16
      let cells := (List.range 256).map fun c =>
        let v := bytesNat (nodeRead r (c / 16) (o + w * (c % 16)) w)
        if ty == 0 then (v, 0) else convertTag ty 0 0 0 v
      .ok (s, [.accCells (accRow s row b) 0 (cells.map fun v => BitVec.ofNat 32 v.1),
        .flags (cells.foldl (fun f v => f ||| v.2) 0)])

/-- ACCST: a row into the nodes, each cell converted from FP32 under TYPE 1 or 2. -/
def execAccst (h : Hdr) (a b : Reg) (ty : BitVec 4) (rm : BitVec 3) (row : BitVec 9) (s : State) :=
  elemWord (.accst h a b ty rm row) s fun s =>
    if !west s then .ok (s, []) else
    match accPlace s a ty true with
    | .error e => .error e
    | .ok (o, s) =>
      let r := region s (myRegion s)
      let w := accBytes ty / 16
      let cells := (List.range 256).map fun c =>
        let v := (accGet r (accRow s row b) c).toNat
        if ty == 0 then (v, 0) else convertTag 0 ty rm 0 v
      .ok (s, ((List.range 16).map fun j =>
          .node j o (((cells.drop (16 * j)).take 16).flatMap fun v => natBytes v.1 w)) ++
        [.flags (cells.foldl (fun f v => f ||| v.2) 0)])

end Sys2Proof.Machine
end

