-- ==== Sys2Proof/Machine/Channel.lean ====
section
/-! DEFINITION. The channel words, format CH: scalar channels (R408, R409, R430, R431), vector channels (R468, R469) with
the converters (R169, R170), and control lines (R357, R358). -/

namespace Sys2Proof.Machine

/-- The executing context is the party of a channel record. -/
def isMe (s : State) (p : Party) : Bool :=
  match s.who with
  | .elem g r _ => !p.sh && p.g == g.val && p.row == r.val
  | .stage g => p.sh && p.g == g.val
  | .mgr => false

/-- The channel record that the executing context produces into, or consumes from. -/
def producing (s : State) (ch : Nat) : Option Chan :=
  (myGraph s).bind fun gr => gr.chans.find? fun c => c.ch == ch && isMe s c.prod
def consuming (s : State) (ch : Nat) : Option Chan :=
  (myGraph s).bind fun gr => gr.chans.find? fun c => c.ch == ch && isMe s c.cons

/-- The executing element is in column 15. -/
def east (s : State) : Bool := myCol s == 15

/-- The oldest entry of a channel's queue is removed. -/
def popChan (s : State) (ch : Nat) : State := modChan s (myRegion s) ch fun c => { c with queue := c.queue.drop 1 }

/-- SEND (R430, R431). A stagehand's waits until its value will find a place, counting those under way, and retires; the value
enters the queue h cycles later (R408, DEDUCED, log 71). -/
def execSend (h : Hdr) (a : Reg) (chan : BitVec 6) (s : State) :=
  word (.send h a chan) s
    (fun s =>
      match producing s chan.toNat with
      | none => .error (.trap 0x01 0)
      | some _ => .ok (s, if east s then [.send chan.toNat (eScalar s a)] else []))
    (fun s =>
      match producing s chan.toNat with
      | none => .error (.trap 0x01 0)
      | some c =>
        if 4 ≤ c.queue.length + c.flight.length then .error .hold else
          .ok (advance (modChan s (myRegion s) chan.toNat fun c =>
            { c with flight := c.flight ++ [(c.hops, ((xval s a).setWidth 32).setWidth 512, 0, 0)] })))

/-- RECV (R408, R409): column 0 takes the value, which travels east with the word. -/
def execRecv (h : Hdr) (d : Reg) (chan : BitVec 6) (s : State) :=
  word (.recv h d chan) s
    (fun s =>
      match consuming s chan.toNat with
      | none => .error (.trap 0x01 0)
      | some c =>
        if !west s then
          let v := (travelling (region s (myRegion s)) (myRow s) (myCol s)).headD 0
          .ok (s, [.scalar d (v.setWidth 32)])
        else match c.queue with
          | [] => .error (.miss 1)
          | v :: _ => .ok (sendEast (popChan s chan.toNat) [v.setWidth 1024], [.scalar d (v.setWidth 32)]))
    (fun s =>
      match consuming s chan.toNat with
      | none => .error (.trap 0x01 0)
      | some c =>
        match c.queue with
        | [] => .error .hold
        | v :: _ => .ok (retX (popChan s chan.toNat) d ((v.setWidth 32).setWidth 64)))

/-- VSEND (R169, R469). -/
def execVsend (h : Hdr) (a : Reg) (chan : BitVec 6) (s : State) :=
  elemWord (.vsend h a chan) s fun s =>
    let mine := convBound s (myRegion s) (2 * myRegion s) chan.toNat
    if !mine && (convBound s (myRegion s) (2 * myRegion s + 1) chan.toNat || (producing s chan.toNat).isNone) then
      .error (.trap 0x01 0)
    else .ok (s, if east s then [.beat chan.toNat (eVector s a 512)] else [])

/-- VRECV from a converter: the oldest entry of its latch, once converted; an entry that does not convert is ILLEGAL
(R107, R170). A converted entry carries tag 15 in the latch. -/
def recvConverter (s : State) (d : Reg) : Except Stop (State × List Fx) :=
  let k := 2 * myRegion s + 1
  let c := conv s k
  if !convEn c then .error (.miss 1) else
    match c.latch with
    | [] => .error (.miss 1)
    | t :: _ =>
      if t.tag == 15 then
        .ok (sendEast (modConv s k fun c => { c with latch := c.latch.drop 1 }) [t.data.setWidth 1024],
          [.vector d t.data])
      else if convertible t.tag (convTag c) then .error (.miss 1)
      else .error (.trap 0x01 0)

/-- VRECV (R170, R221, R469). -/
def execVrecv (h : Hdr) (d : Reg) (chan : BitVec 6) (s : State) :=
  elemWord (.vrecv h d chan) s fun s =>
    let mine := convBound s (myRegion s) (2 * myRegion s + 1) chan.toNat
    if !mine && (convBound s (myRegion s) (2 * myRegion s) chan.toNat || (consuming s chan.toNat).isNone) then
      .error (.trap 0x01 0)
    else if !west s then
      let v := (travelling (region s (myRegion s)) (myRow s) (myCol s)).headD 0
      .ok (s, [.vector d (v.setWidth 512)])
    else if mine then recvConverter s d
    else match ((consuming s chan.toNat).map fun c => c.queue).getD [] with
      | [] => .error (.miss 1)
      | v :: _ => .ok (sendEast (popChan s chan.toNat) [v.setWidth 1024], [.vector d v])

/-- CSEND (R357, R358). -/
def execCsend (h : Hdr) (a : Reg) (chan : BitVec 6) (s : State) :=
  word (.csend h a chan) s
    (fun s =>
      match producing s chan.toNat with
      | none => .error (.trap 0x01 0)
      | some _ => .ok (s, if east s then [.level chan.toNat ((eScalar s a).getLsbD 0)] else []))
    (fun s =>
      match producing s chan.toNat with
      | none => .error (.trap 0x01 0)
      | some _ => .ok (advance (driveLevel s (myRegion s) chan.toNat ((xval s a).getLsbD 0))))

/-- The level that an element reads in region cycle `x`: the one at the end of cycle x − h (R358). -/
def levelAt (c : Chan) (x : Nat) : Bool :=
  ((c.levels.find? fun p => decide (p.1 + c.hops ≤ x)).map fun p => p.2).getD false

/-- CRECV (R357, R358). -/
def execCrecv (h : Hdr) (d : Reg) (chan : BitVec 6) (s : State) :=
  word (.crecv h d chan) s
    (fun s =>
      match consuming s chan.toNat with
      | none => .error (.trap 0x01 0)
      | some c => .ok (s, [.scalar d (ofBool (levelAt c (region s (myRegion s)).rc))]))
    (fun s =>
      match consuming s chan.toNat with
      | none => .error (.trap 0x01 0)
      | some c => .ok (retX s d (ofBool ((c.levels.head?.map fun p => p.2).getD false))))

end Sys2Proof.Machine
end

