-- ==== Sys2Proof/Machine/MemWords.lean ====
section
/-! DEFINITION. The memory words, format ME: loads, stores, indexed accesses, scratch accesses, buffer words, shadow windows
and the line words CLEAN and INVAL. PREF stands with the barrier words. -/

namespace Sys2Proof.Machine

/-! ### Scalar sizes (Table 22-2) -/

/-- Bytes of a scalar access by TYPE in a context. -/
def accessBytes (k : Kind) (ty : BitVec 4) : Nat :=
  if ty == 15 then k.xlen / 8 else if ty == 11 || ty == 0 then 4 else if ty == 10 || ty == 1 || ty == 2 then 2
  else if ty == 12 then 8 else 1

/-- What D receives: integer tags sign-extended, all others zero-extended. -/
def loadValue {w : Nat} (ty : BitVec 4) (bs : List Byte) : BitVec w :=
  if intTag ty then BitVec.ofInt w (sInt (8 * bs.length) (bytesNat bs)) else BitVec.ofNat w (bytesNat bs)

/-! ### Loads -/

/-- A window opens in the executing element (R47, R129, R285): it sees the bytes held now (R41). -/
def openWindow (s : State) (d : Reg) (form : LoadForm) (win : Nat) (port : BitVec 6) (hint : BitVec 3) (ty : BitVec 4)
    (accs : List (Nat × Nat)) : State :=
  let r := region s (myRegion s)
  let w : Window :=
    { iter := myIter s, pos := myPos s, close := r.rc + 4 * (win + 1) - 1, dst := d, form := form, port := port,
      hint := hint, accs := accs.map fun p => ⟨p.1, p.2, none, none, none, none⟩,
      held := accs.flatMap fun p => heldBytes r p.1 p.2, ret := max r.rc (myElem s).lastRet, ty := ty,
      root := (core s (myRegion s)).asroot, closed := false }
  modMyElem s fun e => { e with wins := e.wins ++ [w] }

/-- An element load of one access: ALIGN when it executes, then its window (R383, R465). -/
def elemLoad (s : State) (d a b : Reg) (off : BitVec 20) (form : LoadForm) (size win : Nat) (port : BitVec 6)
    (hint : BitVec 3) (ty : BitVec 4) : Except Stop (State × List Fx) :=
  let va := elemAddr s a b off
  if va % size != 0 then .error (.trap 0x23 0) else .ok (openWindow s d form win port hint ty [(va, size)], [])

/-- LD (R381, R382). -/
def execLd (h : Hdr) (d a b : Reg) (off : BitVec 20) (port : BitVec 6) (hint : BitVec 3) (ty : BitVec 4) (s : State) :=
  word (.ld h d a b off port hint ty) s
    (fun s => elemLoad s d a b off (.scalar ty) (accessBytes .elem ty) 31 port hint ty)
    (fun s =>
      match coreRead s (coreAddr s a b off) (accessBytes (kindOf s) ty) hint.toNat ty.toNat d.toNat with
      | .error e => .error e
      | .ok (bs, s) => .ok (retX s d (loadValue ty bs)))

/-- LDW (R47, R381). -/
def execLdw (h : Hdr) (d a b : Reg) (off : BitVec 20) (win : BitVec 5) (port : BitVec 6) (hint : BitVec 3)
    (ty : BitVec 4) (s : State) :=
  elemWord (.ldw h d a b off win port hint ty) s fun s =>
    elemLoad s d a b off (.scalar ty) (accessBytes .elem ty) win.toNat port hint ty

/-- VLD: VLDW with code 31 (R465). -/
def execVld (h : Hdr) (d a b : Reg) (off : BitVec 20) (port : BitVec 6) (hint : BitVec 3) (ty : BitVec 4) (s : State) :=
  elemWord (.vld h d a b off port hint ty) s fun s => elemLoad s d a b off .line 64 31 port hint ty

/-- VLDW (R465). -/
def execVldw (h : Hdr) (d a b : Reg) (off : BitVec 20) (win : BitVec 5) (port : BitVec 6) (hint : BitVec 3)
    (ty : BitVec 4) (s : State) :=
  elemWord (.vldw h d a b off win port hint ty) s fun s => elemLoad s d a b off .line 64 win.toNat port hint ty

/-- The addresses of an indexed word's lanes (R467). -/
def laneAddrs (s : State) (a b : Reg) (off : BitVec 20) (ty : BitVec 4) : List Nat :=
  let v := eVector s b 32
  (List.range (min 16 (512 / tagWidth ty))).map fun j =>
    (eScalar s a + off.signExtend 32 + BitVec.ofNat 32 (lane v 32 j)).toNat

/-- VLDX: one access a lane, all of them aligned (R467). -/
def execVldx (h : Hdr) (d a b : Reg) (off : BitVec 20) (port : BitVec 6) (hint : BitVec 3) (ty : BitVec 4) (s : State) :=
  elemWord (.vldx h d a b off port hint ty) s fun s =>
    let n := tagWidth ty / 8
    let vas := laneAddrs s a b off ty
    if vas.any fun va => va % n != 0 then .error (.trap 0x23 0)
    else .ok (openWindow s d (.indexed (tagWidth ty)) 31 port hint ty (vas.map fun va => (va, n)), [])

/-! ### Stores -/

/-- A store of the executing element for the hold buffer (R40), which finds its translation as it retires. -/
def holdFx (s : State) (va : Nat) (data : List Byte) (ty : BitVec 4) (hint : BitVec 3)
    (red : Option (BitVec 5 × BitVec 4 × BitVec 32)) : Fx :=
  .hold (va / 64) { seq := 0, iter := myIter s, pos := myPos s, row := myRow s, col := myCol s, off := va % 64,
                    data := data, ty := ty, hint := hint, red := red, xlat := none, retry := none, root := 0, win := none,
                    ix := none }

/-- An aligned element store of the low bytes of a number. -/
def elemStore (s : State) (a b : Reg) (off : BitVec 20) (size v : Nat) (ty : BitVec 4) (hint : BitVec 3) :
    Except Stop (State × List Fx) :=
  let va := elemAddr s a b off
  if va % size != 0 then .error (.trap 0x23 0) else .ok (s, [holdFx s va (natBytes v size) ty hint none])

/-- A store of a core (R442). -/
def coreStore (s : State) (va : Nat) (data : List Byte) (hint : BitVec 3) (ty : BitVec 4) : Except Stop State :=
  let c := coreCtx s (myCore s)
  match vwriteAddr s c va data.length ty.toNat with
  | .error e => .error e
  | .ok (x, s) =>
    match codedStore x data with
    | some code => .error (.trap code (BitVec.ofNat 64 va))
    | none => .ok (noteWritten (writeBytes s c x data hint.toNat) (myCore s) x.pa)

/-- ST (R441, R442). -/
def execSt (h : Hdr) (d a b : Reg) (off : BitVec 20) (port : BitVec 6) (hint : BitVec 3) (ty : BitVec 4) (s : State) :=
  word (.st h d a b off port hint ty) s
    (fun s => elemStore s a b off (accessBytes .elem ty) (eScalar s d).toNat ty hint)
    (fun s =>
      let data := natBytes (xval s d).toNat (accessBytes (kindOf s) ty)
      match coreStore s (coreAddr s a b off) data hint ty with
      | .error e => .error e
      | .ok s => .ok (advance s))

/-- VST (R465). -/
def execVst (h : Hdr) (d a b : Reg) (off : BitVec 20) (port : BitVec 6) (hint : BitVec 3) (ty : BitVec 4) (s : State) :=
  elemWord (.vst h d a b off port hint ty) s fun s => elemStore s a b off 64 (eVector s d 8).toNat ty hint

/-- VSTX: lane 0 first (R467). -/
def execVstx (h : Hdr) (d a b : Reg) (off : BitVec 20) (port : BitVec 6) (hint : BitVec 3) (ty : BitVec 4) (s : State) :=
  elemWord (.vstx h d a b off port hint ty) s fun s =>
    let n := tagWidth ty / 8
    let vas := laneAddrs s a b off ty
    let v := eVector s d (tagWidth ty)
    if vas.any fun va => va % n != 0 then .error (.trap 0x23 0)
    else .ok (s, vas.zipIdx.map fun p => holdFx s p.1 (natBytes (lane v (tagWidth ty) p.2) n) ty hint none)

/-! ### Scratch (R242, R383, R443) -/

/-- LDSP. A core takes the cycles that the schedule and an RMWS leave free, in turn with the copy engines, and waits for
one (R16, R244). -/
def execLdsp (h : Hdr) (d a b : Reg) (off : BitVec 20) (ty : BitVec 4) (s : State) :=
  word (.ldsp h d a b off ty) s
    (fun s =>
      let n := accessBytes .elem ty
      match scratchAddr s (elemAddr s a b off) n with
      | .error c => .error (.trap c 0)
      | .ok (g, j, o) =>
        match takePort s j false with
        | .error e => .error e
        | .ok s => .ok (s, [.scalar d (loadValue ty (nodeRead (region s g) j o n))]))
    (fun s =>
      let n := accessBytes (kindOf s) ty
      let va := coreAddr s a b off
      match scratchAddr s va n with
      | .error c => .error (.trap c (BitVec.ofNat 64 va))
      | .ok (g, j, o) =>
        if mayTakeNode s g j false false then
          .ok (retX (takeNode s g j false false) d (loadValue ty (nodeRead (region s g) j o n)))
        else .ok (awaitNode s g j false false))

/-- STSP, with the same wait of a core. -/
def execStsp (h : Hdr) (d a b : Reg) (off : BitVec 20) (ty : BitVec 4) (s : State) :=
  word (.stsp h d a b off ty) s
    (fun s =>
      let n := accessBytes .elem ty
      match scratchAddr s (elemAddr s a b off) n with
      | .error c => .error (.trap c 0)
      | .ok (_, j, o) =>
        match takePort s j true with
        | .error e => .error e
        | .ok s => .ok (s, [.node j o (natBytes (eScalar s d).toNat n)]))
    (fun s =>
      let n := accessBytes (kindOf s) ty
      let va := coreAddr s a b off
      match scratchAddr s va n with
      | .error c => .error (.trap c (BitVec.ofNat 64 va))
      | .ok (g, j, o) =>
        if mayTakeNode s g j true false then
          .ok (advance (modRegion (takeNode s g j true false) g fun r => nodeWrite r j o (natBytes (xval s d).toNat n)))
        else .ok (awaitNode s g j true false))

/-! ### Buffers (R351 to R354) -/

/-- Hops of a route between two regions (R388). -/
def hopCount (g g' : Nat) : Nat := 1 + Int.natAbs ((g / 4 : Int) - (g' / 4 : Int)) + Int.natAbs ((g % 4 : Int) - (g' % 4 : Int))

/-- A record that sets fabric state of a region, which the load so names (R391). -/
def isRegionRec (g : Nat) (r : LoadRec) : Bool :=
  match r with
  | .region g' _ _ _ _ | .buffer g' _ _ _ _ _ _ | .rmw g' _ _ => g' == g
  | _ => false

/-- Region `g'` belongs to the fabric load of region `g`. -/
def sameLoad (s : State) (g g' : Nat) : Bool :=
  ((ownerOf s g).bind fun gr => gr.load).any fun l => l.recs.any (isRegionRec g')

/-- Bytes that a buffer word moves: a beat, or an MX pair. -/
def beatBytes (ty : BitVec 4) : Nat := if mxTag ty then 128 else 64

/-- The checks of a buffer word on its offset: ALIGN, then PROT (R352). -/
def beatOff (b : Buffer) (off : BitVec 20) (ty : BitVec 4) : Except Stop Unit :=
  if off.toNat % beatBytes ty != 0 then .error (.trap 0x23 0)
  else if b.bytes < off.toNat + beatBytes ty then .error (.trap 0x21 0)
  else .ok ()

/-- BUFPUT (R352 to R354): a remote beat leaves as its column executes. -/
def execBufput (h : Hdr) (d a : Reg) (off : BitVec 20) (port : BitVec 6) (ty : BitVec 4) (s : State) :=
  elemWord (.bufput h d a off port ty) s fun s =>
    let cw := eScalar s a
    let g := myRegion s
    let remote := cw.getLsbD 21
    let g' := if remote then bits cw.toNat 16 5 else g
    if bits cw.toNat 22 10 != 0 then .error (.trap 0x01 0)
    else if remote && !sameLoad s g g' then .error (.trap 0x21 0)
    else match bufAt (region s g') port.toNat with
      | none => .error (.trap 0x01 0)
      | some b =>
        match beatOff b off ty with
        | .error e => .error e
        | .ok () =>
          let data := lineBytes (eVector s d 512) ++ if mxTag ty then lineBytes (eVector s (d ||| 1) 512) else []
          let last := off.toNat + beatBytes ty == b.bytes
          let wm : BitVec 16 := cw.setWidth 16
          if remote then
            let b : RemoteBeat := ⟨hopCount g g' + 1, myIter s, myPos s, myRow s, myCol s, g', port.toNat, off.toNat, data, last, wm⟩
            .ok (modRegion s g fun r => { r with beats := r.beats ++ [b] }, [])
          else
            let place := vget 0 b.putIx (myCol s)
            if isFull b place then .error (.miss 1) else
              match takePort s b.node true with
              | .error e => .error e
              | .ok s => .ok (s, [.bufPut port.toNat off.toNat place data last wm])

/-- BUFGET (R353). -/
def execBufget (h : Hdr) (d : Reg) (off : BitVec 20) (port : BitVec 6) (ty : BitVec 4) (s : State) :=
  elemWord (.bufget h d off port ty) s fun s =>
    let g := myRegion s
    match bufAt (region s g) port.toNat with
    | none => .error (.trap 0x01 0)
    | some b =>
      match beatOff b off ty with
      | .error e => .error e
      | .ok () =>
        let place := vget 0 b.getIx (myCol s)
        if !isFull b place then .error (.miss 1) else
          match takePort s b.node false with
          | .error e => .error e
          | .ok s =>
            let bs := nodeRead (region s g) b.node (placeOff b place + off.toNat) (beatBytes ty)
            let last := off.toNat + beatBytes ty == b.bytes
            .ok (s, .bufGet port.toNat place last :: .vector d (bytesLine (bs.take 64)) ::
              if mxTag ty then [.vector (d ||| 1) (bytesLine (bs.drop 64))] else [])

/-! ### Shadow windows (R178, R433, R451) -/

/-- The state with shadow window `n` of a region replaced. -/
def setShadow (s : State) (g n : Nat) (w : Shadow) : State :=
  modRegion s g fun r => { r with shadow := r.shadow.set n w }

/-- SHADOW. -/
def execShadow (h : Hdr) (d a b : Reg) (off : BitVec 20) (port : BitVec 6) (s : State) :=
  coreWord (.shadow h d a b off port) s fun s =>
    let v := (xval s d).toNat
    let mgr := (kindOf s).isMgr
    let base := coreAddr s a b off
    let tile := bits v 0 57
    let g := if mgr then bits v 57 5 else myRegion s
    if (if mgr then bits v 62 2 else bits v 57 7) != 0 then .error (.trap 0x01 0)
    else if base % 4096 != 0 then .error (.trap 0x23 (BitVec.ofNat 64 base))
    else match coreRead s tile 64 0 15 0 with
      | .error e => .error e
      | .ok (bs, s) =>
        let head := bytesLine bs
        if !tileOk head then .error (.trap 0x01 0)
        else .ok (advance (setShadow s g port.toNat { bound := true, base := base, tile := tile, head := head }))

/-- UNSHADOW. -/
def execUnshadow (h : Hdr) (a : Reg) (port : BitVec 6) (s : State) :=
  coreWord (.unshadow h a port) s fun s =>
    if (kindOf s).isMgr then
      let v := (xval s a).toNat
      if 32 ≤ v then .error (.trap 0x01 0) else .ok (advance (setShadow s v port.toNat Shadow.none))
    else .ok (advance (setShadow s (myRegion s) port.toNat Shadow.none))

/-! ### CLEAN and INVAL (R355, R378) -/

/-- The physical line that a line word names, translated as a load; PROT outside HBM. (DESIGN CHOICE, log 62) -/
def namedLine (s : State) (a b : Reg) (off : BitVec 20) : Except Stop (Nat × State) :=
  let va := coreAddr s a b off
  match translate s (coreCtx s (myCore s)) .read va with
  | (_, .error f) => .error (stopOf .read va 64 15 0 f)
  | (s, .ok x) => if place x.pa == .hbm then .ok (x.pa / 64, s) else .error (.trap 0x21 (BitVec.ofNat 64 va))

/-- A line word reaches the home of its line, which answers (R11). -/
def askHome (s : State) (ln : Nat) : State := sendRead s s.cur.val (homeDie ln) []

/-- CLEAN: a dirty line is written back and stays, clean. -/
def execClean (h : Hdr) (a b : Reg) (off : BitVec 20) (s : State) :=
  coreWord (.clean h a b off) s fun s =>
    match namedLine s a b off with
    | .error e => .error e
    | .ok (ln, s) => .ok <| advance <|
      let s := askHome s ln
      match l2get s ln with
      | some e => if e.dirty then l2put (writeBack s ln e) ln (some { e with dirty := false }) else s
      | none => s

/-- INVAL: the line leaves the L2, and its L1 copies go. -/
def execInval (h : Hdr) (a b : Reg) (off : BitVec 20) (s : State) :=
  coreWord (.inval h a b off) s fun s =>
    match namedLine s a b off with
    | .error e => .error e
    | .ok (ln, s) => .ok (advance (invalidateCode (l2drop (askHome s ln) ln) ln false))

end Sys2Proof.Machine
end

