-- ==== Sys2Proof/Machine/Unit.lean ====
section
/-! DEFINITION. Operator units (R161 to R167): kinds, parameter registers and what they accept, the accesses of a unit,
halting, and the frame of every firing. -/

namespace Sys2Proof.Machine

/-- The kinds of Table 9-1. -/
inductive UnitKind where
  | score | descend | treeupd | pkey | cascell | cumsel | accept | grammar | gather | reduce | quant | switch
  deriving DecidableEq, Repr, Inhabited

/-- The kind of a unit (Table 1-2). -/
def unitKind (u : Nat) : UnitKind :=
  if u < 192 then .score else if u < 224 then .descend else if u < 240 then .treeupd else if u < 256 then .pkey
  else if u < 512 then .cascell else if u < 544 then .cumsel else if u < 560 then .accept
  else if u < 576 then .grammar else if u < 640 then .gather else if u < 704 then .reduce
  else if u < 736 then .quant else .switch

/-- Input ports of a kind (Table 9-1). -/
def unitInputs : UnitKind → Nat
  | .accept => 3
  | .gather | .quant => 1
  | .reduce | .switch => 4
  | _ => 2
/-- Output ports of a kind (Table 9-1). -/
def unitOutputs : UnitKind → Nat
  | .descend | .cascell | .switch => 2
  | _ => 1

/-- Parameter register `p` of unit `u`. -/
def upar (s : State) (u p : Nat) : Nat := ((opUnit s u).params.get 0 p).toNat
/-- The state with a parameter register written. -/
def setPar (s : State) (u p : Nat) (v : Nat) : State :=
  modUnit s u fun q => { q with params := q.params.set 0 p (BitVec.ofNat 64 v) }

/-- Fields of CTL (Table 9-3). -/
def ctlEn (s : State) (u : Nat) : Bool := bits (upar s u 0) 0 1 == 1
def ctlSel (s : State) (u : Nat) : Nat := bits (upar s u 0) 4 4
def ctlTag (s : State) (u : Nat) : BitVec 4 := BitVec.ofNat 4 (bits (upar s u 0) 8 4)
def ctlRm (s : State) (u : Nat) : BitVec 3 := BitVec.ofNat 3 (bits (upar s u 0) 12 3)

/-! ### What an OPSET accepts (R173, R480 and the tables of each kind) -/

/-- Every bit of `v` outside the fields, each a first bit and a width, is 0. -/
def onlyFields (fs : List (Nat × Nat)) (v : Nat) : Bool :=
  v &&& (fs.foldl (fun m f => m ||| (2 ^ f.2 - 1) * 2 ^ f.1) 0) == v

/-- OTAG and OPSEL that a kind accepts together. -/
def ctlKind (k : UnitKind) (sel tag : Nat) : Bool :=
  match k with
  | .treeupd | .accept => sel == 0 && tag == 11
  | .score | .descend | .pkey | .grammar => sel == 0 && tag == 0
  | .cascell => sel == 0 && tag == 15
  | .cumsel => (sel == 0 && tag == 11) || (sel == 1 && tag == 15)
  | .gather => sel == 0 && !(6 ≤ tag && tag ≤ 8) && tag != 13
  | .reduce => sel ≤ 3 && !(6 ≤ tag && tag ≤ 8) && tag != 13
  | .quant => sel ≤ 1 && (6 ≤ tag && tag ≤ 8)
  | .switch => sel ≤ 2 && tag == 15

/-- A CTL value that a kind accepts. -/
def ctlOk (k : UnitKind) (v : Nat) : Bool :=
  onlyFields [(0, 1), (4, 11)] v && bits v 12 3 ≤ 4 && ctlKind k (bits v 4 4) (bits v 8 4)

/-- A finite FP32 value of at least +0; −0 counts as +0. -/
def finiteNonneg (v : Nat) : Bool :=
  match fp32.value v with
  | .fin q _ => decide (0 ≤ q)
  | _ => false
/-- TOPP in (0, 1] and MINP in [0, 1). -/
def toppOk (v : Nat) : Bool :=
  match fp32.value v with
  | .fin q _ => decide (0 < q ∧ q ≤ 1)
  | _ => false
def minpOk (v : Nat) : Bool :=
  match fp32.value v with
  | .fin q _ => decide (0 ≤ q ∧ q < 1)
  | _ => false
/-- SEL of a CUMSEL unit: CELLS 1 to 16 and TOPK 1 to 16·CELLS. -/
def selOk (v : Nat) : Bool :=
  let topk := bits v 0 9
  let cells := bits v 16 5
  1 ≤ cells && cells ≤ 16 && 1 ≤ topk && topk ≤ 16 * cells

/-- A TREEUPD unit's number. -/
def isPool (v : Nat) : Bool := 224 ≤ v && v < 240

/-- The value that register `p`, from 4 upward, of a kind accepts; none where the register is not one that OPSET
writes. -/
def paramOk (k : UnitKind) (p v : Nat) : Option Bool :=
  match k, p with
  | .score, 4 => some (onlyFields [(0, 10)] v && isPool v)
  | .descend, 4 => some (onlyFields [(0, 10)] v && isPool v)
  | .descend, 5 => some (onlyFields [(0, 32)] v && finiteNonneg v)
  | .descend, 6 => some (onlyFields [(0, 12)] v && bits v 0 8 + bits v 8 4 < 192)
  | .descend, 7 => some (onlyFields [(0, 16)] v)
  | .treeupd, 4 => some (v % 4096 == 0)
  | .treeupd, 5 => some (v % 4096 == 0)
  | .treeupd, 6 => some (onlyFields [(0, 24), (27, 5)] v && 2 ≤ bits v 27 3 && 2 ≤ bits v 0 24 && bits v 0 24 ≤ 0xFFFFFE)
  | .treeupd, 7 => some (onlyFields [(0, 48)] v)
  | .pkey, 4 => some (v % 64 == 0)
  | .pkey, 5 => some (onlyFields [(0, 13), (16, 7), (24, 3), (28, 3)] v && 1 ≤ bits v 0 13 && bits v 0 13 ≤ 4096 &&
      1 ≤ bits v 16 7 && bits v 16 7 ≤ 64 && bits v 16 7 ≤ bits v 0 13 && 3 ≤ bits v 24 3 && 2 ≤ bits v 28 3)
  | .pkey, 6 => some (v % 64 == 0)
  | .pkey, 7 => some (1 ≤ v && v ≤ 2 ^ 24)
  | .cascell, 4 => some (onlyFields [(0, 3)] v)
  | .cascell, 5 => some (1 ≤ v && v ≤ 0xFFFFFF)
  | .cumsel, 4 => some (onlyFields [(0, 32)] v)
  | .cumsel, 5 => some (onlyFields [(0, 32)] v && toppOk v)
  | .cumsel, 6 => some (onlyFields [(0, 32)] v && minpOk v)
  | .cumsel, 7 => some (onlyFields [(0, 9), (16, 5)] v && selOk v)
  | .cumsel, 8 => some true
  | .cumsel, 9 => some true
  | .cumsel, 10 => some (onlyFields [(0, 32)] v && finiteNonneg v)
  | .cumsel, 11 => some true
  | .accept, 4 => some (onlyFields [(0, 32)] v && finiteNonneg v)
  | .accept, 5 => some (onlyFields [(0, 32)] v && finiteNonneg v)
  | .accept, 6 => some (1 ≤ v && v ≤ 16)
  | .grammar, 4 => some (v % 64 == 0)
  | .grammar, 5 => some true
  | .grammar, 6 => some (v % 64 == 0)
  | .grammar, 7 => some (onlyFields [(0, 24), (32, 7), (40, 12)] v && 1 ≤ bits v 32 7 && bits v 32 7 ≤ 64)
  | .grammar, 8 => some (onlyFields [(0, 12), (16, 7), (32, 1), (40, 24)] v)
  | .grammar, n => if 16 ≤ n && n < 32 then some (onlyFields [(0, 12), (16, 12), (32, 12), (48, 12)] v) else none
  | .gather, 4 => some (v ≤ 3)
  | .reduce, 4 => some (onlyFields [(0, 5)] v && [0, 1, 2, 9, 10, 11, 12, 15].contains (bits v 0 4))
  | .reduce, 5 => some (onlyFields [(0, 4)] v && 2 ≤ ((List.range 4).filter fun n => v.testBit n).length)
  | .quant, 4 => some (onlyFields [(0, 32)] v)
  | _, _ => none

/-- Registers that a kind defines for OPGET alone. -/
def readOnlyParam (k : UnitKind) (p : Nat) : Bool :=
  match k, p with
  | .score, 5 | .treeupd, 8 | .cascell, 6 | .accept, 7 => true
  | _, _ => false

/-! ### Accesses of a unit -/

/-- Who makes the accesses of an operation: its context, and the data that RTYW supplied to it (R415). -/
structure OpAccess where
  ctx : Ctx
  sup : List (Nat × List Byte)

/-- The graph whose resident load names a unit. -/
def unitGraph (s : State) (u : Nat) : Option Graph := (opUnit s u).owner.bind (graph? s)
/-- Region of the stagehand that loaded the unit (R167). -/
def unitLoader (s : State) (u : Nat) : Nat := (((unitGraph s u).bind fun g => g.load).map fun l => l.loader).getD 0

/-- The address space of a unit: the ASROOT of the stagehand that loaded it (R275). (DESIGN CHOICE, log 74) -/
def unitRoot (s : State) (u : Nat) : BitVec 64 := if (unitGraph s u).isNone then 0 else (core s (unitLoader s u)).asroot

/-- The accesses of a firing: in the graph's address space, as it stood at its issue where its read took PAGE (R275), a GATHER unit through the micro-TLB of its group (R176, R279). -/
def unitAccess (s : State) (u : Nat) : OpAccess :=
  { ctx := { mtlb := if unitKind u == .gather then 65 + (u - 576) / 8 else noTlb,
             root := (opUnit s u).issued.getD (unitRoot s u), user := true, gid := (opUnit s u).owner,
             capture := true, counter := unitLoader s u }
    sup := (opUnit s u).supplied }

/-- The accesses of an instruction of the executing core. -/
def coreAccess (s : State) : OpAccess := { ctx := coreCtx s (myCore s), sup := (core s (myCore s)).supplied }

/-- A read of `size` bytes of an operation. -/
def opRead (s : State) (a : OpAccess) (va size hint : Nat) : Except Stop (List Byte × State) :=
  match a.sup.find? fun p => p.1 == va && p.2.length == size with
  | some p => .ok (p.2, s)
  | none => vread s a.ctx va size hint 15 0

/-- A read of `n` lines. -/
def readLines (s : State) (a : OpAccess) (va : Nat) : Nat → Except Stop (List Byte × State)
  | 0 => .ok ([], s)
  | n + 1 =>
    match opRead s a va 64 0 with
    | .error e => .error e
    | .ok (bs, s) =>
      match readLines s a (va + 64) n with
      | .error e => .error e
      | .ok (cs, s) => .ok (bs ++ cs, s)

/-- Translation of every line that an operation will write, each a line-aligned address and its bytes from there (R216,
step 7). -/
def planWrites (s : State) (a : OpAccess) : List (Nat × List Byte) → Except Stop (List (Xlat × List Byte) × State)
  | [] => .ok ([], s)
  | (va, bs) :: l =>
    match vwriteAddr s a.ctx va 64 15 with
    | .error e => .error e
    | .ok (x, s) =>
      match codedStore x bs with
      | some c => .error (.trap c (BitVec.ofNat 64 va))
      | none =>
        match planWrites s a l with
        | .error e => .error e
        | .ok (xs, s) => .ok ((x, bs) :: xs, s)

/-- The planned writes perform. -/
def doWrites (s : State) (a : OpAccess) (xs : List (Xlat × List Byte)) : State :=
  xs.foldl (fun s p => writeBytes s a.ctx p.1 p.2 0) s

/-- Bytes cut into lines, from a line-aligned address. -/
def asLines (va : Nat) (bs : List Byte) : List (Nat × List Byte) :=
  (chunks 64 bs.length bs).zipIdx.map fun p => (va + 64 * p.2, p.1)

/-- An operation writes bytes from a line-aligned address on: every address is translated before any write. -/
def writeLines (s : State) (a : OpAccess) (va : Nat) (bs : List Byte) : Except Stop State :=
  match planWrites s a (asLines va bs) with
  | .error e => .error e
  | .ok (xs, s) => .ok (doWrites s a xs)

/-! ### Firing -/

/-- A fault in a unit (R167): it halts, UFINFO records it, and the loader's stagehand takes an asynchronous trap. -/
def haltUnit (s : State) (u : Nat) (c : Code) : State :=
  let s := modUnit s u fun q => { q with halted := true, err := c }
  if ((unitGraph s u).bind fun g => g.load).isNone then s else
    let g := unitLoader s u
    let rec_ : X := c.setWidth 64 ||| BitVec.ofNat 64 (2 ^ 32 * u)
    let s := modCore s g fun k => { k with ufinfo := if bits k.ufinfo.toNat 0 8 == 0 then rec_ else k.ufinfo ||| (1 <<< 42) }
    postStage s g c.toNat 2 (BitVec.ofNat 64 u)

/-- A unit's read takes PAGE: it waits on the retry ring (R177, R281). -/
def unitPage (s : State) (u : Nat) (acc : Acc) (lvl va size : Nat) : State :=
  let root := (unitAccess s u).ctx.root
  match postRetry s ⟨.opUnit u, 4, acc.num, lvl, va, size, 15, 0, unitLoader s u, 0, 0, u, root, false⟩ with
  | some (slot, s) => modUnit s u fun q => { q with retry := some slot, issued := some root }
  | none => modUnit s u fun q => { q with issued := some root }

/-- A unit may fire (R165). -/
def mayFire (s : State) (u : Nat) (k : UnitKind) : Bool :=
  let q := opUnit s u
  unitKind u == k && ctlEn s u && !q.halted && q.out.isEmpty && q.retry.isNone

/-- The input queue of a port. -/
def inPort (s : State) (u p : Nat) : List Token := vget [] (opUnit s u).inq p
/-- The state with an input queue replaced. -/
def setIn (s : State) (u p : Nat) (q : List Token) : State := modUnit s u fun k => { k with inq := vset k.inq p q }

/-- The values that one firing takes from a port, and the format it takes them in, where that can be more than one token. -/
def portObject (s : State) (u p : Nat) : Option (BitVec 4 × Nat) :=
  let d := fun (pool : Nat) => 2 ^ bits (upar s pool 6) 27 3
  match unitKind u, p with
  | .quant, 0 => some (0, 32 * mxBlocks (ctlTag s u))
  | .score, 0 | .descend, 1 => if isPool (upar s u 4) then some (1, d (upar s u 4)) else none
  | .treeupd, 1 => some (1, 2 * d u)
  | .pkey, 0 => some (1, 2 ^ bits (upar s u 5) 24 3)
  | .cumsel, 0 => some (15, 2 * bits (upar s u 7) 16 5 + 1)
  | .accept, 0 => some (15, 2 * upar s u 6 + 1)
  | _, _ => none

/-- The object at the head of a port is incomplete: a running unit takes its tokens out of the queue of eight as they come, since
an object may have more (R164, R165). (DESIGN CHOICE, log 75) -/
def portGathers (s : State) (u p : Nat) : Bool :=
  ctlEn s u && !(opUnit s u).halted &&
    match portObject s u p with
    | none => false
    | some (o, n) =>
      if o == 15 then (match takeBeats n (inPort s u p) with
        | .wait => true
        | _ => false)
      else match takeMany o n 64 [] (inPort s u p) with
        | .wait => true
        | _ => false

/-- An input port takes a token: there is room in its queue of eight, and a SCORE unit bound to a DESCEND unit takes none (R164, R208), an
injected one as little as a routed one (DESIGN CHOICE, log 96). -/
def portRoom (s : State) (u p : Nat) : Bool :=
  (decide ((inPort s u p).length < 8) || portGathers s u p) && !(unitKind u == .score && (upar s u 5).testBit 15)

/-- A GATHER unit stands between two indices of one beat of its tile (R166, R175). -/
def midBeat (q : OpUnit) : Bool := q.tile.any fun t => t.2 % (64 / tileIndexBytes t.1) != 0

/-- A firing of the unit is in progress: emissions, rows or a read are under way, a beat of indices is used up in part, or a query is
pinned. -/
def inProgress (q : OpUnit) : Bool :=
  !q.halted && (midBeat q || !q.out.isEmpty || !q.rows.isEmpty || q.retry.isSome || !q.supplied.isEmpty || q.pin.isSome)

/-- Bits of a value in a scalar token: those of its tag, up to 32; IDX and RAW take what their operation gives (R90, DESIGN CHOICE,
log 80). -/
def scalarBits (tag : BitVec 4) : Nat := if tag == 14 || tag == 15 then 32 else min 32 (laneBits tag)
/-- A scalar token, its value in the low bits and zeros above (R90), and a beat. -/
def scalarTok (tag : BitVec 4) (v : Nat) : Token := { tag := tag, vec := false, data := BitVec.ofNat 512 (v % 2 ^ scalarBits tag) }
def beatTok (tag : BitVec 4) (l : Line) : Token := { tag := tag, vec := true, data := l }

/-- The outcome of a firing: its tokens go out and FIRINGS counts it; a fault halts the unit and leaves its input; PAGE
waits. -/
def firingOutcome (s : State) (u : Nat) (r : Except Stop (State × List (Nat × Token))) : State :=
  match r with
  | .ok (s, out) => modUnit s u fun q => { q with out := q.out ++ out, firings := q.firings + 1, supplied := [], issued := none, served := false }
  | .error (.trap c _) => haltUnit (modUnit s u fun q => { q with supplied := [], issued := none }) u c
  | .error (.page acc lvl va size _ _) => unitPage s u acc lvl va size
  | .error _ => s

/-- An instruction has used the unit's registers as one firing does (R238, R239). -/
def countService (s : State) (u : Nat) : State := modUnit s u fun q => { q with firings := q.firings + 1, served := true }

/-- EVERY FIRING of a unit of a kind, when its inputs are ready. -/
def firing (i : Instr) (s : State) (u : Nat) (k : UnitKind) (ready : Bool)
    (f : State → Except Stop (State × List (Nat × Token))) : Host.Outcome State Fault Refusal :=
  event i s (mayFire s u k && ready) fun s => firingOutcome s u (f s)

end Sys2Proof.Machine
end

