-- ==== Sys2Proof/Machine/Tree.lean ====
section
/-! DEFINITION. The summary tree (R183 to R204): records and leaf blocks, allocation and references, the merge, insertion,
split, path copies, eviction, and the frame in which an operation reads, checks and writes. -/

namespace Sys2Proof.Machine

/-- NULL, and the first of the indices that stand for nodes an exhausted pool cannot give. -/
def treeNull : Nat := 0xFFFFFF
def treeDummy : Nat := 2 ^ 24

/-- A node record (R185) with its bytes as read; none were read of a node never used before. -/
structure TNode where
  w : F32
  rho : F32
  ch0 : Nat
  ch1 : Nat
  par : Nat
  rc : Nat
  leaf : Bool
  evict : Bool
  level : Nat
  c : List F32
  m : List F32
  raw : List Byte
  dirty : Bool
  /-- LEVEL as the operation has read it; none of a node that the operation makes. -/
  was : Option Nat
  /-- RC is 0 in the record that the operation has read, whatever it has added to it since (R191). -/
  dead : Bool
  deriving DecidableEq, Repr, Inhabited

/-- An entry: the FP16 patterns of its key and of its value. -/
abbrev Entry := List Nat × List Nat

/-- A leaf block (R188): its entries in position order, its bytes, the bytes at its place in memory, and whether it is to be
encoded again. -/
structure TLeaf where
  ents : List Entry
  bytes : List Byte
  home : List Byte
  stale : Bool
  dirty : Bool
  deriving DecidableEq, Repr, Inhabited

/-- An operation on a pool in progress: what it has read and what it will write. -/
structure Tree where
  s : State
  acc : OpAccess
  nbase : Nat
  lbase : Nat
  cap : Nat
  dlog : Nat
  lsize : Nat
  fhead : Nat
  next : Nat
  nodes : Table (Option TNode)
  leaves : Table (Option TLeaf)
  spare : Nat
  /-- A fault of R191 or R196, of R198's depth, and of an exhausted pool, for the checks of R216. -/
  bad : Bool
  deep : Bool
  full : Bool
  /-- A split or the node N of R194 has been made (R198). -/
  grown : Bool
  /-- Nodes whose records the commit group of another graph holds (R232). -/
  held : List Nat

/-- A computation of an operation. -/
abbrev TreeM := StateT Tree (Except Stop)

/-- ILLEGAL at once: the operation cannot go on. -/
def treeIllegal {α : Type} : TreeM α := throw (.trap 0x01 0)

/-- Head dimension, and the strides of records and of leaf blocks (R184). -/
def Tree.d (t : Tree) : Nat := 2 ^ t.dlog
def nodeStride (d : Nat) : Nat := 64 * ((64 + 8 * d + 63) / 64)
def leafStride (d l : Nat) : Nat := 64 * ((64 + 4 * d * (l + 1) + 63) / 64)
def Tree.ns (t : Tree) : Nat := nodeStride t.d
def Tree.ls (t : Tree) : Nat := leafStride t.d t.lsize

/-- The nodes of unit `u` that commit groups hold of which the access is no part (R232). -/
def heldNodes (s : State) (u : Nat) (a : OpAccess) : List Nat :=
  ((die s).graphs.filter fun g => some g.gid != a.ctx.gid).flatMap fun g =>
    (g.group.nodes.filter fun p => p.1 == u).map fun p => p.2

/-- The pool of TREEUPD unit `u` (Table 10-2). -/
def poolOf (s : State) (u : Nat) (a : OpAccess) : Tree :=
  { s := s, acc := a, nbase := upar s u 4, lbase := upar s u 5, cap := bits (upar s u 6) 0 24, dlog := bits (upar s u 6) 27 3,
    lsize := 2 ^ (bits (upar s u 6) 30 2 + 1), fhead := bits (upar s u 7) 24 24, next := bits (upar s u 7) 0 24,
    nodes := [], leaves := [], spare := 0, bad := false, deep := false, full := false, grown := false,
    held := heldNodes s u a }

/-! ### Records -/

/-- `n` words of `k` bytes from a byte on. -/
def wordsAt (bs : List Byte) (k n o : Nat) : List Nat := (List.range n).map fun j => bytesNat ((bs.drop (o + k * j)).take k)

/-- A record from its bytes (Table 10-3). -/
def decodeNode (d : Nat) (bs : List Byte) : TNode :=
  let h := bytesNat (bs.take 64)
  { w := BitVec.ofNat 32 (bits h 0 32), rho := BitVec.ofNat 32 (bits h 32 32), ch0 := bits h 64 24, ch1 := bits h 88 24,
    par := bits h 112 24, rc := bits h 136 16, leaf := h.testBit 152, evict := h.testBit 153, level := bits h 155 5,
    c := (wordsAt bs 4 d 64).map (BitVec.ofNat 32), m := (wordsAt bs 4 d (64 + 4 * d)).map (BitVec.ofNat 32),
    raw := bs, dirty := false, was := some (bits h 155 5), dead := bits h 136 16 == 0 }

/-- The bytes of a record: SHARED is RC > 1, and the rest of the stride is zero. -/
def encodeNode (d : Nat) (n : TNode) : List Byte :=
  let flag := fun (b : Bool) (k : Nat) => if b then 2 ^ k else 0
  let h := n.w.toNat + 2 ^ 32 * n.rho.toNat + 2 ^ 64 * n.ch0 + 2 ^ 88 * n.ch1 + 2 ^ 112 * n.par + 2 ^ 136 * n.rc +
    flag n.leaf 152 + flag n.evict 153 + flag (1 < n.rc) 154 + 2 ^ 155 * n.level
  let bs := natBytes h 64 ++ (n.c ++ n.m).flatMap fun v => natBytes v.toNat 4
  bs ++ List.replicate (nodeStride d - bs.length) 0

/-! ### Leaf blocks (R188 to R190) -/

/-- A finite value; 0 for any other. -/
def finRat (v : FVal) : Rat :=
  match v with
  | .fin q _ => q
  | _ => 0

/-- The largest power of two, as its exponent, of which a nonzero dyadic value is a multiple. -/
def twoPower (q : Rat) : Int :=
  if q.den != 1 then -(q.den.log2 : Int) else (((List.range 64).find? fun k => q.num.natAbs.testBit k).getD 0 : Nat)

/-- An anchor component: the FP16 rounding of a centroid component, saturated to ±65,504 (R189). -/
def anchorOf (v : F32) : Nat :=
  let p := (fp16.round 0 0 v.val).1
  match fp16.value p with
  | .inf neg => if neg then 0xFBFF else 0x7BFF
  | _ => p

/-- A cell read back (R190): its FP16 pattern, and whether it breaks R191. -/
def cellRead (raw : Bool) (a : Nat) (q : Int) (cell : Nat) : Nat × Bool :=
  if raw then (cell, !(fp16.value cell).finite) else
    let v := finRat (fp16.value a) + (sInt 16 cell : Rat) * pow2 q
    let p := (fp16.round 0 0 (.fin v false)).1
    (p, !(fp16.value a).finite || !(fp16.value p).finite || finRat (fp16.value p) != v)

/-- The entries of a leaf block, and whether it breaks R191. -/
def decodeLeaf (d lsize : Nat) (bs : List Byte) : List Entry × Bool :=
  let h := bytesNat (bs.take 64)
  let n := bits h 0 5
  let qk := sInt 8 (bits h 32 8)
  let qv := sInt 8 (bits h 40 8)
  let part := fun (q : Int) (mask anchor cells e : Nat) =>
    ((wordsAt bs 2 d anchor).zip (wordsAt bs 2 d cells)).map fun p => cellRead (h.testBit (mask + e)) p.1 q p.2
  let ents := (List.range n).map fun e =>
    let o := 64 + 4 * d + 4 * d * e
    (part qk 48 64 o e, part qv 64 (64 + 2 * d) (o + 2 * d) e)
  let out := fun (q : Int) => q < -24 || 16 < q
  (ents.map fun e => (e.1.map Prod.fst, e.2.map Prod.fst),
   n == 0 || lsize < n || bits h 5 27 != 0 || bits h 80 432 != 0 || out qk || out qv ||
     ents.any fun e => (e.1 ++ e.2).any Prod.snd)

/-- The residuals of a vector against its anchor. -/
def residuals (anchor key : List Nat) : List Rat :=
  List.zipWith (fun a k => finRat (fp16.value k) - finRat (fp16.value a)) anchor key

/-- One part of a leaf, keys or values, encoded (R189): quantum exponent, and each entry's escape and cells. -/
def encodePart (anchor : List Nat) (keys : List (List Nat)) : Int × List (Bool × List Nat) :=
  let rs := keys.map (residuals anchor)
  let powers := (rs.flatMap id).filterMap fun r => if r == 0 then none else some (twoPower r)
  let q := match powers with
    | [] => 0
    | p :: l => l.foldl min p
  (q, (keys.zip rs).map fun p =>
    let cells := p.2.map fun r => (r / pow2 q).floor
    if cells.all fun c => decide (c.natAbs ≤ 2047) then (false, cells.map fun c => (BitVec.ofInt 16 c).toNat) else (true, p.1))

/-- The bytes of a leaf block (R188, R189). -/
def encodeLeaf (d lsize : Nat) (n : TNode) (ents : List Entry) : List Byte :=
  let a := n.c.map anchorOf
  let b := n.m.map anchorOf
  let k := encodePart a (ents.map Prod.fst)
  let v := encodePart b (ents.map Prod.snd)
  let mask := fun (l : List (Bool × List Nat)) => (l.zipIdx.map fun p => if p.1.1 then 2 ^ p.2 else 0).sum
  let h := ents.length + 2 ^ 32 * (BitVec.ofInt 8 k.1).toNat + 2 ^ 40 * (BitVec.ofInt 8 v.1).toNat + 2 ^ 48 * mask k.2 +
    2 ^ 64 * mask v.2
  let cells := (k.2.zip v.2).flatMap fun p => p.1.2 ++ p.2.2
  let bs := natBytes h 64 ++ (a ++ b ++ cells).flatMap fun x => natBytes x 2
  bs ++ List.replicate (leafStride d lsize - bs.length) 0

/-! ### Reading and changing nodes -/

/-- A read of `n` lines of the pool. -/
def treeLines (va n : Nat) : TreeM (List Byte) := fun t =>
  match readLines t.s t.acc (va % 2 ^ 64) n with
  | .error e => .error e
  | .ok (bs, s) => .ok (bs, { t with s := s })

/-- Faults noted for the checks of R216. -/
def noteBad (b : Bool) : TreeM Unit := modify fun t => { t with bad := t.bad || b }
def noteFull : TreeM Unit := modify fun t => { t with full := true }

/-- An index that no record of the pool has: it cannot be read (R191). -/
def offPool (t : Tree) (i : Nat) : Bool := t.cap ≤ i && i < treeDummy

/-- What stands for a node that cannot be read, in an operation that R191 refuses. -/
def noNode : TNode :=
  { w := 0, rho := 0, ch0 := treeNull, ch1 := treeNull, par := treeNull, rc := 1, leaf := false, evict := true, level := 0, c := [],
    m := [], raw := [], dirty := false, was := none, dead := false }

/-- A record as the operation sees it. -/
def getRecord (i : Nat) : TreeM TNode := do
  let t ← get
  match t.nodes.get none i with
  | some n => pure n
  | none => if offPool t i then noteBad true; pure noNode else
    let bs ← treeLines (t.nbase + i * t.ns) (t.ns / 64)
    let n := decodeNode t.d bs
    noteBad (bits (bytesNat (bs.take 64)) 160 352 != 0 || (n.leaf && n.evict))
    modify fun t => { t with nodes := t.nodes.set none i (some n) }
    pure n

/-- A node as the operation sees it; each child that its record names is in the pool (R191). -/
def getNode (i : Nat) : TreeM TNode := do
  let t ← get
  let n ← getRecord i
  noteBad ((t.nodes.get none i).isNone && [n.ch0, n.ch1].any fun c => c != treeNull && decide (t.cap ≤ c))
  pure n

/-- A node changed, or written at an index. -/
def putNode (i : Nat) (n : TNode) : TreeM Unit := modify fun t =>
  { t with nodes := t.nodes.set none i (some { n with raw := ((t.nodes.get none i).map TNode.raw).getD [], dirty := true }) }

/-- A node whose RC is 0: as the operation leaves it, or as it was read (R191). -/
def TNode.isDead (n : TNode) : Bool := n.rc == 0 || n.dead

/-- A node that is read as live (R191). -/
def getLive (i : Nat) : TreeM TNode := do
  let n ← getNode i
  noteBad n.isDead
  pure n

/-- The LEVEL of a child, as read, is not below that of its parent (R191). -/
def levelBad (above below : Option Nat) : Bool := above.any fun a => below.any fun b => decide (a ≤ b)

/-- A child of node `p`: its index is in the pool and its LEVEL below, each as it was read (R191). -/
def childOf (p : TNode) (i : Nat) : TreeM TNode := do
  let n ← getNode i
  noteBad (levelBad p.was n.was)
  pure n

/-- A child on the walk of an operation, which reads it as live (R191). -/
def walkChild (p : TNode) (i : Nat) : TreeM TNode := do
  let n ← childOf p i
  noteBad n.isDead
  pure n

/-- The leaf block of a node as the operation sees it. -/
def getLeaf (i : Nat) : TreeM TLeaf := do
  let t ← get
  match t.leaves.get none i with
  | some l => pure l
  | none =>
    let bs ← treeLines (t.lbase + i * t.ls) (t.ls / 64)
    let (ents, bad) := decodeLeaf t.d t.lsize bs
    noteBad bad
    let l : TLeaf := ⟨ents, bs, bs, false, false⟩
    modify fun t => { t with leaves := t.leaves.set none i (some l) }
    pure l

/-- A leaf block changed; `old` is what stands at its place in memory. -/
def putLeaf (i : Nat) (l : TLeaf) : TreeM Unit := modify fun t =>
  { t with leaves := t.leaves.set none i (some { l with home := ((t.leaves.get none i).map TLeaf.home).getD [], dirty := true }) }

/-! ### Allocation and references (R186, R187) -/

/-- A place outside the pool, where it gives none. -/
def spareNode : TreeM Nat := do
  let t ← get
  set { t with spare := t.spare + 1 }
  pure (treeDummy + t.spare)

/-- ALLOCATION; the index taken is judged, and the next of the list when it is taken (R191, DEDUCED, log 35). A node that the commit
group of another graph has freed is free for no one else before its release (R232, DESIGN CHOICE, log 92). -/
def allocNode : TreeM Nat := do
  let t ← get
  if t.fhead != treeNull && !t.held.contains t.fhead then
    if t.cap ≤ t.fhead then
      noteBad true
      spareNode
    else
      let n ← getRecord t.fhead
      modify fun t => { t with fhead := n.ch0 }
      pure t.fhead
  else if t.next < t.cap then
    set { t with next := t.next + 1 }
    pure t.next
  else
    noteFull
    spareNode

/-- A node with one reference more; a count above 65,535 exhausts the pool (R202). -/
def addRef (i : Nat) (n : TNode) : TreeM Unit := if 65535 ≤ n.rc then noteFull else putNode i { n with rc := n.rc + 1 }

/-- A reference added to a root. -/
def incRef (i : Nat) : TreeM Unit := do
  if i == treeNull then pure () else
    let n ← getLive i
    addRef i n

/-- A reference added to a child of node `p`. -/
def incChild (p : TNode) (i : Nat) : TreeM Unit := do
  let t ← get
  if i == treeNull then pure ()
  else if offPool t i then noteBad true
  else
    let n ← childOf p i
    addRef i n

/-- A reference dropped, with all that it frees (R187); a child's LEVEL is below its parent's, `above` (R191). -/
def dropRef : Nat → Nat → Option Nat → TreeM Unit
  | 0, _, _ => noteBad true
  | fuel + 1, i, above => do
    let t ← get
    if i == treeNull then pure ()
    else if offPool t i then noteBad true
    else
      let n ← getNode i
      noteBad (levelBad above n.was)
      if n.isDead then noteBad true
      else if 1 < n.rc then putNode i { n with rc := n.rc - 1 }
      else
        putNode i { n with rc := 0, ch0 := t.fhead }
        modify fun t => { t with fhead := i }
        dropRef fuel n.ch0 n.was
        dropRef fuel n.ch1 n.was

/-- A node's references to its children dropped, in that order (R187). -/
def dropChildren (fuel : Nat) (n : TNode) : TreeM Unit := do
  dropRef fuel n.ch0 n.was
  dropRef fuel n.ch1 n.was

/-- Levels of a tree, with room to spare: no walk goes deeper. -/
def treeFuel : Nat := 33

/-! ### Arithmetic (R192, R193, R195) -/

/-- Exact values of FP16 and FP32 vectors. -/
def halfVals (l : List Nat) : List FVal := l.map fp16.value
def floatVals (l : List F32) : List FVal := l.map F32.val

/-- pairwise_sum into FP32. -/
def sum32 (rm : BitVec 3) (l : List FVal) : F32 := f32Of rm (pairwiseSum fp32 rm l).1

def dist2 (x y : List FVal) : F32 :=
  sum32 0 (List.zipWith (fun a b => let r := (f32Of 0 (addV 0 a b.neg).1).val; (mulV r r).1) x y)

def normUp (x y : List FVal) : F32 :=
  f32Sqrt 2 (sum32 2 (List.zipWith (fun a b => let r := f32Of 2 (addV 2 a b.neg).1.abs; (f32Mul 2 r r).val) x y))

/-- The larger of two FP32 values. -/
def f32Max (a b : F32) : F32 := if f32Lt a b then b else a

/-- A summary: weight, centroids and radius. -/
structure Summary where
  w : F32
  c : List FVal
  m : List FVal
  rho : F32

def TNode.sum (n : TNode) : Summary := ⟨n.w, floatVals n.c, floatVals n.m, n.rho⟩
/-- The summary of one entry. -/
def entrySum (e : Entry) : Summary := ⟨f32OfNat 1, halfVals e.1, halfVals e.2, 0⟩

/-- merge of R193: W, c, m, ρ. -/
def mergeSum (a b : Summary) : F32 × List F32 × List F32 × F32 :=
  let w := f32Add 0 a.w b.w
  let mix := fun (x y : FVal) => f32Div 0 (f32Of 0 (fmaV 0 a.w.val x (f32Of 0 (mulV b.w.val y).1).val).1) w
  let c := List.zipWith mix a.c b.c
  let m := List.zipWith mix a.m b.m
  (w, c, m, f32Max (f32Add 2 a.rho (normUp a.c (floatVals c))) (f32Add 2 b.rho (normUp b.c (floatVals c))))

/-- A node with an entry merged into its summary. -/
def TNode.insert (n : TNode) (e : Entry) : TNode :=
  let r := mergeSum n.sum (entrySum e)
  { n with w := r.1, c := r.2.1, m := r.2.2.1, rho := r.2.2.2 }

/-- The record of a leaf of entries in position order (R195). -/
def leafNode (par : Nat) (ents : List Entry) : TNode :=
  let first : TNode :=
    { w := f32OfNat 1, rho := 0, ch0 := treeNull, ch1 := treeNull, par := par, rc := 1, leaf := true, evict := false,
      level := 0, c := ((ents.headD default).1).map f32OfF16, m := ((ents.headD default).2).map f32OfF16, raw := [], dirty := true, was := none,
      dead := false }
  let n := (ents.drop 1).foldl TNode.insert first
  { n with rho := ents.foldl (fun r e => f32Max r (normUp (halfVals e.1) (floatVals n.c))) 0 }

/-- new_leaf (R195). -/
def newLeaf (par : Nat) (ents : List Entry) : TreeM Nat := do
  let i ← allocNode
  putNode i (leafNode par ents)
  putLeaf i ⟨ents, [], [], true, true⟩
  pure i

/-! ### Paths and copies (R200, R201) -/

/-- The child of a node on a side. -/
def TNode.child (n : TNode) (right : Bool) : Nat := if right then n.ch1 else n.ch0
/-- A node with a child replaced. -/
def TNode.setChild (n : TNode) (right : Bool) (i : Nat) : TNode := if right then { n with ch1 := i } else { n with ch0 := i }

/-- A copy of node `i` at a new index, with its own references (R200, R202). -/
def copyNode (i par : Nat) : TreeM Nat := do
  let n ← getLive i
  let j ← allocNode
  incChild n n.ch0
  incChild n n.ch1
  if n.leaf then
    let l ← getLeaf i
    putLeaf j l
  putNode j { n with rc := 1, par := par, was := none, dead := false }
  pure j

/-- own (R200): the node itself, or its copy where others refer to it; the caller redirects the parent. -/
def ownNode (i par : Nat) : TreeM Nat := do
  let n ← getLive i
  if n.rc ≤ 1 then pure i else
    let j ← copyNode i par
    let n ← getNode i
    putNode i { n with rc := n.rc - 1 }
    pure j

/-- The parent's child on a side is `i`. -/
def redirect (parent : Nat) (right : Bool) (i : Nat) : TreeM Unit := do
  let p ← getNode parent
  if p.child right == i then pure () else putNode parent (p.setChild right i)

/-- The turns of a path word; none where it is malformed (R201). -/
def pathTurns (v : Nat) : Option (List Bool) :=
  let n := bits v 0 5
  if 23 < n || v / 2 ^ (5 + n) != 0 then none else some ((List.range n).map fun i => v.testBit (5 + i))

/-- The walk of a path from an owned node, each node on it owned: the nodes met, the last first. -/
def ownPath (i : Nat) : List Bool → List Nat → TreeM (List Nat)
  | [], met => pure (i :: met)
  | t :: l, met => do
    let n ← getNode i
    if n.leaf || n.evict then treeIllegal else
      let _ ← walkChild n (n.child t)
      let j ← ownNode (n.child t) i
      redirect i t j
      ownPath j l (i :: met)

/-- The node that a path names, without a copy. -/
def walkPath (i : Nat) : List Bool → TreeM Nat
  | [] => pure i
  | t :: l => do
    let n ← getNode i
    if n.leaf || n.evict then treeIllegal else
      let _ ← walkChild n (n.child t)
      walkPath (n.child t) l

/-- LEVEL of every node of a path recomputed, from the bottom up; a root that a split or the node N brings above 23 is too deep (R198). -/
def relevel : List Nat → TreeM Unit
  | [] => pure ()
  | i :: l => do
    let n ← getNode i
    if !n.leaf && !n.evict then
      let a ← childOf n n.ch0
      let b ← childOf n n.ch1
      let lv := 1 + max a.level b.level
      if lv != n.level then putNode i { n with level := lv }
      if l.isEmpty && 23 < lv then modify fun t => { t with deep := t.deep || t.grown }
    relevel l

/-! ### Edits -/

/-- The position of the largest of a list of FP32 values; the lowest on a tie. -/
def argMax (l : List F32) (skip : Option Nat) : Nat :=
  (l.zipIdx.foldl (fun (b : Option (F32 × Nat)) p =>
    if some p.2 == skip then b else match b with
      | none => some p
      | some q => if f32Lt q.1 p.1 then some p else some q) none |>.map Prod.snd).getD 0

/-- The entries of a leaf with centroid `c`, divided: left and right (R197). -/
def divideEntries (c : List F32) (ents : List Entry) : List Entry × List Entry :=
  let key := fun (i : Nat) => halfVals (nth default ents i).1
  let p := argMax (ents.map fun e => dist2 (halfVals e.1) (floatVals c)) none
  let p2 := argMax (ents.map fun e => dist2 (halfVals e.1) (key p)) (some p)
  let right := fun (x : Entry × Nat) =>
    x.2 == p2 || f32Lt (dist2 (halfVals x.1.1) (key p2)) (dist2 (halfVals x.1.1) (key p))
  let ix := ents.zipIdx
  ((ix.filter fun x => !right x).map Prod.fst, (ix.filter right).map Prod.fst)

/-- SPLIT of leaf `i` (R197): its block is no longer read. -/
def splitLeaf (i : Nat) (ents : List Entry) : TreeM Unit := do
  let n ← getNode i
  let (l, r) := divideEntries n.c ents
  let a ← newLeaf i l
  let b ← newLeaf i r
  putNode i { n with ch0 := a, ch1 := b, leaf := false, level := 1 }
  modify fun t => { t with grown := true }

/-- The walk of TAPPEND from node `i`, which hangs from `parent` on a side (R194): the nodes of the path, the last first. -/
def appendWalk (e : Entry) : Nat → Nat → Option (Nat × Bool) → List Nat → TreeM (List Nat)
  | 0, _, _, _ => treeIllegal
  | fuel + 1, i, parent, met => do
    let n ← getNode i
    if n.evict then
      let par := (parent.map Prod.fst).getD treeNull
      let top ← allocNode
      let b ← newLeaf top [e]
      putNode top { n.insert e with ch0 := i, ch1 := b, par := par, rc := 1, leaf := false, evict := false, level := 1, was := none, dead := false }
      modify fun t => { t with grown := true }
      match parent with
      | some (p, side) => redirect p side top
      | none => pure ()
      pure (top :: met)
    else if n.leaf then
      let l ← getLeaf i
      let ents := l.ents ++ [e]
      putNode i (n.insert e)
      let t ← get
      if t.lsize < ents.length then splitLeaf i ents else putLeaf i { l with ents := ents, stale := true }
      pure (i :: met)
    else
      let c1 ← childOf n n.ch1
      let c0 ← childOf n n.ch0
      let n := n.insert e
      putNode i n
      let k := halfVals e.1
      let side := f32Lt (dist2 k (floatVals c1.c)) (dist2 k (floatVals c0.c))
      let next := if side then c1 else c0
      noteBad next.isDead
      let j ← if next.evict then pure (n.child side) else ownNode (n.child side) i
      redirect i side j
      appendWalk e fuel j (some (i, side)) (i :: met)

/-- TAPPEND (R194, R196): the new root. -/
def treeAppend (root : Nat) (e : Entry) : TreeM Nat := do
  if root == treeNull then newLeaf treeNull [e] else
    let r ← getLive root
    noteBad (!f32Lt r.w (f32OfNat (2 ^ 24)))
    let i ← ownNode root treeNull
    let met ← appendWalk e treeFuel i none []
    relevel met
    pure (met.getLastD i)

/-- TSPLIT (R199). -/
def treeSplit (root : Nat) (path : List Bool) : TreeM Nat := do
  let i ← ownNode root treeNull
  let met ← ownPath i path []
  let k := met.headD i
  let n ← getNode k
  if !n.leaf then treeIllegal else
    let l ← getLeaf k
    if l.ents.length < 2 then treeIllegal else
      splitLeaf k l.ents
      relevel met
      pure i

/-- The entries below a node, leaf by leaf from left to right; a subtree with an evicted node or more than L entries is
refused (R199). -/
def gatherEntries : Nat → TNode → Nat → List Entry → TreeM (List Entry)
  | 0, _, _, _ => treeIllegal
  | fuel + 1, n, i, got => do
    let t ← get
    if n.evict then treeIllegal
    else if n.leaf then
      let l ← getLeaf i
      if t.lsize < got.length + l.ents.length then treeIllegal else pure (got ++ l.ents)
    else
      let a ← walkChild n n.ch0
      let got ← gatherEntries fuel a n.ch0 got
      let b ← walkChild n n.ch1
      gatherEntries fuel b n.ch1 got

/-- TMERGE (R199). -/
def treeMerge (root : Nat) (path : List Bool) : TreeM Nat := do
  let i ← ownNode root treeNull
  let met ← ownPath i path []
  let k := met.headD i
  let n ← getNode k
  if n.leaf || n.evict then treeIllegal else
    let ents ← gatherEntries treeFuel n k []
    putNode k { n with leaf := true, level := 0, ch0 := treeNull, ch1 := treeNull }
    putLeaf k ⟨ents, [], [], true, true⟩
    dropChildren treeFuel n
    relevel met
    pure i

/-- TFORK (R202). -/
def treeFork (root : Nat) : TreeM Nat :=
  if root == treeNull then pure treeNull else copyNode root treeNull

/-- TEVICT with PARAM 0 (R203). -/
def treeEvict (root : Nat) (path : List Bool) : TreeM Nat := do
  let i ← ownNode root treeNull
  let met ← ownPath i path []
  let k := met.headD i
  let n ← getNode k
  if !n.evict then
    putNode k { n with ch0 := treeNull, ch1 := treeNull, leaf := false, evict := true, level := 0 }
    dropChildren treeFuel n
  relevel met
  pure i

/-- TEVICT with PARAM 1 (R203): the sequence is released. -/
def treeRelease (root : Nat) : TreeM Nat := do
  dropRef treeFuel root none
  pure treeNull

/-! ### The frame of an operation (R212, R216) -/

/-- The lines in which new bytes differ from the old ones, from an address on. -/
def changedLines (va : Nat) (old new : List Byte) : List (Nat × List Byte) :=
  let was := chunks 64 old.length old
  (chunks 64 new.length new).zipIdx.filterMap fun p =>
    if was[p.2]? == some p.1 then none else some ((va + 64 * p.2) % 2 ^ 64, p.1)

/-- Every line that an operation writes: records, and leaf blocks. -/
def treeWrites (t : Tree) : List (Nat × List Byte) :=
  let recs := t.nodes.flatMap fun p =>
    match p.2 with
    | some n => if n.dirty then changedLines (t.nbase + p.1 * t.ns) n.raw (encodeNode t.d n) else []
    | none => []
  let blocks := t.leaves.flatMap fun p =>
    match p.2 with
    | some l =>
      if !l.dirty then [] else
        let bs := if l.stale then ((t.nodes.get none p.1).map fun n => encodeLeaf t.d t.lsize n l.ents).getD [] else l.bytes
        changedLines (t.lbase + p.1 * t.ls) l.home bs
    | none => []
  recs ++ blocks

/-- STATE of the commit group of an access. -/
def groupState (s : State) (a : OpAccess) : Nat := ((ctxGroup s a.ctx).map fun g => g.state.toNat).getD 0

/-- The commit group at an edit of unit `u`: ALLOC as it stood at the group's first edit, a pinned root, and a root that
the group has made (R212, R320). -/
def noteEdit (s : State) (a : OpAccess) (u : Nat) (pin made : Option Nat) : State :=
  match a.ctx.gid with
  | none => s
  | some gid => modGraph s gid fun g => { g with group :=
      { g.group with
        alloc := if g.group.alloc.any fun p => p.1 == u then g.group.alloc
          else g.group.alloc ++ [(u, (opUnit s u).params.get 0 7)]
        pins := g.group.pins ++ (pin.toList.map fun r => (u, r))
        made := g.group.made ++ ((made.toList.filter fun r => r != treeNull && !g.group.made.contains (u, r)).map fun r => (u, r)) } }

/-- The root that an edit pins for the commit group: the first edit of a sequence in the group (R212). -/
def groupPin (s : State) (a : OpAccess) (u root : Nat) : Option Nat :=
  match ctxGroup s a.ctx with
  | none => none
  | some g => if g.state == 1 && root != treeNull && !g.pins.contains (u, root) && !g.made.contains (u, root) then some root
    else none

/-- The header lines of records that an open group takes: the RC that stands at home at their first capture (R232). -/
def noteRefs (s : State) (a : OpAccess) (t : Tree) (plan : List ((Nat × List Byte) × (Xlat × List Byte))) : State :=
  if !a.ctx.capture || groupState s a != 1 then s else
    match a.ctx.gid with
    | none => s
    | some gid =>
      let heads := t.nodes.map fun p => (t.nbase + p.1 * t.ns) % 2 ^ 64
      (plan.filter fun p => heads.contains p.1.1).foldl (fun s p =>
        let x := p.2.1
        modGraph s gid fun g =>
          if g.group.refBase.any fun b => b.1 == x.pa / 64 then g
          else { g with group := { g.group with
                   refBase := g.group.refBase ++ [(x.pa / 64, bits (peekLine s (x.pa / 64) x.attr).toNat 136 16)] } }) s

/-- The nodes whose records an open group takes from an operation on unit `u` (R232). -/
def noteNodes (s : State) (a : OpAccess) (u : Nat) (t : Tree) : State :=
  if !a.ctx.capture || groupState s a != 1 then s else
    match a.ctx.gid with
    | none => s
    | some gid =>
      let mine := t.nodes.filterMap fun p => if p.2.any (fun n => n.dirty) then some (u, p.1) else none
      modGraph s gid fun g => { g with group := { g.group with nodes := (g.group.nodes ++ mine).dedup } }

/-- A line that an operation of a graph writes after XEND. Of a record whose header its group has captured, home takes the references that
the operation adds or drops, beside those of others; the graph sees the header as the operation leaves it, and RC at the release is counted
from home as it then stands (R232, R295, DESIGN CHOICE, log 21). -/
def writeTreeLine (s : State) (a : OpAccess) (p : Xlat × List Byte) : State :=
  let ln := p.1.pa / 64
  match (ctxGroup s a.ctx).bind fun g => if g.state == 2 then (g.refBase.find? fun b => b.1 == ln).map Prod.snd else none with
  | none => writeBytes s a.ctx p.1 p.2 0
  | some base =>
    let home := peekLine s ln p.1.attr
    let seen := bits (viewLine s a.ctx.gid ln p.1.attr home).toNat 136 16
    let v := bytesNat p.2
    let t := writeBytes s a.ctx p.1 (natBytes (mergeRefs (bits home.toNat 136 16) seen v) 64) 0
    modGraph t (a.ctx.gid.getD 0) fun g => { g with group := { g.group with
      bytes := p.2.zipIdx.foldl (fun l b => Table.set none (64 * ln + b.2) (some b.1) l) g.group.bytes
      refBase := g.group.refBase.map fun b => if b.1 == ln then (ln, (base + bits v 136 16 + 2 ^ 16 - seen) % 2 ^ 16) else b } }

/-- AN OPERATION ON A POOL (R210, R216): reads, then R191, TREE_DEPTH, TREE_POOL_FULL and the translation of every
write, then every effect at once; a core notes the lines it writes (R287). `more` gives the writes beside the pool. (DEDUCED, log 51) -/
def runTree {α : Type} (s : State) (u : Nat) (a : OpAccess) (note : Option Nat) (m : TreeM α)
    (more : α → List (Nat × List Byte)) : Except Stop (α × State) :=
  match StateT.run m (poolOf s u a) with
  | .error e => .error e
  | .ok (v, t) =>
    if t.bad then .error (.trap 0x01 0)
    else if t.deep then .error (.trap 0x34 0)
    else if t.full then .error (.trap 0x35 0)
    else match planWrites t.s a (treeWrites t ++ more v) with
      | .error e => .error e
      | .ok (xs, s) =>
        let before := groupState s a
        let s := xs.foldl (fun s p => writeTreeLine s a p) (noteNodes (noteRefs s a t ((treeWrites t ++ more v).zip xs)) a u t)
        let s := match note with
          | none => s
          | some c => xs.foldl (fun s p => noteWritten s c p.1.pa) s
        .ok (v, if groupState s a == 3 || before == 3 then s else setPar s u 7 (t.next + 2 ^ 24 * t.fhead))

/-- AN EDIT of a sequence: an operation that gives its new root, with the view of a commit group (R212). -/
def runEdit (s : State) (u : Nat) (a : OpAccess) (note : Option Nat) (root : Nat) (m : TreeM Nat) : Except Stop (Nat × State) :=
  let pin := groupPin s a u root
  let opened := groupState s a == 1
  let s' := if opened then noteEdit s a u pin none else s
  let edit := match pin with
    | some r => do incRef r; m
    | none => m
  match runTree s' u a note edit fun _ => [] with
  | .error e => .error e
  | .ok (r, s) => .ok (r, if opened && groupState s a == 1 then noteEdit s a u none (some r) else s)

/-- A commit group that has ended is released, and the roots it pinned are unpinned (R212, R321). -/
def commitGroup (s : State) (gid : Nat) : State :=
  match graph? s gid with
  | none => s
  | some g =>
    let pins := if g.group.state == 2 then g.group.pins else []
    pins.foldl (fun s p =>
      let a : OpAccess := { ctx := { mtlb := noTlb, root := (core s g.group.opener).asroot, user := true, gid := none, capture := false,
                                     counter := g.group.opener }, sup := [] }
      match runTree s p.1 a none (dropRef treeFuel p.2 none) fun _ => [] with
      | .ok (_, s) => s
      | .error _ => s) (releaseGroup s gid)

end Sys2Proof.Machine
end

