-- ==== Sys2Proof/Machine/Query.lean ====
section
/-! DEFINITION. Scoring and descent (R204 to R207, R218, R219), the tree instructions (R213 to R216), and the firings of
TREEUPD, DESCEND and SCORE units (R208, R209, R211). -/

namespace Sys2Proof.Machine

/-! ### The descent -/

/-- An item of the frontier: a summary, or an exact entry at its position. -/
structure QItem where
  idx : Nat
  pos : Nat
  node : Option TNode
  val : List FVal
  s : F32
  eps : F32
  blocked : Bool
  deriving Inhabited

/-- W of an item. -/
def QItem.w (x : QItem) : F32 :=
  match x.node with
  | some n => n.w
  | none => f32OfNat 1

/-- σ, and s(x) and ε(x) of a centroid or key (R204). -/
def scoreSigma (d : Nat) : F32 := BitVec.ofNat 32 (fp32.rsqrt 0 0 (.fin (d : Int) false)).1
def scoreOf (d : Nat) (q : List Nat) (key : List FVal) : F32 :=
  f32Mul 0 (scoreSigma d) (sum32 0 (List.zipWith (fun a b => (mulV (fp16.value a) b).1) q key))
def epsOf (d : Nat) (q : List Nat) (rho : F32) : F32 :=
  f32Mul 2 (f32Mul 2 (scoreSigma d) (normUp (halfVals q) (List.replicate d (.fin 0 false)))) rho

/-- The item of a summary, and the items of a leaf. -/
def nodeItem (d : Nat) (q : List Nat) (i : Nat) (n : TNode) : QItem :=
  ⟨i, 0, some n, floatVals n.m, scoreOf d q (floatVals n.c), epsOf d q n.rho, false⟩
def leafItems (d : Nat) (q : List Nat) (i : Nat) (ents : List Entry) : List QItem :=
  ents.zipIdx.map fun p => ⟨i, p.2, none, halfVals p.1.2, scoreOf d q (halfVals p.1.1), 0, false⟩

/-- C and B of an item under the largest score (R204). -/
def itemC (m : F32) (x : QItem) : F32 := f32Mul 0 x.w (f32Exp 0 (f32Sub 0 x.s m))
def itemB (m : F32) (x : QItem) : F32 :=
  f32Mul 2 (f32Mul 2 x.w (f32Exp 2 (f32Sub 0 x.s m))) (f32Expm1 2 x.eps)

/-- The items that a node becomes: its children, or its entries (R205). -/
def openNode (q : List Nat) (i : Nat) (n : TNode) : TreeM (List QItem) := do
  let t ← get
  if n.leaf then
    let l ← getLeaf i
    pure (leafItems t.d q i l.ents)
  else
    let a ← walkChild n n.ch0
    let b ← walkChild n n.ch1
    pure [nodeItem t.d q n.ch0 a, nodeItem t.d q n.ch1 b]

/-- A descent in progress: the frontier in its order, the expansions, and the status bits INEXACT, EVICT, LIMIT. -/
structure Descent where
  f : List QItem
  expansions : Nat
  inexact : Bool
  evicted : Bool
  limit : Bool

/-- The frontier in its order (R205). -/
def frontierOrder (l : List QItem) : List QItem := sortBy (fun x => 32 * x.idx + x.pos) l

/-- The largest score of the frontier. -/
def bestScore (l : List QItem) : F32 :=
  match l with
  | [] => 0
  | x :: l => l.foldl (fun m y => f32Max m y.s) x.s

/-- Z: the sum of C in frontier order. -/
def massOf (l : List QItem) : F32 :=
  match l.map (itemC (bestScore l)) with
  | [] => 0
  | c :: t => t.foldl (f32Add 0) c

/-- The candidate with the largest bound; the lower index on a tie (R205). -/
def chooseItem (l : List QItem) (thr : F32) : Option QItem :=
  let m := bestScore l
  (l.foldl (fun (best : Option (QItem × F32)) x =>
    let b := itemB m x
    if x.node.isNone || x.blocked || !f32Lt thr b then best else
      match best with
      | some y => if f32Lt y.2 b then some (x, b) else best
      | none => some (x, b)) none).map Prod.fst

/-- The frontier with an item blocked. -/
def blockItem (i : Nat) (l : List QItem) : List QItem :=
  l.map fun x => if x.idx == i && x.node.isSome then { x with blocked := true } else x

/-- The rounds of R205. -/
def descend (q : List Nat) (tau : F32) (maxExp : Nat) : Nat → Descent → TreeM Descent
  | 0, _ => treeIllegal
  | fuel + 1, t =>
    match chooseItem t.f (f32Mul 0 tau (massOf t.f)) with
    | none => pure t
    | some x =>
      match x.node with
      | none => pure t
      | some n =>
        let blocked := { t with f := blockItem x.idx t.f, inexact := true }
        if n.evict then descend q tau maxExp fuel { blocked with evicted := true }
        else if maxExp != 0 && t.expansions == maxExp then descend q tau maxExp fuel { blocked with limit := true }
        else do
          let items ← openNode q x.idx n
          if 4096 < t.f.length - 1 + items.length then descend q tau maxExp fuel { blocked with limit := true }
          else
            let rest := t.f.filter fun y => !(y.idx == x.idx && y.node.isSome)
            descend q tau maxExp fuel { t with f := frontierOrder (rest ++ items), expansions := t.expansions + 1 }

/-- The result of a query: out, R, Z, M and the status word (R207). -/
structure QResult where
  out : List F32
  r : F32
  z : F32
  m : F32
  status : BitVec 32

/-- The result of a finished descent (R205). -/
def queryResult (d : Nat) (t : Descent) : QResult :=
  let m := bestScore t.f
  let z := massOf t.f
  let num := t.f.foldl (fun (acc : List F32) x =>
    List.zipWith (fun a v => f32Of 0 (fmaV 0 (itemC m x).val v a.val).1) acc x.val) (List.replicate d 0)
  let r := (t.f.filter fun x => x.node.isSome).foldl (fun acc x => f32Add 2 acc (itemB m x)) 0
  let flag := fun (b : Bool) (k : Nat) => if b then 2 ^ k else 0
  { out := num.map fun n => f32Div 0 n z, r := r, z := z, m := m,
    status := BitVec.ofNat 32 (flag t.inexact 0 + flag t.evicted 1 + flag t.limit 2 + 2 ^ 16 * min 65535 t.expansions) }

/-- More rounds than a descent can take: 4,096 blocked items and twice as many expansions. -/
def descentFuel : Nat := 16384

/-- A QUERY of the version of a tree that stands (R205). -/
def treeQuery (root : Nat) (q : List Nat) (tau : F32) (maxExp : Nat) : TreeM QResult := do
  let t ← get
  if root == treeNull then pure ⟨List.replicate t.d 0, 0, 0, 0, 8⟩ else
    let n ← getLive root
    let f ← if n.evict then pure [nodeItem t.d q root n] else openNode q root n
    let r ← descend q tau maxExp descentFuel ⟨frontierOrder f, 0, false, false, false⟩
    pure (queryResult t.d r)

/-- The result block: the whole span is written, zeros after the status word (R207, R219). -/
def resultBytes (d : Nat) (r : QResult) : List Byte :=
  let bs := (r.out ++ [r.r, r.z, r.m, r.status]).flatMap fun v => natBytes v.toNat 4
  bs ++ List.replicate (64 * ((4 * d + 16 + 63) / 64) - bs.length) 0

/-! ### Operands of the instructions -/

/-- A stagehand names a unit of the load installed by its own graph (R172); the unit is enabled and not halted (R213). (DESIGN CHOICE, log 41) -/
def unitAllowed (s : State) (u : Nat) : Except Stop Unit :=
  if !(kindOf s).isMgr && ((myGraph s).isNone || (opUnit s u).owner != (myGraph s).map fun g => g.gid) then
    .error (.trap 0x21 (BitVec.ofNat 64 u))
  else .ok ()
def unitReady (s : State) (u : Nat) : Except Stop Unit :=
  match unitAllowed s u with
  | .error e => .error e
  | .ok () => if ctlEn s u && !(opUnit s u).halted then .ok () else .error (.trap 0x01 0)

/-- The unit has served an instruction (R210). -/
def served (s : State) (u : Nat) : State := modUnit s u fun q => { q with served := true }

/-- A root operand (R215). -/
def rootOk (t : Tree) (v : Nat) : Bool := v == treeNull || v < t.cap

/-- A read of an object of `n` bytes from a line-aligned address. -/
def readObject (va n : Nat) : TreeM (List Byte) := do
  let bs ← treeLines va ((n + 63) / 64)
  pure (bs.take n)

/-- The key and the value of an entry object; a component that is not finite is ILLEGAL once every read has been made (R196, R216). -/
def takeEntry (d : Nat) (bs : List Byte) : TreeM Entry :=
  let k := wordsAt bs 2 d 0
  let v := wordsAt bs 2 d (2 * d)
  do
    noteBad ((k ++ v).any fun p => !(fp16.value p).finite)
    pure (k, v)

/-- A query object; a component that is not finite is ILLEGAL once every read has been made (R204, R216). -/
def takeQuery (d : Nat) (bs : List Byte) : TreeM (List Nat) :=
  let q := wordsAt bs 2 d 0
  do
    noteBad (q.any fun p => !(fp16.value p).finite)
    pure q

/-- An edit by an instruction of the executing core: its unit and operands are checked, then it runs and D takes the new
root (R215, R216). -/
def editWord (s : State) (d a : Reg) (unit : BitVec 10) (operands : Nat → Option Stop) (m : Tree → Nat → TreeM Nat) :
    Except Stop State :=
  let u := unit.toNat
  let root := (xval s a).toNat
  match unitReady s u with
  | .error e => .error e
  | .ok () =>
    let t := poolOf s u (coreAccess s)
    match if !rootOk t root then some (.trap 0x01 0) else operands root with
    | some e => .error e
    | none =>
      match runEdit s u (coreAccess s) (some (myCore s)) root (m t root) with
      | .error e => .error e
      | .ok (r, s) => .ok (retX (served s u) d (BitVec.ofNat 64 r))

/-- The operands of an edit by path: NULL is ILLEGAL, and so is a malformed path (R201). -/
def pathOperands (path root : Nat) : Option Stop :=
  if (pathTurns path).isNone || root == treeNull then some (.trap 0x01 0) else none

/-- An edit of the node that a path names. -/
def pathWord (s : State) (d a b : Reg) (unit : BitVec 10) (m : Nat → List Bool → TreeM Nat) : Except Stop State :=
  let path := (xval s b).toNat
  editWord s d a unit (pathOperands path) fun _ root => m root ((pathTurns path).getD [])

/-- TAPPEND (R194, R196). -/
def execTappend (h : Hdr) (d a b : Reg) (unit : BitVec 10) (s : State) :=
  coreWord (.tappend h d a b unit) s fun s =>
    let va := (xval s b).toNat
    editWord s d a unit (fun _ => if va % 64 != 0 then some (.trap 0x23 (BitVec.ofNat 64 va)) else none)
      fun t root => do
        let bs ← readObject va (4 * t.d)
        let e ← takeEntry t.d bs
        treeAppend root e

/-- TSPLIT and TMERGE (R199). -/
def execTsplit (h : Hdr) (d a b : Reg) (unit : BitVec 10) (s : State) :=
  coreWord (.tsplit h d a b unit) s fun s => pathWord s d a b unit treeSplit
def execTmerge (h : Hdr) (d a b : Reg) (unit : BitVec 10) (s : State) :=
  coreWord (.tmerge h d a b unit) s fun s => pathWord s d a b unit treeMerge

/-- TEVICT, and TEVICT that releases a sequence (R203). -/
def execTevict (h : Hdr) (d a b : Reg) (unit : BitVec 10) (s : State) :=
  coreWord (.tevict h d a b unit) s fun s => pathWord s d a b unit treeEvict
def execTevictRelease (h : Hdr) (d a b : Reg) (unit : BitVec 10) (s : State) :=
  coreWord (.tevictRelease h d a b unit) s fun s =>
    editWord s d a unit (fun _ => if (xval s b).toNat != 0 then some (.trap 0x01 0) else none) fun _ root => treeRelease root

/-- TFORK: an operation that edits no node of the sequence (R202). -/
def execTfork (h : Hdr) (d a : Reg) (unit : BitVec 10) (s : State) :=
  coreWord (.tfork h d a unit) s fun s =>
    let u := unit.toNat
    let root := (xval s a).toNat
    let acc := coreAccess s
    match unitReady s u with
    | .error e => .error e
    | .ok () =>
      if !rootOk (poolOf s u acc) root then .error (.trap 0x01 0) else
        let s' := if groupState s acc == 1 then noteEdit s acc u none none else s
        match runTree s' u acc (some (myCore s)) (treeFork root) fun _ => [] with
        | .error e => .error e
        | .ok (r, s) => .ok (retX (served s u) d (BitVec.ofNat 64 r))

/-- The pool and the scorers of a DESCEND unit, from its POOL and SCORERS values; none where a query is ILLEGAL (R206). -/
def descendPool (pool scorers : Nat) (s : State) (u : Nat) : Option Nat :=
  let bound := (List.range 192).any fun k => upar s k 5 == u + 2 ^ 15
  if isPool pool && bound && onlyFields [(0, 12)] scorers then some pool else none

/-- TQUERY (R205, R211, R219): the pin, and the answer that the version at the pin gives; the core then waits until its
next turn drops the pin, writes the result block and writes D. A NULL root is answered at once. -/
def execTquery (h : Hdr) (d a b c : Reg) (unit : BitVec 10) (s : State) :=
  coreWord (.tquery h d a b c unit) s fun s =>
    let u := unit.toNat
    let root := (xval s a).toNat
    let va := (xval s b).toNat
    let res := (xval s c).toNat
    let acc := coreAccess s
    match unitReady s u with
    | .error e => .error e
    | .ok () =>
      match descendPool (upar s u 4) (upar s u 6) s u with
      | none => .error (.trap 0x01 0)
      | some pool =>
        let t := poolOf s pool acc
        if !rootOk t root then .error (.trap 0x01 0)
        else if va % 64 != 0 then .error (.trap 0x23 (BitVec.ofNat 64 va))
        else if res % 64 != 0 then .error (.trap 0x23 (BitVec.ofNat 64 res))
        else
          let m : TreeM QResult := do
            let bs ← readObject va (2 * t.d)
            let q ← takeQuery t.d bs
            incRef root
            treeQuery root q (BitVec.ofNat 32 (upar s u 5)) (bits (upar s u 7) 0 16)
          let out := fun (r : QResult) => asLines res (resultBytes t.d r)
          match runTree s pool acc (some (myCore s)) m out with
          | .error e => .error e
          | .ok (r, t) =>
            if root == treeNull then .ok (retX t d (r.status.setWidth 64)) else
              match runTree s pool acc (some (myCore s)) m fun _ => [] with
              | .error e => .error e
              | .ok (_, s) =>
                .ok (modCore (served s pool) (myCore s) fun k => { k with wait := .query d pool root (out r) (r.status.setWidth 64) })

/-- A query's pin dropped (R205, R211). -/
def dropPin (s : State) (pool : Nat) (a : OpAccess) (root : Nat) : Except Stop State :=
  match runTree s pool a none (dropRef treeFuel root none) fun _ => [] with
  | .ok (_, s) => .ok s
  | .error e => .error e

/-- The pin of a query that is given up, where its records can be read and written. (DESIGN CHOICE, log 33) -/
def abandonPin (s : State) (pool : Nat) (a : OpAccess) (root : Nat) : State := (dropPin s pool a root).toOption.getD s

/-- A page that the retirement of a TQUERY cannot reach goes to the retry ring, and the word waits on its entry (R216, R281). -/
def queryPage (s : State) (c : Nat) (acc : Acc) (lvl va size ty : Nat) : State :=
  let root := coreRoot s c
  let s := modCore s c fun k => { k with issued := some (false, root) }
  match postRetry s ⟨.core c, 1, acc.num, lvl, va, size, ty, 0, c, 0, 0, 0, root, false⟩ with
  | some (_, s) => s
  | none => s

/-- The retirement of a TQUERY: the pin is dropped, then the result block and D are written (R205, R216, R219). PAGE waits on the
retry ring, that of the manager goes to firmware (R311), and another fault drops the pin and is the word's. -/
def queryRetire (s : State) (c : Nat) : State :=
  if (die s).retry.any fun q => q.who == .core c then s else
  match (core s c).wait with
  | .query d pool root out status =>
    let a := coreAccess s
    let stop := fun (s : State) (f : Code) (v : X) => coreFault (modCore s c fun k => { k with wait := .none }) c f v
    let page := fun (s : State) (acc : Acc) (lvl va size ty : Nat) =>
      if c == 32 then stop (abandonPin s pool a root) 0x20 (BitVec.ofNat 64 va) else queryPage s c acc lvl va size ty
    (match runTree s pool a (some c) (dropRef treeFuel root none) fun _ => out with
     | .ok (_, s) => modCore (setX (served s pool) c d.toNat status) c fun k => { k with wait := .none, pc := k.pc + 1, supplied := [], issued := none }
     | .error (.page acc lvl va size ty _) => page s acc lvl va size ty
     | .error (.trap f v) =>
       (match dropPin s pool a root with
        | .ok s => stop (served s pool) f v
        | .error (.page acc lvl va size ty _) => page s acc lvl va size ty
        | .error _ => stop s f v)
     | .error _ => s)
  | _ => s

/-- The core has a TQUERY under way. -/
def inQuery (k : Core) : Bool :=
  match k.wait with
  | .query .. => true
  | _ => false

/-- The TQUERY of a killed stagehand gives up its pin. -/
def queryAbandon (s : State) (c : Nat) : State :=
  match (core s c).wait with
  | .query _ pool root _ _ =>
    let t := { s with who := .stage (Fin.ofNat 32 c) }
    { abandonPin t pool (coreAccess t) root with who := s.who }
  | _ => s

/-- TNODE (R214). -/
def execTnode (h : Hdr) (d a b c : Reg) (unit : BitVec 10) (param : BitVec 6) (s : State) :=
  coreWord (.tnode h d a b c unit param) s fun s =>
    let u := unit.toNat
    let root := (xval s a).toNat
    let word := param.toNat + (xval s c).toNat
    let acc := coreAccess s
    match unitReady s u, pathTurns (xval s b).toNat with
    | .error e, _ => .error e
    | .ok (), none => .error (.trap 0x01 0)
    | .ok (), some turns =>
      let t := poolOf s u acc
      if root == treeNull || !rootOk t root || t.ns / 8 ≤ word then .error (.trap 0x01 0) else
        let m : TreeM Nat := do
          let _ ← getLive root
          let i ← walkPath root turns
          let n ← getNode i
          pure (if 64 + 8 * t.d ≤ 8 * word then 0 else bytesNat ((n.raw.drop (8 * word)).take 8))
        match runTree s u acc none m fun _ => [] with
        | .error e => .error e
        | .ok (v, s) => .ok (retX (served s u) d (BitVec.ofNat 64 v))

/-! ### Firings -/

/-- A scalar INT32 token converted at an input (R164, R209). -/
def takeScalar (o : BitVec 4) (q : List Token) : Taken Nat :=
  match q with
  | [] => .wait
  | t :: l =>
    if t.vec || !convertible t.tag o then .illegal
    else .got (bits (convertValue t.tag o (laneBits (if t.tag == 15 || t.tag == 14 then o else t.tag))
      (bits t.data.toNat 0 (laneBits (if t.tag == 15 || t.tag == 14 then o else t.tag)))) 0 (laneBits o)) l

/-- An FP16 object of `n` values at an input (R164). -/
def takeHalves (n : Nat) (q : List Token) : Taken (List Nat) :=
  match takeMany 1 n 64 [] q with
  | .got vs rest => .got (vs.take n) rest
  | .wait => .wait
  | .illegal => .illegal

/-- What a firing takes is there, so that it may begin. -/
def Taken.ready {α : Type} : Taken α → Bool
  | .wait => false
  | _ => true

/-- Two inputs taken together; a token that does not convert is ILLEGAL (R167). -/
def joinTwo {α β : Type} (x : Taken α) (y : Taken β) (f : α → List Token → β → List Token →
    Except Stop (State × List (Nat × Token))) : Except Stop (State × List (Nat × Token)) :=
  match x, y with
  | .got a p, .got b q => f a p b q
  | .illegal, _ => .error (.trap 0x01 0)
  | _, .illegal => .error (.trap 0x01 0)
  | _, _ => .error .hold

/-- The bytes of FP16 patterns. -/
def halfBytes (l : List Nat) : List Byte := l.flatMap fun v => natBytes v 2

/-- TREEUPD_FIRING: R194 on a root and an entry object (R209). -/
def execTreeupdFiring (u : Nat) (s : State) :=
  let t := poolOf s u (unitAccess s u)
  let root := takeScalar 11 (inPort s u 0)
  let ent := takeHalves (2 * t.d) (inPort s u 1)
  firing (.treeupdFiring u) s u .treeupd (root.ready && ent.ready) fun s =>
    joinTwo root ent fun r p e q =>
      if !rootOk t r then .error (.trap 0x01 0) else
        let m : TreeM Nat := do
          let e ← takeEntry t.d (halfBytes e)
          treeAppend r e
        match runEdit s u (unitAccess s u) none r m with
        | .error e => .error e
        | .ok (r, s) => .ok (setIn (setIn s u 0 p) u 1 q, [(0, scalarTok 11 r)])

/-- FP32 beats of values; the last is filled with zeros. -/
def floatBeats (vs : List F32) : List Token :=
  (packBeats 32 0 (vs.map BitVec.toNat)).map (beatTok 0)

/-- The pool of the query that a DESCEND unit serves, from the registers that it read at the pin (R218). -/
def pinnedPool (s : State) (u : Nat) : Nat := upar s u 68

/-- QUERY_PIN: the registers are read, and the root gains a reference (R211, R218); a unit with no pool or no scorer halts (R206). -/
def execQueryPin (u : Nat) (s : State) :=
  let root := takeScalar 11 (inPort s u 0)
  let pool := descendPool (upar s u 4) (upar s u 6) s u
  let query := match pool with
    | some p => (takeHalves (2 ^ bits (upar s p 6) 27 3) (inPort s u 1)).ready
    | none => !(inPort s u 1).isEmpty
  let ready := root.ready && query && (opUnit s u).pin.isNone
  event (.queryPin u) s (mayFire s u .descend && ready) fun s =>
    match root, pool with
    | .got r _, some pool =>
      let s := served s pool
      if !rootOk (poolOf s pool (unitAccess s u)) r then haltUnit s u 0x01 else
        match runTree s pool (unitAccess s u) none (incRef r) fun _ => [] with
        | .ok (_, s) => modUnit s u fun q =>
            { q with pin := some r, supplied := [], issued := none, params := (List.range 4).foldl (fun t k =>
                t.set 0 (68 + k) (t.get 0 (4 + k))) q.params }
        | .error (.page acc lvl va size _ _) => unitPage s u acc lvl va size
        | .error (.trap c _) => haltUnit s u c
        | .error _ => s
    | .wait, _ => s
    | _, _ => haltUnit s u 0x01

/-- A DESCEND unit without its pin. -/
def clearPin (s : State) (u : Nat) : State :=
  modUnit (served s (pinnedPool s u)) u fun q =>
    { q with pin := none, count := 0, supplied := [], issued := none, params := (List.range 4).foldl (fun t k => t.set 0 (68 + k) 0) q.params }

/-- The pin of a DESCEND unit is dropped. PAGE waits on the retry ring, and QUERY_UNPIN is due until it has passed; another fault halts
the unit (R167, R177, R205). -/
def unpin (s : State) (u root : Nat) : State :=
  match dropPin s (pinnedPool s u) (unitAccess s u) root with
  | .ok s => clearPin s u
  | .error (.page acc lvl va size _ _) => unitPage (modUnit s u fun q => { q with count := 1 }) u acc lvl va size
  | .error (.trap c _) => let s := clearPin s u; if (opUnit s u).halted then s else haltUnit s u c
  | .error _ => s

/-- The pin of a DESCEND unit whose query is given up (R171, R174). (DESIGN CHOICE, log 33) -/
def abandonUnit (s : State) (u root : Nat) : State :=
  clearPin (abandonPin s (pinnedPool s u) (unitAccess s u) root) u

/-- DESCEND_FIRING: the pinned query runs (R205, R209); a fault halts the unit (R167). FIRINGS counts it and its tokens wait at its
outputs; either way the pin is dropped by QUERY_UNPIN, a request of its own to the pool (R210). -/
def execDescendFiring (u : Nat) (s : State) :=
  let pool := pinnedPool s u
  let t := poolOf s pool (unitAccess s u)
  let fire := fun (root : Nat) (s : State) =>
    joinTwo (takeScalar 11 (inPort s u 0)) (takeHalves t.d (inPort s u 1)) fun _ p q rest =>
      let m : TreeM QResult := do
        let q ← takeQuery t.d (halfBytes q)
        treeQuery root q (BitVec.ofNat 32 (upar s u 69)) (bits (upar s u 71) 0 16)
      match runTree s pool (unitAccess s u) none m fun _ => [] with
      | .error e => .error e
      | .ok (r, s) => .ok (modUnit (setIn (setIn s u 0 p) u 1 rest) u fun k => { k with count := 1 },
          (floatBeats r.out).map (fun b => (0, b)) ++
            [r.r, r.z, r.m, r.status].map fun v => (1, scalarTok 0 v.toNat))
  event (.descendFiring u) s (mayFire s u .descend && (opUnit s u).pin.isSome && (opUnit s u).count == 0) fun s =>
    match (opUnit s u).pin with
    | none => s
    | some root =>
      match fire root s with
      | .error (.trap c _) => haltUnit (modUnit s u fun q => { q with supplied := [], issued := none, count := 1 }) u c
      | r => firingOutcome s u r

/-- QUERY_UNPIN: the query is done, and the pin is dropped (R205). -/
def execQueryUnpin (u : Nat) (s : State) :=
  event (.queryUnpin u) s
    (unitKind u == .descend && (opUnit s u).pin.isSome && (opUnit s u).count == 1 && (opUnit s u).retry.isNone) fun s =>
      unpin s u ((opUnit s u).pin.getD treeNull)

/-- SCORE_FIRING of an unbound unit: s and ε of a node (R208); an index that is NULL or at or above CAP is ILLEGAL (DESIGN CHOICE, log 96). -/
def execScoreFiring (u : Nat) (s : State) :=
  let pool := upar s u 4
  let t := poolOf s pool (unitAccess s u)
  let obj := takeHalves t.d (inPort s u 0)
  let ix := takeScalar 11 (inPort s u 1)
  let ready := if isPool pool then obj.ready && ix.ready else !(inPort s u 0).isEmpty && !(inPort s u 1).isEmpty
  event (.scoreFiring u) s (mayFire s u .score && ready && !(upar s u 5).testBit 15) fun s =>
    let s := if isPool pool then served s pool else s
    firingOutcome s u <|
    if !isPool pool then .error (.trap 0x01 0) else
    joinTwo obj ix fun q p i rest =>
      if t.cap ≤ i then .error (.trap 0x01 0) else
        let m : TreeM (F32 × F32) := do
          let q ← takeQuery t.d (halfBytes q)
          let n ← getNode i
          pure (scoreOf t.d q (floatVals n.c), epsOf t.d q n.rho)
        match runTree s pool (unitAccess s u) none m fun _ => [] with
        | .error e => .error e
        | .ok (r, s) => .ok (setIn (setIn s u 0 p) u 1 rest, [(0, scalarTok 0 r.1.toNat), (0, scalarTok 0 r.2.toNat)])

end Sys2Proof.Machine
end

