-- ==== Sys2Proof/Machine/SysReg.lean ====
section
/-! DEFINITION. The system registers (Table 22-4) and the words MFSR and MTSR (R395), with the ten rows of the table that
are uses of them. -/

namespace Sys2Proof.Machine

/-- A system register, with the core, region, queue or counter set it belongs to. -/
inductive Sr where
  | ident
  | inv (g k : Nat)
  | ucfg (g : Nat)
  | fflags (c : Nat)
  | eflags (g : Nat)
  | rsbase (c : Nat)
  | sctr (c : Nat)
  | ufinfo (g : Nat)
  | sctbase
  | sctctl
  | codec (set k : Nat)
  | asroot (c : Nat)
  | rtybase
  | xattr
  | trap (c k : Nat)
  | lqage
  | shctl (g : Nat)
  | lqcfg (q : Nat)
  | lqstat (q : Nat)
  | lqstamp (q : Nat)
  | lqwd (q : Nat)
  deriving DecidableEq, Repr

/-- The registers that a core `c` reaches under the numbers below 0x400; 32 is the manager. -/
def srOwn (c n : Nat) : Option Sr :=
  if n == 0 then some .ident
  else if 0x10 ≤ n && n ≤ 0x16 then some (.inv c (n - 0x10))
  else if n == 0x18 then some (.ucfg c)
  else if n == 0x20 then some (.fflags c)
  else if n == 0x21 then some (.eflags c)
  else if n == 0x22 then some (.rsbase c)
  else if n == 0x23 then some (.sctr c)
  else if n == 0x30 then some (.ufinfo c)
  else if n == 0x40 then some .sctbase
  else if n == 0x41 then some .sctctl
  else if 0x50 ≤ n && n ≤ 0x53 then some (.codec c (n - 0x50))
  else if n == 0x60 then some (.asroot c)
  else if n == 0x61 then some .rtybase
  else if n == 0x62 then some .xattr
  else if 0x70 ≤ n && n ≤ 0x75 then some (.trap c (n - 0x70))
  else if n == 0x90 then some .lqage
  else none

/-- The registers of regions and queues, under the numbers from 0x400 (manager). -/
def srFar (n : Nat) : Option Sr :=
  if n < 0x400 then none
  else if n < 0x600 then (if n % 16 ≤ 6 then some (.inv ((n - 0x400) / 16) (n % 16)) else none)
  else if n < 0x620 then some (.eflags (n - 0x600))
  else if n < 0x640 then some (.rsbase (n - 0x620))
  else if n < 0x660 then some (.ufinfo (n - 0x640))
  else if n < 0x700 then none
  else if n < 0x780 then some (.codec ((n - 0x700) / 4) (n % 4))
  else if n < 0x784 then some (.codec 33 (n % 4))
  else if n < 0x800 then none
  else if n < 0x820 then some (.asroot (n - 0x800))
  else if n < 0x840 then none
  else if n < 0x860 then some (.shctl (n - 0x840))
  else if n < 0x880 then none
  else if n < 0x900 then some (.trap ((n - 0x880) / 4) (n % 4))
  else if n < 0x940 then some (.lqcfg (n - 0x900))
  else if n < 0x980 then some (.lqstat (n - 0x940))
  else if n < 0x9C0 then some (.lqstamp (n - 0x980))
  else if n < 0xA00 then some (.lqwd (n - 0x9C0))
  else none

/-- Numbers below 0x400 that only a stagehand, or only the manager, may access (Table 22-4). -/
def stageNumber (n : Nat) : Bool := (0x10 ≤ n && n ≤ 0x18) || n == 0x30
def mgrNumber (n : Nat) : Bool := n == 0x40 || n == 0x41 || n == 0x61 || n == 0x62 || n == 0x90

/-- The register that a number names in a context, or ILLEGAL or PRIV (R395). -/
def srOf (k : Kind) (c n : Nat) : Except Code Sr :=
  match srOwn c n, srFar n with
  | none, none => .error 0x01
  | some r, _ =>
    (match k with
     | .elem => if n == 0 || n == 0x20 then .ok r else .error 0x03
     | .stage => if mgrNumber n then .error 0x03 else .ok r
     | .mgr => if stageNumber n then .error 0x03 else .ok r)
  | none, some r => if k == .mgr then .ok r else .error 0x03

/-- EFLAGS: the flags of the region's 128 elements together (R112); 0 for the manager, which has none. -/
def eflagsOf (s : State) (g : Nat) : BitVec 7 :=
  if g < 32 then (region s g).elems.foldl (fun f e => f ||| e.fflags) 0 else 0

/-- TSTAT (Table 19-5). -/
def tstat (k : Core) : X :=
  BitVec.ofNat 64 (k.inh.toNat + 2 * k.ien.toNat + 4 * (!k.events.isEmpty).toNat)

/-- TXSTAT: the commit group of the core's graph (R319). -/
def txstat (s : State) (c : Nat) : X :=
  match if c < 32 then ownerOf s c else none with
  | none => 0
  | some g => g.group.arg ++ (0 : BitVec 27) ++ g.group.why ++ g.group.state

/-- UCFG (Table 19-5). -/
def ucfgOf (s : State) (g : Nat) : X :=
  match ownerOf s g with
  | none => 0
  | some gr => gr.mask ++ (0 : BitVec 28) ++ BitVec.ofBool (core s g).switched ++ gr.cfg

/-- SHCTL as read (Table 19-5). -/
def shctlOf (k : Core) : X :=
  BitVec.ofNat 64 ((k.run == .running && !k.frozen && !k.freezeReq).toNat + 2 * k.frozen.toNat + 4 * k.df.toNat)

/-- The invocation registers as read (Table 2-2). -/
def invRead (r : Region) (k : Nat) : X :=
  match k with
  | 0 => r.iext
  | 1 => 0
  | 2 => istat r
  | 3 => r.ifvec
  | 4 => r.ifinfo
  | 5 => r.frzlim
  | _ => frmcnt r

/-- The value of a system register. -/
def srRead (s : State) (r : Sr) : X :=
  let d := die s
  match r with
  | .ident => (ident s).setWidth 64
  | .inv g k => invRead (region s g) k
  | .ucfg g => ucfgOf s g
  | .fflags c => (core s c).fflags.setWidth 64
  | .eflags g => (eflagsOf s g).setWidth 64
  | .rsbase c => (core s c).rsbase
  | .sctr c => (core s c).sctr
  | .ufinfo g => (core s g).ufinfo
  | .sctbase => d.sctbase
  | .sctctl => d.sctctl
  | .codec ci k =>
    let q := vget Codec.reset d.codec ci
    (match k with
     | 0 => q.cblk
     | 1 => q.clossy
     | 2 => q.cmaxe.setWidth 64
     | _ => q.cnonf)
  | .asroot c => (core s c).asroot
  | .rtybase => d.rtybase
  | .xattr => d.xattr
  | .trap c k =>
    let q := core s c
    (match k with
     | 0 => q.tvec
     | 1 => q.tcause
     | 2 => q.tepc.setWidth 64
     | 3 => q.tval
     | 4 => tstat q
     | _ => txstat s c)
  | .lqage => d.lqage
  | .shctl g => shctlOf (core s g)
  | .lqcfg q => (queue s q).cfg
  | .lqstat q => lqstat (queue s q)
  | .lqstamp q => (queue s q).stamp
  | .lqwd q => (queue s q).wd

/-- What a read of a register changes: UFINFO is cleared, and SWITCHED of UCFG (R167, R307). -/
def srAfterRead (s : State) (r : Sr) : State :=
  match r with
  | .ufinfo g => modCore s g fun k => { k with ufinfo := 0 }
  | .ucfg g => modCore s g fun k => { k with switched := false }
  | _ => s

/-- Bits of a register that are reserved, in a write (R395). -/
def srReserved (r : Sr) : X :=
  match r with
  | .fflags _ | .eflags _ => ~~~(0x7F : X)
  | .inv _ 5 => 0xFFFFFFFF00000000
  | .sctctl => ~~~(1 : X)
  | .codec _ 2 => ~~~(0xFFFF : X)
  | .asroot _ => 0xFFF0000000000000
  | .rtybase => ~~~(0x000FFFFFFFFF8000 : X)
  | .xattr => 0x7FF0000000000000
  | .trap _ 0 => 0x7FC0000000000000
  | .trap _ 2 => 0xFFC0000000000000
  | .trap _ 4 => ~~~(7 : X)
  | .lqage => 0xFFFFFFFF00000000
  | .shctl _ => ~~~(0xF : X)
  | .lqcfg _ => ~~~(0x77 : X)
  | .lqwd _ => 0xF000000000000000
  | _ => 0

/-- Registers that no context writes (R45, R167, R307). -/
def srReadOnly (r : Sr) : Bool :=
  match r with
  | .ident | .ucfg _ | .ufinfo _ => true
  | .inv _ k => k == 2 || k == 3 || k == 4 || k == 6
  | .trap _ k => k == 1 || k == 3 || k == 5
  | _ => false

/-! ### SHCTL (R310) -/

/-- The requester acts for region `g`. -/
def requesterOf (g : Nat) (q : Requester) : Bool :=
  match q with
  | .window g' _ _ _ => g' == g
  | .held g' _ => g' == g
  | .amo g' => g' == g
  | .core g' => g' == g
  | .port g' _ => g' == g
  | .gather _ => false
  | .opUnit _ => false

/-- A region leaves its graph, and with it the mark of the load (R61). -/
def disown (s : State) (g : Nat) : State :=
  let s := match (region s g).owner with
    | some gid => modGraph s gid fun gr => { gr with mask := gr.mask &&& ~~~(1 <<< g : BitVec 32) }
    | none => s
  modRegion s g fun r => { r with owner := none, framed := false }

/-- RESET: a fenced region, or one whose stagehand is frozen, returns with its stagehand to the reset state and is
free (R310). -/
def shctlReset (s : State) (g : Nat) : State :=
  if !(region s g).fenced && !(core s g).frozen then s else
    let s := withdrawRetry s fun q => requesterOf g q.who
    let s := disown s g
    modDie s fun d =>
      { d with
        regions := vset d.regions g Region.reset
        cores := vset d.cores g Core.reset
        codec := vset d.codec g Codec.reset
        streams := d.streams.map fun t =>
          { t with
            producer := if t.producer.any fun p => p.1 == g then none else t.producer
            subs := t.subs.map fun u => if u.g == g then { u with live := false } else u } }

/-- RUN = 1: a frozen stagehand resumes at its TEPC, with INH cleared; a freeze not yet taken is given up. -/
def shctlRun (s : State) (g : Nat) : State :=
  modCore s g fun k =>
    if k.frozen then { k with frozen := false, pc := k.tepc, inh := false, wait := .none, supplied := [], issued := none }
    else { k with freezeReq := false }

/-- RUN = 0: the stagehand freezes at its next word boundary. -/
def shctlFreeze (s : State) (g : Nat) : State :=
  modCore s g fun k => { k with freezeReq := !k.frozen }

/-- A write of SHCTL. (DESIGN CHOICE, log 40) -/
def writeShctl (s : State) (g : Nat) (v : X) : State :=
  if v.getLsbD 3 then shctlReset s g else if v.getLsbD 0 then shctlRun s g else shctlFreeze s g

/-! ### Writing -/

/-- SCTBASE takes a 4,096-aligned address whose 2 MiB lie in the HBM of one die (R256). -/
def sctbaseOk (v : Nat) : Bool :=
  v % 4096 == 0 && place v == .hbm && place (v + 2 ^ 21 - 1) == .hbm && v / 2 ^ 38 == (v + 2 ^ 21 - 1) / 2 ^ 38

/-- A WRITE TO A SYSTEM REGISTER, its reserved bits checked (R395); or its fault, with TVAL. -/
def srWrite (s : State) (r : Sr) (v : X) : Except (Code × X) State :=
  match r with
  | .inv g 0 => .ok (modRegion s g fun q => { q with iext := v })
  | .inv g 1 => (match writeIstart s g v with
      | .ok s => .ok s
      | .error c => .error (c, 0))
  | .inv g 5 => .ok (modRegion s g fun q => { q with frzlim := v })
  | .fflags c => .ok (modCore s c fun k => { k with fflags := v.setWidth 7 })
  | .eflags g =>
    .ok (if g < 32 then modRegion s g fun q =>
      { q with elems := q.elems.map fun e => { e with fflags := e.fflags &&& ~~~(v.setWidth 7) } } else s)
  | .rsbase c => .ok (modCore s c fun k => { k with rsbase := v })
  | .sctr c => .ok (modCore s c fun k => { k with sctr := v })
  | .sctbase =>
    if !(die s).granules.isEmpty then .error (0x01, 0)
    else if !sctbaseOk v.toNat then .error (0x21, v)
    else .ok (modDie s fun d => { d with sctbase := v })
  | .sctctl =>
    if !(die s).granules.isEmpty then .error (0x01, 0) else .ok (modDie s fun d => { d with sctctl := v })
  | .codec ci k =>
    .ok (modDie s fun d => { d with codec := vmod d.codec ci fun q =>
      match k with
      | 0 => { q with cblk := v }
      | 1 => { q with clossy := v }
      | 2 => { q with cmaxe := v.setWidth 16 }
      | _ => { q with cnonf := v } })
  | .asroot c => .ok (modCore s c fun k => { k with asroot := v })
  | .rtybase => .ok (modDie s fun d => { d with rtybase := v })
  | .xattr => .ok (modDie s fun d => { d with xattr := v })
  | .trap c 0 => .ok (modCore s c fun k => { k with tvec := v })
  | .trap c 2 => .ok (modCore s c fun k => { k with tepc := v.setWidth 54 })
  | .trap c 4 => .ok (modCore s c fun k => { k with ien := v.getLsbD 1 })
  | .lqage => .ok (modDie s fun d => { d with lqage := v })
  | .shctl g => .ok (writeShctl s g v)
  | .lqcfg q => .ok (modQueue s q fun k => { k with cfg := v })
  | .lqstat q => if v != 0 then .error (0x01, 0) else .ok (modQueue s q fun k => { k with drops := 0 })
  | .lqstamp q =>
    if v != 0 && (v.toNat % 8 != 0 || !stampable v.toNat) then .error (0x21, v)
    else .ok (modQueue s q fun k => { k with stamp := v })
  | .lqwd q => .ok (modQueue s q fun k => { k with wd := v })
  | _ => .error (0x01, 0)

/-- MFSR (R395): the register named in the context, its low half in an element. -/
def mfsrWord (i : Instr) (d : Reg) (sr : BitVec 12) (s : State) : Host.Outcome State Fault Refusal :=
  word i s
    (fun s => match srOf .elem (myCore s) sr.toNat with
      | .error c => .error (.trap c 0)
      | .ok .ident => .ok (s, [.scalar d (ident s)])
      | .ok _ => .ok (s, [.scalar d ((myElem s).fflags.setWidth 32)]))
    (fun s => match srOf (kindOf s) (myCore s) sr.toNat with
      | .error c => .error (.trap c 0)
      | .ok r => .ok (retX (srAfterRead s r) d (srRead s r)))

/-- MTSR (R395): the register's own checks, then the write. A stagehand's ASROOT is the supervisor's to write
(Table 17-2). -/
def mtsrWord (i : Instr) (a : Reg) (sr : BitVec 12) (s : State) : Host.Outcome State Fault Refusal :=
  coreWord i s fun s =>
    match srOf (kindOf s) (myCore s) sr.toNat with
    | .error c => .error (.trap c 0)
    | .ok r =>
      let v := xval s a
      if srReadOnly r then .error (.trap 0x01 0)
      else if kindOf s == .stage && sr == 0x60 then .error (.trap 0x03 0)
      else if v &&& srReserved r != 0 then .error (.trap 0x22 0)
      else match srWrite s r v with
        | .error (c, t) => .error (.trap c t)
        | .ok s => .ok (advance s)

def execMfsr (h : Hdr) (d : Reg) (sr : BitVec 12) (s : State) := mfsrWord (.mfsr h d sr) d sr s
def execMtsr (h : Hdr) (a : Reg) (sr : BitVec 12) (s : State) := mtsrWord (.mtsr h a sr) a sr s

/-! ### The rows that are uses of MTSR and MFSR -/

/-- ISTART_FRESH_START: MTSR of ISTART with RESUME and CANCEL clear (R46). -/
def execIstartFreshStart (h : Hdr) (sr : BitVec 12) (a : Reg) (s : State) := mtsrWord (.istartFreshStart h sr a) a sr s
/-- ISTART_RESUME: MTSR of ISTART with RESUME set (R46, R55). -/
def execIstartResume (h : Hdr) (sr : BitVec 12) (a : Reg) (s : State) := mtsrWord (.istartResume h sr a) a sr s
/-- ISTART_CANCEL: MTSR of ISTART with CANCEL set (R46, R62). -/
def execIstartCancel (h : Hdr) (sr : BitVec 12) (a : Reg) (s : State) := mtsrWord (.istartCancel h sr a) a sr s
/-- EFLAGS_CLEAR: MTSR of EFLAGS (R112). -/
def execEflagsClear (h : Hdr) (sr : BitVec 12) (a : Reg) (s : State) := mtsrWord (.eflagsClear h sr a) a sr s
/-- UFINFO_READ: MFSR of UFINFO (R167). -/
def execUfinfoRead (h : Hdr) (d : Reg) (sr : BitVec 12) (s : State) := mfsrWord (.ufinfoRead h d sr) d sr s
/-- UCFG_READ: MFSR of UCFG (R307). -/
def execUcfgRead (h : Hdr) (d : Reg) (sr : BitVec 12) (s : State) := mfsrWord (.ucfgRead h d sr) d sr s
/-- LQSTAT_CLEAR_DROPS: MTSR of LQSTAT (R299). -/
def execLqstatClearDrops (h : Hdr) (sr : BitVec 12) (a : Reg) (s : State) := mtsrWord (.lqstatClearDrops h sr a) a sr s
/-- SHCTL_RUN: MTSR of SHCTL with RUN set (R310). -/
def execShctlRun (h : Hdr) (sr : BitVec 12) (a : Reg) (s : State) := mtsrWord (.shctlRun h sr a) a sr s
/-- SHCTL_FREEZE: MTSR of SHCTL with RUN clear (R310). -/
def execShctlFreeze (h : Hdr) (sr : BitVec 12) (a : Reg) (s : State) := mtsrWord (.shctlFreeze h sr a) a sr s
/-- SHCTL_RESET: MTSR of SHCTL with RESET set (R310). -/
def execShctlReset (h : Hdr) (sr : BitVec 12) (a : Reg) (s : State) := mtsrWord (.shctlReset h sr a) a sr s

end Sys2Proof.Machine
end

