-- ==== Sys2Proof/Machine/System.lean ====
section
/-! DEFINITION. Control of a core: NOP, HALT, TRAP, ERET, the clock, code fences, the predicate and valid-count words,
translation invalidation, and the events at cores. -/

namespace Sys2Proof.Machine

/-- NOP; with a restart mark it marks (R73). -/
def execNop (h : Hdr) (s : State) := word (.nop h) s (fun s => .ok (s, [])) (fun s => .ok (advance s))

/-- HALT: ILLEGAL in a trap handler; the core stops, and its pc names the word after (R304, R376). -/
def execHalt (h : Hdr) (s : State) :=
  coreWord (.halt h) s fun s =>
    if (core s (myCore s)).inh then .error (.trap 0x01 0) else
      .ok (modCore (advance s) (myCore s) fun k => { k with run := .halted })

/-- TRAP k (R308, R450). -/
def execTrap (h : Hdr) (imm : BitVec 32) (s : State) :=
  word (.trap h imm) s (fun _ => .error (.trap 0x04 0)) (fun _ => .error (.trap 0x04 (imm.setWidth 64)))

/-- ERET (R308, R362). -/
def execEret (h : Hdr) (s : State) :=
  coreWord (.eret h) s fun s =>
    if !(core s (myCore s)).inh then .error (.trap 0x01 0) else .ok (returnFromTrap (advance s) (myCore s))

/-- The die's PHC: seconds, 48 bits, and nanoseconds (R329). -/
def phcNanos (s : State) : Nat := (die s).phc / 16000
def phcSeconds (s : State) : Nat := phcNanos s / 10 ^ 9 % 2 ^ 48

/-- PHCRD: both results from one reading (R402). -/
def execPhcrd (h : Hdr) (d a : Reg) (s : State) :=
  coreWord (.phcrd h d a) s fun s =>
    .ok (retX (setX s (myCore s) a.toNat (BitVec.ofNat 64 (phcNanos s % 10 ^ 9))) d (BitVec.ofNat 64 (phcSeconds s)))

/-- IFENCE: every code line that the core holds goes (R296). -/
def execIfence (h : Hdr) (s : State) :=
  coreWord (.ifence h) s fun s => .ok (modCore (advance s) (myCore s) fun k => { k with l1i := [] })

/-- VCSET (R459). -/
def execVcset (h : Hdr) (d a : Reg) (s : State) :=
  coreWord (.vcset h d a) s fun s =>
    if 2 ^ 32 ≤ (xval s a).toNat then .error (.trap 0x01 0) else
      .ok (modRegion (advance s) (myRegion s) fun r => { r with vc := (xval s a).setWidth 32 })

/-- TQSET (R449): tq0 is not written. -/
def execTqset (h : Hdr) (d a : Reg) (s : State) :=
  coreWord (.tqset h d a) s fun s =>
    let n := d.toNat - 52
    let bit : BitVec 8 := 1 <<< n
    if n == 0 then .error (.trap 0x01 0) else
      .ok (modRegion (advance s) (myRegion s) fun r =>
        { r with tq := if xval s a != 0 then r.tq ||| bit else r.tq &&& ~~~bit })

/-- TQTEST: the value for the next start; tq0 is true (R449). -/
def execTqtest (h : Hdr) (d a : Reg) (s : State) :=
  coreWord (.tqtest h d a) s fun s =>
    let n := a.toNat - 52
    .ok (retX s d (ofBool (n == 0 || (region s (myRegion s)).tq.getLsbD n)))

/-! ### TLBINV (R282, R448) -/

/-- A line that a commit group holds was written through an address space that `p` selects. -/
def capturedOpen (g : Group) (p : Nat → Bool) : Bool := g.attrs.any fun q => q.2.any fun c => c.asids.any p

/-- A contribution, a prefetch, a write that a commit group holds or a write to a peer, translated under an address space that `p` selects,
has still to perform, on some die. -/
def translatedOpen (s : State) (p : Nat → Bool) : Bool :=
  (frameOpen s fun f => f.asids.any p) || s.dies.toList.any fun d =>
    (d.reds.any fun c => !c.stored && p c.asid) || (d.prefs.any fun q => p (rootAsid q.root)) || d.graphs.any fun g => capturedOpen g.group p

/-- TLBINV retires once every access translated by the entries that are gone has performed; every other access performs as it
is made (R282). (DESIGN CHOICE, log 72) -/
def settleInvalid (s : State) (p : Nat → Bool) : State := if translatedOpen s p then s else advance s

def execTlbinvAll (h : Hdr) (s : State) :=
  coreWord (.tlbinvAll h) s fun s =>
    .ok (settleInvalid (invalidateTlbs s (fun _ => false) (fun _ => false)) fun _ => true)

def execTlbinvAsid (h : Hdr) (b : Reg) (s : State) :=
  coreWord (.tlbinvAsid h b) s fun s =>
    let asid := rootAsid (xval s b)
    .ok (settleInvalid (invalidateTlbs s (fun t => t.asid != asid) (fun w => w.asid != asid)) (· == asid))

def execTlbinvAddress (h : Hdr) (a b : Reg) (s : State) :=
  coreWord (.tlbinvAddress h a b) s fun s =>
    let asid := rootAsid (xval s b)
    let va := (xval s a).toNat
    .ok (settleInvalid (invalidateTlbs s (fun t => !(t.asid == asid && va / 2 ^ t.size == t.page)) (fun w => w.asid != asid))
      (· == asid))

/-! ### FENCE (R286, R287) -/

/-- FENCE: memory, scratch and register effects of a core's words perform as the words retire (DEDUCED, log 7), so `.mod` waits
for the core's contributions and `.sys` for its writes to peers and for the code copies of the lines it has written. -/
def execFence (h : Hdr) (scope : BitVec 3) (s : State) :=
  word (.fence h scope) s (fun s => .ok (s, [])) fun s =>
    let c := myCore s
    let waits := (List.range 24).any fun n => (dieAt s n).reds.any fun k => k.die == s.cur.val && ofCore c k
    if 3 ≤ scope.toNat && waits then .error .hold
    else if scope.toNat == 4 && framesOpen s s.cur.val c then .error .hold
    else if scope.toNat == 4 then
      let s := (core s c).wrote.foldl (fun s ln => invalidateCode s ln true) s
      .ok (modCore (advance s) c fun k => { k with wrote := [] })
    else .ok (advance s)

/-! ### Events at a core -/

/-- A core may take an asynchronous trap: INH is clear, and it stands at a word boundary, in an MWAIT (R393), or, the
manager, in a HALT (R304). -/
def takesEvent (k : Core) (c : Nat) : Bool :=
  !k.events.isEmpty && !k.inh && !k.frozen && (k.run == .running || (c == 32 && k.run == .halted)) &&
    (match k.wait with
     | .none | .mwait _ _ _ => true
     | _ => false)

/-- ASYNC_EVENT_TAKE: the oldest waiting event is taken before the next word (R309, R311). -/
def execAsyncEventTake (c : Nat) (s : State) :=
  event (.asyncEventTake c) s (takesEvent (core s c) c) fun s =>
    match (core s c).events with
    | [] => s
    | e :: l =>
      let k := core s c
      let s := modCore s c fun k => { k with events := l, wait := .none, issued := none }
      if c == 32 then managerTrap (refillMgr s) e (managerEpc k e) else stageTrap s c e k.pc

/-- The value that the monitor of a core reads (R392). -/
def monitored (s : State) (c : Nat) : X × State :=
  match (core s c).mon with
  | none => (0, s)
  | some (pa, codec, key) =>
    let (bs, s) := readBytes s (coreCtx s c) ⟨pa, codec, key, false⟩ 8 0
    (BitVec.ofNat 64 (bytesNat bs), s)

/-- MWAIT_RETURN: the monitored bytes have reached the threshold, now or after some write since (R392). -/
def execMwaitReturn (c : Nat) (s : State) :=
  match (core s c).wait with
  | .mwait d thr met =>
    event (.mwaitReturn c) s (met.isSome || decide (thr.toNat ≤ (monitored s c).1.toNat)) fun s =>
      let (v, s) := monitored s c
      modCore (setX s c d.toNat (met.getD v)) c fun k => { k with wait := .none, pc := k.pc + 1, supplied := [], issued := none }
  | _ => event (.mwaitReturn c) s false id

/-- The first eight bytes of a barrier object (Table 14-4), as the parties of a graph see it (R295). -/
def barrierWord (s : State) (gid : Option Nat) (x : Xlat) : Nat :=
  bits (viewLine s gid (x.pa / 64) x.attr (peekLine s (x.pa / 64) x.attr)).toNat 0 64

/-- The graph whose commit group a core sees. -/
def coreGid (s : State) (c : Nat) : Option Nat := (coreCtx s c).gid

/-- BARW_RETURN: PEND has reached 0 (R289); the read that finds it crosses the links (R11). -/
def execBarwReturn (c : Nat) (s : State) :=
  match (core s c).wait with
  | .barw x met =>
    event (.barwReturn c) s (met || bits (barrierWord s (coreGid s c) x) 0 20 == 0) fun s =>
      modCore (sendRead s s.cur.val (systemDie x.pa) (natBytes (barrierWord s (coreGid s c) x) 8)) c fun k =>
        { k with wait := .none, pc := k.pc + 1, supplied := [], issued := none }
  | _ => event (.barwReturn c) s false id

end Sys2Proof.Machine
end

