-- ==== Sys2Proof/Machine/Sync.lean ====
section
/-! DEFINITION. Synchronisation, format SY: read-modify-writes on scratch and in memory (R243, R291, R293), barrier objects and
prefetches (R248, R249, R289), monitors (R392), frames (R59), and commit groups (R319, R475). -/

namespace Sys2Proof.Machine

/-- The commit group of the executing context's graph is open (R319). -/
def groupOpen (s : State) : Bool := (myGraph s).any fun g => g.group.state == 1

/-- A write that the executing context issues now is in the commit group of its graph: between the XBEGIN and the XEND, whether or not
the group has aborted (R319, R476). -/
def groupStanding (s : State) : Bool := (myGraph s).any fun g => g.group.state == 1 || g.group.state == 3

/-- RMWS (R243, R244): its node belongs to it for three cycles, in the last of which it writes, and the other scheduled users of
this cycle fault. -/
def execRmws (h : Hdr) (d a b c : Reg) (aop : BitVec 5) (ty : BitVec 4) (slot : BitVec 8) (s : State) :=
  elemWord (.rmws h d a b c aop ty slot) s fun s =>
    match scratchAddr s (eScalar s a).toNat 4 with
    | .error f => .error (.trap f 0)
    | .ok (g, j, o) =>
      if rmwHolds (region s g) j then .error (.trap 0x12 0) else
        let old := BitVec.ofNat 32 (bytesNat (nodeRead (region s g) j o 4))
        let r := atomicNew aop ty old (eScalar s b) (eScalar s c)
        let op := fun (q : Region) => (⟨j, q.rc + 2, o, natBytes r.1.toNat 4, myIter s, myPos s, myRow s, myCol s⟩ : RmwOp)
        .ok (modRegion (faultUsers s j) g fun q => { q with rmwBusy := q.rmwBusy ++ [op q] }, [.scalar d old, .flags r.2])

/-- Bytes of a sequenced cell (R410). -/
def cellBytes (ty : BitVec 4) : Nat := if ty == 1 || ty == 2 then 2 else 4

/-- REDSEQ (R291, R292, R410): a contribution is held for the release, at which it is issued, or judged at its home while the core
waits. -/
def execRedseq (h : Hdr) (a b c : Reg) (aop : BitVec 5) (ty : BitVec 4) (s : State) :=
  word (.redseq h a b c aop ty) s
    (fun s =>
      let va := (eScalar s a).toNat
      let n := cellBytes ty
      if va % n != 0 then .error (.trap 0x23 0)
      else .ok (s, [holdFx s va (natBytes (eScalar s b).toNat n) ty 0 (some (aop, ty, eScalar s c))]))
    (fun s =>
      let va := (xval s a).toNat
      let n := cellBytes ty
      let me := myCore s
      if groupOpen s then .error (.trap 0x01 0) else
        match vwriteAddr s (coreCtx s me) va n ty.toNat with
        | .error e => .error e
        | .ok (x, s) =>
          if atomicDenied x || 56 < x.pa % 64 + n then .error (.trap 0x21 (BitVec.ofNat 64 va)) else
            let k : Contribution := ⟨x.pa / 64, x.pa % 64, aop, ty, (xval s c).setWidth 32, (xval s b).setWidth 32, s.cur.val,
              s.who, x.key, x.dedup, false, false, rootAsid (myRoot s)⟩
            let home := homeDie k.line
            let s := sendContribution (noteWritten (modCore s me fun q => { q with wait := .redseq }) me x.pa) k
            .ok (judgeContribution s home ((dieAt s home).reds.length - 1)))

/-- AMO (R343, R344). -/
def execAmo (h : Hdr) (d a b c : Reg) (aop : BitVec 5) (ty : BitVec 4) (s : State) :=
  word (.amo h d a b c aop ty) s
    (fun s =>
      let va := (eScalar s a).toNat
      if va % 4 != 0 then .error (.trap 0x23 0) else .ok (s, [.amo va aop ty (eScalar s b) (eScalar s c)]))
    (fun s =>
      let va := (xval s a).toNat
      if groupOpen s then .error (.trap 0x01 0) else
        match vwriteAddr s (coreCtx s (myCore s)) va 4 ty.toNat with
        | .error e => .error e
        | .ok (x, s) =>
          if atomicDenied x then .error (.trap 0x21 (BitVec.ofNat 64 va)) else
            let (old, s) := performAmo s (coreCtx s (myCore s)) x aop ty ((xval s b).setWidth 32) ((xval s c).setWidth 32)
            .ok (retX (noteWritten s (myCore s) x.pa) d (if ty == 11 then old.signExtend 64 else old.setWidth 64)))

/-! ### Barrier objects (R248, R289, R346) -/

/-- The barrier object that a core names: translated as a write, in HBM and in no coded region. -/
def barrierAt (s : State) (va : Nat) : Except Stop (Xlat × State) :=
  match if va % 64 != 0 then .error (.trap 0x23 (BitVec.ofNat 64 va)) else vwriteAddr s (coreCtx s (myCore s)) va 64 15 with
  | .error e => .error e
  | .ok (x, s) => if atomicDenied x then .error (.trap 0x21 (BitVec.ofNat 64 va)) else .ok (x, s)

/-- The cores of the focused die that wait on a barrier object at an address and that see its PEND at 0 (R248). -/
def barrierMet (s : State) (pa : Nat) : State :=
  (List.range 33).foldl (fun s c =>
    match (core s c).wait with
    | .barw x _ =>
      if x.pa == pa && bits (barrierWord s (coreGid s c) x) 0 20 == 0 then modCore s c fun k => { k with wait := .barw x true } else s
    | _ => s) s

/-- The cores of every die that wait on a barrier object see that its PEND is 0 (R248). -/
def barrierSeen (s : State) (pa : Nat) : State := (List.range 24).foldl (fun s n => onDie s n fun s => barrierMet s pa) s

/-- A barrier object updated at its home as one operation by a party of a graph; it is no write that a commit group takes. (DESIGN
CHOICE, log 21) -/
def setBarrier (s : State) (gid : Option Nat) (x : Xlat) (v : Nat) : State :=
  let data := natBytes v 8
  barrierSeen (refreshCaptured (performBytes s x.pa x.attr data 0 s.cur.val 32 false) gid x.pa data) x.pa

/-- A core's word updates a barrier object, and the home answers it (R11). -/
def coreBarrier (s : State) (x : Xlat) (v : Nat) : State :=
  let s := setBarrier s (coreGid s (myCore s)) x v
  noteWritten (sendPacket s (systemDie x.pa) s.cur.val .response (natBytes v 8)) (myCore s) x.pa

/-- The barrier object as the executing core sees it. -/
def myBarrier (s : State) (x : Xlat) : Nat := barrierWord s (coreGid s (myCore s)) x

/-- BARA. -/
def execBara (h : Hdr) (a b : Reg) (s : State) :=
  coreWord (.bara h a b) s fun s =>
    let va := (xval s a).toNat
    match barrierAt s va with
    | .error e => .error e
    | .ok (x, s) =>
      let w := myBarrier s x
      if 2 ^ 20 ≤ bits w 0 20 + (xval s b).toNat then .error (.trap 0x37 (BitVec.ofNat 64 va))
      else .ok (advance (coreBarrier s x (w + (xval s b).toNat)))

/-- BARW: it retires at once when its own decrement reaches 0. -/
def execBarw (h : Hdr) (a : Reg) (s : State) :=
  coreWord (.barw h a) s fun s =>
    let va := (xval s a).toNat
    match barrierAt s va with
    | .error e => .error e
    | .ok (x, s) =>
      let w := myBarrier s x
      if bits w 0 20 == 0 then .error (.trap 0x37 (BitVec.ofNat 64 va)) else
        let s := coreBarrier s x (w - 1)
        if bits w 0 20 == 1 then .ok (advance s)
        else .ok (modCore s (myCore s) fun k => { k with wait := .barw x false })

/-- PREF (R249, R405): PEND is raised, and the wing tiles take the range. -/
def execPref (h : Hdr) (d a b : Reg) (off : BitVec 20) (s : State) :=
  coreWord (.pref h d a b off) s fun s =>
    let va := (xval s a + off.signExtend 64).toNat
    let len := (xval s b).toNat
    let obj := (xval s d).toNat
    if va % 64 != 0 || len % 64 != 0 then .error (.trap 0x23 (BitVec.ofNat 64 va))
    else if len == 0 || 2 ^ 32 < len then .error (.trap 0x01 0)
    else match barrierAt s obj with
      | .error e => .error e
      | .ok (x, s) =>
        let w := myBarrier s x
        if bits w 0 20 == 2 ^ 20 - 1 then .error (.trap 0x37 (BitVec.ofNat 64 obj)) else
          let p : Prefetch := ⟨va / 64, len / 64, 0, myRoot s, (kindOf s).isMgr, x, coreGid s (myCore s)⟩
          .ok (advance (modDie (coreBarrier s x (w + 1)) fun q => { q with prefs := q.prefs ++ [p] }))

/-- The lines of a prefetch brought into the L2 of their homes in ascending order, each on the request of the die that prefetches
(R11), and the code of the first that is skipped. -/
def prefLines (p : Prefetch) : Nat → Nat → State → Nat → State × Nat
  | 0, _, s, code => (s, code)
  | n + 1, ln, s, code =>
    let skip := fun (c : Nat) => if code == 0 then c else code
    match translate s { mtlb := noTlb, root := p.root, user := !p.manager, gid := none, capture := false, counter := 32 } .read (64 * ln) with
    | (s, .error (.page _)) => prefLines p n (ln + 1) s (skip 0x20)
    | (s, .error (.code c)) => prefLines p n (ln + 1) s (skip c.toNat)
    | (s, .ok x) =>
      if place x.pa != .hbm then prefLines p n (ln + 1) s (skip 0x21)
      else prefLines p n (ln + 1) (sendPacket (loadLine s (x.pa / 64) x.attr 0).2 s.cur.val (homeDie (x.pa / 64)) .request []) code

/-- PREF_COMPLETE: every line of prefetch `k` is present or skipped, and PEND falls (R249). -/
def execPrefComplete (k : Nat) (s : State) :=
  match (die s).prefs[k]? with
  | none => machineEvent s false id
  | some p =>
    machineEvent s true fun s =>
      let s := modDie s fun q => { q with prefs := q.prefs.eraseIdx k }
      let (s, code) := prefLines p p.count p.line s 0
      let w := barrierWord s p.gid p.obj
      let w := if bits w 0 20 == 0 then w else w - 1
      let w := if code == 0 then w else
        let w := if w.testBit 20 then w else w + 2 ^ 20
        if bits w 21 8 == 0 then w + 2 ^ 21 * code else w
      setBarrier s p.gid p.obj w

/-! ### Monitors (R392) -/

/-- MARM: translated as a load. -/
def execMarm (h : Hdr) (a : Reg) (s : State) :=
  coreWord (.marm h a) s fun s =>
    let va := (xval s a).toNat
    if va % 8 != 0 then .error (.trap 0x23 (BitVec.ofNat 64 va)) else
      match translate s (coreCtx s (myCore s)) .read va with
      | (_, .error f) => .error (stopOf .read va 8 15 0 f)
      | (s, .ok x) =>
        if place x.pa != .hbm then .error (.trap 0x21 (BitVec.ofNat 64 va)) else
          .ok (modCore (advance s) (myCore s) fun k => { k with mon := some (x.pa, x.codec, x.key) })

/-- MWAIT: it retires once the monitored bytes have reached the threshold. -/
def execMwait (h : Hdr) (d a : Reg) (s : State) :=
  coreWord (.mwait h d a) s fun s =>
    let c := myCore s
    if (core s c).mon.isNone then .error (.trap 0x01 0) else
      let (v, t) := monitored s c
      if xval s a ≤ v then .ok (retX t d v)
      else .ok (modCore s c fun k => { k with wait := .mwait d (xval s a) none })

/-! ### FRAME (R59) -/

def execFrame (h : Hdr) (s : State) :=
  elemWord (.frame h) s fun s => .ok (s, [.frame])

/-! ### Commit groups (R319, R475, R476) -/

/-- The executing stagehand's graph and its commit group's STATE. -/
def myGroup (s : State) : Option (Graph × Nat) := (myGraph s).map fun g => (g, g.group.state.toNat)

/-- XBEGIN. (DESIGN CHOICE, log 54) -/
def execXbegin (h : Hdr) (s : State) :=
  coreWord (.xbegin h) s fun s =>
    match myGroup s with
    | some (g, 0) =>
      let open_ := { Group.none with state := 1, opener := myRegion s }
      .ok (modGraph (advance s) g.gid fun g => { g with group := open_ })
    | _ => .error (.trap 0x01 0)

/-- A command whose writes the group has still to take. -/
def groupedLeft (s : State) (gid : Nat) : Bool :=
  (die s).regions.toList.any fun r => r.owner == some gid && r.ports.toList.any fun p => p.queue.any fun c => c.grouped && !c.void

/-- The commands of an aborted group write nothing any more (R476). -/
def voidGrouped (s : State) (gid : Nat) : State :=
  let off := fun (p : Port) => { p with queue := p.queue.map fun c => { c with void := c.void || c.grouped } }
  let each := fun (r : Region) => if r.owner == some gid then { r with ports := r.ports.map off } else r
  modDie s fun d => { d with regions := d.regions.map each }

/-- XEND. -/
def execXend (h : Hdr) (d : Reg) (s : State) :=
  coreWord (.xend h d) s fun s =>
    match myGroup s with
    | some (g, 1) =>
      if groupedLeft s g.gid then .error .hold else
        .ok (retX (modGraph s g.gid fun g => { g with group := { g.group with state := 2 } }) d 0)
    | some (_, 2) => .ok (retX s d 0)
    | some (g, 3) => .ok (retX (modGraph (voidGrouped s g.gid) g.gid fun g => { g with group := { g.group with state := 0 } }) d 1)
    | _ => .error (.trap 0x01 0)

/-- XABORT. -/
def execXabort (h : Hdr) (a : Reg) (s : State) :=
  coreWord (.xabort h a) s fun s =>
    match myGroup s with
    | some (g, 1) => .ok (advance (abortGroup s g.gid 1 ((xval s a).setWidth 32)))
    | some (_, 3) => .ok (advance s)
    | _ => .error (.trap 0x01 0)

/-! ### Contributions at their homes (R291, R292) -/

/-- REDSEQ_ARRIVAL: contribution `k` of the focused home arrives and is judged, or waits for a place. -/
def execRedseqArrival (k : Nat) (s : State) :=
  machineEvent s (((die s).reds[k]?).any fun c => !c.stored && !c.arrived) fun s => judgeContribution s s.cur.val k

/-- REDSEQ_PLACE_FREE: a contribution that waits at its home can be judged. -/
def execRedseqPlaceFree (k : Nat) (s : State) :=
  event (.redseqPlaceFree k) s (((die s).reds[k]?).any fun c => !c.stored && c.arrived && judgeable s c) fun s =>
    judgeContribution s s.cur.val k

end Sys2Proof.Machine
end

