-- ==== Sys2Proof/Machine/Token.lean ====
section
/-! DEFINITION. The token fabric: the instructions of Table 9-7, the movement of tokens along routes and through converters
(R163 to R170), and the kinds GATHER, REDUCE, QUANT and SWITCH (R161, R175 to R177, R480). -/

namespace Sys2Proof.Machine

/-! ### Routes (Table 9-4) -/

/-- Fields of a route word. -/
def routeV (r : Nat) : Bool := r.testBit 15
def routeConv (r : Nat) : Bool := r.testBit 14
def routePort (r : Nat) : Nat := bits r 12 2
def routeDest (r : Nat) : Nat := bits r 0 10

/-- The route word of a converter's output, from the load that is resident for its region's graph (R168). -/
def convRoute (s : State) (k : Nat) : Nat :=
  let recs := (((ownerOf s (k / 2)).bind fun g => g.load).map fun l => l.recs).getD []
  (recs.findSome? fun r => match r with
    | .route src true _ v => if src == k then some v.toNat else none
    | _ => none).getD 0

/-- Two valid routes that lead to one place. -/
def sameDest (a b : Nat) : Bool :=
  routeV a && routeV b && routeConv a == routeConv b && routeDest a == routeDest b && (routeConv a || routePort a == routePort b)

/-- The outputs of units, as unit and port, whose routes are valid. -/
def unitRoutes (s : State) : List (Nat × Nat) :=
  (List.range 768).flatMap fun u => [(u, 0), (u, 1)].filter fun p => routeV (upar s p.1 (2 + p.2))
/-- The destination of a route word takes another route, or a converter. -/
def destTaken (s : State) (v : Nat) (own : Option (Nat × Nat)) : Bool :=
  ((unitRoutes s).any fun p => some p != own && sameDest (upar s p.1 (2 + p.2)) v) ||
    (List.range 32).any fun g => sameDest (convRoute s (2 * g)) v

/-- An input port as the destination of a route word. -/
def portRoute (u i : Nat) : Nat := 2 ^ 15 + 2 ^ 12 * i + u

/-- The destination port of a route word exists (R173, R208). -/
def destExists (s : State) (v : Nat) : Bool :=
  if routeConv v then routeDest v < 64 && routeDest v % 2 == 1 && routePort v == 0
  else routeDest v < 768 && routePort v < unitInputs (unitKind (routeDest v)) &&
    !(unitKind (routeDest v) == .score && (upar s (routeDest v) 5).testBit 15)

/-- A stagehand names converters of its own region alone (R172). -/
def convAllowed (s : State) (k : Nat) : Except Stop Unit :=
  if (kindOf s).isMgr || k / 2 == myRegion s then .ok () else .error (.trap 0x21 0)
/-- The destination of a route word is one that the executing core may name. -/
def destAllowed (s : State) (v : Nat) : Except Stop Unit :=
  if routeConv v then convAllowed s (routeDest v) else unitAllowed s (routeDest v)

/-! ### OPSET and OPGET -/

/-- SCORE units bound to a DESCEND unit. -/
def boundTo (s : State) (u : Nat) : List Nat := (List.range 192).filter fun k => upar s k 5 == u + 2 ^ 15
/-- Every SCORE unit bound to a DESCEND unit is released (R206). -/
def releaseScorers (s : State) (u : Nat) : State := (boundTo s u).foldl (fun s k => setPar s k 5 0) s
/-- The run of SCORE units that a SCORERS value names. -/
def scorerRun (v : Nat) : List Nat := (List.range (bits v 8 4 + 1)).map fun k => bits v 0 8 + k
/-- SCORERS written: the bound units are released and the new run is bound (R206). -/
def bindScorers (s : State) (u v : Nat) : State :=
  (scorerRun v).foldl (fun s k => setPar s k 5 (u + 2 ^ 15)) (releaseScorers s u)
/-- A unit of the run is bound to another DESCEND unit. -/
def scorersTaken (s : State) (u v : Nat) : Bool :=
  (scorerRun v).any fun k => (upar s k 5).testBit 15 && upar s k 5 != u + 2 ^ 15

/-- A write of parameter register `p` of a unit (R162, R173, R183, R206): none where it is ILLEGAL. (DESIGN CHOICE, log 50) -/
def opsetUnit (s : State) (u p v : Nat) : Option State :=
  let k := unitKind u
  if p == 0 then (if ctlOk k v then some (setPar s u 0 v) else none)
  else match paramOk k p v with
    | none => if readOnlyParam k p || v != 0 then none else some s
    | some false => none
    | some true =>
      if k == .treeupd && ctlEn s u then none
      else if k == .descend && p == 6 then
        (if scorersTaken s u v then none else some (setPar (bindScorers s u v) u p v))
      else some (setPar s u p v)

/-- OPSET (R172, R173, R400): it holds its core while a firing is in progress. -/
def execOpset (h : Hdr) (a : Reg) (unit : BitVec 10) (param : BitVec 6) (s : State) :=
  coreWord (.opset h a unit param) s fun s =>
    match unitAllowed s unit.toNat with
    | .error e => .error e
    | .ok () =>
      if inProgress (opUnit s unit.toNat) then .error .hold else
      match opsetUnit s unit.toNat param.toNat (xval s a).toNat with
      | none => .error (.trap 0x01 0)
      | some s => .ok (advance s)

/-- STAT (Table 9-3). -/
def unitStat (q : OpUnit) : Nat :=
  q.rrp + (if q.halted then 2 ^ 8 else 0) + 2 ^ 16 * q.err.toNat + 2 ^ 32 * q.firings.toNat

/-- Length of a pool's free list (Table 10-2). -/
def freeLength (base stride cap : Nat) (s : State) (a : OpAccess) : Nat → Nat → Except Stop (Nat × State)
  | 0, _ => .ok (0, s)
  | n + 1, i =>
    if cap ≤ i then .ok (0, s) else
      match opRead s a ((base + i * stride) % 2 ^ 64) 64 0 with
      | .error e => .error e
      | .ok (bs, s) =>
        match freeLength base stride cap s a n (bits (bytesNat bs) 64 24) with
        | .error e => .error e
        | .ok (k, s) => .ok (k + 1, s)

/-- Parameter register `p` of a unit as OPGET reads it. -/
def opgetUnit (s : State) (u p : Nat) : Except Stop (Nat × State) :=
  let q := opUnit s u
  match unitKind u, p with
  | _, 1 => .ok (unitStat q, s)
  | .treeupd, 8 =>
    let t := poolOf s u (coreAccess s)
    (match freeLength t.nbase t.ns t.cap s (coreAccess s) t.cap t.fhead with
     | .error e => .error e
     | .ok (k, s) => .ok ((t.cap - t.next + k) % 2 ^ 25, s))
  | .cascell, 6 => .ok (q.mx.toNat + 2 ^ 32 * q.sum.toNat, s)
  | .grammar, 8 => .ok (bits (upar s u 8) 0 23 + (if q.forced then 2 ^ 32 else 0) + 2 ^ 40 * q.fid.toNat, s)
  | _, _ => .ok (upar s u p, s)

/-- OPGET (R162, R172, R400). -/
def execOpget (h : Hdr) (d : Reg) (unit : BitVec 10) (param : BitVec 6) (s : State) :=
  coreWord (.opget h d unit param) s fun s =>
    match unitAllowed s unit.toNat with
    | .error e => .error e
    | .ok () =>
      if inProgress (opUnit s unit.toNat) then .error .hold else
      match opgetUnit s unit.toNat param.toNat with
      | .error e => .error e
      | .ok (v, s) => .ok (retX s d (BitVec.ofNat 64 v))

/-! ### ROUTE, TINJ, TDRAIN, TCONV -/

/-- ROUTE (R173, R400): it holds its core while a firing is in progress. -/
def execRoute (h : Hdr) (a : Reg) (unit : BitVec 10) (param : BitVec 6) (s : State) :=
  coreWord (.route h a unit param) s fun s =>
    let u := unit.toNat
    let v := (xval s a).toNat
    match unitAllowed s u with
    | .error e => .error e
    | .ok () =>
      if inProgress (opUnit s u) then .error .hold
      else if ctlEn s u || !onlyFields [(0, 10), (12, 4)] v then .error (.trap 0x01 0)
      else if !routeV v then .ok (advance (setPar s u (2 + param.toNat) v))
      else match destAllowed s v with
        | .error e => .error e
        | .ok () =>
          if !destExists s v || destTaken s v (some (u, param.toNat)) then .error (.trap 0x01 0)
          else .ok (advance (setPar s u (2 + param.toNat) v))

/-- TINJ (R90, R173): a full queue holds the core; any tag passes (DESIGN CHOICE, log 80). -/
def execTinj (h : Hdr) (a b : Reg) (unit : BitVec 10) (param : BitVec 6) (s : State) :=
  coreWord (.tinj h a b unit param) s fun s =>
    let u := unit.toNat
    let i := param.toNat
    let tag := (xval s b).toNat
    match unitAllowed s u with
    | .error e => .error e
    | .ok () =>
      if 16 ≤ tag || unitInputs (unitKind u) ≤ i || destTaken s (portRoute u i) none then .error (.trap 0x01 0)
      else if !portRoom s u i then .error .hold
      else .ok (advance (setIn s u i (inPort s u i ++ [scalarTok (BitVec.ofNat 4 tag) (xval s a).toNat])))

/-- A unit drained: EN := 0, its input tokens discarded, its fault cleared (R174). A GATHER unit forgets the header of its tile, so that
the next token is taken as one; so it does when it halts (DESIGN CHOICE, log 49). -/
def drainUnit (s : State) (u : Nat) : State :=
  let v := upar s u 0
  modUnit (setPar s u 0 (v - v % 2)) u fun q =>
    { q with inq := Vector.replicate 4 [], halted := false, err := 0, tile := none, rows := [], supplied := [], issued := none }

/-- TDRAIN (R174). -/
def execTdrain (h : Hdr) (d : Reg) (unit : BitVec 10) (s : State) :=
  coreWord (.tdrain h d unit) s fun s =>
    let u := unit.toNat
    match unitAllowed s u with
    | .error e => .error e
    | .ok () =>
      if inProgress (opUnit s u) then .error .hold else
        let n := ((opUnit s u).inq.toList.map List.length).sum
        .ok (retX (drainUnit s u) d (BitVec.ofNat 64 n))

/-- TCONV (R168, R173). -/
def execTconv (h : Hdr) (d a : Reg) (unit : BitVec 10) (s : State) :=
  coreWord (.tconv h d a unit) s fun s =>
    let k := unit.toNat
    let v := xval s a
    match convAllowed s k with
    | .error e => .error e
    | .ok () =>
      if !onlyFields [(0, 4), (8, 4), (16, 1)] v.toNat then .error (.trap 0x01 0) else
        let old := (conv s k).cfg
        .ok (retX (modConv s k fun c => { c with cfg := v.setWidth 17 }) d (old.setWidth 64))

/-! ### Tokens on their way -/

/-- The raw tail of a latch: the tokens that are not converted yet. A converted entry carries tag 15. -/
def latchDone (l : List Token) : List Token := l.takeWhile fun t => t.tag == 15
def latchRaw (l : List Token) : List Token := l.dropWhile fun t => t.tag == 15

/-- What an output converter makes of its unconverted tokens (R107, R170, R221): the beats of the first object; none where it is
incomplete or does not convert. RAW tokens are read as beats of TAG (R106). Values go into pairs of an MX TAG by R102, scalars and the
values of pairs of that TAG among them (Table 4-5). A beat of a floating TAG is rounded into it lane by lane too, so that its NaNs come
out canonical (R91 to R94). (DESIGN CHOICE, log 17) -/
def convertObject (tag : BitVec 4) (pad : Line) (raw : List Token) : Option (List Line × List Token) :=
  match raw with
  | [] => none
  | t :: l =>
    if !convertible t.tag tag then none
    else if mxTag tag then
      if t.tag == 15 then some ([t.data], l) else
        match takeExact tag (32 * mxBlocks tag) (32 * mxBlocks tag) [] raw with
        | .got vs rest => some (packPairs tag vs, rest)
        | _ => none
    else if !t.vec then some ([BitVec.ofNat 512 ((tokenPatterns tag t).headD 0)], l)
    else if t.tag == tag && (isInt tag || 13 ≤ tag.toNat) then some ([t.data], l)
    else match takeOne tag raw with
      | .got vs rest => some (packBeats (if tag == 15 then laneBits t.tag else laneBits tag) pad vs, rest)
      | _ => none

/-- A token taken into the latch of an input converter: the object it completes is converted (R164, R170). -/
def convPut (s : State) (k : Nat) (t : Token) : State :=
  let (pad, s) := fresh s
  modConv s k fun c =>
    let t := if t.tag == 15 && !t.vec then { t with vec := true } else t
    let raw := latchRaw c.latch ++ [t]
    match convertObject (convTag c) pad raw with
    | some (ls, rest) => { c with latch := latchDone c.latch ++ ls.map (fun l => ⟨15, true, l⟩) ++ rest }
    | none => { c with latch := latchDone c.latch ++ raw }

/-- Entries of the latch that tokens take: a beat takes one, and the scalars of a block under way share one for 16 of them.
(DESIGN CHOICE, log 17) -/
def latchEntries (l : List Token) : Nat :=
  (l.filter fun t => t.vec).length + ((l.filter fun t => !t.vec).length + 15) / 16

/-- An input converter has room for a token and for what it becomes. -/
def convRoom (c : Conv) (t : Token) : Bool :=
  let raw := latchRaw c.latch ++ [t]
  let (ls, rest) := (convertObject (convTag c) 0 raw).getD ([], raw)
  decide (latchEntries (latchDone c.latch) + ls.length + latchEntries rest ≤ 16)

/-- The token at the head of the route into input converter `k`, and the state without it at its source: a unit's emission,
or the latch of an output converter. -/
def routedInto (s : State) (k : Nat) : Option (Token × State) :=
  let v := 2 ^ 15 + 2 ^ 14 + k
  match (unitRoutes s).find? fun p => sameDest (upar s p.1 (2 + p.2)) v with
  | some (u, o) =>
    (match (opUnit s u).out with
     | (p, t) :: l => if p == o then some (t, modUnit s u fun q => { q with out := l }) else none
     | [] => none)
  | none =>
    ((List.range 32).find? fun g => sameDest (convRoute s (2 * g)) v).bind fun g =>
      match (conv s (2 * g)).latch with
      | t :: l => some (t, modConv s (2 * g) fun c => { c with latch := l })
      | [] => none

/-- CONVERTER_TOKEN_IN: an input converter takes a token from its route, or an output converter's oldest token goes onto its
route to a unit (R169, R170). -/
def execConverterTokenIn (k : Nat) (s : State) :=
  let v := convRoute s k
  if k % 2 == 1 then
    match routedInto s k with
    | some (t, s') => event (.converterTokenIn k) s (convRoom (conv s k) t) fun _ => convPut s' k t
    | none => event (.converterTokenIn k) s false id
  else
    match (conv s k).latch with
    | t :: l =>
      event (.converterTokenIn k) s
        (routeV v && !routeConv v && portRoom s (routeDest v) (routePort v)) fun s =>
          let s := modConv s k fun c => { c with latch := l }
          setIn s (routeDest v) (routePort v) (inPort s (routeDest v) (routePort v) ++ [t])
    | [] => event (.converterTokenIn k) s false id

/-- UNIT_TOKEN_EMIT: the oldest emission of a unit joins the queue of its destination (R164, R165). -/
def execUnitTokenEmit (u : Nat) (s : State) :=
  match (opUnit s u).out with
  | (o, t) :: l =>
    let v := upar s u (2 + o)
    event (.unitTokenEmit u) s
      (routeV v && !routeConv v && portRoom s (routeDest v) (routePort v)) fun s =>
        let s := modUnit s u fun q => { q with out := l }
        setIn s (routeDest v) (routePort v) (inPort s (routeDest v) (routePort v) ++ [t])
  | [] => event (.unitTokenEmit u) s false id

/-! ### GATHER (R175 to R177) -/

/-- The next index of a tile, from the beat at the head of the queue. -/
def tileIndex (h : Line) (beat : Line) (n : Nat) : Nat :=
  bits beat.toNat (8 * tileIndexBytes h * (n % (64 / tileIndexBytes h))) (8 * tileIndexBytes h)
/-- Index `n` is the last that a beat of the tile holds. -/
def lastOfBeat (h : Line) (n : Nat) : Bool := (n + 1) % (64 / tileIndexBytes h) == 0 || n + 1 == tileCount h

/-- The lines of a row read, each at a home on the row's die (R176); a row that does not start a line raises ALIGN (DESIGN CHOICE,
log 95). -/
def readRow (s : State) (a : OpAccess) (hint n va : Nat) : Nat → Except Stop (List Byte × State)
  | 0 => .ok ([], s)
  | k + 1 =>
    let part : Except Stop (List Byte × State) :=
      match a.sup.find? fun p => p.1 == va && p.2.length == 64 with
      | some p => .ok (p.2, s)
      | none =>
        match vreadHome s va with
        | .error e => .error e
        | .ok x => .ok (readBytes x.2 a.ctx x.1 64 hint)
    match part with
    | .error e => .error e
    | .ok (bs, s) =>
      match readRow s a hint n ((va + 64) % 2 ^ 64) k with
      | .error e => .error e
      | .ok (cs, s) => .ok (bs ++ cs, s)
where
  vreadHome (s : State) (va : Nat) : Except Stop (Xlat × State) :=
    if va % 64 != 0 then .error (.trap 0x23 0) else
      match translate s a.ctx .read va with
      | (_, .error f) => .error (stopOf .read va 64 15 0 f)
      | (s, .ok x) =>
        if place x.pa == .hbm && homeDie (x.pa / 64) == n then .ok (x, s) else .error (.trap 0x21 0)

/-- The rows at the front of a GATHER unit that are complete leave it in index order, as beats (R177). -/
def emitRows (tag : BitVec 4) : List GatherRow → List Token × List GatherRow
  | [] => ([], [])
  | r :: l =>
    if r.data.isEmpty then ([], r :: l) else
      let (ts, rest) := emitRows tag l
      ((chunks 64 r.data.length r.data).map (fun bs => beatTok tag (bytesLine bs)) ++ ts, rest)

/-- Complete rows are emitted, with a beat's firing done as its last row goes; where a row whose read has faulted is next, the
unit halts, and the beats whose rows are not emitted stand at the head of its queue again (R167, R177). -/
def advanceRows (s : State) (u : Nat) : State :=
  let q := opUnit s u
  let (ts, rest) := emitRows (ctlTag s u) q.rows
  let fired := ((q.rows.take (q.rows.length - rest.length)).filter fun r => r.beat.isSome).length
  let s := modUnit s u fun q =>
    { q with out := q.out ++ ts.map (fun t => (0, t)), rows := rest, firings := q.firings + BitVec.ofNat 32 fired }
  match rest.head?.bind fun r => r.fault with
  | none => s
  | some c =>
    let s := withdrawRetry s fun e => e.who == Requester.gather u
    haltUnit (modUnit (setIn s u 0 (rest.filterMap (fun r => r.beat) ++ inPort s u 0)) u fun q =>
      { q with rows := [], tile := none, supplied := [] }) u c

/-- A row takes its place behind those in flight. -/
def putRow (s : State) (u : Nat) (r : GatherRow) : State :=
  modUnit s u fun q => { q with rows := q.rows ++ [r], served := false }

/-- A fault of a token or an index of GATHER stands behind the rows in flight, as that of a row: they are emitted before the unit
halts (R167, R177). -/
def gatherFault (s : State) (u : Nat) (c : Code) (beat : Option Token) : State :=
  advanceRows (putRow s u ⟨0, 0, 0, [], none, beat, some c, unitRoot s u⟩) u

/-- GATHER_FIRING: a header begins a tile; then each index puts a row in flight, and a beat is used up with its last index
(R175, R176). (DESIGN CHOICE, log 49) -/
def execGatherFiring (u : Nat) (s : State) :=
  let q := opUnit s u
  let ready := decide (q.rows.length < 64) && (q.rows.all fun r => r.fault.isNone) && !(inPort s u 0).isEmpty
  event (.gatherFiring u) s (mayFire s u .gather && ready) fun s =>
    match inPort s u 0 with
    | [] => s
    | t :: l =>
      if !t.vec || !convertible t.tag 15 then gatherFault s u 0x01 none else
      match (opUnit s u).tile with
      | none =>
        if !tileOk t.data then gatherFault s u 0x01 none else
          modUnit (setIn s u 0 l) u fun q => { q with tile := some (t.data, 0), firings := q.firings + 1, served := false }
      | some (h, n) =>
        let (n', addr) := tileTarget h (tileIndex h t.data n)
        let last := lastOfBeat h n
        let beat := if last then some t else none
        let s := if last then setIn s u 0 l else s
        if 24 ≤ n' then gatherFault s u 0x21 beat else
          modUnit (putRow s u ⟨n', addr, tileRow h, [], none, beat, none, unitRoot s u⟩) u fun q =>
            { q with tile := if n + 1 == tileCount h then none else some (h, n + 1) }

/-- GATHER_ROW_ARRIVAL: row `k` in flight is read (R176, R177); data that RTYW supplied for it are used up. -/
def execGatherRowArrival (u k : Nat) (s : State) :=
  match (opUnit s u).rows[k]? with
  | none => event (.gatherRowArrival u k) s false id
  | some r =>
    event (.gatherRowArrival u k) s
      (unitKind u == UnitKind.gather && r.data.isEmpty && r.retry.isNone && r.fault.isNone && !(opUnit s u).halted) fun s =>
      let a := { unitAccess s u with ctx := { (unitAccess s u).ctx with root := r.root } }
      let put := fun (s : State) (f : GatherRow → GatherRow) => modUnit s u fun q =>
        { q with
          rows := modNth q.rows k f
          supplied := q.supplied.filter fun p => !(r.addr ≤ p.1 && p.1 < r.addr + r.size) }
      match readRow s a (bits (upar s u 4) 0 2) r.die r.addr (r.size / 64) with
      | .error (.trap c _) => advanceRows (put s fun r => { r with fault := some c }) u
      | .error (.page acc lvl va size _ _) =>
        (match postRetry s ⟨Requester.gather u, 3, acc.num, lvl, va, size, 15, 0, unitLoader s u, 0, 0, u, a.ctx.root, false⟩ with
         | some (slot, s) => modUnit s u fun q => { q with rows := modNth q.rows k fun r => { r with retry := some slot } }
         | none => s)
      | .error _ => s
      | .ok (bs, s) => advanceRows (put s fun r => { r with data := bs }) u

/-! ### REDUCE (Table 9-5, R480) -/

/-- Ports joined by a REDUCE unit. -/
def joinedPorts (s : State) (u : Nat) : List Nat := (List.range 4).filter fun n => (upar s u 5).testBit n

/-- The relations between OPSEL, OTAG, RFMT, SAT and INMASK that a firing needs; the result converts from RFMT to OTAG (R106, R480). -/
def reduceOk (s : State) (u : Nat) : Bool :=
  let tag := bits (upar s u 4) 0 4
  2 ≤ (joinedPorts s u).length &&
    (if ctlSel s u == 3 then tag == 15 && bits (upar s u 4) 4 1 == 0 && ctlTag s u == 15
     else [0, 1, 2, 9, 10, 11, 12].contains tag && convertible (BitVec.ofNat 4 tag) (ctlTag s u))

/-- One lane combined from two by OPSEL 0 to 2 in the operation's format. -/
def reduceLane (sel : Nat) (t : BitVec 4) (sat : Bool) (rm : BitVec 3) (a b : Nat) : Nat :=
  let w := laneBits t
  if isInt t then
    let x := sInt w a
    let y := sInt w b
    let z := if sel == 0 then (if sat then (clampInt w (x + y)).1 else x + y) else if sel == 1 then max x y else min x y
    toBits w z
  else
    let x := (fmtOf t).value a
    let y := (fmtOf t).value b
    ((fmtOf t).round rm 0 (if sel == 0 then (addV rm x y).1 else (minmaxV (sel == 1) x y).1)).1

/-- A value rounded from the operation's format into OTAG (R480). -/
def outValue (t o : BitVec 4) (rm : BitVec 3) (v : Nat) : Nat := if o == 15 || o == 14 || t == 15 then v else (convertTag t o rm 0 v).1

/-- The heads of the joined ports, each in the operation's format, with the rest of each queue. -/
def takeJoined (s : State) (u : Nat) (o : BitVec 4) : List Nat → Except Stop (List (Nat × List Nat × List Token))
  | [] => .ok []
  | p :: l =>
    match takeOne o (inPort s u p), takeJoined s u o l with
    | .got vs rest, .ok ps => .ok ((p, vs, rest) :: ps)
    | .wait, _ => .error .hold
    | _, .error .hold => .error .hold
    | _, _ => .error (.trap 0x01 0)

/-- The lanes of several ports combined in the pairwise order (R113). -/
def combinePorts (f : Nat → Nat → Nat) (l : List (List Nat)) : List Nat :=
  pairTree (fun a b => List.zipWith f a b) 2 l

/-- REDUCE_FIRING; a scalar of a tag of 64-bit lanes gives its low 32 bits (DESIGN CHOICE, log 80). A unit that joins no port never fires,
and tokens of different lane counts are ILLEGAL (DESIGN CHOICE, log 94). -/
def execReduceFiring (u : Nat) (s : State) :=
  let ports := joinedPorts s u
  firing (.reduceFiring u) s u .reduce (!ports.isEmpty && ports.all fun p => !(inPort s u p).isEmpty) fun s =>
    if !reduceOk s u then .error (.trap 0x01 0) else
      let (pad, s) := fresh s
      let wide := ctlSel s u == 3
      let t : BitVec 4 := BitVec.ofNat 4 (bits (upar s u 4) 0 4)
      let heads := ports.filterMap fun p => (inPort s u p).head?
      let vec := heads.any fun k => k.vec
      if wide then
        if heads.any fun k => !k.vec || !convertible k.tag 15 then .error (.trap 0x01 0) else
          let lanes := combinePorts (fun a b => (a + b) % 2 ^ 64) (heads.map fun k => beatLanes k.data 64)
          .ok (ports.foldl (fun s p => setIn s u p ((inPort s u p).drop 1)) s,
            [(0, beatTok 15 (BitVec.ofNat 512 (packLanes 64 lanes)))])
      else match takeJoined s u t ports with
        | .error e => .error e
        | .ok ps =>
          let n := (ps.map fun p => p.2.1.length).headD 0
          if ps.any fun p => p.2.1.length != n then .error (.trap 0x01 0) else
            let o := ctlTag s u
            let lanes := (combinePorts (reduceLane (ctlSel s u) t ((upar s u 4).testBit 4) (ctlRm s u)) (ps.map fun p => p.2.1)).map
              (outValue t o (ctlRm s u))
            let w := if o == 15 || o == 14 then laneBits t else laneBits o
            let out := if vec then (packBeats w pad lanes).map (beatTok o) else lanes.map (scalarTok o)
            .ok (ps.foldl (fun s p => setIn s u p.1 p.2.2) s, out.map fun t => (0, t))

/-! ### QUANT and SWITCH (Table 9-5) -/

/-- QUANT_FIRING: the values of one MX pair, taken as FP32 beats; those of a token that gives more stay for the next firing, as
FP32 beats (R101 to R103). -/
def execQuantFiring (u : Nat) (s : State) :=
  let o := ctlTag s u
  let need := 32 * mxBlocks o
  let vals := takeMany 0 need 64 [] (inPort s u 0)
  firing (.quantFiring u) s u .quant (vals.ready && mxTag o) fun s =>
    match vals with
    | .got vs rest =>
      let split := if ctlSel s u == 1 then some (fp32.value (bits (upar s u 4) 0 32)) else none
      let p := packPair o split (ctlRm s u) ((vs.take need).map fp32.value)
      .ok (setIn s u 0 ((packBeats 32 0 (vs.drop need)).map (beatTok 0) ++ rest), [(0, beatTok o p.1), (0, beatTok o p.2)])
    | _ => .error (.trap 0x01 0)

/-- SWITCH_STEER: port 0's token, or its MX pair, to the output that port 1's scalar selects (R100, DESIGN CHOICE, log 76). -/
def execSwitchSteer (u : Nat) (s : State) :=
  firing (.switchSteer u) s u .switch (ctlSel s u == 0 && (headUnit (inPort s u 0)).isSome && !(inPort s u 1).isEmpty) fun s =>
    match headUnit (inPort s u 0), inPort s u 1 with
    | some (ts, p), k :: q =>
      if k.vec then .error (.trap 0x01 0)
      else .ok (setIn (setIn s u 0 p) u 1 q, ts.map fun t => (bits k.data.toNat 0 1, t))
    | _, _ => .error .hold

/-- The port that a merge firing serves: the first in turn from RRP that holds a token, or a whole MX pair (R100, R163, R165). -/
def mergePort (s : State) (u : Nat) : Option Nat :=
  ((List.range 4).map fun k => ((opUnit s u).rrp + k) % 4).find? fun p => (headUnit (inPort s u p)).isSome

/-- SWITCH_MERGE. -/
def execSwitchMerge (u : Nat) (s : State) :=
  firing (.switchMerge u) s u .switch (ctlSel s u == 1 && (mergePort s u).isSome) fun s =>
    match (mergePort s u).bind fun p => (headUnit (inPort s u p)).map fun x => (p, x) with
    | some (p, ts, l) => .ok (modUnit (setIn s u p l) u fun q => { q with rrp := (p + 1) % 4 }, ts.map fun t => (0, t))
    | none => .error .hold

/-- SWITCH_COPY. -/
def execSwitchCopy (u : Nat) (s : State) :=
  firing (.switchCopy u) s u .switch (ctlSel s u == 2 && !(inPort s u 0).isEmpty) fun s =>
    match inPort s u 0 with
    | t :: p => .ok (setIn s u 0 p, [(0, t), (1, t)])
    | [] => .error .hold

end Sys2Proof.Machine
end

