-- ==== Sys2Proof/Machine/Slots.lean ====
section
/-! DEFINITION. The stream-context table (R256 to R258) and SSLOT (R438 to R440). -/

namespace Sys2Proof.Machine

/-- Accesses of the hardware itself at physical addresses: no graph's commit group takes them. -/
def hardware : Ctx := { mtlb := noTlb, root := 0, user := false, gid := none, capture := false, counter := 32 }

/-- Bytes at a physical address, as memory holds them, and bytes written there. -/
def physRead (s : State) (pa n : Nat) : List Byte :=
  (splitLines pa (List.replicate n 0)).flatMap fun p =>
    ((lineBytes (peekLine s p.1 ⟨0, 0, false⟩)).drop ((p.2.head?.map Prod.fst).getD 0)).take p.2.length
/-- The packets of a read of bytes at a physical address, on the way to the homes of its lines and back (R11). -/
def physLoad (s : State) (pa n : Nat) : State :=
  (splitLines pa (physRead s pa n)).foldl (fun s p => sendRead s s.cur.val (homeDie p.1) (p.2.map Prod.snd)) s
def physWrite (s : State) (pa : Nat) (data : List Byte) : State :=
  performBytes s pa ⟨0, 0, false⟩ data 0 s.cur.val 32 false

/-! ### Records (Table 14-7) -/

/-- Physical address of a slot's record. -/
def slotAddr (s : State) (slot : Nat) : Nat := (die s).sctbase.toNat + 128 * slot
/-- The record of a slot as a number of 128 bytes. -/
def slotRec (s : State) (slot : Nat) : Nat := bytesNat (physRead s (slotAddr s slot) 128)

/-- The record of a slot is read (R11). -/
def askRecord (s : State) (slot : Nat) : State := physLoad s (slotAddr s slot) 128

def recState (v : Nat) : Nat := bits v 0 2
def recPinkb (v : Nat) : Nat := bits v 2 5
def recSilent (v : Nat) : Nat := bits v 512 80
def recSpill (v : Nat) : Nat := bits v 640 64
/-- A record with its STATE replaced. -/
def recWithState (v st : Nat) : Nat := v / 4 * 4 + st

/-- The record of a slot written. -/
def putRec (s : State) (slot v : Nat) : State := physWrite s (slotAddr s slot) (natBytes v 128)

/-- Reserved bits of an argument block (R438): STATE and PIN are ignored. -/
def slotReserved (v : Nat) : Bool :=
  bits v 7 1 != 0 || bits v 36 28 != 0 || bits v 464 48 != 0 || bits v 592 48 != 0 || bits v 704 320 != 0
/-- An argument block that SSLOT takes (R438). -/
def slotArgOk (v : Nat) : Bool := recPinkb v ≤ 16 && !slotReserved v

/-! ### The pinned pool (R256) -/

/-- A byte of the pool: granules of 1,024 bytes are numbered through the nodes of region 0, then of region 1, and so on. (DESIGN CHOICE, log 43) -/
def poolByte (s : State) (a : Nat) : Byte :=
  (nodeRead (region s (a / 2 ^ 22)) (a / 2 ^ 18 % 16) (poolStart + a % 2 ^ 18) 1).headD 0
def poolRead (s : State) (a n : Nat) : List Byte := (List.range n).map fun k => poolByte s (a + k)
def poolWrite (s : State) (a : Nat) (data : List Byte) : State :=
  data.zipIdx.foldl (fun s p =>
    let at_ := a + p.2
    modRegion s (at_ / 2 ^ 22) fun r => nodeWrite r (at_ / 2 ^ 18 % 16) (poolStart + at_ % 2 ^ 18) [p.1]) s

/-- The granules of a bound slot: the first, and how many. -/
def slotGranules (s : State) (slot : Nat) : Nat × Nat :=
  (((die s).granules.find? fun p => p.1 == slot).map fun p => p.2).getD (0, 0)

/-- The lowest-numbered run of `n` free granules (R439). -/
def freeRun (l : List (Nat × Nat × Nat)) (n : Nat) : Option Nat :=
  if n == 0 then some 0 else
    let fits := fun c => c + n ≤ 131072 && l.all fun p => c + n ≤ p.2.1 || p.2.1 + p.2.2 ≤ c
    ((0 :: l.map fun p => p.2.1 + p.2.2).filter fits).foldl
      (fun m c => some (match m with | none => c | some k => min k c)) none

/-- The first step of an eviction: STATE becomes 2 (R258). -/
def beginEvict (s : State) (slot : Nat) : State :=
  let s := modDie (askRecord s slot) fun d => { d with evicting := d.evicting.filter (fun p => p.1 != slot) ++
    [(slot, ((d.evicting.find? fun p => p.1 == slot).map Prod.snd).getD 0)] }
  putRec s slot (recWithState (slotRec s slot) 2)

/-- The other steps: the slot's bytes go to SPILL, its granules are freed, and STATE becomes 3 (R258). An eviction that the deadline makes
takes no turn at a node port (DESIGN CHOICE, log 103). -/
def finishEvict (s : State) (slot : Nat) : State :=
  let s := askRecord s slot
  let v := slotRec s slot
  let (first, n) := slotGranules s slot
  let s := physWrite s (recSpill v) (poolRead s (1024 * first) (1024 * n))
  let s := modDie s fun d =>
    { d with granules := d.granules.filter (fun p => p.1 != slot), evicting := d.evicting.filter fun p => p.1 != slot }
  putRec s slot (recWithState v 3)

/-- THE EVICTION of a bound slot, all its steps at once (R258, R439). -/
def evictSlot (s : State) (slot : Nat) : State := finishEvict (beginEvict s slot) slot

/-- The pinned state of a slot as a copy endpoint of KIND 2 reaches it: its granules, or its image (R256, R258). -/
inductive Pinned where
  | granules (first : Nat)
  | image (pa : Nat)
  deriving DecidableEq, Repr

/-- Where `n` bytes of a slot's state stand; PROT where the slot has none, or not that many. While the slot is evicting its
bytes are the image's, once that is written (R258). -/
def pinnedAt (s : State) (slot off n : Nat) : Except Stop Pinned :=
  let v := slotRec s slot
  if !poolOn s || recState v == 0 || 1024 * recPinkb v < off + n then .error (.trap 0x21 0)
  else if recState v == 1 then .ok (.granules (slotGranules s slot).1)
  else if recState v == 2 then .error .hold
  else .ok (.image (recSpill v))

def pinnedRead (s : State) (slot off n : Nat) : Except Stop (List Byte × State) :=
  match pinnedAt s slot off n with
  | .error c => .error c
  | .ok (.granules first) => .ok (poolRead s (1024 * first + off) n, askRecord s slot)
  | .ok (.image pa) => .ok (physRead s (pa + off) n, physLoad (askRecord s slot) (pa + off) n)
def pinnedWrite (s : State) (slot off : Nat) (data : List Byte) : Except Stop State :=
  match pinnedAt s slot off data.length with
  | .error c => .error c
  | .ok (.granules first) => .ok (poolWrite (askRecord s slot) (1024 * first + off) data)
  | .ok (.image pa) => .ok (physWrite (askRecord s slot) (pa + off) data)

/-! ### SSLOT (R438, R439) -/

/-- The checks that every action makes on its slot number. -/
def slotNumber (s : State) (a : Reg) (closed : Bool) : Except Stop Nat :=
  let n := (xval s a).toNat
  if 16384 ≤ n || !poolOn s || (closed && groupOpen s) then .error (.trap 0x01 0) else .ok n

/-- The argument block at B. -/
def slotArg (s : State) (b : Reg) : Except Stop (Nat × State) :=
  let va := (xval s b).toNat
  if va % 128 != 0 then .error (.trap 0x23 (BitVec.ofNat 64 va)) else
    match coreRead s va 64 0 15 0 with
    | .error e => .error e
    | .ok (lo, s) =>
      match coreRead s (va + 64) 64 0 15 0 with
      | .error e => .error e
      | .ok (hi, s) =>
        let v := bytesNat (lo ++ hi)
        if slotArgOk v then .ok (v, s) else .error (.trap 0x01 0)

/-- The physical SPILL of a free slot's bind: 16 KiB under one leaf, with write permission (R439). -/
def spillOf (s : State) (va : Nat) : Except Stop (Nat × State) :=
  if va % 64 != 0 then .error (.trap 0x23 (BitVec.ofNat 64 va)) else
    let c := coreCtx s (myCore s)
    if 2 ^ 57 ≤ va then .error (.trap 0x21 (BitVec.ofNat 64 va)) else
      match findLeaf s c.mtlb c.root (leafOk .write c.user va) va with
      | (_, .error f) => .error (stopOf .write va 64 15 0 f)
      | (s, .ok t) =>
        if va % 2 ^ t.size + 16384 ≤ 2 ^ t.size then .ok ((leafXlat t.size t.pte va).pa, s)
        else .error (.trap 0x21 (BitVec.ofNat 64 va))

/-- The lines of a slot's record count among those that the core has written (R287). -/
def noteRecord (s : State) (slot : Nat) : State :=
  noteWritten (noteWritten s (myCore s) (slotAddr s slot)) (myCore s) (slotAddr s slot + 64)

/-- The nodes of a run of granules. -/
def granuleNodes (first n : Nat) : List (Nat × Nat) :=
  ((List.range n).map fun k => ((first + k) / 4096, (first + k) / 256 % 16)).eraseDups

/-- The core that moves the bytes of a run of granules takes a port of each of their nodes in the cycle in which it moves them, or waits
for its turn at those (R16, DESIGN CHOICE, log 103). -/
def mayMove (s : State) (first n : Nat) (write : Bool) : Bool := (granuleNodes first n).all fun q => mayTakeNode s q.1 q.2 write false
def takeMove (s : State) (first n : Nat) (write : Bool) : State := (granuleNodes first n).foldl (fun s q => takeNode s q.1 q.2 write false) s
def awaitMove (s : State) (first n : Nat) (write : Bool) : State := (granuleNodes first n).foldl (fun s q => awaitNode s q.1 q.2 write false) s

/-- A slot bound: granules taken, the image of an evicted slot copied back, and the record written with STATE 1 (R257,
R439). -/
def bindSlot (s : State) (slot arg spill first : Nat) (old : Option Nat) : State :=
  let n := recPinkb arg
  let s := modDie s fun d => { d with granules := d.granules ++ [(slot, first, n)] }
  let s := match old with
    | none => s
    | some k =>
      let kept := 1024 * min k n
      poolWrite (physLoad s spill kept) (1024 * first) (physRead s spill kept ++ List.replicate (1024 * n - kept) 0)
  let head := recWithState (bits arg 0 64) 1
  noteRecord (putRec s slot (head + 2 ^ 64 * first + 2 ^ 128 * bits arg 128 512 + 2 ^ 640 * spill)) slot

/-- SSLOT, bind; the bind of an evicted slot waits for the ports of its granules. -/
def execSslotBind (h : Hdr) (d a b : Reg) (s : State) :=
  coreWord (.sslotBind h d a b) s fun s0 =>
    let s := s0
    match slotNumber s a true with
    | .error e => .error e
    | .ok slot =>
      match slotArg s b with
      | .error e => .error e
      | .ok (arg, s) =>
        let v := slotRec s slot
        let s := askRecord s slot
        let run := freeRun (die s).granules (recPinkb arg)
        if recState v == 0 then
          match spillOf s (recSpill arg) with
          | .error e => .error e
          | .ok (spill, s) =>
            match run with
            | none => .ok (retX s d 1)
            | some first => .ok (retX (bindSlot s slot arg spill first none) d 0)
        else if recState v == 3 then
          match run with
          | none => .ok (retX s d 1)
          | some first =>
            let n := recPinkb arg
            if mayMove s first n true then
              .ok (retX (bindSlot (takeMove s first n true) slot arg (recSpill v) first (some (recPinkb v))) d 0)
            else .ok (awaitMove s0 first n true)
        else .ok (retX s d 1)

/-- The fields that a refresh writes: first byte of the record and length. -/
def refreshFields : List (Nat × Nat) := [(1, 3), (24, 8), (40, 8), (48, 10), (64, 10)]

/-- The fields of a slot's record written from an argument block. -/
def writeRefresh (s : State) (slot arg : Nat) : State :=
  refreshFields.foldl (fun s f =>
    writeBytes s (coreCtx s (myCore s)) ⟨slotAddr s slot + f.1, 0, 0, false⟩ (natBytes (bits arg (8 * f.1) (8 * f.2)) f.2) 0) s

/-- A refresh that the open commit group takes: the release decides whether it fails (R319, R439), and words that read D wait for
that (R89). One that overflows its group has failed with it (R320, DESIGN CHOICE, log 73). -/
def captureRefresh (s : State) (slot arg : Nat) (d : Reg) : State :=
  match ownerOf s (myRegion s) with
  | none => s
  | some gr =>
    let c := myCore s
    let n := gr.group.refreshes.length
    let t := writeRefresh s slot arg
    if (graph? t gr.gid).all fun g => g.group.state != 1 then setX t c d.toNat 1 else
    let s := modGraph t gr.gid fun g => { g with group := { g.group with refreshes := g.group.refreshes ++ [⟨slot, c, d⟩] } }
    if d == 0 then s else modCore s c fun k => { k with awaits := (k.awaits.filter fun p => p.1 != d.toNat) ++ [(d.toNat, n)] }

/-- SSLOT, refresh. Where the commit group is open its D is written at the release. (DESIGN CHOICE, log 73) -/
def execSslotRefresh (h : Hdr) (d a b : Reg) (s : State) :=
  coreWord (.sslotRefresh h d a b) s fun s =>
    match slotNumber s a false with
    | .error e => .error e
    | .ok slot =>
      match slotArg s b with
      | .error e => .error e
      | .ok (arg, s) =>
        if groupOpen s then .ok (advance (captureRefresh s slot arg d)) else
          let s := askRecord s slot
          if recState (slotRec s slot) != 1 then .ok (retX s d 1)
          else .ok (retX (noteRecord (writeRefresh s slot arg) slot) d 0)

/-- SSLOT, evict, which waits for the ports of its granules. -/
def execSslotEvict (h : Hdr) (d a : Reg) (s : State) :=
  coreWord (.sslotEvict h d a) s fun s =>
    match slotNumber s a true with
    | .error e => .error e
    | .ok slot =>
      if recState (slotRec s slot) != 1 then .ok (retX (askRecord s slot) d 1)
      else
        let (first, n) := slotGranules s slot
        if mayMove s first n false then .ok (retX (noteRecord (evictSlot (takeMove s first n false) slot) slot) d 0)
        else .ok (awaitMove s first n false)

/-! ### The silence deadline (R258) -/

/-- The PHC as an 80-bit time: seconds and nanoseconds. -/
def phc80 (s : State) : Nat := phcSeconds s * 2 ^ 32 + phcNanos s % 10 ^ 9

/-- The deadline of a bound slot has passed. -/
def slotSilent (s : State) (slot : Nat) : Bool :=
  let v := slotRec s slot
  poolOn s && decide (slot < 16384) && recState v == 1 && decide (recSilent v ≤ phc80 s)

/-- A slot is evicting. -/
def slotEvicting (s : State) (slot : Nat) : Bool := (die s).evicting.any (fun p => p.1 == slot) && recState (slotRec s slot) == 2

/-- SILENCE_EVICTION: the eviction of a slot past its deadline begins, or one that has begun takes its other steps. -/
def execSilenceEviction (slot : Nat) (s : State) :=
  machineEvent s (slotSilent s slot || slotEvicting s slot) fun s =>
    if slotEvicting s slot then finishEvict s slot else beginEvict s slot

/-- The evictions of a die at the end of a cycle: those that cannot wait longer than 4,096 cycles are made (R258). -/
def lateEvictions (s : State) : State :=
  let due := ((die s).granules.map Prod.fst).filter fun n => slotSilent s n || slotEvicting s n
  let s := modDie s fun d =>
    { d with evicting := due.map fun n => (n, ((d.evicting.find? fun p => p.1 == n).map fun p => p.2 + 1).getD 0) }
  ((die s).evicting.filter fun p => 4095 ≤ p.2).foldl (fun s p => evictSlot s p.1) s

/-! ### The release of a commit group, with its refreshes -/

/-- A record's byte that a refresh writes. -/
def refreshByte (o : Nat) : Bool := refreshFields.any fun f => f.1 ≤ o && o < f.1 + f.2

/-- Captured bytes of refreshes whose slots are no longer bound: those refreshes fail when they are applied (R439). -/
def dropRefreshes (s : State) (gid : Nat) : State :=
  let base := (die s).sctbase.toNat
  if !poolOn s then s else
    modGraph s gid fun g =>
      let stale := fun (pa : Nat) => decide (base ≤ pa) && refreshByte ((pa - base) % 128) &&
        (g.group.refreshes.any fun q => q.slot == (pa - base) / 128) && recState (slotRec s ((pa - base) / 128)) != 1
      { g with group := { g.group with bytes := g.group.bytes.filter fun p => !stale p.1 } }

/-- The statuses of the refreshes of a group, as they are applied: the record of each slot is read (R11, R439). -/
def settleRefreshes (s : State) (gid : Nat) : State :=
  match graph? s gid with
  | none => s
  | some g => answerRefreshes ((g.group.refreshes.map fun q => q.slot).eraseDups.foldl askRecord s) g.group fun q => if recState (slotRec s q.slot) == 1 then 0 else 1

/-- A group in STATE 2 performs (R321). -/
def releaseCommit (s : State) (gid : Nat) : State :=
  if (graph? s gid).any fun g => g.group.state == 2 then commitGroup (dropRefreshes (settleRefreshes s gid) gid) gid else s

end Sys2Proof.Machine
end

