-- ==== Sys2Proof/Machine/Copy.lean ====
section
/-! DEFINITION. Copies: descriptors (Tables 14-5, R251), what an endpoint reads and writes (R251, R253, R421), conversion
(R252), and the performing of a command of a stream port in groups of elements (R254, R267, R421). -/

namespace Sys2Proof.Machine

/-! ### Descriptors (Table 14-5) -/

def dBase (v : Nat) : Nat := bits v 0 64
def dEsz (v : Nat) : Nat := bits v 64 4
def dTag (v : Nat) : BitVec 4 := BitVec.ofNat 4 (bits v 68 4)
def dKind (v : Nat) : Nat := bits v 72 2
def dHint (v : Nat) : Nat := bits v 77 3
/-- Extent, stride, tensor extent and origin of dimension `d`. -/
def dN (v d : Nat) : Nat := bits v (80 + 16 * d) 16
def dS (v d : Nat) : Int := sInt 32 (bits v (144 + 32 * d) 32)
def dVL (v d : Nat) : Nat := bits v (272 + 16 * d) 16
def dO (v d : Nat) : Int := sInt 16 (bits v (336 + 16 * d) 16)
def dSoff (v : Nat) : Int := sInt 32 (bits v 400 32)
def dXoff (v : Nat) : Int := sInt 32 (bits v 432 32)
def dKappa (v : Nat) : Nat := bits v 464 32
def dSplit (v : Nat) : Bool := v.testBit 496

/-- Elements of a descriptor. -/
def dCount (v : Nat) : Nat := dN v 0 * dN v 1 * dN v 2 * dN v 3
/-- Values of a descriptor: a block of an MX tag holds 32. -/
def dValues (v : Nat) : Nat := if mxTag (dTag v) then 32 * dCount v else dCount v
/-- Bytes of the elements of an MX block. -/
def mxElemBytes (t : BitVec 4) : Nat := if t == 7 then 16 else 32
/-- Bytes that an element or a block moves, for the count that SSTAT reports. -/
def dBytes (v : Nat) : Nat := if mxTag (dTag v) then mxElemBytes (dTag v) + 1 + 16 else 2 ^ dEsz v

/-- Coordinate of element `n` in dimension `d` (R251). -/
def dCoord (v n d : Nat) : Int :=
  let below := ((List.range d).map (dN v)).foldl (· * ·) 1
  dO v d + ((n / below % dN v d : Nat) : Int)
/-- Element `n` is in range. -/
def dInRange (v n : Nat) : Bool := (List.range 4).all fun d => decide (0 ≤ dCoord v n d) && decide (dCoord v n d < dVL v d)
/-- Address of element `n`, modulo 2^64. -/
def dAddr (v n : Nat) : Nat :=
  (((dBase v : Int) + ((List.range 4).map fun d => dCoord v n d * dS v d).foldl (· + ·) 0) % 2 ^ 64).toNat
/-- Number of the block of element `n` in its tensor. -/
def dBlock (v n : Nat) : Int :=
  dCoord v n 0 + dVL v 0 * (dCoord v n 1 + dVL v 1 * (dCoord v n 2 + dVL v 2 * dCoord v n 3))

/-- One end of a command. -/
structure Endpoint where
  kind : Nat
  tag : BitVec 4
  /-- Bytes of an element that is no block. -/
  size : Nat
  hint : Nat
  base : Nat
  soff : Int
  xoff : Int
  split : Option FVal
  /-- Address of element `n` in memory, none out of range, and its block number. -/
  addr : Nat → Option Nat
  block : Nat → Int

/-- The end that a descriptor gives. -/
def endOf (v : Nat) : Endpoint :=
  { kind := dKind v, tag := dTag v, size := 2 ^ dEsz v, hint := dHint v, base := dBase v, soff := dSoff v, xoff := dXoff v,
    split := if dSplit v then some (fp32.value (dKappa v)) else none,
    addr := fun n => if dInRange v n then some (dAddr v n) else none, block := dBlock v }

/-- The end of an SCOPY: bytes from an address on (R422). -/
def bytesEnd (a : Nat) : Endpoint :=
  { kind := 0, tag := 15, size := 1, hint := 0, base := a, soff := 0, xoff := 0, split := none,
    addr := fun n => some ((a + n) % 2 ^ 64), block := fun _ => 0 }

/-- Source and destination of a command, and its values. -/
def cmdSrc (k : Command) : Endpoint := if k.scopy then bytesEnd (bits k.src.toNat 0 64) else endOf k.src.toNat
def cmdDst (k : Command) : Endpoint := if k.scopy then bytesEnd (bits k.dst.toNat 0 64) else endOf k.dst.toNat
def cmdValues (k : Command) : Nat := if k.scopy then bits k.src.toNat 64 64 else dValues k.dst.toNat
/-- The command produces an operand stream (R420). -/
def isProducer (k : Command) : Bool := !k.scopy && dKind k.src.toNat == 3
/-- Bytes counted when `n` values have completed (R253); a producer's are those its destination descriptor names. -/
def cmdBytes (k : Command) (n : Nat) : Nat :=
  let v := if isProducer k then k.dst.toNat else k.src.toNat
  if k.scopy then n else if mxTag (dTag v) then n / 32 * dBytes v else n * dBytes v

/-- The accesses of a port's command: in the address space of the core that enqueued it (R417). -/
def portAccess (s : State) (g : Nat) (k : Command) : OpAccess :=
  { ctx := { mtlb := g, root := k.asroot, user := !k.mgr, gid := if k.mgr then none else (region s g).owner, capture := k.grouped,
             counter := g }
    sup := k.supplied }

/-! ### Buffers as ends of a copy (R421): the indices of column 0 count, and every column follows them -/

/-- Elements or blocks to a tile of a buffer. -/
def perTile (b : Buffer) (e : Endpoint) : Nat := if mxTag e.tag then b.bytes / 128 * mxBlocks e.tag else b.bytes / e.size
/-- The buffer that an end names. -/
def endBuf (s : State) (g : Nat) (e : Endpoint) : Option Buffer := bufAt (region s g) (bits e.base 0 6)
/-- Offset in a pair of the elements, the scale and the side record of block `b` (R101). -/
def pairParts (t : BitVec 4) (b : Nat) : List (Nat × Nat) :=
  let q := 128 * (b / mxBlocks t)
  let b := b % mxBlocks t
  [(q + mxElemBytes t * b, mxElemBytes t), (q + 64 + b, 1), (q + 68 + 12 * b, 12)]

/-- A tile is put: its place full with a watermark, every put index past it. -/
def fillPlace (r : Region) (n : Nat) (wm : BitVec 16) : Region :=
  modBuf r n fun b =>
    let p := vget 0 b.putIx 0
    { b with putIx := Vector.replicate 16 (nextIx b p), full := b.full.set none p (some wm), fed := b.fed.set none p none }
/-- A tile is got: its place empty, every get index past it. -/
def emptyPlace (r : Region) (n : Nat) : Region :=
  modBuf r n fun b =>
    let p := vget 0 b.getIx 0
    { b with getIx := Vector.replicate 16 (nextIx b p), full := b.full.set none p none, fed := b.fed.set none p none, opened := false }

/-! ### Reading -/

/-- A read of a port. -/
def portRead (s : State) (a : OpAccess) (va size hint : Nat) (tag : BitVec 4) : Except Stop (List Byte × State) :=
  match a.sup.find? fun p => p.1 == va && p.2.length == size with
  | some p => .ok (p.2, s)
  | none => vread s a.ctx va size hint tag.toNat 0

/-- Reads of the parts of a piece, each an address and a size, as one number for each. -/
def readParts (s : State) (a : OpAccess) (hint : Nat) (tag : BitVec 4) : List (Nat × Nat) → Except Stop (List Nat × State)
  | [] => .ok ([], s)
  | (va, n) :: l =>
    match portRead s a va n hint tag with
    | .error e => .error e
    | .ok (bs, s) =>
      match readParts s a hint tag l with
      | .error e => .error e
      | .ok (vs, s) => .ok (bytesNat bs :: vs, s)

/-- An address an offset away, modulo 2^64. -/
def offsetVa (base : Nat) (d : Int) : Nat := (((base : Int) + d) % 2 ^ 64).toNat
/-- Addresses and sizes of the parts of a block in memory (R251); a side record takes 16 bytes (R99). -/
def blockParts (e : Endpoint) (n va : Nat) : List (Nat × Nat) :=
  [(va, mxElemBytes e.tag), (offsetVa e.base (e.soff + e.block n), 1), (offsetVa e.base (e.xoff + 16 * e.block n), 16)]

/-- A piece of its parts. -/
def pieceOf (tag : BitVec 4) (vs : List Nat) : Piece :=
  if mxTag tag then .block (nth 0 vs 0, nth 0 vs 1, bits (nth 0 vs 2) 0 96) else .plain (nth 0 vs 0)
/-- What reads out of range: zero, or zero elements with scale 127 and no record (R253). -/
def emptyPiece (tag : BitVec 4) : Piece := if mxTag tag then .block (0, 127, 0) else .plain 0

/-- Byte of a slot's state where a part of element `n` lies, and its size (R251). -/
def slotParts (e : Endpoint) (n : Nat) : List (Int × Nat) :=
  let b := bits e.base 16 14
  if mxTag e.tag then
    [((b + mxElemBytes e.tag * n : Nat), mxElemBytes e.tag), ((b + n : Nat) + e.soff, 1), ((b + 16 * n : Nat) + e.xoff, 16)]
  else [((b + n * e.size : Nat), e.size)]

/-- The parts of a slot's element, read. -/
def readSlot (s : State) (slot : Nat) : List (Int × Nat) → Except Stop (List Nat × State)
  | [] => .ok ([], s)
  | (o, n) :: l =>
    if o < 0 then .error (.trap 0x21 0) else
      match pinnedRead s slot o.toNat n with
      | .error e => .error e
      | .ok (bs, s) =>
        match readSlot s slot l with
        | .error e => .error e
        | .ok (vs, s) => .ok (bytesNat bs :: vs, s)

/-- The piece of element `n` in a buffer, for a command whose next element is `first`: the places from column 0's get index
on hold the tiles to come; the first element of a tile checks its watermark (R57). -/
def readBuffer (s : State) (g : Nat) (e : Endpoint) (first n : Nat) : Except Stop Piece :=
  match endBuf s g e with
  | none => .error (.trap 0x01 0)
  | some b =>
    let t := n / perTile b e - first / perTile b e
    let place := (vget 0 b.getIx 0 + t) % b.depth
    match b.full.get none place with
    | none => .error .hold
    | some wm =>
      if n % perTile b e == 0 && !(t == 0 && b.opened) && wm != b.expect + BitVec.ofNat 16 t then .error (.trap 0x11 0) else
        let j := n % perTile b e
        let parts := if mxTag e.tag then pairParts e.tag j else [(j * e.size, e.size)]
        .ok (pieceOf e.tag (parts.map fun p => bytesNat (nodeRead (region s g) b.node (placeOff b place + p.1) p.2)))

/-- The piece of element `n` of a source. -/
def readPiece (s : State) (g : Nat) (a : OpAccess) (e : Endpoint) (first n : Nat) : Except Stop (Piece × State) :=
  if e.kind == 1 then (match readBuffer s g e first n with
    | .error f => .error f
    | .ok p => .ok (p, s))
  else if e.kind == 2 then (match readSlot s (bits e.base 0 14) (slotParts e n) with
    | .error f => .error f
    | .ok (vs, s) => .ok (pieceOf e.tag vs, s))
  else match e.addr n with
    | none => .ok (emptyPiece e.tag, s)
    | some va =>
      match readParts s a e.hint e.tag (if mxTag e.tag then blockParts e n va else [(va, e.size)]) with
      | .error f => .error f
      | .ok (vs, s) => .ok (pieceOf e.tag vs, s)

/-- Pieces read in order, as far as nothing stops them, and what stops them. -/
def readPieces (s : State) (g : Nat) (a : OpAccess) (e : Endpoint) (first : Nat) : Nat → Nat →
    List Piece × State × Option Stop
  | 0, _ => ([], s, none)
  | k + 1, n =>
    match readPiece s g a e first n with
    | .error f => ([], s, some f)
    | .ok (p, s) =>
      let (ps, s, f) := readPieces s g a e first k (n + 1)
      (p :: ps, s, f)

/-- The source after elements `n` to `n + k − 1`: tiles opened raise the expected watermark, and tiles finished leave; the beats of a
tile that a stream delivered count as acknowledged when the copy has taken it, as at a BUFGET (DESIGN CHOICE, log 89). -/
def passSource (s : State) (g : Nat) (e : Endpoint) : Nat → Nat → State
  | 0, _ => s
  | k + 1, n =>
    let s := match e.kind == 1, endBuf s g e with
      | true, some b =>
        let ix := bits e.base 0 6
        let s := if n % perTile b e == 0 && !b.opened then
          modRegion s g fun r => modBuf r ix fun b => { b with expect := b.expect + 1, opened := true } else s
        if (n + 1) % perTile b e == 0 then ackTile (modRegion s g fun r => emptyPlace r ix) b (vget 0 b.getIx 0) else s
      | _, _ => s
    passSource s g e k (n + 1)

/-! ### Conversion (R252) -/

/-- One value from a source element to a destination element (Table 4-5, R106); equal tags copy bits. -/
def copyValue (t o : BitVec 4) (size v : Nat) : Nat :=
  if t == o || t == 15 || o == 15 || t == 14 || o == 14 then bits v 0 (8 * size) else (convertTag t o 0 0 v).1

/-- The values of a piece. -/
def pieceVals (t : BitVec 4) : Piece → List FVal
  | .plain v => [valueOf t v]
  | .block m => (List.range 32).map (mxValue t m.1 m.2.1 m.2.2)

/-- Pieces converted from one end to the other. A block made from RAW elements is a free value. -/
def convertPieces (s : State) (a b : Endpoint) (ps : List Piece) : List Piece × State :=
  if mxTag b.tag then
    if a.tag == b.tag then (ps, s)
    else if a.tag == 15 then
      let (v, s) := fresh s
      ([.block (bits v.toNat 0 256, bits v.toNat 256 8, bits v.toNat 264 96)], s)
    else
      let x := ps.flatMap (pieceVals a.tag)
      let m := match b.split with
        | some k => mxQuantSplit x b.tag k 0 []
        | none => mxQuantStd x b.tag 0 []
      ([.block (m.elems, m.scale, m.side)], s)
  else if mxTag a.tag then
    (ps.flatMap fun p => (pieceVals a.tag p).map fun v => .plain (roundTag b.tag 0 0 v).1, s)
  else (ps.map fun p => match p with
    | .plain v => .plain (copyValue a.tag b.tag b.size v)
    | .block m => .block m, s)

/-! ### Writing -/

/-- A piece as parts of an endpoint: sizes match `blockParts` and `slotParts`. -/
def pieceBytes (sizes : List Nat) : Piece → List (List Byte)
  | .plain v => [natBytes v (nth 1 sizes 0)]
  | .block m => [natBytes m.1 (nth 0 sizes 0), natBytes m.2.1 1, natBytes m.2.2 (nth 0 sizes 2)]

/-- The cells that pieces from element `n` on write in memory: address and bytes. -/
def memoryCells (e : Endpoint) : Nat → List Piece → List (Nat × List Byte)
  | _, [] => []
  | n, p :: l =>
    (match e.addr n with
     | none => []
     | some va =>
       let parts := if mxTag e.tag then blockParts e n va else [(va, e.size)]
       (parts.map Prod.fst).zip (pieceBytes (parts.map Prod.snd) p)) ++ memoryCells e (n + 1) l

/-- Cells cut into runs of one line each, in order. -/
def lineRuns : List (Nat × List Byte) → List (List (Nat × List Byte))
  | [] => []
  | c :: l =>
    match lineRuns l with
    | (d :: r) :: rs => if c.1 / 64 == d.1 / 64 then (c :: d :: r) :: rs else [c] :: (d :: r) :: rs
    | rs => [c] :: rs

/-- The data of a run fault in a coded region (R260, R268, R422). -/
def codedRun (x : Xlat) (whole : Bool) (run : List (Nat × List Byte)) : Option Code :=
  if x.codec == 0 then none
  else if !whole then some 0x23
  else if nonFinite (run.flatMap fun c => c.2.zipIdx.map fun b => (c.1 % 64 + b.2, b.1)) then some 0x31
  else none

/-- The elements of a run, of one line, at the head of it that name bytes that exist (R324). -/
def reachableRun (x : Xlat) (run : List (Nat × List Byte)) : Nat :=
  (run.takeWhile fun c => reachable (64 * (x.pa / 64) + c.1 % 64) c.2.length).length

/-- Runs translated as writes, with every check. -/
def planRuns (s : State) (a : OpAccess) (tag : BitVec 4) (whole : Bool) : List (List (Nat × List Byte)) →
    Except Stop (List (Xlat × List (Nat × List Byte)) × State)
  | [] => .ok ([], s)
  | run :: l =>
    let (va, bs) := run.headD (0, [])
    if run.any fun c => c.1 % c.2.length != 0 then .error (.trap 0x23 0) else
      match vwriteAddr s a.ctx va bs.length tag.toNat with
      | .error e => .error e
      | .ok (x, s) =>
        match if reachableRun x run < run.length then some 0x21 else codedRun x whole run with
        | some c => .error (.trap c 0)
        | none =>
          match planRuns s a tag whole l with
          | .error e => .error e
          | .ok (xs, s) => .ok ((x, run) :: xs, s)

/-- The cells of a run that follow one another as one piece of bytes, if they do. -/
def joinRun : List (Nat × List Byte) → Option (List Byte)
  | [] => some []
  | c :: l =>
    match joinRun l with
    | none => none
    | some bs => if (l.headD (c.1 + c.2.length, [])).1 == c.1 + c.2.length then some (c.2 ++ bs) else none

/-- A run performs: one operation at its line's home where it performs now (R267). -/
def writeRun (s : State) (a : OpAccess) (hint : Nat) (x : Xlat) (run : List (Nat × List Byte)) : State :=
  let line := x.pa / 64 * 64
  let held := (ctxGroup s a.ctx).any fun g => a.ctx.capture && (g.state == 1 || g.state == 3)
  match joinRun run with
  | some bs => writeBytes s a.ctx { x with pa := line + (run.headD (0, [])).1 % 64 } bs hint
  | none =>
    if place x.pa == .hbm && !held then
      let cells := run.flatMap fun c => c.2.zipIdx.map fun b => (c.1 % 64 + b.2, b.1)
      let s := performLine s (x.pa / 64) x.attr cells hint s.cur.val a.ctx.counter false
      run.foldl (fun s c => refreshCaptured s a.ctx.gid (line + c.1 % 64) c.2) s
    else run.foldl (fun s c => writeBytes s a.ctx { x with pa := line + c.1 % 64 } c.2 hint) s

/-- Pieces written to a slot. -/
def writeSlot (s : State) (slot : Nat) : List (Int × List Byte) → Except Stop State
  | [] => .ok s
  | (o, bs) :: l =>
    if o < 0 then .error (.trap 0x21 0) else
      match pinnedWrite s slot o.toNat bs with
      | .error e => .error e
      | .ok s => writeSlot s slot l

/-- One piece written to the tile being put in a buffer; the last of a tile completes it with watermark WM + t (R421). -/
def writeBuffer (s : State) (g : Nat) (e : Endpoint) (n : Nat) (p : Piece) : Except Stop State :=
  match endBuf s g e with
  | none => .error (.trap 0x01 0)
  | some b =>
    let place := vget 0 b.putIx 0
    if isFull b place then .error .hold else
      let j := n % perTile b e
      let parts := if mxTag e.tag then pairParts e.tag j else [(j * e.size, e.size)]
      let s := modRegion s g fun r => ((parts.map Prod.fst).zip (pieceBytes (parts.map Prod.snd) p)).foldl
        (fun r c => nodeWrite r b.node (placeOff b place + c.1) c.2) r
      let wm := BitVec.ofNat 16 (bits e.base 16 16 + n / perTile b e)
      .ok (if (n + 1) % perTile b e == 0 then modRegion s g fun r => fillPlace r (bits e.base 0 6) wm else s)

/-- Pieces written to a buffer. -/
def writeBuffers (s : State) (g : Nat) (e : Endpoint) : Nat → List Piece → Except Stop State
  | _, [] => .ok s
  | n, p :: l =>
    match writeBuffer s g e n p with
    | .error f => .error f
    | .ok s => writeBuffers s g e (n + 1) l

/-- The part of a run of plain elements that may be written in a coded region: whole 8-byte values before the first that is a
NaN or an infinity; or the fault that leaves none (R260, R268, R422). -/
def codedPart (whole : Bool) (run : List (Nat × List Byte)) : Except Stop Nat :=
  if !whole then .error (.trap 0x23 0) else
    let each := 8 / ((run.headD (0, [])).2.length)
    let good := fun (i : Nat) => (codedRun ⟨0, 1, 0, false⟩ true ((run.drop (each * i)).take each)).isNone
    let n := ((List.range (run.length / each)).takeWhile good).length
    if n == 0 && each ≤ run.length then .error (.trap 0x31 0) else .ok (each * n)

/-- Plain elements of one line written to memory: how many, after the checks of the line, and the state. -/
def writeMemory (s : State) (k : Command) (a : OpAccess) (e : Endpoint) (n : Nat) (ps : List Piece) : Except Stop (State × Nat) :=
  let whole := if k.scopy then bits k.dst.toNat 0 64 % 8 == 0 && cmdValues k % 8 == 0 else e.size == 8
  match memoryCells e n ps with
  | [] => .ok (s, ps.length)
  | c :: l =>
    if (c :: l).any fun c => c.1 % c.2.length != 0 then .error (.trap 0x23 0) else
      match vwriteAddr s a.ctx c.1 c.2.length e.tag.toNat with
      | .error f => .error f
      | .ok (x, s) =>
        match if x.codec == 0 then .ok ps.length else codedPart whole (c :: l) with
        | .error f => .error f
        | .ok m =>
          let cells := reachableRun x (c :: l)
          let m := if cells == l.length + 1 then m
            else min m ((List.range ps.length).takeWhile fun k => decide ((memoryCells e n (ps.take (k + 1))).length ≤ cells)).length
          .ok (if k.void || m == 0 then s else writeRun s a e.hint x ((c :: l).take (min m cells)), m)

/-- Plain elements from element `n` on, of one group, written to a destination: how many. -/
def writePlain (s : State) (g : Nat) (k : Command) (a : OpAccess) (e : Endpoint) (n : Nat) (ps : List Piece) :
    Except Stop (State × Nat) :=
  if e.kind == 0 then writeMemory s k a e n ps else
    let r := if e.kind == 1 then writeBuffers s g e n ps else
      writeSlot s (bits e.base 0 14) (ps.zipIdx.flatMap fun p =>
        ((slotParts e (n + p.2)).map Prod.fst).zip (pieceBytes ((slotParts e (n + p.2)).map Prod.snd) p.1))
    match r with
    | .error f => .error f
    | .ok s => .ok (s, ps.length)

/-- Block `n` written to a destination of an MX tag. -/
def writeBlock (s : State) (g : Nat) (k : Command) (a : OpAccess) (e : Endpoint) (n : Nat) (ps : List Piece) : Except Stop State :=
  if e.kind == 1 then writeBuffers s g e n ps
  else if e.kind == 2 then
    writeSlot s (bits e.base 0 14) (ps.zipIdx.flatMap fun p =>
      ((slotParts e (n + p.2)).map Prod.fst).zip (pieceBytes ((slotParts e (n + p.2)).map Prod.snd) p.1))
  else
    match planRuns s a e.tag false (lineRuns (memoryCells e n ps)) with
    | .error f => .error f
    | .ok (xs, s) => .ok (if k.void then s else xs.foldl (fun s p => writeRun s a e.hint p.1 p.2) s)

/-! ### One group of elements -/

/-- What the elements of one group of a destination have in common: a line of memory, or 64 bytes of a tile or of a slot. -/
def groupKey (e : Endpoint) (n : Nat) : Option Nat :=
  if e.kind == 0 then (e.addr n).map fun va => va / 64
  else if e.kind == 1 then some (n * e.size / 64)
  else some ((bits e.base 16 14 + n * e.size) / 64)
/-- What the elements that one read of a source gives have in common: 64 bytes of a buffer or of a slot (R16). -/
def sourceKey (e : Endpoint) (n : Nat) : Nat :=
  if e.kind == 1 then n * e.size / 64 else if e.kind == 2 then (bits e.base 16 14 + n * e.size) / 64 else 0

/-- Elements of the group of at most `most` that starts at element `n`: of one group of the destination, where it has no blocks,
and, from element `m` of the source on, of one read of it. (DESIGN CHOICE, log 10) -/
def groupLen (a b : Endpoint) (most m n : Nat) : Nat :=
  ((List.range 64).takeWhile fun i => decide (i < most) && (mxTag b.tag || groupKey b (n + i) == groupKey b n) &&
    sourceKey a (m + i) == sourceKey a m).length

/-- Elements that go into a block: they are read tile by tile, and the block is written once it has 32 (R421). -/
def gatherBlock (s : State) (g : Nat) (k : Command) (a : OpAccess) (src dst : Endpoint) : Except Stop (State × Command) :=
  let have_ := k.gather.length
  if have_ == 32 then
    let (qs, s) := convertPieces s src dst k.gather
    match writeBlock s g k a dst (k.done / 32) qs with
    | .error f => .error f
    | .ok s => .ok (s, { k with done := k.done + 32, gather := [] })
  else
    let m := k.done + have_
    match readPieces s g a src m (groupLen src dst (32 - have_) m m) m with
    | ([], _, some f) => .error f
    | (ps, s, _) => .ok (passSource s g src ps.length m, { k with gather := k.gather ++ ps })

/-- Elements of a block that has been read, written group by group. -/
def spillBlock (s : State) (g : Nat) (k : Command) (a : OpAccess) (src dst : Endpoint) : Except Stop (State × Command) :=
  let n := groupLen { src with kind := 0 } dst k.spill.length k.done k.done
  match writePlain s g k a dst k.done (k.spill.take n) with
  | .error f => .error f
  | .ok (s, m) => .ok (s, { k with done := k.done + m, spill := k.spill.drop m })

/-- A block read from the source: written as it is, or, where the destination has plain elements, taken apart. -/
def moveBlock (s : State) (g : Nat) (k : Command) (a : OpAccess) (src dst : Endpoint) : Except Stop (State × Command) :=
  let n := k.done / 32
  match readPiece s g a src n n with
  | .error f => .error f
  | .ok (p, s) =>
    let (qs, s) := convertPieces s src dst [p]
    if !mxTag dst.tag then .ok (passSource s g src 1 n, { k with spill := qs }) else
      match writeBlock s g k a dst n qs with
      | .error f => .error f
      | .ok s => .ok (passSource s g src 1 n, { k with done := k.done + 32 })

/-- Plain elements of one group moved: those before one that faults or does not come. -/
def movePlain (s : State) (g : Nat) (k : Command) (a : OpAccess) (src dst : Endpoint) : Except Stop (State × Command) :=
  let n := groupLen src dst (cmdValues k - k.done) k.done k.done
  match readPieces s g a src k.done n k.done with
  | ([], _, some f) => .error f
  | (ps, s, stop) =>
    let (qs, s) := convertPieces s src dst ps
    match writePlain s g k a dst k.done qs, stop with
    | .error f, _ => .error f
    | .ok (_, 0), some f => .error f
    | .ok (s, m), _ => .ok (passSource s g src m k.done, { k with done := k.done + m })

/-- The next group of a command: the state with it done, and the command as it then stands. Elements before one that faults are
written (R254, R268). -/
def copyGroup (s : State) (g : Nat) (k : Command) : Except Stop (State × Command) :=
  let a := portAccess s g k
  let src := cmdSrc k
  let dst := cmdDst k
  if !k.spill.isEmpty then spillBlock s g k a src dst
  else if mxTag src.tag then moveBlock s g k a src dst
  else if mxTag dst.tag then gatherBlock s g k a src dst
  else movePlain s g k a src dst

/-- The 64 bytes of the nodes in which element or block `n` of an end lies: region, node and line; none in memory (R16, R256). -/
def endLines (s : State) (g : Nat) (e : Endpoint) (n : Nat) : List (Nat × Nat × Nat) :=
  if e.kind == 1 then
    (match endBuf s g e with
     | none => []
     | some b =>
       let j := n % perTile b e
       (if mxTag e.tag then pairParts e.tag j else [(j * e.size, e.size)]).map fun p => (g, b.node, (n / perTile b e * b.bytes + p.1) / 64))
  else if e.kind == 2 then
    (slotParts e n).filterMap fun p =>
      match pinnedAt s (bits e.base 0 14) p.1.toNat 1 with
      | .ok (.granules first) =>
        let byte := 1024 * first + p.1.toNat
        some (byte / 2 ^ 22, byte / 2 ^ 18 % 16, byte / 64)
      | _ => none
  else []

/-- The node ports that the next group of a command needs, each with the number of its accesses of 64 bytes (R16). -/
def groupPorts (s : State) (g : Nat) (k : Command) : List ((Nat × Nat × Bool) × Nat) :=
  let src := cmdSrc k
  let dst := cmdDst k
  let lines := fun (e : Endpoint) (n count : Nat) => ((List.range count).flatMap fun i => endLines s g e (n + i)).eraseDups
  let have_ := k.gather.length
  let (rd, wr) :=
    if !k.spill.isEmpty then ([], lines dst k.done (groupLen { src with kind := 0 } dst k.spill.length k.done k.done))
    else if mxTag src.tag then (lines src (k.done / 32) 1, if mxTag dst.tag then lines dst (k.done / 32) 1 else [])
    else if mxTag dst.tag then
      if have_ == 32 then ([], lines dst (k.done / 32) 1)
      else (lines src (k.done + have_) (groupLen src dst (32 - have_) (k.done + have_) (k.done + have_)), [])
    else
      let n := groupLen src dst (cmdValues k - k.done) k.done k.done
      (lines src k.done n, lines dst k.done n)
  let ports := fun (write : Bool) (l : List (Nat × Nat × Nat)) =>
    (l.map fun q => (q.1, q.2.1)).eraseDups.map fun q => ((q.1, q.2, write), (l.filter fun x => x.1 == q.1 && x.2.1 == q.2).length)
  ports false rd ++ ports true wr

/-- The next group of a command moves in the last of the cycles that its accesses of 64 bytes take at the node ports, one in each
that the schedule leaves free; where it could move and they are not free, it waits for its turn at them (R16, R421). -/
def tryGroup (s : State) (g : Nat) (k : Command) : Except Stop (State × Command) :=
  let all := groupPorts s g k
  let ports := (all.filter fun p => decide (k.cycles < p.2)).map Prod.fst
  match copyGroup s g k with
  | .error f => .error f
  | .ok (t, k') =>
    let take := fun (s : State) => ports.foldl (fun s p => takeNode s p.1 p.2.1 p.2.2 true) s
    if !ports.all fun p => mayTakeNode s p.1 p.2.1 p.2.2 true then
      .ok (ports.foldl (fun s p => awaitNode s p.1 p.2.1 p.2.2 true) s, k)
    else if all.any fun p => decide (k.cycles + 1 < p.2) then .ok (take s, { k with cycles := k.cycles + 1 })
    else .ok (take t, { k' with supplied := [], cycles := 0 })

/-! ### The end of a command -/

/-- The tiles that stand in the buffers of a port are no subscriber's any more. -/
def forgetTiles (s : State) (g p : Nat) : State :=
  modRegion s g fun r => { r with bufs := r.bufs.map fun b => if b.sport == some p then { b with fed := [] } else b }

/-- A stream goes back to idle and its subscriptions end (R420, R423). -/
def endStream (s : State) (n : Nat) : State :=
  let s := (stream s n).subs.foldl (fun s u =>
    if (port s u.g u.port).sub.any fun b => b.1 == n then
      modPort (forgetTiles s u.g u.port) u.g u.port fun p => { p with sub := none } else s) s
  modStream s n fun _ => Stream.idle

/-- A stamp is written to its physical address; it never faults (R254). -/
def writeStamp (s : State) (g : Nat) (k : Command) (v : Nat) : State :=
  match k.stamp with
  | none => s
  | some x => if k.void then s else writeBytes s (portAccess s g k).ctx x (natBytes v 8) 0

/-- Command `k`, no longer in the queue, counts as finished: the counter, its stamp, and what SSTAT reports (R254, R423,
R426). -/
def noteFinished (s : State) (g p : Nat) (k : Command) (code : Code) (cancelled : Bool) : State :=
  let s := modPort s g p fun q =>
    { q with seq := q.seq + 1, bytes := cmdBytes k k.done % 2 ^ 40, code := code, cancelled := cancelled }
  let v := (port s g p).seq.toNat
  let s := writeStamp s g k (if code == 0 && !cancelled then v else v ||| 2 ^ 63)
  if isProducer k then endStream s (bits k.src.toNat 0 8) else s

/-- The retry entries of a port are withdrawn. -/
def withdrawPort (s : State) (g p : Nat) : State := withdrawRetry s fun r => r.who == .port g p

/-- The head of a port's queue finishes. -/
def finishHead (s : State) (g p : Nat) (code : Code) : State :=
  match (port s g p).queue with
  | [] => s
  | k :: l => noteFinished (modPort s g p fun q => { q with queue := l }) g p k code false

/-- The head of a port's queue changed. -/
def modHead (s : State) (g p : Nat) (f : Command → Command) : State := modPort s g p fun q => { q with queue := modNth q.queue 0 f }

/-- The head waits on the retry ring (R281). -/
def portPage (s : State) (g p : Nat) (k : Command) (acc : Acc) (lvl va size ty : Nat) : State :=
  match postRetry s ⟨.port g p, 2, acc.num, lvl, va, size, ty, 0, g, 0, 0, p, k.asroot, false⟩ with
  | some (slot, s) => modHead s g p fun k => { k with retry := some slot }
  | none => s

/-- What became of the head's next group. -/
def headOutcome (s : State) (g p : Nat) (r : Except Stop (State × Command)) : State :=
  match r with
  | .ok (s, k) =>
    let s := modHead s g p fun _ => k
    if k.done == cmdValues k then finishHead s g p 0 else s
  | .error (.trap c _) => finishHead s g p c
  | .error (.page acc lvl va size ty _) => (port s g p).queue.head?.elim s fun k => portPage s g p k acc lvl va size ty
  | .error _ => s

end Sys2Proof.Machine
end

