-- ==== Sys2Proof/Machine/Streams.lean ====
section
/-! DEFINITION. The stream words (R416 to R426), the commands of a stream port as they are performed, and operand streams
(R157 to R159, R420). -/

namespace Sys2Proof.Machine

/-- The region whose port a word names: the executing region, or STRM in the manager (R416). -/
def portOwner (s : State) (strm : BitVec 8) : Nat := if (kindOf s).isMgr then bits strm.toNat 0 5 else myRegion s

/-! ### SBIND -/

/-- SBIND (R418). -/
def execSbind (h : Hdr) (a b port_ : BitVec 6) (strm : BitVec 8) (s : State) :=
  coreWord (.sbind h a b port_ strm) s fun s =>
    match coreRead s (xval s a).toNat 64 0 15 0 with
    | .error e => .error e
    | .ok (x, s) =>
      match coreRead s (xval s b).toNat 64 0 15 0 with
      | .error e => .error e
      | .ok (y, s) =>
        .ok (advance (modPort s (portOwner s strm) port_.toNat fun p => { p with bound := some (bytesLine x, bytesLine y) }))

/-! ### SQ and SCOPY -/

/-- ESZ agrees with TAG (R252). -/
def eszOk (t : BitVec 4) (n : Nat) : Bool :=
  match t.toNat with
  | 12 => n == 3
  | 0 | 11 => n == 2
  | 1 | 2 | 10 => n == 1
  | 14 => n ≤ 2
  | 15 => n ≤ 3
  | _ => n == 0

/-- The fields of one descriptor are in range (R251, R252): for an end that is no memory, no stride, no origin and whole
extents; for a buffer, whole tiles of a buffer that the region declares. -/
def endOk (s : State) (g v : Nat) : Bool :=
  bits v 497 15 == 0 && bits v 74 3 == 0 && ((List.range 4).all fun d => dN v d != 0) && dHint v ≤ 3 && eszOk (dTag v) (dEsz v) &&
    (dKind v == 0 || (List.range 4).all fun d => dS v d == 0 && dO v d == 0 && dVL v d == dN v d) &&
    (dKind v != 1 || (endBuf s g (endOf v)).any fun b => perTile b (endOf v) != 0 && dCount v % perTile b (endOf v) == 0)

/-- The checks of SQ on its bound pair (R252, R420). -/
def pairOk (s : State) (g a b : Nat) : Bool :=
  endOk s g a && endOk s g b && dValues a == dValues b && dKind b != 3 && (dKind a != 3 || dKind b == 0) &&
    convertible (dTag a) (dTag b)

/-- A stamp address translated at enqueue: ALIGN, the faults of a write, PROT in a coded region (R254, R417). -/
def stampOf (s : State) (va : Nat) : Except Stop (Option Xlat × State) :=
  if va == 0 then .ok (none, s) else
    match vwriteAddr s (coreCtx s (myCore s)) va 8 15 with
    | .error e => .error e
    | .ok (x, s) => if x.codec != 0 then .error (.trap 0x21 (BitVec.ofNat 64 va)) else .ok (some x, s)

/-- A command put at the end of its port's queue; a full queue holds the core (R250). (DESIGN CHOICE, log 38) -/
def enqueue (s : State) (g p va : Nat) (src dst : Line) (scopy : Bool) : Except Stop State :=
  match stampOf s va with
  | .error e => .error e
  | .ok (stamp, s) =>
    if 16 ≤ (port s g p).queue.length then .error .hold else
      let k : Command :=
        { src := src, dst := dst, scopy := scopy, stamp := stamp, asroot := myRoot s, mgr := (kindOf s).isMgr,
          grouped := groupStanding s, void := false, started := false, done := 0, gather := [],
          spill := [], retry := none, supplied := [], cycles := 0 }
      .ok (advance (modPort s g p fun q => { q with queue := q.queue ++ [k] }))

/-- SQ (R419, R420). -/
def execSq (h : Hdr) (a port_ : BitVec 6) (strm : BitVec 8) (s : State) :=
  coreWord (.sq h a port_ strm) s fun s =>
    let g := portOwner s strm
    let p := port_.toNat
    match (port s g p).bound with
    | none => .error (.trap 0x01 0)
    | some (src, dst) =>
      let n := bits src.toNat 0 8
      let produces := dKind src.toNat == 3
      if !pairOk s g src.toNat dst.toNat || (port s g p).sub.isSome || (produces && (stream s n).producer.isSome) then
        .error (.trap 0x01 0)
      else match enqueue s g p (xval s a).toNat src dst false with
        | .error e => .error e
        | .ok s => .ok (if produces then modStream s n fun q => { q with producer := some (g, p) } else s)

/-- SCOPY (R422). -/
def execScopy (h : Hdr) (d a b c port_ : BitVec 6) (strm : BitVec 8) (s : State) :=
  coreWord (.scopy h d a b c port_ strm) s fun s =>
    let g := portOwner s strm
    let len := (xval s b).toNat
    if len == 0 || 2 ^ 32 < len || (port s g port_.toNat).sub.isSome then .error (.trap 0x01 0) else
      enqueue s g port_.toNat (xval s c).toNat (BitVec.ofNat 512 ((xval s a).toNat + 2 ^ 64 * len)) ((xval s d).setWidth 512) true

/-! ### SCANCEL (R423) -/

/-- A subscription ends: from now on the subscriber counts as having acknowledged every beat (R159). -/
def unsubscribe (s : State) (g p : Nat) : State :=
  match (port s g p).sub with
  | none => s
  | some (n, ix) =>
    modStream (modPort (forgetTiles s g p) g p fun q => { q with sub := none }) n fun q =>
      { q with subs := modNth q.subs ix fun u => { u with live := false } }

/-- Every command of a port is cancelled, the head first. -/
def cancelPort (s : State) (g p : Nat) : State :=
  let l := (port s g p).queue
  let s := modPort (withdrawPort s g p) g p fun q => { q with queue := [] }
  unsubscribe (l.foldl (fun s k => noteFinished s g p k 0 true) s) g p

/-- SCANCEL. -/
def execScancel (h : Hdr) (d port_ : BitVec 6) (strm : BitVec 8) (s : State) :=
  coreWord (.scancel h d port_ strm) s fun s =>
    let g := portOwner s strm
    .ok (retX (cancelPort s g port_.toNat) d (BitVec.ofNat 64 (port s g port_.toNat).queue.length))

/-! ### SSUB and SDIST (R424, R425) -/

/-- SSUB. -/
def execSsub (h : Hdr) (d a port_ : BitVec 6) (strm : BitVec 8) (s : State) :=
  coreWord (.ssub h d a port_ strm) s fun s =>
    let g := if (kindOf s).isMgr then bits (xval s a).toNat 0 5 else myRegion s
    let p := port_.toNat
    let n := strm.toNat
    let q := port s g p
    let fed := (region s g).bufs.any fun b => b.sport == some p
    if !fed || !q.queue.isEmpty || q.sub.isSome || (stream s n).started || 16 ≤ (stream s n).subs.length then
      .error (.trap 0x01 0)
    else
      let ix := (stream s n).subs.length
      let u : Subscriber := { g := g, port := p, window := 0, sent := 0, acked := 0, live := true }
      let s := modStream (modPort s g p fun q => { q with sub := some (n, ix) }) n fun q => { q with subs := q.subs ++ [u] }
      .ok (retX s d (BitVec.ofNat 64 ix))

/-- The queued command that produces a stream. -/
def producerOf (s : State) (n : Nat) : Option Command :=
  (stream s n).producer.bind fun gp => (port s gp.1 gp.2).queue.find? fun k => isProducer k && bits k.src.toNat 0 8 == n

/-- Beats of a producer: its elements packed into beats, or two beats to an MX pair (R420, R101). -/
def producerBeats (k : Command) : Nat :=
  let v := k.dst.toNat
  if mxTag (dTag v) then 2 * ((dCount v + mxBlocks (dTag v) - 1) / mxBlocks (dTag v)) else (dCount v * 2 ^ dEsz v + 63) / 64

/-- The window table gives every joined subscriber 1 to 1,024 beats and no other entry a value. -/
def windowsOk (table : Nat) (joined : Nat) : Bool :=
  (List.range 16).all fun i =>
    let w := bits table (32 * i) 32
    if i < joined then 1 ≤ w && w ≤ 1024 else w == 0

/-- SDIST. -/
def execSdist (h : Hdr) (a : BitVec 6) (strm : BitVec 8) (s : State) :=
  coreWord (.sdist h a strm) s fun s =>
    let n := strm.toNat
    match coreRead s (xval s a).toNat 64 0 15 0 with
    | .error e => .error e
    | .ok (bs, s) =>
      let q := stream s n
      let t := bytesNat bs
      match producerOf s n with
      | none => .error (.trap 0x01 0)
      | some k =>
        if q.subs.isEmpty || q.started || !windowsOk t q.subs.length then .error (.trap 0x01 0)
        else if !(kindOf s).isMgr && (q.producer.map fun gp => gp.1) != some (myRegion s) then .error (.trap 0x21 0)
        else
          let subs := q.subs.zipIdx.map fun u => { u.1 with window := bits t (32 * u.2) 32 }
          .ok (advance (modStream s n fun q => { q with subs := subs, started := true, total := producerBeats k }))

/-! ### SSTAT (R426) -/

/-- The status word (Table 23-3). -/
def portStatus (p : Port) : Nat :=
  p.queue.length + (if p.bound.isSome then 32 else 0) + (if p.queue.isEmpty then 0 else 64) + (if p.sub.isSome then 128 else 0) +
    (if p.cancelled then 256 else 0) + 2 ^ 16 * p.code.toNat + 2 ^ 24 * p.bytes

/-- SSTAT. -/
def execSstat (h : Hdr) (d a port_ : BitVec 6) (strm : BitVec 8) (s : State) :=
  coreWord (.sstat h d a port_ strm) s fun s =>
    let q := port s (portOwner s strm) port_.toNat
    .ok (advance (setX (setX s (myCore s) d.toNat (BitVec.ofNat 64 (portStatus q))) (myCore s) a.toNat q.seq))

/-! ### The distributor (R158) -/

/-- A pair of beats of an MX producer, or one beat, from beat `n` on: the pieces of its elements packed; what lies past the
last element reads as zero. -/
def packProducer (e : Endpoint) (ps : List Piece) : List Line :=
  if mxTag e.tag then
    let side := ps.zipIdx.flatMap fun p => (pairParts e.tag p.2).zip (pieceBytes [mxElemBytes e.tag, 1, 12] p.1)
    let full := side.foldl (fun (l : List Byte) c => c.2.zipIdx.foldl (fun l b => l.set (c.1.1 + b.2) b.1) l) (List.replicate 128 0)
    [bytesLine (full.take 64), bytesLine (full.drop 64)]
  else [bytesLine (ps.flatMap fun p => match p with
    | .plain v => natBytes v e.size
    | .block _ => [])]

/-- Beats read from memory, from beat `n` on (R158, R420). -/
def readBeat (s : State) (g : Nat) (k : Command) (n : Nat) : Except Stop (List Line × State) :=
  let e := endOf k.dst.toNat
  let each := if mxTag e.tag then mxBlocks e.tag else 64 / e.size
  let first := if mxTag e.tag then n / 2 * each else n * each
  match readPieces s g (portAccess s g k) e first (min each (dCount k.dst.toNat - first)) first with
  | (_, _, some f) => .error f
  | (ps, s, none) => .ok (packProducer e ps, s)

/-- Beats that every live subscriber has acknowledged leave the replay store (R158). -/
def trimReplay (q : Stream) : Stream :=
  let low := (q.subs.filter fun u => u.live).foldl (fun m u => min m u.acked) q.read
  { q with replay := q.replay.filter fun p => decide (low ≤ p.1) }

/-- The beat of a stream that a subscriber receives next stands in the replay store. -/
def replayHas (q : Stream) (n : Nat) : Bool := (q.replay.get none n).isSome

/-- A beat into the buffer that a subscribed port feeds; a completed tile carries the watermark that its turn in the buffer
calls for. (DESIGN CHOICE, log 44) -/
def deliverBeat (s : State) (st sub : Nat) (u : Subscriber) (l : Line) : State :=
  match (region s u.g).bufs.zipIdx.find? fun b => b.1.sport == some u.port with
  | none => s
  | some (b, ix) =>
    let place := vget 0 b.putIx 0
    let off := 64 * (u.sent % (b.bytes / 64))
    let s := modRegion (takeNode s u.g b.node true true) u.g fun r => nodeWrite r b.node (placeOff b place + off) (lineBytes l)
    if off + 64 == b.bytes then
      let wm := b.expect + BitVec.ofNat 16 b.full.length - if b.opened then 1 else 0
      modRegion s u.g fun r => modBuf (fillPlace r ix wm) ix fun b => { b with fed := b.fed.set none place (some (st, sub)) }
    else s

/-- The buffer that a subscriber's port feeds has an empty place to put. -/
def subscriberRoom (s : State) (u : Subscriber) : Bool :=
  (region s u.g).bufs.any fun b => b.sport == some u.port && !isFull b (vget 0 b.putIx 0)
/-- The node of the buffer that a subscriber's port feeds. -/
def subscriberNode (s : State) (u : Subscriber) : Nat :=
  (((region s u.g).bufs.find? fun b => b.sport == some u.port).map fun b => b.node).getD 0

/-- A beat is put in the replay store. -/
def storeBeats (s : State) (n : Nat) (ls : List Line) : State :=
  modStream s n fun q =>
    { q with replay := ls.zipIdx.foldl (fun t p => Table.set none (q.read + p.2) (some p.1) t) q.replay, read := q.read + ls.length }

/-- The next beat of a stream goes to subscriber `sub`. -/
def sendBeat (s : State) (st sub : Nat) : State :=
  match (stream s st).subs[sub]? with
  | none => s
  | some u =>
    match (stream s st).replay.get none u.sent with
    | none => s
    | some l =>
      let s := deliverBeat s st sub u l
      modStream s st fun q => trimReplay { q with subs := modNth q.subs sub fun u => { u with sent := u.sent + 1 } }

/-- Beats that one read of a stream's producer gives: an MX pair is read as one unit (R100). -/
def readUnit (s : State) (st : Nat) : Nat := if (producerOf s st).any fun k => mxTag (dTag k.dst.toNat) then 2 else 1

/-- Subscriber `sub` may receive a beat: the replay runs, its window is open, the beat exists, and its buffer has room. -/
def mayReceive (s : State) (st sub : Nat) : Bool :=
  let q := stream s st
  q.started && (q.producer.any fun gp => (port s gp.1 gp.2).queue.head?.any fun k => k.started && k.retry.isNone) &&
    match q.subs[sub]? with
    | none => false
    | some u => u.live && decide (u.sent < q.total) && decide (u.sent < u.acked + u.window) && subscriberRoom s u &&
        (replayHas q u.sent || decide ((trimReplay q).replay.length + readUnit s st ≤ 1024))

/-- Values of a producer that its first `beats` beats hold (R253). -/
def beatValues (k : Command) (beats : Nat) : Nat :=
  let v := k.dst.toNat
  if mxTag (dTag v) then 32 * min (beats / 2 * mxBlocks (dTag v)) (dCount v) else min (beats * 64 / 2 ^ dEsz v) (dCount v)

/-- The head of a port after a read of its stream: what it has transferred so far counts. -/
def noteRead (s : State) (st g p beats : Nat) : State :=
  modHead s g p fun k => { k with done := beatValues k ((stream s st).read + beats), supplied := [] }

/-- The next beat of a stream is read by its producer, the head of a port, into the replay store; or the fault ends the producer. -/
def produceBeat (s : State) (st g p : Nat) : State :=
  match (port s g p).queue.head? with
  | none => s
  | some k =>
    match readBeat s g k (stream s st).read with
    | .ok (ls, s) => storeBeats (noteRead s st g p ls.length) st ls
    | .error (.trap c _) => finishHead s g p c
    | .error (.page acc lvl va size ty _) => portPage s g p k acc lvl va size ty
    | .error _ => s

/-- DISTRIBUTOR_SEND_BEAT: a beat that no subscriber has received yet is read from memory first. It waits for a cycle in which
the schedule leaves the node free (R16). -/
def execDistributorSendBeat (st sub : Nat) (s : State) :=
  event (.distributorSendBeat st sub) s (mayReceive s st sub) fun s =>
    let s := modStream s st trimReplay
    match (stream s st).subs[sub]?, (stream s st).producer with
    | some u, some (g, p) =>
      if !mayTakeNode s u.g (subscriberNode s u) true true then awaitNode s u.g (subscriberNode s u) true true else
      let s := if replayHas (stream s st) u.sent then s else produceBeat s st g p
      if replayHas (stream s st) u.sent then sendBeat s st sub else s
    | _, _ => s

/-! ### The commands of a port -/

/-- STREAM_PRODUCER_START: the producer is the head of its port and an SDIST has retired (R420). -/
def execStreamProducerStart (g p : Nat) (s : State) :=
  let ready := (port s g p).queue.head?.any fun k => isProducer k && !k.started && (stream s (bits k.src.toNat 0 8)).started
  event (.streamProducerStart g p) s ready fun s => modHead s g p fun k => { k with started := true }

/-- Every subscriber of a stream has acknowledged every beat. -/
def allAcked (q : Stream) : Bool := q.subs.all fun u => !u.live || decide (q.total ≤ u.acked)

/-- The head of a port has work: a copy its next group, a producer its end. -/
def headReady (s : State) (g p : Nat) : Bool :=
  (port s g p).queue.head?.any fun k => k.retry.isNone &&
    (!isProducer k || (k.started && allAcked (stream s (bits k.src.toNat 0 8))))

/-- STREAM_COMMAND_FINISH: the head's next group of elements moves, and the command finishes with its last (R254, R421). -/
def execStreamCommandFinish (g p : Nat) (s : State) :=
  event (.streamCommandFinish g p) s (headReady s g p) fun s =>
    match (port s g p).queue.head? with
    | none => s
    | some k => if isProducer k then finishHead s g p 0 else headOutcome s g p (tryGroup s g k)

end Sys2Proof.Machine
end

