-- ==== Sys2Proof/Machine/LoadImage.lean ====
section
/-! DEFINITION. The load image (R385 to R390): reading its records, and the checks that reject it. -/

namespace Sys2Proof.Machine

/-! ### Records (Table 22-3) -/

/-- A record of an image: of the load, of an understudy, or its end. -/
inductive ImageRec where
  | load (r : LoadRec)
  | under (cfg : Nat) (mask : BitVec 32) (off : Nat)
  | done
  deriving DecidableEq, Repr

/-- Code lines of a row whose ring has `ii` slots. -/
def rowLines (ii : Nat) : Nat := (ii + 5) / 6
/-- Payload lines that a record of a kind takes. -/
def recLines (l : Nat) : Nat := if bits l 0 8 == 1 then 2 + 8 * rowLines (bits l 37 5 + 1) else 0

/-- The fields of a record's line but KIND and NLINES, by kind: first bit and width. -/
def recFields (kind : Nat) : List (Nat × Nat) :=
  match kind with
  | 1 => [(32, 11)]
  | 2 => [(32, 25), (64, 16), (80, 7)]
  | 3 => [(32, 10)]
  | 4 => [(32, 12), (64, 16)]
  | 5 => [(32, 6), (64, 17)]
  | 6 => [(32, 24)]
  | 7 => [(32, 21)]
  | 8 => [(32, 3), (64, 32), (128, 32)]
  | _ => []

/-- A record's line has a kind, its count of lines, and no reserved bit set. -/
def recHeadOk (l : Nat) : Bool :=
  bits l 0 8 ≤ 8 && onlyFields ([(0, 8), (16, 16)] ++ recFields (bits l 0 8)) l && bits l 16 16 == recLines l

/-- Lines of a payload as numbers. -/
def payLine (pay : List Line) (n : Nat) : Nat := (nth 0 pay n).toNat

/-- Stage, and word, of row `row` and slot `s` in the payload of a REGION record. -/
def payStage (pay : List Line) (row s : Nat) : Nat := bits (payLine pay 0 + 2 ^ 512 * payLine pay 1) (96 * row + 3 * s) 3
def payWord (pay : List Line) (ii row s : Nat) : Nat := bits (payLine pay (2 + rowLines ii * row + s / 6)) (80 * (s % 6)) 80

/-- The reserved parts of a REGION record's payload are zero, and its code lines keep R68. -/
def payOk (pay : List Line) (ii : Nat) : Bool :=
  bits (payLine pay 1) 256 256 == 0 &&
  (List.range 8).all fun row =>
    ((List.range 32).all fun s => s < ii || payStage pay row s == 0) &&
    ((List.range (6 * rowLines ii)).all fun s => s < ii || payWord pay ii row s == 0) &&
    (List.range (rowLines ii)).all fun j => bits (payLine pay (2 + rowLines ii * row + j)) 480 32 == 0

/-- A list over the rows and slots of a ring, rows first. -/
def overRing {α : Type} (ii : Nat) (f : Nat → Nat → α) : List α := (List.range 8).flatMap fun row => (List.range ii).map (f row)

/-- The record of a line and its payload; none where a reserved bit is set or a field is out of range. -/
def parseRec (l : Nat) (pay : List Line) : Option ImageRec :=
  match bits l 0 8 with
  | 0 => some .done
  | 1 =>
    let ii := bits l 37 5 + 1
    if payOk pay ii then
      some (.load (.region (bits l 32 5) ii (l.testBit 42) (overRing ii fun r s => BitVec.ofNat 3 (payStage pay r s))
        (overRing ii fun r s => BitVec.ofNat 80 (payWord pay ii r s))))
    else none
  | 2 =>
    let logb := bits l 53 4
    if 6 ≤ logb && logb ≤ 12 then
      some (.load (.buffer (bits l 32 5) (bits l 37 6) (bits l 43 4) (bits l 47 6 + 1) logb (BitVec.ofNat 16 (bits l 64 16))
        (if l.testBit 86 then some (bits l 80 6) else none)))
    else none
  | 3 => if bits l 32 10 < 768 then some (.load (.unit (bits l 32 10))) else none
  | 4 =>
    let conv_ := l.testBit 42
    if bits l 32 10 < (if conv_ then 64 else 768) then
      some (.load (.route (bits l 32 10) conv_ (bits l 43 1) (BitVec.ofNat 16 (bits l 64 16))))
    else none
  | 5 => if onlyFields [(0, 4), (8, 4), (16, 1)] (bits l 64 17) then
      some (.load (.conv (bits l 32 6) (BitVec.ofNat 17 (bits l 64 17)))) else none
  | 6 => some (.load (.chan (bits l 32 6) (bits l 38 5) (l.testBit 43) (bits l 44 3) (bits l 47 5) (l.testBit 52) (bits l 53 3)))
  | 7 => some (.load (.rmw (bits l 32 5) (bits l 37 8) (bits l 45 8)))
  | 8 =>
    let cfg := bits l 32 3
    if 1 ≤ cfg && cfg ≤ 4 && bits l 128 32 % 64 == 0 then some (.under cfg (BitVec.ofNat 32 (bits l 64 32)) (bits l 128 32))
    else none
  | _ => none

/-! ### Reading -/

/-- An image rejected at a record: ILLEGAL with its byte offset (R386). -/
def rejectAt (off : Nat) : Stop := .trap 0x01 (BitVec.ofNat 64 off)

/-- Records of an image from an offset on, each with its offset, to its END (R385). -/
def readRecords (s : State) (base : Nat) : Nat → Nat → Except Stop (List (Nat × ImageRec) × State)
  | 0, off => .error (rejectAt off)
  | n + 1, off =>
    match coreRead s (base + off) 64 0 15 0 with
    | .error e => .error e
    | .ok (bs, s) =>
      let l := bytesNat bs
      if !recHeadOk l then .error (rejectAt off) else
        match readLines s (coreAccess s) (base + off + 64) (recLines l) with
        | .error e => .error e
        | .ok (pay, s) =>
          match parseRec l ((chunks 64 pay.length pay).map bytesLine) with
          | none => .error (rejectAt off)
          | some .done => .ok ([], s)
          | some r =>
            match readRecords s base n (off + 64 * (1 + recLines l)) with
            | .error e => .error e
            | .ok (rs, s) => .ok ((off, r) :: rs, s)

/-- Records that the address space has room for. -/
def maxRecords : Nat := 2 ^ 51

/-- A nested image, and the images of a list of UNDER records. -/
def readUnders (s : State) (base : Nat) : List (Nat × Nat × BitVec 32 × Nat) →
    Except Stop (List (Nat × Nat × BitVec 32 × List (Nat × ImageRec)) × State)
  | [] => .ok ([], s)
  | (at_, cfg, mask, off) :: l =>
    match readRecords s base maxRecords off with
    | .error e => .error e
    | .ok (rs, s) =>
      match readUnders s base l with
      | .error e => .error e
      | .ok (us, s) => .ok ((at_, cfg, mask, rs) :: us, s)

/-- The load records of an image, each with its offset. -/
def loadRecs (l : List (Nat × ImageRec)) : List (Nat × LoadRec) :=
  l.filterMap fun p => match p.2 with
    | .load r => some (p.1, r)
    | _ => none
/-- The UNDER records of an image. -/
def underRecs (l : List (Nat × ImageRec)) : List (Nat × Nat × BitVec 32 × Nat) :=
  l.filterMap fun p => match p.2 with
    | .under cfg mask off => some (p.1, cfg, mask, off)
    | _ => none

/-! ### What a load names -/

/-- The region whose fabric state a record sets. -/
def recRegion : LoadRec → Option Nat
  | .region g _ _ _ _ => some g
  | .buffer g _ _ _ _ _ _ => some g
  | .rmw g _ _ => some g
  | _ => none
/-- Every region that a record names. -/
def recRegions : LoadRec → List Nat
  | .chan _ p _ _ c _ _ => [p, c]
  | r => (recRegion r).toList
/-- The unit, or the converter, that a record names. -/
def recUnit : LoadRec → Option Nat
  | .unit u => some u
  | .route u false _ _ => some u
  | _ => none
def recConv : LoadRec → Option Nat
  | .conv k _ => some k
  | .route k true _ _ => some k
  | _ => none
/-- The valid route word that a record gives. -/
def recRoute : LoadRec → Option Nat
  | .route _ _ _ v => if routeV v.toNat then some v.toNat else none
  | _ => none
/-- The unit, or the converter, to which a record leads a route. -/
def recDestUnit (r : LoadRec) : Option Nat := (recRoute r).bind fun v => if routeConv v then none else some (routeDest v)
def recDestConv (r : LoadRec) : Option Nat := (recRoute r).bind fun v => if routeConv v then some (routeDest v) else none
/-- The units of a load, each once. -/
def loadUnits (l : List LoadRec) : List Nat := (l.filterMap recUnit).dedup
def loadRegions (l : List LoadRec) : List Nat := (l.filterMap recRegion).dedup

/-! ### The checks of R390 -/

/-- The word of a ring, with its schedule position. -/
def recWord (ii : Nat) (words : List Word) (row s : Nat) : Word := nth 0 words (ii * row + s)
def recPos (ii : Nat) (stages : List (BitVec 3)) (row s : Nat) : Nat := (nth 0 stages (ii * row + s)).toNat * ii + s

/-- Length in cycles of the window that a word opens (R47, R381, R465, R467). -/
def windowOf (w : Word) : Option Nat :=
  match decode w with
  | .ok (.ldw _ _ _ _ _ win _ _ _) => some (4 * (win.toNat + 1))
  | .ok (.vldw _ _ _ _ _ win _ _ _) => some (4 * (win.toNat + 1))
  | .ok (.ld _ _ _ _ _ _ _ _) | .ok (.vld _ _ _ _ _ _ _ _) | .ok (.vldx _ _ _ _ _ _ _ _) => some 128
  | _ => none

/-- The windows of a word at slot `s` that are open in a cycle of phase `x`, in the steady state of a ring. -/
def openAt (ii s len x : Nat) : Nat := let age := (x + ii - s) % ii; if age < len then (len - 1 - age) / ii + 1 else 0

/-- An element of the ring could hold more than eight windows open at once (R47). -/
def windowsExceed (ii : Nat) (words : List Word) : Bool :=
  (List.range 8).any fun row =>
    let ws := (List.range ii).filterMap fun s => (windowOf (recWord ii words row s)).map fun n => (s, n)
    (List.range ii).any fun x => decide (8 < (ws.map fun p => openAt ii p.1 p.2 x).foldl (· + ·) 0)

/-- MMA or MMASP. -/
def isMmaWord (w : Word) : Bool :=
  match decode w with
  | .ok (.mma _ _ _ _ _ _ _) | .ok (.mmasp _ _ _ _ _ _ _) => true
  | _ => false

/-- An MMA or MMASP does not stand in the same slot of all rows with identical bits (R151). (DEDUCED, log 37) -/
def mmaUneven (ii : Nat) (words : List Word) : Bool :=
  (List.range ii).any fun s =>
    let col := (List.range 8).map fun row => recWord ii words row s
    col.any isMmaWord && col.any fun w => w != nth 0 col 0

/-- The slot that an RMWS word names. -/
def rmwsSlot (w : Word) : Option Nat :=
  match decode w with
  | .ok (.rmws _ _ _ _ _ _ _ slot) => some slot.toNat
  | _ => none

/-- Position that a load reserves for an RMW slot of a region (R243). -/
def slotPos (all : List LoadRec) (g slot : Nat) : Option Nat :=
  all.findSome? fun r => match r with
    | .rmw g' n pos => if g' == g && n == slot then some pos else none
    | _ => none

/-- The ring of a REGION record breaks R47, R151 or R243. A zero word with a stage is a NOP placed there, and one without is what
an unused slot holds, so that no ring breaks R33 (DEDUCED, log 30). -/
def ringBad (all : List LoadRec) (g ii : Nat) (stages : List (BitVec 3)) (words : List Word) : Bool :=
  windowsExceed ii words || mmaUneven ii words ||
  (List.range 8).any fun row => (List.range ii).any fun s =>
    match rmwsSlot (recWord ii words row s) with
    | some n => slotPos all g n != some (recPos ii stages row s)
    | none => false

/-- Bytes of a buffer record on a node. -/
def bufferOn (g j : Nat) : LoadRec → Option Nat
  | .buffer g' _ j' depth logb _ _ => if g' == g && j' == j then some (depth * 2 ^ logb) else none
  | _ => none
/-- A buffer record of a region. -/
def bufferOf (g : Nat) : LoadRec → Bool
  | .buffer g' _ _ _ _ _ _ => g' == g
  | _ => false

/-- The destination of a route record exists. -/
def recDestOk (v : Nat) : Bool :=
  if routeConv v then routeDest v < 64 && routeDest v % 2 == 1 && routePort v == 0
  else routeDest v < 768 && routePort v < unitInputs (unitKind (routeDest v))

/-- A record is rejected, given every record of the image and those before it (R390); the source of a route from a converter is an output
converter, of even number (06_notation.md, Table 6-7). Two records of a control line that
differ in PROW are two drivers of it, also where PSH makes both name one stagehand (R27, DESIGN CHOICE, log 91). -/
def recBad (all before : List LoadRec) : LoadRec → Bool
  | .region g ii _ stages words =>
    (before.any fun r => match r with
      | .region g' _ _ _ _ => g' == g
      | _ => false) || ringBad all g ii stages words
  | .buffer g index j depth logb _ _ =>
    index != (before.filter (bufferOf g)).length || 8 ≤ (before.filterMap (bufferOn g j)).length ||
      262144 < (before.filterMap (bufferOn g j)).foldl (· + ·) 0 + depth * 2 ^ logb
  | .unit _ => false
  | .route src conv_ out v =>
    (conv_ && src % 2 == 1) || !onlyFields [(0, 10), (12, 4)] v.toNat || (routeV v.toNat && !recDestOk v.toNat) ||
      before.any fun r => match r with
        | .route src' conv' out' v' => (src' == src && conv' == conv_ && out' == out) || sameDest v'.toNat v.toNat
        | _ => false
  | .conv _ _ => false
  | .chan ch p psh prow _ _ _ =>
    before.any fun r => match r with
      | .chan ch' p' psh' prow' _ _ _ => ch' == ch && (ch < 48 || !(p' == p && psh' == psh && prow' == prow))
      | _ => false
  | .rmw _ _ _ => false

/-- The offset of the first record that is rejected. -/
def firstBad (all : List LoadRec) : List LoadRec → List (Nat × LoadRec) → Option Nat
  | _, [] => none
  | before, (off, r) :: l => if recBad all before r then some off else firstBad all (before ++ [r]) l

/-- The offset of the first record of an image that R390 rejects. -/
def imageBad (l : List (Nat × LoadRec)) : Option Nat := firstBad (l.map Prod.snd) [] l

/-- A nested record names what R389 does not allow it. -/
def nestedBad (outer : List LoadRec) (mask : BitVec 32) (r : LoadRec) : Bool :=
  let unit := fun (u : Nat) => !(loadUnits outer).contains u
  let conv := fun (k : Nat) => !mask.getLsbD (k / 2)
  ((recRegions r).any fun g => !mask.getLsbD g) || (recUnit r).any unit || (recDestUnit r).any unit || (recConv r).any conv ||
    (recDestConv r).any conv

/-- The offset at which an UNDER record, or its nested image, is rejected (R389). -/
def underBad (outer : List LoadRec) (lowest : Nat) (seen : List Nat) (u : Nat × Nat × BitVec 32 × List (Nat × ImageRec)) : Option Nat :=
  let (at_, cfg, mask, rs) := u
  if seen.contains cfg || !mask.getLsbD lowest then some at_ else
    match rs.find? fun p => match p.2 with
      | .load _ => false
      | _ => true with
    | some p => some p.1
    | none =>
      match (loadRecs rs).find? fun p => nestedBad outer mask p.2 with
      | some p => some p.1
      | none => imageBad (loadRecs rs)

/-- The offset of the first UNDER record that is rejected. -/
def undersBad (outer : List LoadRec) (lowest : Nat) : List Nat → List (Nat × Nat × BitVec 32 × List (Nat × ImageRec)) → Option Nat
  | _, [] => none
  | seen, u :: l =>
    match underBad outer lowest seen u with
    | some off => some off
    | none => undersBad outer lowest (u.2.1 :: seen) l

/-! ### What belongs to others (R386) -/

/-- The records of the images of other graphs that are read and checked, and wait for their installation. -/
def pendingRecs (s : State) (gid : Nat) : List LoadRec :=
  (List.range 32).flatMap fun c => if (region s c).owner.all fun h => h == gid then [] else
    match (core s c).wait with
    | .load img => img.recs
    | _ => []

/-- A unit, or a converter, is named by the load of another graph, which is resident or has been checked for its installation. -/
def unitHeld (s : State) (gid u : Nat) : Bool :=
  ((opUnit s u).owner.any fun h => h != gid && (graph? s h).any fun g => g.load.isSome) ||
    (pendingRecs s gid).any fun r => recUnit r == some u
def convHeld (s : State) (gid k : Nat) : Bool :=
  ((die s).graphs.any fun g => g.gid != gid && g.load.any fun l => l.recs.any fun r => recConv r == some k) ||
    (pendingRecs s gid).any fun r => recConv r == some k

/-- A record names a region, a unit or a converter that the graph may not, be it the source or the destination of a route. -/
def recForeign (s : State) (gid : Nat) (r : LoadRec) : Bool :=
  ((recRegions r).any fun g => (region s g).owner != some gid) || (recUnit r).any (unitHeld s gid) || (recDestUnit r).any (unitHeld s gid) ||
    (recConv r).any (convHeld s gid) || (recDestConv r).any (convHeld s gid)
/-- The routes of other graphs: those in the registers of units that they hold, those of their converters, and those of their images
that wait for their installation. -/
def foreignRoutes (s : State) (gid : Nat) : List Nat :=
  ((unitRoutes s).filter fun p => unitHeld s gid p.1).map (fun p => upar s p.1 (2 + p.2)) ++
    ((List.range 32).filter fun g => (region s g).owner != some gid).map (fun g => convRoute s (2 * g)) ++
    (pendingRecs s gid).filterMap recRoute
/-- A route of a record leads to an input that one of some routes has (R163, R390). -/
def recClash (taken : List Nat) (r : LoadRec) : Bool := (recRoute r).any fun v => taken.any (sameDest v)
/-- The offset of the first UNDER record with a region that the graph does not own, or of a record of its image that names what the
graph may not. -/
def underForeign (s : State) (gid : Nat) (u : Nat × Nat × BitVec 32 × List (Nat × ImageRec)) : Option Nat :=
  if (List.range 32).any fun g => u.2.2.1.getLsbD g && (region s g).owner != some gid then some u.1
  else ((loadRecs u.2.2.2).find? fun p => recForeign s gid p.2).map fun p => p.1
/-- The offset at which an image names what belongs to others. -/
def imageForeign (s : State) (gid : Nat) (l : List (Nat × LoadRec)) (us : List (Nat × Nat × BitVec 32 × List (Nat × ImageRec))) :
    Option Nat :=
  ((l.find? fun p => recForeign s gid p.2).map fun p => p.1).orElse fun _ => us.findSome? (underForeign s gid)

/-- The lowest-numbered region of a mask. -/
def lowestOf (mask : BitVec 32) : Nat := ((List.range 32).find? fun g => mask.getLsbD g).getD 0

/-- THE IMAGE at an address, read and checked (R385 to R390): ILLEGAL where it is rejected, then PROT; ILLEGAL where a route
of it reaches an input that has one in another graph (R163, DESIGN CHOICE, log 77). -/
def readImage (s : State) (gr : Graph) (base : Nat) : Except Stop (LoadImage × State) :=
  match readRecords s base maxRecords 0 with
  | .error e => .error e
  | .ok (rs, s) =>
    match readUnders s base (underRecs rs) with
    | .error e => .error e
    | .ok (us, s) =>
      let recs := (loadRecs rs).map Prod.snd
      let all := loadRecs rs ++ us.flatMap fun u => loadRecs u.2.2.2
      match (imageBad (loadRecs rs)).orElse fun _ => undersBad recs (lowestOf gr.mask) [] us with
      | some off => .error (rejectAt off)
      | none =>
        match imageForeign s gr.gid (loadRecs rs) us with
        | some off => .error (.trap 0x21 (BitVec.ofNat 64 off))
        | none =>
        let taken := foreignRoutes s gr.gid
        match all.find? fun p => recClash taken p.2 with
        | some p => .error (rejectAt p.1)
        | none => .ok (⟨recs, us.map fun u => ⟨u.2.1, u.2.2.1, (loadRecs u.2.2.2).map Prod.snd⟩⟩, s)

end Sys2Proof.Machine
end

