-- ==== Sys2Proof/Machine/Load.lean ====
section
/-! DEFINITION. Fabric loads: LOADCFG and its installation (R63, R385 to R391), the reconfiguration token (R64, R407), and the
switch to an understudy (R314, R315, R436). -/

namespace Sys2Proof.Machine

/-- The regions of a graph. -/
def graphRegions (s : State) (gid : Nat) : List Nat := (List.range 32).filter fun g => (region s g).owner == some gid

/-! ### Installation (R391) -/

/-- Regions joined by vector channels, as pairs (R388). -/
def vectorEdges (l : List LoadRec) : List (Nat × Nat) :=
  l.filterMap fun r => match r with
    | .chan ch p false _ c false _ => if ch < 16 && p != c then some (p, c) else none
    | _ => none
/-- The regions that `n` rounds along the edges reach from a set. -/
def reachRegions (edges : List (Nat × Nat)) : Nat → List Nat → List Nat
  | 0, l => l
  | n + 1, l => reachRegions edges n
      ((l ++ edges.flatMap fun e => if l.contains e.1 then [e.2] else if l.contains e.2 then [e.1] else []).dedup)
/-- The freeze group of a region: its lowest region (R52). -/
def freezeGroupOf (l : List LoadRec) (g : Nat) : Nat := (reachRegions (vectorEdges l) 32 [g]).foldl min g

/-- The stream ports of a region are closed: producers end their streams, subscriptions end, pairs are unbound (R417). -/
def closePort (s : State) (g p : Nat) (f : Port → Port) : State :=
  let q := port s g p
  if q == Port.reset then s else
    let s := q.queue.foldl (fun s k => if isProducer k then endStream s (bits k.src.toNat 0 8) else s) (withdrawPort s g p)
    modPort (unsubscribe s g p) g p f
def closePorts (s : State) (g : Nat) (f : Port → Port) : State := (List.range 64).foldl (fun s p => closePort s g p f) s
/-- Every port of a region is unbound and its subscription ends; what is queued stays (R417). -/
def unbindPorts (s : State) (g : Nat) : State :=
  (List.range 64).foldl (fun s p =>
    if port s g p == Port.reset then s else modPort (unsubscribe s g p) g p fun q => { q with bound := none, sub := none }) s

/-- A buffer as its record declares it, at a base offset in its node (R57, R155). -/
def newBuffer (node base depth logb : Nat) (wm : BitVec 16) (sport : Option Nat) : Buffer :=
  { node := node, base := base, depth := depth, bytes := 2 ^ logb, sport := sport, full := [], fed := [], putIx := Vector.replicate 16 0,
    getIx := Vector.replicate 16 0, expect := wm, opened := false }

/-- A record installed in the region it names. -/
def installRec (g : Nat) (r : Region) : LoadRec → Region
  | .region g' ii framed stages words =>
    if g' != g then r else
      { r with
        ii := ii
        framed := framed
        ring := words.zipIdx.foldl (fun t p => t.set 0 (32 * (p.2 / ii) + p.2 % ii) p.1) []
        stage := stages.zipIdx.foldl (fun t p => t.set 0 (32 * (p.2 / ii) + p.2 % ii) p.1) [] }
  | .buffer g' _ node depth logb wm sport =>
    if g' != g then r else
      let base := ((r.bufs.filter fun b => b.node == node).map fun b => b.depth * b.bytes).foldl (· + ·) 0
      { r with bufs := r.bufs ++ [newBuffer node base depth logb wm sport] }
  | .rmw g' slot pos => if g' != g then r else { r with rmw := r.rmw.set none slot (some pos) }
  | _ => r

/-- A region of a load at its installation: every field at the value R391 gives; FRZLIM, the bytes of its nodes, its shadow
windows and its owner stay. -/
def freshRegion (r : Region) (group : Nat) : Region :=
  { Region.reset with frzlim := r.frzlim, nodes := r.nodes, shadow := r.shadow, owner := r.owner, fenced := r.fenced, group := group }

/-- The regions of a load installed: those whose fabric state a record sets. A region that only a CHAN record names keeps its state, IFVEC
and IFINFO among it (R160, R391, DESIGN CHOICE, log 102). -/
def installRegions (s : State) (l : List LoadRec) : State :=
  (loadRegions l).foldl (fun s g =>
    let s := closePorts s g fun _ => Port.reset
    modRegion s g fun r => l.foldl (installRec g) (freshRegion r (freezeGroupOf l g))) s

/-- A unit returns to its reset state, in the hands of a graph or of none: registers 0, queues empty (R162, R217). -/
def clearUnit (s : State) (u : Nat) (owner : Option Nat) : State :=
  let s := withdrawRetry s fun q => q.who == .opUnit u || q.who == Requester.gather u
  let s := if unitKind u == .descend then releaseScorers s u else s
  modUnit s u fun _ => { OpUnit.reset with owner := owner }

/-- Routes that lead to one of some inputs are removed: an input takes one route (R163); a unit of another graph's resident load is left
as it is (R162). -/
def dropRoutes (s : State) (gid : Nat) (vs : List Nat) : State :=
  (unitRoutes s).foldl (fun s p =>
    if unitHeld s gid p.1 then s else if vs.any fun v => sameDest (upar s p.1 (2 + p.2)) v then setPar s p.1 (2 + p.2) 0 else s) s

/-- The units of a load, with their routes (R162); a route that an earlier load has left at an input of theirs is removed (R163,
DESIGN CHOICE, log 77). -/
def installUnits (s : State) (gid : Nat) (l : List LoadRec) : State :=
  let s := (loadUnits l).foldl (fun s u => clearUnit s u (some gid)) s
  let s := dropRoutes s gid (l.filterMap fun r => match r with
    | .route _ _ _ v => some v.toNat
    | _ => none)
  l.foldl (fun s r => match r with
    | .route u false out v => setPar s u (2 + if out == 0 then 0 else 1) v.toNat
    | _ => s) s

/-- The word of a converter in a load, 0 where the load does not bind it (R168). -/
def convWord (l : List LoadRec) (k : Nat) : BitVec 17 :=
  (l.reverse.findSome? fun r => match r with
    | .conv k' v => if k' == k then some v else none
    | _ => none).getD 0
/-- The converters of the regions of a graph and of its load, and every converter that the load binds. -/
def loadConvs (s : State) (gid : Nat) (l : List LoadRec) : List Nat :=
  ((graphRegions s gid ++ loadRegions l).flatMap (fun g => [2 * g, 2 * g + 1]) ++ l.filterMap recConv).dedup
def installConvs (s : State) (gid : Nat) (l : List LoadRec) : State :=
  (loadConvs s gid l).foldl (fun s k => modConv s k fun _ => { cfg := convWord l k, latch := [] }) s

/-- The channels of a load, empty (R358, R388). -/
def newChans (l : List LoadRec) : List Chan :=
  l.filterMap fun r => match r with
    | .chan ch p psh prow c csh crow =>
      some { ch := ch, prod := ⟨p, psh, prow⟩, cons := ⟨c, csh, crow⟩, hops := hopCount p c, queue := [], flight := [], levels := [] }
    | _ => none

/-- THE STATE OF R391 for the records of a load. -/
def installRecs (s : State) (gid : Nat) (l : List LoadRec) : State :=
  let s := installConvs (installUnits (installRegions s l) gid l) gid l
  modGraph s gid fun g => { g with chans := newChans l, cueAt := none }

/-- Units that are disabled: CTL.EN = 0, and no load holds them (R162). -/
def disableUnits (s : State) (us : List Nat) : State :=
  us.foldl (fun s u => modUnit s u fun q => { q with params := q.params.set 0 0 (q.params.get 0 0 &&& ~~~1), owner := none }) s

/-- A checked image installed for a graph by the stagehand of region `c`: every port of the graph is unbound (R417), and the regions that
its records set are in the state of R391. A switch completed since the last SHRINK query stays noted for it (R314). -/
def installLoad (s : State) (gid c : Nat) (img : LoadImage) : State :=
  let old := ((graph? s gid).map fun g => g.oldUnits).getD []
  let s := disableUnits s (old.filter fun u => !(loadUnits img.recs).contains u && (opUnit s u).owner.all fun h => h == gid)
  let s := (graphRegions s gid).foldl (fun s g => modCore s g fun k => { k with switched := false }) s
  let s := (graphRegions s gid).foldl unbindPorts s
  let s := installRecs s gid img.recs
  modGraph s gid fun g =>
    { g with load := some ⟨img, img.recs, c⟩, oldUnits := loadUnits img.recs, cfg := 0, pending := none }

/-! ### LOADCFG -/

/-- Another stagehand of the graph has a LOADCFG in progress (R386). -/
def loading (s : State) (gid : Nat) : Bool := (graphRegions s gid).any fun g => g != myCore s && (core s g).loading

/-- A LOADCFG reads and checks its image, and the core then waits for the installation (R385, R386). (DESIGN CHOICE, log 45) -/
def loadcfgRead (a : Reg) (s : State) : Except Stop State :=
  let va := (xval s a).toNat
  match myGraph s with
  | none => .error (.trap 0x01 0)
  | some gr =>
    if gr.load.isSome || loading s gr.gid then .error (.trap 0x01 0)
    else if va % 64 != 0 then .error (.trap 0x23 (BitVec.ofNat 64 va))
    else match readImage s gr va with
      | .error e => .error e
      | .ok (img, s) => .ok (modCore s (myCore s) fun k => { k with wait := .load img })

/-- A core's LOADCFG is in progress while it waits for a retry entry of its image, or for the installation. -/
def noteLoading (c : Nat) (s : State) : State :=
  modCore s c fun k => { k with loading := match k.wait with
    | .retry _ | .load _ => true
    | _ => false }

/-- LOADCFG. -/
def execLoadcfg (h : Hdr) (a : Reg) (s : State) : Host.Outcome State Fault Refusal :=
  coreWord (.loadcfg h a) s fun s => .ok (noteLoading (myCore s) (coreOutcome s (loadcfgRead a s)))

/-- LOADCFG_INSTALL: the checked image of stagehand `c` is installed, and its LOADCFG retires (R391). -/
def execLoadcfgInstall (c : Nat) (s : State) :=
  match (core s c).wait, (region s c).owner with
  | .load img, some gid =>
    event (.loadcfgInstall c) s true fun s =>
      modCore (installLoad s gid c img) c fun k => { k with wait := .none, pc := k.pc + 1, supplied := [], issued := none, loading := false }
  | _, _ => event (.loadcfgInstall c) s false id

/-! ### The reconfiguration token (R64, R407) -/

/-- A port holds the token: a queued command, or a subscription to a stream that its distributor has still to drain. -/
def portBusy (s : State) (q : Port) : Bool := !q.queue.isEmpty || q.sub.any fun b => (stream s b.1).started

/-- Every invocation of the graph has ended, its copies are finished and its distributors drained, its AMOs have performed and
its remote beats have arrived. -/
def drained (s : State) (gid : Nat) : Bool :=
  (graphRegions s gid).all fun g =>
    let r := region s g
    (r.state == 0 || r.state == 4 || r.state == 5) && r.amoWait.isEmpty && r.beats.isEmpty && r.ports.toList.all fun q => !portBusy s q

/-- The token at one region: pending starts go, buffers are flushed, ports unbound, and the mark of the load goes with it (R61). -/
def tokenRegion (s : State) (g : Nat) : State :=
  let s := closePorts s g fun q => { q with bound := none, sub := none }
  modRegion s g fun r =>
    { r with
      state := if r.state == 5 then 0 else r.state
      inv := none
      framed := false
      bufs := r.bufs.map fun b => { b with full := [], fed := [], opened := false } }

/-- The token at one unit: its tokens and its firing are discarded, and a query gives up its pin (R171). -/
def tokenUnit (s : State) (u : Nat) : State :=
  let s := match (opUnit s u).pin with
    | some root => abandonUnit s u root
    | none => s
  let s := withdrawRetry s fun q => q.who == .opUnit u || q.who == Requester.gather u
  modUnit s u fun q =>
    { q with inq := Vector.replicate 4 [], out := [], tile := none, rows := [], retry := none, supplied := [], issued := none, count := 0, owner := none }

/-- THE TOKEN PASSES for a graph (R64, R171, R321, R407). -/
def passToken (s : State) (gid : Nat) : State :=
  let recs := (((graph? s gid).bind fun g => g.load).map fun l => l.recs).getD []
  let s := (graphRegions s gid).foldl tokenRegion s
  let s := (loadUnits recs).foldl tokenUnit s
  let s := (loadConvs s gid recs).foldl (fun s k => modConv s k fun c => { c with latch := [] }) s
  let s := releaseCommit s gid
  modGraph s gid fun g => { g with load := none, chans := [], pending := none }

/-- The stagehands of a graph that wait in RECONF retire it. -/
def retireReconf (s : State) (gid : Nat) : State :=
  (graphRegions s gid).foldl (fun s g =>
    if (core s g).wait == .reconf then modCore s g fun k => { k with wait := .none, pc := k.pc + 1, supplied := [], issued := none } else s) s

/-- RECONF: with no load resident the token passes at once. -/
def execReconf (h : Hdr) (s : State) :=
  coreWord (.reconf h) s fun s =>
    match myGraph s with
    | none => .ok (advance s)
    | some gr =>
      if gr.load.isNone then .ok (advance (passToken s gr.gid))
      else .ok (modCore s (myCore s) fun k => { k with wait := .reconf })

/-- RECONF_TOKEN_PASS. -/
def execReconfTokenPass (gr : Nat) (s : State) :=
  event (.reconfTokenPass gr) s (drained s gr && (graphRegions s gr).any fun g => (core s g).wait == .reconf) fun s =>
    retireReconf (passToken s gr) gr

/-! ### SHRINK and the switch (R314, R315, R436) -/

/-- The graph that owns the region in a register; ILLEGAL for no region or for one that no graph owns. -/
def namedGraph (s : State) (a : Reg) : Except Stop Graph :=
  let g := (xval s a).toNat
  match if g < 32 then ownerOf s g else none with
  | none => .error (.trap 0x01 0)
  | some gr => .ok gr

/-- The configuration that a request to vacate regions selects. -/
def selectUnder (gr : Graph) (vacate : BitVec 32) : Option Nat :=
  if vacate == 0 then some 0 else
    let fit := ((gr.load.map fun l => l.img.unders).getD []).filter fun u => u.mask &&& (gr.mask &&& ~~~vacate) == u.mask
    (fit.map fun u => u.cfg).foldl (fun m c => some (match m with | none => c | some k => min k c)) none

/-- SHRINK, request. -/
def execShrink (h : Hdr) (d a b : Reg) (s : State) :=
  coreWord (.shrink h d a b) s fun s =>
    if 2 ^ 32 ≤ (xval s b).toNat then .error (.trap 0x01 0) else
      match namedGraph s a with
      | .error e => .error e
      | .ok gr =>
        if (markedRegions s gr.gid).isEmpty || gr.load.isNone then .ok (retX s d 2) else
          match selectUnder gr ((xval s b).setWidth 32) with
          | none => .ok (retX s d 1)
          | some k => .ok (retX (modGraph s gr.gid fun g => { g with pending := some k, pendingSince := s.clock }) d 0)

/-- SHRINK, query; after it no completed switch stands since the last query (R314). -/
def execShrinkQuery (h : Hdr) (d a b : Reg) (s : State) :=
  coreWord (.shrinkQuery h d a b) s fun s =>
    if xval s b != 0 then .error (.trap 0x01 0) else
      match namedGraph s a with
      | .error e => .error e
      | .ok gr =>
        let v := if gr.pending.isSome then 1 else if gr.shrunk then 2 else 0
        .ok (retX (modGraph s gr.gid fun g => { g with shrunk := false }) d v)

/-- A region is free: no graph owns it and it is not fenced (R302). -/
def regionFree (s : State) (g : Nat) : Bool := (region s g).owner.isNone && !(region s g).fenced

/-- Mask and records of a configuration of the resident load. -/
def configOf (gr : Graph) (k : Nat) : Option (BitVec 32 × List LoadRec) :=
  gr.load.bind fun l =>
    if k == 0 then some (gr.full, l.img.recs) else (l.img.unders.find? fun u => u.cfg == k).map fun u => (u.mask, u.recs)

/-- The pending switch can take place: the regions that it needs are the graph's or free. -/
def switchFits (s : State) (gr : Graph) : Bool :=
  match gr.pending.bind (configOf gr) with
  | none => false
  | some (mask, _) => (List.range 32).all fun g => !mask.getLsbD g || (region s g).owner == some gr.gid || (regionFree s g && !(die s).hot)

/-- A region leaves its graph at a switch: its stagehand stops and loses its registers, its converters hold 0 (R315). -/
def vacateRegion (s : State) (g : Nat) : State :=
  let s := modCore (disown s g) g fun k => { Core.reset with l1i := k.l1i }
  (List.range 2).foldl (fun s k => modConv s (2 * g + k) fun _ => { cfg := 0, latch := [] }) s

/-- THE SWITCH to configuration `k` (R315); RMWS slots that it does not declare cease to exist (R389). -/
def switchLoad (s : State) (gr : Graph) (k : Nat) (mask : BitVec 32) (recs : List LoadRec) : State :=
  let gid := gr.gid
  let s := retireReconf (passToken s gid) gid
  let s := ((graphRegions s gid).filter fun g => !mask.getLsbD g).foldl vacateRegion s
  let s := ((List.range 32).filter fun g => mask.getLsbD g).foldl (fun s g => modRegion s g fun r => { r with owner := some gid }) s
  let units := (gr.load.map fun l => loadUnits l.img.recs).getD []
  let s := disableUnits s (units.filter fun u => !(loadUnits recs).contains u)
  let s := (graphRegions s gid).foldl (fun s g => modCore (modRegion s g fun r =>
    { r with state := 0, inv := none, framePending := false, cueReq := false, rmw := [] }) g fun k => { k with switched := true }) s
  let s := installRecs s gid recs
  modGraph s gid fun g =>
    { g with mask := mask, load := gr.load.map fun l => { l with recs := recs }, cfg := BitVec.ofNat 3 k, shrunk := true }

/-- The cue of a graph's frame is due: eight cycles after the last request (R61). -/
def cueDue (s : State) (gr : Graph) : Bool := gr.cueAt.any fun t => decide (t + 8 ≤ s.clock)

/-- UNDERSTUDY_SWITCH: it takes the place of the cue. -/
def execUnderstudySwitch (gr : Nat) (s : State) :=
  match graph? s gr with
  | none => event (.understudySwitch gr) s false id
  | some g =>
    event (.understudySwitch gr) s (cueDue s g && switchFits s g && drained s gr) fun s =>
      match g.pending, g.pending.bind (configOf g) with
      | some k, some (mask, recs) => switchLoad s g k mask recs
      | _, _ => s

/-- CUE_RELEASE: the cue wire releases the marked regions of a graph's load, unless a switch takes the cue's place (R61,
R315). -/
def execCueRelease (gr : Nat) (s : State) :=
  match graph? s gr with
  | none => event (.cueRelease gr) s false id
  | some g => event (.cueRelease gr) s (cueDue s g && !switchFits s g) fun s => releaseCue s gr

end Sys2Proof.Machine
end

