-- ==== Sys2Proof/Machine/Schedule.lean ====
section
/-! DEFINITION. Launch queues and their scheduler (R299 to R304), LAUNCH and TLAUNCH (R322, R380, R447), the start and the end of a
graph, and the watchdog (R305, R306). -/

namespace Sys2Proof.Machine

/-! ### Descriptors (Table 19-3) -/

def descHeader (d : Line) : Nat := bits d.toNat 0 64
/-- ASROOT, whose reserved bits read 0 (R5, R275). -/
def descRoot (d : Line) : X := BitVec.ofNat 64 (bits d.toNat 64 52)
def descTime (d : Line) : Nat := bits d.toNat 128 80
def descTimed (d : Line) : Bool := d.getLsbD 208
def descJob (d : Line) : BitVec 16 := BitVec.ofNat 16 (bits d.toNat 224 16)
def descParam (d : Line) (n : Nat) : X := BitVec.ofNat 64 (bits d.toNat (32 * n + 256) 32)

/-! ### LAUNCH and TLAUNCH -/

/-- The word that enqueues the descriptor at A in queue B. -/
def launchWord (i : Instr) (d a b : Reg) (timed : Bool) (s : State) : Host.Outcome State Fault Refusal :=
  coreWord i s fun s =>
    let q := (xval s b).toNat
    let va := (xval s a).toNat
    if 64 ≤ q then .error (.trap 0x01 0)
    else if !(kindOf s).isMgr && !(queue s q).cfg.getLsbD 6 then .error (.trap 0x03 0)
    else match coreRead s va 64 0 15 0 with
      | .error e => .error e
      | .ok (bs, s) =>
        let desc := bytesLine bs
        if timed && !descriptorOk desc then .error (.trap 0x01 0) else
          let desc : Line := if timed then desc ||| (1 <<< 208 : Line) else desc &&& ~~~(1 <<< 208 : Line)
          let (s, status) := enqueueLaunch s s.cur.val q desc
          .ok (retX s d (BitVec.ofNat 64 status))

/-- LAUNCH (R380). -/
def execLaunch (h : Hdr) (d a b : Reg) (s : State) := launchWord (.launch h d a b) d a b false s
/-- TLAUNCH (R447). -/
def execTlaunch (h : Hdr) (d a b : Reg) (s : State) := launchWord (.tlaunch h d a b) d a b true s

/-! ### The scheduler (R302) -/

/-- The head of a queue, if its queue is enabled and its time has come. -/
def dueHead (s : State) (q : Nat) : Option Launch :=
  if !(queue s q).cfg.getLsbD 4 then none else
    (queue s q).entries.head?.bind fun e => if descTimed e.desc && decide (phc80 s < descTime e.desc) then none else some e

/-- The head of a queue, if it is ready: due, and the head since the scheduler last looked (R302). -/
def readyHead (s : State) (q : Nat) : Option Launch := (dueHead s q).bind fun e => if e.ready.isSome then some e else none

/-- Effective priority of a ready head (R302). -/
def effPriority (s : State) (q : Nat) (e : Launch) : Nat :=
  let age := bits (die s).lqage.toNat 0 32
  let pri := bits (queue s q).cfg.toNat 0 3
  if age == 0 then pri else min 7 (pri + (s.clock - e.ready.getD s.clock) / age)

/-- The header of a graph, read in the launch's address space: 32 doublewords, or the code and address of the fault (R303). (DESIGN CHOICE,
log 42) -/
def readHeader (s : State) (d : Line) : State × Except (Code × Nat) (List Nat) :=
  let c : Ctx := { mtlb := 64, root := descRoot d, user := true, gid := none, capture := false, counter := 32 }
  let bytes : Except Stop (List Byte × State) :=
    if descHeader d % 64 != 0 then .error (.trap 0x23 (BitVec.ofNat 64 (descHeader d))) else readLines s ⟨c, []⟩ (descHeader d) 4
  match bytes with
  | .ok (bs, s) => (s, .ok ((chunks 8 bs.length bs).map bytesNat))
  | .error (.trap f v) => (s, .error (f, v.toNat))
  | .error (.page _ _ va _ _ _) => (s, .error (0x20, va))
  | .error _ => (s, .error (0x20, descHeader d))

/-- The regions whose V bit a header sets. -/
def headerMask (h : List Nat) : BitVec 32 :=
  BitVec.ofNat 32 ((List.range 32).foldl (fun m g => if (nth 0 h g).testBit 63 then m + 2 ^ g else m) 0)
/-- The regions of a launch; none where its header does not read. -/
def launchMask (s : State) (d : Line) : BitVec 32 :=
  match (readHeader s d).2 with
  | .ok h => headerMask h
  | .error _ => 0

/-- A claim on regions: effective priority, cycle of enqueue, place in the order of queues, and the regions. -/
structure Claim where
  pri : Nat
  since : Nat
  q : Nat
  mask : BitVec 32
  deriving DecidableEq, Repr

/-- The claim of a ready head, and of a pending return to configuration 0, which counts as a head of priority 7 (R314). -/
def headClaim (s : State) (q : Nat) (e : Launch) : Claim := ⟨effPriority s q e, e.since, q + 1, launchMask s e.desc⟩
def returnClaims (s : State) : List Claim :=
  (die s).graphs.filterMap fun g => if g.pending == some 0 then some ⟨7, g.pendingSince, 0, g.full &&& ~~~g.mask⟩ else none

/-- The order of the scheduler. -/
def Claim.before (a b : Claim) : Bool :=
  b.pri < a.pri || (a.pri == b.pri && (a.since < b.since || (a.since == b.since && a.q < b.q)))

/-- Regions that claims ordered above `c` reserve. -/
def reservedFor (s : State) (c : Claim) : BitVec 32 :=
  let heads := (List.range 64).filterMap fun q => (readyHead s q).map (headClaim s q)
  ((returnClaims s ++ heads).filter fun b => b.before c).foldl (fun m b => m ||| b.mask) 0

/-- The ready head of a queue starts now, or is discarded for its header (R302, R303). -/
def mayStart (s : State) (q : Nat) : Bool :=
  match readyHead s q with
  | none => false
  | some e =>
    let c := headClaim s q e
    c.mask == 0 || (!(die s).hot && c.mask &&& reservedFor s c == 0 && (List.range 32).all fun g => !c.mask.getLsbD g || regionFree s g)

/-! ### The start of a graph (R303) -/

/-- A stagehand as it begins. -/
def startCore (k : Core) (d : Line) (mask : BitVec 32) (idx : Nat) : Core :=
  { Core.reset with
    x := Vector.ofFn fun (r : Fin 32) =>
      if 1 ≤ r.val && r.val ≤ 8 then descParam d (r.val - 1) else if r.val == 9 then mask.setWidth 64 else 0
    pc := BitVec.ofNat 54 idx
    run := .running
    asroot := descRoot d
    tcause := k.tcause
    tepc := k.tepc
    tval := k.tval
    rsbase := k.rsbase
    ufinfo := k.ufinfo
    l1i := k.l1i }

/-- A graph as it begins; the cycle in which it starts counts as the first of its watchdog (R305). -/
def startGraph (s : State) (q : Nat) (d : Line) (mask : BitVec 32) : Graph :=
  { gid := s.gid, mask := mask, queue := q, job := descJob d, asroot := descRoot d, load := none, oldUnits := [], chans := [],
    group := Group.none, cfg := 0, pending := none, pendingSince := 0, shrunk := false, wdStep := 0, wdCycles := 1,
    wdOff := false, killed := false, full := mask, cueAt := none }

/-- The head of a queue leaves it; the next head is not ready yet. -/
def popLaunch (s : State) (q : Nat) : State := modQueue s q fun k => { k with entries := k.entries.drop 1 }

/-- A launch is discarded: the manager's trap has SRC 7, the failure's code and address, and the JOBID of the launch (R303, Table
19-5). -/
def discardLaunch (s : State) (d : Line) (c : Code) (va : Nat) : State :=
  putMgr s { mkEvent s c.toNat 7 0 (BitVec.ofNat 64 va) 0 with job := (descJob d).setWidth 14 }

/-- THE START of the head of a queue. -/
def startHead (s : State) (q : Nat) (e : Launch) : State :=
  let s := popLaunch s q
  match readHeader s e.desc with
  | (s, .error (c, va)) => discardLaunch s e.desc c va
  | (s, .ok h) =>
    let mask := headerMask h
    if mask == 0 then discardLaunch s e.desc 0x01 0 else
      let gr := startGraph s q e.desc mask
      let s := modDie { s with gid := s.gid + 1 } fun d => { d with graphs := d.graphs ++ [gr] }
      ((List.range 32).filter fun g => mask.getLsbD g).foldl (fun s g =>
        modCore (modRegion s g fun r => { r with owner := some gr.gid }) g fun k => startCore k e.desc mask (bits (nth 0 h g) 0 54)) s

/-- GRAPH_START. -/
def execGraphStart (q : Nat) (s : State) :=
  event (.graphStart q) s (mayStart s q) fun s =>
    match readyHead s q with
    | some e => startHead s q e
    | none => s

/-- The cycle since which each head has been ready (R302). -/
def noteReady (s : State) : State :=
  if (die s).queues.all fun k => k.entries.isEmpty then s else
    (List.range 64).foldl (fun s q =>
      let ready := (dueHead s q).isSome
      modQueue s q fun k => { k with entries := modNth k.entries 0 fun e =>
        { e with ready := if ready then some (e.ready.getD s.clock) else none } }) s

/-- The scheduler in one cycle: every ready head that may start does; a head that becomes one now is not ready yet (R302). -/
def schedule (s : State) : State :=
  if (die s).queues.all fun k => k.entries.isEmpty then s else
    (List.range 64).foldl (fun s _ =>
      match (List.range 64).find? (mayStart s) with
      | some q => (match readyHead s q with
          | some e => startHead s q e
          | none => s)
      | none => s) s

/-! ### The end of a graph (R304) -/

/-- The graph's regions become free, its stagehands idle, and the graph is no more. -/
def freeGraph (s : State) (gid : Nat) : State :=
  let s := (graphRegions s gid).foldl (fun s g =>
    modCore (modRegion s g fun r => { r with owner := none, framed := false }) g fun k => { k with run := .idle, events := [], wait := .none }) s
  modDie s fun d => { d with graphs := d.graphs.filter fun g => g.gid != gid }

/-- DONE counts the graph, and the stamp is written without translation. -/
def countDone (s : State) (q : Nat) : State :=
  let s := modQueue s q fun k => { k with done := k.done + 1 }
  let k := queue s q
  if k.stamp == 0 then s else physWrite s k.stamp.toNat (natBytes k.done.toNat 8)

/-- A write of a graph to a peer has still to perform there (R304, R326). -/
def graphFrames (s : State) (gid : Nat) : Bool :=
  frameOpen s fun f => f.die == s.cur.val && (graphRegions s gid).any f.parties.contains

/-- THE END of a graph: the token for a resident load, the commit group, of which one still open is discarded; then, once every write
has performed, DONE and the regions (R304). -/
def endGraph (s : State) (gr : Graph) : State :=
  let s := if gr.load.isSome then passToken s gr.gid else s
  let s := if gr.group.state == 1 then abortGroup s gr.gid 0 0 else releaseCommit s gr.gid
  let s := modGraph s gr.gid fun g => { g with group := Group.none }
  if graphFrames s gr.gid then s else freeGraph (countDone s gr.queue) gr.gid

/-- Every stagehand of a graph has halted, and every contribution of its cores has performed. -/
def graphHalted (s : State) (gid : Nat) : Bool :=
  (graphRegions s gid).all fun g =>
    ((core s g).run == .halted || (core s g).run == .idle) && (openContribution s (ofCore g)).isNone &&
      (openContribution s (ofElems g)).isNone

/-- A save of the graph is in progress. -/
def saving (s : State) (gid : Nat) : Bool := (die s).save.any fun (v : Save) => v.gid == gid
/-- Every write of a region of a graph with no load has performed: no command that writes is queued at its ports, no invocation on the
fabric state that it kept runs, and no store, AMO or remote beat of one waits (R304). -/
def writesDone (r : Region) : Bool :=
  r.state != 1 && r.state != 2 && r.hold.isEmpty && r.amoWait.isEmpty && r.beats.isEmpty &&
    r.ports.toList.all fun q => q.queue.all isProducer
/-- A graph ends: its stagehands have halted and, with a load resident, the token passes, or, without, its writes have performed. -/
def mayEnd (s : State) (g : Graph) : Bool :=
  graphHalted s g.gid && !saving s g.gid &&
    if g.load.isNone then ((graphRegions s g.gid).all fun r => writesDone (region s r)) && !graphFrames s g.gid else drained s g.gid

/-- GRAPH_END. -/
def execGraphEnd (gr : Nat) (s : State) :=
  match graph? s gr with
  | none => event (.graphEnd gr) s false id
  | some g =>
    event (.graphEnd gr) s (mayEnd s g) fun s => endGraph s g

/-- The graphs of a die that end in this cycle. -/
def graphEnds (s : State) : State := (die s).graphs.foldl (fun s g => if mayEnd s g then endGraph s g else s) s

/-! ### The watchdog (R305, R306) -/

/-- The limit of step `n`, 1 to 3, in cycles; none where it or an earlier one is zero (Table 19-2). -/
def wdLimit (s : State) (gr : Graph) (n : Nat) : Option Nat :=
  let l := fun k => bits (queue s gr.queue).wd.toNat (20 * k) 20
  if (List.range n).any fun k => l k == 0 then none else some (4096 * l (n - 1))

/-- The next step of a graph's watchdog is due. -/
def wdDue (s : State) (gr : Graph) : Bool :=
  !gr.wdOff && gr.wdStep < 3 && (wdLimit s gr (gr.wdStep + 1)).any fun t => decide (t ≤ gr.wdCycles)

/-- The step is recorded and its timer starts anew. -/
def noteStep (s : State) (gid n : Nat) : State := modGraph s gid fun g => { g with wdStep := n, wdCycles := 0 }

/-- Step 1: pre-emption is requested. -/
def wdPreempt (s : State) (gr : Graph) : State :=
  let g := lowestOf gr.mask
  let s := postStage (postMgr s 0x60 5 g 0 0) g 0x60 5 0
  noteStep s gr.gid 1

/-- A killed region: its invocation is cancelled, its held stores go, its copies are cancelled, its stagehand stops. -/
def killRegion (s : State) (g : Nat) : State :=
  let s := withdrawRetry (queryAbandon s g) fun q => requesterOf g q.who
  let s := (List.range 64).foldl (fun s p => if port s g p == Port.reset then s else cancelPort s g p) s
  let s := modRegion s g fun r =>
    { r with
      state := 0, inv := none, cursor := 0, hold := [], amoWait := [], faults := [], beats := [], freezeStart := none, endStart := none
      freezeWanted := false, framePending := false, cueReq := false, portUse := [], rmwBusy := [], travel := []
      elems := r.elems.map fun e => { e with pend := [], wins := [] } }
  modCore s g fun k => { k with run := .halted, wait := .none, events := [], freezeReq := false, supplied := [], issued := none, awaits := [] }

/-- A unit of a killed load is drained as by TDRAIN; a query in progress gives up its pin. -/
def killUnit (s : State) (u : Nat) : State :=
  let s := withdrawRetry s fun q => q.who == .opUnit u || q.who == Requester.gather u
  let s := match (opUnit s u).pin with
    | some root => abandonUnit s u root
    | none => s
  modUnit (drainUnit s u) u fun q => { q with retry := none, supplied := [], issued := none }

/-- Step 2: THE KILL (Table 19-4); a save is abandoned and a pending switch discarded (Table 19-8). (DESIGN CHOICE, log 46) -/
def wdKill (s : State) (gr : Graph) : State :=
  let gid := gr.gid
  let s := if saving s gid then modDie s fun d => { d with save := none } else s
  let s := (graphRegions s gid).foldl killRegion s
  let units := (gr.load.map fun l => loadUnits l.recs).getD []
  let s := units.foldl killUnit s
  let s := if gr.group.state == 0 then s else abortGroup s gid 4 0
  let s := modGraph s gid fun g => { g with pending := none, killed := true, cueAt := none }
  noteStep (postMgr s 0x61 5 (lowestOf gr.mask) 0 0) gid 2

/-- A region of a killed graph has drained. -/
def killDrained (s : State) (g : Nat) : Bool :=
  let r := region s g
  (r.state == 0 || r.state == 4 || r.state == 5) && r.amoWait.isEmpty && r.beats.isEmpty &&
    (r.ports.toList.all fun q => !portBusy s q) && (openContribution s (ofCore g)).isNone && (openContribution s (ofElems g)).isNone

/-- Step 3: every region of a killed graph that has not drained is fenced: it belongs to no graph (Table 19-4). -/
def wdFence (s : State) (gr : Graph) : State :=
  let s := ((graphRegions s gr.gid).filter fun g => !killDrained s g).foldl (fun s g =>
    modRegion (disown (postMgr s 0x62 5 g 0 0) g) g fun r => { r with fenced := true }) s
  noteStep s gr.gid 3

/-- The next step of a graph's watchdog. -/
def wdStepOf (s : State) (gr : Graph) : State :=
  match gr.wdStep with
  | 0 => wdPreempt s gr
  | 1 => wdKill s gr
  | 2 => wdFence s gr
  | _ => s

/-- The next step of a graph's watchdog has been due before this cycle. The end of the cycle in which a step falls due takes it, after
every WDOG of that cycle (R472), so only a limit that was lowered beneath the time elapsed leaves such a step. (DESIGN CHOICE, log 101) -/
def wdOverdue (s : State) (gr : Graph) : Bool :=
  wdDue s gr && (wdLimit s gr (gr.wdStep + 1)).any fun t => decide (t < gr.wdCycles)

/-- The event of watchdog step `n + 1`. -/
def wdEvent (gid n : Nat) (s : State) : Host.Outcome State Fault Refusal :=
  match graph? s gid with
  | none => machineEvent s false id
  | some g => machineEvent s (g.wdStep == n && wdOverdue s g) fun s => wdStepOf s g

/-- WDOG_PREEMPT, WDOG_KILL and WDOG_FENCE. -/
def execWdogPreempt (gr : Nat) (s : State) := wdEvent gr 0 s
def execWdogKill (gr : Nat) (s : State) := wdEvent gr 1 s
def execWdogFence (gr : Nat) (s : State) := wdEvent gr 2 s

/-- The watchdogs of a die at the end of a cycle. -/
def watchdogs (s : State) : State := (die s).graphs.foldl (fun s g => if wdDue s g then wdStepOf s g else s) s

/-- A WDOG word that names the graph in A. -/
def wdogWord (i : Instr) (a : Reg) (s : State) (f : State → Graph → State) : Host.Outcome State Fault Refusal :=
  coreWord i s fun s =>
    match namedGraph s a with
    | .error e => .error e
    | .ok gr => .ok (f s gr)

/-- WDOG, restart. -/
def execWdogRestart (h : Hdr) (d a : Reg) (s : State) :=
  wdogWord (.wdogRestart h d a) a s fun s gr =>
    retX (modGraph s gr.gid fun g => { g with wdStep := 0, wdCycles := 0, wdOff := false }) d 0
/-- WDOG, report. -/
def execWdogReport (h : Hdr) (d a : Reg) (s : State) :=
  wdogWord (.wdogReport h d a) a s fun s gr => retX s d (BitVec.ofNat 64 (gr.wdStep % 4 + 2 ^ 32 * (gr.wdCycles / 4096 % 2 ^ 32)))
/-- WDOG, next step. -/
def execWdogNextStep (h : Hdr) (d a : Reg) (s : State) :=
  wdogWord (.wdogNextStep h d a) a s fun s gr => retX (wdStepOf s gr) d 0
/-- WDOG, suspend. -/
def execWdogSuspend (h : Hdr) (d a : Reg) (s : State) :=
  wdogWord (.wdogSuspend h d a) a s fun s gr => retX (modGraph s gr.gid fun g => { g with wdOff := true }) d 0

end Sys2Proof.Machine
end

