-- ==== Sys2Proof/Machine/Save.lean ====
section
/-! DEFINITION. Context save and restore (R316 to R318). -/

namespace Sys2Proof.Machine

/-! ### CSAVE -/

/-- CSAVE: the save starts, and a pending switch is discarded (R316, Table 19-8); for a region that no graph owns, status 1 (R359). -/
def execCsave (h : Hdr) (d a b : Reg) (imm : BitVec 32) (s : State) :=
  coreWord (.csave h d a b imm) s fun s =>
    let area := (xval s b).toNat
    let g := (xval s a).toNat
    if 32 ≤ g then .error (.trap 0x01 0)
    else if area % 4096 != 0 then .error (.trap 0x23 (BitVec.ofNat 64 area))
    else match ownerOf s g with
    | none => .ok (retX s d 1)
    | some gr =>
      if (die s).save.isSome then .ok (retX s d 1)
      else
        let v : Save := ⟨gr.gid, area, imm.toNat, myRoot s⟩
        .ok (retX (modGraph (modDie s fun q => { q with save := some v }) gr.gid fun g => { g with pending := none }) d 0)

/-! ### Phase 1 -/

/-- A port has no copy to drain: nothing queued, or a producer that no SDIST has started. -/
def portQuiet (q : Port) : Bool :=
  match q.queue with
  | [] => true
  | k :: _ => isProducer k && !k.started

/-- Phase 1 has come to the image: invocations have ended or faulted, copies have drained, firings are complete. (DESIGN CHOICE, log 60) -/
def saveReady (s : State) (gr : Graph) : Bool :=
  ((graphRegions s gr.gid).all fun g =>
    let r := region s g
    r.state != 1 && r.state != 2 && !inQuery (core s g) && r.amoWait.isEmpty && r.ports.toList.all portQuiet &&
      (openContribution s (ofElems g)).isNone && (openContribution s (ofCore g)).isNone) &&
    ((gr.load.map fun l => loadUnits l.recs).getD []).all fun u => !inProgress (opUnit s u)

/-- The granules of a region that an image holds, in ascending order: written since LOADCFG, outside the pinned pool. -/
def imageGranules (s : State) (r : Region) : List Nat :=
  (r.touched.filter fun k => !(poolOn s && 64 ≤ k % 128)).mergeSort fun a b => decide (a ≤ b)

/-- The lines of an image after its first: the bytes that the spec gives, none where the layout is the hardware's own. -/
def imageLines (s : State) (gid : Nat) : List (Option Line) :=
  let granule := fun (g k : Nat) => (List.range 64).map fun n => some (bytesLine (Table.bytes (region s g).nodes (4096 * k + 64 * n) 64))
  List.replicate 63 none ++
    ((graphRegions s gid).flatMap fun g => List.replicate 16384 none ++ (imageGranules s (region s g)).flatMap (granule g)) ++
    List.replicate 16384 none

/-- The first line of an image: SIZE in bytes, mask, queue and JOBID, ASROOT, IDENT, and the image's number in word 5; word 0
is 1 once the image is whole. -/
def imageHead (s : State) (gr : Graph) (whole size id : Nat) (rest : Line) : Line :=
  BitVec.ofNat 512 (whole + 2 ^ 64 * size + 2 ^ 128 * gr.mask.toNat + 2 ^ 160 * gr.queue + 2 ^ 176 * gr.job.toNat +
    2 ^ 192 * gr.asroot.toNat + 2 ^ 256 * (identOf s .mgr).toNat + 2 ^ 320 * id + 2 ^ 384 * bits rest.toNat 0 128)

/-- The pages of the area that an image takes, translated as writes of the manager: those before the first that has none, with
SAVE_OVERRUN past the area's end and SAVE_FAULT where the translation faults or the bytes do not exist (R317). -/
def savePages (s : State) (v : Save) : Nat → Nat → State × List Xlat × Option Code
  | 0, _ => (s, [], none)
  | n + 1, k =>
    if v.units ≤ k then (s, [], some 0x51) else
      let c : Ctx := { mtlb := 64, root := v.root, user := false, gid := none, capture := false, counter := 32 }
      match vwriteAddr s c (v.area + 4096 * k) 4096 15 with
      | .error _ => (s, [], some 0x50)
      | .ok (x, s) =>
        let (s, xs, e) := savePages s v n (k + 1)
        (s, x :: xs, e)

/-- Line `n` of an image written, where its page has an address. -/
def putImageLine (pages : List Xlat) (s : State) (n : Nat) (l : Line) : State :=
  match pages[n / 64]? with
  | none => s
  | some x => performBytes s (x.pa + 64 * (n % 64)) x.attr (lineBytes l) 0 s.cur.val 32 false

/-- The lines of an image written in order, as far as its pages go (R316). -/
def writeImage (s : State) (pages : List Xlat) (lines : List (Option Line)) (head : Line) : State :=
  lines.zipIdx.foldl (fun s p => match p.1 with
    | some l => putImageLine pages s (p.2 + 1) l
    | none => let (l, s) := fresh s; putImageLine pages s (p.2 + 1) l) (putImageLine pages s 0 head)

/-- The streams whose producer a graph's region holds. -/
def graphStreams (s : State) (gid : Nat) : List Nat :=
  (List.range 256).filter fun n => (stream s n).producer.any fun gp => (region s gp.1).owner == some gid

/-- The graph as an image holds it. -/
def saveOf (s : State) (gr : Graph) (id : Nat) : SaveImage :=
  let gs := graphRegions s gr.gid
  let recs := (gr.load.map fun l => l.recs).getD []
  { id := id, step := (die s).stepping, graph := gr
    regions := gs.map fun g => (g, region s g)
    cores := gs.map fun g => (g, core s g)
    units := (loadUnits recs).map fun u => (u, opUnit s u)
    convs := (loadConvs s gr.gid recs).map fun k => (k, conv s k)
    streams := (graphStreams s gr.gid).map fun n => (n, stream s n) }

/-- Phase 2: the regions become free, with the units and converters of the load. -/
def leaveDie (s : State) (gr : Graph) : State :=
  let recs := (gr.load.map fun l => l.recs).getD []
  let s := (graphRegions s gr.gid).foldl (fun s g => withdrawRetry s fun q => requesterOf g q.who) s
  let s := (graphRegions s gr.gid).foldl (fun s g => closePorts s g id) s
  let s := (loadUnits recs).foldl (fun s u => clearUnit s u none) s
  let s := (loadConvs s gr.gid recs).foldl (fun s k => modConv s k fun _ => { cfg := 0, latch := [] }) s
  modDie (freeGraph s gr.gid) fun d => { d with save := none }

/-- SAVE_COMPLETE: the image is written and the graph leaves the die, or the save is abandoned with its trap (R316, R317). -/
def execSaveComplete (s : State) :=
  match (die s).save with
  | none => machineEvent s false id
  | some v =>
    match graph? s v.gid with
    | none => machineEvent s true fun s => modDie s fun d => { d with save := none }
    | some gr =>
      machineEvent s (saveReady s gr) fun s =>
        let lines := imageLines s v.gid
        let size := 64 * (lines.length + 1)
        let id := s.images.foldl (fun m (i : SaveImage) => max m (i.id + 1)) 1
        let (s, pages, stop) := savePages s v ((lines.length + 1) / 64) 0
        let (rest, s) := fresh s
        let s := writeImage s pages lines (imageHead s gr 0 size id rest)
        match stop with
        | some c => postMgr (modDie s fun d => { d with save := none }) c.toNat 7 (lowestOf gr.mask) (BitVec.ofNat 64 v.area) 0
        | none =>
          let (s, gr) := if gr.group.state == 1 then
              let s := abortGroup s v.gid 3 0
              (s, (graph? s v.gid).getD gr)
            else (s, gr)
          let s := { s with images := s.images ++ [saveOf s gr id] }
          leaveDie (putImageLine pages s 0 (imageHead s gr 1 size id rest)) gr

/-! ### CREST (R318) -/

/-- Everything that an image needs is free. -/
def restoreFits (s : State) (i : SaveImage) : Bool :=
  (i.regions.all fun p => regionFree s p.1) && (i.units.all fun p => !unitHeld s i.graph.gid p.1) &&
    (i.convs.all fun p => !convHeld s i.graph.gid p.1) && i.streams.all fun p => stream s p.1 == Stream.idle

/-- A region as it comes back: node granules of the image over those that stand there. -/
def restoreRegion (now saved : Region) (granules : List (Nat × List Byte)) : Region :=
  { saved with
    nodes := granules.foldl (fun t k => Table.setBytes t (4096 * k.1) k.2) now.nodes
    hold := saved.hold.map fun e => { e with stores := e.stores.map fun t => { t with retry := none } } }

/-- The granules of the regions of an image, from its bytes: each region has a fixed part of 1 MiB before them (R316). -/
def granulesAt (s : State) (bs : List Byte) : Nat → List (Nat × Region) → List (Nat × Region × List (Nat × List Byte))
  | _, [] => []
  | o, p :: l =>
    let ks := imageGranules s p.2
    let first := o + 2 ^ 20
    (p.1, p.2, ks.zipIdx.map fun k => (k.1, (bs.drop (first + 4096 * k.2)).take 4096)) ::
      granulesAt s bs (first + 4096 * ks.length) l

/-- A stagehand as it comes back: a wait for a retry entry is taken up afresh. -/
def restoreCore (now saved : Core) : Core :=
  { saved with l1i := now.l1i, wait := match saved.wait with
      | .retry _ => .none
      | w => w }

/-- A graph restored from the bytes of its image, its watchdog restarted. -/
def restoreGraph (s : State) (i : SaveImage) (bs : List Byte) : State :=
  let gr := { i.graph with wdStep := 0, wdCycles := 0, wdOff := false }
  let s := modDie s fun d => { d with graphs := d.graphs ++ [gr] }
  let s := (granulesAt s bs 4096 i.regions).foldl (fun s p => modRegion s p.1 fun r => restoreRegion r p.2.1 p.2.2) s
  let s := i.cores.foldl (fun s p => modCore s p.1 fun k => restoreCore k p.2) s
  let s := i.units.foldl (fun s p => modUnit s p.1 fun _ => p.2) s
  let s := i.convs.foldl (fun s p => modConv s p.1 fun _ => p.2) s
  i.streams.foldl (fun s p => modStream s p.1 fun _ => p.2) s

/-- A fault in reading an image: SAVE_FAULT at the manager, and D is a free value (R318). -/
def crestFault (s : State) (d : Reg) (va : Nat) : State :=
  let (v, s) := fresh (postMgr s 0x50 7 0 (BitVec.ofNat 64 va) 0)
  retX s d (v.setWidth 64)

/-- CREST: the header is judged, then the whole image is read, then the graph is restored if all that it needs is free (R318). -/
def execCrest (h : Hdr) (d a : Reg) (s : State) :=
  coreWord (.crest h d a) s fun s =>
    let va := (xval s a).toNat
    if va % 4096 != 0 then .error (.trap 0x23 (BitVec.ofNat 64 va)) else
      match coreRead s va 64 0 15 0 with
      | .error _ => .ok (crestFault s d va)
      | .ok (bs, s) =>
        let head := bytesNat bs
        match s.images.find? fun i => i.id == bits head 320 64 with
        | none => .ok (retX s d 2)
        | some i =>
          if bits head 0 64 != 1 || i.step != (die s).stepping then .ok (retX s d 2)
          else match readLines s (coreAccess s) va (bits head 64 64 / 64) with
          | .error _ => .ok (crestFault s d va)
          | .ok (bs, s) => if !restoreFits s i then .ok (retX s d 1) else .ok (retX (restoreGraph s i bs) d 0)

end Sys2Proof.Machine
end

