-- ==== Sys2Proof/Machine/RetryWords.lean ====
section
/-! DEFINITION. RTYPOP and RTYW (R413 to R415): the manager completes the entries of the retry ring. -/

namespace Sys2Proof.Machine

/-- RTYPOP: the oldest open entry that no RTYPOP has returned (R414). -/
def execRtypop (h : Hdr) (d : Reg) (s : State) :=
  coreWord (.rtypop h d) s fun s =>
    match (die s).retry.find? fun r => !r.popped with
    | none => .ok (retX s d (1 <<< 63))
    | some e =>
      let s := modDie s fun q => { q with retry := q.retry.map fun r => if r.slot == e.slot then { r with popped := true } else r }
      .ok (retX s d (BitVec.ofNat 64 e.slot))

/-- The open entry of a slot. -/
def openEntry (s : State) (slot : Nat) : Option Retry := (die s).retry.find? fun r => r.slot == slot
/-- An entry closes. -/
def closeEntry (s : State) (slot : Nat) : State := withdrawRetry s fun r => r.slot == slot

/-! ### What completes at each requester -/

/-- The window of an element that a position of an iteration opened, changed. -/
def modWindow (s : State) (g e iter pos : Nat) (f : Window → Window) : State :=
  modElem s g e fun q => { q with wins := q.wins.map fun w => if w.iter == iter && w.pos == pos then f w else w }

/-- The index read of an access through a window is the one that wrote the entry. -/
def indexRead (e : Retry) (win : Option Shadow) (va : Nat) : Bool :=
  e.index && win.any fun w => indexAddr w va == e.va

/-- What RTYW gives an access that waits on the entry: its index, where that is what was supplied and the access reads it (R179). -/
def indexFor (e : Retry) (n : Option Nat) (win : Option Shadow) (va : Nat) (old : Option Nat) : Option Nat :=
  if n.isSome && indexRead e win va then n else old

/-- Supplied bytes become the data of the access that wrote the entry, the first that waits on it, or the index of those that read
it; the others that share the entry are made afresh (R179, R415, R467). (DESIGN CHOICE, log 47) -/
def supplyAccs (r : Region) (w : Window) (e : Retry) (bs : List Byte) : Bool → List Access → List Access
  | _, [] => []
  | got, a :: l =>
    if a.retry != some e.slot then a :: supplyAccs r w e bs got l
    else if e.index then
      { a with ix := indexFor e (some (bytesNat bs)) (shadowOf r a.va) a.va a.ix, retry := none } :: supplyAccs r w e bs true l
    else { a with data := if got then a.data else some (mergeHeld w.held a.va bs), retry := none } :: supplyAccs r w e bs true l

/-- The accesses of the window that a word opened. -/
def windowAccs (s : State) (g e iter pos : Nat) : List Access :=
  (((elemAt s g e).wins.find? fun w => w.iter == iter && w.pos == pos).map fun w => w.accs).getD []

/-- The accesses of a window that wait without an entry perform. -/
def refillWindow (s : State) (g e iter pos : Nat) : State :=
  match (elemAt s g e).wins.zipIdx.find? fun w => w.1.iter == iter && w.1.pos == pos with
  | none => s
  | some (w, n) =>
    let (s, accs) := fillWindow s g e w [] w.accs
    setWindow s g e n (some { w with accs := accs })

/-- The accesses of a window that wait on an entry perform, and whether one of them met a fault (R415, replay). -/
def replayWindow (s : State) (g e iter pos slot : Nat) : State × Bool :=
  let t := refillWindow (modWindow s g e iter pos fun w =>
    { w with accs := w.accs.map fun a => if a.retry == some slot then { a with retry := none } else a }) g e iter pos
  (t, ((windowAccs s g e iter pos).zip (windowAccs t g e iter pos)).any fun p => p.1.retry == some slot && p.2.fault.isSome)

/-- A held store waits on an entry no longer, and has the index that was supplied for it. -/
def wakeStore (e : Retry) (ix : Option Nat) (vline : Nat) (t : HeldStore) : HeldStore :=
  if t.retry == some e.slot then { t with retry := none, ix := indexFor e ix t.win (64 * vline + t.off) t.ix } else t

/-- The held stores that wait on an entry replayed, with the index that was supplied; and whether one faulted. -/
def replayHeld (s : State) (g : Nat) (e : Retry) (ix : Option Nat) : State × Bool :=
  let mine := ((heldStores (region s g)).filter fun t => t.retry == some e.slot).map fun t => t.seq
  let s := modRegion s g fun r => { r with hold := r.hold.map fun q => { q with stores := q.stores.map (wakeStore e ix q.vline) } }
  retryHeld s g fun t => mine.contains t.seq

/-- The AMO that waits on an entry. -/
def amoAt (s : State) (g slot : Nat) : Option AmoWait := (region s g).amoWait.find? fun a => a.retry == some slot

/-- A waiting element AMO replayed, likewise (R344). -/
def replayAmo (s : State) (g : Nat) (e : Retry) (ix : Option Nat) : State × Bool :=
  match amoAt s g e.slot with
  | none => (s, false)
  | some a =>
    let n := { a with retry := none, ix := indexFor e ix a.win a.addr a.ix }
    let t := tryAmo (putAmo s g a n) g n
    (t, ((region t g).faults.drop (region s g).faults.length).any fun f =>
      f.iter == a.iter && f.pos == a.pos && f.row == a.row && f.col == a.col)

/-- A requester that tries its access again by itself goes on. -/
def wakeRequester (s : State) (slot : Nat) : Requester → State
  | .core g => modCore s g fun k => if k.wait == .retry slot then { k with wait := .none } else k
  | .port g p => modHead s g p fun k => { k with retry := none }
  | .gather u => modUnit s u fun q => { q with rows := q.rows.map fun r => if r.retry == some slot then { r with retry := none } else r }
  | .opUnit u => modUnit s u fun q => { q with retry := none }
  | _ => s

/-- Data supplied to a requester (R415); a held line or an AMO receives the index of its shadow window (R179). -/
def supplyTo (s : State) (e : Retry) (bs : List Byte) : State :=
  match e.who with
  | .window g k iter pos =>
    let s := modWindow s g k iter pos fun w => { w with accs := supplyAccs (region s g) w e bs false w.accs }
    refillWindow s g k iter pos
  | .core g => wakeRequester (modCore s g fun k => { k with supplied := k.supplied ++ [(e.va, bs)] }) e.slot e.who
  | .port g p => wakeRequester (modHead s g p fun k => { k with supplied := k.supplied ++ [(e.va, bs)] }) e.slot e.who
  | .gather u | .opUnit u => wakeRequester (modUnit s u fun q => { q with supplied := q.supplied ++ [(e.va, bs)] }) e.slot e.who
  | .held g _ => (replayHeld s g e (some (bytesNat bs))).1
  | .amo g => (replayAmo s g e (some (bytesNat bs))).1

/-- The context in which a requester's access is translated: through the ASROOT of its issue (R275). -/
def requesterCtx (s : State) (e : Retry) : Ctx :=
  let now := match e.who with
    | .window g _ _ _ | .held g _ | .amo g => elemCtx s g
    | .core g => coreCtx s g
    | .port g p => ((port s g p).queue.head?.map fun k => (portAccess s g k).ctx).getD hardware
    | .gather u | .opUnit u => (unitAccess s u).ctx
  { now with root := e.root }

/-- Kind of an entry's access. -/
def entryAcc (e : Retry) : Acc := if e.acc == 0 then .read else if e.acc == 1 then .write else .fetch

/-- LVL of an open entry updated in the ring (Table 22-5). -/
def setLevel (s : State) (slot lvl : Nat) : State :=
  let pa := bits (die s).rtybase.toNat 15 37 * 2 ^ 15 + 32 * slot
  physWrite (physLoad s pa 32) pa (natBytes (setBits (bytesNat (physRead s pa 32)) 197 3 lvl) 32)

/-- The slot that A names. -/
def slotOfReg (s : State) (a : Reg) : Except Stop Nat :=
  if 1024 ≤ (xval s a).toNat then .error (.trap 0x01 0) else .ok (xval s a).toNat

/-- RTYW, supply (R415). -/
def execRtywSupply (h : Hdr) (d a b : Reg) (s : State) :=
  coreWord (.rtywSupply h d a b) s fun s =>
    match slotOfReg s a with
    | .error e => .error e
    | .ok slot =>
      match openEntry s slot with
      | none => .ok (retX s d 2)
      | some e =>
        if e.acc == 1 then .error (.trap 0x01 0) else
          match coreRead s (xval s b).toNat 64 0 15 0 with
          | .error f => .error f
          | .ok (bs, s) => .ok (retX (closeEntry (supplyTo s e (bs.take e.size)) slot) d 0)

/-- RTYW, replay (R415): an element's access performs at once; that of a core, a port or a unit as that requester makes it,
and the manager waits for it. -/
def execRtywReplay (h : Hdr) (d a b : Reg) (s : State) :=
  coreWord (.rtywReplay h d a b) s fun s =>
    match slotOfReg s a with
    | .error e => .error e
    | .ok slot =>
      match openEntry s slot with
      | none => .ok (retX s d 2)
      | some e =>
        let (s, r) := translate s (requesterCtx s e) (entryAcc e) e.va
        match r with
        | .error (.page lvl) => .ok (retX (setLevel s slot lvl) d 1)
        | _ =>
          let s := closeEntry s slot
          let done := fun (r : State × Bool) => .ok (retX r.1 d (if r.2 then 3 else 0))
          match e.who with
          | .window g k iter pos => done (replayWindow s g k iter pos slot)
          | .held g _ => done (replayHeld s g e none)
          | .amo g => done (replayAmo s g e none)
          | _ => .ok (modCore s (myCore s) fun k => { k with wait := .rtyw d e })

end Sys2Proof.Machine
end

