-- ==== Sys2Proof/Machine/Arrive.lean ====
section
/-! DEFINITION. The events of a region in time: windows that fill and close (R47, R48, R129), the limit of a freeze (R50), the end of an
invocation (R43), and the arrivals over the scheduled network (R354, R431, R469). -/

namespace Sys2Proof.Machine

/-! ### Windows -/

/-- Window `w` of element `e` of region `g`. -/
def windowAt (s : State) (g e w : Nat) : Option Window := (elemAt s g e).wins[w]?

/-- The data of a window arrive. -/
def arriveWindow (s : State) (g e n : Nat) (w : Window) : State :=
  let (s, accs) := fillWindow s g e w [] w.accs
  setWindow s g e n (some { w with accs := accs })

/-- WINDOW_DATA_ARRIVAL (R47); an access that R285 puts before one of the window's performs with it. (DESIGN CHOICE, log 8) -/
def execWindowDataArrival (g e w : Nat) (s : State) :=
  match windowAt s g e w with
  | none => event (.windowDataArrival g e w) s false id
  | some q =>
    event (.windowDataArrival g e w) s (!windowFull q && ((region s g).state == 1 || (region s g).state == 2)) fun s =>
      arriveWindow s g e w q

/-- WINDOW_CLOSE (R48, R129). -/
def execWindowClose (g e w : Nat) (s : State) :=
  match windowAt s g e w with
  | none => event (.windowClose g e w) s false id
  | some q =>
    event (.windowClose g e w) s (windowDue (region s g) q && isRunning (region s g)) fun s => closeWindow s g e w q

/-! ### The limit of a freeze (R50) -/

/-- FRZLIM has passed since a cycle. -/
def limitPassed (s : State) (g : Nat) (start : Option Nat) : Bool :=
  let lim := bits (region s g).frzlim.toNat 0 32
  lim != 0 && start.any fun t => decide (t + lim ≤ s.clock)

/-- Every region of a freeze group has done its part of the cycle, or is frozen. -/
def groupSettled (s : State) (n : Nat) : Bool :=
  (groupRegions s n).all fun g => (region s g).state == 2 || (region s g).cursor == 129

/-- The faults of a region that a freeze limit finds: those of the windows that hold it in its freeze, and those that replays have
met (R50, R51). -/
def freezeFaults (r : Region) : List FaultRec :=
  (List.range 128).flatMap fun k => (vget Element.reset r.elems k).wins.filterMap fun w =>
    if !decide (w.close ≤ r.rc) || w.closed then none
    else match windowFault w with
      | some c => some ⟨w.iter, k / 16, k % 16, w.pos, c, 0⟩
      | none => if windowPaged w then some ⟨w.iter, k / 16, k % 16, w.pos, 0x10, 3⟩ else none

/-- The store or AMO whose retry entry delays the end of a region's invocation: of several, the one that R51 reports. -/
def delayFault (r : Region) : Option FaultRec :=
  let stores := ((heldStores r).filter fun t => t.xlat.isNone).map fun t => ⟨t.iter, t.row, t.col, t.pos, 0x10, 3⟩
  reported (stores ++ r.amoWait.map fun a => ⟨a.iter, a.row, a.col, a.pos, 0x10, 3⟩)

/-- The retry entries of a region's stores and AMOs are withdrawn; those that stand after the discard ask again. -/
def withdrawStores (s : State) (g : Nat) : State :=
  let s := withdrawRetry s fun q => isHeldOf g q.who || isAmoOf g q.who
  let stands := fun (a : AmoWait) => (region s g).inv.any fun v => decide (a.iter < v.first) || decide (a.pos + 1 < v.marks.get 0 a.iter)
  modRegion s g fun r =>
    { r with
      hold := r.hold.map fun e => { e with stores := e.stores.map fun t => { t with retry := none } }
      amoWait := (r.amoWait.filter stands).map fun a => { a with retry := none } }

/-- The limit of region `g` is reached in a freeze, and in a delay of its end, which goes on through a freeze of its group (R50). -/
def freezeDue (s : State) (g : Nat) : Bool :=
  (region s g).state == 2 && limitPassed s g (region s g).freezeStart &&
    (groupRegions s (region s g).group).any fun g => mustFreeze (region s g)
def delayDue (s : State) (g : Nat) : Bool :=
  let r := region s g
  (r.state == 1 || r.state == 2) && limitPassed s g r.endStart && wordsDone r && !storesDone r

/-- The limit of region `g` is reached: its freeze group is discarded. -/
def freezeLimit (s : State) (g : Nat) : State :=
  let n := (region s g).group
  let delay := delayDue s g
  let s := if !freezeDue s g then s else
    (groupRegions s n).foldl (fun s g => modRegion s g fun r => { r with faults := r.faults ++ freezeFaults r }) s
  let late := if delay then delayFault (region s g) else none
  let s := discardGroup (modRegion s g fun r => { r with faults := r.faults ++ late.toList }) n
  if delay then withdrawStores s g else s

/-- The limit of region `g` is reached in a freeze, or in a delay of its end. -/
def limitDue (s : State) (g : Nat) : Bool :=
  groupSettled s (region s g).group && (freezeDue s g || delayDue s g)

/-- FREEZE_LIMIT. -/
def execFreezeLimit (g : Nat) (s : State) := event (.freezeLimit g) s (limitDue s g) fun s => freezeLimit s g

/-! ### The end of an invocation (R43) -/

/-- INVOCATION_END. -/
def execInvocationEnd (g : Nat) (s : State) :=
  let r := region s g
  event (.invocationEnd g) s (isRunning r && r.cursor == 0 && wordsDone r && storesDone r && r.faults.isEmpty) fun s => endInvocation s g s.clock

/-! ### Arrivals -/

/-- The beats of a remote BUFPUT that a full place turns away: every beat of its word goes. -/
def turnAway (s : State) (g : Nat) (b : RemoteBeat) : State :=
  modRegion s g fun r =>
    { r with
      beats := r.beats.filter fun q => !(q.iter == b.iter && q.pos == b.pos && q.row == b.row)
      faults := r.faults ++ [⟨b.iter, b.row, b.col, b.pos, 0x10, 1⟩] }

/-- The place that a beat reaches is full. -/
def placeFull (s : State) (b : RemoteBeat) : Bool :=
  (bufAt (region s b.g) b.buf).any fun q => isFull q (vget 0 q.putIx b.col)

/-- A beat that region `g` has sent reaches the buffer's node; column 0's tests the place, as it stood in `s0` at the start of the
cycle (R156, R354). -/
def arriveBeat (s0 s : State) (g : Nat) (b : RemoteBeat) : State :=
  let s' := modRegion s g fun r => { r with beats := r.beats.erase b }
  match bufAt (region s b.g) b.buf with
  | none => s'
  | some q =>
    let place := vget 0 q.putIx b.col
    if b.col == 0 && placeFull s0 b then turnAway s g b
    else modRegion s' b.g fun r => landBeat r b.buf place b.off b.col b.data b.last b.wm

/-- The first beat of a region that arrives in this cycle; none from a frozen region. -/
def dueBeat (s : State) (g : Nat) : Option RemoteBeat :=
  if (region s g).state == 2 then none else (region s g).beats.find? fun b => b.left == 0

/-- No running region of the focused die has begun its cycle, in which the arrivals of the cycle before count. -/
def betweenCycles (s : State) : Bool := (die s).regions.toList.all fun r => !isRunning r || r.cursor == 0

/-- REMOTE_BUFPUT_ARRIVAL: region `g` is the one that sent the beat. -/
def execRemoteBufputArrival (g : Nat) (s : State) :=
  match dueBeat s g with
  | none => event (.remoteBufputArrival g) s false id
  | some b => event (.remoteBufputArrival g) s (betweenCycles s) fun s => arriveBeat s s g b

/-- Channel `ch` of graph `gr`, with its oldest value when its way is over. -/
def dueValue (s : State) (gr ch : Nat) : Option (Chan × Nat × Line × Nat × Nat) :=
  ((graph? s gr).bind fun g => chanFind g ch).bind fun c =>
    match c.flight with
    | f :: _ => if f.1 == 0 && (c.prod.sh || (region s c.prod.g).state != 2) then some (c, f) else none
    | [] => none

/-- A value reaches its queue of four, tested as it stands at the start of the cycle; with no place free the producing
region faults at the position of the word (R431, R469). -/
def arriveValue (s : State) (gr : Nat) (c : Chan) (f : Nat × Line × Nat × Nat) : State :=
  let mod := fun (g : Chan → Chan) => modGraph s gr fun q => { q with chans := q.chans.map fun k => if k.ch == c.ch then g k else k }
  if 4 ≤ c.queue.length then
    modRegion (mod fun k => { k with flight := k.flight.drop 1 }) c.prod.g fun r =>
      { r with faults := r.faults ++ [⟨f.2.2.1, c.prod.row, 15, f.2.2.2, 0x10, 1⟩] }
  else mod fun k => { k with flight := k.flight.drop 1, queue := k.queue ++ [f.2.1] }

/-- SCALAR_CHANNEL_ARRIVAL: channels 16 to 47. -/
def execScalarChannelArrival (gr ch : Nat) (s : State) :=
  match dueValue s gr ch with
  | none => event (.scalarChannelArrival gr ch) s false id
  | some (c, f) =>
    event (.scalarChannelArrival gr ch) s (decide (16 ≤ ch) && betweenCycles s) fun s => arriveValue s gr c f

/-- VECTOR_CHANNEL_ARRIVAL: channels 0 to 15. -/
def execVectorChannelArrival (gr ch : Nat) (s : State) :=
  match dueValue s gr ch with
  | none => event (.vectorChannelArrival gr ch) s false id
  | some (c, f) =>
    event (.vectorChannelArrival gr ch) s (decide (ch < 16) && betweenCycles s) fun s => arriveValue s gr c f

/-! ### A cycle's arrivals -/

/-- The beats of a region that arrive in this cycle, which began as `s0`. -/
def beatsIn (s0 : State) : Nat → State → Nat → State
  | 0, s, _ => s
  | n + 1, s, g =>
    match dueBeat s g with
    | none => s
    | some b => beatsIn s0 n (arriveBeat s0 s g b) g

/-- The values of a channel that arrive in this cycle. -/
def valuesIn : Nat → State → Nat → Nat → State
  | 0, s, _, _ => s
  | n + 1, s, gr, ch =>
    match dueValue s gr ch with
    | none => s
    | some (c, f) => valuesIn n (arriveValue s gr c f) gr ch

/-- What arrives at the end of a cycle that began as `s0`: the beats of remote BUFPUTs, which the next cycle sees, and the values of channels, which
are there as that cycle starts (R354, R408, R431, R469). -/
def arrivals (s0 s : State) : State :=
  let s := (List.range 32).foldl (fun s g => beatsIn s0 ((region s g).beats.length) s g) s
  (die s).graphs.foldl (fun s gr => gr.chans.foldl (fun s c => valuesIn c.flight.length s gr.gid c.ch) s) s

/-- The network moves on by a cycle: everything in flight from a region that is not frozen comes one hop nearer. (DESIGN CHOICE, log 28) -/
def networkStep (s : State) : State :=
  let moves := fun (p : Party) => p.sh || (region s p.g).state != 2
  let step := fun (c : Chan) =>
    { c with flight := if moves c.prod then c.flight.map fun f => (f.1 - 1, f.2) else c.flight }
  let beat := fun (r : Region) => if r.state == 2 || r.beats.isEmpty then r else
    { r with beats := r.beats.map fun b => { b with left := b.left - 1 } }
  modDie s fun d =>
    { d with
      regions := d.regions.map beat
      graphs := d.graphs.map fun g => { g with chans := g.chans.map step } }

end Sys2Proof.Machine
end

