-- ==== Sys2Proof/Machine/Events.lean ====
section
/-! DEFINITION. What comes from outside the compute dies: faults and power (R312, R333, R334), bring-up and attestation (R330 to R332),
hosts and peers (R294, R301, R326, R327, R479), the Brunex links (R181, R182), and the clock master (R329); and the two operations of
the hardware that stand inside an access, taken by themselves: a page-table walk (R277) and a block operation of the codec (R267). -/

namespace Sys2Proof.Machine

/-! ### The fatal state, power and temperature -/

/-- SOFT_ERROR (R312). -/
def execSoftError (s : State) := machineEvent s true fun s => enterFatal s 1
/-- POWER_FATAL and TEMPERATURE_FATAL (R333). -/
def execPowerFatal (n : Nat) (s : State) := machineEvent s (decide (n < 24)) fun s => enterFatal s 2
def execTemperatureFatal (n : Nat) (s : State) := machineEvent s (decide (n < 24)) fun s => enterFatal s 3
/-- Lines of a dump area: the top 2^30 bytes of a die's HBM (R334). -/
def dumpLines : Nat := 2 ^ 24

/-- The line of the dump of die `n` at a place in its area. -/
def dumpLine (n k : Nat) : Nat := n * 2 ^ 32 + dumpBase / 64 + k

/-- Firmware writes the dump of each die into its area, encrypted under the dump key, the 256th of the store (R312, R330, R334): as many
lines as it takes, whose layout the spec leaves open. (DESIGN CHOICE, log 58) -/
def writeDump (s : State) : State :=
  let count := (Config.freeValue s.free).toNat % (dumpLines + 1)
  let put := fun (m : List Host.Cell) (n k : Nat) =>
    Table.setBytes m (64 * dumpLine n k)
      (encryptUnit s 0 (dumpLine n k) (lineBytes (Config.freeValue (s.free + 1 + n * dumpLines + k))))
  { s with
    mem := (List.range 24).foldl (fun m n => (List.range count).foldl (fun m k => put m n k) m) s.mem
    free := s.free + 1 + 24 * dumpLines
    dump := s.dies.toList }

/-- FATAL_DUMP_DONE: firmware has written the dump of every die, and sets FSTAT bit 1 (R312, R334). -/
def execFatalDumpDone (s : State) :=
  machineEvent s s.io.fatal fun s => writeDump { s with io := { s.io with dumped := true } }
/-- POWER_AVERAGE_HIGH and POWER_AVERAGE_NORMAL (R333). -/
def execPowerAverageHigh (n : Nat) (s : State) := machineEvent s (decide (n < 24)) fun s => modDieAt s n fun d => { d with hot := true }
def execPowerAverageNormal (n : Nat) (s : State) := machineEvent s (decide (n < 24)) fun s => modDieAt s n fun d => { d with hot := false }

/-! ### Reset, bring-up and attestation -/

/-- POWER_ON_RESET: the state after reset; what is still to come from outside stays. -/
def execPowerOnReset (s : State) :=
  machineEvent s true fun s => { State.reset with agenda := s.agenda, focus := s.focus, free := s.free }

/-- A measurement register extended by the free digest of number `n`: SHA3-256 of the register and the digest (R331, PRESUMED, log 66). -/
def extend (m : BitVec 256) (n : Nat) : BitVec 256 :=
  sha3 (natBytes m.toNat 32 ++ natBytes ((Config.freeValue n).toNat % 2 ^ 256) 32)

/-- The root of trust and firmware have brought the module up: measurements extended, keys loaded, nodes and L2 cleared, launch queues
at reset, READY (R330, R331, R332). -/
def bringUp (s : State) : State :=
  { s with
    l2 := []
    free := s.free + 264
    dies := s.dies.map fun d =>
      { d with
        queues := Vector.replicate 64 Queue.reset
        regions := d.regions.map fun r => { r with nodes := [] } }
    io := { s.io with
      ready := true
      booted := true
      keys := Vector.ofFn fun i => Config.freeValue (s.free + 8 + i.val)
      meas := s.io.meas.zipIdx.map fun m => extend m.1 (s.free + m.2) } }

/-- BRING_UP_COMPLETE, of a firmware image whose signature verifies; another does not run (R331, R332). (DESIGN CHOICE, log 65) -/
def execBringUpComplete (s : State) :=
  machineEvent s (!s.io.ready && !s.io.fatal) fun s =>
    if Config.firmwareVerifies s.free then bringUp { s with free := s.free + 1 } else { s with free := s.free + 1 }

/-- ATTESTATION_REQUEST: while a report is in progress the answer is busy, and nothing else changes (R331). -/
def requestReport (s : State) (nonce : BitVec 256) : State :=
  if s.io.nonce.isSome then { s with io := { s.io with busy := true } }
  else { s with io := { s.io with nonce := some nonce, busy := false } }
def execAttestationRequest (nonce : BitVec 256) (s : State) := machineEvent s true fun s => requestReport s nonce

/-- What a report says: M0 to M7, the nonce, IDENT STEP of each die and the module serial, in this order (R331). (DESIGN CHOICE, log 79) -/
def reportFields (s : State) (nonce : BitVec 256) : List Byte :=
  (s.io.meas.flatMap fun m => natBytes m.toNat 32) ++ natBytes nonce.toNat 32 ++ (s.dies.toList.map fun d => d.stepping.setWidth 8) ++
    Config.serial

/-- ATTESTATION_REPORT: the fields, and their signature with the identity key (R331). -/
def execAttestationReport (s : State) :=
  match s.io.nonce with
  | none => machineEvent s false id
  | some nonce =>
    machineEvent s true fun s =>
      { s with io := { s.io with report := reportFields s nonce ++ Config.sign (reportFields s nonce), nonce := none, busy := false } }

/-! ### Hosts and peers -/

/-- A write of bytes in one line by a host or a peer, which comes from its I/O die (R12, R28): its attributes by the external walk; a
block that would hold a NaN or an infinity is left unchanged and counted (R268, R479). -/
def externalLine (s : State) (io pa : Nat) (data : List Byte) : State :=
  if !reachable pa data.length then s else
    let n := homeDie (pa / 64)
    if place pa != .hbm then performBytes s pa ⟨0, 0, false⟩ data 0 io 33 true else
      let s := sendPacket s io n .request data
      let (s, a) := externalAttr s pa
      if a.codec != 0 && nonFinite (data.zipIdx.map fun p => (pa % 64 + p.2, p.1)) then
        modDieAt s n fun d => { d with codec := vmod d.codec 33 fun c => { c with cnonf := c.cnonf + 1 } }
      else performBytes s pa a data 0 n 33 true

/-- Bytes written by a host or a peer, line by line. -/
def externalWrite (s : State) (io pa : Nat) (data : List Byte) : State :=
  (splitLines pa data).foldl (fun s p => match p.2 with
    | [] => s
    | b :: _ => externalLine s io (64 * p.1 + b.1) (p.2.map fun b => b.2)) s

/-- Bytes read by a host or a peer, in one line, at their home. -/
def externalReadLine (s : State) (io pa n : Nat) : List Byte × State :=
  if !reachable pa n then ([], s) else
    let (s, a) := if place pa == .hbm then externalAttr s pa else (s, ⟨0, 0, false⟩)
    let home := if systemDie pa < 24 then systemDie pa else s.cur.val
    let (bs, t) := readPlace { s with cur := Fin.ofNat 24 home }
      { mtlb := noTlb, root := 0, user := false, gid := none, capture := false, counter := 33 } ⟨pa, a.codec, a.key, a.dedup⟩ n 0
    (bs, sendRead { t with cur := s.cur } io (systemDie pa) bs)

/-- Bytes read by a host or a peer, line by line, each performed at its home. -/
def externalRead (s : State) (io pa n : Nat) : List Byte × State :=
  (splitLines pa (List.replicate n 0)).foldl (fun acc p => match p.2 with
    | [] => acc
    | b :: _ =>
      let (bs, s) := externalReadLine acc.2 io (64 * p.1 + b.1) p.2.length
      (acc.1 ++ bs, s)) ([], s)

/-- What a host link reaches: HBM through BAR2 and CXL.mem, the register block through BAR0 (R325). (DESIGN CHOICE, log 57) -/
def hostReaches (pa len : Nat) : Bool :=
  decide (pa + len ≤ 2 ^ 43) || (decide (0x0001000000000000 ≤ pa) && decide (pa + len ≤ 0x0001000000182000))

/-- HOST_WRITE (R294): 32 bytes written to the mailbox are the nonce of a request (R331), and any other write there is kept;
a write to a launch register is one access (R301). -/
def execHostWrite (link addr : Nat) (data : List (BitVec 8)) (s : State) :=
  machineEvent s (decide (link < 2) && hostReaches addr data.length) fun s =>
    match place addr with
    | .mailbox => if data.length == 32 then requestReport s (BitVec.ofNat 256 (bytesNat data))
      else externalWrite s (ioOfHost link) addr data
    | .launch _ _ => performBytes s addr ⟨0, 0, false⟩ data 0 (ioOfHost link) 33 true
    | _ => externalWrite s (ioOfHost link) addr data

/-- HOST_READ (R294): the value is returned over the link. -/
def execHostRead (link addr len : Nat) (s : State) :=
  machineEvent s (decide (link < 2) && hostReaches addr len) fun s =>
    let (bs, s) := externalRead s (ioOfHost link) addr len
    { s with io := { s.io with reads := s.io.reads ++ [(link, bs)] } }

/-- HOST_LAUNCH_WRITE: a host's or a peer's write of `len` bytes to the launch register of queue `q`, which comes from an I/O die, here
that of host link 0 (R28, R301, DESIGN CHOICE, log 55). -/
def execHostLaunchWrite (q len : Nat) (data : BitVec 512) (s : State) :=
  machineEvent s (decide (q < 64)) fun s =>
    launchWrite (sendPacket s (ioOfHost 0) s.cur.val .request ((lineBytes data).take len)) s.cur.val q len data

/-- PEER_WRITE: the next frame of its port performs once; a repeated frame is not performed again, and a repeated frame or
a gap empties the port's caches (R326, R327). -/
def execPeerWrite (port_ seq addr : Nat) (data : List (BitVec 8)) (s : State) :=
  machineEvent s (decide (port_ < 48) && decide (addr + data.length ≤ 2 ^ 43)) fun s =>
    if seq == (ethAt s port_).inSeq then
      let (e, bs) := receiveFrame (ethAt s port_) data
      externalWrite (modEth s port_ fun _ => e) (ioOfPort port_) addr bs
    else clearEthernet s port_

/-- PEER_READ (R326): the value is returned to the peer of the port. -/
def execPeerRead (port_ addr len : Nat) (s : State) :=
  machineEvent s (decide (port_ < 48) && decide (addr + len ≤ 2 ^ 43)) fun s =>
    let (bs, s) := externalRead s (ioOfPort port_) addr len
    let s := sendAnswer s port_ addr bs
    { s with io := { s.io with reads := s.io.reads ++ [(2 + port_, bs)] } }

/-- ETHERNET_LINK_EVENT (R327). -/
def execEthernetLinkEvent (port_ : Nat) (s : State) := machineEvent s (decide (port_ < 48)) fun s => clearEthernet s port_

/-! ### Brunex and time -/

/-- BRUNEX_PACKET_ARRIVAL: channel `link` % 4 of link `link` / 4 (R13, R181). -/
def execBrunexPacketArrival (link : Nat) (s : State) := machineEvent s (decide (link < 432)) fun s => arrivePacket s link
/-- LINK_RETRAIN (R182). -/
def execLinkRetrain (link : Nat) (s : State) := machineEvent s (decide (link < 108)) fun s => retrainLink s link

/-- PTP_EVENT_TIMESTAMP: the port's reading of its I/O die's clock is kept, for a message in or out, one-step or two-step; and the master,
with every clock that follows it, is disciplined by slewing, by at most 500 ppm either way, each a free value (R329).
(DESIGN CHOICE, log 56) -/
def execPtpEventTimestamp (port_ : Nat) (s : State) :=
  machineEvent s (decide (port_ < 48)) fun s =>
    let (v, s) := fresh s
    let slew : Int := (v.toNat % 11 : Nat) - 5
    { s with
      io := { s.io with
        stamps := s.io.stamps ++ [⟨port_, vget 0 s.io.phcs (port_ / 12), v.getLsbD 8, v.getLsbD 9⟩]
        slew := slew }
      dies := s.dies.map fun d => { d with slew := slew } }

/-! ### Parts of an access -/

/-- PAGE_TABLE_WALK: a walker completes a translation into the caches; a fault is the access's (R277, R279). (DESIGN CHOICE, log 59) -/
def execPageTableWalk (root va : BitVec 64) (s : State) :=
  machineEvent s (decide (va.toNat < 2 ^ 57)) fun s => (findLeaf s noTlb root (leafPlaced va.toNat) va.toNat).1

/-- CODEC_BLOCK_OPERATION: a write of bytes that reaches a line of a coded region, for the counter set of a party: merged,
encoded and decoded at the home as one operation (R267). -/
def execCodecBlockOperation (addr codec key party : Nat) (data : List (BitVec 8)) (s : State) :=
  let lies := place addr == .hbm && data.length != 0 && decide (addr % 64 + data.length ≤ 64)
  let coded := codec != 0 && decide (codec < 7) && decide (key < 256) && decide (party < 34)
  let finite := !nonFinite (data.zipIdx.map fun p => (addr % 64 + p.2, p.1))
  machineEvent s (lies && coded && finite) fun s =>
    performLine s (addr / 64) ⟨codec, key, false⟩ (data.zipIdx.map fun p => (addr % 64 + p.2, p.1)) 0 s.cur.val party (party == 33)

end Sys2Proof.Machine
end

