-- ==== Sys2Proof/Machine/Float.lean ====
section
/-! DEFINITION. The floating scalar words, format FS (R337). -/

namespace Sys2Proof.Machine

/-- A FLOATING WORD: its result and its flags from its scalar operands and its draw; under RSTO an element draws
with lane 0 and a core draws once (R337). -/
def floatWord (i : Instr) (d : Reg) (rm : BitVec 3) (f : (w : Nat) → (Reg → BitVec w) → Nat → BitVec w × Flags)
    (s : State) : Host.Outcome State Fault Refusal :=
  word i s
    (fun s => let r := f 32 (eScalar s) (myDraw s 0); .ok (s, [.scalar d r.1, .flags r.2]))
    (fun s => let r := f 64 (xval s) (myCoreDraw s); .ok (retX (setCoreFlags (countDraw s rm) r.2) d r.1))

/-- as(v, t): the value of the low bits of a register as a format (R335). -/
def fsVal {w : Nat} (ty : BitVec 4) (v : BitVec w) : FVal := (fmtOf ty).value (bits v.toNat 0 (fmtOf ty).width)

/-- An exact value rounded once, zero-extended, with the flags of the operation and of the rounding. -/
def fsRound (w : Nat) (ty : BitVec 4) (rm : BitVec 3) (draw : Nat) (v : FVal × Flags) : BitVec w × Flags :=
  let r := (fmtOf ty).round rm draw v.1
  (BitVec.ofNat w r.1, v.2 ||| r.2)

def execFadd (h : Hdr) (d a b : Reg) (ty : BitVec 4) (rm : BitVec 3) (s : State) :=
  floatWord (.fadd h d a b ty rm) d rm
    (fun w r draw => fsRound w ty rm draw (addV rm (fsVal ty (r a)) (fsVal ty (r b)))) s
def execFsub (h : Hdr) (d a b : Reg) (ty : BitVec 4) (rm : BitVec 3) (s : State) :=
  floatWord (.fsub h d a b ty rm) d rm
    (fun w r draw => fsRound w ty rm draw (addV rm (fsVal ty (r a)) (fsVal ty (r b)).neg)) s
def execFmul (h : Hdr) (d a b : Reg) (ty : BitVec 4) (rm : BitVec 3) (s : State) :=
  floatWord (.fmul h d a b ty rm) d rm
    (fun w r draw => fsRound w ty rm draw (mulV (fsVal ty (r a)) (fsVal ty (r b)))) s
def execFdiv (h : Hdr) (d a b : Reg) (ty : BitVec 4) (rm : BitVec 3) (s : State) :=
  floatWord (.fdiv h d a b ty rm) d rm
    (fun w r draw => fsRound w ty rm draw (divV (fsVal ty (r a)) (fsVal ty (r b)))) s
def execFfma (h : Hdr) (d a b c : Reg) (ty : BitVec 4) (rm : BitVec 3) (s : State) :=
  floatWord (.ffma h d a b c ty rm) d rm
    (fun w r draw => fsRound w ty rm draw (fmaV rm (fsVal ty (r a)) (fsVal ty (r b)) (fsVal ty (r c)))) s
def execFsqrt (h : Hdr) (d a : Reg) (ty : BitVec 4) (rm : BitVec 3) (s : State) :=
  floatWord (.fsqrt h d a ty rm) d rm
    (fun w r draw => let v := (fmtOf ty).sqrt rm draw (fsVal ty (r a)); (BitVec.ofNat w v.1, v.2)) s
def execFmin (h : Hdr) (d a b : Reg) (ty : BitVec 4) (s : State) :=
  floatWord (.fmin h d a b ty) d 0
    (fun w r _ => fsRound w ty 0 0 (minmaxV false (fsVal ty (r a)) (fsVal ty (r b)))) s
def execFmax (h : Hdr) (d a b : Reg) (ty : BitVec 4) (s : State) :=
  floatWord (.fmax h d a b ty) d 0
    (fun w r _ => fsRound w ty 0 0 (minmaxV true (fsVal ty (r a)) (fsVal ty (r b)))) s
def execFsetc (h : Hdr) (d a b : Reg) (ty : BitVec 4) (cc : BitVec 3) (s : State) :=
  floatWord (.fsetc h d a b ty cc) d 0
    (fun _ r _ => let v := compareV cc (fsVal ty (r a)) (fsVal ty (r b)); (ofBool v.1, v.2)) s
/-- FCVT: a result into an integer tag is sign-extended to XLEN (R365, R366). -/
def execFcvt (h : Hdr) (d a : Reg) (ty : BitVec 4) (rm : BitVec 3) (tty : BitVec 4) (s : State) :=
  floatWord (.fcvt h d a ty rm tty) d rm
    (fun w r draw =>
      let v := convertTag ty tty rm draw (r a).toNat
      (if intTag tty then BitVec.ofInt w (sInt (laneBits tty) v.1) else BitVec.ofNat w v.1, v.2)) s
def execFclass (h : Hdr) (d a : Reg) (ty : BitVec 4) (s : State) :=
  floatWord (.fclass h d a ty) d 0
    (fun w r _ => (BitVec.ofNat w (classOf (fmtOf ty) (bits (r a).toNat 0 (fmtOf ty).width)), 0)) s

end Sys2Proof.Machine
end

