-- ==== Sys2Proof/Machine/Gen.lean ====
section
/-! DEFINITION. The generation loop: the top-K chain (R222 to R225), the sampler (R226 to R229), typical acceptance (R230),
product-key lookup (R233, R234), grammar masking (R235 to R237), and their instructions (R238, R239). -/

namespace Sys2Proof.Machine

/-- Minus infinity and the largest finite FP32 value. -/
def negInf : F32 := 0xFF800000
def maxFinite : F32 := 0x7F7FFFFF

/-! ### Candidates -/

/-- `a` ranks above `b`: the larger logit, then the lower token id. -/
def ranksAbove (a b : Cand) : Bool :=
  f32Lt b.l a.l || (!f32Lt a.l b.l && decide (a.id.toNat < b.id.toNat))

/-- A candidate put into a list in rank order. -/
def rankInsert (a : Cand) : List Cand → List Cand
  | [] => [a]
  | b :: l => if ranksAbove a b then a :: b :: l else b :: rankInsert a l
/-- Candidates in rank order. -/
def rankSort (l : List Cand) : List Cand := l.foldl (fun acc a => rankInsert a acc) []

/-- The slots of a candidate beat that are not empty (Table 13-3). -/
def beatCands (l : Line) : List Cand :=
  ((List.range 8).map fun n => (⟨BitVec.ofNat 24 (bits l.toNat (64 * n + 32) 24), BitVec.ofNat 32 (bits l.toNat (64 * n) 32)⟩ : Cand)).filter
    fun c => c.id != 0xFFFFFF

/-- A beat of up to eight slots; `fill` is the value of an empty slot's low half. -/
def slotBeat (fill : F32) (l : List Cand) : Line :=
  BitVec.ofNat 512 <| packLanes 64 <| (List.range 8).map fun n =>
    let c := nth ⟨0xFFFFFF, fill⟩ l n
    c.l.toNat + 2 ^ 32 * c.id.toNat

/-- Candidates as beats, eight slots each; `least` beats at least. -/
def candBeats (fill : F32) (least : Nat) (l : List Cand) : List Line :=
  (List.range (max least ((l.length + 7) / 8))).map fun k => slotBeat fill ((l.drop (8 * k)).take 8)

/-! ### CASCELL -/

/-- Fields of ROLE (Table 13-2). -/
def cellHead (s : State) (u : Nat) : Bool := (upar s u 4).testBit 0
def cellLast (s : State) (u : Nat) : Bool := (upar s u 4).testBit 1
def cellHdr (s : State) (u : Nat) : Bool := (upar s u 4).testBit 2

/-- The phase of a cell: only a head with HDR waits for a header. -/
def cellPhase (s : State) (u : Nat) : Phase :=
  match (opUnit s u).phase with
  | .header => if cellHead s u && cellHdr s u then .header else .collect
  | p => p

/-- A logit as the head takes it (R224). -/
def cleanLogit (v : F32) : F32 :=
  match v.val with
  | .nan _ => negInf
  | .inf false => maxFinite
  | _ => v

/-- The running maximum and sum after the logits of a beat (R224). -/
def runningSum (mx sum : F32) (ls : List F32) : F32 × F32 :=
  let bm := ls.foldl f32Max negInf
  let sum := if f32Lt mx bm then f32Mul 0 sum (f32Exp 0 (f32Sub 0 mx bm)) else sum
  let mx := if f32Lt mx bm then bm else mx
  let es := (List.range 16).map fun n =>
    let l := nth negInf ls n
    if l == negInf then .fin 0 false else (f32Exp 0 (f32Sub 0 l mx)).val
  (mx, f32Add 0 sum (sum32 0 es))

/-- A marker: an end marker or a terminator (R225). -/
def marker : Token := scalarTok 11 0
/-- The token is a marker. -/
def isMarker (t : Token) : Bool := !t.vec && t.tag == 11 && bits t.data.toNat 0 32 == 0

/-- The summary beat (R225). -/
def summaryBeat (q : OpUnit) : Token :=
  beatTok 15 (BitVec.ofNat 512 (q.mx.toNat + 2 ^ 32 * q.sum.toNat + 2 ^ 64 * q.fid.toNat + (if q.forced then 2 ^ 95 else 0)))

/-- A cell at the beginning of a step (R225). -/
def cellReset (q : OpUnit) : OpUnit :=
  { q with phase := .header, cells := [], count := 0, mx := negInf, sum := 0, forced := false, fid := 0 }

/-- The end of the collect phase: what the cell emits after its spill, and the cell after it (R225). -/
def cellEnd (head last : Bool) (q : OpUnit) : List (Nat × Token) × OpUnit :=
  let out := (if last then [] else [(0, marker)]) ++
    (candBeats negInf 2 q.cells).map (fun l => (1, beatTok 15 l)) ++
    (if last && head then [(1, summaryBeat q)] else if last then [(1, marker)] else [])
  (out, if last then cellReset q else { q with phase := .drain })

/-- Candidates merged into the held list: the 16 that rank highest stay, and the rest are displaced (R224). -/
def cellMerge (q : OpUnit) (l : List Cand) : OpUnit × List Cand :=
  let all := l.foldl (fun acc a => rankInsert a acc) q.cells
  ({ q with cells := all.take 16 }, all.drop 16)

/-- What a cell displaces, on its way east. -/
def spill (last : Bool) (l : List Cand) : List (Nat × Token) :=
  if last then [] else (candBeats negInf 0 l).map fun b => (0, beatTok 15 b)

/-- CASCELL_HEADER: the head takes FID and FORCED (R225); RRP moves past the port that a firing serves (R165). -/
def execCascellHeader (u : Nat) (s : State) :=
  firing (.cascellHeader u) s u .cascell (cellPhase s u == .header && !(inPort s u 0).isEmpty) fun s =>
    match inPort s u 0 with
    | [] => .error .hold
    | t :: l =>
      if !t.vec || t.tag != 15 then .error (.trap 0x01 0) else
        .ok (modUnit (setIn s u 0 l) u fun q =>
          { q with phase := .collect, rrp := 1, fid := BitVec.ofNat 24 (bits t.data.toNat 0 24), forced := t.data.toNat.testBit 31 }, [])

/-- The head takes logits, 16 at a time; a step starts from a maximum of −∞ and a sum of 0 (R224). A beat of eight lanes counts as one of 16,
and one of 32 lanes as two (DESIGN CHOICE, log 97). -/
def headTake (vocab : Nat) (last : Bool) : OpUnit → List (List F32) → OpUnit × List (Nat × Token)
  | q, [] => (q, [])
  | q, ls :: rest =>
    let ls := (ls.take (vocab - q.count)).map cleanLogit
    let (mx, sum) := runningSum (if q.count == 0 then negInf else q.mx) (if q.count == 0 then 0 else q.sum) ls
    let (q', out) := cellMerge { q with mx := mx, sum := sum, count := q.count + 16 }
      (ls.zipIdx.map fun p => ⟨BitVec.ofNat 24 (q.count + p.2), p.1⟩)
    let (q'', more) := headTake vocab last q' rest
    (q'', spill last out ++ more)

/-- CASCELL_COLLECT: a beat merged; the last one ends the phase (R224, R225). -/
def execCascellCollect (u : Nat) (s : State) :=
  firing (.cascellCollect u) s u .cascell (cellPhase s u == .collect && !(inPort s u 0).isEmpty) fun s =>
    let head := cellHead s u
    let last := cellLast s u
    let finish := fun (q : OpUnit) (out : List (Nat × Token)) (l : List Token) (ends : Bool) =>
      let q := { q with rrp := 1 }
      let (more, q) := if ends then cellEnd head last q else ([], { q with phase := .collect })
      (setIn (modUnit s u fun _ => q) u 0 l, out ++ more)
    match inPort s u 0 with
    | [] => .error .hold
    | t :: l =>
      if head then
        if !t.vec || t.tag == 15 then .error (.trap 0x01 0) else
          match takeOne 0 (t :: l) with
          | .wait => .error .hold
          | .illegal => .error (.trap 0x01 0)
          | .got vs rest =>
            let (q, out) := headTake (upar s u 5) last (opUnit s u) (chunks 16 vs.length (vs.map (BitVec.ofNat 32)))
            .ok (finish q out rest (decide (upar s u 5 ≤ q.count)))
      else if isMarker t then .ok (finish (opUnit s u) [] l true)
      else if !t.vec || t.tag != 15 then .error (.trap 0x01 0)
      else
        let (q, out) := cellMerge (opUnit s u) (beatCands t.data)
        .ok (finish q (spill last out) l false)

/-- CASCELL_DRAIN: beats from the east pass on; the terminator ends the step (R225). -/
def execCascellDrain (u : Nat) (s : State) :=
  firing (.cascellDrain u) s u .cascell (cellPhase s u == .drain && !(inPort s u 1).isEmpty) fun s =>
    match inPort s u 1 with
    | [] => .error .hold
    | t :: l =>
      let s := modUnit (setIn s u 1 l) u fun q => { q with rrp := 0 }
      if isMarker t then
        .ok (modUnit s u cellReset, [(1, if cellHead s u then summaryBeat (opUnit s u) else marker)])
      else if t.vec && t.tag == 15 then .ok (s, [(1, t)])
      else .error (.trap 0x01 0)

/-! ### CUMSEL -/

/-- A candidate of a draw: its id, its logit as drained, and its logit after the penalty. -/
structure Draw where
  id : Nat
  raw : F32
  l : F32

/-- The summary of a drain stream. -/
structure DrainEnd where
  mx : F32
  sum : F32
  fid : Nat
  forced : Bool

/-- A drain stream: its candidates in rank order, and its summary. -/
def readDrain (ls : List Line) : List Cand × DrainEnd :=
  let z := bits ((ls.getLastD 0).toNat)
  ((ls.dropLast).flatMap beatCands,
   ⟨BitVec.ofNat 32 (z 0 32), BitVec.ofNat 32 (z 32 32), z 64 24, z 95 1 == 1⟩)

/-- What a draw gives: the token, and the kept candidates in rank order. -/
structure Drawn where
  tok : Nat
  kept : List Draw

/-- Penalties applied to the candidates: a byte of the table for each (R227). -/
def penalise (a : OpAccess) (ptab : Nat) (pen : F32) : State → List Cand → Except Stop (List Draw × State)
  | s, [] => .ok ([], s)
  | s, c :: l =>
    let byte : Except Stop (Nat × State) :=
      if ptab == 0 then .ok (0, s) else
        match opRead s a ((ptab + c.id.toNat) % 2 ^ 64) 1 0 with
        | .error e => .error e
        | .ok (bs, s) => .ok (bytesNat bs, s)
    match byte with
    | .error e => .error e
    | .ok (n, s) =>
      match penalise a ptab pen s l with
      | .error e => .error e
      | .ok (ds, s) =>
        .ok (⟨c.id.toNat, c.l, if ptab == 0 then c.l else f32Sub 0 c.l (f32Mul 0 pen (f32OfNat n))⟩ :: ds, s)

/-- Draws in rank order after the penalty. -/
def rankDraws (l : List Draw) : List Draw :=
  l.foldl (fun acc a => put a acc) []
where
  put (a : Draw) : List Draw → List Draw
    | [] => [a]
    | b :: l =>
      if f32Lt b.l a.l || (!f32Lt a.l b.l && decide (a.id < b.id)) then a :: b :: l else b :: put a l

/-- Running sums in order, from a first value on. -/
def running (z : F32) : List F32 → List F32
  | [] => []
  | a :: l => f32Add 0 z a :: running (f32Add 0 z a) l

/-- The temperature is zero or subnormal: a greedy draw (R228). -/
def greedyTemp (t : F32) : Bool := bits t.toNat 23 8 == 0
/-- A temperature that R228 refuses. -/
def badTemp (t : F32) : Bool := !greedyTemp t && (t.val.isNan || bits t.toNat 31 1 == 1)

/-- The draw among candidates in rank order (R227): `u` is the uniform draw, `free` the token of an empty list. (DESIGN CHOICE, log 52) -/
def drawToken (t topp minp : F32) (u : F32) (free : Nat) (ks : List Draw) : Drawn :=
  match ks with
  | [] => ⟨free, []⟩
  | k0 :: _ =>
    if greedyTemp t then ⟨k0.id, [k0]⟩ else
      let z := fun (k : Draw) =>
        if k.l == negInf then 0 else if t == 0x7F800000 then f32OfNat 1
        else f32Exp 0 (f32Div 0 (f32Sub 0 k.l k0.l) t)
      let kept := ks.filter fun k => f32Lt 0 (z k) && !f32Lt (z k) minp
      let cs := running 0 (kept.map z)
      let thr := f32Mul 0 topp (cs.getLastD 0)
      let n := match cs.findIdx? fun c => !f32Lt c thr with
        | some i => i + 1
        | none => cs.length
      let kept := kept.take n
      let cs := cs.take n
      match kept.getLast? with
      | none => ⟨k0.id, [k0]⟩
      | some last =>
        let tgt := f32Mul 0 u (cs.getLastD 0)
        ⟨(((kept.zip cs).find? fun p => f32Lt tgt p.2).map fun p => p.1.id).getD last.id, kept⟩

/-- The parameters that a draw checks (R227, R228): the code of the first failure. -/
def drawCheck (s : State) (u : Nat) : Option Code :=
  if badTemp (BitVec.ofNat 32 (upar s u 4)) then some 0x32
  else if !toppOk (upar s u 5) || !minpOk (upar s u 6) || !selOk (upar s u 7) then some 0x01
  else none

/-- Cells of the chain of a CUMSEL unit; beats of a drain stream. -/
def selCells (s : State) (u : Nat) : Nat := bits (upar s u 7) 16 5
def drainBeats (s : State) (u : Nat) : Nat := 2 * selCells s u + 1

/-- A draw of unit `u` from a drain stream at a position of its generator (R227). -/
def drawFrom (s : State) (a : OpAccess) (u : Nat) (pos : BitVec 64) (ls : List Line) :
    Except Stop (Drawn × DrainEnd × State) :=
  let (cs, e) := readDrain ls
  if e.forced then .ok (⟨e.fid, []⟩, e, s) else
    match drawCheck s u with
    | some c => .error (.trap c 0)
    | none =>
      let pen := BitVec.ofNat 32 (upar s u 10)
      match penalise a (upar s u 11) pen s (cs.take (bits (upar s u 7) 0 9)) with
      | .error e => .error e
      | .ok (ds, s) =>
        let (free, s) := fresh s
        let draw := (splitmix (pos ^^^ BitVec.ofNat 64 (upar s u 8)) >>> 40).toNat
        let uni := f32Of 0 (.fin ((draw : Rat) / 2 ^ 24) false)
        .ok (drawToken (BitVec.ofNat 32 (upar s u 4)) (BitVec.ofNat 32 (upar s u 5)) (BitVec.ofNat 32 (upar s u 6)) uni
          (bits free.toNat 0 24) (rankDraws ds), e, s)

/-- GPOS after a draw in sample mode (R227). -/
def countSample (s : State) (u : Nat) (e : DrainEnd) : State :=
  if e.forced then s else setPar s u 9 ((upar s u 9 + 1) % 2 ^ 64)

/-- P of a kept candidate, and H (R229). -/
def keptP (e : DrainEnd) (k : Draw) : F32 := f32Div 0 (f32Exp 0 (f32Sub 0 k.raw e.mx)) e.sum
def entropyOf (ps : List F32) : F32 :=
  let total := (running 0 ps).getLastD 0
  let r := f32Max 0 (f32Sub 0 (f32OfNat 1) total)
  let term := fun (p : F32) => f32Of 0 (mulV p.val.neg (f32Log 0 p).val).1
  let h := ((ps.filter fun p => f32Lt 0 p).map term).foldl (f32Add 0) 0
  if f32Lt 0 r then f32Add 0 h (term r) else h

/-- The verify object of a draw, and H (R229). -/
def verifyObject (cells : Nat) (d : Drawn) (e : DrainEnd) : List Line × F32 :=
  let kept : List Cand := if e.forced then [⟨BitVec.ofNat 24 e.fid, f32OfNat 1⟩]
    else d.kept.map fun k => ⟨BitVec.ofNat 24 k.id, keptP e k⟩
  let h := if e.forced then 0 else entropyOf (kept.map fun c => c.l)
  (candBeats 0 (2 * cells) kept ++
    [BitVec.ofNat 512 (h.toNat + 2 ^ 32 * d.tok + (if e.forced then 2 ^ 63 else 0))], h)

/-- CUMSEL_SAMPLE_FIRING (R226, R227). -/
def execCumselSampleFiring (u : Nat) (s : State) :=
  let obj := takeBeats (drainBeats s u) (inPort s u 0)
  let p := takeScalar 11 (inPort s u 1)
  firing (.cumselSampleFiring u) s u .cumsel (ctlSel s u == 0 && obj.ready && p.ready) fun s =>
    joinTwo obj p fun ls q _ rest =>
      match drawFrom s (unitAccess s u) u (BitVec.ofNat 64 (upar s u 9)) ls with
      | .error e => .error e
      | .ok (d, e, s) =>
        .ok (setIn (setIn (countSample s u e) u 0 q) u 1 rest, [(0, scalarTok 11 (d.tok + 2 ^ 31))])

/-- CUMSEL_VERIFY_FIRING (R229). -/
def execCumselVerifyFiring (u : Nat) (s : State) :=
  let obj := takeBeats (drainBeats s u) (inPort s u 0)
  let p := takeScalar 11 (inPort s u 1)
  firing (.cumselVerifyFiring u) s u .cumsel (ctlSel s u == 1 && obj.ready && p.ready) fun s =>
    joinTwo obj p fun ls q p rest =>
      match drawFrom s (unitAccess s u) u (BitVec.ofNat 64 (upar s u 9 + p)) ls with
      | .error e => .error e
      | .ok (d, e, s) =>
        .ok (setIn (setIn s u 0 q) u 1 rest, (verifyObject (selCells s u) d e).1.map fun l => (0, beatTok 15 l))

/-- A read of a stream of `n` lines by an instruction; ALIGN where its address is no line's. -/
def readBeats (s : State) (va n : Nat) : Except Stop (List Line × State) :=
  if va % 64 != 0 then .error (.trap 0x23 (BitVec.ofNat 64 va)) else
    match readLines s (coreAccess s) va n with
    | .error e => .error e
    | .ok (bs, s) => .ok ((chunks 64 bs.length bs).map bytesLine, s)

/-- Lines written by an instruction of the executing core (R216, R287). -/
def coreLines (s : State) (va : Nat) (bs : List Byte) : Except Stop State :=
  let a := coreAccess s
  match planWrites s a (asLines va bs) with
  | .error e => .error e
  | .ok (xs, s) => .ok (xs.foldl (fun s p => noteWritten s (myCore s) p.1.pa) (doWrites s a xs))

/-- SMPDRAW with PARAM 0 (R227, R239). -/
def execSmpdrawSample (h : Hdr) (d a b : Reg) (unit : BitVec 10) (s : State) :=
  coreWord (.smpdrawSample h d a b unit) s fun s =>
    let u := unit.toNat
    match unitReady s u with
    | .error e => .error e
    | .ok () =>
      match readBeats s (xval s a).toNat (drainBeats s u) with
      | .error e => .error e
      | .ok (ls, s) =>
        match drawFrom s (coreAccess s) u (BitVec.ofNat 64 (upar s u 9)) ls with
        | .error e => .error e
        | .ok (r, e, s) => .ok (retX (countService (countSample s u e) u) d (BitVec.ofNat 64 r.tok))

/-- SMPDRAW with PARAM 1 (R229, R239). -/
def execSmpdrawVerify (h : Hdr) (d a b c : Reg) (unit : BitVec 10) (s : State) :=
  coreWord (.smpdrawVerify h d a b c unit) s fun s =>
    let u := unit.toNat
    let res := (xval s c).toNat
    match unitReady s u with
    | .error e => .error e
    | .ok () =>
      if (xval s a).toNat % 64 == 0 && res % 64 != 0 then .error (.trap 0x23 (BitVec.ofNat 64 res)) else
      match readBeats s (xval s a).toNat (drainBeats s u) with
      | .error e => .error e
      | .ok (ls, s) =>
        match drawFrom s (coreAccess s) u (BitVec.ofNat 64 (upar s u 9) + xval s b) ls with
        | .error e => .error e
        | .ok (r, e, s) =>
          let (obj, h) := verifyObject (selCells s u) r e
          match coreLines s res (obj.flatMap lineBytes) with
          | .error e => .error e
          | .ok s => .ok (retX (countService s u) d (BitVec.ofNat 64 (r.tok + 2 ^ 32 * h.toNat)))

/-! ### ACCEPT (R230) -/

/-- A committed-token scalar (R220): id and LAST; none with a reserved bit. -/
def tokenScalar (v : Nat) : Option (Nat × Bool) :=
  if bits v 24 7 != 0 then none else some (bits v 0 24, v.testBit 31)

/-- What an acceptance gives: the token it emits with LAST, whether the draft is accepted, and the unit. -/
structure Accepted where
  emit : Option (Nat × Bool)
  accepted : Bool
  unit : OpUnit

/-- An acceptance (R230). -/
def acceptDraft (eps delta : F32) (q : OpUnit) (obj : List Line) (d : Nat) (ends : Bool) : Accepted :=
  let z := (obj.getLastD 0).toNat
  let h : F32 := BitVec.ofNat 32 (bits z 0 32)
  let tok := bits z 32 24
  let lim := f32Mul 0 delta (f32Exp 0 (f32Of 0 h.val.neg))
  let theta := if f32Lt lim eps then lim else eps
  let pd := (((obj.dropLast.flatMap beatCands).find? fun c => c.id.toNat == d).map fun c => c.l).getD 0
  let r : Accepted :=
    if q.rej then ⟨none, false, q⟩
    else if d == 0xFFFFFF then ⟨some (tok, true), false, { q with rej := true }⟩
    else if f32Lt theta pd then ⟨some (d, ends), true, { q with count := q.count + 1 }⟩
    else ⟨some (tok, true), false, { q with rej := true }⟩
  if !ends then r else
    let nacc := BitVec.ofNat 64 (r.unit.count % 2 ^ 16 + (if r.unit.rej then 2 ^ 16 else 0))
    let unit := { r.unit with rej := false, count := 0, params := r.unit.params.set 0 7 nacc }
    { r with unit := unit }

/-- CELLS of an ACCEPT unit; beats of its verify object. -/
def acceptBeats (s : State) (u : Nat) : Nat := 2 * upar s u 6 + 1

/-- The draft's id; an unset CELLS or a malformed draft is ILLEGAL. -/
def draftOf (s : State) (u draft : Nat) : Except Stop Nat :=
  match tokenScalar draft with
  | none => .error (.trap 0x01 0)
  | some (d, _) => if upar s u 6 == 0 then .error (.trap 0x01 0) else .ok d

/-- An acceptance by unit `u`. -/
def acceptOf (s : State) (u : Nat) (obj : List Line) (draft control : Nat) : Except Stop Accepted :=
  match draftOf s u draft with
  | .error e => .error e
  | .ok d =>
      .ok (acceptDraft (BitVec.ofNat 32 (upar s u 4)) (BitVec.ofNat 32 (upar s u 5)) (opUnit s u) obj d (control.testBit 31))

/-- A committed-token scalar as a token. -/
def committed (p : Nat × Bool) : Token := scalarTok 11 (p.1 + if p.2 then 2 ^ 31 else 0)

/-- ACCEPT_FIRING. -/
def execAcceptFiring (u : Nat) (s : State) :=
  let obj := takeBeats (acceptBeats s u) (inPort s u 0)
  let d := takeScalar 11 (inPort s u 1)
  let c := takeScalar 11 (inPort s u 2)
  firing (.acceptFiring u) s u .accept (obj.ready && d.ready && c.ready) fun s =>
    match c with
    | .got c rest2 =>
      joinTwo obj d fun ls rest0 d rest1 =>
        match acceptOf s u ls d c with
        | .error e => .error e
        | .ok r => .ok (setIn (setIn (setIn (modUnit s u fun _ => r.unit) u 0 rest0) u 1 rest1) u 2 rest2,
            r.emit.toList.map fun p => (0, committed p))
    | _ => .error (.trap 0x01 0)

/-- ACPT (R239). (DESIGN CHOICE, log 53) -/
def execAcpt (h : Hdr) (d a b c : Reg) (unit : BitVec 10) (s : State) :=
  coreWord (.acpt h d a b c unit) s fun s =>
    let u := unit.toNat
    match unitReady s u with
    | .error e => .error e
    | .ok () =>
      match draftOf s u (bits (xval s b).toNat 0 32) with
      | .error e => .error e
      | .ok _ =>
      match readBeats s (xval s a).toNat (acceptBeats s u) with
      | .error e => .error e
      | .ok (ls, s) =>
        match acceptOf s u ls (bits (xval s b).toNat 0 32) (bits (xval s c).toNat 0 32) with
        | .error e => .error e
        | .ok r =>
          let e := r.emit.getD (0xFFFFFF, false)
          let flag := fun (b : Bool) (k : Nat) => if b then 2 ^ k else 0
          .ok (retX (countService (modUnit s u fun _ => r.unit) u) d
            (BitVec.ofNat 64 (e.1 + flag e.2 31 + flag r.accepted 32 + flag r.unit.rej 33)))

/-! ### PKEY (R233, R234) -/

/-- The `k` best of scores with their indices: larger first, then the lower index; a NaN counts as −∞. -/
def bestK (k : Nat) (l : List (F32 × Nat)) : List (F32 × Nat) :=
  ((l.map fun p => (if p.1.val.isNan then negInf else p.1, p.2)).foldl (fun acc a => put a acc) []).take k
where
  put (a : F32 × Nat) : List (F32 × Nat) → List (F32 × Nat)
    | [] => [a]
    | b :: l => if f32Lt b.1 a.1 || (!f32Lt a.1 b.1 && decide (a.2 < b.2)) then a :: b :: l else b :: put a l

/-- Rows of the vat read in rank order. -/
def vatRows (s : State) (a : OpAccess) (base stride dv : Nat) : List Nat → Except Stop (List (List Nat) × State)
  | [] => .ok ([], s)
  | r :: l =>
    match readLines s a ((base + r * stride) % 2 ^ 64) (stride / 64) with
    | .error e => .error e
    | .ok (bs, s) =>
      match vatRows s a base stride dv l with
      | .error e => .error e
      | .ok (rows, s) => .ok (wordsAt bs 2 dv 0 :: rows, s)

/-- What a lookup gives: out, the indices I and the weights w. -/
structure Lookup where
  out : List F32
  ix : List Nat
  w : List F32

/-- Fields of a PKEY unit's GEOM (Table 13-6). -/
def pkNK (s : State) (u : Nat) : Nat := bits (upar s u 5) 0 13
def pkK (s : State) (u : Nat) : Nat := bits (upar s u 5) 16 7
def pkD (s : State) (u : Nat) : Nat := 2 ^ bits (upar s u 5) 24 3
def pkDV (s : State) (u : Nat) : Nat := 2 ^ bits (upar s u 5) 28 3

/-- The score of half a query against a half key. -/
def halfScore (q key : List Nat) : F32 :=
  sum32 0 (List.zipWith (fun a b => (mulV (fp16.value a) (fp16.value b)).1) q key)

/-- The weights of ranked scores (R234). -/
def pkWeights (ts : List F32) : List F32 :=
  let t0 := ts.headD negInf
  if t0 == negInf then ts.map fun _ => f32Div 0 (f32OfNat 1) (f32OfNat ts.length) else
    let ws := ts.map fun t => f32Exp 0 (f32Sub 0 t t0)
    let z := (running 0 ws).getLastD 0
    ws.map fun w => f32Div 0 w z

/-- A LOOKUP of unit `u` (R234); one in which NK is 0 is ILLEGAL (DESIGN CHOICE, log 98). -/
def pkLookup (s : State) (a : OpAccess) (u : Nat) (q : List Nat) (b : Nat) : Except Stop (Lookup × State) :=
  let nk := pkNK s u
  let d := pkD s u
  let half := d / 2
  let lines := (nk * d + 63) / 64
  match readLines s a (upar s u 4) lines with
  | .error e => .error e
  | .ok (ta, s) =>
    match readLines s a ((upar s u 4 + 64 * lines) % 2 ^ 64) lines with
    | .error e => .error e
    | .ok (tb, s) =>
      let score := fun (t : List Byte) (q : List Nat) =>
        (List.range nk).map fun i => (halfScore q (wordsAt t 2 half (i * d)), i)
      let ia := bestK (pkK s u) (score ta (q.take half))
      let ib := bestK (pkK s u) (score tb (q.drop half))
      let best := bestK (pkK s u) (ia.flatMap fun x => ib.map fun y => (f32Add 0 x.1 y.1, x.2 * nk + y.2))
      let rows := best.map fun p => b + p.2
      if nk == 0 || rows.any (fun r => upar s u 7 ≤ r) then .error (.trap 0x01 0) else
        let dv := pkDV s u
        match vatRows s a (upar s u 6) (64 * ((2 * dv + 63) / 64)) dv rows with
        | .error e => .error e
        | .ok (vs, s) =>
          let w := pkWeights (best.map Prod.fst)
          let out := (w.zip vs).foldl (fun (acc : List F32) p =>
            List.zipWith (fun o v => f32Of 0 (fmaV 0 p.1.val (fp16.value v) o.val).1) acc p.2) (List.replicate dv 0)
          .ok (⟨out, best.map Prod.snd, w⟩, s)

/-- PKEY_FIRING (R234). -/
def execPkeyFiring (u : Nat) (s : State) :=
  let q := takeHalves (pkD s u) (inPort s u 0)
  let b := takeScalar 11 (inPort s u 1)
  firing (.pkeyFiring u) s u .pkey (q.ready && b.ready) fun s =>
    joinTwo q b fun q rest0 b rest1 =>
      match pkLookup s (unitAccess s u) u q b with
      | .error e => .error e
      | .ok (r, s) => .ok (setIn (setIn s u 0 rest0) u 1 rest1, (floatBeats r.out).map fun t => (0, t))

/-- PKLOOK (R239). -/
def execPklook (h : Hdr) (d a b c : Reg) (unit : BitVec 10) (s : State) :=
  coreWord (.pklook h d a b c unit) s fun s =>
    let u := unit.toNat
    let res := (xval s b).toNat
    match unitReady s u with
    | .error e => .error e
    | .ok () =>
      if (xval s a).toNat % 64 == 0 && res % 64 != 0 then .error (.trap 0x23 (BitVec.ofNat 64 res)) else
      match readBeats s (xval s a).toNat ((2 * pkD s u + 63) / 64) with
      | .error e => .error e
      | .ok (ls, s) =>
        match pkLookup s (coreAccess s) u (wordsAt (ls.flatMap lineBytes) 2 (pkD s u) 0) (xval s c).toNat with
        | .error e => .error e
        | .ok (r, s) =>
          let words := r.out ++ r.ix.map (BitVec.ofNat 32) ++ r.w
          match coreLines s res (words.flatMap fun v => natBytes v.toNat 4) with
          | .error e => .error e
          | .ok s => .ok (retX (countService s u) d (BitVec.ofNat 64 (pkK s u)))

/-! ### GRAMMAR (R235 to R237) -/

/-- Fields of GEOM and STATE (Table 13-7); an NSTATE field of 0 stands for 4,096. -/
def gmVocab (s : State) (u : Nat) : Nat := bits (upar s u 7) 0 24
def gmStkMax (s : State) (u : Nat) : Nat := bits (upar s u 7) 32 7
def gmNState (s : State) (u : Nat) : Nat := if bits (upar s u 7) 40 12 == 0 then 4096 else bits (upar s u 7) 40 12
def gmState (s : State) (u : Nat) : Nat := bits (upar s u 8) 0 12
def gmDepth (s : State) (u : Nat) : Nat := bits (upar s u 8) 16 7

/-- Entry `i` of STACK. -/
def gmStack (s : State) (u i : Nat) : Nat := bits (upar s u (16 + i / 4)) (16 * (i % 4)) 12
/-- The state with an entry of STACK written. -/
def gmPush (s : State) (u i v : Nat) : State :=
  setPar s u (16 + i / 4) (setBits (upar s u (16 + i / 4)) (16 * (i % 4)) 12 v)
/-- The state with state and depth written. -/
def gmGo (s : State) (u state depth : Nat) : State := setPar s u 8 (state + 2 ^ 16 * depth)

/-- A step by a token (R236). -/
def gmStep (s : State) (a : OpAccess) (u t : Nat) : Except Stop State :=
  if t == 0xFFFFFF then .ok s else
    match opRead s a ((upar s u 5 + t) % 2 ^ 64) 1 0 with
    | .error e => .error e
    | .ok (cls, s) =>
      match opRead s a ((upar s u 4 + 4 * (256 * gmState s u + bytesNat cls)) % 2 ^ 64) 4 0 with
      | .error e => .error e
      | .ok (bs, s) =>
        let e := bytesNat bs
        let next := bits e 0 12
        let depth := gmDepth s u
        let go := fun (s : State) (st dp : Nat) =>
          if gmNState s u ≤ st then Except.error (Stop.trap 0x01 0) else .ok (gmGo s u st dp)
        if bits e 26 6 != 0 then .error (.trap 0x01 0) else
        match bits e 12 2 with
        | 0 => go s next depth
        | 1 => if gmStkMax s u ≤ depth then .error (.trap 0x33 0) else go (gmPush s u depth (bits e 14 12)) next (depth + 1)
        | 2 => if depth == 0 then .error (.trap 0x01 0) else go s (gmStack s u (depth - 1)) (depth - 1)
        | _ => .error (.trap 0x01 0)

/-- Address of the mask of a state (Table 13-8). -/
def maskBase (s : State) (u : Nat) : Nat :=
  upar s u 6 + gmState s u * (64 + 64 * ((gmVocab s u + 511) / 512))

/-- The header step (R237): POP = 0 is ILLEGAL; FORCED and FID are set. -/
def gmHeader (s : State) (a : OpAccess) (u : Nat) : Except Stop State :=
  match opRead s a (maskBase s u % 2 ^ 64) 64 0 with
  | .error e => .error e
  | .ok (bs, s) =>
    let h := bytesNat bs
    let pop := bits h 0 32
    if pop == 0 then .error (.trap 0x01 0) else
      .ok (modUnit s u fun q => { q with forced := pop == 1, fid := BitVec.ofNat 24 (bits h 32 24) })

/-- A committed token taken by a GRAMMAR unit: the step, and with LAST the header step (R237). -/
def gmTake (s : State) (a : OpAccess) (u v : Nat) : Except Stop (Bool × State) :=
  match tokenScalar v with
  | none => .error (.trap 0x01 0)
  | some (t, last) =>
    match gmStep s a u t with
    | .error e => .error e
    | .ok s =>
      if !last then .ok (false, s) else
        match gmHeader s a u with
        | .error e => .error e
        | .ok s => .ok (true, s)

/-- GRAMMAR_STEP_FIRING (R237). -/
def execGrammarStepFiring (u : Nat) (s : State) :=
  let t := takeScalar 11 (inPort s u 1)
  firing (.grammarStepFiring u) s u .grammar ((opUnit s u).phase != .mask && t.ready) fun s =>
    match t with
    | .got v rest =>
      (match gmTake s (unitAccess s u) u v with
       | .error e => .error e
       | .ok (last, s) =>
         let q := opUnit s u
         let s := setIn s u 1 rest
         if last then
           .ok (modUnit s u fun q => { q with phase := .mask, count := 0 },
             [(0, beatTok 15 (BitVec.ofNat 512 (q.fid.toNat + if q.forced then 2 ^ 31 else 0)))])
         else .ok (s, []))
    | _ => .error (.trap 0x01 0)

/-- The mask bits of the tokens from `n` on, `len` of them below VOCAB, in the 512-bit chunks that hold them, from the first one's bit 0
on (R237). -/
def gmMask (s : State) (u n len : Nat) : Except Stop (Nat × State) :=
  let first := n / 512
  let last := (max (n + 1) (min (n + len) (gmVocab s u)) - 1) / 512
  match readLines s (unitAccess s u) ((maskBase s u + 64 + 64 * first) % 2 ^ 64) (last + 1 - first) with
  | .error e => .error e
  | .ok (bs, s) => .ok (bytesNat bs, s)

/-- GRAMMAR_MASK_FIRING (R237). -/
def execGrammarMaskFiring (u : Nat) (s : State) :=
  let t := takeOne 0 (inPort s u 0)
  firing (.grammarMaskFiring u) s u .grammar ((opUnit s u).phase == .mask && t.ready) fun s =>
    match t with
    | .got vs rest =>
      let n := (opUnit s u).count
      (match gmMask s u n vs.length with
       | .error e => .error e
       | .ok (mask, s) =>
         let out := vs.zipIdx.map fun p => if mask.testBit (n % 512 + p.2) then BitVec.ofNat 32 p.1 else negInf
         let done := decide (gmVocab s u ≤ n + vs.length)
         .ok (modUnit (setIn s u 0 rest) u fun q =>
             { q with count := if done then 0 else n + vs.length, phase := if done then .step else .mask },
           (floatBeats out).map fun b => (0, b)))
    | _ => .error (.trap 0x01 0)

/-- GMSTEP (R239). -/
def execGmstep (h : Hdr) (d a : Reg) (unit : BitVec 10) (s : State) :=
  coreWord (.gmstep h d a unit) s fun s =>
    let u := unit.toNat
    match unitReady s u with
    | .error e => .error e
    | .ok () =>
      match gmTake s (coreAccess s) u (bits (xval s a).toNat 0 32) with
      | .error e => .error e
      | .ok (_, s) =>
        let q := opUnit s u
        .ok (retX (countService s u) d (BitVec.ofNat 64 (bits (upar s u 8) 0 23 + (if q.forced then 2 ^ 32 else 0) + 2 ^ 40 * q.fid.toNat)))

end Sys2Proof.Machine
end

