-- ==== Sys2Proof/Machine/Scalar.lean ====
section
/-! DEFINITION. The integer words, formats IR and II (R335, R336), and the branches, format BR. -/

namespace Sys2Proof.Machine

/-- AN INTEGER WORD: its result from its scalar operands at XLEN, written at retirement; no flag (R336). -/
def intWord (i : Instr) (d : Reg) (f : (w : Nat) → (Reg → BitVec w) → BitVec w) (s : State) :
    Host.Outcome State Fault Refusal :=
  word i s (fun s => .ok (s, [.scalar d (f 32 (eScalar s))])) (fun s => .ok (retX s d (f 64 (xval s))))

/-- The quotient of DIV (R361). -/
def quotient {w : Nat} (u : BitVec 1) (a b : BitVec w) : BitVec w :=
  if b = 0 then BitVec.allOnes w else if u = 1 then a / b else a.sdiv b

/-- The remainder of REM (R411). -/
def remainder {w : Nat} (u : BitVec 1) (a b : BitVec w) : BitVec w :=
  if b = 0 then a else if u = 1 then a % b else a.srem b

/-- The high half of the exact product (R398). -/
def mulHigh {w : Nat} (u : BitVec 1) (a b : BitVec w) : BitVec w :=
  if u = 1 then BitVec.ofNat w (a.toNat * b.toNat / 2 ^ w) else BitVec.ofInt w (a.toInt * b.toInt / 2 ^ w)

/-- Number of leading zeros (R356). -/
def leadingZeros {w : Nat} (a : BitVec w) : Nat := if a = 0 then w else w - 1 - a.toNat.log2

/-- Number of 1 bits (R404). -/
def popCount {w : Nat} (a : BitVec w) : Nat := (List.range w).countP fun n => a.getLsbD n

/-- The smaller or the larger of two integers (R394). -/
def pickMin {w : Nat} (u : BitVec 1) (a b : BitVec w) : BitVec w := if compareInt 4 u a b then a else b
def pickMax {w : Nat} (u : BitVec 1) (a b : BitVec w) : BitVec w := if compareInt 3 u a b then a else b

/-- The bit field of BFX (R349). -/
def extractField {w : Nat} (u : BitVec 1) (p n : Nat) (a : BitVec w) : BitVec w :=
  let v := (a >>> p).setWidth n
  if u = 1 then v.setWidth w else v.signExtend w

/-- The insertion of BFI (R349). -/
def insertField {w : Nat} (p n : Nat) (a b : BitVec w) : BitVec w :=
  let m : BitVec w := (BitVec.allOnes n).setWidth w
  (a &&& ~~~(m <<< p)) ||| ((b &&& m) <<< p)

def execAdd (h : Hdr) (d a b : Reg) (s : State) := intWord (.add h d a b) d (fun _ r => r a + r b) s
def execSub (h : Hdr) (d a b : Reg) (s : State) := intWord (.sub h d a b) d (fun _ r => r a - r b) s
def execMul (h : Hdr) (d a b : Reg) (s : State) := intWord (.mul h d a b) d (fun _ r => r a * r b) s
def execAnd (h : Hdr) (d a b : Reg) (s : State) := intWord (.and h d a b) d (fun _ r => r a &&& r b) s
def execOr (h : Hdr) (d a b : Reg) (s : State) := intWord (.or h d a b) d (fun _ r => r a ||| r b) s
def execXor (h : Hdr) (d a b : Reg) (s : State) := intWord (.xor h d a b) d (fun _ r => r a ^^^ r b) s
/-- SHL: a register shift count is B mod XLEN (R336, R435). -/
def execShl (h : Hdr) (d a b : Reg) (s : State) :=
  intWord (.shl h d a b) d (fun w r => r a <<< ((r b).toNat % w)) s
def execShr (h : Hdr) (d a b : Reg) (s : State) :=
  intWord (.shr h d a b) d (fun w r => r a >>> ((r b).toNat % w)) s
def execSra (h : Hdr) (d a b : Reg) (s : State) :=
  intWord (.sra h d a b) d (fun w r => (r a).sshiftRight ((r b).toNat % w)) s
def execMulh (h : Hdr) (d a b : Reg) (u : BitVec 1) (s : State) :=
  intWord (.mulh h d a b u) d (fun _ r => mulHigh u (r a) (r b)) s
def execDiv (h : Hdr) (d a b : Reg) (u : BitVec 1) (s : State) :=
  intWord (.div h d a b u) d (fun _ r => quotient u (r a) (r b)) s
def execRem (h : Hdr) (d a b : Reg) (u : BitVec 1) (s : State) :=
  intWord (.rem h d a b u) d (fun _ r => remainder u (r a) (r b)) s
def execMin (h : Hdr) (d a b : Reg) (u : BitVec 1) (s : State) :=
  intWord (.min h d a b u) d (fun _ r => pickMin u (r a) (r b)) s
def execMax (h : Hdr) (d a b : Reg) (u : BitVec 1) (s : State) :=
  intWord (.max h d a b u) d (fun _ r => pickMax u (r a) (r b)) s
def execClz (h : Hdr) (d a : Reg) (s : State) :=
  intWord (.clz h d a) d (fun w r => BitVec.ofNat w (leadingZeros (r a))) s
def execPopc (h : Hdr) (d a : Reg) (s : State) :=
  intWord (.popc h d a) d (fun w r => BitVec.ofNat w (popCount (r a))) s
def execSetc (h : Hdr) (d a b : Reg) (u : BitVec 1) (cc : BitVec 3) (s : State) :=
  intWord (.setc h d a b u cc) d (fun _ r => ofBool (compareInt cc u (r a) (r b))) s
/-- SEL (R429). -/
def execSel (h : Hdr) (d a b c : Reg) (s : State) :=
  intWord (.sel h d a b c) d (fun _ r => if r c ≠ 0 then r a else r b) s
/-- BFX: the field is LEN + 1 bits long (R348, R349). -/
def execBfx (h : Hdr) (d a : Reg) (u : BitVec 1) (pos len : BitVec 6) (s : State) :=
  intWord (.bfx h d a u pos len) d (fun _ r => extractField u pos.toNat (len.toNat + 1) (r a)) s
def execBfi (h : Hdr) (d a b : Reg) (pos len : BitVec 6) (s : State) :=
  intWord (.bfi h d a b pos len) d (fun _ r => insertField pos.toNat (len.toNat + 1) (r a) (r b)) s
/-- LEA (R384). -/
def execLea (h : Hdr) (d a b : Reg) (pos : BitVec 6) (s : State) :=
  intWord (.lea h d a b pos) d (fun _ r => r a + r b <<< pos.toNat) s
def execAddImm (h : Hdr) (d a : Reg) (imm : BitVec 32) (s : State) :=
  intWord (.addImm h d a imm) d (fun _ r => r a + immS imm) s
def execAndImm (h : Hdr) (d a : Reg) (imm : BitVec 32) (s : State) :=
  intWord (.andImm h d a imm) d (fun _ r => r a &&& immS imm) s
def execOrImm (h : Hdr) (d a : Reg) (imm : BitVec 32) (s : State) :=
  intWord (.orImm h d a imm) d (fun _ r => r a ||| immS imm) s
def execXorImm (h : Hdr) (d a : Reg) (imm : BitVec 32) (s : State) :=
  intWord (.xorImm h d a imm) d (fun _ r => r a ^^^ immS imm) s
def execShlImm (h : Hdr) (d a : Reg) (imm : BitVec 32) (s : State) :=
  intWord (.shlImm h d a imm) d (fun _ r => r a <<< imm.toNat) s
def execShrImm (h : Hdr) (d a : Reg) (imm : BitVec 32) (s : State) :=
  intWord (.shrImm h d a imm) d (fun _ r => r a >>> imm.toNat) s
def execSraImm (h : Hdr) (d a : Reg) (imm : BitVec 32) (s : State) :=
  intWord (.sraImm h d a imm) d (fun _ r => (r a).sshiftRight imm.toNat) s
def execSetcImm (h : Hdr) (d a : Reg) (u : BitVec 1) (cc : BitVec 3) (imm : BitVec 32) (s : State) :=
  intWord (.setcImm h d a u cc imm) d (fun _ r => ofBool (compareInt cc u (r a) (immS imm))) s
/-- MOVI (R397). -/
def execMovi (h : Hdr) (d : Reg) (imm : BitVec 32) (s : State) := intWord (.movi h d imm) d (fun _ _ => immS imm) s
/-- MOVH, in a core: IMM above the low half of A (R397). -/
def execMovh (h : Hdr) (d a : Reg) (imm : BitVec 32) (s : State) :=
  intWord (.movh h d a imm) d (fun w r => imm.setWidth w <<< 32 ||| (((r a).setWidth 32).setWidth w)) s

/-! ### Branches -/

/-- pc + sext(OFF, 32), exactly (R347, R350, R379). -/
def branchTarget (s : State) (off : BitVec 32) : Int := ((core s (myCore s)).pc.toNat : Int) + off.toInt

/-- A taken branch: PROT for a target that names no word, and the pc stands (R69); TVAL is the target (Table 19-5,
DEDUCED, log 31). -/
def jumpTo (s : State) (t : Int) : Except Stop State :=
  if t < 0 || (pcLimit : Int) ≤ t then .error (.trap 0x21 (BitVec.ofInt 64 t)) else
    .ok (modCore s (myCore s) fun k => { k with pc := BitVec.ofNat 54 t.toNat, supplied := [], issued := none })

/-- The link of JAL and JALR, written with the jump (R379). -/
def linkTo (s : State) (d : Reg) (t : Int) : Except Stop State :=
  let link := ((core s (myCore s)).pc + 1).setWidth 64
  (jumpTo s t).map fun s => setX s (myCore s) d.toNat link

/-- BR (R350). -/
def execBr (h : Hdr) (off : BitVec 32) (s : State) := coreWord (.br h off) s fun s => jumpTo s (branchTarget s off)
/-- BC: the target is checked only when the branch is taken (R347). -/
def execBc (h : Hdr) (a b : Reg) (cc : BitVec 3) (u : BitVec 1) (off : BitVec 32) (s : State) :=
  coreWord (.bc h a b cc u off) s fun s =>
    if compareInt cc u (xval s a) (xval s b) then jumpTo s (branchTarget s off) else .ok (advance s)
/-- JAL (R379). -/
def execJal (h : Hdr) (d : Reg) (off : BitVec 32) (s : State) :=
  coreWord (.jal h d off) s fun s => linkTo s d (branchTarget s off)
/-- JALR: A is read before D is written (R379). -/
def execJalr (h : Hdr) (d a : Reg) (off : BitVec 32) (s : State) :=
  coreWord (.jalr h d a off) s fun s => linkTo s d ((xval s a + off.signExtend 64).toNat : Int)

end Sys2Proof.Machine
end

