-- ==== Sys2Proof/Machine/SumParts.lean ====
section
/-! DEFINITION. Summation by parts, format SB (R115 to R128). -/

namespace Sys2Proof.Machine

/-- The group that a word names (R117). -/
def groupOf (s : State) (grp : BitVec 8) (b : Reg) : Nat := (grp.toNat + (eScalar s b).toNat) % 256

/-- The permutation of the executing element's row (R115). -/
def permOf (s : State) (g : Nat) : BitVec 384 := (region s (myRegion s)).perm.get identPerm (256 * myRow s + g)
/-- Entry `j` of a permutation. -/
def permEntry (p : Nat) (j : Nat) : Nat := bits p (6 * j) 6

/-- The 64 entries are a bijection of 0 to 63. -/
def isPerm (p : Nat) : Bool := (List.range 64).all fun v => (List.range 64).any fun j => permEntry p j == v

/-- INT8 lane `j` of a line. -/
def i8 (l : Line) (j : Nat) : Int := sInt 8 (lane l 8 j)
/-- Lane `j` of the vector view of a sum register (R116). -/
def i16 (y : Wide) (j : Nat) : Int := sInt 16 (bits y.toNat (16 * j) 16)
/-- A sum register from the 64 lanes of its vector view. -/
def ofI16 (l : List Int) : Wide := BitVec.ofNat 1024 (l.foldr (fun v acc => toBits 16 v + 2 ^ 16 * acc) 0)

/-- PRMLD (R119). -/
def execPrmld (h : Hdr) (a b : Reg) (grp : BitVec 8) (s : State) :=
  elemWord (.prmld h a b grp) s fun s =>
    let v := (eVector s a 8).toNat
    if bits v 384 128 != 0 || !isPerm v then .error (.trap 0x01 0)
    else .ok (s, if west s then [.perm (groupOf s grp b) (BitVec.ofNat 384 v)] else [])

/-- PRMAP (R120). -/
def execPrmap (h : Hdr) (d a b : Reg) (grp : BitVec 8) (s : State) :=
  elemWord (.prmap h d a b grp) s fun s =>
    let p := (permOf s (groupOf s grp b)).toNat
    let v := eVector s a 8
    .ok (s, [.vector d (ofLanes 8 ((List.range 64).map fun j => lane v 8 (permEntry p j)))])

/-- The suffix sums of a list, with the sum of all of it. -/
def suffixSums : List Int → List Int × Int
  | [] => ([], 0)
  | v :: l => let r := suffixSums l; ((r.2 + v) :: r.1, r.2 + v)

/-- SCANS (R121). -/
def execScans (h : Hdr) (d a : Reg) (s : State) :=
  elemWord (.scans h d a) s fun s =>
    let v := eVector s a 8
    .ok (s, [.sum d (ofI16 (suffixSums ((List.range 64).map (i8 v))).1)])

/-- Fields of a difference record (Table 5-2). -/
def difNib (v j : Nat) : Nat := bits v (8 + 4 * j) 4
def difSide (v e : Nat) : Nat := if e < 31 then bits v (264 + 8 * e) 8 else 0

/-- The differences from nibble `j` on, `n` of them, with the escapes counted so far (R123). -/
def decodeDif (v : Nat) : Nat → Nat → Nat → List Int
  | 0, _, _ => []
  | n + 1, j, e =>
    if difNib v j == 15 then (difSide v e : Int) :: decodeDif v n (j + 1) (e + 1)
    else (difNib v j : Int) :: decodeDif v n (j + 1) e

/-- Escapes of a record. -/
def escapes (v : Nat) : Nat := ((List.range 63).filter fun j => difNib v (j + 1) == 15).length

/-- DIFLD (R123). -/
def execDifld (h : Hdr) (d a : Reg) (s : State) :=
  elemWord (.difld h d a) s fun s =>
    let v := (eVector s a 8).toNat
    let n := escapes v
    if 31 < n || difNib v 0 != 0 || (List.range 31).any (fun e => decide (n ≤ e) && difSide v e != 0) then
      .error (.trap 0x01 0)
    else .ok (s, [.sum d (ofI16 (sInt 8 (bits v 0 8) :: decodeDif v 63 1 0))])

/-- DIFMUL (R124): the other lanes of D as they stand at retirement. -/
def execDifmul (h : Hdr) (d a b c : Reg) (s : State) :=
  elemWord (.difmul h d a b c) s fun s =>
    let n := (eScalar s c).toNat % 16
    let x := eSum s a
    let y := eSum s b
    let p := (List.range 64).foldl (fun acc j => acc + i16 y j * i16 x j) (0 : Int)
    .ok (s, [.sumLane d n (BitVec.ofNat 64 (bits (eSum s d).toNat (64 * n) 64) + BitVec.ofInt 64 p)])

/-- SBPFIN (R125): the exact product of three, rounded once; a zero takes the signs of its factors (DESIGN CHOICE, log 83). -/
def execSbpfin (h : Hdr) (d a b c : Reg) (rm : BitVec 3) (s : State) :=
  elemWord (.sbpfin h d a b c rm) s fun s =>
    let y := (eSum s a).toNat
    let gs := (eVector s b 16)
    let as_ := (eVector s c 32)
    let rs := (List.range 16).map fun n =>
      let q : FVal := .fin (sInt 64 (bits y (64 * n) 64) : Int) false
      let u := fp16.value (lane gs 16 n)
      let v := fp32.value (lane as_ 32 n)
      let nanOrZero := u.isNan || v.isNan || ((!u.finite || !v.finite) && (q.isZero || u.isZero || v.isZero))
      if nanOrZero then (fp32.nan, flagNV) else fp32.round rm (myDraw s n) (mulV (mulV q u).1 v).1
    .ok (s, [.vector d (ofLanes 32 (rs.map fun r => r.1)), .flags (rs.foldl (fun f r => f ||| r.2) 0)])

/-- The lanes of 64 weights in ascending order, equal weights lower lane first (R126). -/
def sortLanes (v : Line) : List Nat := sortBy (fun i => (i8 v i + 128).toNat) (List.range 64)

/-- The differences of a sorted list after its first weight. -/
def steps : List Int → List Nat
  | a :: b :: l => (b - a).toNat :: steps (b :: l)
  | _ => []

/-- The canonical difference record of sorted weights (R122, R126). -/
def difRecord (ws : List Int) : Line :=
  let ds := steps ws
  let nibs := ds.map fun d => if d ≤ 14 then d else 15
  let side := ds.filter fun d => decide (14 < d)
  BitVec.ofNat 512 (toBits 8 (ws.headD 0) + 2 ^ 12 * nibs.foldr (fun v acc => v + 16 * acc) 0 +
    2 ^ 264 * side.foldr (fun v acc => v + 256 * acc) 0)

/-- WSORT (R126). -/
def execWsort (h : Hdr) (d a b : Reg) (grp : BitVec 8) (s : State) :=
  elemWord (.wsort h d a b grp) s fun s =>
    let v := eVector s a 8
    let order := sortLanes v
    let p := BitVec.ofNat 384 (order.foldr (fun i acc => i + 64 * acc) 0)
    .ok (s, .vector d (difRecord (order.map (i8 v))) :: if west s then [.perm (groupOf s grp b) p] else [])

/-- YCLR (R127). -/
def execYclr (h : Hdr) (d : Reg) (s : State) :=
  elemWord (.yclr h d) s fun s => .ok (s, [.sum d 0])

end Sys2Proof.Machine
end

