-- ==== Sys2Proof/Machine/Vector.lean ====
section
/-! DEFINITION. The vector words of the elements, formats VA (R453 to R464) and VP (R458, R460, R463). -/

namespace Sys2Proof.Machine

/-- A VECTOR WORD: its result and its flags, written together at retirement (R87, R454). -/
def vectorWord (i : Instr) (d : Reg) (s : State) (f : State → Line × Flags) : Host.Outcome State Fault Refusal :=
  elemWord i s fun s => let r := f s; .ok (s, [.vector d r.1, .flags r.2])

/-- Lanes of width `w` computed one by one, with their flags together. -/
def laneWise (w : Nat) (f : Nat → Nat × Flags) : Line × Flags :=
  let rs := (List.range (512 / w)).map f
  (ofLanes w (rs.map fun r => r.1), rs.foldl (fun a r => a ||| r.2) 0)

/-- A signed value brought into a lane: clamped with SAT, or wrapped (R456). -/
def intLane (w : Nat) (sat : BitVec 1) (v : Int) : Nat × Flags :=
  if sat == 1 then let c := clampInt w v; (toBits w c.1, flagIf c.2 flagSAT) else (toBits w v, 0)

/-- The operands of a lane: the pattern of each source. -/
structure Lanes where
  a : Nat
  b : Nat
  c : Nat
  deriving DecidableEq, Repr

/-- The lanes of the sources A, B and C of the executing element. -/
def lanesOf (s : State) (w : Nat) (a b c : Reg) (j : Nat) : Lanes :=
  ⟨lane (eVector s a w) w j, lane (eVector s b w) w j, lane (eVector s c w) w j⟩

/-- LANE ARITHMETIC: an exact integer operation, or an exact operation on values rounded once (R456). -/
def laneArith (i : Instr) (d a b c : Reg) (ty : BitVec 4) (rm : BitVec 3) (sat : BitVec 1)
    (onInt : Int → Int → Int → Int) (onVal : FVal → FVal → FVal → FVal × Flags) (s : State) :
    Host.Outcome State Fault Refusal :=
  vectorWord i d s fun s =>
    let w := tagWidth ty
    laneWise w fun j =>
      let l := lanesOf s w a b c j
      if intTag ty then intLane w sat (onInt (sInt w l.a) (sInt w l.b) (sInt w l.c))
      else
        let v := onVal ((fmtOf ty).value l.a) ((fmtOf ty).value l.b) ((fmtOf ty).value l.c)
        let r := (fmtOf ty).round rm (myDraw s j) v.1
        (r.1, v.2 ||| r.2)

def execVadd (h : Hdr) (d a b : Reg) (ty : BitVec 4) (rm : BitVec 3) (sat : BitVec 1) (s : State) :=
  laneArith (.vadd h d a b ty rm sat) d a b b ty rm sat (fun x y _ => x + y) (fun x y _ => addV rm x y) s
def execVsub (h : Hdr) (d a b : Reg) (ty : BitVec 4) (rm : BitVec 3) (sat : BitVec 1) (s : State) :=
  laneArith (.vsub h d a b ty rm sat) d a b b ty rm sat (fun x y _ => x - y) (fun x y _ => addV rm x y.neg) s
def execVmul (h : Hdr) (d a b : Reg) (ty : BitVec 4) (rm : BitVec 3) (sat : BitVec 1) (s : State) :=
  laneArith (.vmul h d a b ty rm sat) d a b b ty rm sat (fun x y _ => x * y) (fun x y _ => mulV x y) s
def execVfma (h : Hdr) (d a b c : Reg) (ty : BitVec 4) (rm : BitVec 3) (sat : BitVec 1) (s : State) :=
  laneArith (.vfma h d a b c ty rm sat) d a b c ty rm sat (fun x y z => x * y + z) (fun x y z => fmaV rm x y z) s
def execVmin (h : Hdr) (d a b : Reg) (ty : BitVec 4) (s : State) :=
  laneArith (.vmin h d a b ty) d a b b ty 0 0 (fun x y _ => min x y) (fun x y _ => minmaxV false x y) s
def execVmax (h : Hdr) (d a b : Reg) (ty : BitVec 4) (s : State) :=
  laneArith (.vmax h d a b ty) d a b b ty 0 0 (fun x y _ => max x y) (fun x y _ => minmaxV true x y) s

/-- The sign change of VABS and VNEG, exact; a NaN gives the canonical NaN and no flag (R456). -/
def signLane (f : Fmt) (op : FVal → FVal) (v : Nat) : Nat × Flags :=
  let x := f.value v
  if x.isNan then (f.nan, 0) else ((f.round 0 0 (op x)).1, 0)

def execVabs (h : Hdr) (d a : Reg) (ty : BitVec 4) (sat : BitVec 1) (s : State) :=
  vectorWord (.vabs h d a ty sat) d s fun s =>
    let w := tagWidth ty
    laneWise w fun j =>
      let v := lane (eVector s a w) w j
      if intTag ty then intLane w sat (Int.natAbs (sInt w v)) else signLane (fmtOf ty) FVal.abs v
def execVneg (h : Hdr) (d a : Reg) (ty : BitVec 4) (sat : BitVec 1) (s : State) :=
  vectorWord (.vneg h d a ty sat) d s fun s =>
    let w := tagWidth ty
    laneWise w fun j =>
      let v := lane (eVector s a w) w j
      if intTag ty then intLane w sat (-(sInt w v)) else signLane (fmtOf ty) FVal.neg v

/-- A LANE FUNCTION: correctly rounded (R464). -/
def laneFunction (i : Instr) (d a : Reg) (ty : BitVec 4) (f : Nat → FVal → Nat × Flags) (s : State) :
    Host.Outcome State Fault Refusal :=
  vectorWord i d s fun s =>
    let w := tagWidth ty
    laneWise w fun j => f (myDraw s j) ((fmtOf ty).value (lane (eVector s a w) w j))

def execVexp (h : Hdr) (d a : Reg) (ty : BitVec 4) (rm : BitVec 3) (s : State) :=
  laneFunction (.vexp h d a ty rm) d a ty (fun draw x => (fmtOf ty).exp rm draw x) s
def execVlog (h : Hdr) (d a : Reg) (ty : BitVec 4) (rm : BitVec 3) (s : State) :=
  laneFunction (.vlog h d a ty rm) d a ty (fun draw x => (fmtOf ty).log rm draw x) s
def execVrcp (h : Hdr) (d a : Reg) (ty : BitVec 4) (rm : BitVec 3) (s : State) :=
  laneFunction (.vrcp h d a ty rm) d a ty (fun draw x => (fmtOf ty).recip rm draw x) s
def execVrsq (h : Hdr) (d a : Reg) (ty : BitVec 4) (rm : BitVec 3) (s : State) :=
  laneFunction (.vrsq h d a ty rm) d a ty (fun draw x => (fmtOf ty).rsqrt rm draw x) s

/-- VSETC: all ones where the condition holds (R470). -/
def execVsetc (h : Hdr) (d a b : Reg) (ty : BitVec 4) (cc : BitVec 3) (s : State) :=
  vectorWord (.vsetc h d a b ty cc) d s fun s =>
    let w := tagWidth ty
    laneWise w fun j =>
      let l := lanesOf s w a b b j
      let r : Bool × Flags :=
        if intTag ty then (compareInt cc 0 (BitVec.ofNat w l.a) (BitVec.ofNat w l.b), 0)
        else compareV cc ((fmtOf ty).value l.a) ((fmtOf ty).value l.b)
      (if r.1 then 2 ^ w - 1 else 0, r.2)

/-- VSEL (R470). -/
def execVsel (h : Hdr) (d a b c : Reg) (ty : BitVec 4) (s : State) :=
  vectorWord (.vsel h d a b c ty) d s fun s =>
    let w := tagWidth ty
    laneWise w fun j => let l := lanesOf s w a b c j; (if l.c != 0 then l.a else l.b, 0)

/-! ### Whole-register logic (R457) -/

def execVand (h : Hdr) (d a b : Reg) (s : State) :=
  vectorWord (.vand h d a b) d s fun s => (eVector s a 512 &&& eVector s b 512, 0)
def execVor (h : Hdr) (d a b : Reg) (s : State) :=
  vectorWord (.vor h d a b) d s fun s => (eVector s a 512 ||| eVector s b 512, 0)
def execVxor (h : Hdr) (d a b : Reg) (s : State) :=
  vectorWord (.vxor h d a b) d s fun s => (eVector s a 512 ^^^ eVector s b 512, 0)
def execVmov (h : Hdr) (d a : Reg) (s : State) :=
  vectorWord (.vmov h d a) d s fun s => (eVector s a 512, 0)

/-! ### Lane shifts (R471) -/

def execVshl (h : Hdr) (d a b : Reg) (ty : BitVec 4) (s : State) :=
  vectorWord (.vshl h d a b ty) d s fun s =>
    let w := tagWidth ty
    laneWise w fun j => let l := lanesOf s w a b b j; (l.a * 2 ^ (l.b % w) % 2 ^ w, 0)
def execVshr (h : Hdr) (d a b : Reg) (ty : BitVec 4) (sat : BitVec 1) (s : State) :=
  vectorWord (.vshr h d a b ty sat) d s fun s =>
    let w := tagWidth ty
    laneWise w fun j =>
      let l := lanesOf s w a b b j
      (if sat == 1 then toBits w (sInt w l.a / (2 ^ (l.b % w) : Nat)) else l.a / 2 ^ (l.b % w), 0)

/-! ### Reductions (R461, R462) -/

/-- The pairwise tree over integers, each addition wrapping or saturating at 32 bits (R114). -/
def intTree (sat : BitVec 1) (l : List Int) : Nat × Flags :=
  let r := pairTree (fun (a b : Int × Flags) =>
    let v := intLane 32 sat (a.1 + b.1)
    (sInt 32 v.1, a.2 ||| b.2 ||| v.2)) 8 (l.map fun v => (v, (0 : Flags)))
  (toBits 32 r.1, r.2)

/-- The pairwise tree over values, rounding into a format (R113). -/
def floatTree (oty : BitVec 4) (rm : BitVec 3) (l : List (FVal × Flags)) : Nat × Flags :=
  let r := pairwiseSum (fmtOf oty) rm (l.map fun v => v.1)
  (((fmtOf oty).round rm 0 r.1).1, l.foldl (fun f v => f ||| v.2) r.2)

def execVdot (h : Hdr) (d a b : Reg) (ty : BitVec 4) (rm : BitVec 3) (oty : BitVec 4) (sat : BitVec 1) (s : State) :=
  vectorWord (.vdot h d a b ty rm oty sat) d s fun s =>
    let w := tagWidth ty
    let ls := (List.range (512 / w)).map (lanesOf s w a b b)
    let r := if intTag ty then intTree sat (ls.map fun l => sInt w l.a * sInt w l.b)
      else floatTree oty rm (ls.map fun l => mulV (arithValue ty l.a) (arithValue ty l.b))
    (BitVec.ofNat 512 r.1, r.2)

def execVred (h : Hdr) (d a : Reg) (ty : BitVec 4) (rm : BitVec 3) (oty : BitVec 4) (sat : BitVec 1) (s : State) :=
  vectorWord (.vred h d a ty rm oty sat) d s fun s =>
    let w := tagWidth ty
    let ls := lanes (eVector s a w) w
    let r := if intTag ty then intTree sat (ls.map (sInt w))
      else floatTree oty rm (ls.map fun v => (arithValue ty v, 0))
    (BitVec.ofNat 512 r.1, r.2)

/-- The inclusive sums of a list, in order, from a running pattern. -/
def scanFrom (add : Nat → Nat → Nat × Flags) : Nat × Flags → List Nat → List (Nat × Flags)
  | acc, [] => [acc]
  | acc, v :: l => acc :: scanFrom add (let r := add acc.1 v; (r.1, acc.2 ||| r.2)) l

def execVscan (h : Hdr) (d a : Reg) (ty : BitVec 4) (rm : BitVec 3) (oty : BitVec 4) (sat : BitVec 1) (s : State) :=
  vectorWord (.vscan h d a ty rm oty sat) d s fun s =>
    let w := tagWidth ty
    let f := fmtOf ty
    let add := fun (x y : Nat) =>
      if intTag ty then intLane w sat (sInt w x + sInt w y)
      else let v := addV rm (f.value x) (f.value y); let r := f.round rm 0 v.1; (r.1, v.2 ||| r.2)
    match lanes (eVector s a w) w with
    | [] => (0, 0)
    | v :: l =>
      let first := if intTag ty then (v, 0) else convertTag ty ty 0 0 v
      let rs := scanFrom add first l
      (ofLanes w (rs.map fun r => r.1), rs.foldl (fun a r => a ||| r.2) 0)

/-! ### Lane moves (R458) -/

def execVshuf (h : Hdr) (d a b : Reg) (ty : BitVec 4) (s : State) :=
  vectorWord (.vshuf h d a b ty) d s fun s =>
    let w := tagWidth ty
    laneWise w fun j => (lane (eVector s a w) w (lane (eVector s b w) w j % (512 / w)), 0)

/-- VBCAST of a scalar, or of lane IDX of a vector. -/
def execVbcast (h : Hdr) (d a : Reg) (ty : BitVec 4) (idx : BitVec 6) (s : State) :=
  vectorWord (.vbcast h d a ty idx) d s fun s =>
    let w := tagWidth ty
    let v := if 32 ≤ a && a != 62 then lane (eVector s a w) w idx.toNat else bits (eScalar s a).toNat 0 w
    laneWise w fun _ => (v, 0)

/-- VEXTR: lane (IDX + b) mod n, sign-extended for integer tags. -/
def execVextr (h : Hdr) (d a b : Reg) (ty : BitVec 4) (idx : BitVec 6) (s : State) :=
  elemWord (.vextr h d a b ty idx) s fun s =>
    let w := tagWidth ty
    let v := lane (eVector s a w) w ((idx.toNat + (eScalar s b).toNat) % (512 / w))
    .ok (s, [.scalar d (if intTag ty then BitVec.ofInt 32 (sInt w v) else BitVec.ofNat 32 v)])

/-- VINS: D is read in the cycle the word executes (R88). -/
def execVins (h : Hdr) (d a b : Reg) (ty : BitVec 4) (idx : BitVec 6) (s : State) :=
  vectorWord (.vins h d a b ty idx) d s fun s =>
    let w := tagWidth ty
    let k := (idx.toNat + (eScalar s b).toNat) % (512 / w)
    laneWise w fun j => (if j == k then bits (eScalar s a).toNat 0 w else lane (eVector s d w) w j, 0)

/-! ### Lane conversions (R460) -/

def execVcvt (h : Hdr) (d a : Reg) (ty : BitVec 4) (rm : BitVec 3) (oty : BitVec 4) (s : State) :=
  vectorWord (.vcvt h d a ty rm oty) d s fun s =>
    let w := tagWidth ty
    laneWise w fun j => convertTag ty oty rm (myDraw s j) (lane (eVector s a w) w j)

def execVpack (h : Hdr) (d a b : Reg) (ty : BitVec 4) (rm : BitVec 3) (oty : BitVec 4) (s : State) :=
  vectorWord (.vpack h d a b ty rm oty) d s fun s =>
    let w := tagWidth ty
    let n := 512 / w
    laneWise (tagWidth oty) fun j =>
      convertTag ty oty rm (myDraw s j) (if j < n then lane (eVector s a w) w j else lane (eVector s b w) w (j - n))

def execVunpk (h : Hdr) (d a : Reg) (ty : BitVec 4) (rm : BitVec 3) (oty : BitVec 4) (imm8 : BitVec 8) (s : State) :=
  vectorWord (.vunpk h d a ty rm oty imm8) d s fun s =>
    let w := tagWidth ty
    let n := 512 / tagWidth oty
    laneWise (tagWidth oty) fun j =>
      convertTag ty oty rm (myDraw s j) (lane (eVector s a w) w (j + imm8.toNat * n))

/-! ### MX blocks (R463) -/

/-- BLK and SPLIT of IMM8. -/
def blkOf (imm8 : BitVec 8) : Nat := bits imm8.toNat 0 2
def splitOf (imm8 : BitVec 8) : Bool := imm8.getLsbD 7

/-- The 32 patterns of VQNT: of A under a 16-bit tag, of A and A + 1 under FP32. -/
def quantSource (s : State) (a : Reg) (ty : BitVec 4) : List Nat :=
  if ty == 0 then lanes (eVector s a 32) 32 ++ lanes (eVector s (a + 1) 32) 32 else lanes (eVector s a 16) 16

/-- VQNT: block BLK of the pair D, D + 1 written, every other byte kept. -/
def execVqnt (h : Hdr) (d a b : Reg) (ty : BitVec 4) (rm : BitVec 3) (oty : BitVec 4) (imm8 : BitVec 8) (s : State) :=
  elemWord (.vqnt h d a b ty rm oty imm8) s fun s =>
    let x := (quantSource s a ty).map (fmtOf ty).value
    let draws := (List.range 32).map (myDraw s)
    let m := if splitOf imm8 then mxQuantSplit x oty (fp32.value (eScalar s b).toNat) rm draws
      else mxQuantStd x oty rm draws
    let p := setPairBlock oty (eVector s d 512) (eVector s (d + 1) 512) (blkOf imm8) m
    .ok (s, [.vector d p.1, .vector (d + 1) p.2, .flags m.flags])

/-- VDQNT: the 32 values of block BLK of the pair A, A + 1, laid out as VQNT reads them. -/
def execVdqnt (h : Hdr) (d a : Reg) (ty : BitVec 4) (rm : BitVec 3) (oty : BitVec 4) (imm8 : BitVec 8) (s : State) :=
  elemWord (.vdqnt h d a ty rm oty imm8) s fun s =>
    let p := pairBlock ty (eVector s a 512) (eVector s (a + 1) 512) (blkOf imm8)
    let ys := (List.range 32).map fun i => (fmtOf oty).round rm (myDraw s i) (mxValue ty p.1 p.2.1 p.2.2 i)
    let w := tagWidth oty
    let f := ys.foldl (fun a r => a ||| r.2) 0
    let vs := ys.map fun r => r.1
    .ok (s, if oty == 0 then [.vector d (ofLanes w (vs.take 16)), .vector (d + 1) (ofLanes w (vs.drop 16)), .flags f]
      else [.vector d (ofLanes w vs), .flags f])

end Sys2Proof.Machine
end

