-- ==== Sys2Proof/Machine/Dispatch.lean ====
section
/-! DEFINITION. One arm per instruction and event of the opcode table: the call of its meaning. -/

namespace Sys2Proof.Machine

def exec (i : Instr) (s : State) : Host.Outcome State Fault Refusal :=
  match i with
  | .nop h => Sys2Proof.Machine.execNop h s
  | .halt h => Sys2Proof.Machine.execHalt h s
  | .trap h imm => Sys2Proof.Machine.execTrap h imm s
  | .eret h => Sys2Proof.Machine.execEret h s
  | .mfsr h d sr => Sys2Proof.Machine.execMfsr h d sr s
  | .mtsr h a sr => Sys2Proof.Machine.execMtsr h a sr s
  | .launch h d a b => Sys2Proof.Machine.execLaunch h d a b s
  | .tlaunch h d a b => Sys2Proof.Machine.execTlaunch h d a b s
  | .loadcfg h a => Sys2Proof.Machine.execLoadcfg h a s
  | .reconf h => Sys2Proof.Machine.execReconf h s
  | .shrink h d a b => Sys2Proof.Machine.execShrink h d a b s
  | .shrinkQuery h d a b => Sys2Proof.Machine.execShrinkQuery h d a b s
  | .csave h d a b imm => Sys2Proof.Machine.execCsave h d a b imm s
  | .crest h d a => Sys2Proof.Machine.execCrest h d a s
  | .wdogRestart h d a => Sys2Proof.Machine.execWdogRestart h d a s
  | .wdogReport h d a => Sys2Proof.Machine.execWdogReport h d a s
  | .wdogNextStep h d a => Sys2Proof.Machine.execWdogNextStep h d a s
  | .wdogSuspend h d a => Sys2Proof.Machine.execWdogSuspend h d a s
  | .phcrd h d a => Sys2Proof.Machine.execPhcrd h d a s
  | .sslotBind h d a b => Sys2Proof.Machine.execSslotBind h d a b s
  | .sslotRefresh h d a b => Sys2Proof.Machine.execSslotRefresh h d a b s
  | .sslotEvict h d a => Sys2Proof.Machine.execSslotEvict h d a s
  | .rtywSupply h d a b => Sys2Proof.Machine.execRtywSupply h d a b s
  | .rtywReplay h d a b => Sys2Proof.Machine.execRtywReplay h d a b s
  | .rtypop h d => Sys2Proof.Machine.execRtypop h d s
  | .tlbinvAll h => Sys2Proof.Machine.execTlbinvAll h s
  | .tlbinvAsid h b => Sys2Proof.Machine.execTlbinvAsid h b s
  | .tlbinvAddress h a b => Sys2Proof.Machine.execTlbinvAddress h a b s
  | .ifence h => Sys2Proof.Machine.execIfence h s
  | .vcset h d a => Sys2Proof.Machine.execVcset h d a s
  | .tqset h d a => Sys2Proof.Machine.execTqset h d a s
  | .tqtest h d a => Sys2Proof.Machine.execTqtest h d a s
  | .add h d a b => Sys2Proof.Machine.execAdd h d a b s
  | .sub h d a b => Sys2Proof.Machine.execSub h d a b s
  | .mul h d a b => Sys2Proof.Machine.execMul h d a b s
  | .and h d a b => Sys2Proof.Machine.execAnd h d a b s
  | .or h d a b => Sys2Proof.Machine.execOr h d a b s
  | .xor h d a b => Sys2Proof.Machine.execXor h d a b s
  | .shl h d a b => Sys2Proof.Machine.execShl h d a b s
  | .shr h d a b => Sys2Proof.Machine.execShr h d a b s
  | .sra h d a b => Sys2Proof.Machine.execSra h d a b s
  | .mulh h d a b u => Sys2Proof.Machine.execMulh h d a b u s
  | .div h d a b u => Sys2Proof.Machine.execDiv h d a b u s
  | .rem h d a b u => Sys2Proof.Machine.execRem h d a b u s
  | .min h d a b u => Sys2Proof.Machine.execMin h d a b u s
  | .max h d a b u => Sys2Proof.Machine.execMax h d a b u s
  | .clz h d a => Sys2Proof.Machine.execClz h d a s
  | .popc h d a => Sys2Proof.Machine.execPopc h d a s
  | .setc h d a b u cc => Sys2Proof.Machine.execSetc h d a b u cc s
  | .sel h d a b c => Sys2Proof.Machine.execSel h d a b c s
  | .bfx h d a u pos len => Sys2Proof.Machine.execBfx h d a u pos len s
  | .bfi h d a b pos len => Sys2Proof.Machine.execBfi h d a b pos len s
  | .lea h d a b pos => Sys2Proof.Machine.execLea h d a b pos s
  | .addImm h d a imm => Sys2Proof.Machine.execAddImm h d a imm s
  | .andImm h d a imm => Sys2Proof.Machine.execAndImm h d a imm s
  | .orImm h d a imm => Sys2Proof.Machine.execOrImm h d a imm s
  | .xorImm h d a imm => Sys2Proof.Machine.execXorImm h d a imm s
  | .shlImm h d a imm => Sys2Proof.Machine.execShlImm h d a imm s
  | .shrImm h d a imm => Sys2Proof.Machine.execShrImm h d a imm s
  | .sraImm h d a imm => Sys2Proof.Machine.execSraImm h d a imm s
  | .setcImm h d a u cc imm => Sys2Proof.Machine.execSetcImm h d a u cc imm s
  | .movi h d imm => Sys2Proof.Machine.execMovi h d imm s
  | .movh h d a imm => Sys2Proof.Machine.execMovh h d a imm s
  | .fadd h d a b ty rm => Sys2Proof.Machine.execFadd h d a b ty rm s
  | .fsub h d a b ty rm => Sys2Proof.Machine.execFsub h d a b ty rm s
  | .fmul h d a b ty rm => Sys2Proof.Machine.execFmul h d a b ty rm s
  | .fdiv h d a b ty rm => Sys2Proof.Machine.execFdiv h d a b ty rm s
  | .ffma h d a b c ty rm => Sys2Proof.Machine.execFfma h d a b c ty rm s
  | .fsqrt h d a ty rm => Sys2Proof.Machine.execFsqrt h d a ty rm s
  | .fmin h d a b ty => Sys2Proof.Machine.execFmin h d a b ty s
  | .fmax h d a b ty => Sys2Proof.Machine.execFmax h d a b ty s
  | .fsetc h d a b ty cc => Sys2Proof.Machine.execFsetc h d a b ty cc s
  | .fcvt h d a ty rm tty => Sys2Proof.Machine.execFcvt h d a ty rm tty s
  | .fclass h d a ty => Sys2Proof.Machine.execFclass h d a ty s
  | .vadd h d a b ty rm sat => Sys2Proof.Machine.execVadd h d a b ty rm sat s
  | .vsub h d a b ty rm sat => Sys2Proof.Machine.execVsub h d a b ty rm sat s
  | .vmul h d a b ty rm sat => Sys2Proof.Machine.execVmul h d a b ty rm sat s
  | .vfma h d a b c ty rm sat => Sys2Proof.Machine.execVfma h d a b c ty rm sat s
  | .vmin h d a b ty => Sys2Proof.Machine.execVmin h d a b ty s
  | .vmax h d a b ty => Sys2Proof.Machine.execVmax h d a b ty s
  | .vabs h d a ty sat => Sys2Proof.Machine.execVabs h d a ty sat s
  | .vneg h d a ty sat => Sys2Proof.Machine.execVneg h d a ty sat s
  | .vexp h d a ty rm => Sys2Proof.Machine.execVexp h d a ty rm s
  | .vlog h d a ty rm => Sys2Proof.Machine.execVlog h d a ty rm s
  | .vrcp h d a ty rm => Sys2Proof.Machine.execVrcp h d a ty rm s
  | .vrsq h d a ty rm => Sys2Proof.Machine.execVrsq h d a ty rm s
  | .vsetc h d a b ty cc => Sys2Proof.Machine.execVsetc h d a b ty cc s
  | .vsel h d a b c ty => Sys2Proof.Machine.execVsel h d a b c ty s
  | .vand h d a b => Sys2Proof.Machine.execVand h d a b s
  | .vor h d a b => Sys2Proof.Machine.execVor h d a b s
  | .vxor h d a b => Sys2Proof.Machine.execVxor h d a b s
  | .vmov h d a => Sys2Proof.Machine.execVmov h d a s
  | .vshl h d a b ty => Sys2Proof.Machine.execVshl h d a b ty s
  | .vshr h d a b ty sat => Sys2Proof.Machine.execVshr h d a b ty sat s
  | .vdot h d a b ty rm oty sat => Sys2Proof.Machine.execVdot h d a b ty rm oty sat s
  | .vred h d a ty rm oty sat => Sys2Proof.Machine.execVred h d a ty rm oty sat s
  | .vscan h d a ty rm oty sat => Sys2Proof.Machine.execVscan h d a ty rm oty sat s
  | .vshuf h d a b ty => Sys2Proof.Machine.execVshuf h d a b ty s
  | .vbcast h d a ty idx => Sys2Proof.Machine.execVbcast h d a ty idx s
  | .vextr h d a b ty idx => Sys2Proof.Machine.execVextr h d a b ty idx s
  | .vins h d a b ty idx => Sys2Proof.Machine.execVins h d a b ty idx s
  | .vpack h d a b ty rm oty => Sys2Proof.Machine.execVpack h d a b ty rm oty s
  | .vunpk h d a ty rm oty imm8 => Sys2Proof.Machine.execVunpk h d a ty rm oty imm8 s
  | .vcvt h d a ty rm oty => Sys2Proof.Machine.execVcvt h d a ty rm oty s
  | .vqnt h d a b ty rm oty imm8 => Sys2Proof.Machine.execVqnt h d a b ty rm oty imm8 s
  | .vdqnt h d a ty rm oty imm8 => Sys2Proof.Machine.execVdqnt h d a ty rm oty imm8 s
  | .mmode h ty f => Sys2Proof.Machine.execMmode h ty f s
  | .wload h a b ty f => Sys2Proof.Machine.execWload h a b ty f s
  | .mma h a b ty rm row f => Sys2Proof.Machine.execMma h a b ty rm row f s
  | .mmasp h a b ty rm row f => Sys2Proof.Machine.execMmasp h a b ty rm row f s
  | .mmeta h a => Sys2Proof.Machine.execMmeta h a s
  | .accz h b row => Sys2Proof.Machine.execAccz h b row s
  | .accld h a b ty row => Sys2Proof.Machine.execAccld h a b ty row s
  | .accst h a b ty rm row => Sys2Proof.Machine.execAccst h a b ty rm row s
  | .accrd h d b row colb => Sys2Proof.Machine.execAccrd h d b row colb s
  | .accwr h a b row colb => Sys2Proof.Machine.execAccwr h a b row colb s
  | .prmld h a b grp => Sys2Proof.Machine.execPrmld h a b grp s
  | .prmap h d a b grp => Sys2Proof.Machine.execPrmap h d a b grp s
  | .scans h d a => Sys2Proof.Machine.execScans h d a s
  | .difld h d a => Sys2Proof.Machine.execDifld h d a s
  | .difmul h d a b c => Sys2Proof.Machine.execDifmul h d a b c s
  | .sbpfin h d a b c rm => Sys2Proof.Machine.execSbpfin h d a b c rm s
  | .wsort h d a b grp => Sys2Proof.Machine.execWsort h d a b grp s
  | .yclr h d => Sys2Proof.Machine.execYclr h d s
  | .ld h d a b off port hint ty => Sys2Proof.Machine.execLd h d a b off port hint ty s
  | .st h d a b off port hint ty => Sys2Proof.Machine.execSt h d a b off port hint ty s
  | .vld h d a b off port hint ty => Sys2Proof.Machine.execVld h d a b off port hint ty s
  | .vst h d a b off port hint ty => Sys2Proof.Machine.execVst h d a b off port hint ty s
  | .ldw h d a b off win port hint ty => Sys2Proof.Machine.execLdw h d a b off win port hint ty s
  | .vldw h d a b off win port hint ty => Sys2Proof.Machine.execVldw h d a b off win port hint ty s
  | .vldx h d a b off port hint ty => Sys2Proof.Machine.execVldx h d a b off port hint ty s
  | .vstx h d a b off port hint ty => Sys2Proof.Machine.execVstx h d a b off port hint ty s
  | .bufput h d a off port ty => Sys2Proof.Machine.execBufput h d a off port ty s
  | .bufget h d off port ty => Sys2Proof.Machine.execBufget h d off port ty s
  | .ldsp h d a b off ty => Sys2Proof.Machine.execLdsp h d a b off ty s
  | .stsp h d a b off ty => Sys2Proof.Machine.execStsp h d a b off ty s
  | .pref h d a b off => Sys2Proof.Machine.execPref h d a b off s
  | .shadow h d a b off port => Sys2Proof.Machine.execShadow h d a b off port s
  | .unshadow h a port => Sys2Proof.Machine.execUnshadow h a port s
  | .clean h a b off => Sys2Proof.Machine.execClean h a b off s
  | .inval h a b off => Sys2Proof.Machine.execInval h a b off s
  | .send h a chan => Sys2Proof.Machine.execSend h a chan s
  | .recv h d chan => Sys2Proof.Machine.execRecv h d chan s
  | .vsend h a chan => Sys2Proof.Machine.execVsend h a chan s
  | .vrecv h d chan => Sys2Proof.Machine.execVrecv h d chan s
  | .csend h a chan => Sys2Proof.Machine.execCsend h a chan s
  | .crecv h d chan => Sys2Proof.Machine.execCrecv h d chan s
  | .sbind h a b port strm => Sys2Proof.Machine.execSbind h a b port strm s
  | .sq h a port strm => Sys2Proof.Machine.execSq h a port strm s
  | .scopy h d a b c port strm => Sys2Proof.Machine.execScopy h d a b c port strm s
  | .scancel h d port strm => Sys2Proof.Machine.execScancel h d port strm s
  | .ssub h d a port strm => Sys2Proof.Machine.execSsub h d a port strm s
  | .sdist h a strm => Sys2Proof.Machine.execSdist h a strm s
  | .sstat h d a port strm => Sys2Proof.Machine.execSstat h d a port strm s
  | .opset h a unit param => Sys2Proof.Machine.execOpset h a unit param s
  | .opget h d unit param => Sys2Proof.Machine.execOpget h d unit param s
  | .route h a unit param => Sys2Proof.Machine.execRoute h a unit param s
  | .tinj h a b unit param => Sys2Proof.Machine.execTinj h a b unit param s
  | .tdrain h d unit => Sys2Proof.Machine.execTdrain h d unit s
  | .tconv h d a unit => Sys2Proof.Machine.execTconv h d a unit s
  | .tappend h d a b unit => Sys2Proof.Machine.execTappend h d a b unit s
  | .tsplit h d a b unit => Sys2Proof.Machine.execTsplit h d a b unit s
  | .tmerge h d a b unit => Sys2Proof.Machine.execTmerge h d a b unit s
  | .tfork h d a unit => Sys2Proof.Machine.execTfork h d a unit s
  | .tevict h d a b unit => Sys2Proof.Machine.execTevict h d a b unit s
  | .tevictRelease h d a b unit => Sys2Proof.Machine.execTevictRelease h d a b unit s
  | .tquery h d a b c unit => Sys2Proof.Machine.execTquery h d a b c unit s
  | .tnode h d a b c unit param => Sys2Proof.Machine.execTnode h d a b c unit param s
  | .pklook h d a b c unit => Sys2Proof.Machine.execPklook h d a b c unit s
  | .smpdrawSample h d a b unit => Sys2Proof.Machine.execSmpdrawSample h d a b unit s
  | .smpdrawVerify h d a b c unit => Sys2Proof.Machine.execSmpdrawVerify h d a b c unit s
  | .acpt h d a b c unit => Sys2Proof.Machine.execAcpt h d a b c unit s
  | .gmstep h d a unit => Sys2Proof.Machine.execGmstep h d a unit s
  | .fence h scope => Sys2Proof.Machine.execFence h scope s
  | .frame h => Sys2Proof.Machine.execFrame h s
  | .rmws h d a b c aop ty slot => Sys2Proof.Machine.execRmws h d a b c aop ty slot s
  | .redseq h a b c aop ty => Sys2Proof.Machine.execRedseq h a b c aop ty s
  | .amo h d a b c aop ty => Sys2Proof.Machine.execAmo h d a b c aop ty s
  | .bara h a b => Sys2Proof.Machine.execBara h a b s
  | .barw h a => Sys2Proof.Machine.execBarw h a s
  | .marm h a => Sys2Proof.Machine.execMarm h a s
  | .mwait h d a => Sys2Proof.Machine.execMwait h d a s
  | .xbegin h => Sys2Proof.Machine.execXbegin h s
  | .xend h d => Sys2Proof.Machine.execXend h d s
  | .xabort h a => Sys2Proof.Machine.execXabort h a s
  | .br h off => Sys2Proof.Machine.execBr h off s
  | .bc h a b cc u off => Sys2Proof.Machine.execBc h a b cc u off s
  | .jal h d off => Sys2Proof.Machine.execJal h d off s
  | .jalr h d a off => Sys2Proof.Machine.execJalr h d a off s
  | .istartFreshStart h sr a => Sys2Proof.Machine.execIstartFreshStart h sr a s
  | .istartResume h sr a => Sys2Proof.Machine.execIstartResume h sr a s
  | .istartCancel h sr a => Sys2Proof.Machine.execIstartCancel h sr a s
  | .eflagsClear h sr a => Sys2Proof.Machine.execEflagsClear h sr a s
  | .ufinfoRead h d sr => Sys2Proof.Machine.execUfinfoRead h d sr s
  | .ucfgRead h d sr => Sys2Proof.Machine.execUcfgRead h d sr s
  | .lqstatClearDrops h sr a => Sys2Proof.Machine.execLqstatClearDrops h sr a s
  | .shctlRun h sr a => Sys2Proof.Machine.execShctlRun h sr a s
  | .shctlFreeze h sr a => Sys2Proof.Machine.execShctlFreeze h sr a s
  | .shctlReset h sr a => Sys2Proof.Machine.execShctlReset h sr a s
  | .windowDataArrival g e w => Sys2Proof.Machine.execWindowDataArrival g e w s
  | .windowClose g e w => Sys2Proof.Machine.execWindowClose g e w s
  | .freezeLimit g => Sys2Proof.Machine.execFreezeLimit g s
  | .invocationEnd g => Sys2Proof.Machine.execInvocationEnd g s
  | .cueRelease gr => Sys2Proof.Machine.execCueRelease gr s
  | .understudySwitch gr => Sys2Proof.Machine.execUnderstudySwitch gr s
  | .loadcfgInstall g => Sys2Proof.Machine.execLoadcfgInstall g s
  | .reconfTokenPass gr => Sys2Proof.Machine.execReconfTokenPass gr s
  | .scoreFiring u => Sys2Proof.Machine.execScoreFiring u s
  | .descendFiring u => Sys2Proof.Machine.execDescendFiring u s
  | .treeupdFiring u => Sys2Proof.Machine.execTreeupdFiring u s
  | .queryPin u => Sys2Proof.Machine.execQueryPin u s
  | .queryUnpin u => Sys2Proof.Machine.execQueryUnpin u s
  | .pkeyFiring u => Sys2Proof.Machine.execPkeyFiring u s
  | .cascellHeader u => Sys2Proof.Machine.execCascellHeader u s
  | .cascellCollect u => Sys2Proof.Machine.execCascellCollect u s
  | .cascellDrain u => Sys2Proof.Machine.execCascellDrain u s
  | .cumselSampleFiring u => Sys2Proof.Machine.execCumselSampleFiring u s
  | .cumselVerifyFiring u => Sys2Proof.Machine.execCumselVerifyFiring u s
  | .acceptFiring u => Sys2Proof.Machine.execAcceptFiring u s
  | .grammarStepFiring u => Sys2Proof.Machine.execGrammarStepFiring u s
  | .grammarMaskFiring u => Sys2Proof.Machine.execGrammarMaskFiring u s
  | .gatherFiring u => Sys2Proof.Machine.execGatherFiring u s
  | .gatherRowArrival u k => Sys2Proof.Machine.execGatherRowArrival u k s
  | .reduceFiring u => Sys2Proof.Machine.execReduceFiring u s
  | .quantFiring u => Sys2Proof.Machine.execQuantFiring u s
  | .switchSteer u => Sys2Proof.Machine.execSwitchSteer u s
  | .switchMerge u => Sys2Proof.Machine.execSwitchMerge u s
  | .switchCopy u => Sys2Proof.Machine.execSwitchCopy u s
  | .unitTokenEmit u => Sys2Proof.Machine.execUnitTokenEmit u s
  | .converterTokenIn k => Sys2Proof.Machine.execConverterTokenIn k s
  | .remoteBufputArrival g => Sys2Proof.Machine.execRemoteBufputArrival g s
  | .scalarChannelArrival gr ch => Sys2Proof.Machine.execScalarChannelArrival gr ch s
  | .vectorChannelArrival gr ch => Sys2Proof.Machine.execVectorChannelArrival gr ch s
  | .distributorSendBeat st sub => Sys2Proof.Machine.execDistributorSendBeat st sub s
  | .streamProducerStart g p => Sys2Proof.Machine.execStreamProducerStart g p s
  | .streamCommandFinish g p => Sys2Proof.Machine.execStreamCommandFinish g p s
  | .redseqPlaceFree k => Sys2Proof.Machine.execRedseqPlaceFree k s
  | .mwaitReturn c => Sys2Proof.Machine.execMwaitReturn c s
  | .barwReturn c => Sys2Proof.Machine.execBarwReturn c s
  | .asyncEventTake c => Sys2Proof.Machine.execAsyncEventTake c s
  | .graphStart q => Sys2Proof.Machine.execGraphStart q s
  | .graphEnd gr => Sys2Proof.Machine.execGraphEnd gr s
  | .wdogPreempt gr => Sys2Proof.Machine.execWdogPreempt gr s
  | .wdogKill gr => Sys2Proof.Machine.execWdogKill gr s
  | .wdogFence gr => Sys2Proof.Machine.execWdogFence gr s
  | .saveComplete => Sys2Proof.Machine.execSaveComplete s
  | .softError => Sys2Proof.Machine.execSoftError s
  | .fatalDumpDone => Sys2Proof.Machine.execFatalDumpDone s
  | .powerAverageHigh n => Sys2Proof.Machine.execPowerAverageHigh n s
  | .powerFatal n => Sys2Proof.Machine.execPowerFatal n s
  | .temperatureFatal n => Sys2Proof.Machine.execTemperatureFatal n s
  | .powerOnReset => Sys2Proof.Machine.execPowerOnReset s
  | .bringUpComplete => Sys2Proof.Machine.execBringUpComplete s
  | .attestationRequest nonce => Sys2Proof.Machine.execAttestationRequest nonce s
  | .attestationReport => Sys2Proof.Machine.execAttestationReport s
  | .hostWrite link addr data => Sys2Proof.Machine.execHostWrite link addr data s
  | .hostRead link addr len => Sys2Proof.Machine.execHostRead link addr len s
  | .peerWrite port seq addr data => Sys2Proof.Machine.execPeerWrite port seq addr data s
  | .peerRead port addr len => Sys2Proof.Machine.execPeerRead port addr len s
  | .brunexPacketArrival link => Sys2Proof.Machine.execBrunexPacketArrival link s
  | .linkRetrain link => Sys2Proof.Machine.execLinkRetrain link s
  | .ethernetLinkEvent port => Sys2Proof.Machine.execEthernetLinkEvent port s
  | .ptpEventTimestamp port => Sys2Proof.Machine.execPtpEventTimestamp port s
  | .powerAverageNormal n => Sys2Proof.Machine.execPowerAverageNormal n s
  | .hostLaunchWrite q len data => Sys2Proof.Machine.execHostLaunchWrite q len data s
  | .silenceEviction slot => Sys2Proof.Machine.execSilenceEviction slot s
  | .pageTableWalk root va => Sys2Proof.Machine.execPageTableWalk root va s
  | .codecBlockOperation addr codec key party data => Sys2Proof.Machine.execCodecBlockOperation addr codec key party data s
  | .redseqArrival k => Sys2Proof.Machine.execRedseqArrival k s
  | .prefComplete k => Sys2Proof.Machine.execPrefComplete k s

end Sys2Proof.Machine
end

