-- ==== Sys2Proof/Machine/Turns.lean ====
section
/-! DEFINITION. The turns of the agents (DESIGN CHOICE, log 1): a core runs a word, an element of a region runs the word of its
schedule, a cycle of the arithmetic clock ends, an event happens. -/

namespace Sys2Proof.Machine

/-- What a turn gives. -/
abbrev Result := Host.Outcome State Fault Refusal

/-- The outcome with a function applied to its next state. -/
def onNext (f : State → State) : Result → Result
  | .next s => .next (f s)
  | .fault r => .fault r
  | .refused r => .refused r

/-- The next state of a result, or the state before it. -/
def after (s : State) : Result → State
  | .next t => t
  | _ => s

/-! ### Cores -/

/-- The unit that an instruction, or a request of another unit, asks to serve it (R210, R238). -/
def requestOf (s : State) : Instr → Option Nat
  | .tappend _ _ _ _ u | .tsplit _ _ _ _ u | .tmerge _ _ _ _ u | .tfork _ _ _ u | .tevict _ _ _ _ u
  | .tevictRelease _ _ _ _ u | .tnode _ _ _ _ _ u _ | .pklook _ _ _ _ _ u | .smpdrawSample _ _ _ _ u
  | .smpdrawVerify _ _ _ _ _ u | .acpt _ _ _ _ _ u | .gmstep _ _ _ u => some u.toNat
  | .tquery _ _ _ _ _ u => some (upar s u.toNat 4)
  | .queryPin u | .scoreFiring u => some (upar s u 4)
  | .queryUnpin u => some (pinnedPool s u)
  | _ => none

/-- The first of some events that changes a unit. -/
def firstEvent (s : State) (u : Nat) : List Instr → State
  | [] => s
  | i :: l =>
    let t := after s (exec i s)
    if opUnit t u == opUnit s u then firstEvent s u l else t

/-- A unit that served a request last and whose own firing is ready fires before it serves the next: it takes the two
alternately (R210, R238). -/
def fireBefore (s : State) (u : Nat) : State :=
  if !(opUnit s u).served then s
  else firstEvent s u [.treeupdFiring u, .pkeyFiring u, .cumselSampleFiring u, .cumselVerifyFiring u, .acceptFiring u,
    .grammarStepFiring u, .grammarMaskFiring u]

/-- The unit that a word names, which serves it or hands its request on (R210, R238). -/
def namedUnit : Instr → Option Nat
  | .tappend _ _ _ _ u | .tsplit _ _ _ _ u | .tmerge _ _ _ _ u | .tfork _ _ _ u | .tevict _ _ _ _ u
  | .tevictRelease _ _ _ _ u | .tnode _ _ _ _ _ u _ | .pklook _ _ _ _ _ u | .smpdrawSample _ _ _ _ u
  | .smpdrawVerify _ _ _ _ _ u | .acpt _ _ _ _ _ u | .gmstep _ _ _ u | .tquery _ _ _ _ _ u => some u.toNat
  | _ => none

/-- The request of a word reaches its unit: the word is executed, and the unit may be named and is ready (R172, R213). -/
def reachesUnit (s : State) (i : Instr) (pool : Nat) : Bool :=
  gate i s == .run && (namedUnit i).any fun u => (unitReady s u).isOk && (u == pool || isPool pool)

/-- What a unit does before it serves the request of an instruction; the request counts as served whatever becomes of it, so that a
firing that is ready comes before the next one (R210). -/
def giveWay (s : State) (i : Instr) : State :=
  match requestOf s i with
  | none => s
  | some u =>
    let s := fireBefore s u
    if reachesUnit s i u then served s u else s

/-- What the unit of a TQUERY under way does before it serves its unpin (R210). -/
def giveWayQuery (s : State) (c : Nat) : State :=
  match (core s c).wait with
  | .query _ pool _ _ _ => fireBefore s pool
  | _ => s

/-- A register that the instruction reads has still to be written by an SSLOT refresh that a commit group holds, so the word waits:
every word reads the register results of all earlier ones (R89). -/
def readsAwaited (s : State) (c : Nat) (i : Instr) : Bool :=
  (operands i).any fun p => p.1 != .scalarDst && (core s c).awaits.any fun q => q.1 == p.2.toNat

/-- The instruction that a core's word is, with its context. -/
def runWord (s : State) (c : Nat) (w : Word) : Result :=
  match decode w with
  | .ok i => if readsAwaited s c i then .next s else exec i (giveWay s i)
  | .error e => .next (coreFault s c (illegalCode (kindOf s) e) 0)

/-- A fetch that had taken PAGE has brought its word, whose own accesses are still to be issued (R275). -/
def fetched (s : State) (c : Nat) : State :=
  if (core s c).issued.any Prod.fst then modCore s c fun k => { k with issued := none } else s

/-- A core fetches its next word and runs it; a fault of the fetch is the fault of the word (R281, R308). -/
def runCore (s : State) (c : Nat) : Result :=
  match fetchWord s c (core s c).pc.toNat with
  | (s, .ok w) => runWord (fetched s c) c w
  | (s, .error (.code f)) => .next (coreFault s c f (BitVec.ofNat 64 (codeLine (core s c).pc.toNat)))
  | (s, .error (.page lvl)) => .next (corePage s .fetch lvl (codeLine (core s c).pc.toNat) 64 0 0)

/-- The context of core `c`. -/
def whoCore (c : Fin 33) : Who := if h : c.val < 32 then .stage ⟨c.val, h⟩ else .mgr

/-- The first contribution of a sender that is under way, or waits at its home, is judged (R291). -/
def settleOne (s : State) (mine : Contribution → Bool) : State :=
  match openContribution s mine with
  | some (n, k) => judgeContribution s n k
  | none => s

/-! ### The replay of an access (R415) -/

/-- The events by which a unit goes on with what waits. -/
def unitEvents (s : State) (u : Nat) : List Instr :=
  (List.range (opUnit s u).rows.length).map (Instr.gatherRowArrival u) ++
    [.scoreFiring u, .descendFiring u, .treeupdFiring u, .queryPin u, .queryUnpin u, .pkeyFiring u, .cascellHeader u,
     .cascellCollect u, .cascellDrain u, .cumselSampleFiring u, .cumselVerifyFiring u, .acceptFiring u, .grammarStepFiring u,
     .grammarMaskFiring u, .gatherFiring u]

/-- The first of some events that changes a unit; its request to a pool gives way to a firing of that pool (R210). -/
def firstRequest (s : State) (u : Nat) : List Instr → State
  | [] => s
  | i :: l =>
    if opUnit (after s (exec i s)) u == opUnit s u then firstRequest s u l else after s (exec i (giveWay s i))

/-- The access of an entry meets a fault other than PAGE, where its requester makes it alone: in translation, at an address that does
not exist, or off the die of its row (R176, R277, R324). -/
def entryFaults (s : State) (e : Retry) : Bool :=
  match translate s (requesterCtx s e) (entryAcc e) e.va with
  | (_, .error (.code _)) => true
  | (_, .error (.page _)) => false
  | (s, .ok x) => !reachable x.pa e.size || match e.who with
    | .gather u => (opUnit s u).rows.any fun r => r.retry == some e.slot && !(place x.pa == .hbm && homeDie (x.pa / 64) == r.die)
    | _ => false

/-- Code and value of the fault that a core took between two states: its trap, or its escalation to the manager (R308, R310). -/
def tookFault (s t : State) (c : Nat) : Option (Nat × X) :=
  if (core t c).inh && !(core s c).inh then some (bits (core t c).tcause.toNat 0 8, (core t c).tval)
  else if (core t c).frozen && !(core s c).frozen then
    (core t 32).events.getLast?.map fun e => (e.code.toNat, e.tval)
  else none

/-- The fault is that of an access at an address: PROT, ALIGN or a fault of a coded line (Table 19-6). -/
def accessFault (va : Nat) (f : Nat × X) : Bool := [0x21, 0x22, 0x23, 0x31].contains f.1 && f.2.toNat == va

/-- A core that waits on an entry makes its access afresh: the fetch brings its line, which the next turn runs, and any other access
is that of its word; and whether the access met a fault. -/
def replayCore (s : State) (g : Nat) (e : Retry) : State × Bool :=
  let w := { wakeRequester s e.slot e.who with who := whoCore (Fin.ofNat 33 g) }
  let idx := (core w g).pc.toNat
  let back := fun (t : State) => { t with who := s.who }
  if e.acc == 2 then
    match fetchLine w g idx with
    | (t, .ok l) => (back (modCore t g fun k => { k with supplied := k.supplied ++ [(codeLine idx, lineBytes l)] }), false)
    | (t, .error (.code c)) => (back (coreFault t g c (BitVec.ofNat 64 (codeLine idx))), true)
    | (t, .error (.page lvl)) => (back (corePage t .fetch lvl (codeLine idx) 64 0 0), false)
  else
    let t := if inQuery (core w g) then queryRetire (giveWayQuery w g) g else after w (runCore w g)
    (back t, (tookFault w t g).any (accessFault e.va))

/-- The head of a port makes its access afresh: a copy with its group of elements, a producer with the read of its stream. -/
def replayPort (s : State) (g p : Nat) (k : Command) : State :=
  if isProducer k then produceBeat s (bits k.src.toNat 0 8) g p else after s (exec (.streamCommandFinish g p) s)

/-- The head of a port has not moved: its group waits for node cycles, so that its access is still to perform (R16). -/
def portWaits (s t : State) (g p : Nat) (k : Command) : Bool :=
  !isProducer k && (port t g p).queue.length == (port s g p).queue.length && (port t g p).queue.head?.any fun q =>
    q.retry.isNone && q.done == k.done && q.gather == k.gather && q.spill == k.spill

/-- The access of an entry that a port replays met a fault: its own, or, of a write, that of the value in a coded line. A fault of
another access of the command is none (R254, R268, R415). -/
def portFaulted (s t : State) (g p : Nat) (e : Retry) : Bool :=
  (port t g p).queue.length != (port s g p).queue.length && (port t g p).code != 0 &&
    (entryFaults s e || (e.acc == 1 && (port t g p).code == 0x31))

/-- A requester makes its access afresh, through the ASROOT of its issue (R275): the core its word or fetch, the port its group of
elements or beat, GATHER the row that waits, another unit its firing; and whether that access met a fault, or none where it has still
to perform. -/
def replayAccess (s : State) (e : Retry) : State × Option Bool :=
  let w := wakeRequester s e.slot e.who
  match e.who with
  | .core g =>
    if (core s g).wait != .retry e.slot && !inQuery (core s g) then (s, some false) else
      let r := replayCore s g e
      (r.1, some r.2)
  | .port g p =>
    match (port s g p).queue.head? with
    | none => (s, some false)
    | some k =>
      if k.retry != some e.slot then (s, some false) else
        let t := replayPort w g p k
        if portWaits s t g p k then (modHead t g p fun q => { q with retry := k.retry }, none)
        else (t, some (portFaulted s t g p e))
  | .gather u =>
    match (opUnit s u).rows.findIdx? fun r => r.retry == some e.slot with
    | none => (s, some false)
    | some n => (after w (exec (.gatherRowArrival u n) w), some (entryFaults s e))
  | .opUnit u =>
    if (opUnit s u).retry != some e.slot then (s, some false) else
      let t := firstRequest w u (unitEvents w u)
      (t, some ((opUnit t u).halted && !(opUnit s u).halted && entryFaults s e))
  | _ => (s, some false)

/-- RTYW ends once the access that it replays has performed, and its status is written (Table 22-5). -/
def rtywReturn (s : State) (d : Reg) (e : Retry) : State :=
  match replayAccess (modCore s 32 fun k => { k with wait := .none }) e with
  | (s, some faulted) => retX s d (if faulted then 3 else 0)
  | (s, none) => modCore s 32 fun k => { k with wait := .rtyw d e }

/-- A TURN OF A CORE: an asynchronous trap, the end of a wait, or the next word. A stagehand of a graph that is being saved
only ends a TQUERY that it has begun (R316). (DEDUCED, log 61) -/
def coreTurn (s : State) (c : Fin 33) : Result :=
  let k := core s c
  let s := { s with who := whoCore c }
  if k.frozen || (c.val < 32 && (region s c).owner.any (saving s) && !inQuery k) then .next s
  else if k.run == .running && k.wait == .none && k.freezeReq then
    .next (modCore s c fun k => { k with frozen := true, freezeReq := false })
  else if takesEvent k c then exec (.asyncEventTake c) s
  else if k.run != .running then .next s
  else match k.wait with
    | .none => runCore s c
    | .mwait _ _ _ => exec (.mwaitReturn c) s
    | .barw _ _ => exec (.barwReturn c) s
    | .reconf => (match (region s c).owner with
        | some gid => exec (.reconfTokenPass gid) s
        | none => .next s)
    | .load _ => exec (.loadcfgInstall c) s
    | .retry _ => .next s
    | .redseq => .next (settleOne s (ofCore c))
    | .rtyw d e => .next (rtywReturn s d e)
    | .query .. => .next (queryRetire (giveWayQuery s c) c)

/-! ### Elements -/

/-- Element `k` of a region runs its word, or nothing where the row head handed out a NOP (R34). -/
def elemTurn (s : State) (g : Fin 32) (k : Nat) : Result :=
  let r := region s g
  let s' := { s with who := .elem g (Fin.ofNat 8 (k / 16)) (Fin.ofNat 16 k) }
  onNext (fun s => modRegion s g fun r => { r with cursor := k + 1 }) <|
    match handedWord r k with
    | none => .next s
    | some w =>
      match decode w with
      | .ok i => exec i s'
      | .error e =>
        .next (if elemSkips s' (hdrOf w) then s' else elemFault s' (illegalCode .elem e) 0)

/-- A region has done its part of the cycle. -/
def cycleDone (s : State) (g : Nat) : State := modRegion s g fun r => { r with cursor := 129 }

/-- The words of a region are done: the invocation ends, or, from this cycle on, waits for its retry entries. -/
def tryEnd (s : State) (g : Fin 32) : State :=
  let r := region s g
  if !(isRunning r && r.cursor == 0 && wordsDone r) then s
  else if storesDone r then after s (exec (.invocationEnd g) s)
  else modRegion s g fun r => { r with endStart := some (r.endStart.getD s.clock) }

/-- A region that waits at its end tries again, with the next of its contributions judged (R291). -/
def endTurn (s : State) (g : Fin 32) : State :=
  let s := tryEnd s g
  if isRunning (region s g) then cycleDone (settleOne s (ofElems g)) g else s

/-- A TURN OF A REGION: the elements of a cycle in their order, then the windows that close in it; at the start of a
cycle, the end of the invocation; in a freeze, the thaw. -/
def regionTurn (s : State) (g : Fin 32) : Result :=
  let s := if (region s g).cursor == 0 then askAgain s g else s
  let r := region s g
  if r.state == 2 then
    .next (if (groupRegions s r.group).any fun g => mustFreeze (region s g) then s else thawGroup s r.group)
  else if !isRunning r then .next s
  else if r.cursor == 0 && wordsDone r then .next (endTurn s g)
  else if r.cursor < 128 then elemTurn s g r.cursor
  else if r.cursor == 128 then
    match dueWindow r with
    | some (k, w) => exec (.windowClose g k w) s
    | none => .next (modRegion s g fun r => { r with cursor := 129, freezeWanted := r.freezeWanted || mustFreeze r })
  else .next s

/-! ### The clock -/

/-- Every running region of a die has done its part of the cycle. -/
def dieReady (d : Die) : Bool :=
  d.regions.toList.all fun r => !isRunning r || r.cursor == 129

/-- The freezes that reach their limit in this cycle (R50). -/
def freezeLimits (s : State) : State :=
  (List.range 32).foldl (fun s g => if limitDue s g then freezeLimit s g else s) s

/-- The cues that are due: a switch, or the release (R61, R315). -/
def cues (s : State) : State :=
  (die s).graphs.foldl (fun s g =>
    if !cueDue s g then s
    else if switchFits s g then after s (exec (.understudySwitch g.gid) s)
    else after s (exec (.cueRelease g.gid) s)) s

/-- Something done on every die, in their order. -/
def everyDie (f : State → State) (s : State) : State :=
  { (List.range 24).foldl (fun s n => f { s with cur := Fin.ofNat 24 n }) s with cur := s.cur }

/-- The waiting contributions of the focused home that a free place or SNEXT lets it judge (R291). -/
def judgeWaiting : Nat → State → State
  | 0, s => s
  | n + 1, s =>
    match (die s).reds.findIdx? fun c => !c.stored && c.arrived && judgeable s c with
    | some k => judgeWaiting n (judgeContribution s s.cur.val k)
    | none => s

/-- What follows every turn: the monitors see what it wrote (R392), and each waiting contribution that can now be judged is judged,
before anything else happens (R291). -/
def settleTurn (s : State) : State :=
  let s := monitorsSee s
  if s.dies.toList.all fun d => d.reds.all fun c => c.stored || !c.arrived then s
  else monitorsSee (everyDie (fun s => judgeWaiting (die s).reds.length s) s)

/-- The contribution that the focused home judges next: one that waits and can now be judged, before any that arrives (R291). -/
def nextJudged (s : State) : Option Nat :=
  ((die s).reds.findIdx? fun c => !c.stored && c.arrived && judgeable s c).orElse fun _ =>
    (die s).reds.findIdx? fun c => !c.stored && !c.arrived

/-- Contributions at the focused home that can be judged now (R291). -/
def judgeHome : Nat → State → State
  | 0, s => s
  | n + 1, s =>
    match nextJudged s with
    | some k => judgeHome n (judgeContribution s s.cur.val k)
    | none => s

/-- The clocks of a die: the PHC and the watchdogs (R305, R329). -/
def countCycle (d : Die) : Die :=
  { d with
    phc := ((d.phc : Int) + 10000 + d.slew).toNat
    graphs := d.graphs.map fun g => { g with wdCycles := if g.wdOff then g.wdCycles else g.wdCycles + 1 } }

/-- The end of a cycle in the regions of the focused die: freezes at their limit, discards, freezes and retirements (R48 to R52,
R88), what the networks bring (R354, R408), and the invocations that end in it (R43). -/
def regionsTick (s : State) : State :=
  let s0 := s
  let s := freezeLimits s
  let s := (activeGroups s).foldl endGroup s
  let s := arrivals s0 (networkStep (idleCycles s))
  let s := (List.range 32).foldl (fun s g => tryEnd s (Fin.ofNat 32 g)) s
  (List.range 32).foldl recordLate s

/-- The end of a cycle on the focused die: its regions; the node ports (R16) and the clocks; the ends of graphs, watchdogs and
starts (R302 to R305); evictions that cannot wait (R258). -/
def tickDie (s : State) : State :=
  let s := regionsTick s
  let s := judgeHome (die s).reds.length s
  let s := modDie (watchdogs s) fun d => countCycle { d with regions := d.regions.map freePorts }
  lateEvictions (schedule (noteReady (graphEnds s)))

/-- A TURN OF THE CLOCK: when every region has done its part, the cycle ends on every die; the next one begins with the cues
that fall in it (R61). -/
def tickTurn (s : State) : Result :=
  if !s.dies.toList.all dieReady then .next s else
    let t := ackFrames (everyDie tickDie s)
    .next (everyDie cues
      { t with
        clock := s.clock + 1
        io := { t.io with phcs := t.io.phcs.map fun (n : Nat) => ((n : Int) + 10000 + t.io.slew).toNat } })

/-! ### Turns -/

/-- An event that still happens in the fatal state: reset, the dump, and what hosts, peers and links do (R312, R334). -/
def fatalEvent (i : Instr) : Bool :=
  match i with
  | .powerOnReset | .fatalDumpDone | .attestationRequest _ | .attestationReport | .hostWrite _ _ _ | .hostRead _ _ _
  | .peerWrite _ _ _ _ | .peerRead _ _ _ | .brunexPacketArrival _ | .linkRetrain _ | .ethernetLinkEvent _
  | .hostLaunchWrite _ _ _ | .ptpEventTimestamp _ | .softError | .powerFatal _ | .temperatureFatal _ => true
  | _ => false

/-- A TURN OF AN AGENT. In the fatal state every die has stopped. -/
def agentTurn (s : State) : Turn → Result
  | .core c => if s.io.fatal then .fault .fatalState else coreTurn s c
  | .region g => if s.io.fatal then .fault .fatalState else regionTurn s g
  | .tick => if s.io.fatal then .fault .fatalState else tickTurn s
  | .die n => .next { s with cur := n }
  | .event i =>
    if isWord i then .next s
    else if s.io.fatal && !fatalEvent i then .fault .fatalState
    else exec i (giveWay s i)

/-- A turn of an agent, and what follows from it at once. -/
def turn (s : State) (t : Turn) : Result := onNext settleTurn (agentTurn s t)

/-- THE NEXT TURN: the head of the agenda, or the agent in focus (DESIGN CHOICE, log 1). -/
def nextTurn (s : State) : Turn × State :=
  match s.agenda with
  | [] => (s.focus, s)
  | t :: l => (t, { s with agenda := l })

/-! ### Placing a word -/

/-- A line of code with one word at slot `n`. -/
def lineOf (n : Nat) (w : Word) : Line := w.setWidth 512 <<< (80 * n)

/-- The core with a line supplied for its next fetch. -/
def supplyWord (w : Word) (k : Core) : Core :=
  let idx := k.pc.toNat
  { k with run := .running, frozen := false, freezeReq := false, wait := .none, events := [],
           supplied := [(codeLine idx, lineBytes (lineOf (idx % 6) w))] }

/-- The region with a kernel of one word, which element (0, 0) executes in the region cycle at hand. -/
def supplyRing (w : Word) (r : Region) : Region :=
  { r with
    ii := 1, ring := [(0, w)], stage := [], state := 1, cursor := 0
    inv := some { first := 0, count := 1, ext := r.iext, c0 := some r.rc, vc := r.vc, tq := r.tq, seed := 0,
                  shadow := r.shadow, marks := [], resume := [] } }

/-- A word that can be meant for an element alone: the elements are its one context, or its operand is a vector register. -/
def forElement : Instr → Bool
  | .vsend _ _ _ | .vrecv _ _ _ => true
  | i => contexts i == .elemOnly

/-- A word placed where the next step runs it: in a stagehand or the manager as the line of its next fetch, and for a
word of the elements alone as the kernel of region 0 (DESIGN CHOICE, log 4). -/
def placeWord (s : State) (w : Word) : State :=
  let put := fun (c : Fin 33) => { modCore s c (supplyWord w) with agenda := .core c :: s.agenda }
  match decode w with
  | .ok i =>
    if forElement i then { modRegion s 0 (supplyRing w) with agenda := .region 0 :: s.agenda }
    else
      (match contexts i with
       | .stageOnly | .elemStage => put 0
       | _ => put 32)
  | .error _ => put 32

end Sys2Proof.Machine
end

