-- ==== Sys2Proof/Machine/Step.lean ====
section
/-! DEFINITION. The step: the next turn. -/

namespace Sys2Proof.Machine

/-- ONE STEP of the module (DESIGN CHOICE, log 1). -/
def step (s : State) : Host.Outcome State Fault Refusal :=
  turn (nextTurn s).2 (nextTurn s).1

/-- The state with a word of the table stored where the next step runs it (DESIGN CHOICE, log 4). -/
def State.withFetchWord (s : State) (nbits w : Nat) : State :=
  placeWord s (BitVec.ofNat 80 (w % 2 ^ nbits))

end Sys2Proof.Machine
end

