-- ==== Sys2Proof/Safety.lean ====
section
/-! DEFINITION. What counts as a safe run, and the conditions and readings that claims are stated with. -/

namespace Sys2Proof.Machine

/-- The die's launch queues are empty. -/
def queuesEmpty (d : Die) : Prop := ∀ q : Nat, (vget Queue.reset d.queues q).entries = []

/-- The fatal state as R312 leaves it: the module stands, and no launch waits on any die. -/
def FatalState (s : State) : Prop := s.io.fatal = true ∧ ∀ n : Nat, queuesEmpty (dieAt s n)

/-- Memory is in its canonical form. -/
def MemoryOk (s : State) : Prop := Memory.wf s.mem = true

/-- THE L2 AGREES WITH THE SLOTS: every table is in its canonical form, no line shares a stored copy, a clean line of the L2 is
what a read of its slot gives, and the code of a dirty one decodes to its data (R245, R247, R266). -/
def L2Agrees (s : State) : Prop :=
  MemoryOk s ∧ Table.wf none s.l2 = true ∧ s.dedup = [] ∧ s.dedupMap = [] ∧
    ∀ ln e, l2get s ln = some e → e.dedup = false ∧
      if e.dirty then codecLoad e.codec (bytesLine ((lineBytes e.code).take (codecBytes e.codec (e.key != 0)))) = e.data
      else slotRead s ln ⟨e.codec, e.key, false⟩ = e.data

/-- `n` steps run from `s`: none of them faults and none is refused. -/
def Runs : Nat → State → Prop
  | 0, _ => True
  | n + 1, s => ∃ t, step s = .next t ∧ Runs n t

/-- THE WORD RUNS IN AN ELEMENT: an element executes it, and steps 1 to 5 of R85 pass: its predicate is true, its iteration is
not skipped, and its fields and operands are legal there. -/
def ElemRuns (i : Instr) (s : State) : Prop := kindOf s = .elem ∧ gate i s = .run

/-- THE WORD RUNS IN A CORE: a stagehand or the manager executes it, and steps 1 to 5 of R85 pass. -/
def CoreRuns (i : Instr) (s : State) : Prop := kindOf s ≠ .elem ∧ gate i s = .run

/-- AN EVENT MAY HAPPEN: the agent that it names exists. -/
def AgentRuns (i : Instr) : Prop := agentOk i = true

/-- Two states agree on everything outside the dies: memory, the L2, the links, the I/O dies, and what comes next. -/
def SameOutside (s t : State) : Prop :=
  t.cur = s.cur ∧ t.mem = s.mem ∧ t.dump = s.dump ∧ t.l2 = s.l2 ∧ t.useCtr = s.useCtr ∧ t.dedup = s.dedup ∧
    t.dedupMap = s.dedupMap ∧ t.images = s.images ∧ t.clock = s.clock ∧ t.gid = s.gid ∧ t.io = s.io ∧ t.links = s.links ∧
    t.agenda = s.agenda ∧ t.focus = s.focus ∧ t.who = s.who

/-- THE READ OF ONE BYTE of HBM, as a load of its line with the attributes `a` returns it (R245, R266). -/
def byteAt (s : State) (a : LineAttr) (pa : Nat) : Byte :=
  BitVec.ofNat 8 (bits (peekLine s (pa / 64) a).toNat (8 * (pa % 64)) 8)

/-- The same byte as the parties of a graph see it, with what its commit group has taken of the line (R295). -/
def viewAt (s : State) (gid : Option Nat) (a : LineAttr) (pa : Nat) : Byte :=
  BitVec.ofNat 8 (bits (viewLine s gid (pa / 64) a (peekLine s (pa / 64) a)).toNat (8 * (pa % 64)) 8)

/-! ### The results that the spec gives the scalar words -/

/-- The conditions of Table 3-19 on two integers. -/
def Holds {w : Nat} (cc : BitVec 3) (u : BitVec 1) (a b : BitVec w) : Prop :=
  (cc = 0 ∧ a = b) ∨ (cc = 1 ∧ a ≠ b) ∨
  (cc = 2 ∧ if u = 1 then a.toNat < b.toNat else a.toInt < b.toInt) ∨
  (cc = 3 ∧ if u = 1 then b.toNat ≤ a.toNat else b.toInt ≤ a.toInt) ∨
  (cc = 4 ∧ if u = 1 then a.toNat ≤ b.toNat else a.toInt ≤ b.toInt) ∨
  (cc = 5 ∧ if u = 1 then b.toNat < a.toNat else b.toInt < a.toInt)

/-- The fields of an integer word. -/
structure IntFields where
  h : Hdr
  d : Reg
  a : Reg
  b : Reg
  c : Reg
  u : BitVec 1
  cc : BitVec 3
  pos : BitVec 6
  len : BitVec 6
  imm : BitVec 32
  deriving DecidableEq, Repr

open Classical in
/-- THE INTEGER WORDS of both contexts, each with the value of D at XLEN = `w` from its source registers (R336 and the entries of
the words). -/
noncomputable def integerResults (w : Nat) (x : Reg → BitVec w) (f : IntFields) : List (Instr × BitVec w) :=
  let A := x f.a
  let B := x f.b
  let I : BitVec w := f.imm.signExtend w
  let unsigned := f.u = 1
  [(.add f.h f.d f.a f.b, A + B),
   (.sub f.h f.d f.a f.b, A - B),
   (.mul f.h f.d f.a f.b, A * B),
   (.and f.h f.d f.a f.b, A &&& B),
   (.or f.h f.d f.a f.b, A ||| B),
   (.xor f.h f.d f.a f.b, A ^^^ B),
   (.shl f.h f.d f.a f.b, A <<< (B.toNat % w)),
   (.shr f.h f.d f.a f.b, A >>> (B.toNat % w)),
   (.sra f.h f.d f.a f.b, A.sshiftRight (B.toNat % w)),
   (.mulh f.h f.d f.a f.b f.u,
     if unsigned then BitVec.ofNat w (A.toNat * B.toNat / 2 ^ w) else BitVec.ofInt w (A.toInt * B.toInt / 2 ^ w)),
   (.div f.h f.d f.a f.b f.u,
     if B = 0 then BitVec.allOnes w else if unsigned then BitVec.ofNat w (A.toNat / B.toNat) else BitVec.ofInt w (A.toInt.tdiv B.toInt)),
   (.rem f.h f.d f.a f.b f.u,
     if B = 0 then A else if unsigned then BitVec.ofNat w (A.toNat % B.toNat) else BitVec.ofInt w (A.toInt.tmod B.toInt)),
   (.min f.h f.d f.a f.b f.u, if unsigned then BitVec.ofNat w (min A.toNat B.toNat) else BitVec.ofInt w (min A.toInt B.toInt)),
   (.max f.h f.d f.a f.b f.u, if unsigned then BitVec.ofNat w (max A.toNat B.toNat) else BitVec.ofInt w (max A.toInt B.toInt)),
   (.clz f.h f.d f.a, BitVec.ofNat w (if A = 0 then w else w - 1 - A.toNat.log2)),
   (.popc f.h f.d f.a, BitVec.ofNat w ((List.range w).countP fun n => A.getLsbD n)),
   (.setc f.h f.d f.a f.b f.u f.cc, if Holds f.cc f.u A B then 1 else 0),
   (.sel f.h f.d f.a f.b f.c, if x f.c ≠ 0 then A else B),
   (.bfx f.h f.d f.a f.u f.pos f.len,
     if unsigned then ((A >>> f.pos.toNat).setWidth (f.len.toNat + 1)).setWidth w
     else ((A >>> f.pos.toNat).setWidth (f.len.toNat + 1)).signExtend w),
   (.bfi f.h f.d f.a f.b f.pos f.len,
     (A &&& ~~~(((BitVec.allOnes (f.len.toNat + 1)).setWidth w) <<< f.pos.toNat)) |||
       ((B &&& (BitVec.allOnes (f.len.toNat + 1)).setWidth w) <<< f.pos.toNat)),
   (.lea f.h f.d f.a f.b f.pos, A + B <<< f.pos.toNat),
   (.addImm f.h f.d f.a f.imm, A + I),
   (.andImm f.h f.d f.a f.imm, A &&& I),
   (.orImm f.h f.d f.a f.imm, A ||| I),
   (.xorImm f.h f.d f.a f.imm, A ^^^ I),
   (.shlImm f.h f.d f.a f.imm, A <<< f.imm.toNat),
   (.shrImm f.h f.d f.a f.imm, A >>> f.imm.toNat),
   (.sraImm f.h f.d f.a f.imm, A.sshiftRight f.imm.toNat),
   (.setcImm f.h f.d f.a f.u f.cc f.imm, if Holds f.cc f.u A I then 1 else 0),
   (.movi f.h f.d f.imm, I)]

/-- The fields of a floating scalar word. -/
structure FloatFields where
  h : Hdr
  d : Reg
  a : Reg
  b : Reg
  c : Reg
  ty : BitVec 4
  rm : BitVec 3
  cc : BitVec 3
  tty : BitVec 4
  deriving DecidableEq, Repr

/-- THE FLOATING SCALAR WORDS, each with the rounding mode under which it counts a draw, the value of D and the flags, from its
source registers and its draw (R337 and the entries of the words): an exact value, rounded once into the format. -/
def floatResults (w : Nat) (x : Reg → BitVec w) (draw : Nat) (f : FloatFields) : List (Instr × BitVec 3 × BitVec w × Flags) :=
  let t := fmtOf f.ty
  let A := t.value (bits (x f.a).toNat 0 t.width)
  let B := t.value (bits (x f.b).toNat 0 t.width)
  let C := t.value (bits (x f.c).toNat 0 t.width)
  let out := fun (v : Nat × Flags) => (BitVec.ofNat w v.1, v.2)
  let rounded := fun (rm : BitVec 3) (n : Nat) (v : FVal × Flags) => out ((t.round rm n v.1).1, v.2 ||| (t.round rm n v.1).2)
  let cvt := convertTag f.ty f.tty f.rm draw (x f.a).toNat
  [(.fadd f.h f.d f.a f.b f.ty f.rm, f.rm, rounded f.rm draw (addV f.rm A B)),
   (.fsub f.h f.d f.a f.b f.ty f.rm, f.rm, rounded f.rm draw (addV f.rm A B.neg)),
   (.fmul f.h f.d f.a f.b f.ty f.rm, f.rm, rounded f.rm draw (mulV A B)),
   (.fdiv f.h f.d f.a f.b f.ty f.rm, f.rm, rounded f.rm draw (divV A B)),
   (.ffma f.h f.d f.a f.b f.c f.ty f.rm, f.rm, rounded f.rm draw (fmaV f.rm A B C)),
   (.fsqrt f.h f.d f.a f.ty f.rm, f.rm, out (t.sqrt f.rm draw A)),
   (.fmin f.h f.d f.a f.b f.ty, 0, rounded 0 0 (minmaxV false A B)),
   (.fmax f.h f.d f.a f.b f.ty, 0, rounded 0 0 (minmaxV true A B)),
   (.fsetc f.h f.d f.a f.b f.ty f.cc, 0, out ((compareV f.cc A B).1.toNat, (compareV f.cc A B).2)),
   (.fcvt f.h f.d f.a f.ty f.rm f.tty, f.rm,
     (if intTag f.tty then BitVec.ofInt w (sInt (laneBits f.tty) cvt.1) else BitVec.ofNat w cvt.1, cvt.2)),
   (.fclass f.h f.d f.a f.ty, 0, out (classOf t (bits (x f.a).toNat 0 t.width), 0))]

end Sys2Proof.Machine
end

