-- ==== Sys2Proof/Certificates/Slice0/Obligations.lean ====
section
/-! DEFINITION. The statements for the provers, each formalising a rule of the spec or a promise of the model. -/

open Sys2Proof Sys2Proof.Machine


/-- Every word that encodes an instruction decodes to that instruction (R71, R72, spec/03: The instruction word, Table 3-1, Tables 3-3 to 3-18). -/
def Obligations.EncodedWordDecodes : Prop :=
  (∀ (i : Instr) (w : Word), encode i = some w → decode w = .ok (coreForm i)) ∧
  (∀ i : Instr, coreForm i = i ∨ (∃ h a sr, coreForm i = .mtsr h a sr ∧ encode i = encode (.mtsr h a sr)) ∨
    (∃ h d sr, coreForm i = .mfsr h d sr ∧ encode i = encode (.mfsr h d sr))) ∧
  (∀ i : Instr, (encode i).isSome = isWord i)

/-- No two words decode to one instruction, and no bit of a decoded word is dropped (R72, R73, Tables 3-3 to 3-18). -/
def Obligations.DecodedWordEncodesBack : Prop :=
  (∀ (w : Word) (i : Instr), decode w = .ok i → encode i = some w ∧ isWord i = true ∧ coreForm i = i) ∧
  (∀ (v w : Word) (i : Instr), decode v = .ok i → decode w = .ok i → v = w)

/-- Words written out from the encodings of the spec decode to the instructions they stand for (R71, R349, Table 3-1). -/
def Obligations.WrittenOutWordsDecode : Prop :=
  decode 0x1480390001020E000000 = .ok (.bfx ⟨0, 0, 0⟩ 7 8 1 4 7) ∧
  decode 0x200038E00000FFFFFFFF = .ok (.addImm ⟨0, 0, 0⟩ 7 7 0xFFFFFFFF) ∧
  decode 0x28002000000000000001 = .ok (.movi ⟨0, 0, 0⟩ 4 1) ∧
  decode 0x32401880000140000000 = .ok (.fcvt ⟨0, 0, 0⟩ 3 4 0 0 5) ∧
  decode 0x40C11C10C40000000000 = .ok (.vfma ⟨0, 0, 0⟩ 35 32 33 34 0 0 0) ∧
  decode 0x6080042180600A100000 = .ok (.mma ⟨0, 0, 0⟩ 33 3 3 0 5 1) ∧
  decode 0x70C18C40000000000000 = .ok (.difld ⟨0, 0, 0⟩ 49 34) ∧
  decode 0x81003880000041C00000 = .ok (.ldw ⟨0, 0, 0⟩ 7 4 0 8 7 0 0 0) ∧
  decode 0x82411800000200021E00 = .ok (.bufget ⟨0, 0, 0⟩ 35 64 2 15) ∧
  decode 0x834038A0000000021E00 = .ok (.shadow ⟨0, 0, 0⟩ 7 5 0 0 2) ∧
  decode 0x9040180A000000000000 = .ok (.recv ⟨0, 0, 0⟩ 3 20) ∧
  decode 0xA08059461A0800000000 = .ok (.scopy ⟨0, 0, 0⟩ 11 10 12 13 1 0) ∧
  decode 0xB000004000600A000000 = .ok (.opset ⟨0, 0, 0⟩ 2 192 5) ∧
  decode 0xB2C038828C6000000000 = .ok (.tquery ⟨0, 0, 0⟩ 7 4 5 6 192) ∧
  decode 0xC10028C3800160000000 = .ok (.amo ⟨0, 0, 0⟩ 5 6 7 0 0 11) ∧
  decode 0xD0807800000000006000 = .ok (.jal ⟨0, 0, 0⟩ 15 12) ∧
  decode 0x01400000008800000000 = .ok (.mtsr ⟨0, 0, 0⟩ 0 17) ∧
  decode 0x048000E1800000000010 = .ok (.tlbinvAddress ⟨0, 0, 0⟩ 7 3) ∧
  decode 0x02C028C3800000000080 = .ok (.csave ⟨0, 0, 0⟩ 5 6 7 16) ∧
  decode (BitVec.ofNat 80 (1 * 2 ^ 76 + 0 * 2 ^ 70 + 1 * 2 ^ 59 + 2 * 2 ^ 53 + 3 * 2 ^ 47)) = .ok (.add ⟨0, 0, 0⟩ 1 2 3) ∧
  decode 0 = .ok (.nop ⟨0, 0, 0⟩)

/-- A step of a core fetches the word at its program counter and runs the instruction it decodes to (R68, R69, R70, R85, R89, R210, R291, R392).

Where it goes past the words of the rules it follows the model's own choices of log entries 1 and 73. -/
def Obligations.WordAtProgramCounterRuns : Prop :=
  ∀ (s s' s1 : State) (c : Fin 33) (w : Word) (k : Core),
    nextTurn s = (.core c, s') → s.io.fatal = false →
    core s' c.val = k → k.run = .running → k.wait = .none → k.frozen = false → k.freezeReq = false → takesEvent k c.val = false →
    (region s' c.val).owner.all (fun gid => !saving s' gid) = true →
    fetchWord { s' with who := whoCore c } c.val k.pc.toNat = (s1, .ok w) →
    let s2 := fetched s1 c.val
    (∀ i : Instr, decode w = .ok i → readsAwaited s2 c.val i = false → step s = onNext settleTurn (exec i (giveWay s2 i))) ∧
    (∀ i : Instr, decode w = .ok i → readsAwaited s2 c.val i = true → step s = .next (settleTurn s2)) ∧
    (∀ i : Instr, readsAwaited s2 c.val i = true ↔
      ∃ p ∈ operands i, p.1 ≠ .scalarDst ∧ ∃ q ∈ (core s1 c.val).awaits, q.1 = p.2.toNat) ∧
    (∀ e : DecodeError, decode w = .error e →
      step s = .next (settleTurn (coreFault s2 c.val (illegalCode (kindOf s1) e) 0))) ∧
    ((∀ p, (core s1 c.val).issued = some p → p.1 = false) → s2 = s1) ∧
    (∀ root, (core s1 c.val).issued = some (true, root) → s2 = modCore s1 c.val fun k => { k with issued := none }) ∧
    (∀ i : Instr, requestOf s2 i = none → giveWay s2 i = s2) ∧
    (∀ (i : Instr) (u : Nat), requestOf s2 i = some u → (opUnit s2 u).served = false →
      giveWay s2 i = if reachesUnit s2 i u = true then modUnit s2 u fun q => { q with served := true } else s2) ∧
    (∀ u : State, (∀ (d : Fin 24), (∀ q ∈ (u.dies[d]).reds, q.stored = true ∨ q.arrived = false) ∧
      ∀ (n : Fin 33) r x, ((u.dies[d]).cores[n]).wait ≠ .mwait r x none) → settleTurn u = u)

/-- A step of a running region runs the instruction that the next element’s ring word decodes to (R33, R34, R38, R39, R55, R70, R85).

Where it goes past the words of the rules it follows the model's own choices of log entries 1 and 30. -/
def Obligations.RingWordRunsInItsElement : Prop :=
  ∀ (s s' t : State) (g : Fin 32) (k : Nat),
    nextTurn s = (.region g, s') → s.io.fatal = false →
    t = (if (region s' g.val).cursor = 0 then askAgain s' g.val else s') →
    isRunning (region t g.val) = true → (region t g.val).cursor = k → k < 128 → (k = 0 → wordsDone (region t g.val) = false) →
    let me : State := { t with who := .elem g (Fin.ofNat 8 (k / 16)) (Fin.ofNat 16 k) }
    let goOn := fun (u : State) => modRegion u g.val fun r => { r with cursor := k + 1 }
    (∀ (w : Word) (i : Instr) (u : State), handedWord (region t g.val) k = some w → decode w = .ok i → exec i me = .next u →
      step s = .next (settleTurn (goOn u))) ∧
    (handedWord (region t g.val) k = none → step s = .next (settleTurn (goOn t))) ∧
    (∀ (w : Word) (e : DecodeError), handedWord (region t g.val) k = some w → decode w = .error e →
      let skipped := predFalse (region t g.val) (hdrOf w) = true ∨ (sampledVc (region t g.val)).toNat ≤ myIter me ∨
        myPos me < ((region t g.val).inv.map fun v => v.resume.get 0 (myIter me)).getD 0
      (skipped → step s = .next (settleTurn (goOn me))) ∧
      (¬ skipped → step s = .next (settleTurn (goOn (elemFault me (illegalCode .elem e) 0)))))

/-- Only the fatal state stops the module, and nothing is ever refused (R312, spec/25: opcode table).

Where it goes past the words of the rules it follows the model's own choices of log entries 1 and 58. -/
def Obligations.EveryStepAnswers : Prop :=
  (∀ (i : Instr) (s : State), ∃ t, exec i s = .next t) ∧
  (∀ s : State, (∃ t, step s = .next t) ∨ (s.io.fatal = true ∧ step s = .fault .fatalState))

/-- The checks of R85 come first, in their order, and a word that one of them stops has no effect of its own (R38, R39, R55, R85). -/
def Obligations.ChecksDecideBeforeAnyEffect : Prop :=
  (∀ (i : Instr) (s : State), isWord i = true → gate i s = .skip → exec i s = .next s) ∧
  (∀ (i : Instr) (s : State) (c : Code), isWord i = true → gate i s = .stop c →
    exec i s = .next (if kindOf s = .elem then elemFault s c 0 else coreFault s (myCore s) c 0)) ∧
  (∀ (i : Instr) (s : State), gate i s = .skip ↔ kindOf s = .elem ∧
    (predFalse (region s (myRegion s)) (header i) = true ∨ (sampledVc (region s (myRegion s))).toNat ≤ myIter s ∨
      myPos s < ((region s (myRegion s)).inv.map fun v => v.resume.get 0 (myIter s)).getD 0)) ∧
  (let marked := fun (k : Kind) (i : Instr) (r : Reg) => k ≠ .elem ∧
     (32 ≤ r.toNat ∧ r.toNat < 52 ∨ 52 ≤ r.toNat ∧ r.toNat < 60 ∧ predWord i = false ∨ r.toNat = 60 ∧ (∀ h d a, i ≠ .vcset h d a) ∨
       r.toNat = 61 ∨ r.toNat = 62)
   let third := fun (k : Kind) (i : Instr) => contextOk k (contexts i) = false ∨ ∃ p ∈ operands i, marked k i p.2
   let fourth := fun (k : Kind) (i : Instr) => k = .stage ∧ contexts i = .privileged
   let fifth := fun (k : Kind) (i : Instr) => k ≠ .elem ∧ header i ≠ default ∨ (∃ p ∈ operands i, specCheck k i p.1 p.2 = .illegal) ∨
     codedOk k i = false
   (∀ (i : Instr) (s : State), gate i s ≠ .skip →
     (third (kindOf s) i → gate i s = .stop 0x02) ∧
     (¬ third (kindOf s) i → fourth (kindOf s) i → gate i s = .stop 0x03) ∧
     (¬ third (kindOf s) i → ¬ fourth (kindOf s) i → fifth (kindOf s) i → gate i s = .stop 0x01) ∧
     (¬ third (kindOf s) i → ¬ fourth (kindOf s) i → ¬ fifth (kindOf s) i → gate i s = .run)) ∧
   (∀ w : Word, 0xE ≤ w.toNat / 2 ^ 76 → decode w = .error .unassigned) ∧
   (let assigned := [23, 21, 0, 11, 23, 9, 10, 8, 17, 6, 7, 17, 12, 4]
    ∀ w : Word, let fmt := w.toNat / 2 ^ 76; let op := w.toNat / 2 ^ 70 % 64
     fmt < 14 → (if fmt = 2 then op ∉ [0, 6, 7, 8, 9, 10, 11, 16, 32, 33] else assigned.getD fmt 0 ≤ op) →
       decode w = .error .unassigned) ∧
   (∀ (s : State) (g : Fin 32) (k : Nat) (w : Word) (e : DecodeError), k < 128 → handedWord (region s g.val) k = some w → decode w = .error e →
     let r := region s g.val
     let me : State := { s with who := .elem g (Fin.ofNat 8 (k / 16)) (Fin.ofNat 16 k) }
     let goOn := fun (u : State) => modRegion u g.val fun r => { r with cursor := k + 1 }
     let skipped := predFalse r (hdrOf w) = true ∨ (sampledVc r).toNat ≤ myIter me ∨
       myPos me < (r.inv.map fun v => v.resume.get 0 (myIter me)).getD 0
     (skipped → elemTurn s g k = .next (goOn me)) ∧
     (¬ skipped → elemTurn s g k = .next (goOn (elemFault me (illegalCode .elem e) 0)))) ∧
   (∀ k : Kind, illegalCode k .unassigned = 0x01) ∧
   (∀ (k : Kind) (i : Instr) (fields : List Reg),
     (third k i ∨ (∃ r ∈ fields, marked k i r) → illegalCode k (.reserved i fields) = 0x02) ∧
     (¬ third k i → (∀ r ∈ fields, ¬ marked k i r) → ¬ (predWord i = true ∧ ∃ r ∈ fields, 52 ≤ r.toNat ∧ r.toNat ≤ 60) →
       illegalCode k (.reserved i fields) = if fourth k i then 0x03 else 0x01) ∧
     (predWord i = true → illegalCode k (.reserved i fields) = 0x01 ∨ illegalCode k (.reserved i fields) = 0x02)))

/-- Every integer word of an element retires with the result of its entry, and no flag (R74, R75, R88, R336, R349, R356, R361, R384, R394, R397, R404, R411). -/
def Obligations.IntegerWordsInElements : Prop :=
  ∀ (f : IntFields) (s : State) (p : Instr × BitVec 32), p ∈ integerResults 32 (eScalar s) f → ElemRuns p.1 s →
    exec p.1 s = .next (elemRetire p.1 s [.scalar f.d p.2])

/-- Every integer word of a core writes the result of its entry to D and goes on to the next word (R74, R336, R349, R356, R361, R384, R394, R397, R398, R404, R411, R435). -/
def Obligations.IntegerWordsInCores : Prop :=
  (∀ (f : IntFields) (s : State) (p : Instr × BitVec 64), p ∈ integerResults 64 (xval s) f → CoreRuns p.1 s →
    exec p.1 s = .next (advance (setX s (myCore s) f.d.toNat p.2))) ∧
  (∀ (f : IntFields) (s : State), CoreRuns (.movh f.h f.d f.a f.imm) s →
    exec (.movh f.h f.d f.a f.imm) s =
      .next (advance (setX s (myCore s) f.d.toNat (f.imm ++ (xval s f.a).setWidth 32 : BitVec 64))))

/-- No integer word sets a sticky flag, raises a fault of its own, or touches memory (R336). -/
def Obligations.IntegerWordsNeverSetAFlag : Prop :=
  (∀ (f : IntFields) (s t : State) (p : Instr × BitVec 64),
    p ∈ (.movh f.h f.d f.a f.imm, (f.imm ++ (xval s f.a).setWidth 32 : BitVec 64)) :: integerResults 64 (xval s) f → CoreRuns p.1 s →
    exec p.1 s = .next t → SameOutside s t ∧ (∀ g, region t g = region s g) ∧
      (∀ c, (core t c).fflags = (core s c).fflags ∧ (core t c).tcause = (core s c).tcause ∧ (core t c).tepc = (core s c).tepc ∧
        (core t c).tval = (core s c).tval ∧ (core t c).tvec = (core s c).tvec ∧ (core t c).inh = (core s c).inh ∧
        (core t c).run = (core s c).run ∧ (core t c).frozen = (core s c).frozen ∧ (core t c).df = (core s c).df ∧
        (core t c).wait = (core s c).wait ∧ (core t c).events = (core s c).events) ∧
      (die t).mgrWait = (die s).mgrWait ∧ (die t).fwEvents = (die s).fwEvents ∧ (∀ c r, c ≠ myCore s ∨ r ≠ f.d.toNat → xreg t c r = xreg s c r) ∧
      (∀ a pa, byteAt t a pa = byteAt s a pa)) ∧
  (∀ (f : IntFields) (s t : State) (p : Instr × BitVec 32), p ∈ integerResults 32 (eScalar s) f → ElemRuns p.1 s →
    exec p.1 s = .next t → SameOutside s t ∧ (∀ c, core t c = core s c) ∧
      (∀ g, (region t g).faults = (region s g).faults ∧ (region t g).state = (region s g).state ∧ (region t g).inv = (region s g).inv) ∧
      (die t).mgrWait = (die s).mgrWait ∧ (die t).fwEvents = (die s).fwEvents ∧
      (∀ g k, (elemAt t g k).fflags = (elemAt s g k).fflags ∧ (elemAt t g k).e = (elemAt s g k).e ∧ (elemAt t g k).v = (elemAt s g k).v) ∧
      (∃ q : Pending, (elemAt t (myRegion s) (myElemIx s)).pend = (myElem s).pend ++ [q] ∧
        (q.fx = [.scalar f.d p.2] ∨ q.fx = [.scalar f.d p.2, .mark])) ∧
      (∀ g k, g ≠ myRegion s ∨ k ≠ myElemIx s → (elemAt t g k).pend = (elemAt s g k).pend) ∧
      (∀ a pa, byteAt t a pa = byteAt s a pa))

/-- Every floating scalar word gives the exact value rounded once, its flags, and counts its draw (R87, R108, R109, R111, R337, R365, R369, Table 3-8). -/
def Obligations.FloatingWordsInBothContexts : Prop :=
  (∀ (f : FloatFields) (s : State) (p : Instr × BitVec 3 × BitVec 32 × Flags), p ∈ floatResults 32 (eScalar s) (myDraw s 0) f →
    ElemRuns p.1 s → exec p.1 s = .next (elemRetire p.1 s [.scalar f.d p.2.2.1, .flags p.2.2.2])) ∧
  (∀ (f : FloatFields) (s : State) (p : Instr × BitVec 3 × BitVec 64 × Flags), p ∈ floatResults 64 (xval s) (myCoreDraw s) f →
    CoreRuns p.1 s →
    let counted := if p.2.1 = 5 then modCore s (myCore s) fun k => { k with sctr := k.sctr + 1 } else s
    let flagged := modCore counted (myCore s) fun k => { k with fflags := k.fflags ||| p.2.2.2 }
    exec p.1 s = .next (advance (setX flagged (myCore s) f.d.toNat p.2.2.1)))

/-- Sums, products and quotients of finite values are exact; the special cases give the canonical NaN or an infinity with their flags (R93, R111, R367, R369, spec/04: Number formats). -/
def Obligations.ExactArithmeticBeforeRounding : Prop :=
  (∀ (rm : BitVec 3) (x y : Rat) (n m : Bool), ∃ z, addV rm (.fin x n) (.fin y m) = (.fin (x + y) z, 0)) ∧
  (∀ (x y : Rat) (n m : Bool), ∃ z, mulV (.fin x n) (.fin y m) = (.fin (x * y) z, 0)) ∧
  (∀ (x y : Rat) (n m : Bool), y ≠ 0 → ∃ z, divV (.fin x n) (.fin y m) = (.fin (x / y) z, 0)) ∧
  (∀ (rm : BitVec 3) (n : Bool), addV rm (.inf n) (.inf (!n)) = (.nan false, flagNV)) ∧
  (∀ (n m : Bool), mulV (.inf n) (.fin 0 m) = (.nan false, flagNV) ∧ mulV (.fin 0 m) (.inf n) = (.nan false, flagNV)) ∧
  (∀ (n m : Bool), divV (.fin 0 n) (.fin 0 m) = (.nan false, flagNV) ∧ divV (.inf n) (.inf m) = (.nan false, flagNV)) ∧
  (∀ (f : Fmt) (rm : BitVec 3) (draw : Nat), f.round rm draw (.nan false) = (f.nan, 0)) ∧
  (∀ (x : Rat) (n m : Bool), x ≠ 0 → ∃ z, divV (.fin x n) (.fin 0 m) = (.inf z, flagDZ)) ∧
  (∀ (rm : BitVec 3) (x y z : Rat) (n m k : Bool), ∃ q, fmaV rm (.fin x n) (.fin y m) (.fin z k) = (.fin (x * y + z) q, 0))

/-- Rounding a value that FP8E4 or FP8E5 holds gives back its pattern, with no flag, in every mode and for every draw (R91, R108, Table 4-2). -/
def Obligations.ExactResultsAreReturnedUnchanged : Prop :=
  ∀ (draw : Nat) (f : Fmt), f = fp8e4 ∨ f = fp8e5 → ∀ (rm : BitVec 3), rm.toNat ≤ 5 → ∀ code < 256,
    (f.value code).finite = true → f.round rm draw (f.value code) = (code, 0)

/-- Every lane-by-lane vector word gives each lane the result of its entry and the flags of all lanes together (R87, R453, R454, R456, R464, R470, R471).

Where it goes past the words of the rules it follows the model's own choices of log entry 16. -/
def Obligations.LaneWordsActOnEveryLane : Prop :=
  ∀ (h : Hdr) (d a b c : Reg) (ty : BitVec 4) (rm cc : BitVec 3) (sat : BitVec 1) (s : State),
    let w := tagWidth ty
    let f := fmtOf ty
    let A := fun j => lane (eVector s a w) w j
    let B := fun j => lane (eVector s b w) w j
    let C := fun j => lane (eVector s c w) w j
    let toLane := fun (v : Int) => if sat = 1 then (toBits w (clampInt w v).1, flagIf (clampInt w v).2 flagSAT) else (toBits w v, (0 : Flags))
    let toFmt := fun (rm : BitVec 3) (draw : Nat) (v : FVal × Flags) => ((f.round rm draw v.1).1, v.2 ||| (f.round rm draw v.1).2)
    let signed := fun (v : Nat) => sInt w v
    let gives := fun (i : Instr) (g : Nat → Nat × Flags) => ElemRuns i s →
      exec i s = .next (elemRetire i s [.vector d (laneWise w g).1, .flags (laneWise w g).2])
    gives (.vadd h d a b ty rm sat) (fun j => if intTag ty then toLane (signed (A j) + signed (B j))
      else toFmt rm (myDraw s j) (addV rm (f.value (A j)) (f.value (B j)))) ∧
    gives (.vsub h d a b ty rm sat) (fun j => if intTag ty then toLane (signed (A j) - signed (B j))
      else toFmt rm (myDraw s j) (addV rm (f.value (A j)) (f.value (B j)).neg)) ∧
    gives (.vmul h d a b ty rm sat) (fun j => if intTag ty then toLane (signed (A j) * signed (B j))
      else toFmt rm (myDraw s j) (mulV (f.value (A j)) (f.value (B j)))) ∧
    gives (.vfma h d a b c ty rm sat) (fun j => if intTag ty then toLane (signed (A j) * signed (B j) + signed (C j))
      else toFmt rm (myDraw s j) (fmaV rm (f.value (A j)) (f.value (B j)) (f.value (C j)))) ∧
    gives (.vmin h d a b ty) (fun j => if intTag ty then (toBits w (min (signed (A j)) (signed (B j))), 0)
      else toFmt 0 (myDraw s j) (minmaxV false (f.value (A j)) (f.value (B j)))) ∧
    gives (.vmax h d a b ty) (fun j => if intTag ty then (toBits w (max (signed (A j)) (signed (B j))), 0)
      else toFmt 0 (myDraw s j) (minmaxV true (f.value (A j)) (f.value (B j)))) ∧
    gives (.vabs h d a ty sat) (fun j => if intTag ty then toLane (Int.natAbs (signed (A j)))
      else if (f.value (A j)).isNan then (f.nan, 0) else ((f.round 0 0 (f.value (A j)).abs).1, 0)) ∧
    gives (.vneg h d a ty sat) (fun j => if intTag ty then toLane (-(signed (A j)))
      else if (f.value (A j)).isNan then (f.nan, 0) else ((f.round 0 0 (f.value (A j)).neg).1, 0)) ∧
    gives (.vexp h d a ty rm) (fun j => f.exp rm (myDraw s j) (f.value (A j))) ∧
    gives (.vlog h d a ty rm) (fun j => f.log rm (myDraw s j) (f.value (A j))) ∧
    gives (.vrcp h d a ty rm) (fun j => f.recip rm (myDraw s j) (f.value (A j))) ∧
    gives (.vrsq h d a ty rm) (fun j => f.rsqrt rm (myDraw s j) (f.value (A j))) ∧
    gives (.vsetc h d a b ty cc) (fun j =>
      let r := if intTag ty then (compareInt cc 0 (BitVec.ofNat w (A j)) (BitVec.ofNat w (B j)), 0)
        else compareV cc (f.value (A j)) (f.value (B j))
      (if r.1 then 2 ^ w - 1 else 0, r.2)) ∧
    gives (.vsel h d a b c ty) (fun j => (if C j ≠ 0 then A j else B j, 0)) ∧
    gives (.vshl h d a b ty) (fun j => (A j * 2 ^ (B j % w) % 2 ^ w, 0)) ∧
    gives (.vshr h d a b ty sat) (fun j =>
      (if sat = 1 then toBits w (signed (A j) / (2 ^ (B j % w) : Nat)) else A j / 2 ^ (B j % w), 0))

/-- A lane-by-lane result holds, in each lane, what was computed for it, and the flags of all lanes (R77, R111, R454). -/
def Obligations.LanesOfAResultAreItsLanes : Prop :=
  (∀ (w : Nat) (f : Nat → Nat × Flags) (j : Nat), (w = 4 ∨ w = 8 ∨ w = 16 ∨ w = 32 ∨ w = 64) → j < 512 / w →
    lane (laneWise w f).1 w j = (f j).1 % 2 ^ w) ∧
  (∀ (w : Nat) (f : Nat → Nat × Flags) (n : Nat), (laneWise w f).2.getLsbD n = true ↔ ∃ j < 512 / w, (f j).2.getLsbD n = true) ∧
  (∀ (w : Nat) (l : Line), (w = 4 ∨ w = 8 ∨ w = 16 ∨ w = 32 ∨ w = 64) → ofLanes w (lanes l w) = l)

/-- The logic words act on whole registers; shuffles, broadcasts, extracts and inserts move lanes (R88, R457, R458). -/
def Obligations.WholeRegisterAndLaneMoveWords : Prop :=
  ∀ (h : Hdr) (d a b : Reg) (ty : BitVec 4) (idx : BitVec 6) (s : State),
    let w := tagWidth ty
    let A := fun j => lane (eVector s a w) w j
    let n := 512 / w
    let sel := (idx.toNat + (eScalar s b).toNat) % n
    let gives := fun (i : Instr) (fx : List Fx) => ElemRuns i s → exec i s = .next (elemRetire i s fx)
    gives (.vand h d a b) [.vector d (eVector s a 512 &&& eVector s b 512), .flags 0] ∧
    gives (.vor h d a b) [.vector d (eVector s a 512 ||| eVector s b 512), .flags 0] ∧
    gives (.vxor h d a b) [.vector d (eVector s a 512 ^^^ eVector s b 512), .flags 0] ∧
    gives (.vmov h d a) [.vector d (eVector s a 512), .flags 0] ∧
    gives (.vshuf h d a b ty) [.vector d (laneWise w fun j => (A (lane (eVector s b w) w j % n), 0)).1,
      .flags (laneWise w fun j => (A (lane (eVector s b w) w j % n), 0)).2] ∧
    gives (.vbcast h d a ty idx)
      (let v := if 32 ≤ a ∧ a ≠ 62 then A idx.toNat else bits (eScalar s a).toNat 0 w
      [.vector d (laneWise w fun _ => (v, 0)).1, .flags (laneWise w fun _ => (v, 0)).2]) ∧
    gives (.vextr h d a b ty idx) [.scalar d (if intTag ty then BitVec.ofInt 32 (sInt w (A sel)) else BitVec.ofNat 32 (A sel))] ∧
    gives (.vins h d a b ty idx)
      (let r := laneWise w fun j => (if j = sel then bits (eScalar s a).toNat 0 w else lane (eVector s d w) w j, 0)
      [.vector d r.1, .flags r.2])

/-- Reductions, scans, conversions, packs and MX block words give the result of their entries (R110, R113, R114, R454, R460, R461, R462, R463).

Where it goes past the words of the rules it follows the model's own choices of log entries 36, 63, 81 and 82. -/
def Obligations.ReductionsAndLaneConversions : Prop :=
  ∀ (h : Hdr) (d a b : Reg) (ty oty : BitVec 4) (rm : BitVec 3) (sat : BitVec 1) (imm8 : BitVec 8) (s : State),
    let w := tagWidth ty
    let v := tagWidth oty
    let A := fun j => lane (eVector s a w) w j
    let B := fun j => lane (eVector s b w) w j
    let gives := fun (i : Instr) (fx : List Fx) => ElemRuns i s → exec i s = .next (elemRetire i s fx)
    let pairs := (List.range (512 / w)).map fun j => (A j, B j)
    gives (.vdot h d a b ty rm oty sat)
      (let r := if intTag ty then intTree sat (pairs.map fun p => sInt w p.1 * sInt w p.2)
        else floatTree oty rm (pairs.map fun p => mulV (arithValue ty p.1) (arithValue ty p.2))
      [.vector d (BitVec.ofNat 512 r.1), .flags r.2]) ∧
    gives (.vred h d a ty rm oty sat)
      (let r := if intTag ty then intTree sat (pairs.map fun p => sInt w p.1)
        else floatTree oty rm (pairs.map fun p => (arithValue ty p.1, 0))
      [.vector d (BitVec.ofNat 512 r.1), .flags r.2]) ∧
    (∀ x l, lanes (eVector s a w) w = x :: l → gives (.vscan h d a ty rm oty sat)
      (let sum := fun (p q : Nat) => if intTag ty then intLane w sat (sInt w p + sInt w q)
        else ((((fmtOf ty).round rm 0 (addV rm ((fmtOf ty).value p) ((fmtOf ty).value q)).1).1,
          (addV rm ((fmtOf ty).value p) ((fmtOf ty).value q)).2 |||
            ((fmtOf ty).round rm 0 (addV rm ((fmtOf ty).value p) ((fmtOf ty).value q)).1).2))
      let rs := scanFrom sum (if intTag ty then (x, 0) else convertTag ty ty 0 0 x) l
      [.vector d (ofLanes w (rs.map fun r => r.1)), .flags (rs.foldl (fun f r => f ||| r.2) 0)])) ∧
    gives (.vcvt h d a ty rm oty)
      (let r := laneWise w fun j => convertTag ty oty rm (myDraw s j) (A j)
      [.vector d r.1, .flags r.2]) ∧
    gives (.vpack h d a b ty rm oty)
      (let r := laneWise v fun j => convertTag ty oty rm (myDraw s j) (if j < 512 / w then A j else B (j - 512 / w))
      [.vector d r.1, .flags r.2]) ∧
    gives (.vunpk h d a ty rm oty imm8)
      (let r := laneWise v fun j => convertTag ty oty rm (myDraw s j) (A (j + imm8.toNat * (512 / v)))
      [.vector d r.1, .flags r.2]) ∧
    gives (.vqnt h d a b ty rm oty imm8)
      (let x := (quantSource s a ty).map (fmtOf ty).value
      let draws := (List.range 32).map (myDraw s)
      let m := if splitOf imm8 then mxQuantSplit x oty (fp32.value (eScalar s b).toNat) rm draws else mxQuantStd x oty rm draws
      let p := setPairBlock oty (eVector s d 512) (eVector s (d + 1) 512) (blkOf imm8) m
      [.vector d p.1, .vector (d + 1) p.2, .flags m.flags]) ∧
    gives (.vdqnt h d a ty rm oty imm8)
      (let p := pairBlock ty (eVector s a 512) (eVector s (a + 1) 512) (blkOf imm8)
      let ys := (List.range 32).map fun i => (fmtOf oty).round rm (myDraw s i) (mxValue ty p.1 p.2.1 p.2.2 i)
      let vs := ys.map fun r => r.1
      let f := ys.foldl (fun a r => a ||| r.2) 0
      if oty = 0 then [.vector d (ofLanes v (vs.take 16)), .vector (d + 1) (ofLanes v (vs.drop 16)), .flags f]
      else [.vector d (ofLanes v vs), .flags f])

/-- Every word of the matrix array completes with the effects of its entry, where the mode is the one it requires (R146, R147, R148, R149, R150, R151, R152, R153, R154).

Where it goes past the words of the rules it follows the model's own choices of log entries 29, 84 and 85. -/
def Obligations.MatrixWordsComplete : Prop :=
  ∀ (h : Hdr) (d a b : Reg) (ty : BitVec 4) (rm : BitVec 3) (row : BitVec 9) (f : BitVec 1) (colb : BitVec 4) (s t : State) (o : Nat),
    let g := myRegion s
    let r := region s g
    let modeHolds := r.mm = 1 ∧ r.mt = ty
    let first := myCol s = 0
    let line := fun (q : Reg) => eVector s q 512
    let slice : Wide := (if mxTag ty then line (a ||| 1) else 0) ++ line a
    let arrow := (row.toNat + (eScalar s b).toNat) % 512
    let head := (travelling r 0 (myCol s)).headD ((eScalar s b).setWidth 1024)
    let sent := if first then sendEast s [(eScalar s b).setWidth 1024, slice] else s
    let gives := fun (i : Instr) (u : State) (fx : List Fx) => ElemRuns i s → exec i s = .next (elemRetire i u fx)
    gives (.mmode h ty f) s (if first ∧ myRow s = 0 then [.mode f ty] else []) ∧
    (modeHolds → f = 0 → gives (.wload h a b ty f) s [.weight ((eScalar s b).toNat % 4) (eVector s a 8)]) ∧
    (modeHolds → f = 1 → mxTag ty = true → gives (.wload h a b ty f) s [.scale ((eVector s a 8).setWidth 128)]) ∧
    gives (.mmeta h a) s [.metaFile (eVector s a 8)] ∧
    (modeHolds → (first → head = (eScalar s b).setWidth 1024) → gives (.mma h a b ty rm row f) sent
      (if myRow s = 7 then [.mma ((row.toNat + head.toNat) % 512) (16 * myCol s) (f == 1) ty rm (columnDots sent ty false rm)] else [])) ∧
    (modeHolds → (first → head = (eScalar s b).setWidth 1024) →
      (∀ n < 16, ∀ j < 8, nibbleOk (metaNibble (myElem s) n j) = true) → gives (.mmasp h a b ty rm row f) sent
      (if myRow s = 7 then [.mma ((row.toNat + head.toNat) % 512) (16 * myCol s) (f == 1) ty rm (columnDots sent ty true rm)] else [])) ∧
    gives (.accz h b row) s (if first then [.accZero arrow] else []) ∧
    gives (.accrd h d b row colb) s
      [.vector d (ofLanes 32 ((List.range 16).map fun k => (accGet r arrow (16 * colb.toNat + k)).toNat))] ∧
    gives (.accwr h a b row colb) s
      (if first then [.accCells arrow (16 * colb.toNat) ((lanes (eVector s a 32) 32).map (BitVec.ofNat 32))] else []) ∧
    (¬first → gives (.accld h a b ty row) s [] ∧ gives (.accst h a b ty rm row) s []) ∧
    (first → accPlace s a ty false = .ok (o, t) → gives (.accld h a b ty row) t
      (let cells := (List.range 256).map fun c =>
        let v := bytesNat (nodeRead (region t (myRegion t)) (c / 16) (o + accBytes ty / 16 * (c % 16)) (accBytes ty / 16))
        if ty = 0 then (v, 0) else convertTag ty 0 0 0 v
      [.accCells (accRow t row b) 0 (cells.map fun v => BitVec.ofNat 32 v.1), .flags (cells.foldl (fun f v => f ||| v.2) 0)])) ∧
    (first → accPlace s a ty true = .ok (o, t) → gives (.accst h a b ty rm row) t
      (let cells := (List.range 256).map fun c =>
        let v := (accGet (region t (myRegion t)) (accRow t row b) c).toNat
        if ty = 0 then (v, 0) else convertTag 0 ty rm 0 v
      ((List.range 16).map fun j => .node j o (((cells.drop (16 * j)).take 16).flatMap fun v => natBytes v.1 (accBytes ty / 16))) ++
        [.flags (cells.foldl (fun f v => f ||| v.2) 0)]))

/-- A matrix word whose TYPE is not the region’s matrix mode is ILLEGAL, and MMODE clears the weights when it changes the type (R147, R148). -/
def Obligations.MatrixModeIsRequired : Prop :=
  (∀ (h : Hdr) (a b : Reg) (ty : BitVec 4) (rm : BitVec 3) (row : BitVec 9) (f : BitVec 1) (s : State) (i : Instr),
    i ∈ [Instr.wload h a b ty f, .mma h a b ty rm row f, .mmasp h a b ty rm row f] →
    ¬((region s (myRegion s)).mm = 1 ∧ (region s (myRegion s)).mt = ty) → ElemRuns i s → exec i s = .next (elemFault s 0x01 0)) ∧
  (∀ (r : Region) (ty : BitVec 4), ty ≠ r.mt →
    (setMode r 1 ty).mm = 1 ∧ (setMode r 1 ty).mt = ty ∧ (setMode r 1 ty).acc = r.acc ∧
    ∀ k, (vget Element.reset (setMode r 1 ty).elems k).weight = 0 ∧ (vget Element.reset (setMode r 1 ty).elems k).scale = 0 ∧
      (vget Element.reset (setMode r 1 ty).elems k).metaFile = 0) ∧
  (∀ (r : Region) (f : BitVec 1) (ty : BitVec 4), f = 0 ∨ ty = r.mt → setMode r f ty = { r with mm := f })

/-- Every word of format SB completes with the effects of its entry (R116, R117, R119, R120, R121, R123, R124, R125, R126, R127).

Where it goes past the words of the rules it follows the model's own choices of log entry 83. -/
def Obligations.SummationByPartsWordsComplete : Prop :=
  ∀ (h : Hdr) (d a b c : Reg) (grp : BitVec 8) (rm : BitVec 3) (s : State),
    let group := (grp.toNat + (eScalar s b).toNat) % 256
    let A := eVector s a 8
    let gives := fun (i : Instr) (fx : List Fx) => ElemRuns i s → exec i s = .next (elemRetire i s fx)
    (bits A.toNat 384 128 = 0 → isPerm A.toNat = true →
      gives (.prmld h a b grp) (if myCol s = 0 then [.perm group (BitVec.ofNat 384 A.toNat)] else [])) ∧
    gives (.prmap h d a b grp)
      [.vector d (ofLanes 8 ((List.range 64).map fun j => lane A 8 (permEntry (permOf s group).toNat j)))] ∧
    gives (.scans h d a) [.sum d (ofI16 (suffixSums ((List.range 64).map (i8 A))).1)] ∧
    (escapes A.toNat ≤ 31 → difNib A.toNat 0 = 0 → (∀ e < 31, escapes A.toNat ≤ e → difSide A.toNat e = 0) →
      gives (.difld h d a) [.sum d (ofI16 (sInt 8 (bits A.toNat 0 8) :: decodeDif A.toNat 63 1 0))]) ∧
    gives (.difmul h d a b c)
      (let n := (eScalar s c).toNat % 16
      let p := (List.range 64).foldl (fun acc j => acc + i16 (eSum s b) j * i16 (eSum s a) j) (0 : Int)
      [.sumLane d n (BitVec.ofNat 64 (bits (eSum s d).toNat (64 * n) 64) + BitVec.ofInt 64 p)]) ∧
    gives (.sbpfin h d a b c rm)
      (let rs := (List.range 16).map fun n =>
        let q : FVal := .fin (sInt 64 (bits (eSum s a).toNat (64 * n) 64) : Int) false
        let u := fp16.value (lane (eVector s b 16) 16 n)
        let v := fp32.value (lane (eVector s c 32) 32 n)
        if u.isNan || v.isNan || ((!u.finite || !v.finite) && (q.isZero || u.isZero || v.isZero)) then (fp32.nan, flagNV)
        else fp32.round rm (myDraw s n) (mulV (mulV q u).1 v).1
      [.vector d (ofLanes 32 (rs.map fun r => r.1)), .flags (rs.foldl (fun f r => f ||| r.2) 0)]) ∧
    gives (.wsort h d a b grp)
      (let order := sortLanes A
      let p : BitVec 384 := BitVec.ofNat 384 (order.foldr (fun i acc => i + 64 * acc) 0)
      .vector d (difRecord (order.map (i8 A))) :: (if myCol s = 0 then [.perm group p] else [])) ∧
    gives (.yclr h d) [.sum d 0]

/-- WSORT orders all 64 lanes: its permutation is a bijection and the weights ascend along it (R126). -/
def Obligations.SortedWeightsAscendAndPermute : Prop :=
  ∀ v : Line, (sortLanes v).Perm (List.range 64) ∧
    (sortLanes v).Pairwise (fun i j => i8 v i < i8 v j ∨ (i8 v i = i8 v j ∧ i < j))

/-- An element load opens a window that closes 4·(WIN + 1) cycles on, and a misaligned one faults when it executes (R47, R129, R135, R285, R381, R382, R383, R465, R467).

Where it goes past the words of the rules it follows the model's own choices of log entry 64. -/
def Obligations.ElementLoadsOpenWindows : Prop :=
  ∀ (h : Hdr) (d a b : Reg) (off : BitVec 20) (win : BitVec 5) (port : BitVec 6) (hint : BitVec 3) (ty : BitVec 4) (s : State),
    let va := (eScalar s a + eScalar s b + off.signExtend 32).toNat
    let size := accessBytes .elem ty
    let opened := fun (form : LoadForm) (n : Nat) (accs : List (Nat × Nat)) => modMyElem s fun e => { e with wins := e.wins ++
      [{ iter := myIter s, pos := myPos s, close := (region s (myRegion s)).rc + 4 * (n + 1) - 1, dst := d, form := form, port := port,
         hint := hint, accs := accs.map fun p => ⟨p.1, p.2, none, none, none, none⟩,
         held := accs.flatMap fun p => heldBytes (region s (myRegion s)) p.1 p.2,
         ret := max (region s (myRegion s)).rc (myElem s).lastRet, ty := ty, root := (core s (myRegion s)).asroot, closed := false }] }
    let gives := fun (i : Instr) (u : State) => ElemRuns i s → exec i s = .next (elemRetire i u [])
    let faults := fun (i : Instr) => ElemRuns i s → exec i s = .next (elemFault s 0x23 0)
    let lanesOfB := (List.range (min 16 (512 / tagWidth ty))).map fun j =>
      (eScalar s a + off.signExtend 32 + BitVec.ofNat 32 (lane (eVector s b 32) 32 j)).toNat
    let each := tagWidth ty / 8
    (va % size = 0 → gives (.ld h d a b off port hint ty) (opened (.scalar ty) 31 [(va, size)])) ∧
    (va % size = 0 → gives (.ldw h d a b off win port hint ty) (opened (.scalar ty) win.toNat [(va, size)])) ∧
    (va % 64 = 0 → gives (.vld h d a b off port hint ty) (opened .line 31 [(va, 64)])) ∧
    (va % 64 = 0 → gives (.vldw h d a b off win port hint ty) (opened .line win.toNat [(va, 64)])) ∧
    ((∀ x ∈ lanesOfB, x % each = 0) →
      gives (.vldx h d a b off port hint ty) (opened (.indexed (tagWidth ty)) 31 (lanesOfB.map fun x => (x, each)))) ∧
    (va % size ≠ 0 → faults (.ld h d a b off port hint ty) ∧ faults (.ldw h d a b off win port hint ty)) ∧
    (va % 64 ≠ 0 → faults (.vld h d a b off port hint ty) ∧ faults (.vldw h d a b off win port hint ty)) ∧
    ((∃ x ∈ lanesOfB, x % each ≠ 0) → faults (.vldx h d a b off port hint ty))

/-- An element store is held: it completes without touching memory (R40, R135, R180, R291, R441, R465, R467).

Where it goes past the words of the rules it follows the model's own choices of log entries 22, 48 and 87. -/
def Obligations.ElementStoresAreHeld : Prop :=
  ∀ (h : Hdr) (d a b c : Reg) (off : BitVec 20) (port : BitVec 6) (hint : BitVec 3) (ty : BitVec 4) (aop : BitVec 5) (s : State),
    let va := (eScalar s a + eScalar s b + off.signExtend 32).toNat
    let held := fun (x : Nat) (data : List Byte) (hint : BitVec 3) (red : Option (BitVec 5 × BitVec 4 × BitVec 32)) =>
      Fx.hold (x / 64) { seq := 0, iter := myIter s, pos := myPos s, row := myRow s, col := myCol s, off := x % 64, data := data,
                         ty := ty, hint := hint, red := red, xlat := none, retry := none, root := 0, win := none, ix := none }
    let lanesOfB := (List.range (min 16 (512 / tagWidth ty))).map fun j =>
      (eScalar s a + off.signExtend 32 + BitVec.ofNat 32 (lane (eVector s b 32) 32 j)).toNat
    let each := tagWidth ty / 8
    let gives := fun (i : Instr) (fx : List Fx) => ElemRuns i s → exec i s = .next (elemRetire i s fx) ∧
      SameOutside s (elemRetire i s fx) ∧ ∀ x pa, byteAt (elemRetire i s fx) x pa = byteAt s x pa
    (va % accessBytes .elem ty = 0 → gives (.st h d a b off port hint ty)
      [held va (natBytes (eScalar s d).toNat (accessBytes .elem ty)) hint none]) ∧
    (va % 64 = 0 → gives (.vst h d a b off port hint ty) [held va (natBytes (eVector s d 8).toNat 64) hint none]) ∧
    ((∀ x ∈ lanesOfB, x % each = 0) → gives (.vstx h d a b off port hint ty)
      (lanesOfB.zipIdx.map fun p => held p.1 (natBytes (lane (eVector s d (tagWidth ty)) (tagWidth ty) p.2) each) hint none)) ∧
    ((eScalar s a).toNat % cellBytes ty = 0 → gives (.redseq h a b c aop ty)
      [held (eScalar s a).toNat (natBytes (eScalar s b).toNat (cellBytes ty)) 0 (some (aop, ty, eScalar s c))])

/-- Scratch loads, stores and read-modify-writes act on the bytes of one memory node (R16, R242, R243, R244, R339, R383, R443, Table 22-2).

Where it goes past the words of the rules it follows the model's own choices of log entry 29. -/
def Obligations.ScratchWordsReadAndWriteNodes : Prop :=
  ∀ (h : Hdr) (d a b c : Reg) (off : BitVec 20) (ty : BitVec 4) (aop : BitVec 5) (slot : BitVec 8) (s t : State) (g j o : Nat),
    let size := accessBytes (kindOf s) ty
    let node := fun (u : State) (n : Nat) => Table.bytes (region u g).nodes (524288 * j + o) n
    (scratchAddr s (elemAddr s a b off) size = .ok (g, j, o) → takePort s j false = .ok t → ElemRuns (.ldsp h d a b off ty) s →
      exec (.ldsp h d a b off ty) s = .next (elemRetire (.ldsp h d a b off ty) t [.scalar d (loadValue ty (node t size))])) ∧
    (scratchAddr s (elemAddr s a b off) size = .ok (g, j, o) → takePort s j true = .ok t → ElemRuns (.stsp h d a b off ty) s →
      exec (.stsp h d a b off ty) s =
        .next (elemRetire (.stsp h d a b off ty) t [.node j o (natBytes (eScalar s d).toNat size)])) ∧
    (scratchAddr s (coreAddr s a b off) size = .ok (g, j, o) → mayTakeNode s g j false false = true → CoreRuns (.ldsp h d a b off ty) s →
      exec (.ldsp h d a b off ty) s =
        .next (advance (setX (takeNode s g j false false) (myCore s) d.toNat (loadValue ty (node s size))))) ∧
    (scratchAddr s (coreAddr s a b off) size = .ok (g, j, o) → mayTakeNode s g j false false = false →
      CoreRuns (.ldsp h d a b off ty) s → exec (.ldsp h d a b off ty) s = .next (awaitNode s g j false false)) ∧
    (scratchAddr s (coreAddr s a b off) size = .ok (g, j, o) → mayTakeNode s g j true false = true → CoreRuns (.stsp h d a b off ty) s →
      exec (.stsp h d a b off ty) s =
        .next (advance (modRegion (takeNode s g j true false) g fun r => nodeWrite r j o (natBytes (xval s d).toNat size)))) ∧
    (scratchAddr s (coreAddr s a b off) size = .ok (g, j, o) → mayTakeNode s g j true false = false →
      CoreRuns (.stsp h d a b off ty) s → exec (.stsp h d a b off ty) s = .next (awaitNode s g j true false)) ∧
    (scratchAddr s (eScalar s a).toNat 4 = .ok (g, j, o) → rmwHolds (region s g) j = false →
      ElemRuns (.rmws h d a b c aop ty slot) s →
      let old : BitVec 32 := BitVec.ofNat 32 (bytesNat (node s 4))
      let r := atomicNew aop ty old (eScalar s b) (eScalar s c)
      exec (.rmws h d a b c aop ty slot) s = .next (elemRetire (.rmws h d a b c aop ty slot)
        (modRegion (faultUsers s j) g fun q => { q with rmwBusy := q.rmwBusy ++ [(⟨j, q.rc + 2, o, natBytes r.1.toNat 4, myIter s, myPos s, myRow s, myCol s⟩ : RmwOp)] })
        [.scalar d old, .flags r.2]))

/-- A node reads back what was written to it, and every other byte of it stays (R16, R242). -/
def Obligations.NodeBytesReadBack : Prop :=
  ∀ (r : Region) (j off : Nat) (data : List Byte), Table.wf 0 r.nodes = true →
    nodeRead (nodeWrite r j off data) j off data.length = data ∧
    (∀ j' off' n, 524288 * j' + off' + n ≤ 524288 * j + off ∨ 524288 * j + off + data.length ≤ 524288 * j' + off' →
      nodeRead (nodeWrite r j off data) j' off' n = nodeRead r j' off' n) ∧
    nodeWrite r j off data = { r with nodes := (nodeWrite r j off data).nodes, touched := (nodeWrite r j off data).touched } ∧
    Table.wf 0 (nodeWrite r j off data).nodes = true

/-- BUFPUT and BUFGET move beats through the places of a buffer and complete when the place and the port allow (R57, R155, R156, R351, R352, R353, R354).

Where it goes past the words of the rules it follows the model's own choices of log entries 28 and 29. -/
def Obligations.BufferWordsMoveBeats : Prop :=
  ∀ (h : Hdr) (d a : Reg) (off : BitVec 20) (port : BitVec 6) (ty : BitVec 4) (s t : State) (b : Buffer),
    let g := myRegion s
    let n := if mxTag ty then 128 else 64
    let cw := eScalar s a
    let g' := if cw.getLsbD 21 then bits cw.toNat 16 5 else g
    let put : Instr := .bufput h d a off port ty
    let get : Instr := .bufget h d off port ty
    let beat := lineBytes (eVector s d 512) ++ if mxTag ty then lineBytes (eVector s (d ||| 1) 512) else []
    let last : Bool := off.toNat + n == b.bytes
    let fits := off.toNat % n = 0 ∧ off.toNat + n ≤ b.bytes
    let ahead := vget 0 b.getIx (myCol s)
    let behind := vget 0 b.putIx (myCol s)
    ((region s g).bufs[port.toNat]? = some b → fits → isFull b ahead = true → takePort s b.node false = .ok t → ElemRuns get s →
      let bs := nodeRead (region t g) b.node (b.base + ahead * b.bytes + off.toNat) n
      exec get s = .next (elemRetire get t (.bufGet port.toNat ahead last :: .vector d (bytesLine (bs.take 64)) ::
        (if mxTag ty then [.vector (d ||| 1) (bytesLine (bs.drop 64))] else [])))) ∧
    ((region s g).bufs[port.toNat]? = some b → bits cw.toNat 22 10 = 0 → cw.getLsbD 21 = false → fits → isFull b behind = false →
      takePort s b.node true = .ok t → ElemRuns put s →
      exec put s = .next (elemRetire put t [.bufPut port.toNat off.toNat behind beat last (cw.setWidth 16)])) ∧
    ((region s g').bufs[port.toNat]? = some b → bits cw.toNat 22 10 = 0 → cw.getLsbD 21 = true → sameLoad s g g' = true → fits →
      ElemRuns put s → exec put s = .next (elemRetire put (modRegion s g fun r => { r with beats := r.beats ++
        [(⟨hopCount g g' + 1, myIter s, myPos s, myRow s, myCol s, g', port.toNat, off.toNat, beat, last, cw.setWidth 16⟩ : RemoteBeat)] }) [])) ∧
    ((region s g).bufs[port.toNat]? = some b → off.toNat % n ≠ 0 → ElemRuns get s → exec get s = .next (elemFault s 0x23 0)) ∧
    ((region s g).bufs[port.toNat]? = some b → off.toNat % n = 0 → b.bytes < off.toNat + n → ElemRuns get s →
      exec get s = .next (elemFault s 0x21 0)) ∧
    ((region s g).bufs[port.toNat]? = some b → fits → isFull b ahead = false → ElemRuns get s → exec get s = .next (elemFault s 0x10 1)) ∧
    ((region s g).bufs[port.toNat]? = some b → bits cw.toNat 22 10 = 0 → cw.getLsbD 21 = false → fits → isFull b behind = true →
      ElemRuns put s → exec put s = .next (elemFault s 0x10 1)) ∧
    ((region s g').bufs[port.toNat]? = some b → bits cw.toNat 22 10 = 0 → (cw.getLsbD 21 = true → sameLoad s g g' = true) → ElemRuns put s →
      (off.toNat % n ≠ 0 → exec put s = .next (elemFault s 0x23 0)) ∧
      (off.toNat % n = 0 → b.bytes < off.toNat + n → exec put s = .next (elemFault s 0x21 0))) ∧
    (bits cw.toNat 22 10 = 0 → cw.getLsbD 21 = true → sameLoad s g g' = false → ElemRuns put s →
      exec put s = .next (elemFault s 0x21 0)) ∧
    (∀ k iter pos place, (region s g).bufs[port.toNat]? = some b → k % 16 = 0 → b.opened = false → b.full.get none place ≠ some b.expect →
      applyFx s g k iter pos (.bufGet port.toNat place true) = .error (0x11, 0) ∧
      applyFx s g k iter pos (.bufGet port.toNat place false) = .error (0x11, 0))

/-- LD and ST of a core read and write the bytes at the address their operands give (R135, R277, R295, R381, R383, R441, R442).

Where it goes past the words of the rules it follows the model's own choices of log entries 7 and 27. -/
def Obligations.CoreLoadsAndStoresReachMemory : Prop :=
  ∀ (h : Hdr) (d a b : Reg) (off : BitVec 20) (port : BitVec 6) (hint : BitVec 3) (ty : BitVec 4) (s t : State) (x : Xlat),
    let va := (xval s a + xval s b + off.signExtend 64).toNat
    let size := accessBytes (kindOf s) ty
    let ctx := coreCtx s (myCore s)
    let data := natBytes (xval s d).toNat size
    let seen := (List.range size).map fun j => viewAt t ctx.gid x.attr (x.pa + j)
    (∀ gid b pa, (∀ q n, gid = some n → graph? t n = some q → q.group.attrs.get none (pa / 64) = none) →
      viewAt t gid b pa = byteAt t b pa) ∧
    (∀ n q k b pa, graph? t n = some q → q.group.attrs.get none (pa / 64) = some k → k.codec = 0 → b.codec = 0 →
      viewAt t (some n) b pa = (q.group.bytes.get none pa).getD (byteAt t b pa)) ∧
    (CoreRuns (.ld h d a b off port hint ty) s → (∀ p ∈ (core s (myCore s)).supplied, p.1 ≠ va) → va % size = 0 →
      translate s ctx .read va = (t, .ok x) → place x.pa = .hbm → x.pa % 64 + size ≤ 64 →
      exec (.ld h d a b off port hint ty) s =
        .next (retX (readBytes t ctx x size hint.toNat).2 d (loadValue ty seen))) ∧
    (CoreRuns (.st h d a b off port hint ty) s → va % size = 0 → translate s ctx .write va = (t, .ok x) → place x.pa = .hbm →
      x.pa % 64 + size ≤ 64 → codedStore x data = none →
      exec (.st h d a b off port hint ty) s =
        .next (advance (noteWritten (writeBytes t ctx x data hint.toNat) (myCore s) x.pa))) ∧
    (L2Agrees t → place x.pa = .hbm → x.pa % 64 + size ≤ 64 → x.codec = 0 → x.dedup = false →
      (∀ q, ctx.gid.bind (graph? t) = some q → q.group.state ≠ 1 ∧ q.group.state ≠ 3) →
      let w := writeBytes t ctx x data hint.toNat
      (∀ j < size, byteAt w x.attr (x.pa + j) = data.getD j 0) ∧
      (∀ pa, pa / 64 = x.pa / 64 → (pa < x.pa ∨ x.pa + size ≤ pa) → byteAt w x.attr pa = byteAt t x.attr pa) ∧
      (∀ c pa, pa / 64 ≠ x.pa / 64 → byteAt w c pa = byteAt t c pa)) ∧
    (va % size ≠ 0 →
      (CoreRuns (.ld h d a b off port hint ty) s → (∀ p ∈ (core s (myCore s)).supplied, p.1 ≠ va) →
        exec (.ld h d a b off port hint ty) s = .next (coreFault s (myCore s) 0x23 (BitVec.ofNat 64 va))) ∧
      (CoreRuns (.st h d a b off port hint ty) s →
        exec (.st h d a b off port hint ty) s = .next (coreFault s (myCore s) 0x23 (BitVec.ofNat 64 va))))

/-- A write changes the bytes that it writes, and no other byte of memory (R245, R246, R261, R266, R267, R283).

Where it goes past the words of the rules it follows the model's own choices of log entries 7 and 86. -/
def Obligations.StoresChangeTheirOwnBytesAlone : Prop :=
  ∀ (s : State) (ln : Nat) (a : LineAttr) (bs : List (Nat × Byte)) (hint cd ci : Nat) (everyDie : Bool),
    L2Agrees s → a.dedup = false → (∀ p ∈ bs, p.1 < 64) →
    let w := performLine s ln a bs hint cd ci everyDie
    let r := (loadLine s ln a hint).2
    (L2Agrees w ∧ L2Agrees r) ∧
    (∀ b pa, pa / 64 ≠ ln → byteAt w b pa = byteAt s b pa) ∧
    (a.codec = 0 → ∀ pa, pa / 64 = ln → byteAt w a pa =
      match bs.reverse.find? fun p => p.1 == pa % 64 with
      | some p => p.2
      | none => byteAt s a pa) ∧
    (∀ b pa, byteAt r b pa = byteAt s b pa)

/-- What the codec stores in a slot decodes, on every later read, to the values that the write left (R262, R263, R265, R266, R267). -/
def Obligations.CodecSlotsHoldTheirBlocks : Prop :=
  ∀ (code : Nat) (l : Line) (keyed : Bool),
    codecLoad code (bytesLine ((lineBytes (codecStore code l).1).take (codecBytes code keyed))) = (codecStore code l).2

/-- AMO and REDSEQ of a core, and AMO of an element: one read-modify-write at the home (R243, R291, R292, R293, R342, R343, R344, R410).

Where it goes past the words of the rules it follows the model's own choices of log entries 7 and 21. -/
def Obligations.AtomicWordsActOnceAtTheirHome : Prop :=
  (∀ (old b c : E32),
    atomicNew 0 11 old b c = (old + b, 0) ∧
    (atomicNew 1 11 old b c).1.toInt = min old.toInt b.toInt ∧ (atomicNew 2 11 old b c).1.toInt = max old.toInt b.toInt ∧
    atomicNew 3 11 old b c = (old &&& b, 0) ∧ atomicNew 4 11 old b c = (old ||| b, 0) ∧ atomicNew 5 11 old b c = (old ^^^ b, 0) ∧
    atomicNew 6 11 old b c = (b, 0) ∧ atomicNew 7 11 old b c = (if old = c then b else old, 0)) ∧
  ∀ (h : Hdr) (d a b c : Reg) (aop : BitVec 5) (ty : BitVec 4) (s t : State) (x : Xlat) (n : Nat) (k : Contribution),
    let va := (xval s a).toNat
    let ctx := coreCtx s (myCore s)
    let home := fun (bytes : Nat) => va % bytes = 0 ∧ translate s ctx .write va = (t, .ok x) ∧ place x.pa = .hbm ∧
      reachable x.pa bytes = true ∧ x.codec = 0
    let old := BitVec.ofNat 32 (bytesNat ((List.range 4).map fun j => viewAt t ctx.gid x.attr (x.pa + j)))
    let b32 : E32 := (xval s b).setWidth 32
    let new := (atomicNew aop ty old b32 ((xval s c).setWidth 32)).1
    let read := (readPlace t ctx x 4 0).2
    let done := performBytes read x.pa x.attr (natBytes new.toNat 4) 0 read.cur.val ctx.counter false
    let answered := sendPacket done (systemDie x.pa) done.cur.val .response (natBytes old.toNat 4)
    let mine : Contribution := ⟨x.pa / 64, x.pa % 64, aop, ty, (xval s c).setWidth 32, b32, t.cur.val, t.who, x.key, x.dedup, false, false,
      rootAsid (myRoot t)⟩
    let sent := sendContribution (noteWritten (modCore t (myCore s) fun q => { q with wait := .redseq }) (myCore s) x.pa) mine
    (CoreRuns (.amo h d a b c aop ty) s → groupOpen s = false → home 4 → x.pa % 64 + 4 ≤ 64 →
      exec (.amo h d a b c aop ty) s = .next (retX
        (noteWritten (refreshCaptured answered ctx.gid x.pa (natBytes new.toNat 4)) (myCore s) x.pa)
        d (if ty = 11 then old.signExtend 64 else old.setWidth 64))) ∧
    (L2Agrees t → home 4 → x.pa % 64 + 4 ≤ 64 → x.dedup = false →
      (∀ j < 4, byteAt answered x.attr (x.pa + j) = (natBytes new.toNat 4).getD j 0) ∧
      (∀ pa, pa / 64 = x.pa / 64 → (pa < x.pa ∨ x.pa + 4 ≤ pa) → byteAt answered x.attr pa = byteAt t x.attr pa) ∧
      (∀ q pa, pa / 64 ≠ x.pa / 64 → byteAt answered q pa = byteAt t q pa)) ∧
    (ElemRuns (.amo h d a b c aop ty) s → (eScalar s a).toNat % 4 = 0 →
      exec (.amo h d a b c aop ty) s =
        .next (elemRetire (.amo h d a b c aop ty) s [.amo (eScalar s a).toNat aop ty (eScalar s b) (eScalar s c)])) ∧
    (ElemRuns (.amo h d a b c aop ty) s → (eScalar s a).toNat % 4 ≠ 0 →
      exec (.amo h d a b c aop ty) s = .next (elemFault s 0x23 0)) ∧
    (CoreRuns (.redseq h a b c aop ty) s → groupOpen s = false → home (cellBytes ty) → x.pa % 64 + cellBytes ty ≤ 56 →
      exec (.redseq h a b c aop ty) s =
        .next (judgeContribution sent (homeDie mine.line) ((dieAt sent (homeDie mine.line)).reds.length - 1))) ∧
    ((die s).reds[n]? = some k → k.stored = false → k.arrived = false →
      exec (.redseqArrival n) s = .next (judgeContribution s s.cur.val n)) ∧
    ((die s).reds[n]? = some k → k.stored = false → k.arrived = true → judgeable s k = true → AgentRuns (.redseqPlaceFree n) →
      exec (.redseqPlaceFree n) s = .next (judgeContribution s s.cur.val n))

/-- A contribution whose index is next updates its cell and the count of its line; a refused one leaves the line and the store (R291, R292).

Where it goes past the words of the rules it follows the model's own choices of log entries 7 and 86. -/
def Obligations.ContributionsApplyInIndexOrder : Prop :=
  ∀ (s : State) (n k : Nat) (c : Contribution) (g : Fin 32) (r : Fin 8) (e : Fin 16),
    (dieAt s n).reds[k]? = some c → c.stored = false → c.src = .elem g r e →
    let t := modDieAt s n fun d => { d with reds := d.reds.eraseIdx k }
    let answered := fun (u : State) => sendPacket u (homeDie c.line) c.die .response []
    let ahead := (c.k - snext s c).toNat
    let twin := ∃ o ∈ (dieAt t (homeDie c.line)).reds, o.line = c.line ∧ o.stored = true ∧ o.k = c.k
    (ahead = 0 → ¬ twin → judgeContribution s n k = onDie (answered (drainSequenced (monitorsSee (applyContribution t c)) c.line 256)) c.die id) ∧
    (0 < ahead → ahead < 256 → ¬ twin → reorderUsed s c.line < 4096 → judgeContribution s n k =
      onDie (answered (modDieAt t (homeDie c.line) fun d => { d with reds := d.reds ++ [{ c with stored := true, arrived := true }] })) c.die id) ∧
    ((256 ≤ ahead ∨ twin) → judgeable s c = true → judgeContribution s n k =
      onDie (answered t) c.die fun u => postStage u g.val 0x36 3 (BitVec.ofNat 64 (64 * c.line))) ∧
    (let wide := if c.ty = 1 ∨ c.ty = 2 then 2 else 4
     let u := applyContribution s c
     let seen := fun (off n : Nat) => BitVec.ofNat 32 (bytesNat ((List.range n).map fun j => byteAt s c.attr (64 * c.line + off + j)))
     L2Agrees s → c.dedup = false → c.off + wide ≤ 56 →
     (∀ q, (contributionGid s c).bind (graph? { s with cur := Fin.ofNat 24 c.die }) = some q → q.group.attrs.get none c.line = none) →
     snext s c = seen 56 4 ∧
     (∀ j < wide, byteAt u c.attr (64 * c.line + c.off + j) =
       (natBytes (atomicNew c.aop c.ty (seen c.off wide) c.v 0).1.toNat wide).getD j 0) ∧
     (∀ j < 4, byteAt u c.attr (64 * c.line + 56 + j) = (natBytes (snext s c + 1).toNat 4).getD j 0) ∧
     (∀ j < 64, (j < c.off ∨ c.off + wide ≤ j) → (j < 56 ∨ 60 ≤ j) → byteAt u c.attr (64 * c.line + j) = byteAt s c.attr (64 * c.line + j)) ∧
     (∀ a pa, pa / 64 ≠ c.line → byteAt u a pa = byteAt s a pa)) ∧
    (let next := (dieAt s (homeDie c.line)).reds.find? fun o => o.line == c.line && o.stored && o.k == snext s o
     (next = none → drainSequenced s c.line (n + 1) = s) ∧
     (∀ o, next = some o → drainSequenced s c.line (n + 1) = drainSequenced (monitorsSee (applyContribution
       (modDieAt s (homeDie c.line) fun d => { d with reds := d.reds.erase o }) o)) c.line n))

/-- BARA, BARW, PREF and their events count PEND of the barrier object (R248, R249, R289, R346, R405).

Where it goes past the words of the rules it follows the model's own choices of log entries 7 and 21. -/
def Obligations.BarrierWordsCountTheObject : Prop :=
  ∀ (h : Hdr) (d a b : Reg) (off : BitVec 20) (s t : State) (x : Xlat) (c n : Nat) (p : Prefetch),
    let object := fun (r : Reg) => (xval s r).toNat % 64 = 0 ∧
      translate s (coreCtx s (myCore s)) .write (xval s r).toNat = (t, .ok x) ∧ place x.pa = .hbm ∧ reachable x.pa 64 = true ∧ x.codec = 0
    let w := myBarrier t x
    let pend := w % 2 ^ 20
    let va := (xval s a + off.signExtend 64).toNat
    let len := (xval s b).toNat
    (∀ v, L2Agrees t → place x.pa = .hbm → x.pa % 64 + 8 ≤ 64 → x.codec = 0 → x.dedup = false →
      let u := coreBarrier t x v
      (∀ j < 8, byteAt u x.attr (x.pa + j) = (natBytes v 8).getD j 0) ∧
      (∀ pa, pa / 64 = x.pa / 64 → (pa < x.pa ∨ x.pa + 8 ≤ pa) → byteAt u x.attr pa = byteAt t x.attr pa) ∧
      (∀ q pa, pa / 64 ≠ x.pa / 64 → byteAt u q pa = byteAt t q pa)) ∧
    (CoreRuns (.bara h a b) s → object a → pend + len < 2 ^ 20 →
      exec (.bara h a b) s = .next (advance (coreBarrier t x (w + len)))) ∧
    (CoreRuns (.bara h a b) s → object a → 2 ^ 20 ≤ pend + len →
      exec (.bara h a b) s = .next (coreFault s (myCore s) 0x37 (xval s a))) ∧
    (CoreRuns (.barw h a) s → object a → pend = 1 → exec (.barw h a) s = .next (advance (coreBarrier t x (w - 1)))) ∧
    (CoreRuns (.barw h a) s → object a → 1 < pend → exec (.barw h a) s =
      .next (modCore (coreBarrier t x (w - 1)) (myCore s) fun k => { k with wait := .barw x false })) ∧
    (CoreRuns (.barw h a) s → object a → pend = 0 → exec (.barw h a) s = .next (coreFault s (myCore s) 0x37 (xval s a))) ∧
    (∀ seen : Bool, (core s c).wait = .barw x seen → seen = true ∨ barrierWord s (coreGid s c) x % 2 ^ 20 = 0 → AgentRuns (.barwReturn c) →
      exec (.barwReturn c) s = .next (modCore (sendRead s s.cur.val (systemDie x.pa) (natBytes (barrierWord s (coreGid s c) x) 8)) c fun k => { k with wait := .none, pc := k.pc + 1, supplied := [], issued := none })) ∧
    (CoreRuns (.pref h d a b off) s → va % 64 = 0 → len % 64 = 0 → 0 < len → len ≤ 2 ^ 32 → object d → pend < 2 ^ 20 - 1 →
      exec (.pref h d a b off) s = .next (advance (modDie (coreBarrier t x (w + 1)) fun q => { q with
        prefs := q.prefs ++ [⟨va / 64, len / 64, 0, myRoot t, (kindOf t).isMgr, x, coreGid t (myCore t)⟩] }))) ∧
    ((die s).prefs[n]? = some p →
      let r := prefLines p p.count p.line (modDie s fun q => { q with prefs := q.prefs.eraseIdx n }) 0
      let v := barrierWord r.1 p.gid p.obj
      let v := v - if v % 2 ^ 20 = 0 then 0 else 1
      let err := if r.2 = 0 then v else
        v + (if v.testBit 20 then 0 else 2 ^ 20) + if bits v 21 8 = 0 then 2 ^ 21 * r.2 else 0
      exec (.prefComplete n) s = .next (setBarrier r.1 p.gid p.obj err))

/-- MARM, MWAIT and FENCE complete, and a waiting MWAIT returns (R286, R287, R392, R368).

Where it goes past the words of the rules it follows the model's own choices of log entries 7, 8 and 78. -/
def Obligations.MonitorsAndFences : Prop :=
  ∀ (h : Hdr) (d a : Reg) (s t : State) (x : Xlat) (c : Nat) (thr : X) (scope : BitVec 3),
    let me := myCore s
    let open_ := ∃ n, ∃ k ∈ (dieAt s n).reds, n < 24 ∧ k.die = s.cur.val ∧ ofCore me k = true
    (CoreRuns (.marm h a) s → (xval s a).toNat % 8 = 0 → translate s (coreCtx s me) .read (xval s a).toNat = (t, .ok x) →
      place x.pa = .hbm →
      exec (.marm h a) s = .next (modCore (advance t) (myCore t) fun k => { k with mon := some (x.pa, x.codec, x.key) })) ∧
    (CoreRuns (.mwait h d a) s → (core s me).mon ≠ none → (xval s a).toNat ≤ (monitored s me).1.toNat →
      exec (.mwait h d a) s = .next (retX (monitored s me).2 d (monitored s me).1)) ∧
    (CoreRuns (.mwait h d a) s → (core s me).mon ≠ none → (monitored s me).1.toNat < (xval s a).toNat →
      exec (.mwait h d a) s = .next (modCore s me fun k => { k with wait := .mwait d (xval s a) none })) ∧
    (CoreRuns (.mwait h d a) s → (core s me).mon = none → exec (.mwait h d a) s = .next (coreFault s me 0x01 0)) ∧
    (∀ met : Option X, (core s c).wait = .mwait d thr met → met ≠ none ∨ thr.toNat ≤ (monitored s c).1.toNat → AgentRuns (.mwaitReturn c) →
      exec (.mwaitReturn c) s = .next (modCore (setX (monitored s c).2 c d.toNat (met.getD (monitored s c).1)) c fun k =>
        { k with wait := .none, pc := k.pc + 1, supplied := [], issued := none })) ∧
    (ElemRuns (.fence h scope) s → exec (.fence h scope) s = .next (elemRetire (.fence h scope) s [])) ∧
    (CoreRuns (.fence h scope) s → scope = 1 ∨ scope = 2 ∨ scope = 3 ∧ ¬ open_ → exec (.fence h scope) s = .next (advance s)) ∧
    (CoreRuns (.fence h scope) s → scope = 4 → ¬ open_ → framesOpen s s.cur.val me = false → exec (.fence h scope) s =
      .next (modCore (advance ((core s me).wrote.foldl (fun s ln => invalidateCode s ln true) s)) me fun k => { k with wrote := [] })) ∧
    (CoreRuns (.fence h scope) s → scope = 3 ∨ scope = 4 → open_ → exec (.fence h scope) s = .next s) ∧
    (CoreRuns (.fence h scope) s → scope = 4 → framesOpen s s.cur.val me = true → exec (.fence h scope) s = .next s) ∧
    (framesOpen s s.cur.val me = true ↔ ∃ p ∈ s.io.eth, ∃ f ∈ p.2.unacked, f.die = s.cur.val ∧ me ∈ f.parties)

/-- SEND, RECV, VSEND, VRECV, CSEND and CRECV move a value where the load gives the channel its parties (R357, R358, R408, R409, R430, R468, R469).

Where it goes past the words of the rules it follows the model's own choices of log entries 28 and 71. -/
def Obligations.ChannelWordsMoveValues : Prop :=
  ∀ (h : Hdr) (a d : Reg) (ch : BitVec 6) (s : State) (c : Chan) (v : Line) (l : List Line),
    let g := myRegion s
    let elem := fun (i : Instr) (t : State) (fx : List Fx) => ElemRuns i s → exec i s = .next (elemRetire i t fx)
    let core_ := fun (i : Instr) (t : State) => CoreRuns i s → exec i s = .next t
    let into := fun (f : Chan → Chan) => modChan s g ch.toNat f
    let taken := into fun c => { c with queue := c.queue.drop 1 }
    let here := (travelling (region s g) (myRow s) (myCol s)).headD 0
    let plain := convBound s g (2 * g) ch.toNat = false ∧ convBound s g (2 * g + 1) ch.toNat = false
    let bit := fun (b : Bool) => (if b then 1 else 0 : Nat)
    (producing s ch.toNat = some c →
      elem (.send h a ch) s (if myCol s = 15 then [.send ch.toNat (eScalar s a)] else []) ∧
      elem (.csend h a ch) s (if myCol s = 15 then [.level ch.toNat ((eScalar s a).getLsbD 0)] else []) ∧
      (plain → elem (.vsend h a ch) s (if myCol s = 15 then [.beat ch.toNat (eVector s a 512)] else [])) ∧
      (c.queue.length + c.flight.length < 4 → core_ (.send h a ch)
        (advance (into fun c => { c with flight := c.flight ++ [(c.hops, ((xval s a).setWidth 32).setWidth 512, 0, 0)] }))) ∧
      (4 ≤ c.queue.length + c.flight.length → core_ (.send h a ch) s) ∧
      core_ (.csend h a ch) (advance (driveLevel s g ch.toNat ((xval s a).getLsbD 0)))) ∧
    (consuming s ch.toNat = some c →
      (myCol s ≠ 0 → elem (.recv h d ch) s [.scalar d (here.setWidth 32)] ∧
        (plain → elem (.vrecv h d ch) s [.vector d (here.setWidth 512)])) ∧
      (myCol s = 0 → c.queue = v :: l → elem (.recv h d ch) (sendEast taken [v.setWidth 1024]) [.scalar d (v.setWidth 32)] ∧
        (plain → elem (.vrecv h d ch) (sendEast taken [v.setWidth 1024]) [.vector d v])) ∧
      (myCol s = 0 → c.queue = [] → ElemRuns (.recv h d ch) s → exec (.recv h d ch) s = .next (elemFault s 0x10 1)) ∧
      (c.queue = v :: l → core_ (.recv h d ch) (retX taken d ((v.setWidth 32).setWidth 64))) ∧
      (c.queue = [] → core_ (.recv h d ch) s) ∧
      elem (.crecv h d ch) s [.scalar d (BitVec.ofNat 32 (bit (levelAt c (region s g).rc)))] ∧
      core_ (.crecv h d ch) (retX s d (BitVec.ofNat 64 (bit ((c.levels.head?.map fun p => p.2).getD false))))) ∧
    (let fails := fun (i : Instr) (code : Code) (cause : Nat) => ElemRuns i s → exec i s = .next (elemFault s code cause)
     (producing s ch.toNat = none → fails (.send h a ch) 0x01 0 ∧ fails (.csend h a ch) 0x01 0 ∧
       (convBound s g (2 * g) ch.toNat = false → fails (.vsend h a ch) 0x01 0)) ∧
     (consuming s ch.toNat = none → fails (.recv h d ch) 0x01 0 ∧ fails (.crecv h d ch) 0x01 0 ∧
       (convBound s g (2 * g + 1) ch.toNat = false → fails (.vrecv h d ch) 0x01 0)) ∧
     (consuming s ch.toNat = some c → plain → myCol s = 0 → c.queue = [] → fails (.vrecv h d ch) 0x10 1)) ∧
    (producing s ch.toNat = none → core_ (.send h a ch) (coreFault s (myCore s) 0x01 0) ∧ core_ (.csend h a ch) (coreFault s (myCore s) 0x01 0)) ∧
    (consuming s ch.toNat = none → core_ (.recv h d ch) (coreFault s (myCore s) 0x01 0) ∧ core_ (.crecv h d ch) (coreFault s (myCore s) 0x01 0))

/-- What the static network carries arrives: values of channels, and beats of remote BUFPUTs (R354, R431, R469).

Where it goes past the words of the rules it follows the model's own choices of log entries 8 and 28. -/
def Obligations.ScheduledArrivals : Prop :=
  ∀ (s : State) (gr ch g : Nat) (c : Chan) (f : Nat × Line × Nat × Nat) (b : RemoteBeat) (q : Buffer),
    let settled := betweenCycles s = true
    let put := fun (f : Chan → Chan) => modGraph s gr fun q => { q with chans := q.chans.map fun o => if o.ch = c.ch then f o else o }
    let value := fun (i : Instr) => AgentRuns i → dueValue s gr ch = some (c, f) → settled →
      exec i s = .next
        (if 4 ≤ c.queue.length then modRegion (put fun k => { k with flight := k.flight.drop 1 }) c.prod.g fun r =>
          { r with faults := r.faults ++ [⟨f.2.2.1, c.prod.row, 15, f.2.2.2, 0x10, 1⟩] }
        else put fun k => { k with flight := k.flight.drop 1, queue := k.queue ++ [f.2.1] })
    (16 ≤ ch → value (.scalarChannelArrival gr ch)) ∧ (ch < 16 → value (.vectorChannelArrival gr ch)) ∧
    (AgentRuns (.remoteBufputArrival g) → dueBeat s g = some b → settled → bufAt (region s b.g) b.buf = some q →
      exec (.remoteBufputArrival g) s = .next
        (if b.col = 0 ∧ isFull q (vget 0 q.putIx b.col) = true then turnAway s g b
        else modRegion (modRegion s g fun r => { r with beats := r.beats.erase b }) b.g fun r =>
          landBeat r b.buf (vget 0 q.putIx b.col) b.off b.col b.data b.last b.wm))

/-- SBIND, SQ, SCOPY, SCANCEL, SSUB, SDIST and SSTAT complete on a stream port (R418, R419, R420, R422, R423, R424, R425, R426).

Where it goes past the words of the rules it follows the model's own choices of log entries 10 and 38. -/
def Obligations.StreamWordsActOnTheirPort : Prop :=
  ∀ (h : Hdr) (a b c d p : BitVec 6) (strm : BitVec 8) (s t u : State) (x y : List Byte) (stamp : Option Xlat) (k : Command),
    let g := portOwner s strm
    let q := port s g p.toNat
    let n := strm.toNat
    let gives := fun (i : Instr) (v : State) => CoreRuns i s → exec i s = .next v
    let command := fun (src dst : Line) (scopy : Bool) (v : State) =>
      ({ src := src, dst := dst, scopy := scopy, stamp := stamp, asroot := myRoot v, mgr := (kindOf v).isMgr, grouped := groupStanding v,
         void := false, started := false, done := 0, gather := [], spill := [], retry := none, supplied := [], cycles := 0 } : Command)
    let queued := fun (k : Command) (v : State) => advance (modPort v g p.toNat fun q => { q with queue := q.queue ++ [k] })
    (coreRead s (xval s a).toNat 64 0 15 0 = .ok (x, t) → coreRead t (xval t b).toNat 64 0 15 0 = .ok (y, u) →
      gives (.sbind h a b p strm) (advance (modPort u (portOwner u strm) p.toNat fun p => { p with bound := some (bytesLine x, bytesLine y) }))) ∧
    (∀ src dst, q.bound = some (src, dst) → pairOk s g src.toNat dst.toNat = true → q.sub = none → stampOf s (xval s a).toNat = .ok (stamp, t) →
      (dKind src.toNat ≠ 3 → (port t g p.toNat).queue.length < 16 →
        gives (.sq h a p strm) (queued (command src dst false t) t)) ∧
      (dKind src.toNat = 3 → (stream s (bits src.toNat 0 8)).producer = none → (port t g p.toNat).queue.length < 16 →
        gives (.sq h a p strm) (modStream (queued (command src dst false t) t) (bits src.toNat 0 8) fun q =>
          { q with producer := some (g, p.toNat) })) ∧
      (dKind src.toNat ≠ 3 ∨ (stream s (bits src.toNat 0 8)).producer = none → 16 ≤ (port t g p.toNat).queue.length →
        gives (.sq h a p strm) s)) ∧
    (0 < (xval s b).toNat → (xval s b).toNat ≤ 2 ^ 32 → q.sub = none → stampOf s (xval s c).toNat = .ok (stamp, t) →
      16 ≤ (port t g p.toNat).queue.length → gives (.scopy h d a b c p strm) s) ∧
    (0 < (xval s b).toNat → (xval s b).toNat ≤ 2 ^ 32 → q.sub = none → stampOf s (xval s c).toNat = .ok (stamp, t) →
      (port t g p.toNat).queue.length < 16 → gives (.scopy h d a b c p strm)
        (queued (command (BitVec.ofNat 512 ((xval s a).toNat + 2 ^ 64 * (xval s b).toNat)) ((xval s d).setWidth 512) true t) t)) ∧
    gives (.scancel h d p strm) (retX (cancelPort s g p.toNat) d (BitVec.ofNat 64 q.queue.length)) ∧
    (g < 32 → (∀ k ∈ q.queue, k.stamp = none) →
      let v := cancelPort s g p.toNat
      let q' := port v g p.toNat
      q'.queue = [] ∧ q'.sub = none ∧ q'.seq = q.seq + BitVec.ofNat 64 q.queue.length ∧ q'.bound = q.bound ∧
      (q.queue ≠ [] → q'.code = 0 ∧ q'.cancelled = true) ∧ (∀ e ∈ (die v).retry, e.who ≠ .port g p.toNat) ∧ SameOutside s v) ∧
    (∀ x, g < 32 → k.stamp = some x → k.void = false → isProducer k = false →
      let v := modPort s g p.toNat fun q => { q with seq := q.seq + 1, bytes := cmdBytes k k.done % 2 ^ 40, code := 0, cancelled := true }
      noteFinished s g p.toNat k 0 true = writeBytes v (portAccess v g k).ctx x (natBytes ((q.seq + 1).toNat ||| 2 ^ 63) 8) 0) ∧
    (let g := if (kindOf s).isMgr then (xval s a).toNat % 32 else myRegion s
     let ix := (stream s n).subs.length
     (region s g).bufs.any (fun b => b.sport == some p.toNat) = true → (port s g p.toNat).queue = [] → (port s g p.toNat).sub = none →
      (stream s n).started = false → ix < 16 →
      gives (.ssub h d a p strm) (retX (modStream (modPort s g p.toNat fun q => { q with sub := some (n, ix) }) n fun q =>
        { q with subs := q.subs ++ [{ g := g, port := p.toNat, window := 0, sent := 0, acked := 0, live := true }] }) d (BitVec.ofNat 64 ix))) ∧
    (coreRead s (xval s a).toNat 64 0 15 0 = .ok (x, t) → producerOf t n = some k → (stream t n).subs ≠ [] → (stream t n).started = false →
      windowsOk (bytesNat x) (stream t n).subs.length = true →
      ((kindOf t).isMgr = true ∨ (stream t n).producer.map (fun gp => gp.1) = some (myRegion t)) →
      gives (.sdist h a strm) (advance (modStream t n fun q => { q with
        subs := (stream t n).subs.zipIdx.map fun u => { u.1 with window := bits (bytesNat x) (32 * u.2) 32 }
        started := true
        total := producerBeats k }))) ∧
    gives (.sstat h d a p strm) (advance (setX (setX s (myCore s) d.toNat (BitVec.ofNat 64 (portStatus q))) (myCore s) a.toNat q.seq))

/-- A producer starts, a distributor sends beats, and a command moves its elements and finishes (R158, R254, R420, R421).

Where it goes past the words of the rules it follows the model's own choices of log entries 8, 10, 44, 89 and 90. -/
def Obligations.StreamCommandsPerform : Prop :=
  ∀ (s t : State) (g p st sub : Nat) (k k' : Command) (u : Subscriber) (ls : List Line),
    let head := (port s g p).queue.head? = some k
    let trimmed := modStream s st trimReplay
    let free := mayTakeNode trimmed u.g (subscriberNode trimmed u) true true
    let all := groupPorts s g k
    let ports := (all.filter fun q => decide (k.cycles < q.2)).map Prod.fst
    let taken := fun (s : State) => ports.foldl (fun s q => takeNode s q.1 q.2.1 q.2.2 true) s
    (AgentRuns (.streamProducerStart g p) → head → isProducer k = true → k.started = false →
      (stream s (bits k.src.toNat 0 8)).started = true →
      exec (.streamProducerStart g p) s = .next (modHead s g p fun k => { k with started := true })) ∧
    (AgentRuns (.distributorSendBeat st sub) → mayReceive s st sub = true → (stream trimmed st).subs[sub]? = some u →
      (stream trimmed st).producer = some (g, p) →
      (free = true → replayHas (stream trimmed st) u.sent = true → exec (.distributorSendBeat st sub) s = .next (sendBeat trimmed st sub)) ∧
      (free = true → replayHas (stream trimmed st) u.sent = false → (port trimmed g p).queue.head? = some k →
        readBeat trimmed g k (stream trimmed st).read = .ok (ls, t) →
        exec (.distributorSendBeat st sub) s =
          .next (sendBeat (storeBeats (noteRead t st g p ls.length) st ls) st sub)) ∧
      (free = false → exec (.distributorSendBeat st sub) s =
        .next (awaitNode trimmed u.g (subscriberNode trimmed u) true true))) ∧
    (AgentRuns (.streamCommandFinish g p) → head → k.retry = none → isProducer k = false → copyGroup s g k = .ok (t, k') →
      let moved := modHead (taken t) g p fun _ => { k' with supplied := [], cycles := 0 }
      ((∀ q ∈ ports, mayTakeNode s q.1 q.2.1 q.2.2 true = true) → (∀ q ∈ all, q.2 ≤ k.cycles + 1) →
        exec (.streamCommandFinish g p) s = .next (if k'.done = cmdValues k' then finishHead moved g p 0 else moved)) ∧
      ((∀ q ∈ ports, mayTakeNode s q.1 q.2.1 q.2.2 true = true) → (∃ q ∈ all, k.cycles + 1 < q.2) → k.done ≠ cmdValues k →
        exec (.streamCommandFinish g p) s = .next (modHead (taken s) g p fun _ => { k with cycles := k.cycles + 1 })) ∧
      ((∃ q ∈ ports, mayTakeNode s q.1 q.2.1 q.2.2 true = false) → k.done ≠ cmdValues k →
        exec (.streamCommandFinish g p) s =
          .next (modHead (ports.foldl (fun s q => awaitNode s q.1 q.2.1 q.2.2 true) s) g p fun _ => k))) ∧
    (AgentRuns (.streamCommandFinish g p) → head → k.retry = none → isProducer k = true → k.started = true →
      allAcked (stream s (bits k.src.toNat 0 8)) = true → exec (.streamCommandFinish g p) s = .next (finishHead s g p 0))

/-- OPSET, OPGET, ROUTE, TINJ, TDRAIN and TCONV complete on a unit or converter that the core may name (R162, R168, R172, R173, R174, R446, R400).

Where it goes past the words of the rules it follows the model's own choices of log entries 50, 80 and 96. -/
def Obligations.UnitWordsActOnTheirUnit : Prop :=
  ∀ (h : Hdr) (a b d : Reg) (unit : BitVec 10) (param : BitVec 6) (s t : State) (v : Nat),
    let u := unit.toNat
    let may := (kindOf s).isMgr = true ∨ ∃ gr, myGraph s = some gr ∧ (opUnit s u).owner = some gr.gid
    let mayConv := (kindOf s).isMgr = true ∨ u / 2 = myRegion s
    let x := (xval s a).toNat
    let gives := fun (i : Instr) (t : State) => CoreRuns i s → exec i s = .next t
    let queue := inPort s u param.toNat
    let idle := inProgress (opUnit s u) = false
    (may → idle → opsetUnit s u param.toNat x = some t → gives (.opset h a unit param) (advance t)) ∧
    (may → idle → opsetUnit s u param.toNat x = none → gives (.opset h a unit param) (coreFault s (myCore s) 0x01 0)) ∧
    (may → idle → opgetUnit s u param.toNat = .ok (v, t) → gives (.opget h d unit param) (retX t d (BitVec.ofNat 64 v))) ∧
    (may → idle → ctlEn s u = false → onlyFields [(0, 10), (12, 4)] x = true →
      (routeV x = false ∨ destAllowed s x = .ok () ∧ destExists s x = true ∧ destTaken s x (some (u, param.toNat)) = false) →
      gives (.route h a unit param) (advance (setPar s u (2 + param.toNat) x))) ∧
    (may → (xval s b).toNat < 16 → param.toNat < unitInputs (unitKind u) → destTaken s (portRoute u param.toNat) none = false →
      (portRoom s u param.toNat = true → gives (.tinj h a b unit param)
        (advance (setIn s u param.toNat (queue ++ [scalarTok (BitVec.ofNat 4 (xval s b).toNat) x])))) ∧
      (portRoom s u param.toNat = false → gives (.tinj h a b unit param) s)) ∧
    (may → inProgress (opUnit s u) = true →
      ∀ i ∈ [Instr.opset h a unit param, .opget h d unit param, .route h a unit param, .tdrain h d unit], gives i s) ∧
    (may → idle → gives (.tdrain h d unit)
      (retX (modUnit (setPar s u 0 (upar s u 0 - upar s u 0 % 2)) u fun q =>
        { q with inq := Vector.replicate 4 [], halted := false, err := 0, tile := none, rows := [], supplied := [], issued := none }) d
        (BitVec.ofNat 64 ((opUnit s u).inq.toList.map List.length).sum))) ∧
    (mayConv → onlyFields [(0, 4), (8, 4), (16, 1)] x = true → gives (.tconv h d a unit)
      (retX (modConv s u fun c => { c with cfg := (xval s a).setWidth 17 }) d ((conv s u).cfg.setWidth 64))) ∧
    (¬ may → ∀ i ∈ [Instr.opset h a unit param, .opget h d unit param, .route h a unit param, .tinj h a b unit param, .tdrain h d unit],
      gives i (coreFault s (myCore s) 0x21 (BitVec.ofNat 64 u)))

/-- The tree instructions complete with the root that their operation gives (R194, R199, R202, R203, R205, R213, R214, R215, R216, R445).

Where it goes past the words of the rules it follows the model's own choices of log entries 33, 35, 51 and 92. -/
def Obligations.TreeWordsEditAndQuery : Prop :=
  ∀ (h : Hdr) (a b c d : Reg) (unit : BitVec 10) (param : BitVec 6) (s t : State) (r : Nat) (turns : List Bool),
    let u := unit.toNat
    let root := (xval s a).toNat
    let acc := coreAccess s
    let tree := poolOf s u acc
    let me := some (myCore s)
    let va := (xval s b).toNat
    let gives := fun (i : Instr) (t : State) => CoreRuns i s → exec i s = .next t
    let edits := fun (i : Instr) (m : TreeM Nat) => runEdit s u acc me root m = .ok (r, t) → gives i (retX (served t u) d (BitVec.ofNat 64 r))
    unitReady s u = .ok () →
    (rootOk tree root = true → va % 64 = 0 → edits (.tappend h d a b unit) do
      let bs ← readObject va (4 * tree.d)
      let e ← takeEntry tree.d bs
      treeAppend root e) ∧
    (rootOk tree root = true → pathTurns va = some turns → root ≠ treeNull →
      edits (.tsplit h d a b unit) (treeSplit root turns) ∧ edits (.tmerge h d a b unit) (treeMerge root turns) ∧
      edits (.tevict h d a b unit) (treeEvict root turns)) ∧
    (rootOk tree root = true → va = 0 → edits (.tevictRelease h d a b unit) (treeRelease root)) ∧
    (rootOk tree root = true →
      let noted := if groupState s acc = 1 then noteEdit s acc u none none else s
      runTree noted u acc me (treeFork root) (fun _ => []) = .ok (r, t) → gives (.tfork h d a unit) (retX (served t u) d (BitVec.ofNat 64 r))) ∧
    (let word := param.toNat + (xval s c).toNat
     rootOk tree root = true → root ≠ treeNull → pathTurns va = some turns → word < tree.ns / 8 →
      runTree s u acc none (do
        let _ ← getLive root
        let i ← walkPath root turns
        let n ← getNode i
        pure (if 64 + 8 * tree.d ≤ 8 * word then 0 else bytesNat ((n.raw.drop (8 * word)).take 8))) (fun _ => []) = .ok (r, t) →
      gives (.tnode h d a b c unit param) (retX (served t u) d (BitVec.ofNat 64 r))) ∧
    (∀ (pool : Nat) (q : QResult), descendPool (upar s u 4) (upar s u 6) s u = some pool → rootOk (poolOf s pool acc) root = true →
      va % 64 = 0 → (xval s c).toNat % 64 = 0 →
      let ask : TreeM QResult := do
        let bs ← readObject va (2 * (poolOf s pool acc).d)
        let q ← takeQuery (poolOf s pool acc).d bs
        incRef root
        treeQuery root q (BitVec.ofNat 32 (upar s u 5)) (bits (upar s u 7) 0 16)
      let out := fun (q : QResult) => asLines (xval s c).toNat (resultBytes (poolOf s pool acc).d q)
      runTree s pool acc me ask out = .ok (q, t) →
        (root = treeNull → gives (.tquery h d a b c unit) (retX t d (q.status.setWidth 64))) ∧
        (root ≠ treeNull → ∀ q' t', runTree s pool acc me ask (fun _ => []) = .ok (q', t') → gives (.tquery h d a b c unit)
          (modCore (served t' pool) (myCore t') fun k => { k with wait := .query d pool root (out q) (q.status.setWidth 64) })))

/-- SMPDRAW, ACPT, PKLOOK and GMSTEP complete with the result of their unit’s rule (R227, R229, R230, R234, R236, R237, R239).

Where it goes past the words of the rules it follows the model's own choices of log entries 52, 53 and 98. -/
def Obligations.GenerationWordsComplete : Prop :=
  ∀ (h : Hdr) (a b c d : Reg) (unit : BitVec 10) (s t v w : State) (ls : List Line) (x : Drawn) (e : DrainEnd) (r : Accepted)
    (k : Lookup) (last : Bool),
    let u := unit.toNat
    let gives := fun (i : Instr) (t : State) => CoreRuns i s → exec i s = .next t
    let reads := fun (n : Nat) => readBeats s (xval s a).toNat n = .ok (ls, t)
    let flag := fun (b : Bool) (k : Nat) => if b then 2 ^ k else 0
    unitReady s u = .ok () →
    (reads (drainBeats s u) → drawFrom t (coreAccess t) u (BitVec.ofNat 64 (upar t u 9)) ls = .ok (x, e, v) →
      gives (.smpdrawSample h d a b unit) (retX (countService (countSample v u e) u) d (BitVec.ofNat 64 x.tok))) ∧
    ((xval s c).toNat % 64 = 0 → reads (drainBeats s u) →
      drawFrom t (coreAccess t) u (BitVec.ofNat 64 (upar t u 9) + xval t b) ls = .ok (x, e, v) →
      coreLines v (xval s c).toNat ((verifyObject (selCells v u) x e).1.flatMap lineBytes) = .ok w →
      gives (.smpdrawVerify h d a b c unit)
        (retX (countService w u) d (BitVec.ofNat 64 (x.tok + 2 ^ 32 * (verifyObject (selCells v u) x e).2.toNat)))) ∧
    (∀ n, draftOf s u ((xval s b).toNat % 2 ^ 32) = .ok n → reads (acceptBeats s u) → acceptOf t u ls ((xval t b).toNat % 2 ^ 32) ((xval t c).toNat % 2 ^ 32) = .ok r →
      let out := r.emit.getD (0xFFFFFF, false)
      gives (.acpt h d a b c unit) (retX (countService (modUnit t u fun _ => r.unit) u) d
        (BitVec.ofNat 64 (out.1 + flag out.2 31 + flag r.accepted 32 + flag r.unit.rej 33)))) ∧
    ((xval s b).toNat % 64 = 0 → reads ((2 * pkD s u + 63) / 64) →
      pkLookup t (coreAccess t) u (wordsAt (ls.flatMap lineBytes) 2 (pkD t u) 0) (xval t c).toNat = .ok (k, v) →
      coreLines v (xval s b).toNat ((k.out ++ k.ix.map (BitVec.ofNat 32) ++ k.w).flatMap fun v => natBytes v.toNat 4) = .ok w →
      gives (.pklook h d a b c unit) (retX (countService w u) d (BitVec.ofNat 64 (pkK w u)))) ∧
    (gmTake s (coreAccess s) u ((xval s a).toNat % 2 ^ 32) = .ok (last, t) →
      gives (.gmstep h d a unit) (retX (countService t u) d (BitVec.ofNat 64
        (upar t u 8 % 2 ^ 23 + flag (opUnit t u).forced 32 + 2 ^ 40 * (opUnit t u).fid.toNat))))

/-- SCORE, DESCEND and TREEUPD units fire on their inputs, and a query pins and unpins its root (R165, R166, R208, R209, R211, R218).

Where it goes past the words of the rules it follows the model's own choices of log entries 8, 51 and 96. -/
def Obligations.TreeUnitsFire : Prop :=
  ∀ (u : Nat) (s t : State) (q : List Nat) (p rest : List Token) (n r pool : Nat) (se : F32 × F32) (res : QResult),
    let acc := unitAccess s u
    let fires := fun (i : Instr) (k : UnitKind) (t : State) (out : List (Nat × Token)) => AgentRuns i → mayFire s u k = true →
      exec i s = .next (modUnit t u fun q => { q with out := q.out ++ out, firings := q.firings + 1, supplied := [], issued := none, served := false })
    let took := setIn (setIn t u 0 p) u 1 rest
    (isPool (upar s u 4) = true → (upar s u 5).testBit 15 = false → takeHalves (poolOf s (upar s u 4) acc).d (inPort s u 0) = .got q p →
      takeScalar 11 (inPort s u 1) = .got n rest → n < (poolOf s (upar s u 4) acc).cap →
      let v := modUnit s (upar s u 4) fun k => { k with served := true }
      runTree v (upar s u 4) (unitAccess v u) none (do
        let q ← takeQuery (poolOf s (upar s u 4) acc).d (halfBytes q)
        let n ← getNode n
        pure (scoreOf (poolOf s (upar s u 4) acc).d q (floatVals n.c), epsOf (poolOf s (upar s u 4) acc).d q n.rho)) (fun _ => []) =
          .ok (se, t) →
      fires (.scoreFiring u) .score took [(0, scalarTok 0 se.1.toNat), (0, scalarTok 0 se.2.toNat)]) ∧
    (takeScalar 11 (inPort s u 0) = .got n p → takeHalves (2 * (poolOf s u acc).d) (inPort s u 1) = .got q rest →
      rootOk (poolOf s u acc) n = true →
      runEdit s u acc none n (do
        let e ← takeEntry (poolOf s u acc).d (halfBytes q)
        treeAppend n e) = .ok (r, t) →
      fires (.treeupdFiring u) .treeupd took [(0, scalarTok 11 r)]) ∧
    (let d := (poolOf s (pinnedPool s u) acc).d
     (opUnit s u).pin = some r → (opUnit s u).count = 0 → takeScalar 11 (inPort s u 0) = .got n p →
      takeHalves d (inPort s u 1) = .got q rest →
      runTree s (pinnedPool s u) acc none (do
        let q ← takeQuery d (halfBytes q)
        treeQuery r q (BitVec.ofNat 32 (upar s u 69)) (bits (upar s u 71) 0 16)) (fun _ => []) = .ok (res, t) →
      fires (.descendFiring u) .descend (modUnit took u fun k => { k with count := 1 })
        ((floatBeats res.out).map (fun b => (0, b)) ++
          [(1, scalarTok 0 res.r.toNat), (1, scalarTok 0 res.z.toNat), (1, scalarTok 0 res.m.toNat), (1, scalarTok 0 res.status.toNat)])) ∧
    (AgentRuns (.queryPin u) → mayFire s u .descend = true → (opUnit s u).pin = none →
      descendPool (upar s u 4) (upar s u 6) s u = some pool → takeScalar 11 (inPort s u 0) = .got n p →
      takeHalves (2 ^ bits (upar s pool 6) 27 3) (inPort s u 1) = .got q rest →
      let v := modUnit s pool fun k => { k with served := true }
      rootOk (poolOf v pool (unitAccess v u)) n = true → runTree v pool (unitAccess v u) none (incRef n) (fun _ => []) = .ok ((), t) →
      exec (.queryPin u) s = .next (modUnit t u fun q => { q with
        pin := some n
        supplied := []
        issued := none
        params := (List.range 4).foldl (fun t k => t.set 0 (68 + k) (t.get 0 (4 + k))) q.params })) ∧
    (AgentRuns (.queryUnpin u) → unitKind u = .descend → (opUnit s u).pin = some r → (opUnit s u).count = 1 →
      (opUnit s u).retry = none → runTree s (pinnedPool s u) acc none (dropRef treeFuel r none) (fun _ => []) = .ok ((), t) →
      exec (.queryUnpin u) s = .next (modUnit (served t (pinnedPool t u)) u fun q => { q with
        pin := none
        count := 0
        supplied := []
        issued := none
        params := (List.range 4).foldl (fun t k => t.set 0 (68 + k) 0) q.params }))

/-- CASCELL, CUMSEL, ACCEPT, PKEY and GRAMMAR units fire, each phase on the inputs that it takes (R165, R224, R225, R226, R229, R230, R234, R237).

Where it goes past the words of the rules it follows the model's own choices of log entries 52, 53, 75, 97 and 98. -/
def Obligations.GenerationUnitsFire : Prop :=
  ∀ (u : Nat) (s t : State) (tok : Token) (p0 p1 p2 : List Token) (vs hs : List Nat) (ls : List Line) (n m : Nat) (x : Drawn) (e : DrainEnd)
    (r : Accepted) (k : Lookup) (b : Bool) (bs : List Byte),
    let acc := unitAccess s u
    let q := opUnit s u
    let fires := fun (i : Instr) (k : UnitKind) (t : State) (out : List (Nat × Token)) => AgentRuns i → mayFire s u k = true →
      exec i s = .next (modUnit t u fun q => { q with out := q.out ++ out, firings := q.firings + 1, supplied := [], issued := none, served := false })
    let cell := fun (f : OpUnit) (rest : List Token) => setIn (modUnit s u fun _ => f) u 0 rest
    let last := cellLast s u
    let passed := modUnit (setIn s u 1 p1) u fun q => { q with rrp := 0 }
    (cellPhase s u = .header → inPort s u 0 = tok :: p0 → tok.vec = true → tok.tag = 15 →
      fires (.cascellHeader u) .cascell (modUnit (setIn s u 0 p0) u fun q =>
        { q with phase := .collect, rrp := 1, fid := tok.data.setWidth 24, forced := tok.data.getLsbD 31 }) []) ∧
    (cellPhase s u = .collect → cellHead s u = true → inPort s u 0 = tok :: p1 → tok.vec = true → tok.tag ≠ 15 →
      takeOne 0 (tok :: p1) = .got vs p0 →
      let taken := headTake (upar s u 5) last q (chunks 16 vs.length (vs.map (BitVec.ofNat 32)))
      (taken.1.count < upar s u 5 → fires (.cascellCollect u) .cascell (cell { taken.1 with phase := .collect, rrp := 1 } p0) taken.2) ∧
      (upar s u 5 ≤ taken.1.count → fires (.cascellCollect u) .cascell (cell (cellEnd true last { taken.1 with rrp := 1 }).2 p0)
        (taken.2 ++ (cellEnd true last { taken.1 with rrp := 1 }).1))) ∧
    (cellPhase s u = .collect → cellHead s u = false → inPort s u 0 = tok :: p0 →
      (isMarker tok = true → fires (.cascellCollect u) .cascell (cell (cellEnd false last { q with rrp := 1 }).2 p0) (cellEnd false last { q with rrp := 1 }).1) ∧
      (tok.vec = true → tok.tag = 15 → fires (.cascellCollect u) .cascell
        (cell { (cellMerge q (beatCands tok.data)).1 with phase := .collect, rrp := 1 } p0) (spill last (cellMerge q (beatCands tok.data)).2))) ∧
    (cellPhase s u = .drain → inPort s u 1 = tok :: p1 →
      (isMarker tok = true → fires (.cascellDrain u) .cascell (modUnit passed u cellReset)
        [(1, if cellHead s u then summaryBeat (opUnit passed u) else marker)]) ∧
      (tok.vec = true → tok.tag = 15 → fires (.cascellDrain u) .cascell passed [(1, tok)])) ∧
    (takeBeats (drainBeats s u) (inPort s u 0) = .got ls p0 → takeScalar 11 (inPort s u 1) = .got n p1 →
      (ctlSel s u = 0 → drawFrom s acc u (BitVec.ofNat 64 (upar s u 9)) ls = .ok (x, e, t) →
        fires (.cumselSampleFiring u) .cumsel (setIn (setIn (countSample t u e) u 0 p0) u 1 p1) [(0, scalarTok 11 (x.tok + 2 ^ 31))]) ∧
      (ctlSel s u = 1 → drawFrom s acc u (BitVec.ofNat 64 (upar s u 9 + n)) ls = .ok (x, e, t) →
        fires (.cumselVerifyFiring u) .cumsel (setIn (setIn t u 0 p0) u 1 p1)
          ((verifyObject (selCells t u) x e).1.map fun l => (0, beatTok 15 l)))) ∧
    (takeBeats (acceptBeats s u) (inPort s u 0) = .got ls p0 → takeScalar 11 (inPort s u 1) = .got n p1 →
      takeScalar 11 (inPort s u 2) = .got m p2 → acceptOf s u ls n m = .ok r →
      fires (.acceptFiring u) .accept (setIn (setIn (setIn (modUnit s u fun _ => r.unit) u 0 p0) u 1 p1) u 2 p2)
        (r.emit.toList.map fun p => (0, committed p))) ∧
    (takeHalves (pkD s u) (inPort s u 0) = .got hs p0 → takeScalar 11 (inPort s u 1) = .got n p1 → pkLookup s acc u hs n = .ok (k, t) →
      fires (.pkeyFiring u) .pkey (setIn (setIn t u 0 p0) u 1 p1) ((floatBeats k.out).map fun t => (0, t))) ∧
    (q.phase ≠ .mask → takeScalar 11 (inPort s u 1) = .got n p1 → gmTake s acc u n = .ok (b, t) →
      (b = false → fires (.grammarStepFiring u) .grammar (setIn t u 1 p1) []) ∧
      (b = true → fires (.grammarStepFiring u) .grammar (modUnit (setIn t u 1 p1) u fun q => { q with phase := .mask, count := 0 })
        [(0, beatTok 15 (BitVec.ofNat 512 ((opUnit t u).fid.toNat + if (opUnit t u).forced then 2 ^ 31 else 0)))])) ∧
    (q.phase = .mask → takeOne 0 (inPort s u 0) = .got vs p0 →
      let ends := max (q.count + 1) (min (q.count + vs.length) (gmVocab s u))
      readLines s acc ((maskBase s u + 64 + 64 * (q.count / 512)) % 2 ^ 64) ((ends - 1) / 512 + 1 - q.count / 512) = .ok (bs, t) →
      let done := decide (gmVocab t u ≤ q.count + vs.length)
      fires (.grammarMaskFiring u) .grammar (modUnit (setIn t u 0 p0) u fun k =>
          { k with count := if done then 0 else q.count + vs.length, phase := if done then .step else .mask })
        ((floatBeats (vs.zipIdx.map fun p =>
          if (bytesNat bs).testBit (q.count % 512 + p.2) then BitVec.ofNat 32 p.1 else negInf)).map fun b => (0, b)))

/-- GATHER, REDUCE, QUANT and SWITCH units fire, and tokens move along routes and through converters (R164, R165, R170, R175, R176, R177, R480).

Where it goes past the words of the rules it follows the model's own choices of log entries 8, 49, 76, 80, 94 and 95. -/
def Obligations.FabricUnitsFireAndTokensMove : Prop :=
  ∀ (u k : Nat) (s t : State) (tok sel : Token) (p0 p1 : List Token) (vs : List Nat) (row : GatherRow) (bs : List Byte) (n o : Nat)
    (head : Line) (out : List (Nat × Token)) (heads : List (Nat × List Nat × List Token)) (ls : List Token),
    let fires := fun (i : Instr) (k : UnitKind) (t : State) (out : List (Nat × Token)) => AgentRuns i → mayFire s u k = true →
      exec i s = .next (modUnit t u fun q => { q with out := q.out ++ out, firings := q.firings + 1, supplied := [], issued := none, served := false })
    let q := opUnit s u
    let gathers := fun (t : State) => AgentRuns (.gatherFiring u) → mayFire s u .gather = true → q.rows.length < 64 → (∀ r ∈ q.rows, r.fault = none) →
      exec (.gatherFiring u) s = .next t
    let dest := upar s u (2 + o)
    let onto := fun (t : State) (v : Nat) (tok : Token) => setIn t (routeDest v) (routePort v) (inPort t (routeDest v) (routePort v) ++ [tok])
    let free := fun (v : Nat) => routeV v = true ∧ routeConv v = false ∧ portRoom s (routeDest v) (routePort v) = true
    (inPort s u 0 = tok :: p0 → tok.vec = true → convertible tok.tag 15 = true → q.tile = none → tileOk tok.data = true →
      gathers (modUnit (setIn s u 0 p0) u fun q => { q with tile := some (tok.data, 0), firings := q.firings + 1, served := false })) ∧
    (inPort s u 0 = tok :: p0 → tok.vec = true → convertible tok.tag 15 = true → q.tile = some (head, n) →
      let aim := tileTarget head (tileIndex head tok.data n)
      let ends := lastOfBeat head n
      let t := modUnit s u fun q => { q with
        rows := q.rows ++ [⟨aim.1, aim.2, tileRow head, [], none, if ends then some tok else none, none, unitRoot s u⟩]
        tile := if n + 1 == tileCount head then none else some (head, n + 1)
        served := false }
      aim.1 < 24 → gathers (if ends then setIn t u 0 p0 else t)) ∧
    (AgentRuns (.gatherRowArrival u k) → unitKind u = .gather → q.rows[k]? = some row → row.data = [] → row.retry = none → row.fault = none → q.halted = false →
      readRow s { unitAccess s u with ctx := { (unitAccess s u).ctx with root := row.root } } (bits (upar s u 4) 0 2) row.die row.addr (row.size / 64) = .ok (bs, t) →
      exec (.gatherRowArrival u k) s = .next (advanceRows (modUnit t u fun q => { q with
        rows := modNth q.rows k fun r => { r with data := bs }
        supplied := q.supplied.filter fun p => !(row.addr ≤ p.1 && p.1 < row.addr + row.size) }) u)) ∧
    (let ready := emitRows (ctlTag s u) q.rows
     (∀ r ∈ ready.2.head?, r.fault = none) →
      advanceRows s u = modUnit s u fun q => { q with
        out := q.out ++ ready.1.map (fun t => (0, t))
        rows := ready.2
        firings := q.firings +
          BitVec.ofNat 32 ((q.rows.take (q.rows.length - ready.2.length)).filter fun r => r.beat.isSome).length }) ∧
    (let ports := joinedPorts s u
     let tag : BitVec 4 := BitVec.ofNat 4 (bits (upar s u 4) 0 4)
     reduceOk s u = true → ctlSel s u ≠ 3 → (∀ p ∈ ports, inPort s u p ≠ []) → takeJoined (fresh s).2 u tag ports = .ok heads →
      (∀ p ∈ heads, p.2.1.length = n) → (∀ p ∈ ports, ∀ t ∈ (inPort s u p).head?, t.vec = false) →
      fires (.reduceFiring u) .reduce (heads.foldl (fun s p => setIn s u p.1 p.2.2) (fresh s).2)
        ((((combinePorts (reduceLane (ctlSel s u) tag ((upar s u 4).testBit 4) (ctlRm s u)) (heads.map fun p => p.2.1)).map
          (outValue tag (ctlTag s u) (ctlRm s u))).map (scalarTok (ctlTag s u))).map fun t => (0, t))) ∧
    (let tag := ctlTag s u
     let need := 32 * mxBlocks tag
     mxTag tag = true → takeMany 0 need 64 [] (inPort s u 0) = .got vs p0 →
      let pair := packPair tag (if ctlSel s u == 1 then some (fp32.value (bits (upar s u 4) 0 32)) else none) (ctlRm s u)
        ((vs.take need).map fp32.value)
      fires (.quantFiring u) .quant (setIn s u 0 ((packBeats 32 0 (vs.drop need)).map (beatTok 0) ++ p0)) [(0, beatTok tag pair.1), (0, beatTok tag pair.2)]) ∧
    (ctlSel s u = 0 → headUnit (inPort s u 0) = some (ls, p0) → inPort s u 1 = sel :: p1 → sel.vec = false →
      fires (.switchSteer u) .switch (setIn (setIn s u 0 p0) u 1 p1) (ls.map fun t => (sel.data.toNat % 2, t))) ∧
    (ctlSel s u = 1 → mergePort s u = some n → headUnit (inPort s u n) = some (ls, p0) →
      fires (.switchMerge u) .switch (modUnit (setIn s u n p0) u fun q => { q with rrp := (n + 1) % 4 }) (ls.map fun t => (0, t))) ∧
    (ctlSel s u = 2 → inPort s u 0 = tok :: p0 → fires (.switchCopy u) .switch (setIn s u 0 p0) [(0, tok), (1, tok)]) ∧
    (AgentRuns (.unitTokenEmit u) → q.out = (o, tok) :: out → free dest →
      exec (.unitTokenEmit u) s = .next (onto (modUnit s u fun q => { q with out := out }) dest tok)) ∧
    (AgentRuns (.converterTokenIn k) → k % 2 = 0 → (conv s k).latch = tok :: ls → free (convRoute s k) →
      exec (.converterTokenIn k) s = .next (onto (modConv s k fun c => { c with latch := ls }) (convRoute s k) tok)) ∧
    (AgentRuns (.converterTokenIn k) → k % 2 = 1 → routedInto s k = some (tok, t) → convRoom (conv s k) tok = true →
      exec (.converterTokenIn k) s = .next (convPut t k tok))

/-- Control flow: BR, BC, JAL, JALR, NOP, FRAME and HALT (R59, R69, R73, R304, R347, R350, R376, R379, R399).

Where it goes past the words of the rules it follows the model's own choices of log entry 31. -/
def Obligations.BranchesJumpsAndStops : Prop :=
  ∀ (h : Hdr) (d a b : Reg) (cc : BitVec 3) (u : BitVec 1) (off : BitVec 32) (s : State),
    let me := myCore s
    let pc := (core s me).pc
    let near : Int := (pc.toNat : Int) + off.toInt
    let far : Int := ((xval s a + off.signExtend 64).toNat : Int)
    let names := fun (t : Int) => 0 ≤ t ∧ t < 6 * 2 ^ 51
    let at_ := fun (t : Int) => modCore s me fun k => { k with pc := BitVec.ofNat 54 t.toNat, supplied := [], issued := none }
    let linked := fun (t : State) => setX t me d.toNat ((pc + 1).setWidth 64)
    let gives := fun (i : Instr) (t : State) => CoreRuns i s → exec i s = .next t
    let prot := fun (t : Int) => coreFault s me 0x21 (BitVec.ofInt 64 t)
    (names near → gives (.br h off) (at_ near) ∧ gives (.jal h d off) (linked (at_ near))) ∧
    (¬ names near → gives (.br h off) (prot near) ∧ gives (.jal h d off) (prot near)) ∧
    (names far → gives (.jalr h d a off) (linked (at_ far))) ∧
    (¬ names far → gives (.jalr h d a off) (prot far)) ∧
    (Holds cc u (xval s a) (xval s b) → names near → gives (.bc h a b cc u off) (at_ near)) ∧
    (Holds cc u (xval s a) (xval s b) → ¬ names near → gives (.bc h a b cc u off) (prot near)) ∧
    (¬ Holds cc u (xval s a) (xval s b) → gives (.bc h a b cc u off) (advance s)) ∧
    gives (.nop h) (advance s) ∧
    (ElemRuns (.nop h) s → exec (.nop h) s = .next (elemRetire (.nop h) s [])) ∧
    (ElemRuns (.frame h) s → exec (.frame h) s = .next (elemRetire (.frame h) s [.frame])) ∧
    ((core s me).inh = false → gives (.halt h) (modCore (advance s) me fun k => { k with run := .halted })) ∧
    ((core s me).inh = true → gives (.halt h) (coreFault s me 0x01 0))

/-- A stagehand takes a trap, escalates one that it cannot take, and ERET returns (R307, R308, R310, R362, R450).

Where it goes past the words of the rules it follows the model's own choices of log entries 20 and 32. -/
def Obligations.TrapsSaveAndEnterAndReturn : Prop :=
  ∀ (h : Hdr) (imm : BitVec 32) (s u : State) (g : Nat) (code : Code) (v : X) (w : Word),
    let k := core s g
    let t := coreFault s g code v
    let k' := core t g
    (g < 32 → k.tvec.getLsbD 63 = true → k.inh = false → fetchWord s g (k.tvec.toNat % 2 ^ 54) = (u, .ok w) →
      k'.tepc = k.pc ∧ k'.tcause.toNat = code.toNat + 2 ^ 12 * g + 2 ^ 18 * (jobOf s g).toNat ∧ k'.tval = v ∧ k'.inh = true ∧
      k'.pc = k.tvec.setWidth 54 ∧ k'.run = .running ∧ k'.wait = .none ∧ (∀ r, xreg t g r = xreg s g r) ∧
      ∀ c, c ≠ g → core t c = core s c) ∧
    (g < 32 → (k.tvec.getLsbD 63 = false ∨ k.inh = true) →
      k'.frozen = true ∧ k'.pc = k.pc ∧ k'.tepc = k.tepc ∧ k'.tcause = k.tcause ∧ k'.tval = k.tval ∧ k'.inh = k.inh ∧
      ∃ e, (if (core s 32).events.length < 64 then (core t 32).events = (core s 32).events ++ [e] else (die t).mgrWait = (die s).mgrWait ++ [e]) ∧
        e.code = code ∧ e.src = 6 ∧ e.region.toNat = g ∧ e.tval = v ∧ e.epc = k.pc) ∧
    (CoreRuns (.trap h imm) s → exec (.trap h imm) s = .next (coreFault s (myCore s) 0x04 (imm.setWidth 64))) ∧
    (ElemRuns (.trap h imm) s → exec (.trap h imm) s = .next (elemFault s 0x04 0)) ∧
    (CoreRuns (.eret h) s → (core s (myCore s)).inh = true → exec (.eret h) s =
      .next (modCore s (myCore s) fun k => { k with pc := k.tepc, inh := false, supplied := [], issued := none })) ∧
    (CoreRuns (.eret h) s → (core s (myCore s)).inh = false → exec (.eret h) s = .next (coreFault s (myCore s) 0x01 0))

/-- Asynchronous events are taken oldest first, and the manager’s own faults go to firmware (R304, R307, R308, R309, R310, R311).

Where it goes past the words of the rules it follows the model's own choices of log entries 6, 20, 24 and 32. -/
def Obligations.AsynchronousEventsAndTheManager : Prop :=
  ∀ (s u : State) (c : Nat) (e : Event) (l : List Event) (code : Code) (v : X) (w : Word) (epc : BitVec 54),
    let taken := modCore s c fun k => { k with events := l, wait := .none, issued := none }
    let k := core s 32
    (AgentRuns (.asyncEventTake c) → takesEvent (core s c) c = true → (core s c).events = e :: l →
      exec (.asyncEventTake c) s = .next (if c = 32 then managerTrap (refillMgr taken) e (managerEpc (core s c) e) else stageTrap taken c e (core s c).pc)) ∧
    managerEpc k e = (if e.src = 6 ∧ k.run = .running ∧ k.wait = .none then e.epc else k.pc) ∧
    (k.tvec.getLsbD 63 = true → k.inh = false → fetchWord s 32 (k.tvec.toNat % 2 ^ 54) = (u, .ok w) →
      let k' := core (managerTrap s e epc) 32
      k'.tepc = epc ∧ k'.tcause = tcauseOf e ∧ k'.tval = e.tval ∧ k'.inh = true ∧ k'.pc = k.tvec.setWidth 54 ∧ k'.run = .running) ∧
    ((k.tvec.getLsbD 63 = false ∨ k.inh = true) → managerTrap s e epc = modDie s fun d => { d with fwEvents := d.fwEvents ++ [e] }) ∧
    (let t := coreFault s 32 code v
     (core t 32).run = .firmware ∧ (die t).fwEvents = (die s).fwEvents ++ [ownEvent s 32 code v] ∧
      (core t 32).tepc = k.tepc ∧ (core t 32).tcause = k.tcause ∧ (core t 32).inh = k.inh)

/-- XBEGIN, XEND and XABORT move the commit group of the stagehand’s graph through its states (R319, R320, R475, R476).

Where it goes past the words of the rules it follows the model's own choices of log entries 21, 38, 54 and 73. -/
def Obligations.CommitGroupWords : Prop :=
  ∀ (h : Hdr) (d a : Reg) (s : State) (g : Graph),
    let gives := fun (i : Instr) (t : State) => CoreRuns i s → exec i s = .next t
    let illegal := fun (i : Instr) => gives i (coreFault s (myCore s) 0x01 0)
    let group := fun (s : State) (f : Group → Group) => modGraph s g.gid fun g => { g with group := f g.group }
    (myGraph s = none → illegal (.xbegin h) ∧ illegal (.xend h d) ∧ illegal (.xabort h a)) ∧
    (myGraph s = some g →
      (g.group.state = 0 → gives (.xbegin h) (group (advance s) fun _ => { Group.none with state := 1, opener := myRegion s }) ∧
        illegal (.xend h d) ∧ illegal (.xabort h a)) ∧
      (g.group.state = 1 → illegal (.xbegin h) ∧ gives (.xabort h a) (advance (abortGroup s g.gid 1 ((xval s a).setWidth 32))) ∧
        (groupedLeft s g.gid = false → gives (.xend h d) (retX (group s fun q => { q with state := 2 }) d 0)) ∧
        (groupedLeft s g.gid = true → gives (.xend h d) s)) ∧
      (g.group.state = 2 → illegal (.xbegin h) ∧ illegal (.xabort h a) ∧ gives (.xend h d) (retX s d 0)) ∧
      (g.group.state = 3 → illegal (.xbegin h) ∧ gives (.xabort h a) (advance s) ∧
        gives (.xend h d) (retX (group (voidGrouped s g.gid) fun q => { q with state := 0 }) d 1)))

/-- PHCRD, VCSET, TQSET, TQTEST, IFENCE, TLBINV, CLEAN, INVAL, SHADOW and UNSHADOW complete (R282, R296, R329, R355, R378, R402, R433, R448, R449, R451, R459).

Where it goes past the words of the rules it follows the model's own choices of log entries 13, 18 and 72. -/
def Obligations.ClockPredicateAndCacheWords : Prop :=
  ∀ (h : Hdr) (d a b : Reg) (off : BitVec 20) (port : BitVec 6) (s t : State) (x : Xlat) (e : L2Line) (bs : List Byte),
    let me := myCore s
    let mine := myRegion s
    let gives := fun (i : Instr) (t : State) => CoreRuns i s → exec i s = .next t
    let drops := fun (i : Instr) (p : Nat → Bool) (t : State) =>
      (translatedOpen s p = false → gives i (advance t)) ∧ (translatedOpen s p = true → gives i t)
    let ns := (die s).phc / 16000
    let bit := d.toNat - 52
    let asid := rootAsid (xval s b)
    let va := (xval s a + xval s b + off.signExtend 64).toNat
    let ln := x.pa / 64
    let named := translate s (coreCtx s me) .read va = (t, .ok x) ∧ place x.pa = .hbm
    let asked := sendPacket (sendPacket t t.cur.val (homeDie ln) .request []) (homeDie ln) t.cur.val .response []
    let v := (xval s d).toNat
    gives (.phcrd h d a) (retX (setX s me a.toNat (BitVec.ofNat 64 (ns % 10 ^ 9))) d (BitVec.ofNat 64 (ns / 10 ^ 9 % 2 ^ 48))) ∧
    ((xval s a).toNat < 2 ^ 32 → gives (.vcset h d a) (modRegion (advance s) mine fun r => { r with vc := (xval s a).setWidth 32 })) ∧
    (2 ^ 32 ≤ (xval s a).toNat → gives (.vcset h d a) (coreFault s me 0x01 0)) ∧
    (bit ≠ 0 → gives (.tqset h d a) (modRegion (advance s) mine fun r =>
      { r with tq := if xval s a = 0 then r.tq &&& ~~~((1 : BitVec 8) <<< bit) else r.tq ||| (1 : BitVec 8) <<< bit })) ∧
    (kindOf s = .stage → d = 52 → a.toNat < 32 → exec (.tqset h d a) s = .next (coreFault s me 0x01 0)) ∧
    gives (.tqtest h d a) (retX s d (if a.toNat - 52 = 0 ∨ (region s mine).tq.getLsbD (a.toNat - 52) = true then 1 else 0)) ∧
    gives (.ifence h) (modCore (advance s) me fun k => { k with l1i := [] }) ∧
    drops (.tlbinvAll h) (fun _ => true) (invalidateTlbs s (fun _ => false) fun _ => false) ∧
    drops (.tlbinvAsid h b) (· == asid) (invalidateTlbs s (fun t => t.asid != asid) fun w => w.asid != asid) ∧
    drops (.tlbinvAddress h a b) (· == asid) (invalidateTlbs s
      (fun t => !(t.asid == asid && (xval s a).toNat / 2 ^ t.size == t.page)) fun w => w.asid != asid) ∧
    (named → l2get t ln = some e → e.dirty = true → gives (.clean h a b off)
      (advance (l2put (slotWrite asked ln ⟨e.codec, e.key, e.dedup⟩ e.code e.dedup) ln (some { e with dirty := false })))) ∧
    (named → (l2get t ln).all (fun e => !e.dirty) = true → gives (.clean h a b off) (advance asked)) ∧
    (named → gives (.inval h a b off) (advance (invalidateCode (l2drop asked ln) ln false))) ∧
    (let g := if (kindOf s).isMgr then v / 2 ^ 57 % 32 else mine
     v < (if (kindOf s).isMgr then 2 ^ 62 else 2 ^ 57) → va % 4096 = 0 →
      coreRead s (v % 2 ^ 57) 64 0 15 0 = .ok (bs, t) → tileOk (bytesLine bs) = true →
      gives (.shadow h d a b off port) (advance (modRegion t g fun r => { r with
        shadow := r.shadow.set port.toNat { bound := true, base := va, tile := v % 2 ^ 57, head := bytesLine bs } }))) ∧
    ((kindOf s).isMgr = false → gives (.unshadow h a port)
      (advance (modRegion s mine fun r => { r with shadow := r.shadow.set port.toNat Shadow.none }))) ∧
    ((kindOf s).isMgr = true → (xval s a).toNat < 32 → gives (.unshadow h a port)
      (advance (modRegion s (xval s a).toNat fun r => { r with shadow := r.shadow.set port.toNat Shadow.none })))

/-- MFSR and MTSR, and their ten uses, read and write the system register that the number names in the context (R45, R112, R167, R299, R307, R310, R395).

Where it goes past the words of the rules it follows the model's own choices of log entries 40 and 41. -/
def Obligations.SystemRegisterWords : Prop :=
  ∀ (h : Hdr) (d a : Reg) (n : BitVec 12) (s t : State) (r : Sr),
    let named := srOf (kindOf s) (myCore s) n.toNat = .ok r
    let v := xval s a
    let gives := fun (i : Instr) (t : State) => CoreRuns i s → exec i s = .next t
    (n = 0 → ElemRuns (.mfsr h d n) s → exec (.mfsr h d n) s = .next (elemRetire (.mfsr h d n) s [.scalar d (ident s)])) ∧
    (n = 0x20 → ElemRuns (.mfsr h d n) s →
      exec (.mfsr h d n) s = .next (elemRetire (.mfsr h d n) s [.scalar d ((myElem s).fflags.setWidth 32)])) ∧
    (named → ∀ i ∈ [Instr.mfsr h d n, .ufinfoRead h d n, .ucfgRead h d n], gives i (retX (srAfterRead s r) d (srRead s r))) ∧
    (∀ i ∈ [Instr.mtsr h a n, .istartFreshStart h n a, .istartResume h n a, .istartCancel h n a, .eflagsClear h n a,
        .lqstatClearDrops h n a, .shctlRun h n a, .shctlFreeze h n a, .shctlReset h n a],
      let own := kindOf s = .stage ∧ n = 0x60
      (named → srReadOnly r = false → ¬ own → v &&& srReserved r = 0 → srWrite s r v = .ok t → gives i (advance t)) ∧
      (named → srReadOnly r = true → gives i (coreFault s (myCore s) 0x01 0)) ∧
      (named → srReadOnly r = false → own → gives i (coreFault s (myCore s) 0x03 0)) ∧
      (named → srReadOnly r = false → ¬ own → v &&& srReserved r ≠ 0 → gives i (coreFault s (myCore s) 0x22 0)) ∧
      (∀ c, srOf (kindOf s) (myCore s) n.toNat = .error c → gives i (coreFault s (myCore s) c 0)))

/-- A plain system register reads back the value written, and its write touches no memory, general register or pc (R45, R112, R271, R299, R302, R307, R395).

Where it goes past the words of the rules it follows the model's own choices of log entry 40. -/
def Obligations.SystemRegistersHoldWhatIsWritten : Prop :=
  ∀ (s : State) (v : X) (c q k : Nat),
    let plain : List Sr := [.inv (c % 32) 0, .inv (c % 32) 5, .fflags (c % 33), .rsbase (c % 33), .sctr (c % 33), .codec (c % 34) (k % 4),
      .asroot (c % 33), .rtybase, .xattr, .trap (c % 33) 0, .trap (c % 33) 2, .lqage, .lqcfg (q % 64), .lqwd (q % 64)]
    ∀ r ∈ plain, v &&& srReserved r = 0 → ∃ t, srWrite s r v = .ok t ∧ srRead t r = v ∧ t.mem = s.mem ∧ t.l2 = s.l2 ∧
      ∀ n, (core t n).x = (core s n).x ∧ (core t n).pc = (core s n).pc

/-- Which system registers each context may name (R395, R84).

Where it goes past the words of the rules it follows the model's own choices of log entry 40. -/
def Obligations.SystemRegisterPrivileges : Prop :=
  ∀ (k : Kind) (c : Nat) (n : BitVec 12),
    let known := (srOwn c n.toNat).isSome ∨ (srFar n.toNat).isSome
    let mine := (0x10 ≤ n.toNat ∧ n.toNat ≤ 0x18) ∨ n = 0x30
    let managers := n = 0x40 ∨ n = 0x41 ∨ n = 0x61 ∨ n = 0x62 ∨ n = 0x90
    let may := match k with
      | .elem => n = 0 ∨ n = 0x20
      | .stage => n.toNat < 0x400 ∧ ¬ managers
      | .mgr => ¬ mine
    (¬ known → srOf k c n.toNat = .error 0x01) ∧ (known → may → ∃ r, srOf k c n.toNat = .ok r) ∧
      (known → ¬ may → srOf k c n.toNat = .error 0x03)

/-- LAUNCH, TLAUNCH, LOADCFG, RECONF, SHRINK, WDOG, CSAVE and CREST complete (R301, R306, R314, R316, R318, R322, R380, R385, R407, R436, R447, R472).

Where it goes past the words of the rules it follows the model's own choices of log entries 15, 25, 42, 45 and 77. -/
def Obligations.LaunchAndGraphWords : Prop :=
  ∀ (h : Hdr) (d a b : Reg) (imm : BitVec 32) (s t : State) (gr : Graph) (bs cs : List Byte) (img : LoadImage) (im : SaveImage) (n : Nat)
    (u : State) (f : Stop),
    let completes := fun (i : Instr) (t : State) => CoreRuns i s → exec i s = .next t
    let va := (xval s a).toNat
    let q := (xval s b).toNat
    let allowed := (kindOf s).isMgr = true ∨ (queue s q).cfg.getLsbD 6 = true
    let status := fun (t : State) (n : Nat) => retX t d (BitVec.ofNat 64 n)
    let k := queue t q
    let enqueued := fun (desc : Line) =>
      if k.cfg.getLsbD 4 = false then status t 2
      else if 32 ≤ k.entries.length then status (dropLaunch t t.cur.val q) 1
      else status (modDie t fun d => { d with queues := vmod d.queues q fun k => { k with entries := k.entries ++ [⟨desc, t.clock, none⟩] } }) 0
    let named := va < 32 ∧ ownerOf s va = some gr
    let dog := fun (f : Graph → Graph) => status (modGraph s gr.gid f) 0
    let head := bytesNat bs
    let found := t.images.find? (fun i => i.id == bits head 320 64)
    let current := head % 2 ^ 64 = 1 ∧ im.step = (die t).stepping
    let whole := readLines t (coreAccess t) va (bits head 64 64 / 64)
    (q < 64 → allowed → coreRead s va 64 0 15 0 = .ok (bs, t) →
      completes (.launch h d a b) (enqueued (bytesLine bs &&& ~~~(1 <<< 208 : Line))) ∧
      (descriptorOk (bytesLine bs) = true → completes (.tlaunch h d a b) (enqueued (bytesLine bs ||| (1 <<< 208 : Line))))) ∧
    (64 ≤ q → completes (.launch h d a b) (coreFault s (myCore s) 0x01 0) ∧ completes (.tlaunch h d a b) (coreFault s (myCore s) 0x01 0)) ∧
    (myGraph s = none → completes (.reconf h) (advance s)) ∧
    (∀ c, (core s c).wait = .load img → (region s c).owner = some gr.gid → AgentRuns (.loadcfgInstall c) → exec (.loadcfgInstall c) s = .next
      (modCore (installLoad s gr.gid c img) c fun k => { k with wait := .none, pc := k.pc + 1, supplied := [], issued := none, loading := false })) ∧
    (myGraph s = some gr →
      (gr.load = none → loading s gr.gid = false → va % 64 = 0 → readImage s gr va = .ok (img, t) →
        completes (.loadcfg h a) (modCore t (myCore s) fun k => { k with wait := .load img, loading := true })) ∧
      (gr.load = none → completes (.reconf h) (advance (passToken s gr.gid))) ∧
      (gr.load ≠ none → completes (.reconf h) (modCore s (myCore s) fun k => { k with wait := .reconf }))) ∧
    (named →
      (q < 2 ^ 32 → (markedRegions s gr.gid).isEmpty = false → gr.load ≠ none → selectUnder gr ((xval s b).setWidth 32) = some n →
        completes (.shrink h d a b) (status (modGraph s gr.gid fun g => { g with pending := some n, pendingSince := s.clock }) 0)) ∧
      (q < 2 ^ 32 → (markedRegions s gr.gid).isEmpty = false → gr.load ≠ none → selectUnder gr ((xval s b).setWidth 32) = none →
        completes (.shrink h d a b) (status s 1)) ∧
      (q < 2 ^ 32 → (markedRegions s gr.gid).isEmpty = true ∨ gr.load = none → completes (.shrink h d a b) (status s 2)) ∧
      (q = 0 → gr.pending ≠ none →
        completes (.shrinkQuery h d a b) (status (modGraph s gr.gid fun g => { g with shrunk := false }) 1)) ∧
      (q = 0 → gr.pending = none → gr.shrunk = true →
        completes (.shrinkQuery h d a b) (status (modGraph s gr.gid fun g => { g with shrunk := false }) 2)) ∧
      (q = 0 → gr.pending = none → gr.shrunk = false →
        completes (.shrinkQuery h d a b) (status (modGraph s gr.gid fun g => { g with shrunk := false }) 0)) ∧
      completes (.wdogRestart h d a) (dog fun g => { g with wdStep := 0, wdCycles := 0, wdOff := false }) ∧
      completes (.wdogReport h d a) (status s (gr.wdStep % 4 + 2 ^ 32 * (gr.wdCycles / 4096 % 2 ^ 32))) ∧
      completes (.wdogNextStep h d a) (status (wdStepOf s gr) 0) ∧
      completes (.wdogSuspend h d a) (dog fun g => { g with wdOff := true }) ∧
      (q % 4096 = 0 → (die s).save = none → completes (.csave h d a b imm)
        (status (modGraph (modDie s fun d => { d with save := some ⟨gr.gid, q, imm.toNat, myRoot s⟩ }) gr.gid fun g =>
          { g with pending := none }) 0)) ∧
      (q % 4096 = 0 → (die s).save ≠ none → completes (.csave h d a b imm) (status s 1))) ∧
    (va < 32 → ownerOf s va = none → q % 4096 = 0 → completes (.csave h d a b imm) (status s 1)) ∧
    (va % 4096 = 0 → coreRead s va 64 0 15 0 = .error f → completes (.crest h d a) (crestFault s d va)) ∧
    (va % 4096 = 0 → coreRead s va 64 0 15 0 = .ok (bs, t) →
      (found = none → completes (.crest h d a) (status t 2)) ∧
      (found = some im → ¬ current → completes (.crest h d a) (status t 2)) ∧
      (found = some im → current → whole = .error f → completes (.crest h d a) (crestFault t d va)) ∧
      (found = some im → current → whole = .ok (cs, u) →
        (restoreFits u im = true → completes (.crest h d a) (status (restoreGraph u im cs) 0)) ∧
        (restoreFits u im = false → completes (.crest h d a) (status u 1))))

/-- SSLOT, RTYPOP and RTYW complete with the status of their action (R257, R258, R413, R414, R415, R438, R439).

Where it goes past the words of the rules it follows the model's own choices of log entries 19, 43, 47, 62, 73 and 103. -/
def Obligations.SlotAndRetryWords : Prop :=
  ∀ (h : Hdr) (d a b : Reg) (s t u : State) (v spill first lvl : Nat) (e : Retry) (bs : List Byte)
    (res : Except XFault Xlat),
    let gives := fun (i : Instr) (t : State) => CoreRuns i s → exec i s = .next t
    let n := (xval s a).toNat
    let closed := n < 16384 ∧ poolOn s = true ∧ groupOpen s = false
    let old := slotRec t n
    let bound := fun (t : State) (spill first : Nat) (o : Option Nat) => retX (bindSlot t n v spill first o) d 0
    let opened := (die s).retry.find? (fun r => r.slot == n) = some e
    let taken := fun (s : State) (first k : Nat) (write : Bool) => (granuleNodes first k).foldl (fun s q => takeNode s q.1 q.2 write false) s
    let waits := fun (s : State) (first k : Nat) (write : Bool) => (granuleNodes first k).foldl (fun s q => awaitNode s q.1 q.2 write false) s
    let run := slotGranules s n
    (closed → slotArg s b = .ok (v, t) →
      let t := askRecord t n
      (recState old = 0 → spillOf t (recSpill v) = .ok (spill, u) → freeRun (die t).granules (recPinkb v) = some first →
        gives (.sslotBind h d a b) (bound u spill first none)) ∧
      (recState old = 0 → spillOf t (recSpill v) = .ok (spill, u) → freeRun (die t).granules (recPinkb v) = none →
        gives (.sslotBind h d a b) (retX u d 1)) ∧
      (recState old = 3 → freeRun (die t).granules (recPinkb v) = some first → mayMove t first (recPinkb v) true = true →
        gives (.sslotBind h d a b) (bound (taken t first (recPinkb v) true) (recSpill old) first (some (recPinkb old)))) ∧
      (recState old = 3 → freeRun (die t).granules (recPinkb v) = some first → mayMove t first (recPinkb v) true = false →
        gives (.sslotBind h d a b) (waits s first (recPinkb v) true)) ∧
      (recState old = 1 ∨ recState old = 2 ∨ recState old = 3 ∧ freeRun (die t).granules (recPinkb v) = none → gives (.sslotBind h d a b) (retX t d 1))) ∧
    (n < 16384 → poolOn s = true → slotArg s b = .ok (v, t) →
      (groupOpen s = true → gives (.sslotRefresh h d a b) (advance (captureRefresh t n v d))) ∧
      (groupOpen s = false → recState old = 1 → gives (.sslotRefresh h d a b) (retX (noteRecord ([(1, 3), (24, 8), (40, 8), (48, 10), (64, 10)].foldl
        (fun s f => writeBytes s (coreCtx s (myCore s)) ⟨slotAddr s n + f.1, 0, 0, false⟩ (natBytes (bits v (8 * f.1) (8 * f.2)) f.2) 0) (askRecord t n)) n)
        d 0)) ∧
      (groupOpen s = false → recState old ≠ 1 → gives (.sslotRefresh h d a b) (retX (askRecord t n) d 1))) ∧
    (closed → (recState (slotRec s n) = 1 →
        (mayMove s run.1 run.2 false = true → gives (.sslotEvict h d a) (retX (noteRecord (evictSlot (taken s run.1 run.2 false) n) n) d 0)) ∧
        (mayMove s run.1 run.2 false = false → gives (.sslotEvict h d a) (waits s run.1 run.2 false))) ∧
      (recState (slotRec s n) ≠ 1 → gives (.sslotEvict h d a) (retX (askRecord s n) d 1))) ∧
    ((die s).retry.find? (fun r => !r.popped) = none → gives (.rtypop h d) (retX s d (1 <<< 63))) ∧
    ((die s).retry.find? (fun r => !r.popped) = some e → gives (.rtypop h d) (retX (modDie s fun q =>
      { q with retry := q.retry.map fun r => if r.slot == e.slot then { r with popped := true } else r }) d (BitVec.ofNat 64 e.slot))) ∧
    (n < 1024 → (die s).retry.find? (fun r => r.slot == n) = none →
      gives (.rtywSupply h d a b) (retX s d 2) ∧ gives (.rtywReplay h d a b) (retX s d 2)) ∧
    (n < 1024 → opened → e.acc ≠ 1 → coreRead s (xval s b).toNat 64 0 15 0 = .ok (bs, t) →
      gives (.rtywSupply h d a b) (retX (closeEntry (supplyTo t e (bs.take e.size)) n) d 0)) ∧
    (n < 1024 → opened → translate s (requesterCtx s e) (entryAcc e) e.va = (t, .error (.page lvl)) →
      gives (.rtywReplay h d a b) (retX (setLevel t n lvl) d 1)) ∧
    (n < 1024 → opened → translate s (requesterCtx s e) (entryAcc e) e.va = (t, res) → (∀ l, res ≠ .error (.page l)) →
      let u := closeEntry t n
      let replayed := fun (r : State × Bool) => gives (.rtywReplay h d a b) (retX r.1 d (if r.2 then 3 else 0))
      (∀ g k i p, e.who = .window g k i p → replayed (replayWindow u g k i p n)) ∧
      (∀ g ln, e.who = .held g ln → replayed (replayHeld u g e none)) ∧
      (∀ g, e.who = .amo g → replayed (replayAmo u g e none)) ∧
      ((∃ g, e.who = .core g) ∨ (∃ g p, e.who = .port g p) ∨ (∃ k, e.who = .gather k) ∨ (∃ k, e.who = .opUnit k) →
        gives (.rtywReplay h d a b) (modCore u (myCore s) fun k => { k with wait := .rtyw d e }))) ∧
    (∀ faulted : Bool, replayAccess (modCore s 32 fun q => { q with wait := .none }) e = (t, some faulted) →
      rtywReturn s d e = retX t d (if faulted then 3 else 0)) ∧
    (replayAccess (modCore s 32 fun q => { q with wait := .none }) e = (t, none) →
      rtywReturn s d e = modCore t 32 fun q => { q with wait := .rtyw d e })

/-- ISTART starts, resumes and cancels an invocation; its windows fill and close; freezes, ends, cues and loads take place (R43, R46, R47, R48, R50, R55, R61, R62, R64, R315, R391).

Where it goes past the words of the rules it follows the model's own choices of log entries 1, 8, 9, 23, 39, 64, 69, 70, 87 and 88. -/
def Obligations.InvocationsStartFillAndEnd : Prop :=
  ∀ (g e w gr : Nat) (s t : State) (v : X) (q : Window) (c : Code) (graph : Graph) (k : Nat) (mask : BitVec 32) (recs : List LoadRec)
    (img : LoadImage) (inv : Invocation) (f : FaultRec),
    let r := region s g
    let judgedState := if r.faults = [] then s else discardGroup s r.group
    let age := fun (f : FaultRec) => f.iter * 2 ^ 16 + f.row * 16 + f.col
    let cut := r.faults.foldl (fun n f => min n (execCycle r f.iter f.pos f.col)) r.rc
    let passed := completeBefore (passMarks s g cut) g cut
    let settled := dropWindows (settleWords passed g cut) g cut
    let first := v.toNat % 2 ^ 32
    let legal := 0 ∉ extents r.iext ∧ extentProduct r.iext ≤ 2 ^ 31
    let began := modRegion (recordLate s g) g fun r => { r with
      state := 1
      inv := some (sampleInv s g first (some (r.rc + 4)) [] [])
      cursor := 0
      freezeWanted := false }
    let found := if freezeDue s g then
        (groupRegions s r.group).foldl (fun s g => modRegion s g fun r => { r with faults := r.faults ++ freezeFaults r }) s
      else s
    let late := (if delayDue s g then delayFault (region found g) else none).toList
    let miss := fun (c : Code) => modRegion (setWindow s g e w none) g fun r =>
      { r with faults := r.faults ++ [⟨q.iter, e / 16, e % 16, q.pos, c, 0⟩] }
    let held := releaseHold s g
    (v.toNat < 2 ^ 32 → r.state = 0 → legal → first < extentProduct r.iext → g < 32 → writeIstart s g v = .ok began) ∧
    (v.toNat < 2 ^ 32 → r.state = 4 → legal → writeIstart s g v =
      .ok (modRegion s g fun r => { r with state := 5, inv := some (sampleInv s g first none [] []) })) ∧
    (v.toNat < 2 ^ 32 → (r.state = 0 ∨ r.state = 4) → ¬ legal → writeIstart s g v = .error 0x01) ∧
    (v.toNat = 2 ^ 32 → r.state = 3 → (region judgedState g).inv = some inv →
      let kept := inv.marks.filter fun p => decide (inv.first ≤ p.1)
      let again := sampleInv judgedState g inv.first none kept (kept.map fun p => (p.1, p.2 - 1))
      let started := { again with seed := inv.seed, c0 := some ((region judgedState g).rc + 4) }
      again.first < again.count → writeIstart s g v = .ok (modRegion judgedState g fun r => { r with
        state := 1, inv := some started, cursor := 0, freezeWanted := false })) ∧
    (v.toNat = 2 ^ 33 → r.state = 3 → (region judgedState g).framePending = false → g < 32 → writeIstart s g v =
      .ok (modRegion (withdrawRetry judgedState fun q => isHeldOf g q.who) g fun r => { r with
        state := 0, slot := slotCounter r, hold := [], inv := none })) ∧
    (r.faults = [] → recordLate s g = s ∧ judgedState = s) ∧
    (∀ (l : List FaultRec) (x : FaultRec), reported (x :: l) = some f → f ∈ x :: l ∧ ∀ y ∈ x :: l, age f ≤ age y) ∧
    (∀ n, let gs := groupRegions s n ++ againRegions s n
     (∀ h ∈ gs, (region s h).faults = []) → discardGroup s n = s ∧
     ∀ first, reported (gs.flatMap fun h => (region s h).faults) = some first → discardGroup s n = gs.foldl (fun u h =>
       match reported (region u h).faults with
       | some own => discardRegion u h own true
       | none => discardRegion u h first false) s) ∧
    (∀ own : Bool, g < 32 → r.state ≠ 3 → (region passed g).inv = some inv →
      let u := discardRegion s g f own
      let p := restartIter (region passed g) inv f own
      let marks := ((region settled g).inv.map fun v => v.marks).getD inv.marks
      let seen := if own then f else { f with iter := p, row := 0, col := 0, pos := 0 }
      let holds := fun (s : State) (t : HeldStore) => ∃ e ∈ (region s g).hold, t ∈ e.stores
      (region u g).state = 3 ∧ (region u g).ifvec = iterVector inv.ext p ∧ (region u g).faults = [] ∧
      (region u g).inv = some { inv with marks := marks, first := p, c0 := none } ∧
      (region u g).ifinfo.toNat = seen.code.toNat + 2 ^ 13 * (seen.row % 8) + 2 ^ 16 * (seen.col % 16) + 2 ^ 20 * ((seen.iter - p) % 256) +
        2 ^ 28 * (seen.pos % 256) + (if marks.get 0 p = 0 then 0 else 2 ^ 36) + 2 ^ 37 * (seen.cause % 8) ∧
      (∀ t, holds u t ↔ holds settled t ∧ (t.iter < p ∨ t.pos + 1 < marks.get 0 t.iter)) ∧
      (∀ h, h ≠ g → (core u h).events = (core settled h).events) ∧
      ((core settled g).ien = false → (core u g).events = (core settled g).events)) ∧
    (windowAt s g e w = some q →
      (AgentRuns (.windowDataArrival g e w) → windowFull q = false → (r.state = 1 ∨ r.state = 2) →
        let filled := fillWindow s g e q [] q.accs
        exec (.windowDataArrival g e w) s = .next (setWindow filled.1 g e w (some { q with accs := filled.2 }))) ∧
      (AgentRuns (.windowClose g e w) → q.closed = false → q.close ≤ r.rc → isRunning r = true →
        (windowFault q = none → windowFull q = true →
          exec (.windowClose g e w) s = .next (setWindow s g e w (some { q with closed := true }))) ∧
        (windowFault q = some c → exec (.windowClose g e w) s = .next (miss c)) ∧
        (windowFault q = none → windowFull q = false → windowPaged q = false → exec (.windowClose g e w) s = .next (miss 0x10)))) ∧
    (g < 32 → e < 128 → (elemAt s g e).wins = [q] → q.closed = true →
      (∀ k < 128, k ≠ e → ∀ x ∈ (elemAt s g k).wins, x.closed = false) →
      applyFx (modElem s g e fun x => { x with wins := [] }) g e q.iter q.pos (windowValue q) = .ok t → writeClosed s g = t) ∧
    (AgentRuns (.freezeLimit g) → limitDue s g = true → exec (.freezeLimit g) s = .next
      (let u := discardGroup (modRegion found g fun r => { r with faults := r.faults ++ late }) r.group
       if delayDue s g then withdrawStores u g else u)) ∧
    (AgentRuns (.invocationEnd g) → isRunning r = true → r.cursor = 0 → wordsDone r = true → storesDone r = true → r.faults = [] →
      (regionGroupOpen s g = false ∨ heldReds r = []) → openContribution held (ofElems g) = none → (region held g).framePending = false → exec (.invocationEnd g) s = .next
        (modRegion held g fun r => { r with
          slot := (if r.ii == 0 then 0 else (r.rc - 1 - (r.inv.bind fun v => v.c0).getD r.rc) % r.ii)
          done := r.done + 1, state := 0, inv := none, cursor := 0, freezeStart := none, endStart := none, faults := []
          freezeWanted := false, travel := [], portUse := [], rmwBusy := [] })) ∧
    (graph? s gr = some graph → cueDue s graph = true →
      (AgentRuns (.cueRelease gr) → switchFits s graph = false → exec (.cueRelease gr) s = .next (releaseCue s gr)) ∧
      (AgentRuns (.understudySwitch gr) → switchFits s graph = true → drained s gr = true → graph.pending = some k →
        configOf graph k = some (mask, recs) → exec (.understudySwitch gr) s = .next (switchLoad s graph k mask recs))) ∧
    (AgentRuns (.loadcfgInstall g) → (core s g).wait = .load img → r.owner = some gr → exec (.loadcfgInstall g) s =
      .next (modCore (installLoad s gr g img) g fun k => { k with wait := .none, pc := k.pc + 1, supplied := [], issued := none, loading := false })) ∧
    (AgentRuns (.reconfTokenPass gr) → drained s gr = true → (∃ n ∈ graphRegions s gr, (core s n).wait = .reconf) →
      exec (.reconfTokenPass gr) s = .next (retireReconf (passToken s gr) gr))

/-- A launch starts a graph, a halted graph ends, the watchdog steps, a save completes, and a silent slot is evicted (R139, R258, R302, R303, R304, R305, R316, R317).

Where it goes past the words of the rules it follows the model's own choices of log entries 1, 8, 15, 43, 46 and 101. -/
def Obligations.GraphsStartEndAndAreWatched : Prop :=
  ∀ (q gr slot : Nat) (s t : State) (e : Launch) (hdr : List Nat) (g : Graph) (v : Save) (pages : List Xlat) (c : Code),
    let popped := modQueue s q fun k => { k with entries := k.entries.drop 1 }
    let mask := headerMask hdr
    let graph := startGraph t q e.desc mask
    (AgentRuns (.graphStart q) → mayStart s q = true → readyHead s q = some e → readHeader popped e.desc = (t, .ok hdr) → mask ≠ 0 →
      exec (.graphStart q) s = .next (((List.range 32).filter fun g => mask.getLsbD g).foldl (fun s g =>
        modCore (modRegion s g fun r => { r with owner := some graph.gid }) g fun k =>
          startCore k e.desc mask (nth 0 hdr g % 2 ^ 54))
        (modDie { t with gid := t.gid + 1 } fun d => { d with graphs := d.graphs ++ [graph] }))) ∧
    (∀ k : Core, let c := startCore k e.desc mask (nth 0 hdr gr % 2 ^ 54)
      c.run = .running ∧ c.pc.toNat = nth 0 hdr gr % 2 ^ 54 ∧ c.inh = false ∧ c.asroot = descRoot e.desc ∧
      vget 0 c.x 9 = mask.setWidth 64 ∧ ∀ n, n < 8 → vget 0 c.x (n + 1) = descParam e.desc n) ∧
    (graph? s gr = some g →
      (AgentRuns (.graphEnd gr) → mayEnd s g = true →
        let passed := if g.load.isSome then passToken s g.gid else s
        let u := if g.group.state = 1 then abortGroup passed g.gid 0 0 else releaseCommit passed g.gid
        let w := modGraph u g.gid fun g => { g with group := Group.none }
        let unacked := ∃ p ∈ w.io.eth, ∃ f ∈ p.2.unacked, f.die = w.cur.val ∧ ∃ n ∈ graphRegions w g.gid, n ∈ f.parties
        (¬ unacked → exec (.graphEnd gr) s = .next (freeGraph (countDone w g.queue) g.gid)) ∧
        (unacked → exec (.graphEnd gr) s = .next w)) ∧
      (g.wdStep = 0 → wdOverdue s g = true → exec (.wdogPreempt gr) s = .next (noteStep (postStage
        (postMgr s 0x60 5 (lowestOf g.mask) 0 0) (lowestOf g.mask) 0x60 5 0) g.gid 1)) ∧
      (g.wdStep = 1 → wdOverdue s g = true → exec (.wdogKill gr) s = .next (wdKill s g)) ∧
      (g.wdStep = 2 → wdOverdue s g = true → exec (.wdogFence gr) s = .next (noteStep (((graphRegions s g.gid).filter fun n => !killDrained s n).foldl (fun s g =>
        modRegion (disown (postMgr s 0x62 5 g 0 0) g) g fun r => { r with fenced := true }) s) g.gid 3))) ∧
    ((die s).save = some v → graph? s v.gid = some g → saveReady s g = true → g.group.state ≠ 1 →
      let lines := imageLines s v.gid
      let id := s.images.foldl (fun m (i : SaveImage) => max m (i.id + 1)) 1
      let rest := (fresh t).1
      let head := fun (u : State) (whole : Nat) => imageHead u g whole (64 * (lines.length + 1)) id rest
      let w := writeImage (fresh t).2 pages lines (head (fresh t).2 0)
      let kept := { w with images := w.images ++ [saveOf w g id] }
      (savePages s v ((lines.length + 1) / 64) 0 = (t, pages, none) →
        exec .saveComplete s = .next (leaveDie (putImageLine pages kept 0 (head kept 1)) g)) ∧
      (savePages s v ((lines.length + 1) / 64) 0 = (t, pages, some c) → exec .saveComplete s = .next
        (postMgr (modDie w fun d => { d with save := none }) c.toNat 7 (lowestOf g.mask) (BitVec.ofNat 64 v.area) 0))) ∧
    (slotSilent s slot = true → slotEvicting s slot = false → exec (.silenceEviction slot) s = .next (beginEvict s slot)) ∧
    (slotEvicting s slot = true → exec (.silenceEviction slot) s = .next (finishEvict s slot))

/-- Soft errors, power and temperature stop the module; reset, bring-up, power and attestation events complete (R312, R331, R332, R333, R334).

Where it goes past the words of the rules it follows the model's own choices of log entries 57, 58, 65, 66 and 79. -/
def Obligations.FatalResetAndBringUpEvents : Prop :=
  ∀ (n : Nat) (s : State) (nonce : BitVec 256),
    let fatal := fun (cause : Nat) =>
      { s with
        io := { s.io with
          fatal := true
          cause := BitVec.ofNat 2 cause
          msi := s.io.msi ++ [(0, 0), (1, 0)]
          eth := s.io.eth.map fun p => (p.1, { p.2 with unacked := [] }) }
        dies := s.dies.map stopDie
        links := s.links.map fun p => (p.1, { p.2 with wire := [], queues := Vector.replicate 4 [] }) }
    (s.io.fatal = false → exec .softError s = .next (fatal 1)) ∧
    (s.io.fatal = false → n < 24 → exec (.powerFatal n) s = .next (fatal 2) ∧ exec (.temperatureFatal n) s = .next (fatal 3)) ∧
    (s.io.fatal = true → exec .softError s = .next s ∧ exec (.powerFatal n) s = .next s ∧ exec (.temperatureFatal n) s = .next s ∧
      exec .fatalDumpDone s = .next (writeDump { s with io := { s.io with dumped := true } })) ∧
    (let u := writeDump s
     u.dump = s.dies.toList ∧ u.dies = s.dies ∧ u.io = s.io ∧ u.l2 = s.l2 ∧ (MemoryOk s → MemoryOk u ∧
      ∀ a, (∀ m < 24, a / 64 < dumpLine m 0 ∨ dumpLine m dumpLines ≤ a / 64) → Table.bytes u.mem a 1 = Table.bytes s.mem a 1)) ∧
    (∀ d q, q < 64 → (vget Queue.reset (stopDie d).queues q).entries = []) ∧
    exec .powerOnReset s = .next { State.reset with agenda := s.agenda, focus := s.focus, free := s.free } ∧
    (s.io.ready = false → s.io.fatal = false → Config.firmwareVerifies s.free = false →
      exec .bringUpComplete s = .next { s with free := s.free + 1 }) ∧
    (s.io.ready = false → s.io.fatal = false → Config.firmwareVerifies s.free = true → exec .bringUpComplete s = .next
      { s with
        l2 := []
        free := s.free + 265
        dies := s.dies.map fun d =>
          { d with
            queues := Vector.replicate 64 Queue.reset
            regions := d.regions.map fun r => { r with nodes := [] } }
        io := { s.io with
          ready := true
          booted := true
          keys := Vector.ofFn fun i => Config.freeValue (s.free + 9 + i.val)
          meas := s.io.meas.zipIdx.map fun m => extend m.1 (s.free + 1 + m.2) } }) ∧
    (n < 24 → exec (.powerAverageHigh n) s = .next (modDieAt s n fun d => { d with hot := true }) ∧
      exec (.powerAverageNormal n) s = .next (modDieAt s n fun d => { d with hot := false })) ∧
    (s.io.nonce = none → exec (.attestationRequest nonce) s = .next { s with io := { s.io with nonce := some nonce, busy := false } }) ∧
    (s.io.nonce ≠ none → exec (.attestationRequest nonce) s = .next { s with io := { s.io with busy := true } }) ∧
    (s.io.nonce = some nonce →
      let fields := reportFields s nonce
      exec .attestationReport s = .next
        { s with io := { s.io with report := fields ++ Config.sign fields, nonce := none, busy := false } })

/-- Accesses of hosts and peers, packets of the links, clock events, walks and block operations complete (R181, R182, R267, R277, R294, R301, R326, R327, R329, R331, R479).

Where it goes past the words of the rules it follows the model's own choices of log entries 55, 56, 57, 59 and 78. -/
def Obligations.HostsPeersLinksAndTime : Prop :=
  ∀ (l addr len seq q codec key party : Nat) (data : List Byte) (desc : BitVec 512) (root va : X) (s : State) (p : Packet) (rest : List Packet) (k : Link),
    let lines := data.zipIdx.map fun p => (addr % 64 + p.2, p.1)
    let answered := fun (who die : Nat) =>
      { (externalRead s die addr len).2 with io := { (externalRead s die addr len).2.io with
          reads := (externalRead s die addr len).2.io.reads ++ [(who, (externalRead s die addr len).1)] } }
    let port_ := ethAt s l
    let again := port_.unacked.drop ((fresh s).1.toNat % (port_.unacked.length + 1))
    let emptied := modEth (fresh (fresh s).2).2 l fun _ => again.foldl resendFrame
      { port_ with unacked := [], cache := [], sent := 0, ring := [], got := 0, again := (fresh (fresh s).2).1.toNat }
    let got := receiveFrame port_ data
    let read := crossUntil (q % 4) (linkAt s (q / 4)).wire.length (linkAt s (q / 4))
    (l < 2 → hostReaches addr data.length = true →
      (place addr = .hbm → exec (.hostWrite l addr data) s = .next (externalWrite s (ioOfHost l) addr data)) ∧
      (place addr = .mailbox → data.length = 32 →
        exec (.hostWrite l addr data) s = .next (requestReport s (BitVec.ofNat 256 (bytesNat data)))) ∧
      (∀ n m, place addr = .launch n m → exec (.hostWrite l addr data) s =
        .next (launchWrite (sendPacket s (ioOfHost l) n .request data) n m (if addr % 64 = 0 then data.length else 0) (bytesLine data)))) ∧
    (l < 2 → hostReaches addr len = true → exec (.hostRead l addr len) s = .next (answered l (ioOfHost l))) ∧
    (q < 64 → exec (.hostLaunchWrite q len desc) s = .next
      (launchWrite (sendPacket s (ioOfHost 0) s.cur.val .request ((lineBytes desc).take len)) s.cur.val q len desc)) ∧
    (l < 48 → addr + data.length ≤ 2 ^ 43 →
      (seq = port_.inSeq → exec (.peerWrite l seq addr data) s = .next
        (externalWrite (modEth s l fun _ => got.1) (ioOfPort l) addr got.2)) ∧
      got.1.inSeq = port_.inSeq + 1 ∧ got.2.length = data.length ∧ (port_.again ≠ 0 → got.2 = data) ∧
      (Table.wf none port_.ring = true → data.length = 64 → got.2 = data) ∧
      (seq ≠ port_.inSeq → exec (.peerWrite l seq addr data) s = .next emptied)) ∧
    (l < 48 → addr + len ≤ 2 ^ 43 → exec (.peerRead l addr len) s = .next (
      let read := externalRead s (ioOfPort l) addr len
      let sent := sendAnswer read.2 l addr read.1
      { sent with io := { sent.io with reads := sent.io.reads ++ [(2 + l, read.1)] } })) ∧
    (∀ t : State, t.io.eth = s.io.eth → sendAnswer t l addr data = modEth t l fun e => (answerBlocks addr data).foldl (fun e b =>
      match e.cache.find? fun p => p.2 == some (bytesLine b) with
      | some _ => e
      | none => { e with cache := e.cache.set none (e.sent % ringSlots) (some (bytesLine b)), sent := e.sent + 1 }) port_) ∧
    (l < 48 → exec (.ethernetLinkEvent l) s = .next emptied) ∧
    (q < 432 → vget [] read.queues (q % 4) = p :: rest →
      let left := { read with queues := vset read.queues (q % 4) rest }
      (p.dest = linkEnd (q / 4) → exec (.brunexPacketArrival q) s =
        .next (modLink s (q / 4) fun _ => { left with delivered := some p })) ∧
      (p.dest ≠ linkEnd (q / 4) → exec (.brunexPacketArrival q) s =
        .next (modLink (modLink s (q / 4) fun _ => left) (linkFor (linkEnd (q / 4)) p.dest) fun k => sendOn k p))) ∧
    (l < 108 → exec (.linkRetrain l) s = .next (modLink s l fun k => k.wire.foldl sendFull
      { k with cache := [], sent := 0, ring := [], got := 0, wire := [] })) ∧
    (∀ b, p.block = some b → ∃ ref, (sendOn k p).wire = k.wire ++ [{ p with ref := ref }] ∧
      (sendFull k p).wire = k.wire ++ [{ p with ref := none }] ∧ (sendFull k p).cache = k.cache.set none (k.sent % ringSlots) (some b)) ∧
    (l < 48 → ∃ (slew : Int) (t : State), exec (.ptpEventTimestamp l) s = .next t ∧ -5 ≤ slew ∧ slew ≤ 5 ∧
      (∃ egress twoStep, t.io.stamps = s.io.stamps ++ [⟨l, vget 0 s.io.phcs (l / 12), egress, twoStep⟩]) ∧ t.io.slew = slew ∧ t.mem = s.mem ∧ ∀ n, dieAt t n = if n < 24 then { dieAt s n with slew := slew } else dieAt s n) ∧
    (va.toNat < 2 ^ 57 → exec (.pageTableWalk root va) s = .next (findLeaf s noTlb root (leafPlaced va.toNat) va.toNat).1) ∧
    (place addr = .hbm → data ≠ [] → addr % 64 + data.length ≤ 64 → 0 < codec → codec < 7 → key < 256 → party < 34 →
      nonFinite lines = false → exec (.codecBlockOperation addr codec key party data) s =
        .next (performLine s (addr / 64) ⟨codec, key, false⟩ lines 0 s.cur.val party (party == 33)))

/-- The fatal state is kept by every step but a power-on reset, and no agent of a die takes a step in it (R301, R312, R334).

Where it goes past the words of the rules it follows the model's own choices of log entry 58. -/
def Obligations.FatalStateIsKeptUntilReset : Prop :=
  ∀ (s : State), FatalState s →
    (∀ c, (nextTurn s).1 = .core c → step s = .fault .fatalState) ∧
    (∀ g, (nextTurn s).1 = .region g → step s = .fault .fatalState) ∧
    ((nextTurn s).1 = .tick → step s = .fault .fatalState) ∧
    (∀ t, step s = .next t → (nextTurn s).1 ≠ .event .powerOnReset → FatalState t)

/-- What reset leaves where the spec gives it (R45, R112, R271, R299, R332, R334, R479).

Where it goes past the words of the rules it follows the model's own choices of log entry 3. -/
def Obligations.ResetLeavesTheSpecValues : Prop :=
  (∀ n g, n < 24 → g < 32 → let r := vget Region.reset (dieAt State.reset n).regions g
    r.iext = 0x0001000100010001 ∧ r.frzlim = 0x00100000 ∧ r.state = 0 ∧ r.inv = none) ∧
  (∀ n q, n < 24 → q < 64 → let k := vget Queue.reset (dieAt State.reset n).queues q
    k.cfg.getLsbD 4 = false ∧ k.entries = [] ∧ k.done = 0 ∧ k.drops = 0 ∧ lqstat k = 0) ∧
  (∀ n k, n < 24 → k < 34 → vget Codec.reset (dieAt State.reset n).codec k = { cblk := 0, clossy := 0, cmaxe := 0x8000, cnonf := 0 }) ∧
  (∀ n, n < 24 → (dieAt State.reset n).xattr = 0 ∧ (dieAt State.reset n).lqage = 0) ∧
  (∀ n c, n < 24 → c < 33 → let k := vget Core.reset (dieAt State.reset n).cores c; k.rsbase = 0 ∧ k.sctr = 0) ∧
  (∀ n, n < 24 → (dieAt State.reset n).graphs = [] ∧ (dieAt State.reset n).prefs = [] ∧ (dieAt State.reset n).reds = []) ∧
  (∀ n b, n < 24 → b < 256 → vget Stream.idle (dieAt State.reset n).streams b = Stream.idle) ∧
  fstat State.reset = 0 ∧ State.reset.io.fatal = false ∧ MemoryOk State.reset ∧ L2Agrees State.reset

/-- A result writes its register and the pc of its core, or waits in its element until the cycle in which it is due, and touches nothing else of the module (R51, R74, R75, R87, R88, R111, R143).

Where it goes past the words of the rules it follows the model's own choices of log entries 1 and 100. -/
def Obligations.ResultsTouchOnlyWhatTheyName : Prop :=
  ∀ (s : State) (d : Reg) (v : X) (i : Instr) (fx : List Fx) (g k iter pos : Nat) (x : E32) (y : Line) (z : Wide) (f : Flags),
    let c := myCore s
    let mine := myRegion s
    let bytes := fun (t : State) => ∀ a pa, byteAt t a pa = byteAt s a pa
    let otherDies := fun (t : State) => ∀ n, n ≠ s.cur.val → dieAt t n = dieAt s n
    let onlyElems := fun (t : State) (g : Nat) => die t = { die s with regions := (die t).regions } ∧
      region t g = { region s g with elems := (region t g).elems } ∧ ∀ g', g' ≠ g → region t g' = region s g'
    let t := retX s d v
    let u := elemRetire i s fx
    let due := max ((region s mine).rc + latency i - 1) (myElem s).lastRet
    let record : Pending := ⟨(region s mine).rc, due, myIter s, myPos s, fx ++ if (header i).rstp = 1 ∧ myCol s = 15 then [.mark] else []⟩
    let e := elemAt s g k
    let r := region s g
    let becomes := fun (fx : Fx) (e' : Element) => ∃ w, applyFx s g k iter pos fx = .ok w ∧ elemAt w g k = e' ∧ SameOutside s w ∧ bytes w ∧
      otherDies w ∧ onlyElems w g ∧ ∀ k', k' ≠ k → elemAt w g k' = elemAt s g k'
    let words := (List.range 128).flatMap fun k => ((elemAt s g k).pend.filter fun p => decide (p.ret ≤ r.rc)).map fun p => (k, p)
    let left := modRegion s g fun q => { q with elems := q.elems.map fun e => { e with pend := e.pend.filter fun p => !decide (p.ret ≤ r.rc) } }
    let parts := words.map (fun w => (w, w.2.fx.filter isMma)) ++ words.map (fun w => (w, w.2.fx.filter fun fx => !isMma fx))
    (d.toNat < 32 →
      xreg t c d.toNat = (if d = 0 then 0 else v) ∧ (∀ r, r ≠ d.toNat → xreg t c r = xreg s c r) ∧
      core t c = { core s c with
        x := (core t c).x, pc := (core s c).pc + 1, supplied := [], issued := none
        awaits := if d = 0 then (core s c).awaits else (core s c).awaits.filter fun p => p.1 != d.toNat } ∧
      (∀ c', c' ≠ c → core t c' = core s c') ∧ die t = { die s with cores := (die t).cores } ∧ otherDies t ∧ SameOutside s t ∧ bytes t) ∧
    (elemAt u mine (myElemIx s) = { myElem s with pend := (myElem s).pend ++ [record], lastRet := due } ∧ SameOutside s u ∧ bytes u ∧
      otherDies u ∧ onlyElems u mine ∧ ∀ k', k' ≠ myElemIx s → elemAt u mine k' = elemAt s mine k') ∧
    (g < 32 → k < 128 →
      becomes (.scalar d x) (if d = 0 then e else { e with e := vset e.e d.toNat x }) ∧
      becomes (.vector d y) { e with v := vset e.v (d.toNat - 32) y } ∧
      becomes (.sum d z) { e with y := vset e.y (d.toNat - 48) z } ∧
      becomes (.flags f) { e with fflags := e.fflags ||| f }) ∧
    (∀ n, g < 32 → groupRegions s n = [g] → againRegions s n = [] → r.state = 1 →
      (r.faults = [] → r.freezeWanted = false → r.rmwBusy = [] → (∀ k < 128, ∀ w ∈ (elemAt s g k).wins, w.closed = false) →
        ∀ w, parts.foldlM (fun s q => q.2.foldlM (fun s fx => applyFx s g q.1.1 q.1.2.iter q.1.2.pos fx) s) left = .ok w →
          endGroup s n = modRegion w g nextCycle) ∧
      (r.faults ≠ [] → ∃ l, endGroup s n = discardGroup (modRegion s g fun q => { q with faults := r.faults ++ l }) n)) ∧
    ((nextCycle r).rc = r.rc + 1 ∧ (nextCycle r).cursor = 0 ∧ (nextCycle r).elems = r.elems) ∧
    (let v := freezeLimits s
     regionsTick s = (List.range 32).foldl recordLate ((List.range 32).foldl (fun s g => tryEnd s (Fin.ofNat 32 g))
       (arrivals s (networkStep (idleCycles ((activeGroups v).foldl endGroup v)))))) ∧
    (∀ s', nextTurn s = (.tick, s') → s.io.fatal = false →
      (s'.dies.toList.all dieReady = false → step s = .next (settleTurn s')) ∧
      (s'.dies.toList.all dieReady = true →
        let e := ackFrames (everyDie tickDie s')
        step s = .next (settleTurn (everyDie cues { e with
          clock := s'.clock + 1
          io := { e.io with phcs := e.io.phcs.map fun (n : Nat) => ((n : Int) + 10000 + e.io.slew).toNat } })))) ∧
    (let v := regionsTick s
     let w := judgeHome (die v).reds.length v
     tickDie s = lateEvictions (schedule (noteReady (graphEnds (modDie (watchdogs w) fun d =>
       countCycle { d with regions := d.regions.map freePorts })))))
end

