-- ==== Sys2Proof/Laws/Table.lean ====
section
/-! SUPPORT. The sparse tables: a read after a write, and the canonical form that every write keeps. -/

namespace Sys2Proof.Machine

namespace Table

/-- A table lies above a bound when its first number and the rest do. -/
theorem above_cons {α : Type} {lo k : Nat} {w : α} {t : Table α} :
    Table.above lo ((k, w) :: t) = true ↔ lo < k ∧ Table.above lo t = true := by simp [Table.above]

/-- Numbers above a bound are above any lower one. -/
theorem above_of_lt {α : Type} {lo hi : Nat} (t : Table α) (h : lo < hi) (ht : Table.above hi t = true) : Table.above lo t = true := by
  simp only [Table.above, List.all_eq_true, decide_eq_true_eq] at *
  intro p hp
  exact Nat.lt_trans h (ht p hp)

/-- Below every number of a table the default is read. -/
theorem get_of_above {α : Type} {dflt : α} {n : Nat} (t : Table α) (ht : Table.above n t = true) :
    Table.get dflt t n = dflt := by
  cases t with
  | nil => rfl
  | cons p t =>
    obtain ⟨k, w⟩ := p
    have := (above_cons.1 ht).1
    have h1 : ¬ n = k := by omega
    simp [Table.get, h1, this]

variable {α : Type} [DecidableEq α] {dflt : α}

/-- A write above a bound keeps the table above it. -/
theorem above_set {lo n : Nat} {v : α} (t : Table α) (hn : lo < n) (ht : Table.above lo t = true) :
    Table.above lo (Table.set dflt n v t) = true := by
  induction t with
  | nil => unfold Table.set; split <;> simp [Table.above, hn]
  | cons p t ih =>
    obtain ⟨k, w⟩ := p
    have h := above_cons.1 ht
    unfold Table.set
    split
    · split
      · exact ht
      · exact above_cons.2 ⟨hn, ht⟩
    · split
      · split
        · exact h.2
        · exact above_cons.2 ⟨hn, h.2⟩
      · exact above_cons.2 ⟨h.1, ih h.2⟩

/-- The canonical form is kept by every write. -/
theorem wf_set (n : Nat) (v : α) (t : Table α) (ht : Table.wf dflt t = true) : Table.wf dflt (Table.set dflt n v t) = true := by
  induction t with
  | nil => unfold Table.set; split <;> simp_all [Table.wf, Table.above]
  | cons p t ih =>
    obtain ⟨k, w⟩ := p
    simp only [Table.wf, Bool.and_eq_true, decide_eq_true_eq] at ht
    unfold Table.set
    split
    · rename_i hlt
      split
      · simp [Table.wf, ht.1.1, ht.1.2, ht.2]
      · rename_i hv
        have h1 : Table.above n ((k, w) :: t) = true := above_cons.2 ⟨hlt, above_of_lt t hlt ht.1.2⟩
        simp [Table.wf, ht.1.1, ht.1.2, ht.2, hv, h1]
    · split
      · rename_i hk
        subst hk
        split
        · exact ht.2
        · rename_i hv
          simp [Table.wf, hv, ht.1.2, ht.2]
      · rename_i h1 h2
        have : k < n := by omega
        simp [Table.wf, ht.1.1, ih ht.2, above_set t this ht.1.2]

/-- A number reads the value written at it. -/
theorem get_set_same (n : Nat) (v : α) (t : Table α) (ht : Table.wf dflt t = true) :
    Table.get dflt (Table.set dflt n v t) n = v := by
  induction t with
  | nil => unfold Table.set; split <;> simp_all [Table.get]
  | cons p t ih =>
    obtain ⟨k, w⟩ := p
    simp only [Table.wf, Bool.and_eq_true, decide_eq_true_eq] at ht
    unfold Table.set
    split
    · rename_i hlt
      have h1 : ¬ n = k := by omega
      split
      · rename_i hv
        simp [Table.get, h1, hlt, hv]
      · simp [Table.get]
    · split
      · rename_i hk
        subst hk
        split
        · rename_i hv
          rw [get_of_above t ht.1.2, hv]
        · simp [Table.get]
      · rename_i h1 h2
        have h3 : ¬ n = k := by omega
        simp [Table.get, h1, h3, ih ht.2]

/-- Every other number keeps its value. -/
theorem get_set_ne (n m : Nat) (v : α) (t : Table α) (ht : Table.wf dflt t = true) (h : m ≠ n) :
    Table.get dflt (Table.set dflt n v t) m = Table.get dflt t m := by
  induction t with
  | nil =>
    unfold Table.set
    split
    · rfl
    · simp [Table.get, h]
  | cons p t ih =>
    obtain ⟨k, w⟩ := p
    simp only [Table.wf, Bool.and_eq_true, decide_eq_true_eq] at ht
    unfold Table.set
    split
    · rename_i hlt
      split
      · rfl
      · by_cases hm : m < n
        · have h1 : ¬ m = k := by omega
          have h2 : m < k := by omega
          simp [Table.get, h, hm, h1, h2]
        · simp [Table.get, h, hm]
    · split
      · rename_i hk
        subst hk
        split
        · by_cases hm : m < n
          · simp [Table.get, h, hm, get_of_above t (above_of_lt t hm ht.1.2)]
          · simp [Table.get, h, hm]
        · simp [Table.get, h]
      · rename_i h1 h2
        by_cases hm : m = k
        · simp [Table.get, hm]
        · by_cases hl : m < k
          · simp [Table.get, hm, hl]
          · simp [Table.get, hm, hl, ih ht.2]

end Table

/-- The canonical form of memory is kept by a write of bytes. -/
theorem wf_setBytes (l : List Byte) (n : Nat) (t : Table Byte) (ht : Table.wf 0 t = true) :
    Table.wf 0 (Table.setBytes t n l) = true := by
  induction l generalizing n t with
  | nil => exact ht
  | cons b l ih => exact ih _ _ (Table.wf_set _ _ _ ht)

/-- A byte below the bytes written keeps its value. -/
theorem get_setBytes_below (l : List Byte) (n m : Nat) (t : Table Byte) (ht : Table.wf 0 t = true) (h : m < n) :
    Table.get 0 (Table.setBytes t n l) m = Table.get 0 t m := by
  induction l generalizing n t with
  | nil => rfl
  | cons b l ih =>
    exact (ih _ _ (Table.wf_set _ _ _ ht) (by omega)).trans (Table.get_set_ne _ _ _ _ ht (by omega))

/-- A byte above the bytes written keeps its value. -/
theorem get_setBytes_above (l : List Byte) (n m : Nat) (t : Table Byte) (ht : Table.wf 0 t = true) (h : n + l.length ≤ m) :
    Table.get 0 (Table.setBytes t n l) m = Table.get 0 t m := by
  induction l generalizing n t with
  | nil => rfl
  | cons b l ih =>
    simp only [List.length_cons] at h
    exact (ih _ _ (Table.wf_set _ _ _ ht) (by omega)).trans (Table.get_set_ne _ _ _ _ ht (by omega))

/-- The bytes written are the bytes read. -/
theorem bytes_setBytes (l : List Byte) (n : Nat) (t : Table Byte) (ht : Table.wf 0 t = true) :
    Table.bytes (Table.setBytes t n l) n l.length = l := by
  induction l generalizing n t with
  | nil => rfl
  | cons b l ih =>
    have h1 := ih (n + 1) (t.set 0 n b) (Table.wf_set _ _ _ ht)
    simp only [List.length_cons, Table.bytes, Table.setBytes, List.cons.injEq]
    refine ⟨?_, h1⟩
    rw [get_setBytes_below l (n + 1) n _ (Table.wf_set _ _ _ ht) (by omega), Table.get_set_same _ _ _ ht]

/-- Bytes that lie apart from the bytes written keep their values. -/
theorem bytes_setBytes_apart (l : List Byte) (n m len : Nat) (t : Table Byte) (ht : Table.wf 0 t = true)
    (h : m + len ≤ n ∨ n + l.length ≤ m) : Table.bytes (Table.setBytes t n l) m len = Table.bytes t m len := by
  induction len generalizing m with
  | zero => rfl
  | succ len ih =>
    simp only [Table.bytes, List.cons.injEq]
    refine ⟨?_, ih (m + 1) (by omega)⟩
    rcases h with h | h
    · exact get_setBytes_below l n m t ht (by omega)
    · exact get_setBytes_above l n m t ht h

@[simp] theorem length_natBytes (v n : Nat) : (natBytes v n).length = n := by
  induction n generalizing v with
  | zero => rfl
  | succ n ih => simp [natBytes, ih]
@[simp] theorem length_lineBytes (l : Line) : (lineBytes l).length = 64 := length_natBytes _ _
@[simp] theorem length_bytes (t : Table Byte) (n len : Nat) : (Table.bytes t n len).length = len := by
  induction len generalizing n with
  | zero => rfl
  | succ len ih => simp [Table.bytes, ih]

/-- The number of the low bytes of a number is the number, as far as those bytes reach. -/
theorem bytesNat_natBytes (v n : Nat) : bytesNat (natBytes v n) = v % 256 ^ n := by
  induction n generalizing v with
  | zero => simp [natBytes, bytesNat, Nat.mod_one]
  | succ n ih =>
    have h : (BitVec.ofNat 8 v).toNat = v % 256 := by simp
    simp only [natBytes, bytesNat, ih, h]
    rw [Nat.pow_succ, Nat.mul_comm (256 ^ n) 256, Nat.mod_mul]

/-- A line is the line of its bytes. -/
theorem bytesLine_lineBytes (l : Line) : bytesLine (lineBytes l) = l := by
  unfold bytesLine lineBytes
  rw [bytesNat_natBytes]
  apply BitVec.eq_of_toNat_eq
  have := l.isLt
  simp only [BitVec.toNat_ofNat]
  norm_num at this ⊢
  omega

end Sys2Proof.Machine
end

