-- ==== Sys2Proof/Laws/Cipher.lean ====
section
/-! SUPPORT. What the cipher of a slot can do: a data unit of whole blocks decrypts to what was encrypted (R265, R330). -/

set_option Elab.async false

namespace Sys2Proof.Machine

/-! ### The field of 2^8 elements -/

/-- The substitution of a byte is undone by its inverse. -/
theorem invSubByte_subByte (b : Byte) : invSubByte (subByte b) = b := by
  revert b
  decide +kernel

/-- A product is linear in its second factor. -/
theorem gfMul_xor (a x y : Byte) : gfMul a (x ^^^ y) = gfMul a x ^^^ gfMul a y := by
  suffices h : ∀ (l : List Nat) (p p' q : Byte),
      (l.foldl (fun (p : Byte × Byte) i =>
        (if (x ^^^ y).getLsbD i then p.1 ^^^ p.2 else p.1, (p.2 <<< 1) ^^^ (if p.2.getLsbD 7 then 0x1B else 0))) (p ^^^ p', q)).1 =
      (l.foldl (fun (p : Byte × Byte) i =>
        (if x.getLsbD i then p.1 ^^^ p.2 else p.1, (p.2 <<< 1) ^^^ (if p.2.getLsbD 7 then 0x1B else 0))) (p, q)).1 ^^^
      (l.foldl (fun (p : Byte × Byte) i =>
        (if y.getLsbD i then p.1 ^^^ p.2 else p.1, (p.2 <<< 1) ^^^ (if p.2.getLsbD 7 then 0x1B else 0))) (p', q)).1 by
    exact h (List.range 8) 0 0 a
  intro l
  induction l with
  | nil => intros; rfl
  | cons i l ih =>
    intro p p' q
    rw [List.foldl_cons, List.foldl_cons, List.foldl_cons, ← ih]
    congr 3
    have hq : p ^^^ q ^^^ (p' ^^^ q) = p ^^^ p' := by
      rw [show p ^^^ q ^^^ (p' ^^^ q) = p ^^^ p' ^^^ (q ^^^ q) by ac_rfl]; simp
    rw [BitVec.getLsbD_xor]
    cases x.getLsbD i <;> cases y.getLsbD i <;> simp [hq] <;> ac_rfl

/-- The circulant of 14, 11, 13, 9 times that of 2, 3, 1, 1 is the identity (FIPS 197). -/
theorem gfMul_circulant (b : Byte) :
    gfMul 14 (gfMul 2 b) ^^^ gfMul 11 (gfMul 1 b) ^^^ gfMul 13 (gfMul 1 b) ^^^ gfMul 9 (gfMul 3 b) = b ∧
    gfMul 14 (gfMul 3 b) ^^^ gfMul 11 (gfMul 2 b) ^^^ gfMul 13 (gfMul 1 b) ^^^ gfMul 9 (gfMul 1 b) = 0 ∧
    gfMul 14 (gfMul 1 b) ^^^ gfMul 11 (gfMul 3 b) ^^^ gfMul 13 (gfMul 2 b) ^^^ gfMul 9 (gfMul 1 b) = 0 ∧
    gfMul 14 (gfMul 1 b) ^^^ gfMul 11 (gfMul 1 b) ^^^ gfMul 13 (gfMul 3 b) ^^^ gfMul 9 (gfMul 2 b) = 0 := by
  revert b
  decide +kernel

/-! ### The parts of a round -/

@[simp] theorem xorBytes_length (a b : List Byte) : (xorBytes a b).length = min a.length b.length := List.length_zipWith

/-- Adding the same bytes twice changes nothing. -/
theorem xorBytes_cancel {a k : List Byte} (h : a.length ≤ k.length) : xorBytes (xorBytes a k) k = a := by
  induction a generalizing k with
  | nil => cases k <;> rfl
  | cons x a ih =>
    cases k with
    | nil => simp at h
    | cons y k =>
      have := ih (k := k) (by simpa using h)
      simp only [xorBytes, List.zipWith_cons_cons, BitVec.xor_assoc, BitVec.xor_self, BitVec.xor_zero] at this ⊢
      rw [this]

@[simp] theorem turnRows_length (k : Nat) (b : List Byte) : (turnRows k b).length = 16 := by simp [turnRows]
@[simp] theorem mixColumns_length (m b : List Byte) : (mixColumns m b).length = 16 := by simp [mixColumns]

/-- A block of 16 bytes, written out. -/
theorem block_eq {b : List Byte} (h : b.length = 16) : b = (List.range 16).map fun i => nth 0 b i :=
  List.ext_getElem (by simp [h]) fun i h1 h2 => by simp [nth, h1]

theorem nth_block (f : Nat → Byte) (i : Nat) (h : i < 16) : nth 0 ((List.range 16).map f) i = f i := by simp [nth, h]

/-- Three more turns of the rows undo one. -/
theorem turnRows_undo {b : List Byte} (h : b.length = 16) : turnRows 3 (turnRows 1 b) = b := by
  rw [block_eq h]
  rfl

/-- A column that the circulant of 2, 3, 1, 1 and then that of 14, 11, 13, 9 multiply: its first byte. -/
theorem column_undo (x0 x1 x2 x3 : Byte) :
    gfMul 14 (gfMul 2 x0 ^^^ gfMul 3 x1 ^^^ gfMul 1 x2 ^^^ gfMul 1 x3) ^^^
      gfMul 11 (gfMul 1 x0 ^^^ gfMul 2 x1 ^^^ gfMul 3 x2 ^^^ gfMul 1 x3) ^^^
      gfMul 13 (gfMul 1 x0 ^^^ gfMul 1 x1 ^^^ gfMul 2 x2 ^^^ gfMul 3 x3) ^^^
      gfMul 9 (gfMul 3 x0 ^^^ gfMul 1 x1 ^^^ gfMul 1 x2 ^^^ gfMul 2 x3) = x0 := by
  obtain ⟨h0, -, -, -⟩ := gfMul_circulant x0
  obtain ⟨-, h1, -, -⟩ := gfMul_circulant x1
  obtain ⟨-, -, h2, -⟩ := gfMul_circulant x2
  obtain ⟨-, -, -, h3⟩ := gfMul_circulant x3
  refine Eq.trans ?_ ((congrArg₂ (· ^^^ ·) (congrArg₂ (· ^^^ ·) (congrArg₂ (· ^^^ ·) h0 h1) h2) h3).trans (by simp))
  simp only [gfMul_xor]
  ac_rfl

/-- Its byte 1. -/
theorem column_undo_1 (x0 x1 x2 x3 : Byte) :
    gfMul 9 (gfMul 2 x0 ^^^ gfMul 3 x1 ^^^ gfMul 1 x2 ^^^ gfMul 1 x3) ^^^
      gfMul 14 (gfMul 1 x0 ^^^ gfMul 2 x1 ^^^ gfMul 3 x2 ^^^ gfMul 1 x3) ^^^
      gfMul 11 (gfMul 1 x0 ^^^ gfMul 1 x1 ^^^ gfMul 2 x2 ^^^ gfMul 3 x3) ^^^
      gfMul 13 (gfMul 3 x0 ^^^ gfMul 1 x1 ^^^ gfMul 1 x2 ^^^ gfMul 2 x3) = x1 := by
  refine Eq.trans ?_ (column_undo x1 x2 x3 x0)
  simp only [gfMul_xor]
  ac_rfl

/-- Its byte 2. -/
theorem column_undo_2 (x0 x1 x2 x3 : Byte) :
    gfMul 13 (gfMul 2 x0 ^^^ gfMul 3 x1 ^^^ gfMul 1 x2 ^^^ gfMul 1 x3) ^^^
      gfMul 9 (gfMul 1 x0 ^^^ gfMul 2 x1 ^^^ gfMul 3 x2 ^^^ gfMul 1 x3) ^^^
      gfMul 14 (gfMul 1 x0 ^^^ gfMul 1 x1 ^^^ gfMul 2 x2 ^^^ gfMul 3 x3) ^^^
      gfMul 11 (gfMul 3 x0 ^^^ gfMul 1 x1 ^^^ gfMul 1 x2 ^^^ gfMul 2 x3) = x2 := by
  refine Eq.trans ?_ (column_undo x2 x3 x0 x1)
  simp only [gfMul_xor]
  ac_rfl

/-- Its byte 3. -/
theorem column_undo_3 (x0 x1 x2 x3 : Byte) :
    gfMul 11 (gfMul 2 x0 ^^^ gfMul 3 x1 ^^^ gfMul 1 x2 ^^^ gfMul 1 x3) ^^^
      gfMul 13 (gfMul 1 x0 ^^^ gfMul 2 x1 ^^^ gfMul 3 x2 ^^^ gfMul 1 x3) ^^^
      gfMul 9 (gfMul 1 x0 ^^^ gfMul 1 x1 ^^^ gfMul 2 x2 ^^^ gfMul 3 x3) ^^^
      gfMul 14 (gfMul 3 x0 ^^^ gfMul 1 x1 ^^^ gfMul 1 x2 ^^^ gfMul 2 x3) = x3 := by
  refine Eq.trans ?_ (column_undo x3 x0 x1 x2)
  simp only [gfMul_xor]
  ac_rfl

/-- The multiplication of the columns, written out. -/
theorem mixColumns_eq (m b : List Byte) : mixColumns m b = (List.range 4).flatMap fun c =>
    let x := fun j => nth 0 b (c * 4 + j)
    let q := fun n => nth 0 m n
    [gfMul (q 0) (x 0) ^^^ gfMul (q 1) (x 1) ^^^ gfMul (q 2) (x 2) ^^^ gfMul (q 3) (x 3),
      gfMul (q 3) (x 0) ^^^ gfMul (q 0) (x 1) ^^^ gfMul (q 1) (x 2) ^^^ gfMul (q 2) (x 3),
      gfMul (q 2) (x 0) ^^^ gfMul (q 3) (x 1) ^^^ gfMul (q 0) (x 2) ^^^ gfMul (q 1) (x 3),
      gfMul (q 1) (x 0) ^^^ gfMul (q 2) (x 1) ^^^ gfMul (q 3) (x 2) ^^^ gfMul (q 0) (x 3)] := by
  simp [mixColumns, List.range_succ, BitVec.zero_xor]

/-- The inverse of the multiplication of the columns. -/
theorem mixColumns_undo {b : List Byte} (h : b.length = 16) : mixColumns [14, 11, 13, 9] (mixColumns [2, 3, 1, 1] b) = b := by
  refine Eq.trans ?_ (block_eq h).symm
  rw [mixColumns_eq, mixColumns_eq]
  simp only [List.range_succ, List.range_zero, List.nil_append, List.cons_append, List.flatMap_cons, List.flatMap_nil, List.append_nil,
    List.map_cons, List.map_nil, nth, List.getD_cons_zero, List.getD_cons_succ, Nat.zero_mul, Nat.zero_add, Nat.reduceMul, Nat.reduceAdd,
    column_undo, column_undo_1, column_undo_2, column_undo_3]

/-! ### AES-256 -/

/-- Every word of the schedule has four bytes. -/
theorem keyWords_length (key : List Byte) (h : key.length = 32) : (keyWords key).length = 60 ∧ ∀ w ∈ keyWords key, w.length = 4 := by
  unfold keyWords
  suffices H : ∀ (n : Nat) (f : List (List Byte) → Nat → List Byte), (∀ acc i, (∀ w ∈ acc, w.length = 4) → 8 ≤ acc.length → (f acc i).length = 4) →
      ∀ acc : List (List Byte), acc.length = 8 → (∀ w ∈ acc, w.length = 4) →
        ((List.range n).foldl (fun acc i => f acc i :: acc) acc).length = n + 8 ∧
          ∀ w ∈ (List.range n).foldl (fun acc i => f acc i :: acc) acc, w.length = 4 by
    refine H 52 (fun acc n =>
      let i := n + 8
      let t := acc.headD []
      let t := if i % 8 == 0 then xorBytes ((t.drop 1 ++ t.take 1).map subByte) [BitVec.ofNat 8 (2 ^ (i / 8 - 1)), 0, 0, 0]
        else if i % 8 == 4 then t.map subByte else t
      xorBytes (nth [] acc 7) t) ?_ _ (by simp) ?_
    · intro acc i hw hl
      have h0 : (acc.headD []).length = 4 := by
        cases acc with
        | nil => simp at hl
        | cons x l => exact hw x (by simp)
      generalize acc.headD [] = u at h0
      have h7 : (nth [] acc 7).length = 4 := by
        have : 7 < acc.length := by omega
        simpa [nth, this] using hw _ (List.getElem_mem this)
      dsimp only
      split
      · simp [h0, h7]
      · split <;> simp [h0, h7]
    · intro w hw
      simp only [List.mem_reverse, List.mem_map, List.mem_range] at hw
      obtain ⟨i, hi, rfl⟩ := hw
      simp [h]
      omega
  intro n f hf acc hl hw
  induction n with
  | zero => simpa [hl] using hw
  | succ n ih =>
    rw [List.range_succ, List.foldl_append]
    refine ⟨by simp [ih.1], fun w hm => ?_⟩
    rcases List.mem_cons.mp hm with rfl | hm
    · exact hf _ _ ih.2 (by omega)
    · exact ih.2 w hm

/-- Every round key has sixteen bytes. -/
theorem roundKeys_length (key : List Byte) (h : key.length = 32) (n : Nat) (hn : n < 15) : (nth [] (roundKeys key) n).length = 16 := by
  obtain ⟨hl, hw⟩ := keyWords_length key h
  have hk : nth [] (roundKeys key) n = (((keyWords key).reverse.drop (4 * n)).take 4).flatten := by simp [nth, roundKeys, hn]
  rw [hk, List.length_flatten]
  have hlen : (((keyWords key).reverse.drop (4 * n)).take 4).length = 4 := by simp [hl]; omega
  have hall : ∀ m ∈ (((keyWords key).reverse.drop (4 * n)).take 4).map List.length, m = 4 := by
    intro m hm
    obtain ⟨w, hw', rfl⟩ := List.mem_map.mp hm
    exact hw w (List.mem_reverse.mp (List.mem_of_mem_drop (List.mem_of_mem_take hw')))
  rw [List.eq_replicate_of_mem hall, List.length_map, hlen]
  rfl

/-- The round of an encryption under a round key, and the step of a decryption that undoes it. -/
theorem round_undo {b k : List Byte} (hb : b.length = 16) (hk : k.length = 16) :
    (turnRows 3 (mixColumns [14, 11, 13, 9] (xorBytes (xorBytes (mixColumns [2, 3, 1, 1] (turnRows 1 (b.map subByte))) k) k))).map invSubByte = b := by
  rw [xorBytes_cancel (by simp [hk]), mixColumns_undo (by simp), turnRows_undo (by simp [hb])]
  simp [List.map_map, Function.comp_def, invSubByte_subByte]

/-- Steps undone in the reverse order. -/
theorem foldl_undo {α : Type} (P : α → Prop) (e d : Nat → α → α) (b : α) (hb : P b) (n : Nat)
    (he : ∀ i, i < n → ∀ x, P x → P (e (i + 1) x) ∧ d (i + 1) (e (i + 1) x) = x) :
    P ((List.range n).foldl (fun b i => e (i + 1) b) b) ∧
      (List.range n).foldl (fun b i => d (n - i) b) ((List.range n).foldl (fun b i => e (i + 1) b) b) = b := by
  induction n with
  | zero => exact ⟨hb, rfl⟩
  | succ n ih =>
    obtain ⟨hp, hd⟩ := ih fun i hi => he i (by omega)
    obtain ⟨hp', hd'⟩ := he n (by omega) _ hp
    rw [List.range_succ, List.foldl_append, ← List.range_succ]
    refine ⟨hp', ?_⟩
    rw [List.range_succ_eq_map, List.foldl_cons, List.foldl_map]
    simp only [List.foldl_cons, List.foldl_nil, Nat.sub_zero, Nat.succ_eq_add_one, Nat.add_sub_add_right] at hd' ⊢
    rw [hd']
    exact hd

/-- A block decrypts to what was encrypted. -/
theorem aesDecrypt_aesEncrypt {ks : List (List Byte)} (hk : ∀ n, n < 15 → (nth [] ks n).length = 16) {b : List Byte} (hb : b.length = 16) :
    aesDecrypt ks (aesEncrypt ks b) = b ∧ (aesEncrypt ks b).length = 16 := by
  have hx : (xorBytes b (nth [] ks 0)).length = 16 := by simp [hb, hk]
  obtain ⟨hp, hu⟩ := foldl_undo (fun b : List Byte => b.length = 16)
    (fun n b => xorBytes (mixColumns [2, 3, 1, 1] (turnRows 1 (b.map subByte))) (nth [] ks n))
    (fun n b => (turnRows 3 (mixColumns [14, 11, 13, 9] (xorBytes b (nth [] ks n)))).map invSubByte) _ hx 13
    (fun i hi x hx => ⟨by simp [hk (i + 1) (by omega)], round_undo hx (hk (i + 1) (by omega))⟩)
  have hm : (turnRows 3 (xorBytes (aesEncrypt ks b) (nth [] ks 14))).map invSubByte =
      (List.range 13).foldl (fun b n => xorBytes (mixColumns [2, 3, 1, 1] (turnRows 1 (b.map subByte))) (nth [] ks (n + 1)))
        (xorBytes b (nth [] ks 0)) := by
    rw [aesEncrypt]
    rw [xorBytes_cancel (by simp [hk]), turnRows_undo (by rw [List.length_map]; exact hp)]
    simp only [List.map_map, Function.comp_def, invSubByte_subByte]
    exact List.map_id' _
  refine ⟨?_, by simp [aesEncrypt, hk]⟩
  unfold aesDecrypt
  rw [hm]
  dsimp only
  rw [hu, xorBytes_cancel (by simp [hb, hk])]

/-! ### A data unit -/

/-- The blocks of a data unit, encrypted and then decrypted. -/
theorem xtsBlocks_undo {f g : List Byte → List Byte} (h : ∀ b : List Byte, b.length = 16 → f (g b) = b ∧ (g b).length = 16) (n : Nat) (t : BitVec 128)
    (data : List Byte) (hd : data.length = 16 * n) :
    (xtsBlocks g n t data).length = 16 * n ∧ xtsBlocks f n t (xtsBlocks g n t data) = data := by
  induction n generalizing t data with
  | zero => simpa [xtsBlocks] using (List.length_eq_zero_iff.mp hd).symm
  | succ n ih =>
    obtain ⟨hl, hu⟩ := ih (xtsNext t) (data.drop 16) (by simp; omega)
    have hb : (xorBytes (data.take 16) (natBytes t.toNat 16)).length = 16 := by simp; omega
    obtain ⟨hg, hgl⟩ := h _ hb
    have hx : (xorBytes (g (xorBytes (data.take 16) (natBytes t.toNat 16))) (natBytes t.toNat 16)).length = 16 := by simp [hgl]
    simp only [xtsBlocks]
    refine ⟨by simp [hl, hgl]; omega, ?_⟩
    rw [List.take_left' hx, List.drop_left' hx, hu, xorBytes_cancel (by simp [hgl]), hg, xorBytes_cancel (by simp), List.take_append_drop]

/-- A data unit of whole blocks decrypts to what was encrypted (R265, R330). -/
theorem xtsUnit_undo (key : BitVec 512) (tweak : Nat) (data : List Byte) (hd : 16 ∣ data.length) :
    (xtsUnit false key tweak data).length = data.length ∧ xtsUnit true key tweak (xtsUnit false key tweak data) = data := by
  obtain ⟨n, hn⟩ := hd
  have hk := roundKeys_length ((lineBytes key).take 32) (by simp [lineBytes])
  obtain ⟨hl, hu⟩ := xtsBlocks_undo (fun b hb => aesDecrypt_aesEncrypt hk hb) n
    (BitVec.ofNat 128 (bytesNat (aesEncrypt (roundKeys ((lineBytes key).drop 32)) (natBytes tweak 16)))) data hn
  simp only [xtsUnit, Bool.false_eq_true, if_false, if_true, hl, Nat.mul_div_cancel_left n (show 0 < 16 by omega), hn]
  exact ⟨trivial, hu⟩

/-- What a slot is sealed with unseals, of a whole number of blocks (R265). -/
theorem unsealBytes_sealBytes (s : State) (key ln : Nat) (data : List Byte) (hd : key = 0 ∨ 16 ∣ data.length) :
    unsealBytes s key ln (sealBytes s key ln data) = data := by
  unfold unsealBytes sealBytes
  split
  · rfl
  · rename_i h
    exact (xtsUnit_undo _ _ _ (hd.resolve_left (by simpa using h))).2

end Sys2Proof.Machine
end

