-- ==== Sys2Proof/Laws/Encoding.lean ====
section
/-! SUPPORT. The fields of a word put together from a header and a body (Tables 3-1, 3-3 to 3-17), and what the decoder does
with such a word. -/

namespace Sys2Proof.Laws

/-- A field above the lower part of an appended pair lies in the upper part. -/
theorem extract_upper {n m : Nat} (x : BitVec n) (y : BitVec m) (s w : Nat) (h : m ≤ s) :
    (x ++ y).extractLsb' s w = x.extractLsb' (s - m) w := by
  apply BitVec.eq_of_getLsbD_eq
  intro i hi
  have h1 : ¬ s + i < m := by omega
  have h2 : s - m + i = s + i - m := by omega
  simp [BitVec.getLsbD_append, hi, h1, h2]

/-- A field within the lower part of an appended pair. -/
theorem extract_lower {n m : Nat} (x : BitVec n) (y : BitVec m) (s w : Nat) (h : s + w ≤ m) :
    (x ++ y).extractLsb' s w = y.extractLsb' s w := by
  apply BitVec.eq_of_getLsbD_eq
  intro i hi
  have h1 : s + i < m := by omega
  simp [BitVec.getLsbD_append, hi, h1]

/-- The whole of a vector as a field. -/
theorem extract_all {n : Nat} (x : BitVec n) : x.extractLsb' 0 n = x := by
  apply BitVec.eq_of_getLsbD_eq
  intro i hi
  simp [hi]

/-- A field of the body of a word. -/
theorem wordOf_body (fmt : BitVec 4) (op : BitVec 6) (h : Hdr) (body : BitVec 65) (s w : Nat) (hs : s + w ≤ 65) :
    (wordOf fmt op h body).extractLsb' s w = body.extractLsb' s w :=
  extract_lower _ body s w hs

/-- Field fmt of a word. -/
@[simp] theorem wordOf_fmt (fmt : BitVec 4) (op : BitVec 6) (h : Hdr) (body : BitVec 65) :
    (wordOf fmt op h body).extractLsb' 76 4 = fmt :=
  ((extract_upper (m := 65) _ _ 76 4 (by decide)).trans
    ((extract_upper (m := 1) _ _ 11 4 (by decide)).trans
    ((extract_upper (m := 1) _ _ 10 4 (by decide)).trans
    ((extract_upper (m := 3) _ _ 9 4 (by decide)).trans
    ((extract_upper (m := 6) _ _ 6 4 (by decide)).trans
    (extract_all _))))))

/-- Field op of a word. -/
@[simp] theorem wordOf_op (fmt : BitVec 4) (op : BitVec 6) (h : Hdr) (body : BitVec 65) :
    (wordOf fmt op h body).extractLsb' 70 6 = op :=
  ((extract_upper (m := 65) _ _ 70 6 (by decide)).trans
    ((extract_upper (m := 1) _ _ 5 6 (by decide)).trans
    ((extract_upper (m := 1) _ _ 4 6 (by decide)).trans
    ((extract_upper (m := 3) _ _ 3 6 (by decide)).trans
    ((extract_lower (m := 6) _ _ 0 6 (by decide)).trans
    (extract_all _))))))

/-- Field h.qsel of a word. -/
@[simp] theorem wordOf_qsel (fmt : BitVec 4) (op : BitVec 6) (h : Hdr) (body : BitVec 65) :
    (wordOf fmt op h body).extractLsb' 67 3 = h.qsel :=
  ((extract_upper (m := 65) _ _ 67 3 (by decide)).trans
    ((extract_upper (m := 1) _ _ 2 3 (by decide)).trans
    ((extract_upper (m := 1) _ _ 1 3 (by decide)).trans
    ((extract_lower (m := 3) _ _ 0 3 (by decide)).trans
    (extract_all _)))))

/-- Field h.qneg of a word. -/
@[simp] theorem wordOf_qneg (fmt : BitVec 4) (op : BitVec 6) (h : Hdr) (body : BitVec 65) :
    (wordOf fmt op h body).extractLsb' 66 1 = h.qneg :=
  ((extract_upper (m := 65) _ _ 66 1 (by decide)).trans
    ((extract_upper (m := 1) _ _ 1 1 (by decide)).trans
    ((extract_lower (m := 1) _ _ 0 1 (by decide)).trans
    (extract_all _))))

/-- Field h.rstp of a word. -/
@[simp] theorem wordOf_rstp (fmt : BitVec 4) (op : BitVec 6) (h : Hdr) (body : BitVec 65) :
    (wordOf fmt op h body).extractLsb' 65 1 = h.rstp :=
  ((extract_upper (m := 65) _ _ 65 1 (by decide)).trans
    ((extract_lower (m := 1) _ _ 0 1 (by decide)).trans
    (extract_all _)))

/-- The header of a word. -/
@[simp] theorem hdrOf_wordOf (fmt : BitVec 4) (op : BitVec 6) (h : Hdr) (body : BitVec 65) : hdrOf (wordOf fmt op h body) = h := by
  simp only [hdrOf, wordOf_qsel, wordOf_qneg, wordOf_rstp]

/-- Field d of a word of format SYS. -/
@[simp] theorem bodySys_d (fm : BitVec 4) (oc : BitVec 6) (h : Hdr) (d a b : Reg) (sr : BitVec 12) (imm : BitVec 32) :
    (wordOf fm oc h (bodySys d a b sr imm)).extractLsb' 59 6 = d :=
  (wordOf_body _ _ _ _ 59 6 (by decide)).trans
    ((extract_upper (m := 3) _ _ 59 6 (by decide)).trans
    ((extract_upper (m := 32) _ _ 56 6 (by decide)).trans
    ((extract_upper (m := 12) _ _ 24 6 (by decide)).trans
    ((extract_upper (m := 6) _ _ 12 6 (by decide)).trans
    ((extract_upper (m := 6) _ _ 6 6 (by decide)).trans
    (extract_all _))))))

/-- Field a of a word of format SYS. -/
@[simp] theorem bodySys_a (fm : BitVec 4) (oc : BitVec 6) (h : Hdr) (d a b : Reg) (sr : BitVec 12) (imm : BitVec 32) :
    (wordOf fm oc h (bodySys d a b sr imm)).extractLsb' 53 6 = a :=
  (wordOf_body _ _ _ _ 53 6 (by decide)).trans
    ((extract_upper (m := 3) _ _ 53 6 (by decide)).trans
    ((extract_upper (m := 32) _ _ 50 6 (by decide)).trans
    ((extract_upper (m := 12) _ _ 18 6 (by decide)).trans
    ((extract_upper (m := 6) _ _ 6 6 (by decide)).trans
    ((extract_lower (m := 6) _ _ 0 6 (by decide)).trans
    (extract_all _))))))

/-- Field b of a word of format SYS. -/
@[simp] theorem bodySys_b (fm : BitVec 4) (oc : BitVec 6) (h : Hdr) (d a b : Reg) (sr : BitVec 12) (imm : BitVec 32) :
    (wordOf fm oc h (bodySys d a b sr imm)).extractLsb' 47 6 = b :=
  (wordOf_body _ _ _ _ 47 6 (by decide)).trans
    ((extract_upper (m := 3) _ _ 47 6 (by decide)).trans
    ((extract_upper (m := 32) _ _ 44 6 (by decide)).trans
    ((extract_upper (m := 12) _ _ 12 6 (by decide)).trans
    ((extract_lower (m := 6) _ _ 0 6 (by decide)).trans
    (extract_all _)))))

/-- Field sr of a word of format SYS. -/
@[simp] theorem bodySys_sr (fm : BitVec 4) (oc : BitVec 6) (h : Hdr) (d a b : Reg) (sr : BitVec 12) (imm : BitVec 32) :
    (wordOf fm oc h (bodySys d a b sr imm)).extractLsb' 35 12 = sr :=
  (wordOf_body _ _ _ _ 35 12 (by decide)).trans
    ((extract_upper (m := 3) _ _ 35 12 (by decide)).trans
    ((extract_upper (m := 32) _ _ 32 12 (by decide)).trans
    ((extract_lower (m := 12) _ _ 0 12 (by decide)).trans
    (extract_all _))))

/-- Field imm of a word of format SYS. -/
@[simp] theorem bodySys_imm (fm : BitVec 4) (oc : BitVec 6) (h : Hdr) (d a b : Reg) (sr : BitVec 12) (imm : BitVec 32) :
    (wordOf fm oc h (bodySys d a b sr imm)).extractLsb' 3 32 = imm :=
  (wordOf_body _ _ _ _ 3 32 (by decide)).trans
    ((extract_upper (m := 3) _ _ 3 32 (by decide)).trans
    ((extract_lower (m := 32) _ _ 0 32 (by decide)).trans
    (extract_all _)))

/-- Field d of a word of format II. -/
@[simp] theorem bodyIi_d (fm : BitVec 4) (oc : BitVec 6) (h : Hdr) (d a : Reg) (u : BitVec 1) (cc : BitVec 3) (imm : BitVec 32) :
    (wordOf fm oc h (bodyIi d a u cc imm)).extractLsb' 59 6 = d :=
  (wordOf_body _ _ _ _ 59 6 (by decide)).trans
    ((extract_upper (m := 32) _ _ 59 6 (by decide)).trans
    ((extract_upper (m := 17) _ _ 27 6 (by decide)).trans
    ((extract_upper (m := 3) _ _ 10 6 (by decide)).trans
    ((extract_upper (m := 1) _ _ 7 6 (by decide)).trans
    ((extract_upper (m := 6) _ _ 6 6 (by decide)).trans
    (extract_all _))))))

/-- Field a of a word of format II. -/
@[simp] theorem bodyIi_a (fm : BitVec 4) (oc : BitVec 6) (h : Hdr) (d a : Reg) (u : BitVec 1) (cc : BitVec 3) (imm : BitVec 32) :
    (wordOf fm oc h (bodyIi d a u cc imm)).extractLsb' 53 6 = a :=
  (wordOf_body _ _ _ _ 53 6 (by decide)).trans
    ((extract_upper (m := 32) _ _ 53 6 (by decide)).trans
    ((extract_upper (m := 17) _ _ 21 6 (by decide)).trans
    ((extract_upper (m := 3) _ _ 4 6 (by decide)).trans
    ((extract_upper (m := 1) _ _ 1 6 (by decide)).trans
    ((extract_lower (m := 6) _ _ 0 6 (by decide)).trans
    (extract_all _))))))

/-- Field u of a word of format II. -/
@[simp] theorem bodyIi_u (fm : BitVec 4) (oc : BitVec 6) (h : Hdr) (d a : Reg) (u : BitVec 1) (cc : BitVec 3) (imm : BitVec 32) :
    (wordOf fm oc h (bodyIi d a u cc imm)).extractLsb' 52 1 = u :=
  (wordOf_body _ _ _ _ 52 1 (by decide)).trans
    ((extract_upper (m := 32) _ _ 52 1 (by decide)).trans
    ((extract_upper (m := 17) _ _ 20 1 (by decide)).trans
    ((extract_upper (m := 3) _ _ 3 1 (by decide)).trans
    ((extract_lower (m := 1) _ _ 0 1 (by decide)).trans
    (extract_all _)))))

/-- Field cc of a word of format II. -/
@[simp] theorem bodyIi_cc (fm : BitVec 4) (oc : BitVec 6) (h : Hdr) (d a : Reg) (u : BitVec 1) (cc : BitVec 3) (imm : BitVec 32) :
    (wordOf fm oc h (bodyIi d a u cc imm)).extractLsb' 49 3 = cc :=
  (wordOf_body _ _ _ _ 49 3 (by decide)).trans
    ((extract_upper (m := 32) _ _ 49 3 (by decide)).trans
    ((extract_upper (m := 17) _ _ 17 3 (by decide)).trans
    ((extract_lower (m := 3) _ _ 0 3 (by decide)).trans
    (extract_all _))))

/-- Field imm of a word of format II. -/
@[simp] theorem bodyIi_imm (fm : BitVec 4) (oc : BitVec 6) (h : Hdr) (d a : Reg) (u : BitVec 1) (cc : BitVec 3) (imm : BitVec 32) :
    (wordOf fm oc h (bodyIi d a u cc imm)).extractLsb' 0 32 = imm :=
  (wordOf_body _ _ _ _ 0 32 (by decide)).trans
    ((extract_lower (m := 32) _ _ 0 32 (by decide)).trans
    (extract_all _))

/-- Field d of a word of format IR. -/
@[simp] theorem bodyIr_d (fm : BitVec 4) (oc : BitVec 6) (h : Hdr) (d a b c : Reg) (u : BitVec 1) (cc : BitVec 3) (pos len : BitVec 6) :
    (wordOf fm oc h (bodyIr d a b c u cc pos len)).extractLsb' 59 6 = d :=
  (wordOf_body _ _ _ _ 59 6 (by decide)).trans
    ((extract_upper (m := 25) _ _ 59 6 (by decide)).trans
    ((extract_upper (m := 6) _ _ 34 6 (by decide)).trans
    ((extract_upper (m := 6) _ _ 28 6 (by decide)).trans
    ((extract_upper (m := 3) _ _ 22 6 (by decide)).trans
    ((extract_upper (m := 1) _ _ 19 6 (by decide)).trans
    ((extract_upper (m := 6) _ _ 18 6 (by decide)).trans
    ((extract_upper (m := 6) _ _ 12 6 (by decide)).trans
    ((extract_upper (m := 6) _ _ 6 6 (by decide)).trans
    (extract_all _)))))))))

/-- Field a of a word of format IR. -/
@[simp] theorem bodyIr_a (fm : BitVec 4) (oc : BitVec 6) (h : Hdr) (d a b c : Reg) (u : BitVec 1) (cc : BitVec 3) (pos len : BitVec 6) :
    (wordOf fm oc h (bodyIr d a b c u cc pos len)).extractLsb' 53 6 = a :=
  (wordOf_body _ _ _ _ 53 6 (by decide)).trans
    ((extract_upper (m := 25) _ _ 53 6 (by decide)).trans
    ((extract_upper (m := 6) _ _ 28 6 (by decide)).trans
    ((extract_upper (m := 6) _ _ 22 6 (by decide)).trans
    ((extract_upper (m := 3) _ _ 16 6 (by decide)).trans
    ((extract_upper (m := 1) _ _ 13 6 (by decide)).trans
    ((extract_upper (m := 6) _ _ 12 6 (by decide)).trans
    ((extract_upper (m := 6) _ _ 6 6 (by decide)).trans
    ((extract_lower (m := 6) _ _ 0 6 (by decide)).trans
    (extract_all _)))))))))

/-- Field b of a word of format IR. -/
@[simp] theorem bodyIr_b (fm : BitVec 4) (oc : BitVec 6) (h : Hdr) (d a b c : Reg) (u : BitVec 1) (cc : BitVec 3) (pos len : BitVec 6) :
    (wordOf fm oc h (bodyIr d a b c u cc pos len)).extractLsb' 47 6 = b :=
  (wordOf_body _ _ _ _ 47 6 (by decide)).trans
    ((extract_upper (m := 25) _ _ 47 6 (by decide)).trans
    ((extract_upper (m := 6) _ _ 22 6 (by decide)).trans
    ((extract_upper (m := 6) _ _ 16 6 (by decide)).trans
    ((extract_upper (m := 3) _ _ 10 6 (by decide)).trans
    ((extract_upper (m := 1) _ _ 7 6 (by decide)).trans
    ((extract_upper (m := 6) _ _ 6 6 (by decide)).trans
    ((extract_lower (m := 6) _ _ 0 6 (by decide)).trans
    (extract_all _))))))))

/-- Field c of a word of format IR. -/
@[simp] theorem bodyIr_c (fm : BitVec 4) (oc : BitVec 6) (h : Hdr) (d a b c : Reg) (u : BitVec 1) (cc : BitVec 3) (pos len : BitVec 6) :
    (wordOf fm oc h (bodyIr d a b c u cc pos len)).extractLsb' 41 6 = c :=
  (wordOf_body _ _ _ _ 41 6 (by decide)).trans
    ((extract_upper (m := 25) _ _ 41 6 (by decide)).trans
    ((extract_upper (m := 6) _ _ 16 6 (by decide)).trans
    ((extract_upper (m := 6) _ _ 10 6 (by decide)).trans
    ((extract_upper (m := 3) _ _ 4 6 (by decide)).trans
    ((extract_upper (m := 1) _ _ 1 6 (by decide)).trans
    ((extract_lower (m := 6) _ _ 0 6 (by decide)).trans
    (extract_all _)))))))

/-- Field u of a word of format IR. -/
@[simp] theorem bodyIr_u (fm : BitVec 4) (oc : BitVec 6) (h : Hdr) (d a b c : Reg) (u : BitVec 1) (cc : BitVec 3) (pos len : BitVec 6) :
    (wordOf fm oc h (bodyIr d a b c u cc pos len)).extractLsb' 40 1 = u :=
  (wordOf_body _ _ _ _ 40 1 (by decide)).trans
    ((extract_upper (m := 25) _ _ 40 1 (by decide)).trans
    ((extract_upper (m := 6) _ _ 15 1 (by decide)).trans
    ((extract_upper (m := 6) _ _ 9 1 (by decide)).trans
    ((extract_upper (m := 3) _ _ 3 1 (by decide)).trans
    ((extract_lower (m := 1) _ _ 0 1 (by decide)).trans
    (extract_all _))))))

/-- Field cc of a word of format IR. -/
@[simp] theorem bodyIr_cc (fm : BitVec 4) (oc : BitVec 6) (h : Hdr) (d a b c : Reg) (u : BitVec 1) (cc : BitVec 3) (pos len : BitVec 6) :
    (wordOf fm oc h (bodyIr d a b c u cc pos len)).extractLsb' 37 3 = cc :=
  (wordOf_body _ _ _ _ 37 3 (by decide)).trans
    ((extract_upper (m := 25) _ _ 37 3 (by decide)).trans
    ((extract_upper (m := 6) _ _ 12 3 (by decide)).trans
    ((extract_upper (m := 6) _ _ 6 3 (by decide)).trans
    ((extract_lower (m := 3) _ _ 0 3 (by decide)).trans
    (extract_all _)))))

/-- Field pos of a word of format IR. -/
@[simp] theorem bodyIr_pos (fm : BitVec 4) (oc : BitVec 6) (h : Hdr) (d a b c : Reg) (u : BitVec 1) (cc : BitVec 3) (pos len : BitVec 6) :
    (wordOf fm oc h (bodyIr d a b c u cc pos len)).extractLsb' 31 6 = pos :=
  (wordOf_body _ _ _ _ 31 6 (by decide)).trans
    ((extract_upper (m := 25) _ _ 31 6 (by decide)).trans
    ((extract_upper (m := 6) _ _ 6 6 (by decide)).trans
    ((extract_lower (m := 6) _ _ 0 6 (by decide)).trans
    (extract_all _))))

/-- Field len of a word of format IR. -/
@[simp] theorem bodyIr_len (fm : BitVec 4) (oc : BitVec 6) (h : Hdr) (d a b c : Reg) (u : BitVec 1) (cc : BitVec 3) (pos len : BitVec 6) :
    (wordOf fm oc h (bodyIr d a b c u cc pos len)).extractLsb' 25 6 = len :=
  (wordOf_body _ _ _ _ 25 6 (by decide)).trans
    ((extract_upper (m := 25) _ _ 25 6 (by decide)).trans
    ((extract_lower (m := 6) _ _ 0 6 (by decide)).trans
    (extract_all _)))

/-- Field d of a word of format FS. -/
@[simp] theorem bodyFs_d (fm : BitVec 4) (oc : BitVec 6) (h : Hdr) (d a b c : Reg) (ty : BitVec 4) (rm : BitVec 3) (tty : BitVec 4) (cc : BitVec 3) :
    (wordOf fm oc h (bodyFs d a b c ty rm tty cc)).extractLsb' 59 6 = d :=
  (wordOf_body _ _ _ _ 59 6 (by decide)).trans
    ((extract_upper (m := 27) _ _ 59 6 (by decide)).trans
    ((extract_upper (m := 3) _ _ 32 6 (by decide)).trans
    ((extract_upper (m := 4) _ _ 29 6 (by decide)).trans
    ((extract_upper (m := 3) _ _ 25 6 (by decide)).trans
    ((extract_upper (m := 4) _ _ 22 6 (by decide)).trans
    ((extract_upper (m := 6) _ _ 18 6 (by decide)).trans
    ((extract_upper (m := 6) _ _ 12 6 (by decide)).trans
    ((extract_upper (m := 6) _ _ 6 6 (by decide)).trans
    (extract_all _)))))))))

/-- Field a of a word of format FS. -/
@[simp] theorem bodyFs_a (fm : BitVec 4) (oc : BitVec 6) (h : Hdr) (d a b c : Reg) (ty : BitVec 4) (rm : BitVec 3) (tty : BitVec 4) (cc : BitVec 3) :
    (wordOf fm oc h (bodyFs d a b c ty rm tty cc)).extractLsb' 53 6 = a :=
  (wordOf_body _ _ _ _ 53 6 (by decide)).trans
    ((extract_upper (m := 27) _ _ 53 6 (by decide)).trans
    ((extract_upper (m := 3) _ _ 26 6 (by decide)).trans
    ((extract_upper (m := 4) _ _ 23 6 (by decide)).trans
    ((extract_upper (m := 3) _ _ 19 6 (by decide)).trans
    ((extract_upper (m := 4) _ _ 16 6 (by decide)).trans
    ((extract_upper (m := 6) _ _ 12 6 (by decide)).trans
    ((extract_upper (m := 6) _ _ 6 6 (by decide)).trans
    ((extract_lower (m := 6) _ _ 0 6 (by decide)).trans
    (extract_all _)))))))))

/-- Field b of a word of format FS. -/
@[simp] theorem bodyFs_b (fm : BitVec 4) (oc : BitVec 6) (h : Hdr) (d a b c : Reg) (ty : BitVec 4) (rm : BitVec 3) (tty : BitVec 4) (cc : BitVec 3) :
    (wordOf fm oc h (bodyFs d a b c ty rm tty cc)).extractLsb' 47 6 = b :=
  (wordOf_body _ _ _ _ 47 6 (by decide)).trans
    ((extract_upper (m := 27) _ _ 47 6 (by decide)).trans
    ((extract_upper (m := 3) _ _ 20 6 (by decide)).trans
    ((extract_upper (m := 4) _ _ 17 6 (by decide)).trans
    ((extract_upper (m := 3) _ _ 13 6 (by decide)).trans
    ((extract_upper (m := 4) _ _ 10 6 (by decide)).trans
    ((extract_upper (m := 6) _ _ 6 6 (by decide)).trans
    ((extract_lower (m := 6) _ _ 0 6 (by decide)).trans
    (extract_all _))))))))

/-- Field c of a word of format FS. -/
@[simp] theorem bodyFs_c (fm : BitVec 4) (oc : BitVec 6) (h : Hdr) (d a b c : Reg) (ty : BitVec 4) (rm : BitVec 3) (tty : BitVec 4) (cc : BitVec 3) :
    (wordOf fm oc h (bodyFs d a b c ty rm tty cc)).extractLsb' 41 6 = c :=
  (wordOf_body _ _ _ _ 41 6 (by decide)).trans
    ((extract_upper (m := 27) _ _ 41 6 (by decide)).trans
    ((extract_upper (m := 3) _ _ 14 6 (by decide)).trans
    ((extract_upper (m := 4) _ _ 11 6 (by decide)).trans
    ((extract_upper (m := 3) _ _ 7 6 (by decide)).trans
    ((extract_upper (m := 4) _ _ 4 6 (by decide)).trans
    ((extract_lower (m := 6) _ _ 0 6 (by decide)).trans
    (extract_all _)))))))

/-- Field ty of a word of format FS. -/
@[simp] theorem bodyFs_ty (fm : BitVec 4) (oc : BitVec 6) (h : Hdr) (d a b c : Reg) (ty : BitVec 4) (rm : BitVec 3) (tty : BitVec 4) (cc : BitVec 3) :
    (wordOf fm oc h (bodyFs d a b c ty rm tty cc)).extractLsb' 37 4 = ty :=
  (wordOf_body _ _ _ _ 37 4 (by decide)).trans
    ((extract_upper (m := 27) _ _ 37 4 (by decide)).trans
    ((extract_upper (m := 3) _ _ 10 4 (by decide)).trans
    ((extract_upper (m := 4) _ _ 7 4 (by decide)).trans
    ((extract_upper (m := 3) _ _ 3 4 (by decide)).trans
    ((extract_lower (m := 4) _ _ 0 4 (by decide)).trans
    (extract_all _))))))

/-- Field rm of a word of format FS. -/
@[simp] theorem bodyFs_rm (fm : BitVec 4) (oc : BitVec 6) (h : Hdr) (d a b c : Reg) (ty : BitVec 4) (rm : BitVec 3) (tty : BitVec 4) (cc : BitVec 3) :
    (wordOf fm oc h (bodyFs d a b c ty rm tty cc)).extractLsb' 34 3 = rm :=
  (wordOf_body _ _ _ _ 34 3 (by decide)).trans
    ((extract_upper (m := 27) _ _ 34 3 (by decide)).trans
    ((extract_upper (m := 3) _ _ 7 3 (by decide)).trans
    ((extract_upper (m := 4) _ _ 4 3 (by decide)).trans
    ((extract_lower (m := 3) _ _ 0 3 (by decide)).trans
    (extract_all _)))))

/-- Field tty of a word of format FS. -/
@[simp] theorem bodyFs_tty (fm : BitVec 4) (oc : BitVec 6) (h : Hdr) (d a b c : Reg) (ty : BitVec 4) (rm : BitVec 3) (tty : BitVec 4) (cc : BitVec 3) :
    (wordOf fm oc h (bodyFs d a b c ty rm tty cc)).extractLsb' 30 4 = tty :=
  (wordOf_body _ _ _ _ 30 4 (by decide)).trans
    ((extract_upper (m := 27) _ _ 30 4 (by decide)).trans
    ((extract_upper (m := 3) _ _ 3 4 (by decide)).trans
    ((extract_lower (m := 4) _ _ 0 4 (by decide)).trans
    (extract_all _))))

/-- Field cc of a word of format FS. -/
@[simp] theorem bodyFs_cc (fm : BitVec 4) (oc : BitVec 6) (h : Hdr) (d a b c : Reg) (ty : BitVec 4) (rm : BitVec 3) (tty : BitVec 4) (cc : BitVec 3) :
    (wordOf fm oc h (bodyFs d a b c ty rm tty cc)).extractLsb' 27 3 = cc :=
  (wordOf_body _ _ _ _ 27 3 (by decide)).trans
    ((extract_upper (m := 27) _ _ 27 3 (by decide)).trans
    ((extract_lower (m := 3) _ _ 0 3 (by decide)).trans
    (extract_all _)))

/-- Field d of a word of format VA. -/
@[simp] theorem bodyVa_d (fm : BitVec 4) (oc : BitVec 6) (h : Hdr) (d a b c : Reg) (ty : BitVec 4) (rm : BitVec 3) (oty : BitVec 4) (cc : BitVec 3) (sat : BitVec 1) :
    (wordOf fm oc h (bodyVa d a b c ty rm oty cc sat)).extractLsb' 59 6 = d :=
  (wordOf_body _ _ _ _ 59 6 (by decide)).trans
    ((extract_upper (m := 26) _ _ 59 6 (by decide)).trans
    ((extract_upper (m := 1) _ _ 33 6 (by decide)).trans
    ((extract_upper (m := 3) _ _ 32 6 (by decide)).trans
    ((extract_upper (m := 4) _ _ 29 6 (by decide)).trans
    ((extract_upper (m := 3) _ _ 25 6 (by decide)).trans
    ((extract_upper (m := 4) _ _ 22 6 (by decide)).trans
    ((extract_upper (m := 6) _ _ 18 6 (by decide)).trans
    ((extract_upper (m := 6) _ _ 12 6 (by decide)).trans
    ((extract_upper (m := 6) _ _ 6 6 (by decide)).trans
    (extract_all _))))))))))

/-- Field a of a word of format VA. -/
@[simp] theorem bodyVa_a (fm : BitVec 4) (oc : BitVec 6) (h : Hdr) (d a b c : Reg) (ty : BitVec 4) (rm : BitVec 3) (oty : BitVec 4) (cc : BitVec 3) (sat : BitVec 1) :
    (wordOf fm oc h (bodyVa d a b c ty rm oty cc sat)).extractLsb' 53 6 = a :=
  (wordOf_body _ _ _ _ 53 6 (by decide)).trans
    ((extract_upper (m := 26) _ _ 53 6 (by decide)).trans
    ((extract_upper (m := 1) _ _ 27 6 (by decide)).trans
    ((extract_upper (m := 3) _ _ 26 6 (by decide)).trans
    ((extract_upper (m := 4) _ _ 23 6 (by decide)).trans
    ((extract_upper (m := 3) _ _ 19 6 (by decide)).trans
    ((extract_upper (m := 4) _ _ 16 6 (by decide)).trans
    ((extract_upper (m := 6) _ _ 12 6 (by decide)).trans
    ((extract_upper (m := 6) _ _ 6 6 (by decide)).trans
    ((extract_lower (m := 6) _ _ 0 6 (by decide)).trans
    (extract_all _))))))))))

/-- Field b of a word of format VA. -/
@[simp] theorem bodyVa_b (fm : BitVec 4) (oc : BitVec 6) (h : Hdr) (d a b c : Reg) (ty : BitVec 4) (rm : BitVec 3) (oty : BitVec 4) (cc : BitVec 3) (sat : BitVec 1) :
    (wordOf fm oc h (bodyVa d a b c ty rm oty cc sat)).extractLsb' 47 6 = b :=
  (wordOf_body _ _ _ _ 47 6 (by decide)).trans
    ((extract_upper (m := 26) _ _ 47 6 (by decide)).trans
    ((extract_upper (m := 1) _ _ 21 6 (by decide)).trans
    ((extract_upper (m := 3) _ _ 20 6 (by decide)).trans
    ((extract_upper (m := 4) _ _ 17 6 (by decide)).trans
    ((extract_upper (m := 3) _ _ 13 6 (by decide)).trans
    ((extract_upper (m := 4) _ _ 10 6 (by decide)).trans
    ((extract_upper (m := 6) _ _ 6 6 (by decide)).trans
    ((extract_lower (m := 6) _ _ 0 6 (by decide)).trans
    (extract_all _)))))))))

/-- Field c of a word of format VA. -/
@[simp] theorem bodyVa_c (fm : BitVec 4) (oc : BitVec 6) (h : Hdr) (d a b c : Reg) (ty : BitVec 4) (rm : BitVec 3) (oty : BitVec 4) (cc : BitVec 3) (sat : BitVec 1) :
    (wordOf fm oc h (bodyVa d a b c ty rm oty cc sat)).extractLsb' 41 6 = c :=
  (wordOf_body _ _ _ _ 41 6 (by decide)).trans
    ((extract_upper (m := 26) _ _ 41 6 (by decide)).trans
    ((extract_upper (m := 1) _ _ 15 6 (by decide)).trans
    ((extract_upper (m := 3) _ _ 14 6 (by decide)).trans
    ((extract_upper (m := 4) _ _ 11 6 (by decide)).trans
    ((extract_upper (m := 3) _ _ 7 6 (by decide)).trans
    ((extract_upper (m := 4) _ _ 4 6 (by decide)).trans
    ((extract_lower (m := 6) _ _ 0 6 (by decide)).trans
    (extract_all _))))))))

/-- Field ty of a word of format VA. -/
@[simp] theorem bodyVa_ty (fm : BitVec 4) (oc : BitVec 6) (h : Hdr) (d a b c : Reg) (ty : BitVec 4) (rm : BitVec 3) (oty : BitVec 4) (cc : BitVec 3) (sat : BitVec 1) :
    (wordOf fm oc h (bodyVa d a b c ty rm oty cc sat)).extractLsb' 37 4 = ty :=
  (wordOf_body _ _ _ _ 37 4 (by decide)).trans
    ((extract_upper (m := 26) _ _ 37 4 (by decide)).trans
    ((extract_upper (m := 1) _ _ 11 4 (by decide)).trans
    ((extract_upper (m := 3) _ _ 10 4 (by decide)).trans
    ((extract_upper (m := 4) _ _ 7 4 (by decide)).trans
    ((extract_upper (m := 3) _ _ 3 4 (by decide)).trans
    ((extract_lower (m := 4) _ _ 0 4 (by decide)).trans
    (extract_all _)))))))

/-- Field rm of a word of format VA. -/
@[simp] theorem bodyVa_rm (fm : BitVec 4) (oc : BitVec 6) (h : Hdr) (d a b c : Reg) (ty : BitVec 4) (rm : BitVec 3) (oty : BitVec 4) (cc : BitVec 3) (sat : BitVec 1) :
    (wordOf fm oc h (bodyVa d a b c ty rm oty cc sat)).extractLsb' 34 3 = rm :=
  (wordOf_body _ _ _ _ 34 3 (by decide)).trans
    ((extract_upper (m := 26) _ _ 34 3 (by decide)).trans
    ((extract_upper (m := 1) _ _ 8 3 (by decide)).trans
    ((extract_upper (m := 3) _ _ 7 3 (by decide)).trans
    ((extract_upper (m := 4) _ _ 4 3 (by decide)).trans
    ((extract_lower (m := 3) _ _ 0 3 (by decide)).trans
    (extract_all _))))))

/-- Field oty of a word of format VA. -/
@[simp] theorem bodyVa_oty (fm : BitVec 4) (oc : BitVec 6) (h : Hdr) (d a b c : Reg) (ty : BitVec 4) (rm : BitVec 3) (oty : BitVec 4) (cc : BitVec 3) (sat : BitVec 1) :
    (wordOf fm oc h (bodyVa d a b c ty rm oty cc sat)).extractLsb' 30 4 = oty :=
  (wordOf_body _ _ _ _ 30 4 (by decide)).trans
    ((extract_upper (m := 26) _ _ 30 4 (by decide)).trans
    ((extract_upper (m := 1) _ _ 4 4 (by decide)).trans
    ((extract_upper (m := 3) _ _ 3 4 (by decide)).trans
    ((extract_lower (m := 4) _ _ 0 4 (by decide)).trans
    (extract_all _)))))

/-- Field cc of a word of format VA. -/
@[simp] theorem bodyVa_cc (fm : BitVec 4) (oc : BitVec 6) (h : Hdr) (d a b c : Reg) (ty : BitVec 4) (rm : BitVec 3) (oty : BitVec 4) (cc : BitVec 3) (sat : BitVec 1) :
    (wordOf fm oc h (bodyVa d a b c ty rm oty cc sat)).extractLsb' 27 3 = cc :=
  (wordOf_body _ _ _ _ 27 3 (by decide)).trans
    ((extract_upper (m := 26) _ _ 27 3 (by decide)).trans
    ((extract_upper (m := 1) _ _ 1 3 (by decide)).trans
    ((extract_lower (m := 3) _ _ 0 3 (by decide)).trans
    (extract_all _))))

/-- Field sat of a word of format VA. -/
@[simp] theorem bodyVa_sat (fm : BitVec 4) (oc : BitVec 6) (h : Hdr) (d a b c : Reg) (ty : BitVec 4) (rm : BitVec 3) (oty : BitVec 4) (cc : BitVec 3) (sat : BitVec 1) :
    (wordOf fm oc h (bodyVa d a b c ty rm oty cc sat)).extractLsb' 26 1 = sat :=
  (wordOf_body _ _ _ _ 26 1 (by decide)).trans
    ((extract_upper (m := 26) _ _ 26 1 (by decide)).trans
    ((extract_lower (m := 1) _ _ 0 1 (by decide)).trans
    (extract_all _)))

/-- Field d of a word of format VP. -/
@[simp] theorem bodyVp_d (fm : BitVec 4) (oc : BitVec 6) (h : Hdr) (d a b c : Reg) (ty : BitVec 4) (rm : BitVec 3) (oty : BitVec 4) (idx : BitVec 6) (imm8 : BitVec 8) :
    (wordOf fm oc h (bodyVp d a b c ty rm oty idx imm8)).extractLsb' 59 6 = d :=
  (wordOf_body _ _ _ _ 59 6 (by decide)).trans
    ((extract_upper (m := 16) _ _ 59 6 (by decide)).trans
    ((extract_upper (m := 8) _ _ 43 6 (by decide)).trans
    ((extract_upper (m := 6) _ _ 35 6 (by decide)).trans
    ((extract_upper (m := 4) _ _ 29 6 (by decide)).trans
    ((extract_upper (m := 3) _ _ 25 6 (by decide)).trans
    ((extract_upper (m := 4) _ _ 22 6 (by decide)).trans
    ((extract_upper (m := 6) _ _ 18 6 (by decide)).trans
    ((extract_upper (m := 6) _ _ 12 6 (by decide)).trans
    ((extract_upper (m := 6) _ _ 6 6 (by decide)).trans
    (extract_all _))))))))))

/-- Field a of a word of format VP. -/
@[simp] theorem bodyVp_a (fm : BitVec 4) (oc : BitVec 6) (h : Hdr) (d a b c : Reg) (ty : BitVec 4) (rm : BitVec 3) (oty : BitVec 4) (idx : BitVec 6) (imm8 : BitVec 8) :
    (wordOf fm oc h (bodyVp d a b c ty rm oty idx imm8)).extractLsb' 53 6 = a :=
  (wordOf_body _ _ _ _ 53 6 (by decide)).trans
    ((extract_upper (m := 16) _ _ 53 6 (by decide)).trans
    ((extract_upper (m := 8) _ _ 37 6 (by decide)).trans
    ((extract_upper (m := 6) _ _ 29 6 (by decide)).trans
    ((extract_upper (m := 4) _ _ 23 6 (by decide)).trans
    ((extract_upper (m := 3) _ _ 19 6 (by decide)).trans
    ((extract_upper (m := 4) _ _ 16 6 (by decide)).trans
    ((extract_upper (m := 6) _ _ 12 6 (by decide)).trans
    ((extract_upper (m := 6) _ _ 6 6 (by decide)).trans
    ((extract_lower (m := 6) _ _ 0 6 (by decide)).trans
    (extract_all _))))))))))

/-- Field b of a word of format VP. -/
@[simp] theorem bodyVp_b (fm : BitVec 4) (oc : BitVec 6) (h : Hdr) (d a b c : Reg) (ty : BitVec 4) (rm : BitVec 3) (oty : BitVec 4) (idx : BitVec 6) (imm8 : BitVec 8) :
    (wordOf fm oc h (bodyVp d a b c ty rm oty idx imm8)).extractLsb' 47 6 = b :=
  (wordOf_body _ _ _ _ 47 6 (by decide)).trans
    ((extract_upper (m := 16) _ _ 47 6 (by decide)).trans
    ((extract_upper (m := 8) _ _ 31 6 (by decide)).trans
    ((extract_upper (m := 6) _ _ 23 6 (by decide)).trans
    ((extract_upper (m := 4) _ _ 17 6 (by decide)).trans
    ((extract_upper (m := 3) _ _ 13 6 (by decide)).trans
    ((extract_upper (m := 4) _ _ 10 6 (by decide)).trans
    ((extract_upper (m := 6) _ _ 6 6 (by decide)).trans
    ((extract_lower (m := 6) _ _ 0 6 (by decide)).trans
    (extract_all _)))))))))

/-- Field c of a word of format VP. -/
@[simp] theorem bodyVp_c (fm : BitVec 4) (oc : BitVec 6) (h : Hdr) (d a b c : Reg) (ty : BitVec 4) (rm : BitVec 3) (oty : BitVec 4) (idx : BitVec 6) (imm8 : BitVec 8) :
    (wordOf fm oc h (bodyVp d a b c ty rm oty idx imm8)).extractLsb' 41 6 = c :=
  (wordOf_body _ _ _ _ 41 6 (by decide)).trans
    ((extract_upper (m := 16) _ _ 41 6 (by decide)).trans
    ((extract_upper (m := 8) _ _ 25 6 (by decide)).trans
    ((extract_upper (m := 6) _ _ 17 6 (by decide)).trans
    ((extract_upper (m := 4) _ _ 11 6 (by decide)).trans
    ((extract_upper (m := 3) _ _ 7 6 (by decide)).trans
    ((extract_upper (m := 4) _ _ 4 6 (by decide)).trans
    ((extract_lower (m := 6) _ _ 0 6 (by decide)).trans
    (extract_all _))))))))

/-- Field ty of a word of format VP. -/
@[simp] theorem bodyVp_ty (fm : BitVec 4) (oc : BitVec 6) (h : Hdr) (d a b c : Reg) (ty : BitVec 4) (rm : BitVec 3) (oty : BitVec 4) (idx : BitVec 6) (imm8 : BitVec 8) :
    (wordOf fm oc h (bodyVp d a b c ty rm oty idx imm8)).extractLsb' 37 4 = ty :=
  (wordOf_body _ _ _ _ 37 4 (by decide)).trans
    ((extract_upper (m := 16) _ _ 37 4 (by decide)).trans
    ((extract_upper (m := 8) _ _ 21 4 (by decide)).trans
    ((extract_upper (m := 6) _ _ 13 4 (by decide)).trans
    ((extract_upper (m := 4) _ _ 7 4 (by decide)).trans
    ((extract_upper (m := 3) _ _ 3 4 (by decide)).trans
    ((extract_lower (m := 4) _ _ 0 4 (by decide)).trans
    (extract_all _)))))))

/-- Field rm of a word of format VP. -/
@[simp] theorem bodyVp_rm (fm : BitVec 4) (oc : BitVec 6) (h : Hdr) (d a b c : Reg) (ty : BitVec 4) (rm : BitVec 3) (oty : BitVec 4) (idx : BitVec 6) (imm8 : BitVec 8) :
    (wordOf fm oc h (bodyVp d a b c ty rm oty idx imm8)).extractLsb' 34 3 = rm :=
  (wordOf_body _ _ _ _ 34 3 (by decide)).trans
    ((extract_upper (m := 16) _ _ 34 3 (by decide)).trans
    ((extract_upper (m := 8) _ _ 18 3 (by decide)).trans
    ((extract_upper (m := 6) _ _ 10 3 (by decide)).trans
    ((extract_upper (m := 4) _ _ 4 3 (by decide)).trans
    ((extract_lower (m := 3) _ _ 0 3 (by decide)).trans
    (extract_all _))))))

/-- Field oty of a word of format VP. -/
@[simp] theorem bodyVp_oty (fm : BitVec 4) (oc : BitVec 6) (h : Hdr) (d a b c : Reg) (ty : BitVec 4) (rm : BitVec 3) (oty : BitVec 4) (idx : BitVec 6) (imm8 : BitVec 8) :
    (wordOf fm oc h (bodyVp d a b c ty rm oty idx imm8)).extractLsb' 30 4 = oty :=
  (wordOf_body _ _ _ _ 30 4 (by decide)).trans
    ((extract_upper (m := 16) _ _ 30 4 (by decide)).trans
    ((extract_upper (m := 8) _ _ 14 4 (by decide)).trans
    ((extract_upper (m := 6) _ _ 6 4 (by decide)).trans
    ((extract_lower (m := 4) _ _ 0 4 (by decide)).trans
    (extract_all _)))))

/-- Field idx of a word of format VP. -/
@[simp] theorem bodyVp_idx (fm : BitVec 4) (oc : BitVec 6) (h : Hdr) (d a b c : Reg) (ty : BitVec 4) (rm : BitVec 3) (oty : BitVec 4) (idx : BitVec 6) (imm8 : BitVec 8) :
    (wordOf fm oc h (bodyVp d a b c ty rm oty idx imm8)).extractLsb' 24 6 = idx :=
  (wordOf_body _ _ _ _ 24 6 (by decide)).trans
    ((extract_upper (m := 16) _ _ 24 6 (by decide)).trans
    ((extract_upper (m := 8) _ _ 8 6 (by decide)).trans
    ((extract_lower (m := 6) _ _ 0 6 (by decide)).trans
    (extract_all _))))

/-- Field imm8 of a word of format VP. -/
@[simp] theorem bodyVp_imm8 (fm : BitVec 4) (oc : BitVec 6) (h : Hdr) (d a b c : Reg) (ty : BitVec 4) (rm : BitVec 3) (oty : BitVec 4) (idx : BitVec 6) (imm8 : BitVec 8) :
    (wordOf fm oc h (bodyVp d a b c ty rm oty idx imm8)).extractLsb' 16 8 = imm8 :=
  (wordOf_body _ _ _ _ 16 8 (by decide)).trans
    ((extract_upper (m := 16) _ _ 16 8 (by decide)).trans
    ((extract_lower (m := 8) _ _ 0 8 (by decide)).trans
    (extract_all _)))

/-- Field d of a word of format MX. -/
@[simp] theorem bodyMx_d (fm : BitVec 4) (oc : BitVec 6) (h : Hdr) (d a b c : Reg) (ty : BitVec 4) (rm : BitVec 3) (row : BitVec 9) (colb : BitVec 4) (f : BitVec 1) :
    (wordOf fm oc h (bodyMx d a b c ty rm row colb f)).extractLsb' 59 6 = d :=
  (wordOf_body _ _ _ _ 59 6 (by decide)).trans
    ((extract_upper (m := 20) _ _ 59 6 (by decide)).trans
    ((extract_upper (m := 1) _ _ 39 6 (by decide)).trans
    ((extract_upper (m := 4) _ _ 38 6 (by decide)).trans
    ((extract_upper (m := 9) _ _ 34 6 (by decide)).trans
    ((extract_upper (m := 3) _ _ 25 6 (by decide)).trans
    ((extract_upper (m := 4) _ _ 22 6 (by decide)).trans
    ((extract_upper (m := 6) _ _ 18 6 (by decide)).trans
    ((extract_upper (m := 6) _ _ 12 6 (by decide)).trans
    ((extract_upper (m := 6) _ _ 6 6 (by decide)).trans
    (extract_all _))))))))))

/-- Field a of a word of format MX. -/
@[simp] theorem bodyMx_a (fm : BitVec 4) (oc : BitVec 6) (h : Hdr) (d a b c : Reg) (ty : BitVec 4) (rm : BitVec 3) (row : BitVec 9) (colb : BitVec 4) (f : BitVec 1) :
    (wordOf fm oc h (bodyMx d a b c ty rm row colb f)).extractLsb' 53 6 = a :=
  (wordOf_body _ _ _ _ 53 6 (by decide)).trans
    ((extract_upper (m := 20) _ _ 53 6 (by decide)).trans
    ((extract_upper (m := 1) _ _ 33 6 (by decide)).trans
    ((extract_upper (m := 4) _ _ 32 6 (by decide)).trans
    ((extract_upper (m := 9) _ _ 28 6 (by decide)).trans
    ((extract_upper (m := 3) _ _ 19 6 (by decide)).trans
    ((extract_upper (m := 4) _ _ 16 6 (by decide)).trans
    ((extract_upper (m := 6) _ _ 12 6 (by decide)).trans
    ((extract_upper (m := 6) _ _ 6 6 (by decide)).trans
    ((extract_lower (m := 6) _ _ 0 6 (by decide)).trans
    (extract_all _))))))))))

/-- Field b of a word of format MX. -/
@[simp] theorem bodyMx_b (fm : BitVec 4) (oc : BitVec 6) (h : Hdr) (d a b c : Reg) (ty : BitVec 4) (rm : BitVec 3) (row : BitVec 9) (colb : BitVec 4) (f : BitVec 1) :
    (wordOf fm oc h (bodyMx d a b c ty rm row colb f)).extractLsb' 47 6 = b :=
  (wordOf_body _ _ _ _ 47 6 (by decide)).trans
    ((extract_upper (m := 20) _ _ 47 6 (by decide)).trans
    ((extract_upper (m := 1) _ _ 27 6 (by decide)).trans
    ((extract_upper (m := 4) _ _ 26 6 (by decide)).trans
    ((extract_upper (m := 9) _ _ 22 6 (by decide)).trans
    ((extract_upper (m := 3) _ _ 13 6 (by decide)).trans
    ((extract_upper (m := 4) _ _ 10 6 (by decide)).trans
    ((extract_upper (m := 6) _ _ 6 6 (by decide)).trans
    ((extract_lower (m := 6) _ _ 0 6 (by decide)).trans
    (extract_all _)))))))))

/-- Field c of a word of format MX. -/
@[simp] theorem bodyMx_c (fm : BitVec 4) (oc : BitVec 6) (h : Hdr) (d a b c : Reg) (ty : BitVec 4) (rm : BitVec 3) (row : BitVec 9) (colb : BitVec 4) (f : BitVec 1) :
    (wordOf fm oc h (bodyMx d a b c ty rm row colb f)).extractLsb' 41 6 = c :=
  (wordOf_body _ _ _ _ 41 6 (by decide)).trans
    ((extract_upper (m := 20) _ _ 41 6 (by decide)).trans
    ((extract_upper (m := 1) _ _ 21 6 (by decide)).trans
    ((extract_upper (m := 4) _ _ 20 6 (by decide)).trans
    ((extract_upper (m := 9) _ _ 16 6 (by decide)).trans
    ((extract_upper (m := 3) _ _ 7 6 (by decide)).trans
    ((extract_upper (m := 4) _ _ 4 6 (by decide)).trans
    ((extract_lower (m := 6) _ _ 0 6 (by decide)).trans
    (extract_all _))))))))

/-- Field ty of a word of format MX. -/
@[simp] theorem bodyMx_ty (fm : BitVec 4) (oc : BitVec 6) (h : Hdr) (d a b c : Reg) (ty : BitVec 4) (rm : BitVec 3) (row : BitVec 9) (colb : BitVec 4) (f : BitVec 1) :
    (wordOf fm oc h (bodyMx d a b c ty rm row colb f)).extractLsb' 37 4 = ty :=
  (wordOf_body _ _ _ _ 37 4 (by decide)).trans
    ((extract_upper (m := 20) _ _ 37 4 (by decide)).trans
    ((extract_upper (m := 1) _ _ 17 4 (by decide)).trans
    ((extract_upper (m := 4) _ _ 16 4 (by decide)).trans
    ((extract_upper (m := 9) _ _ 12 4 (by decide)).trans
    ((extract_upper (m := 3) _ _ 3 4 (by decide)).trans
    ((extract_lower (m := 4) _ _ 0 4 (by decide)).trans
    (extract_all _)))))))

/-- Field rm of a word of format MX. -/
@[simp] theorem bodyMx_rm (fm : BitVec 4) (oc : BitVec 6) (h : Hdr) (d a b c : Reg) (ty : BitVec 4) (rm : BitVec 3) (row : BitVec 9) (colb : BitVec 4) (f : BitVec 1) :
    (wordOf fm oc h (bodyMx d a b c ty rm row colb f)).extractLsb' 34 3 = rm :=
  (wordOf_body _ _ _ _ 34 3 (by decide)).trans
    ((extract_upper (m := 20) _ _ 34 3 (by decide)).trans
    ((extract_upper (m := 1) _ _ 14 3 (by decide)).trans
    ((extract_upper (m := 4) _ _ 13 3 (by decide)).trans
    ((extract_upper (m := 9) _ _ 9 3 (by decide)).trans
    ((extract_lower (m := 3) _ _ 0 3 (by decide)).trans
    (extract_all _))))))

/-- Field row of a word of format MX. -/
@[simp] theorem bodyMx_row (fm : BitVec 4) (oc : BitVec 6) (h : Hdr) (d a b c : Reg) (ty : BitVec 4) (rm : BitVec 3) (row : BitVec 9) (colb : BitVec 4) (f : BitVec 1) :
    (wordOf fm oc h (bodyMx d a b c ty rm row colb f)).extractLsb' 25 9 = row :=
  (wordOf_body _ _ _ _ 25 9 (by decide)).trans
    ((extract_upper (m := 20) _ _ 25 9 (by decide)).trans
    ((extract_upper (m := 1) _ _ 5 9 (by decide)).trans
    ((extract_upper (m := 4) _ _ 4 9 (by decide)).trans
    ((extract_lower (m := 9) _ _ 0 9 (by decide)).trans
    (extract_all _)))))

/-- Field colb of a word of format MX. -/
@[simp] theorem bodyMx_colb (fm : BitVec 4) (oc : BitVec 6) (h : Hdr) (d a b c : Reg) (ty : BitVec 4) (rm : BitVec 3) (row : BitVec 9) (colb : BitVec 4) (f : BitVec 1) :
    (wordOf fm oc h (bodyMx d a b c ty rm row colb f)).extractLsb' 21 4 = colb :=
  (wordOf_body _ _ _ _ 21 4 (by decide)).trans
    ((extract_upper (m := 20) _ _ 21 4 (by decide)).trans
    ((extract_upper (m := 1) _ _ 1 4 (by decide)).trans
    ((extract_lower (m := 4) _ _ 0 4 (by decide)).trans
    (extract_all _))))

/-- Field f of a word of format MX. -/
@[simp] theorem bodyMx_f (fm : BitVec 4) (oc : BitVec 6) (h : Hdr) (d a b c : Reg) (ty : BitVec 4) (rm : BitVec 3) (row : BitVec 9) (colb : BitVec 4) (f : BitVec 1) :
    (wordOf fm oc h (bodyMx d a b c ty rm row colb f)).extractLsb' 20 1 = f :=
  (wordOf_body _ _ _ _ 20 1 (by decide)).trans
    ((extract_upper (m := 20) _ _ 20 1 (by decide)).trans
    ((extract_lower (m := 1) _ _ 0 1 (by decide)).trans
    (extract_all _)))

/-- Field d of a word of format SB. -/
@[simp] theorem bodySb_d (fm : BitVec 4) (oc : BitVec 6) (h : Hdr) (d a b c : Reg) (grp : BitVec 8) (rm : BitVec 3) :
    (wordOf fm oc h (bodySb d a b c grp rm)).extractLsb' 59 6 = d :=
  (wordOf_body _ _ _ _ 59 6 (by decide)).trans
    ((extract_upper (m := 30) _ _ 59 6 (by decide)).trans
    ((extract_upper (m := 3) _ _ 29 6 (by decide)).trans
    ((extract_upper (m := 8) _ _ 26 6 (by decide)).trans
    ((extract_upper (m := 6) _ _ 18 6 (by decide)).trans
    ((extract_upper (m := 6) _ _ 12 6 (by decide)).trans
    ((extract_upper (m := 6) _ _ 6 6 (by decide)).trans
    (extract_all _)))))))

/-- Field a of a word of format SB. -/
@[simp] theorem bodySb_a (fm : BitVec 4) (oc : BitVec 6) (h : Hdr) (d a b c : Reg) (grp : BitVec 8) (rm : BitVec 3) :
    (wordOf fm oc h (bodySb d a b c grp rm)).extractLsb' 53 6 = a :=
  (wordOf_body _ _ _ _ 53 6 (by decide)).trans
    ((extract_upper (m := 30) _ _ 53 6 (by decide)).trans
    ((extract_upper (m := 3) _ _ 23 6 (by decide)).trans
    ((extract_upper (m := 8) _ _ 20 6 (by decide)).trans
    ((extract_upper (m := 6) _ _ 12 6 (by decide)).trans
    ((extract_upper (m := 6) _ _ 6 6 (by decide)).trans
    ((extract_lower (m := 6) _ _ 0 6 (by decide)).trans
    (extract_all _)))))))

/-- Field b of a word of format SB. -/
@[simp] theorem bodySb_b (fm : BitVec 4) (oc : BitVec 6) (h : Hdr) (d a b c : Reg) (grp : BitVec 8) (rm : BitVec 3) :
    (wordOf fm oc h (bodySb d a b c grp rm)).extractLsb' 47 6 = b :=
  (wordOf_body _ _ _ _ 47 6 (by decide)).trans
    ((extract_upper (m := 30) _ _ 47 6 (by decide)).trans
    ((extract_upper (m := 3) _ _ 17 6 (by decide)).trans
    ((extract_upper (m := 8) _ _ 14 6 (by decide)).trans
    ((extract_upper (m := 6) _ _ 6 6 (by decide)).trans
    ((extract_lower (m := 6) _ _ 0 6 (by decide)).trans
    (extract_all _))))))

/-- Field c of a word of format SB. -/
@[simp] theorem bodySb_c (fm : BitVec 4) (oc : BitVec 6) (h : Hdr) (d a b c : Reg) (grp : BitVec 8) (rm : BitVec 3) :
    (wordOf fm oc h (bodySb d a b c grp rm)).extractLsb' 41 6 = c :=
  (wordOf_body _ _ _ _ 41 6 (by decide)).trans
    ((extract_upper (m := 30) _ _ 41 6 (by decide)).trans
    ((extract_upper (m := 3) _ _ 11 6 (by decide)).trans
    ((extract_upper (m := 8) _ _ 8 6 (by decide)).trans
    ((extract_lower (m := 6) _ _ 0 6 (by decide)).trans
    (extract_all _)))))

/-- Field grp of a word of format SB. -/
@[simp] theorem bodySb_grp (fm : BitVec 4) (oc : BitVec 6) (h : Hdr) (d a b c : Reg) (grp : BitVec 8) (rm : BitVec 3) :
    (wordOf fm oc h (bodySb d a b c grp rm)).extractLsb' 33 8 = grp :=
  (wordOf_body _ _ _ _ 33 8 (by decide)).trans
    ((extract_upper (m := 30) _ _ 33 8 (by decide)).trans
    ((extract_upper (m := 3) _ _ 3 8 (by decide)).trans
    ((extract_lower (m := 8) _ _ 0 8 (by decide)).trans
    (extract_all _))))

/-- Field rm of a word of format SB. -/
@[simp] theorem bodySb_rm (fm : BitVec 4) (oc : BitVec 6) (h : Hdr) (d a b c : Reg) (grp : BitVec 8) (rm : BitVec 3) :
    (wordOf fm oc h (bodySb d a b c grp rm)).extractLsb' 30 3 = rm :=
  (wordOf_body _ _ _ _ 30 3 (by decide)).trans
    ((extract_upper (m := 30) _ _ 30 3 (by decide)).trans
    ((extract_lower (m := 3) _ _ 0 3 (by decide)).trans
    (extract_all _)))

/-- Field d of a word of format ME. -/
@[simp] theorem bodyMe_d (fm : BitVec 4) (oc : BitVec 6) (h : Hdr) (d a b : Reg) (off : BitVec 20) (win : BitVec 5) (port : BitVec 6) (hint : BitVec 3) (ty : BitVec 4) :
    (wordOf fm oc h (bodyMe d a b off win port hint ty)).extractLsb' 59 6 = d :=
  (wordOf_body _ _ _ _ 59 6 (by decide)).trans
    ((extract_upper (m := 9) _ _ 59 6 (by decide)).trans
    ((extract_upper (m := 4) _ _ 50 6 (by decide)).trans
    ((extract_upper (m := 3) _ _ 46 6 (by decide)).trans
    ((extract_upper (m := 6) _ _ 43 6 (by decide)).trans
    ((extract_upper (m := 5) _ _ 37 6 (by decide)).trans
    ((extract_upper (m := 20) _ _ 32 6 (by decide)).trans
    ((extract_upper (m := 6) _ _ 12 6 (by decide)).trans
    ((extract_upper (m := 6) _ _ 6 6 (by decide)).trans
    (extract_all _)))))))))

/-- Field a of a word of format ME. -/
@[simp] theorem bodyMe_a (fm : BitVec 4) (oc : BitVec 6) (h : Hdr) (d a b : Reg) (off : BitVec 20) (win : BitVec 5) (port : BitVec 6) (hint : BitVec 3) (ty : BitVec 4) :
    (wordOf fm oc h (bodyMe d a b off win port hint ty)).extractLsb' 53 6 = a :=
  (wordOf_body _ _ _ _ 53 6 (by decide)).trans
    ((extract_upper (m := 9) _ _ 53 6 (by decide)).trans
    ((extract_upper (m := 4) _ _ 44 6 (by decide)).trans
    ((extract_upper (m := 3) _ _ 40 6 (by decide)).trans
    ((extract_upper (m := 6) _ _ 37 6 (by decide)).trans
    ((extract_upper (m := 5) _ _ 31 6 (by decide)).trans
    ((extract_upper (m := 20) _ _ 26 6 (by decide)).trans
    ((extract_upper (m := 6) _ _ 6 6 (by decide)).trans
    ((extract_lower (m := 6) _ _ 0 6 (by decide)).trans
    (extract_all _)))))))))

/-- Field b of a word of format ME. -/
@[simp] theorem bodyMe_b (fm : BitVec 4) (oc : BitVec 6) (h : Hdr) (d a b : Reg) (off : BitVec 20) (win : BitVec 5) (port : BitVec 6) (hint : BitVec 3) (ty : BitVec 4) :
    (wordOf fm oc h (bodyMe d a b off win port hint ty)).extractLsb' 47 6 = b :=
  (wordOf_body _ _ _ _ 47 6 (by decide)).trans
    ((extract_upper (m := 9) _ _ 47 6 (by decide)).trans
    ((extract_upper (m := 4) _ _ 38 6 (by decide)).trans
    ((extract_upper (m := 3) _ _ 34 6 (by decide)).trans
    ((extract_upper (m := 6) _ _ 31 6 (by decide)).trans
    ((extract_upper (m := 5) _ _ 25 6 (by decide)).trans
    ((extract_upper (m := 20) _ _ 20 6 (by decide)).trans
    ((extract_lower (m := 6) _ _ 0 6 (by decide)).trans
    (extract_all _))))))))

/-- Field off of a word of format ME. -/
@[simp] theorem bodyMe_off (fm : BitVec 4) (oc : BitVec 6) (h : Hdr) (d a b : Reg) (off : BitVec 20) (win : BitVec 5) (port : BitVec 6) (hint : BitVec 3) (ty : BitVec 4) :
    (wordOf fm oc h (bodyMe d a b off win port hint ty)).extractLsb' 27 20 = off :=
  (wordOf_body _ _ _ _ 27 20 (by decide)).trans
    ((extract_upper (m := 9) _ _ 27 20 (by decide)).trans
    ((extract_upper (m := 4) _ _ 18 20 (by decide)).trans
    ((extract_upper (m := 3) _ _ 14 20 (by decide)).trans
    ((extract_upper (m := 6) _ _ 11 20 (by decide)).trans
    ((extract_upper (m := 5) _ _ 5 20 (by decide)).trans
    ((extract_lower (m := 20) _ _ 0 20 (by decide)).trans
    (extract_all _)))))))

/-- Field win of a word of format ME. -/
@[simp] theorem bodyMe_win (fm : BitVec 4) (oc : BitVec 6) (h : Hdr) (d a b : Reg) (off : BitVec 20) (win : BitVec 5) (port : BitVec 6) (hint : BitVec 3) (ty : BitVec 4) :
    (wordOf fm oc h (bodyMe d a b off win port hint ty)).extractLsb' 22 5 = win :=
  (wordOf_body _ _ _ _ 22 5 (by decide)).trans
    ((extract_upper (m := 9) _ _ 22 5 (by decide)).trans
    ((extract_upper (m := 4) _ _ 13 5 (by decide)).trans
    ((extract_upper (m := 3) _ _ 9 5 (by decide)).trans
    ((extract_upper (m := 6) _ _ 6 5 (by decide)).trans
    ((extract_lower (m := 5) _ _ 0 5 (by decide)).trans
    (extract_all _))))))

/-- Field port of a word of format ME. -/
@[simp] theorem bodyMe_port (fm : BitVec 4) (oc : BitVec 6) (h : Hdr) (d a b : Reg) (off : BitVec 20) (win : BitVec 5) (port : BitVec 6) (hint : BitVec 3) (ty : BitVec 4) :
    (wordOf fm oc h (bodyMe d a b off win port hint ty)).extractLsb' 16 6 = port :=
  (wordOf_body _ _ _ _ 16 6 (by decide)).trans
    ((extract_upper (m := 9) _ _ 16 6 (by decide)).trans
    ((extract_upper (m := 4) _ _ 7 6 (by decide)).trans
    ((extract_upper (m := 3) _ _ 3 6 (by decide)).trans
    ((extract_lower (m := 6) _ _ 0 6 (by decide)).trans
    (extract_all _)))))

/-- Field hint of a word of format ME. -/
@[simp] theorem bodyMe_hint (fm : BitVec 4) (oc : BitVec 6) (h : Hdr) (d a b : Reg) (off : BitVec 20) (win : BitVec 5) (port : BitVec 6) (hint : BitVec 3) (ty : BitVec 4) :
    (wordOf fm oc h (bodyMe d a b off win port hint ty)).extractLsb' 13 3 = hint :=
  (wordOf_body _ _ _ _ 13 3 (by decide)).trans
    ((extract_upper (m := 9) _ _ 13 3 (by decide)).trans
    ((extract_upper (m := 4) _ _ 4 3 (by decide)).trans
    ((extract_lower (m := 3) _ _ 0 3 (by decide)).trans
    (extract_all _))))

/-- Field ty of a word of format ME. -/
@[simp] theorem bodyMe_ty (fm : BitVec 4) (oc : BitVec 6) (h : Hdr) (d a b : Reg) (off : BitVec 20) (win : BitVec 5) (port : BitVec 6) (hint : BitVec 3) (ty : BitVec 4) :
    (wordOf fm oc h (bodyMe d a b off win port hint ty)).extractLsb' 9 4 = ty :=
  (wordOf_body _ _ _ _ 9 4 (by decide)).trans
    ((extract_upper (m := 9) _ _ 9 4 (by decide)).trans
    ((extract_lower (m := 4) _ _ 0 4 (by decide)).trans
    (extract_all _)))

/-- Field d of a word of format CH. -/
@[simp] theorem bodyCh_d (fm : BitVec 4) (oc : BitVec 6) (h : Hdr) (d a : Reg) (chan : BitVec 6) :
    (wordOf fm oc h (bodyCh d a chan)).extractLsb' 59 6 = d :=
  (wordOf_body _ _ _ _ 59 6 (by decide)).trans
    ((extract_upper (m := 47) _ _ 59 6 (by decide)).trans
    ((extract_upper (m := 6) _ _ 12 6 (by decide)).trans
    ((extract_upper (m := 6) _ _ 6 6 (by decide)).trans
    (extract_all _))))

/-- Field a of a word of format CH. -/
@[simp] theorem bodyCh_a (fm : BitVec 4) (oc : BitVec 6) (h : Hdr) (d a : Reg) (chan : BitVec 6) :
    (wordOf fm oc h (bodyCh d a chan)).extractLsb' 53 6 = a :=
  (wordOf_body _ _ _ _ 53 6 (by decide)).trans
    ((extract_upper (m := 47) _ _ 53 6 (by decide)).trans
    ((extract_upper (m := 6) _ _ 6 6 (by decide)).trans
    ((extract_lower (m := 6) _ _ 0 6 (by decide)).trans
    (extract_all _))))

/-- Field chan of a word of format CH. -/
@[simp] theorem bodyCh_chan (fm : BitVec 4) (oc : BitVec 6) (h : Hdr) (d a : Reg) (chan : BitVec 6) :
    (wordOf fm oc h (bodyCh d a chan)).extractLsb' 47 6 = chan :=
  (wordOf_body _ _ _ _ 47 6 (by decide)).trans
    ((extract_upper (m := 47) _ _ 47 6 (by decide)).trans
    ((extract_lower (m := 6) _ _ 0 6 (by decide)).trans
    (extract_all _)))

/-- Field d of a word of format SQ. -/
@[simp] theorem bodySq_d (fm : BitVec 4) (oc : BitVec 6) (h : Hdr) (d a b c : Reg) (port : BitVec 6) (strm : BitVec 8) :
    (wordOf fm oc h (bodySq d a b c port strm)).extractLsb' 59 6 = d :=
  (wordOf_body _ _ _ _ 59 6 (by decide)).trans
    ((extract_upper (m := 27) _ _ 59 6 (by decide)).trans
    ((extract_upper (m := 8) _ _ 32 6 (by decide)).trans
    ((extract_upper (m := 6) _ _ 24 6 (by decide)).trans
    ((extract_upper (m := 6) _ _ 18 6 (by decide)).trans
    ((extract_upper (m := 6) _ _ 12 6 (by decide)).trans
    ((extract_upper (m := 6) _ _ 6 6 (by decide)).trans
    (extract_all _)))))))

/-- Field a of a word of format SQ. -/
@[simp] theorem bodySq_a (fm : BitVec 4) (oc : BitVec 6) (h : Hdr) (d a b c : Reg) (port : BitVec 6) (strm : BitVec 8) :
    (wordOf fm oc h (bodySq d a b c port strm)).extractLsb' 53 6 = a :=
  (wordOf_body _ _ _ _ 53 6 (by decide)).trans
    ((extract_upper (m := 27) _ _ 53 6 (by decide)).trans
    ((extract_upper (m := 8) _ _ 26 6 (by decide)).trans
    ((extract_upper (m := 6) _ _ 18 6 (by decide)).trans
    ((extract_upper (m := 6) _ _ 12 6 (by decide)).trans
    ((extract_upper (m := 6) _ _ 6 6 (by decide)).trans
    ((extract_lower (m := 6) _ _ 0 6 (by decide)).trans
    (extract_all _)))))))

/-- Field b of a word of format SQ. -/
@[simp] theorem bodySq_b (fm : BitVec 4) (oc : BitVec 6) (h : Hdr) (d a b c : Reg) (port : BitVec 6) (strm : BitVec 8) :
    (wordOf fm oc h (bodySq d a b c port strm)).extractLsb' 47 6 = b :=
  (wordOf_body _ _ _ _ 47 6 (by decide)).trans
    ((extract_upper (m := 27) _ _ 47 6 (by decide)).trans
    ((extract_upper (m := 8) _ _ 20 6 (by decide)).trans
    ((extract_upper (m := 6) _ _ 12 6 (by decide)).trans
    ((extract_upper (m := 6) _ _ 6 6 (by decide)).trans
    ((extract_lower (m := 6) _ _ 0 6 (by decide)).trans
    (extract_all _))))))

/-- Field c of a word of format SQ. -/
@[simp] theorem bodySq_c (fm : BitVec 4) (oc : BitVec 6) (h : Hdr) (d a b c : Reg) (port : BitVec 6) (strm : BitVec 8) :
    (wordOf fm oc h (bodySq d a b c port strm)).extractLsb' 41 6 = c :=
  (wordOf_body _ _ _ _ 41 6 (by decide)).trans
    ((extract_upper (m := 27) _ _ 41 6 (by decide)).trans
    ((extract_upper (m := 8) _ _ 14 6 (by decide)).trans
    ((extract_upper (m := 6) _ _ 6 6 (by decide)).trans
    ((extract_lower (m := 6) _ _ 0 6 (by decide)).trans
    (extract_all _)))))

/-- Field port of a word of format SQ. -/
@[simp] theorem bodySq_port (fm : BitVec 4) (oc : BitVec 6) (h : Hdr) (d a b c : Reg) (port : BitVec 6) (strm : BitVec 8) :
    (wordOf fm oc h (bodySq d a b c port strm)).extractLsb' 35 6 = port :=
  (wordOf_body _ _ _ _ 35 6 (by decide)).trans
    ((extract_upper (m := 27) _ _ 35 6 (by decide)).trans
    ((extract_upper (m := 8) _ _ 8 6 (by decide)).trans
    ((extract_lower (m := 6) _ _ 0 6 (by decide)).trans
    (extract_all _))))

/-- Field strm of a word of format SQ. -/
@[simp] theorem bodySq_strm (fm : BitVec 4) (oc : BitVec 6) (h : Hdr) (d a b c : Reg) (port : BitVec 6) (strm : BitVec 8) :
    (wordOf fm oc h (bodySq d a b c port strm)).extractLsb' 27 8 = strm :=
  (wordOf_body _ _ _ _ 27 8 (by decide)).trans
    ((extract_upper (m := 27) _ _ 27 8 (by decide)).trans
    ((extract_lower (m := 8) _ _ 0 8 (by decide)).trans
    (extract_all _)))

/-- Field d of a word of format TK. -/
@[simp] theorem bodyTk_d (fm : BitVec 4) (oc : BitVec 6) (h : Hdr) (d a b c : Reg) (unit : BitVec 10) (param : BitVec 6) :
    (wordOf fm oc h (bodyTk d a b c unit param)).extractLsb' 59 6 = d :=
  (wordOf_body _ _ _ _ 59 6 (by decide)).trans
    ((extract_upper (m := 25) _ _ 59 6 (by decide)).trans
    ((extract_upper (m := 6) _ _ 34 6 (by decide)).trans
    ((extract_upper (m := 10) _ _ 28 6 (by decide)).trans
    ((extract_upper (m := 6) _ _ 18 6 (by decide)).trans
    ((extract_upper (m := 6) _ _ 12 6 (by decide)).trans
    ((extract_upper (m := 6) _ _ 6 6 (by decide)).trans
    (extract_all _)))))))

/-- Field a of a word of format TK. -/
@[simp] theorem bodyTk_a (fm : BitVec 4) (oc : BitVec 6) (h : Hdr) (d a b c : Reg) (unit : BitVec 10) (param : BitVec 6) :
    (wordOf fm oc h (bodyTk d a b c unit param)).extractLsb' 53 6 = a :=
  (wordOf_body _ _ _ _ 53 6 (by decide)).trans
    ((extract_upper (m := 25) _ _ 53 6 (by decide)).trans
    ((extract_upper (m := 6) _ _ 28 6 (by decide)).trans
    ((extract_upper (m := 10) _ _ 22 6 (by decide)).trans
    ((extract_upper (m := 6) _ _ 12 6 (by decide)).trans
    ((extract_upper (m := 6) _ _ 6 6 (by decide)).trans
    ((extract_lower (m := 6) _ _ 0 6 (by decide)).trans
    (extract_all _)))))))

/-- Field b of a word of format TK. -/
@[simp] theorem bodyTk_b (fm : BitVec 4) (oc : BitVec 6) (h : Hdr) (d a b c : Reg) (unit : BitVec 10) (param : BitVec 6) :
    (wordOf fm oc h (bodyTk d a b c unit param)).extractLsb' 47 6 = b :=
  (wordOf_body _ _ _ _ 47 6 (by decide)).trans
    ((extract_upper (m := 25) _ _ 47 6 (by decide)).trans
    ((extract_upper (m := 6) _ _ 22 6 (by decide)).trans
    ((extract_upper (m := 10) _ _ 16 6 (by decide)).trans
    ((extract_upper (m := 6) _ _ 6 6 (by decide)).trans
    ((extract_lower (m := 6) _ _ 0 6 (by decide)).trans
    (extract_all _))))))

/-- Field c of a word of format TK. -/
@[simp] theorem bodyTk_c (fm : BitVec 4) (oc : BitVec 6) (h : Hdr) (d a b c : Reg) (unit : BitVec 10) (param : BitVec 6) :
    (wordOf fm oc h (bodyTk d a b c unit param)).extractLsb' 41 6 = c :=
  (wordOf_body _ _ _ _ 41 6 (by decide)).trans
    ((extract_upper (m := 25) _ _ 41 6 (by decide)).trans
    ((extract_upper (m := 6) _ _ 16 6 (by decide)).trans
    ((extract_upper (m := 10) _ _ 10 6 (by decide)).trans
    ((extract_lower (m := 6) _ _ 0 6 (by decide)).trans
    (extract_all _)))))

/-- Field unit of a word of format TK. -/
@[simp] theorem bodyTk_unit (fm : BitVec 4) (oc : BitVec 6) (h : Hdr) (d a b c : Reg) (unit : BitVec 10) (param : BitVec 6) :
    (wordOf fm oc h (bodyTk d a b c unit param)).extractLsb' 31 10 = unit :=
  (wordOf_body _ _ _ _ 31 10 (by decide)).trans
    ((extract_upper (m := 25) _ _ 31 10 (by decide)).trans
    ((extract_upper (m := 6) _ _ 6 10 (by decide)).trans
    ((extract_lower (m := 10) _ _ 0 10 (by decide)).trans
    (extract_all _))))

/-- Field param of a word of format TK. -/
@[simp] theorem bodyTk_param (fm : BitVec 4) (oc : BitVec 6) (h : Hdr) (d a b c : Reg) (unit : BitVec 10) (param : BitVec 6) :
    (wordOf fm oc h (bodyTk d a b c unit param)).extractLsb' 25 6 = param :=
  (wordOf_body _ _ _ _ 25 6 (by decide)).trans
    ((extract_upper (m := 25) _ _ 25 6 (by decide)).trans
    ((extract_lower (m := 6) _ _ 0 6 (by decide)).trans
    (extract_all _)))

/-- Field d of a word of format SY. -/
@[simp] theorem bodySy_d (fm : BitVec 4) (oc : BitVec 6) (h : Hdr) (d a b c : Reg) (scope : BitVec 3) (aop : BitVec 5) (ty : BitVec 4) (slot : BitVec 8) :
    (wordOf fm oc h (bodySy d a b c scope aop ty slot)).extractLsb' 59 6 = d :=
  (wordOf_body _ _ _ _ 59 6 (by decide)).trans
    ((extract_upper (m := 21) _ _ 59 6 (by decide)).trans
    ((extract_upper (m := 8) _ _ 38 6 (by decide)).trans
    ((extract_upper (m := 4) _ _ 30 6 (by decide)).trans
    ((extract_upper (m := 5) _ _ 26 6 (by decide)).trans
    ((extract_upper (m := 3) _ _ 21 6 (by decide)).trans
    ((extract_upper (m := 6) _ _ 18 6 (by decide)).trans
    ((extract_upper (m := 6) _ _ 12 6 (by decide)).trans
    ((extract_upper (m := 6) _ _ 6 6 (by decide)).trans
    (extract_all _)))))))))

/-- Field a of a word of format SY. -/
@[simp] theorem bodySy_a (fm : BitVec 4) (oc : BitVec 6) (h : Hdr) (d a b c : Reg) (scope : BitVec 3) (aop : BitVec 5) (ty : BitVec 4) (slot : BitVec 8) :
    (wordOf fm oc h (bodySy d a b c scope aop ty slot)).extractLsb' 53 6 = a :=
  (wordOf_body _ _ _ _ 53 6 (by decide)).trans
    ((extract_upper (m := 21) _ _ 53 6 (by decide)).trans
    ((extract_upper (m := 8) _ _ 32 6 (by decide)).trans
    ((extract_upper (m := 4) _ _ 24 6 (by decide)).trans
    ((extract_upper (m := 5) _ _ 20 6 (by decide)).trans
    ((extract_upper (m := 3) _ _ 15 6 (by decide)).trans
    ((extract_upper (m := 6) _ _ 12 6 (by decide)).trans
    ((extract_upper (m := 6) _ _ 6 6 (by decide)).trans
    ((extract_lower (m := 6) _ _ 0 6 (by decide)).trans
    (extract_all _)))))))))

/-- Field b of a word of format SY. -/
@[simp] theorem bodySy_b (fm : BitVec 4) (oc : BitVec 6) (h : Hdr) (d a b c : Reg) (scope : BitVec 3) (aop : BitVec 5) (ty : BitVec 4) (slot : BitVec 8) :
    (wordOf fm oc h (bodySy d a b c scope aop ty slot)).extractLsb' 47 6 = b :=
  (wordOf_body _ _ _ _ 47 6 (by decide)).trans
    ((extract_upper (m := 21) _ _ 47 6 (by decide)).trans
    ((extract_upper (m := 8) _ _ 26 6 (by decide)).trans
    ((extract_upper (m := 4) _ _ 18 6 (by decide)).trans
    ((extract_upper (m := 5) _ _ 14 6 (by decide)).trans
    ((extract_upper (m := 3) _ _ 9 6 (by decide)).trans
    ((extract_upper (m := 6) _ _ 6 6 (by decide)).trans
    ((extract_lower (m := 6) _ _ 0 6 (by decide)).trans
    (extract_all _))))))))

/-- Field c of a word of format SY. -/
@[simp] theorem bodySy_c (fm : BitVec 4) (oc : BitVec 6) (h : Hdr) (d a b c : Reg) (scope : BitVec 3) (aop : BitVec 5) (ty : BitVec 4) (slot : BitVec 8) :
    (wordOf fm oc h (bodySy d a b c scope aop ty slot)).extractLsb' 41 6 = c :=
  (wordOf_body _ _ _ _ 41 6 (by decide)).trans
    ((extract_upper (m := 21) _ _ 41 6 (by decide)).trans
    ((extract_upper (m := 8) _ _ 20 6 (by decide)).trans
    ((extract_upper (m := 4) _ _ 12 6 (by decide)).trans
    ((extract_upper (m := 5) _ _ 8 6 (by decide)).trans
    ((extract_upper (m := 3) _ _ 3 6 (by decide)).trans
    ((extract_lower (m := 6) _ _ 0 6 (by decide)).trans
    (extract_all _)))))))

/-- Field scope of a word of format SY. -/
@[simp] theorem bodySy_scope (fm : BitVec 4) (oc : BitVec 6) (h : Hdr) (d a b c : Reg) (scope : BitVec 3) (aop : BitVec 5) (ty : BitVec 4) (slot : BitVec 8) :
    (wordOf fm oc h (bodySy d a b c scope aop ty slot)).extractLsb' 38 3 = scope :=
  (wordOf_body _ _ _ _ 38 3 (by decide)).trans
    ((extract_upper (m := 21) _ _ 38 3 (by decide)).trans
    ((extract_upper (m := 8) _ _ 17 3 (by decide)).trans
    ((extract_upper (m := 4) _ _ 9 3 (by decide)).trans
    ((extract_upper (m := 5) _ _ 5 3 (by decide)).trans
    ((extract_lower (m := 3) _ _ 0 3 (by decide)).trans
    (extract_all _))))))

/-- Field aop of a word of format SY. -/
@[simp] theorem bodySy_aop (fm : BitVec 4) (oc : BitVec 6) (h : Hdr) (d a b c : Reg) (scope : BitVec 3) (aop : BitVec 5) (ty : BitVec 4) (slot : BitVec 8) :
    (wordOf fm oc h (bodySy d a b c scope aop ty slot)).extractLsb' 33 5 = aop :=
  (wordOf_body _ _ _ _ 33 5 (by decide)).trans
    ((extract_upper (m := 21) _ _ 33 5 (by decide)).trans
    ((extract_upper (m := 8) _ _ 12 5 (by decide)).trans
    ((extract_upper (m := 4) _ _ 4 5 (by decide)).trans
    ((extract_lower (m := 5) _ _ 0 5 (by decide)).trans
    (extract_all _)))))

/-- Field ty of a word of format SY. -/
@[simp] theorem bodySy_ty (fm : BitVec 4) (oc : BitVec 6) (h : Hdr) (d a b c : Reg) (scope : BitVec 3) (aop : BitVec 5) (ty : BitVec 4) (slot : BitVec 8) :
    (wordOf fm oc h (bodySy d a b c scope aop ty slot)).extractLsb' 29 4 = ty :=
  (wordOf_body _ _ _ _ 29 4 (by decide)).trans
    ((extract_upper (m := 21) _ _ 29 4 (by decide)).trans
    ((extract_upper (m := 8) _ _ 8 4 (by decide)).trans
    ((extract_lower (m := 4) _ _ 0 4 (by decide)).trans
    (extract_all _))))

/-- Field slot of a word of format SY. -/
@[simp] theorem bodySy_slot (fm : BitVec 4) (oc : BitVec 6) (h : Hdr) (d a b c : Reg) (scope : BitVec 3) (aop : BitVec 5) (ty : BitVec 4) (slot : BitVec 8) :
    (wordOf fm oc h (bodySy d a b c scope aop ty slot)).extractLsb' 21 8 = slot :=
  (wordOf_body _ _ _ _ 21 8 (by decide)).trans
    ((extract_upper (m := 21) _ _ 21 8 (by decide)).trans
    ((extract_lower (m := 8) _ _ 0 8 (by decide)).trans
    (extract_all _)))

/-- Field d of a word of format BR. -/
@[simp] theorem bodyBr_d (fm : BitVec 4) (oc : BitVec 6) (h : Hdr) (d a b : Reg) (cc : BitVec 3) (u : BitVec 1) (off : BitVec 32) :
    (wordOf fm oc h (bodyBr d a b cc u off)).extractLsb' 59 6 = d :=
  (wordOf_body _ _ _ _ 59 6 (by decide)).trans
    ((extract_upper (m := 11) _ _ 59 6 (by decide)).trans
    ((extract_upper (m := 32) _ _ 48 6 (by decide)).trans
    ((extract_upper (m := 1) _ _ 16 6 (by decide)).trans
    ((extract_upper (m := 3) _ _ 15 6 (by decide)).trans
    ((extract_upper (m := 6) _ _ 12 6 (by decide)).trans
    ((extract_upper (m := 6) _ _ 6 6 (by decide)).trans
    (extract_all _)))))))

/-- Field a of a word of format BR. -/
@[simp] theorem bodyBr_a (fm : BitVec 4) (oc : BitVec 6) (h : Hdr) (d a b : Reg) (cc : BitVec 3) (u : BitVec 1) (off : BitVec 32) :
    (wordOf fm oc h (bodyBr d a b cc u off)).extractLsb' 53 6 = a :=
  (wordOf_body _ _ _ _ 53 6 (by decide)).trans
    ((extract_upper (m := 11) _ _ 53 6 (by decide)).trans
    ((extract_upper (m := 32) _ _ 42 6 (by decide)).trans
    ((extract_upper (m := 1) _ _ 10 6 (by decide)).trans
    ((extract_upper (m := 3) _ _ 9 6 (by decide)).trans
    ((extract_upper (m := 6) _ _ 6 6 (by decide)).trans
    ((extract_lower (m := 6) _ _ 0 6 (by decide)).trans
    (extract_all _)))))))

/-- Field b of a word of format BR. -/
@[simp] theorem bodyBr_b (fm : BitVec 4) (oc : BitVec 6) (h : Hdr) (d a b : Reg) (cc : BitVec 3) (u : BitVec 1) (off : BitVec 32) :
    (wordOf fm oc h (bodyBr d a b cc u off)).extractLsb' 47 6 = b :=
  (wordOf_body _ _ _ _ 47 6 (by decide)).trans
    ((extract_upper (m := 11) _ _ 47 6 (by decide)).trans
    ((extract_upper (m := 32) _ _ 36 6 (by decide)).trans
    ((extract_upper (m := 1) _ _ 4 6 (by decide)).trans
    ((extract_upper (m := 3) _ _ 3 6 (by decide)).trans
    ((extract_lower (m := 6) _ _ 0 6 (by decide)).trans
    (extract_all _))))))

/-- Field cc of a word of format BR. -/
@[simp] theorem bodyBr_cc (fm : BitVec 4) (oc : BitVec 6) (h : Hdr) (d a b : Reg) (cc : BitVec 3) (u : BitVec 1) (off : BitVec 32) :
    (wordOf fm oc h (bodyBr d a b cc u off)).extractLsb' 44 3 = cc :=
  (wordOf_body _ _ _ _ 44 3 (by decide)).trans
    ((extract_upper (m := 11) _ _ 44 3 (by decide)).trans
    ((extract_upper (m := 32) _ _ 33 3 (by decide)).trans
    ((extract_upper (m := 1) _ _ 1 3 (by decide)).trans
    ((extract_lower (m := 3) _ _ 0 3 (by decide)).trans
    (extract_all _)))))

/-- Field u of a word of format BR. -/
@[simp] theorem bodyBr_u (fm : BitVec 4) (oc : BitVec 6) (h : Hdr) (d a b : Reg) (cc : BitVec 3) (u : BitVec 1) (off : BitVec 32) :
    (wordOf fm oc h (bodyBr d a b cc u off)).extractLsb' 43 1 = u :=
  (wordOf_body _ _ _ _ 43 1 (by decide)).trans
    ((extract_upper (m := 11) _ _ 43 1 (by decide)).trans
    ((extract_upper (m := 32) _ _ 32 1 (by decide)).trans
    ((extract_lower (m := 1) _ _ 0 1 (by decide)).trans
    (extract_all _))))

/-- Field off of a word of format BR. -/
@[simp] theorem bodyBr_off (fm : BitVec 4) (oc : BitVec 6) (h : Hdr) (d a b : Reg) (cc : BitVec 3) (u : BitVec 1) (off : BitVec 32) :
    (wordOf fm oc h (bodyBr d a b cc u off)).extractLsb' 11 32 = off :=
  (wordOf_body _ _ _ _ 11 32 (by decide)).trans
    ((extract_upper (m := 11) _ _ 11 32 (by decide)).trans
    ((extract_lower (m := 32) _ _ 0 32 (by decide)).trans
    (extract_all _)))

/-- A word whose FMT and OP select an instruction with that very encoding decodes to it. -/
theorem decode_of_candidate {w : Word} {i : Instr} (hc : candidate w = some i) (he : encode i = some w) : decode w = .ok i := by
  simp only [decode, hc, he, if_true]

/-- A word that decodes is the encoding of what it decodes to. -/
theorem encode_of_decode {w : Word} {i : Instr} (h : decode w = .ok i) : encode i = some w := by
  unfold decode at h
  split at h
  · cases h
  · split at h
    · cases h; assumption
    · cases h

end Sys2Proof.Laws
end

