-- ==== Sys2Proof/Laws/State.lean ====
section
/-! SUPPORT. What each update of the state changes: one lemma for each field that it leaves as it was, and the reads of what
it writes. -/

set_option Elab.async false

namespace Sys2Proof.Machine

/-! ### Vectors -/

/-- An entry that was set. -/
@[simp] theorem vget_vset_same {α : Type} {n : Nat} (d : α) (v : Vector α n) (i : Nat) (x : α) (h : i < n) :
    vget d (vset v i x) i = x := by simp [vget, vset, Vector.getD, h]

/-- Another entry than the one set. -/
theorem vget_vset_ne {α : Type} {n : Nat} (d : α) (v : Vector α n) (i j : Nat) (x : α) (h : i ≠ j) :
    vget d (vset v i x) j = vget d v j := by
  unfold vget vset Vector.getD
  by_cases hj : j < n
  · simp [hj, h]
  · simp [hj]

/-- An entry that was changed. -/
@[simp] theorem vget_vmod_same {α : Type} {n : Nat} (d : α) (v : Vector α n) (i : Nat) (f : α → α) (h : i < n) :
    vget d (vmod v i f) i = f (vget d v i) := by simp [vget, vmod, Vector.getD, h]

/-- Another entry than the one changed. -/
theorem vget_vmod_ne {α : Type} {n : Nat} (d : α) (v : Vector α n) (i j : Nat) (f : α → α) (h : i ≠ j) :
    vget d (vmod v i f) j = vget d v j := by
  unfold vget vmod Vector.getD
  by_cases hi : i < n <;> by_cases hj : j < n <;> simp [hi, hj, h]

/-- An entry beyond the end reads as the default, changed or not. -/
theorem vget_vmod_out {α : Type} {n : Nat} (d : α) (v : Vector α n) (i j : Nat) (f : α → α) (h : n ≤ j) :
    vget d (vmod v i f) j = d := by simp [vget, Vector.getD, Nat.not_lt.mpr h]

/-! ### The parts of the module that an update leaves -/

@[simp] theorem modDie_cur (s : State) (f : Die → Die) : (modDie s f).cur = s.cur := rfl
@[simp] theorem modDie_mem (s : State) (f : Die → Die) : (modDie s f).mem = s.mem := rfl
@[simp] theorem modDie_l2 (s : State) (f : Die → Die) : (modDie s f).l2 = s.l2 := rfl
@[simp] theorem modDie_useCtr (s : State) (f : Die → Die) : (modDie s f).useCtr = s.useCtr := rfl
@[simp] theorem modDie_dedup (s : State) (f : Die → Die) : (modDie s f).dedup = s.dedup := rfl
@[simp] theorem modDie_dedupMap (s : State) (f : Die → Die) : (modDie s f).dedupMap = s.dedupMap := rfl
@[simp] theorem modDie_images (s : State) (f : Die → Die) : (modDie s f).images = s.images := rfl
@[simp] theorem modDie_dump (s : State) (f : Die → Die) : (modDie s f).dump = s.dump := rfl
@[simp] theorem modDie_clock (s : State) (f : Die → Die) : (modDie s f).clock = s.clock := rfl
@[simp] theorem modDie_gid (s : State) (f : Die → Die) : (modDie s f).gid = s.gid := rfl
@[simp] theorem modDie_io (s : State) (f : Die → Die) : (modDie s f).io = s.io := rfl
@[simp] theorem modDie_links (s : State) (f : Die → Die) : (modDie s f).links = s.links := rfl
@[simp] theorem modDie_agenda (s : State) (f : Die → Die) : (modDie s f).agenda = s.agenda := rfl
@[simp] theorem modDie_focus (s : State) (f : Die → Die) : (modDie s f).focus = s.focus := rfl
@[simp] theorem modDie_who (s : State) (f : Die → Die) : (modDie s f).who = s.who := rfl
@[simp] theorem modDie_free (s : State) (f : Die → Die) : (modDie s f).free = s.free := rfl
@[simp] theorem modDieAt_cur (s : State) (n : Nat) (f : Die → Die) : (modDieAt s n f).cur = s.cur := rfl
@[simp] theorem modDieAt_mem (s : State) (n : Nat) (f : Die → Die) : (modDieAt s n f).mem = s.mem := rfl
@[simp] theorem modDieAt_l2 (s : State) (n : Nat) (f : Die → Die) : (modDieAt s n f).l2 = s.l2 := rfl
@[simp] theorem modDieAt_useCtr (s : State) (n : Nat) (f : Die → Die) : (modDieAt s n f).useCtr = s.useCtr := rfl
@[simp] theorem modDieAt_dedup (s : State) (n : Nat) (f : Die → Die) : (modDieAt s n f).dedup = s.dedup := rfl
@[simp] theorem modDieAt_dedupMap (s : State) (n : Nat) (f : Die → Die) : (modDieAt s n f).dedupMap = s.dedupMap := rfl
@[simp] theorem modDieAt_images (s : State) (n : Nat) (f : Die → Die) : (modDieAt s n f).images = s.images := rfl
@[simp] theorem modDieAt_dump (s : State) (n : Nat) (f : Die → Die) : (modDieAt s n f).dump = s.dump := rfl
@[simp] theorem modDieAt_clock (s : State) (n : Nat) (f : Die → Die) : (modDieAt s n f).clock = s.clock := rfl
@[simp] theorem modDieAt_gid (s : State) (n : Nat) (f : Die → Die) : (modDieAt s n f).gid = s.gid := rfl
@[simp] theorem modDieAt_io (s : State) (n : Nat) (f : Die → Die) : (modDieAt s n f).io = s.io := rfl
@[simp] theorem modDieAt_links (s : State) (n : Nat) (f : Die → Die) : (modDieAt s n f).links = s.links := rfl
@[simp] theorem modDieAt_agenda (s : State) (n : Nat) (f : Die → Die) : (modDieAt s n f).agenda = s.agenda := rfl
@[simp] theorem modDieAt_focus (s : State) (n : Nat) (f : Die → Die) : (modDieAt s n f).focus = s.focus := rfl
@[simp] theorem modDieAt_who (s : State) (n : Nat) (f : Die → Die) : (modDieAt s n f).who = s.who := rfl
@[simp] theorem modDieAt_free (s : State) (n : Nat) (f : Die → Die) : (modDieAt s n f).free = s.free := rfl
@[simp] theorem modCore_cur (s : State) (c : Nat) (f : Core → Core) : (modCore s c f).cur = s.cur := rfl
@[simp] theorem modCore_mem (s : State) (c : Nat) (f : Core → Core) : (modCore s c f).mem = s.mem := rfl
@[simp] theorem modCore_l2 (s : State) (c : Nat) (f : Core → Core) : (modCore s c f).l2 = s.l2 := rfl
@[simp] theorem modCore_useCtr (s : State) (c : Nat) (f : Core → Core) : (modCore s c f).useCtr = s.useCtr := rfl
@[simp] theorem modCore_dedup (s : State) (c : Nat) (f : Core → Core) : (modCore s c f).dedup = s.dedup := rfl
@[simp] theorem modCore_dedupMap (s : State) (c : Nat) (f : Core → Core) : (modCore s c f).dedupMap = s.dedupMap := rfl
@[simp] theorem modCore_images (s : State) (c : Nat) (f : Core → Core) : (modCore s c f).images = s.images := rfl
@[simp] theorem modCore_dump (s : State) (c : Nat) (f : Core → Core) : (modCore s c f).dump = s.dump := rfl
@[simp] theorem modCore_clock (s : State) (c : Nat) (f : Core → Core) : (modCore s c f).clock = s.clock := rfl
@[simp] theorem modCore_gid (s : State) (c : Nat) (f : Core → Core) : (modCore s c f).gid = s.gid := rfl
@[simp] theorem modCore_io (s : State) (c : Nat) (f : Core → Core) : (modCore s c f).io = s.io := rfl
@[simp] theorem modCore_links (s : State) (c : Nat) (f : Core → Core) : (modCore s c f).links = s.links := rfl
@[simp] theorem modCore_agenda (s : State) (c : Nat) (f : Core → Core) : (modCore s c f).agenda = s.agenda := rfl
@[simp] theorem modCore_focus (s : State) (c : Nat) (f : Core → Core) : (modCore s c f).focus = s.focus := rfl
@[simp] theorem modCore_who (s : State) (c : Nat) (f : Core → Core) : (modCore s c f).who = s.who := rfl
@[simp] theorem modCore_free (s : State) (c : Nat) (f : Core → Core) : (modCore s c f).free = s.free := rfl
@[simp] theorem modRegion_cur (s : State) (g : Nat) (f : Region → Region) : (modRegion s g f).cur = s.cur := rfl
@[simp] theorem modRegion_mem (s : State) (g : Nat) (f : Region → Region) : (modRegion s g f).mem = s.mem := rfl
@[simp] theorem modRegion_l2 (s : State) (g : Nat) (f : Region → Region) : (modRegion s g f).l2 = s.l2 := rfl
@[simp] theorem modRegion_useCtr (s : State) (g : Nat) (f : Region → Region) : (modRegion s g f).useCtr = s.useCtr := rfl
@[simp] theorem modRegion_dedup (s : State) (g : Nat) (f : Region → Region) : (modRegion s g f).dedup = s.dedup := rfl
@[simp] theorem modRegion_dedupMap (s : State) (g : Nat) (f : Region → Region) : (modRegion s g f).dedupMap = s.dedupMap := rfl
@[simp] theorem modRegion_images (s : State) (g : Nat) (f : Region → Region) : (modRegion s g f).images = s.images := rfl
@[simp] theorem modRegion_dump (s : State) (g : Nat) (f : Region → Region) : (modRegion s g f).dump = s.dump := rfl
@[simp] theorem modRegion_clock (s : State) (g : Nat) (f : Region → Region) : (modRegion s g f).clock = s.clock := rfl
@[simp] theorem modRegion_gid (s : State) (g : Nat) (f : Region → Region) : (modRegion s g f).gid = s.gid := rfl
@[simp] theorem modRegion_io (s : State) (g : Nat) (f : Region → Region) : (modRegion s g f).io = s.io := rfl
@[simp] theorem modRegion_links (s : State) (g : Nat) (f : Region → Region) : (modRegion s g f).links = s.links := rfl
@[simp] theorem modRegion_agenda (s : State) (g : Nat) (f : Region → Region) : (modRegion s g f).agenda = s.agenda := rfl
@[simp] theorem modRegion_focus (s : State) (g : Nat) (f : Region → Region) : (modRegion s g f).focus = s.focus := rfl
@[simp] theorem modRegion_who (s : State) (g : Nat) (f : Region → Region) : (modRegion s g f).who = s.who := rfl
@[simp] theorem modRegion_free (s : State) (g : Nat) (f : Region → Region) : (modRegion s g f).free = s.free := rfl
@[simp] theorem modElem_cur (s : State) (g k : Nat) (f : Element → Element) : (modElem s g k f).cur = s.cur := rfl
@[simp] theorem modElem_mem (s : State) (g k : Nat) (f : Element → Element) : (modElem s g k f).mem = s.mem := rfl
@[simp] theorem modElem_l2 (s : State) (g k : Nat) (f : Element → Element) : (modElem s g k f).l2 = s.l2 := rfl
@[simp] theorem modElem_useCtr (s : State) (g k : Nat) (f : Element → Element) : (modElem s g k f).useCtr = s.useCtr := rfl
@[simp] theorem modElem_dedup (s : State) (g k : Nat) (f : Element → Element) : (modElem s g k f).dedup = s.dedup := rfl
@[simp] theorem modElem_dedupMap (s : State) (g k : Nat) (f : Element → Element) : (modElem s g k f).dedupMap = s.dedupMap := rfl
@[simp] theorem modElem_images (s : State) (g k : Nat) (f : Element → Element) : (modElem s g k f).images = s.images := rfl
@[simp] theorem modElem_dump (s : State) (g k : Nat) (f : Element → Element) : (modElem s g k f).dump = s.dump := rfl
@[simp] theorem modElem_clock (s : State) (g k : Nat) (f : Element → Element) : (modElem s g k f).clock = s.clock := rfl
@[simp] theorem modElem_gid (s : State) (g k : Nat) (f : Element → Element) : (modElem s g k f).gid = s.gid := rfl
@[simp] theorem modElem_io (s : State) (g k : Nat) (f : Element → Element) : (modElem s g k f).io = s.io := rfl
@[simp] theorem modElem_links (s : State) (g k : Nat) (f : Element → Element) : (modElem s g k f).links = s.links := rfl
@[simp] theorem modElem_agenda (s : State) (g k : Nat) (f : Element → Element) : (modElem s g k f).agenda = s.agenda := rfl
@[simp] theorem modElem_focus (s : State) (g k : Nat) (f : Element → Element) : (modElem s g k f).focus = s.focus := rfl
@[simp] theorem modElem_who (s : State) (g k : Nat) (f : Element → Element) : (modElem s g k f).who = s.who := rfl
@[simp] theorem modElem_free (s : State) (g k : Nat) (f : Element → Element) : (modElem s g k f).free = s.free := rfl
@[simp] theorem modMyElem_cur (s : State) (f : Element → Element) : (modMyElem s f).cur = s.cur := rfl
@[simp] theorem modMyElem_mem (s : State) (f : Element → Element) : (modMyElem s f).mem = s.mem := rfl
@[simp] theorem modMyElem_l2 (s : State) (f : Element → Element) : (modMyElem s f).l2 = s.l2 := rfl
@[simp] theorem modMyElem_useCtr (s : State) (f : Element → Element) : (modMyElem s f).useCtr = s.useCtr := rfl
@[simp] theorem modMyElem_dedup (s : State) (f : Element → Element) : (modMyElem s f).dedup = s.dedup := rfl
@[simp] theorem modMyElem_dedupMap (s : State) (f : Element → Element) : (modMyElem s f).dedupMap = s.dedupMap := rfl
@[simp] theorem modMyElem_images (s : State) (f : Element → Element) : (modMyElem s f).images = s.images := rfl
@[simp] theorem modMyElem_dump (s : State) (f : Element → Element) : (modMyElem s f).dump = s.dump := rfl
@[simp] theorem modMyElem_clock (s : State) (f : Element → Element) : (modMyElem s f).clock = s.clock := rfl
@[simp] theorem modMyElem_gid (s : State) (f : Element → Element) : (modMyElem s f).gid = s.gid := rfl
@[simp] theorem modMyElem_io (s : State) (f : Element → Element) : (modMyElem s f).io = s.io := rfl
@[simp] theorem modMyElem_links (s : State) (f : Element → Element) : (modMyElem s f).links = s.links := rfl
@[simp] theorem modMyElem_agenda (s : State) (f : Element → Element) : (modMyElem s f).agenda = s.agenda := rfl
@[simp] theorem modMyElem_focus (s : State) (f : Element → Element) : (modMyElem s f).focus = s.focus := rfl
@[simp] theorem modMyElem_who (s : State) (f : Element → Element) : (modMyElem s f).who = s.who := rfl
@[simp] theorem modMyElem_free (s : State) (f : Element → Element) : (modMyElem s f).free = s.free := rfl
@[simp] theorem modUnit_cur (s : State) (u : Nat) (f : OpUnit → OpUnit) : (modUnit s u f).cur = s.cur := rfl
@[simp] theorem modUnit_mem (s : State) (u : Nat) (f : OpUnit → OpUnit) : (modUnit s u f).mem = s.mem := rfl
@[simp] theorem modUnit_l2 (s : State) (u : Nat) (f : OpUnit → OpUnit) : (modUnit s u f).l2 = s.l2 := rfl
@[simp] theorem modUnit_useCtr (s : State) (u : Nat) (f : OpUnit → OpUnit) : (modUnit s u f).useCtr = s.useCtr := rfl
@[simp] theorem modUnit_dedup (s : State) (u : Nat) (f : OpUnit → OpUnit) : (modUnit s u f).dedup = s.dedup := rfl
@[simp] theorem modUnit_dedupMap (s : State) (u : Nat) (f : OpUnit → OpUnit) : (modUnit s u f).dedupMap = s.dedupMap := rfl
@[simp] theorem modUnit_images (s : State) (u : Nat) (f : OpUnit → OpUnit) : (modUnit s u f).images = s.images := rfl
@[simp] theorem modUnit_dump (s : State) (u : Nat) (f : OpUnit → OpUnit) : (modUnit s u f).dump = s.dump := rfl
@[simp] theorem modUnit_clock (s : State) (u : Nat) (f : OpUnit → OpUnit) : (modUnit s u f).clock = s.clock := rfl
@[simp] theorem modUnit_gid (s : State) (u : Nat) (f : OpUnit → OpUnit) : (modUnit s u f).gid = s.gid := rfl
@[simp] theorem modUnit_io (s : State) (u : Nat) (f : OpUnit → OpUnit) : (modUnit s u f).io = s.io := rfl
@[simp] theorem modUnit_links (s : State) (u : Nat) (f : OpUnit → OpUnit) : (modUnit s u f).links = s.links := rfl
@[simp] theorem modUnit_agenda (s : State) (u : Nat) (f : OpUnit → OpUnit) : (modUnit s u f).agenda = s.agenda := rfl
@[simp] theorem modUnit_focus (s : State) (u : Nat) (f : OpUnit → OpUnit) : (modUnit s u f).focus = s.focus := rfl
@[simp] theorem modUnit_who (s : State) (u : Nat) (f : OpUnit → OpUnit) : (modUnit s u f).who = s.who := rfl
@[simp] theorem modUnit_free (s : State) (u : Nat) (f : OpUnit → OpUnit) : (modUnit s u f).free = s.free := rfl
@[simp] theorem modConv_cur (s : State) (k : Nat) (f : Conv → Conv) : (modConv s k f).cur = s.cur := rfl
@[simp] theorem modConv_mem (s : State) (k : Nat) (f : Conv → Conv) : (modConv s k f).mem = s.mem := rfl
@[simp] theorem modConv_l2 (s : State) (k : Nat) (f : Conv → Conv) : (modConv s k f).l2 = s.l2 := rfl
@[simp] theorem modConv_useCtr (s : State) (k : Nat) (f : Conv → Conv) : (modConv s k f).useCtr = s.useCtr := rfl
@[simp] theorem modConv_dedup (s : State) (k : Nat) (f : Conv → Conv) : (modConv s k f).dedup = s.dedup := rfl
@[simp] theorem modConv_dedupMap (s : State) (k : Nat) (f : Conv → Conv) : (modConv s k f).dedupMap = s.dedupMap := rfl
@[simp] theorem modConv_images (s : State) (k : Nat) (f : Conv → Conv) : (modConv s k f).images = s.images := rfl
@[simp] theorem modConv_dump (s : State) (k : Nat) (f : Conv → Conv) : (modConv s k f).dump = s.dump := rfl
@[simp] theorem modConv_clock (s : State) (k : Nat) (f : Conv → Conv) : (modConv s k f).clock = s.clock := rfl
@[simp] theorem modConv_gid (s : State) (k : Nat) (f : Conv → Conv) : (modConv s k f).gid = s.gid := rfl
@[simp] theorem modConv_io (s : State) (k : Nat) (f : Conv → Conv) : (modConv s k f).io = s.io := rfl
@[simp] theorem modConv_links (s : State) (k : Nat) (f : Conv → Conv) : (modConv s k f).links = s.links := rfl
@[simp] theorem modConv_agenda (s : State) (k : Nat) (f : Conv → Conv) : (modConv s k f).agenda = s.agenda := rfl
@[simp] theorem modConv_focus (s : State) (k : Nat) (f : Conv → Conv) : (modConv s k f).focus = s.focus := rfl
@[simp] theorem modConv_who (s : State) (k : Nat) (f : Conv → Conv) : (modConv s k f).who = s.who := rfl
@[simp] theorem modConv_free (s : State) (k : Nat) (f : Conv → Conv) : (modConv s k f).free = s.free := rfl
@[simp] theorem modPort_cur (s : State) (g p : Nat) (f : Port → Port) : (modPort s g p f).cur = s.cur := rfl
@[simp] theorem modPort_mem (s : State) (g p : Nat) (f : Port → Port) : (modPort s g p f).mem = s.mem := rfl
@[simp] theorem modPort_l2 (s : State) (g p : Nat) (f : Port → Port) : (modPort s g p f).l2 = s.l2 := rfl
@[simp] theorem modPort_useCtr (s : State) (g p : Nat) (f : Port → Port) : (modPort s g p f).useCtr = s.useCtr := rfl
@[simp] theorem modPort_dedup (s : State) (g p : Nat) (f : Port → Port) : (modPort s g p f).dedup = s.dedup := rfl
@[simp] theorem modPort_dedupMap (s : State) (g p : Nat) (f : Port → Port) : (modPort s g p f).dedupMap = s.dedupMap := rfl
@[simp] theorem modPort_images (s : State) (g p : Nat) (f : Port → Port) : (modPort s g p f).images = s.images := rfl
@[simp] theorem modPort_dump (s : State) (g p : Nat) (f : Port → Port) : (modPort s g p f).dump = s.dump := rfl
@[simp] theorem modPort_clock (s : State) (g p : Nat) (f : Port → Port) : (modPort s g p f).clock = s.clock := rfl
@[simp] theorem modPort_gid (s : State) (g p : Nat) (f : Port → Port) : (modPort s g p f).gid = s.gid := rfl
@[simp] theorem modPort_io (s : State) (g p : Nat) (f : Port → Port) : (modPort s g p f).io = s.io := rfl
@[simp] theorem modPort_links (s : State) (g p : Nat) (f : Port → Port) : (modPort s g p f).links = s.links := rfl
@[simp] theorem modPort_agenda (s : State) (g p : Nat) (f : Port → Port) : (modPort s g p f).agenda = s.agenda := rfl
@[simp] theorem modPort_focus (s : State) (g p : Nat) (f : Port → Port) : (modPort s g p f).focus = s.focus := rfl
@[simp] theorem modPort_who (s : State) (g p : Nat) (f : Port → Port) : (modPort s g p f).who = s.who := rfl
@[simp] theorem modPort_free (s : State) (g p : Nat) (f : Port → Port) : (modPort s g p f).free = s.free := rfl
@[simp] theorem modStream_cur (s : State) (n : Nat) (f : Stream → Stream) : (modStream s n f).cur = s.cur := rfl
@[simp] theorem modStream_mem (s : State) (n : Nat) (f : Stream → Stream) : (modStream s n f).mem = s.mem := rfl
@[simp] theorem modStream_l2 (s : State) (n : Nat) (f : Stream → Stream) : (modStream s n f).l2 = s.l2 := rfl
@[simp] theorem modStream_useCtr (s : State) (n : Nat) (f : Stream → Stream) : (modStream s n f).useCtr = s.useCtr := rfl
@[simp] theorem modStream_dedup (s : State) (n : Nat) (f : Stream → Stream) : (modStream s n f).dedup = s.dedup := rfl
@[simp] theorem modStream_dedupMap (s : State) (n : Nat) (f : Stream → Stream) : (modStream s n f).dedupMap = s.dedupMap := rfl
@[simp] theorem modStream_images (s : State) (n : Nat) (f : Stream → Stream) : (modStream s n f).images = s.images := rfl
@[simp] theorem modStream_dump (s : State) (n : Nat) (f : Stream → Stream) : (modStream s n f).dump = s.dump := rfl
@[simp] theorem modStream_clock (s : State) (n : Nat) (f : Stream → Stream) : (modStream s n f).clock = s.clock := rfl
@[simp] theorem modStream_gid (s : State) (n : Nat) (f : Stream → Stream) : (modStream s n f).gid = s.gid := rfl
@[simp] theorem modStream_io (s : State) (n : Nat) (f : Stream → Stream) : (modStream s n f).io = s.io := rfl
@[simp] theorem modStream_links (s : State) (n : Nat) (f : Stream → Stream) : (modStream s n f).links = s.links := rfl
@[simp] theorem modStream_agenda (s : State) (n : Nat) (f : Stream → Stream) : (modStream s n f).agenda = s.agenda := rfl
@[simp] theorem modStream_focus (s : State) (n : Nat) (f : Stream → Stream) : (modStream s n f).focus = s.focus := rfl
@[simp] theorem modStream_who (s : State) (n : Nat) (f : Stream → Stream) : (modStream s n f).who = s.who := rfl
@[simp] theorem modStream_free (s : State) (n : Nat) (f : Stream → Stream) : (modStream s n f).free = s.free := rfl
@[simp] theorem modQueue_cur (s : State) (q : Nat) (f : Queue → Queue) : (modQueue s q f).cur = s.cur := rfl
@[simp] theorem modQueue_mem (s : State) (q : Nat) (f : Queue → Queue) : (modQueue s q f).mem = s.mem := rfl
@[simp] theorem modQueue_l2 (s : State) (q : Nat) (f : Queue → Queue) : (modQueue s q f).l2 = s.l2 := rfl
@[simp] theorem modQueue_useCtr (s : State) (q : Nat) (f : Queue → Queue) : (modQueue s q f).useCtr = s.useCtr := rfl
@[simp] theorem modQueue_dedup (s : State) (q : Nat) (f : Queue → Queue) : (modQueue s q f).dedup = s.dedup := rfl
@[simp] theorem modQueue_dedupMap (s : State) (q : Nat) (f : Queue → Queue) : (modQueue s q f).dedupMap = s.dedupMap := rfl
@[simp] theorem modQueue_images (s : State) (q : Nat) (f : Queue → Queue) : (modQueue s q f).images = s.images := rfl
@[simp] theorem modQueue_dump (s : State) (q : Nat) (f : Queue → Queue) : (modQueue s q f).dump = s.dump := rfl
@[simp] theorem modQueue_clock (s : State) (q : Nat) (f : Queue → Queue) : (modQueue s q f).clock = s.clock := rfl
@[simp] theorem modQueue_gid (s : State) (q : Nat) (f : Queue → Queue) : (modQueue s q f).gid = s.gid := rfl
@[simp] theorem modQueue_io (s : State) (q : Nat) (f : Queue → Queue) : (modQueue s q f).io = s.io := rfl
@[simp] theorem modQueue_links (s : State) (q : Nat) (f : Queue → Queue) : (modQueue s q f).links = s.links := rfl
@[simp] theorem modQueue_agenda (s : State) (q : Nat) (f : Queue → Queue) : (modQueue s q f).agenda = s.agenda := rfl
@[simp] theorem modQueue_focus (s : State) (q : Nat) (f : Queue → Queue) : (modQueue s q f).focus = s.focus := rfl
@[simp] theorem modQueue_who (s : State) (q : Nat) (f : Queue → Queue) : (modQueue s q f).who = s.who := rfl
@[simp] theorem modQueue_free (s : State) (q : Nat) (f : Queue → Queue) : (modQueue s q f).free = s.free := rfl
@[simp] theorem modGraph_cur (s : State) (gid : Nat) (f : Graph → Graph) : (modGraph s gid f).cur = s.cur := rfl
@[simp] theorem modGraph_mem (s : State) (gid : Nat) (f : Graph → Graph) : (modGraph s gid f).mem = s.mem := rfl
@[simp] theorem modGraph_l2 (s : State) (gid : Nat) (f : Graph → Graph) : (modGraph s gid f).l2 = s.l2 := rfl
@[simp] theorem modGraph_useCtr (s : State) (gid : Nat) (f : Graph → Graph) : (modGraph s gid f).useCtr = s.useCtr := rfl
@[simp] theorem modGraph_dedup (s : State) (gid : Nat) (f : Graph → Graph) : (modGraph s gid f).dedup = s.dedup := rfl
@[simp] theorem modGraph_dedupMap (s : State) (gid : Nat) (f : Graph → Graph) : (modGraph s gid f).dedupMap = s.dedupMap := rfl
@[simp] theorem modGraph_images (s : State) (gid : Nat) (f : Graph → Graph) : (modGraph s gid f).images = s.images := rfl
@[simp] theorem modGraph_dump (s : State) (gid : Nat) (f : Graph → Graph) : (modGraph s gid f).dump = s.dump := rfl
@[simp] theorem modGraph_clock (s : State) (gid : Nat) (f : Graph → Graph) : (modGraph s gid f).clock = s.clock := rfl
@[simp] theorem modGraph_gid (s : State) (gid : Nat) (f : Graph → Graph) : (modGraph s gid f).gid = s.gid := rfl
@[simp] theorem modGraph_io (s : State) (gid : Nat) (f : Graph → Graph) : (modGraph s gid f).io = s.io := rfl
@[simp] theorem modGraph_links (s : State) (gid : Nat) (f : Graph → Graph) : (modGraph s gid f).links = s.links := rfl
@[simp] theorem modGraph_agenda (s : State) (gid : Nat) (f : Graph → Graph) : (modGraph s gid f).agenda = s.agenda := rfl
@[simp] theorem modGraph_focus (s : State) (gid : Nat) (f : Graph → Graph) : (modGraph s gid f).focus = s.focus := rfl
@[simp] theorem modGraph_who (s : State) (gid : Nat) (f : Graph → Graph) : (modGraph s gid f).who = s.who := rfl
@[simp] theorem modGraph_free (s : State) (gid : Nat) (f : Graph → Graph) : (modGraph s gid f).free = s.free := rfl
@[simp] theorem advance_cur (s : State) : (advance s).cur = s.cur := rfl
@[simp] theorem advance_mem (s : State) : (advance s).mem = s.mem := rfl
@[simp] theorem advance_l2 (s : State) : (advance s).l2 = s.l2 := rfl
@[simp] theorem advance_useCtr (s : State) : (advance s).useCtr = s.useCtr := rfl
@[simp] theorem advance_dedup (s : State) : (advance s).dedup = s.dedup := rfl
@[simp] theorem advance_dedupMap (s : State) : (advance s).dedupMap = s.dedupMap := rfl
@[simp] theorem advance_images (s : State) : (advance s).images = s.images := rfl
@[simp] theorem advance_dump (s : State) : (advance s).dump = s.dump := rfl
@[simp] theorem advance_clock (s : State) : (advance s).clock = s.clock := rfl
@[simp] theorem advance_gid (s : State) : (advance s).gid = s.gid := rfl
@[simp] theorem advance_io (s : State) : (advance s).io = s.io := rfl
@[simp] theorem advance_links (s : State) : (advance s).links = s.links := rfl
@[simp] theorem advance_agenda (s : State) : (advance s).agenda = s.agenda := rfl
@[simp] theorem advance_focus (s : State) : (advance s).focus = s.focus := rfl
@[simp] theorem advance_who (s : State) : (advance s).who = s.who := rfl
@[simp] theorem advance_free (s : State) : (advance s).free = s.free := rfl
@[simp] theorem modLink_dies (s : State) (k : Nat) (f : Link → Link) : (modLink s k f).dies = s.dies := rfl
@[simp] theorem modLink_cur (s : State) (k : Nat) (f : Link → Link) : (modLink s k f).cur = s.cur := rfl
@[simp] theorem modLink_mem (s : State) (k : Nat) (f : Link → Link) : (modLink s k f).mem = s.mem := rfl
@[simp] theorem modLink_l2 (s : State) (k : Nat) (f : Link → Link) : (modLink s k f).l2 = s.l2 := rfl
@[simp] theorem modLink_useCtr (s : State) (k : Nat) (f : Link → Link) : (modLink s k f).useCtr = s.useCtr := rfl
@[simp] theorem modLink_dedup (s : State) (k : Nat) (f : Link → Link) : (modLink s k f).dedup = s.dedup := rfl
@[simp] theorem modLink_dedupMap (s : State) (k : Nat) (f : Link → Link) : (modLink s k f).dedupMap = s.dedupMap := rfl
@[simp] theorem modLink_images (s : State) (k : Nat) (f : Link → Link) : (modLink s k f).images = s.images := rfl
@[simp] theorem modLink_dump (s : State) (k : Nat) (f : Link → Link) : (modLink s k f).dump = s.dump := rfl
@[simp] theorem modLink_clock (s : State) (k : Nat) (f : Link → Link) : (modLink s k f).clock = s.clock := rfl
@[simp] theorem modLink_gid (s : State) (k : Nat) (f : Link → Link) : (modLink s k f).gid = s.gid := rfl
@[simp] theorem modLink_io (s : State) (k : Nat) (f : Link → Link) : (modLink s k f).io = s.io := rfl
@[simp] theorem modLink_agenda (s : State) (k : Nat) (f : Link → Link) : (modLink s k f).agenda = s.agenda := rfl
@[simp] theorem modLink_focus (s : State) (k : Nat) (f : Link → Link) : (modLink s k f).focus = s.focus := rfl
@[simp] theorem modLink_who (s : State) (k : Nat) (f : Link → Link) : (modLink s k f).who = s.who := rfl
@[simp] theorem modLink_free (s : State) (k : Nat) (f : Link → Link) : (modLink s k f).free = s.free := rfl
@[simp] theorem modEth_dies (s : State) (p : Nat) (f : EthPort → EthPort) : (modEth s p f).dies = s.dies := rfl
@[simp] theorem modEth_cur (s : State) (p : Nat) (f : EthPort → EthPort) : (modEth s p f).cur = s.cur := rfl
@[simp] theorem modEth_mem (s : State) (p : Nat) (f : EthPort → EthPort) : (modEth s p f).mem = s.mem := rfl
@[simp] theorem modEth_l2 (s : State) (p : Nat) (f : EthPort → EthPort) : (modEth s p f).l2 = s.l2 := rfl
@[simp] theorem modEth_useCtr (s : State) (p : Nat) (f : EthPort → EthPort) : (modEth s p f).useCtr = s.useCtr := rfl
@[simp] theorem modEth_dedup (s : State) (p : Nat) (f : EthPort → EthPort) : (modEth s p f).dedup = s.dedup := rfl
@[simp] theorem modEth_dedupMap (s : State) (p : Nat) (f : EthPort → EthPort) : (modEth s p f).dedupMap = s.dedupMap := rfl
@[simp] theorem modEth_images (s : State) (p : Nat) (f : EthPort → EthPort) : (modEth s p f).images = s.images := rfl
@[simp] theorem modEth_dump (s : State) (p : Nat) (f : EthPort → EthPort) : (modEth s p f).dump = s.dump := rfl
@[simp] theorem modEth_clock (s : State) (p : Nat) (f : EthPort → EthPort) : (modEth s p f).clock = s.clock := rfl
@[simp] theorem modEth_gid (s : State) (p : Nat) (f : EthPort → EthPort) : (modEth s p f).gid = s.gid := rfl
@[simp] theorem modEth_links (s : State) (p : Nat) (f : EthPort → EthPort) : (modEth s p f).links = s.links := rfl
@[simp] theorem modEth_agenda (s : State) (p : Nat) (f : EthPort → EthPort) : (modEth s p f).agenda = s.agenda := rfl
@[simp] theorem modEth_focus (s : State) (p : Nat) (f : EthPort → EthPort) : (modEth s p f).focus = s.focus := rfl
@[simp] theorem modEth_who (s : State) (p : Nat) (f : EthPort → EthPort) : (modEth s p f).who = s.who := rfl
@[simp] theorem modEth_free (s : State) (p : Nat) (f : EthPort → EthPort) : (modEth s p f).free = s.free := rfl

/-! ### The focused die -/

@[simp] theorem die_modDie (s : State) (f : Die → Die) : die (modDie s f) = f (die s) := by simp [die, modDie]
@[simp] theorem die_modCore (s : State) (c : Nat) (f : Core → Core) :
    die (modCore s c f) = { die s with cores := vmod (die s).cores c f } := by simp [modCore]
@[simp] theorem die_modRegion (s : State) (g : Nat) (f : Region → Region) :
    die (modRegion s g f) = { die s with regions := vmod (die s).regions g f } := by simp [modRegion]
@[simp] theorem die_modUnit (s : State) (u : Nat) (f : OpUnit → OpUnit) :
    die (modUnit s u f) = { die s with units := vmod (die s).units u f } := by simp [modUnit]
@[simp] theorem die_modConv (s : State) (k : Nat) (f : Conv → Conv) :
    die (modConv s k f) = { die s with convs := vmod (die s).convs k f } := by simp [modConv]
@[simp] theorem die_modStream (s : State) (n : Nat) (f : Stream → Stream) :
    die (modStream s n f) = { die s with streams := vmod (die s).streams n f } := by simp [modStream]
@[simp] theorem die_modQueue (s : State) (q : Nat) (f : Queue → Queue) :
    die (modQueue s q f) = { die s with queues := vmod (die s).queues q f } := by simp [modQueue]
@[simp] theorem die_modGraph (s : State) (gid : Nat) (f : Graph → Graph) :
    die (modGraph s gid f) = { die s with graphs := (die s).graphs.map fun g => if g.gid == gid then f g else g } := by
  simp [modGraph]

/-- Another die than the one in focus. -/
theorem dieAt_modDie_ne (s : State) (f : Die → Die) (n : Nat) (h : s.cur.val ≠ n) : dieAt (modDie s f) n = dieAt s n := by
  unfold dieAt modDie vget Vector.getD
  by_cases hn : n < 24 <;> simp [hn, h]

/-! ### Cores and regions -/

@[simp] theorem core_modCore_same (s : State) (c : Nat) (f : Core → Core) (h : c < 33) :
    core (modCore s c f) c = f (core s c) := by simp [core, h]
theorem core_modCore_ne (s : State) (c c' : Nat) (f : Core → Core) (h : c ≠ c') : core (modCore s c f) c' = core s c' := by
  simp [core, vget_vmod_ne _ _ _ _ _ h]
@[simp] theorem core_modRegion (s : State) (g c : Nat) (f : Region → Region) : core (modRegion s g f) c = core s c := by
  simp [core]
@[simp] theorem core_modUnit (s : State) (u c : Nat) (f : OpUnit → OpUnit) : core (modUnit s u f) c = core s c := by simp [core]
@[simp] theorem core_modGraph (s : State) (gid c : Nat) (f : Graph → Graph) : core (modGraph s gid f) c = core s c := by
  simp [core]
@[simp] theorem region_modRegion_same (s : State) (g : Nat) (f : Region → Region) (h : g < 32) :
    region (modRegion s g f) g = f (region s g) := by simp [region, h]
theorem region_modRegion_ne (s : State) (g g' : Nat) (f : Region → Region) (h : g ≠ g') :
    region (modRegion s g f) g' = region s g' := by simp [region, vget_vmod_ne _ _ _ _ _ h]
@[simp] theorem region_modCore (s : State) (c g : Nat) (f : Core → Core) : region (modCore s c f) g = region s g := by
  simp [region]
@[simp] theorem region_modUnit (s : State) (u g : Nat) (f : OpUnit → OpUnit) : region (modUnit s u f) g = region s g := by
  simp [region]
@[simp] theorem region_modGraph (s : State) (gid g : Nat) (f : Graph → Graph) : region (modGraph s gid f) g = region s g := by
  simp [region]
@[simp] theorem opUnit_modUnit_same (s : State) (u : Nat) (f : OpUnit → OpUnit) (h : u < 768) :
    opUnit (modUnit s u f) u = f (opUnit s u) := by simp [opUnit, h]
theorem opUnit_modUnit_ne (s : State) (u v : Nat) (f : OpUnit → OpUnit) (h : u ≠ v) : opUnit (modUnit s u f) v = opUnit s v := by
  simp [opUnit, vget_vmod_ne _ _ _ _ _ h]
@[simp] theorem queue_modQueue_same (s : State) (q : Nat) (f : Queue → Queue) (h : q < 64) :
    queue (modQueue s q f) q = f (queue s q) := by simp [queue, h]

/-! ### Elements -/

@[simp] theorem elemAt_modElem_same (s : State) (g k : Nat) (f : Element → Element) (hg : g < 32) (hk : k < 128) :
    elemAt (modElem s g k f) g k = f (elemAt s g k) := by simp [elemAt, modElem, hg, hk]
theorem elemAt_modElem_ne (s : State) (g k g' k' : Nat) (f : Element → Element) (h : g ≠ g' ∨ k ≠ k') :
    elemAt (modElem s g k f) g' k' = elemAt s g' k' := by
  unfold elemAt modElem
  by_cases hg : g = g'
  · subst hg
    have hk : k ≠ k' := by rcases h with h | h <;> simp_all
    by_cases hb : g < 32
    · simp [hb, vget_vmod_ne _ _ _ _ _ hk]
    · have : ∀ t : State, region t g = Region.reset := fun t => by
        simp [region, vget, Vector.getD, hb]
      simp [this]
  · simp [region_modRegion_ne _ _ _ _ hg]

/-! ### The numbers of the executing context -/

theorem myCore_lt (s : State) : myCore s < 33 := by
  unfold myCore
  split <;> omega
theorem myRegion_lt (s : State) : myRegion s < 32 := by
  unfold myRegion
  split <;> omega
theorem myElemIx_lt (s : State) : myElemIx s < 128 := by
  unfold myElemIx myRow myCol
  split <;> omega

/-- What a core reads in place of its own number, its kind and its region hangs on `who` alone. -/
theorem kindOf_congr {s t : State} (h : t.who = s.who) : kindOf t = kindOf s := by simp [kindOf, h]
theorem myCore_congr {s t : State} (h : t.who = s.who) : myCore t = myCore s := by simp [myCore, h]
theorem myRegion_congr {s t : State} (h : t.who = s.who) : myRegion t = myRegion s := by simp [myRegion, h]

/-! ### Registers -/

/-- x0 reads 0, whatever has been written to it (R74). -/
@[simp] theorem xreg_zero (s : State) (c : Nat) : xreg s c 0 = 0 := by simp [xreg]
/-- A write of x0 is discarded (R74). -/
@[simp] theorem setX_zero (s : State) (c : Nat) (v : X) : setX s c 0 v = s := by simp [setX]
/-- A register reads what was written. -/
theorem xreg_setX_same (s : State) (c r : Nat) (v : X) (hc : c < 33) (hr : r < 32) (h0 : r ≠ 0) :
    xreg (setX s c r v) c r = v := by simp [xreg, setX, h0, hc, hr]
/-- Any other register of any core keeps its value. -/
theorem xreg_setX_ne (s : State) (c c' r r' : Nat) (v : X) (h : c ≠ c' ∨ r ≠ r') :
    xreg (setX s c r v) c' r' = xreg s c' r' := by
  unfold xreg setX
  by_cases h0 : r = 0
  · simp [h0]
  · by_cases hc : c = c'
    · subst hc
      have hr : r ≠ r' := by rcases h with h | h <;> simp_all
      by_cases hb : c < 33
      · simp [h0, hb, vget_vset_ne _ _ _ _ _ hr]
      · have : ∀ t : State, core t c = Core.reset := fun t => by simp [core, vget, Vector.getD, hb]
        simp [h0, this]
    · simp [h0, core_modCore_ne _ _ _ _ hc]

@[simp] theorem setX_cur (s : State) (c r : Nat) (v : X) : (setX s c r v).cur = s.cur := by unfold setX; split <;> rfl
@[simp] theorem setX_mem (s : State) (c r : Nat) (v : X) : (setX s c r v).mem = s.mem := by unfold setX; split <;> rfl
@[simp] theorem setX_l2 (s : State) (c r : Nat) (v : X) : (setX s c r v).l2 = s.l2 := by unfold setX; split <;> rfl
@[simp] theorem setX_useCtr (s : State) (c r : Nat) (v : X) : (setX s c r v).useCtr = s.useCtr := by unfold setX; split <;> rfl
@[simp] theorem setX_dedup (s : State) (c r : Nat) (v : X) : (setX s c r v).dedup = s.dedup := by unfold setX; split <;> rfl
@[simp] theorem setX_dedupMap (s : State) (c r : Nat) (v : X) : (setX s c r v).dedupMap = s.dedupMap := by unfold setX; split <;> rfl
@[simp] theorem setX_images (s : State) (c r : Nat) (v : X) : (setX s c r v).images = s.images := by unfold setX; split <;> rfl
@[simp] theorem setX_dump (s : State) (c r : Nat) (v : X) : (setX s c r v).dump = s.dump := by unfold setX; split <;> rfl
@[simp] theorem setX_clock (s : State) (c r : Nat) (v : X) : (setX s c r v).clock = s.clock := by unfold setX; split <;> rfl
@[simp] theorem setX_gid (s : State) (c r : Nat) (v : X) : (setX s c r v).gid = s.gid := by unfold setX; split <;> rfl
@[simp] theorem setX_io (s : State) (c r : Nat) (v : X) : (setX s c r v).io = s.io := by unfold setX; split <;> rfl
@[simp] theorem setX_links (s : State) (c r : Nat) (v : X) : (setX s c r v).links = s.links := by unfold setX; split <;> rfl
@[simp] theorem setX_agenda (s : State) (c r : Nat) (v : X) : (setX s c r v).agenda = s.agenda := by unfold setX; split <;> rfl
@[simp] theorem setX_focus (s : State) (c r : Nat) (v : X) : (setX s c r v).focus = s.focus := by unfold setX; split <;> rfl
@[simp] theorem setX_who (s : State) (c r : Nat) (v : X) : (setX s c r v).who = s.who := by unfold setX; split <;> rfl
@[simp] theorem setX_free (s : State) (c r : Nat) (v : X) : (setX s c r v).free = s.free := by unfold setX; split <;> rfl
@[simp] theorem retX_cur (s : State) (d : Reg) (v : X) : (retX s d v).cur = s.cur := by simp [retX]
@[simp] theorem retX_mem (s : State) (d : Reg) (v : X) : (retX s d v).mem = s.mem := by simp [retX]
@[simp] theorem retX_l2 (s : State) (d : Reg) (v : X) : (retX s d v).l2 = s.l2 := by simp [retX]
@[simp] theorem retX_useCtr (s : State) (d : Reg) (v : X) : (retX s d v).useCtr = s.useCtr := by simp [retX]
@[simp] theorem retX_dedup (s : State) (d : Reg) (v : X) : (retX s d v).dedup = s.dedup := by simp [retX]
@[simp] theorem retX_dedupMap (s : State) (d : Reg) (v : X) : (retX s d v).dedupMap = s.dedupMap := by simp [retX]
@[simp] theorem retX_images (s : State) (d : Reg) (v : X) : (retX s d v).images = s.images := by simp [retX]
@[simp] theorem retX_dump (s : State) (d : Reg) (v : X) : (retX s d v).dump = s.dump := by simp [retX]
@[simp] theorem retX_clock (s : State) (d : Reg) (v : X) : (retX s d v).clock = s.clock := by simp [retX]
@[simp] theorem retX_gid (s : State) (d : Reg) (v : X) : (retX s d v).gid = s.gid := by simp [retX]
@[simp] theorem retX_io (s : State) (d : Reg) (v : X) : (retX s d v).io = s.io := by simp [retX]
@[simp] theorem retX_links (s : State) (d : Reg) (v : X) : (retX s d v).links = s.links := by simp [retX]
@[simp] theorem retX_agenda (s : State) (d : Reg) (v : X) : (retX s d v).agenda = s.agenda := by simp [retX]
@[simp] theorem retX_focus (s : State) (d : Reg) (v : X) : (retX s d v).focus = s.focus := by simp [retX]
@[simp] theorem retX_who (s : State) (d : Reg) (v : X) : (retX s d v).who = s.who := by simp [retX]
@[simp] theorem retX_free (s : State) (d : Reg) (v : X) : (retX s d v).free = s.free := by simp [retX]

@[simp] theorem region_setX (s : State) (c r g : Nat) (v : X) : region (setX s c r v) g = region s g := by
  unfold setX
  split <;> simp
@[simp] theorem region_advance (s : State) (g : Nat) : region (advance s) g = region s g := by simp [advance]
@[simp] theorem region_retX (s : State) (d : Reg) (v : X) (g : Nat) : region (retX s d v) g = region s g := by simp [retX]

/-- The core that retires a word goes on to the next; everything else of it but the data supplied for the word stays. -/
theorem core_advance_same (s : State) :
    core (advance s) (myCore s) = { core s (myCore s) with pc := (core s (myCore s)).pc + 1, supplied := [], issued := none } := by
  simp [advance, myCore_lt]
/-- No other core moves. -/
theorem core_advance_ne (s : State) (c : Nat) (h : myCore s ≠ c) : core (advance s) c = core s c :=
  core_modCore_ne _ _ _ _ h

/-- No register moves when a core goes on. -/
@[simp] theorem xreg_advance (s : State) (c r : Nat) : xreg (advance s) c r = xreg s c r := by
  by_cases h : myCore s = c
  · subst h
    simp [xreg, core_advance_same]
  · simp [xreg, core_advance_ne _ _ h]

end Sys2Proof.Machine
end

