-- ==== Sys2Proof/Laws/Words.lean ====
section
/-! SUPPORT. What a word and an event come to once their checks are known: one lemma for each way out of R85. -/

namespace Sys2Proof.Machine

variable {i : Instr} {s : State}

/-- A word that runs in an element ends as its element half says. -/
theorem word_of_elem {f : State → Except Stop (State × List Fx)} {g : State → Except Stop State} (h : ElemRuns i s) :
    word i s f g = .next (elemOutcome i s (f s)) := by simp [word, h.1, h.2]

/-- A word that runs in a core ends as its core half says. -/
theorem word_of_core {f : State → Except Stop (State × List Fx)} {g : State → Except Stop State} (h : CoreRuns i s) :
    word i s f g = .next (coreOutcome s (g s)) := by
  have h1 : (kindOf s == .elem) = false := by simpa using h.1
  simp [word, h1, h.2]

/-- A skipped word changes nothing. -/
theorem word_of_skip {f : State → Except Stop (State × List Fx)} {g : State → Except Stop State} (h : gate i s = .skip) :
    word i s f g = .next s := by simp [word, h]

/-- A word that a check stops faults with the code of that check. -/
theorem word_of_stop {f : State → Except Stop (State × List Fx)} {g : State → Except Stop State} {c : Code} (h : gate i s = .stop c) :
    word i s f g = .next (if kindOf s == .elem then elemFault s c 0 else coreFault s (myCore s) c 0) := by simp [word, h]

/-- A word of the elements alone runs in no core. -/
theorem elemWord_of_elem {f : State → Except Stop (State × List Fx)} (h : ElemRuns i s) :
    elemWord i s f = .next (elemOutcome i s (f s)) := word_of_elem h

/-- A word of the cores alone, in a core. -/
theorem coreWord_of_core {g : State → Except Stop State} (h : CoreRuns i s) : coreWord i s g = .next (coreOutcome s (g s)) :=
  word_of_core h

/-- An event whose agent exists and whose conditions hold happens. -/
theorem event_of_enabled {b : Bool} {f : State → State} (ha : AgentRuns i) (hb : b = true) : event i s b f = .next (f s) := by
  simp [event, show agentOk i = true from ha, hb]

/-- An event whose conditions do not hold changes nothing. -/
theorem event_of_disabled {f : State → State} : event i s false f = .next s := by simp [event]

/-- The same for an event that names no agent of a die. -/
theorem machineEvent_of_enabled {b : Bool} {f : State → State} (hb : b = true) : machineEvent s b f = .next (f s) := by
  simp [machineEvent, hb]

/-- Every word answers a next state. -/
theorem word_answers (f : State → Except Stop (State × List Fx)) (g : State → Except Stop State) : ∃ t, word i s f g = .next t := by
  unfold word
  split <;> exact ⟨_, rfl⟩

/-- What an element's word leaves when it retires: its record waits in the executing element, and nothing else moves. -/
theorem elemRetire_outside (fx : List Fx) : SameOutside s (elemRetire i s fx) := by
  simp [SameOutside, elemRetire]

end Sys2Proof.Machine
end

