-- ==== Sys2Proof/Laws/Exec.lean ====
section
/-! SUPPORT. The meaning of each instruction and event: one lemma for each arm of `exec`; and every word is one call of
`word`. -/

set_option Elab.async false

namespace Sys2Proof.Machine

theorem exec_nop {h} (s : State) : exec (.nop h) s = execNop h s := rfl
theorem exec_halt {h} (s : State) : exec (.halt h) s = execHalt h s := rfl
theorem exec_trap {h imm} (s : State) : exec (.trap h imm) s = execTrap h imm s := rfl
theorem exec_eret {h} (s : State) : exec (.eret h) s = execEret h s := rfl
theorem exec_mfsr {h d sr} (s : State) : exec (.mfsr h d sr) s = execMfsr h d sr s := rfl
theorem exec_mtsr {h a sr} (s : State) : exec (.mtsr h a sr) s = execMtsr h a sr s := rfl
theorem exec_launch {h d a b} (s : State) : exec (.launch h d a b) s = execLaunch h d a b s := rfl
theorem exec_tlaunch {h d a b} (s : State) : exec (.tlaunch h d a b) s = execTlaunch h d a b s := rfl
theorem exec_loadcfg {h a} (s : State) : exec (.loadcfg h a) s = execLoadcfg h a s := rfl
theorem exec_reconf {h} (s : State) : exec (.reconf h) s = execReconf h s := rfl
theorem exec_shrink {h d a b} (s : State) : exec (.shrink h d a b) s = execShrink h d a b s := rfl
theorem exec_shrinkQuery {h d a b} (s : State) : exec (.shrinkQuery h d a b) s = execShrinkQuery h d a b s := rfl
theorem exec_csave {h d a b imm} (s : State) : exec (.csave h d a b imm) s = execCsave h d a b imm s := rfl
theorem exec_crest {h d a} (s : State) : exec (.crest h d a) s = execCrest h d a s := rfl
theorem exec_wdogRestart {h d a} (s : State) : exec (.wdogRestart h d a) s = execWdogRestart h d a s := rfl
theorem exec_wdogReport {h d a} (s : State) : exec (.wdogReport h d a) s = execWdogReport h d a s := rfl
theorem exec_wdogNextStep {h d a} (s : State) : exec (.wdogNextStep h d a) s = execWdogNextStep h d a s := rfl
theorem exec_wdogSuspend {h d a} (s : State) : exec (.wdogSuspend h d a) s = execWdogSuspend h d a s := rfl
theorem exec_phcrd {h d a} (s : State) : exec (.phcrd h d a) s = execPhcrd h d a s := rfl
theorem exec_sslotBind {h d a b} (s : State) : exec (.sslotBind h d a b) s = execSslotBind h d a b s := rfl
theorem exec_sslotRefresh {h d a b} (s : State) : exec (.sslotRefresh h d a b) s = execSslotRefresh h d a b s := rfl
theorem exec_sslotEvict {h d a} (s : State) : exec (.sslotEvict h d a) s = execSslotEvict h d a s := rfl
theorem exec_rtywSupply {h d a b} (s : State) : exec (.rtywSupply h d a b) s = execRtywSupply h d a b s := rfl
theorem exec_rtywReplay {h d a b} (s : State) : exec (.rtywReplay h d a b) s = execRtywReplay h d a b s := rfl
theorem exec_rtypop {h d} (s : State) : exec (.rtypop h d) s = execRtypop h d s := rfl
theorem exec_tlbinvAll {h} (s : State) : exec (.tlbinvAll h) s = execTlbinvAll h s := rfl
theorem exec_tlbinvAsid {h b} (s : State) : exec (.tlbinvAsid h b) s = execTlbinvAsid h b s := rfl
theorem exec_tlbinvAddress {h a b} (s : State) : exec (.tlbinvAddress h a b) s = execTlbinvAddress h a b s := rfl
theorem exec_ifence {h} (s : State) : exec (.ifence h) s = execIfence h s := rfl
theorem exec_vcset {h d a} (s : State) : exec (.vcset h d a) s = execVcset h d a s := rfl
theorem exec_tqset {h d a} (s : State) : exec (.tqset h d a) s = execTqset h d a s := rfl
theorem exec_tqtest {h d a} (s : State) : exec (.tqtest h d a) s = execTqtest h d a s := rfl
theorem exec_add {h d a b} (s : State) : exec (.add h d a b) s = execAdd h d a b s := rfl
theorem exec_sub {h d a b} (s : State) : exec (.sub h d a b) s = execSub h d a b s := rfl
theorem exec_mul {h d a b} (s : State) : exec (.mul h d a b) s = execMul h d a b s := rfl
theorem exec_and {h d a b} (s : State) : exec (.and h d a b) s = execAnd h d a b s := rfl
theorem exec_or {h d a b} (s : State) : exec (.or h d a b) s = execOr h d a b s := rfl
theorem exec_xor {h d a b} (s : State) : exec (.xor h d a b) s = execXor h d a b s := rfl
theorem exec_shl {h d a b} (s : State) : exec (.shl h d a b) s = execShl h d a b s := rfl
theorem exec_shr {h d a b} (s : State) : exec (.shr h d a b) s = execShr h d a b s := rfl
theorem exec_sra {h d a b} (s : State) : exec (.sra h d a b) s = execSra h d a b s := rfl
theorem exec_mulh {h d a b u} (s : State) : exec (.mulh h d a b u) s = execMulh h d a b u s := rfl
theorem exec_div {h d a b u} (s : State) : exec (.div h d a b u) s = execDiv h d a b u s := rfl
theorem exec_rem {h d a b u} (s : State) : exec (.rem h d a b u) s = execRem h d a b u s := rfl
theorem exec_min {h d a b u} (s : State) : exec (.min h d a b u) s = execMin h d a b u s := rfl
theorem exec_max {h d a b u} (s : State) : exec (.max h d a b u) s = execMax h d a b u s := rfl
theorem exec_clz {h d a} (s : State) : exec (.clz h d a) s = execClz h d a s := rfl
theorem exec_popc {h d a} (s : State) : exec (.popc h d a) s = execPopc h d a s := rfl
theorem exec_setc {h d a b u cc} (s : State) : exec (.setc h d a b u cc) s = execSetc h d a b u cc s := rfl
theorem exec_sel {h d a b c} (s : State) : exec (.sel h d a b c) s = execSel h d a b c s := rfl
theorem exec_bfx {h d a u pos len} (s : State) : exec (.bfx h d a u pos len) s = execBfx h d a u pos len s := rfl
theorem exec_bfi {h d a b pos len} (s : State) : exec (.bfi h d a b pos len) s = execBfi h d a b pos len s := rfl
theorem exec_lea {h d a b pos} (s : State) : exec (.lea h d a b pos) s = execLea h d a b pos s := rfl
theorem exec_addImm {h d a imm} (s : State) : exec (.addImm h d a imm) s = execAddImm h d a imm s := rfl
theorem exec_andImm {h d a imm} (s : State) : exec (.andImm h d a imm) s = execAndImm h d a imm s := rfl
theorem exec_orImm {h d a imm} (s : State) : exec (.orImm h d a imm) s = execOrImm h d a imm s := rfl
theorem exec_xorImm {h d a imm} (s : State) : exec (.xorImm h d a imm) s = execXorImm h d a imm s := rfl
theorem exec_shlImm {h d a imm} (s : State) : exec (.shlImm h d a imm) s = execShlImm h d a imm s := rfl
theorem exec_shrImm {h d a imm} (s : State) : exec (.shrImm h d a imm) s = execShrImm h d a imm s := rfl
theorem exec_sraImm {h d a imm} (s : State) : exec (.sraImm h d a imm) s = execSraImm h d a imm s := rfl
theorem exec_setcImm {h d a u cc imm} (s : State) : exec (.setcImm h d a u cc imm) s = execSetcImm h d a u cc imm s := rfl
theorem exec_movi {h d imm} (s : State) : exec (.movi h d imm) s = execMovi h d imm s := rfl
theorem exec_movh {h d a imm} (s : State) : exec (.movh h d a imm) s = execMovh h d a imm s := rfl
theorem exec_fadd {h d a b ty rm} (s : State) : exec (.fadd h d a b ty rm) s = execFadd h d a b ty rm s := rfl
theorem exec_fsub {h d a b ty rm} (s : State) : exec (.fsub h d a b ty rm) s = execFsub h d a b ty rm s := rfl
theorem exec_fmul {h d a b ty rm} (s : State) : exec (.fmul h d a b ty rm) s = execFmul h d a b ty rm s := rfl
theorem exec_fdiv {h d a b ty rm} (s : State) : exec (.fdiv h d a b ty rm) s = execFdiv h d a b ty rm s := rfl
theorem exec_ffma {h d a b c ty rm} (s : State) : exec (.ffma h d a b c ty rm) s = execFfma h d a b c ty rm s := rfl
theorem exec_fsqrt {h d a ty rm} (s : State) : exec (.fsqrt h d a ty rm) s = execFsqrt h d a ty rm s := rfl
theorem exec_fmin {h d a b ty} (s : State) : exec (.fmin h d a b ty) s = execFmin h d a b ty s := rfl
theorem exec_fmax {h d a b ty} (s : State) : exec (.fmax h d a b ty) s = execFmax h d a b ty s := rfl
theorem exec_fsetc {h d a b ty cc} (s : State) : exec (.fsetc h d a b ty cc) s = execFsetc h d a b ty cc s := rfl
theorem exec_fcvt {h d a ty rm tty} (s : State) : exec (.fcvt h d a ty rm tty) s = execFcvt h d a ty rm tty s := rfl
theorem exec_fclass {h d a ty} (s : State) : exec (.fclass h d a ty) s = execFclass h d a ty s := rfl
theorem exec_vadd {h d a b ty rm sat} (s : State) : exec (.vadd h d a b ty rm sat) s = execVadd h d a b ty rm sat s := rfl
theorem exec_vsub {h d a b ty rm sat} (s : State) : exec (.vsub h d a b ty rm sat) s = execVsub h d a b ty rm sat s := rfl
theorem exec_vmul {h d a b ty rm sat} (s : State) : exec (.vmul h d a b ty rm sat) s = execVmul h d a b ty rm sat s := rfl
theorem exec_vfma {h d a b c ty rm sat} (s : State) : exec (.vfma h d a b c ty rm sat) s = execVfma h d a b c ty rm sat s := rfl
theorem exec_vmin {h d a b ty} (s : State) : exec (.vmin h d a b ty) s = execVmin h d a b ty s := rfl
theorem exec_vmax {h d a b ty} (s : State) : exec (.vmax h d a b ty) s = execVmax h d a b ty s := rfl
theorem exec_vabs {h d a ty sat} (s : State) : exec (.vabs h d a ty sat) s = execVabs h d a ty sat s := rfl
theorem exec_vneg {h d a ty sat} (s : State) : exec (.vneg h d a ty sat) s = execVneg h d a ty sat s := rfl
theorem exec_vexp {h d a ty rm} (s : State) : exec (.vexp h d a ty rm) s = execVexp h d a ty rm s := rfl
theorem exec_vlog {h d a ty rm} (s : State) : exec (.vlog h d a ty rm) s = execVlog h d a ty rm s := rfl
theorem exec_vrcp {h d a ty rm} (s : State) : exec (.vrcp h d a ty rm) s = execVrcp h d a ty rm s := rfl
theorem exec_vrsq {h d a ty rm} (s : State) : exec (.vrsq h d a ty rm) s = execVrsq h d a ty rm s := rfl
theorem exec_vsetc {h d a b ty cc} (s : State) : exec (.vsetc h d a b ty cc) s = execVsetc h d a b ty cc s := rfl
theorem exec_vsel {h d a b c ty} (s : State) : exec (.vsel h d a b c ty) s = execVsel h d a b c ty s := rfl
theorem exec_vand {h d a b} (s : State) : exec (.vand h d a b) s = execVand h d a b s := rfl
theorem exec_vor {h d a b} (s : State) : exec (.vor h d a b) s = execVor h d a b s := rfl
theorem exec_vxor {h d a b} (s : State) : exec (.vxor h d a b) s = execVxor h d a b s := rfl
theorem exec_vmov {h d a} (s : State) : exec (.vmov h d a) s = execVmov h d a s := rfl
theorem exec_vshl {h d a b ty} (s : State) : exec (.vshl h d a b ty) s = execVshl h d a b ty s := rfl
theorem exec_vshr {h d a b ty sat} (s : State) : exec (.vshr h d a b ty sat) s = execVshr h d a b ty sat s := rfl
theorem exec_vdot {h d a b ty rm oty sat} (s : State) : exec (.vdot h d a b ty rm oty sat) s = execVdot h d a b ty rm oty sat s := rfl
theorem exec_vred {h d a ty rm oty sat} (s : State) : exec (.vred h d a ty rm oty sat) s = execVred h d a ty rm oty sat s := rfl
theorem exec_vscan {h d a ty rm oty sat} (s : State) : exec (.vscan h d a ty rm oty sat) s = execVscan h d a ty rm oty sat s := rfl
theorem exec_vshuf {h d a b ty} (s : State) : exec (.vshuf h d a b ty) s = execVshuf h d a b ty s := rfl
theorem exec_vbcast {h d a ty idx} (s : State) : exec (.vbcast h d a ty idx) s = execVbcast h d a ty idx s := rfl
theorem exec_vextr {h d a b ty idx} (s : State) : exec (.vextr h d a b ty idx) s = execVextr h d a b ty idx s := rfl
theorem exec_vins {h d a b ty idx} (s : State) : exec (.vins h d a b ty idx) s = execVins h d a b ty idx s := rfl
theorem exec_vpack {h d a b ty rm oty} (s : State) : exec (.vpack h d a b ty rm oty) s = execVpack h d a b ty rm oty s := rfl
theorem exec_vunpk {h d a ty rm oty imm8} (s : State) : exec (.vunpk h d a ty rm oty imm8) s = execVunpk h d a ty rm oty imm8 s := rfl
theorem exec_vcvt {h d a ty rm oty} (s : State) : exec (.vcvt h d a ty rm oty) s = execVcvt h d a ty rm oty s := rfl
theorem exec_vqnt {h d a b ty rm oty imm8} (s : State) : exec (.vqnt h d a b ty rm oty imm8) s = execVqnt h d a b ty rm oty imm8 s := rfl
theorem exec_vdqnt {h d a ty rm oty imm8} (s : State) : exec (.vdqnt h d a ty rm oty imm8) s = execVdqnt h d a ty rm oty imm8 s := rfl
theorem exec_mmode {h ty f} (s : State) : exec (.mmode h ty f) s = execMmode h ty f s := rfl
theorem exec_wload {h a b ty f} (s : State) : exec (.wload h a b ty f) s = execWload h a b ty f s := rfl
theorem exec_mma {h a b ty rm row f} (s : State) : exec (.mma h a b ty rm row f) s = execMma h a b ty rm row f s := rfl
theorem exec_mmasp {h a b ty rm row f} (s : State) : exec (.mmasp h a b ty rm row f) s = execMmasp h a b ty rm row f s := rfl
theorem exec_mmeta {h a} (s : State) : exec (.mmeta h a) s = execMmeta h a s := rfl
theorem exec_accz {h b row} (s : State) : exec (.accz h b row) s = execAccz h b row s := rfl
theorem exec_accld {h a b ty row} (s : State) : exec (.accld h a b ty row) s = execAccld h a b ty row s := rfl
theorem exec_accst {h a b ty rm row} (s : State) : exec (.accst h a b ty rm row) s = execAccst h a b ty rm row s := rfl
theorem exec_accrd {h d b row colb} (s : State) : exec (.accrd h d b row colb) s = execAccrd h d b row colb s := rfl
theorem exec_accwr {h a b row colb} (s : State) : exec (.accwr h a b row colb) s = execAccwr h a b row colb s := rfl
theorem exec_prmld {h a b grp} (s : State) : exec (.prmld h a b grp) s = execPrmld h a b grp s := rfl
theorem exec_prmap {h d a b grp} (s : State) : exec (.prmap h d a b grp) s = execPrmap h d a b grp s := rfl
theorem exec_scans {h d a} (s : State) : exec (.scans h d a) s = execScans h d a s := rfl
theorem exec_difld {h d a} (s : State) : exec (.difld h d a) s = execDifld h d a s := rfl
theorem exec_difmul {h d a b c} (s : State) : exec (.difmul h d a b c) s = execDifmul h d a b c s := rfl
theorem exec_sbpfin {h d a b c rm} (s : State) : exec (.sbpfin h d a b c rm) s = execSbpfin h d a b c rm s := rfl
theorem exec_wsort {h d a b grp} (s : State) : exec (.wsort h d a b grp) s = execWsort h d a b grp s := rfl
theorem exec_yclr {h d} (s : State) : exec (.yclr h d) s = execYclr h d s := rfl
theorem exec_ld {h d a b off port hint ty} (s : State) : exec (.ld h d a b off port hint ty) s = execLd h d a b off port hint ty s := rfl
theorem exec_st {h d a b off port hint ty} (s : State) : exec (.st h d a b off port hint ty) s = execSt h d a b off port hint ty s := rfl
theorem exec_vld {h d a b off port hint ty} (s : State) : exec (.vld h d a b off port hint ty) s = execVld h d a b off port hint ty s := rfl
theorem exec_vst {h d a b off port hint ty} (s : State) : exec (.vst h d a b off port hint ty) s = execVst h d a b off port hint ty s := rfl
theorem exec_ldw {h d a b off win port hint ty} (s : State) : exec (.ldw h d a b off win port hint ty) s = execLdw h d a b off win port hint ty s := rfl
theorem exec_vldw {h d a b off win port hint ty} (s : State) : exec (.vldw h d a b off win port hint ty) s = execVldw h d a b off win port hint ty s := rfl
theorem exec_vldx {h d a b off port hint ty} (s : State) : exec (.vldx h d a b off port hint ty) s = execVldx h d a b off port hint ty s := rfl
theorem exec_vstx {h d a b off port hint ty} (s : State) : exec (.vstx h d a b off port hint ty) s = execVstx h d a b off port hint ty s := rfl
theorem exec_bufput {h d a off port ty} (s : State) : exec (.bufput h d a off port ty) s = execBufput h d a off port ty s := rfl
theorem exec_bufget {h d off port ty} (s : State) : exec (.bufget h d off port ty) s = execBufget h d off port ty s := rfl
theorem exec_ldsp {h d a b off ty} (s : State) : exec (.ldsp h d a b off ty) s = execLdsp h d a b off ty s := rfl
theorem exec_stsp {h d a b off ty} (s : State) : exec (.stsp h d a b off ty) s = execStsp h d a b off ty s := rfl
theorem exec_pref {h d a b off} (s : State) : exec (.pref h d a b off) s = execPref h d a b off s := rfl
theorem exec_shadow {h d a b off port} (s : State) : exec (.shadow h d a b off port) s = execShadow h d a b off port s := rfl
theorem exec_unshadow {h a port} (s : State) : exec (.unshadow h a port) s = execUnshadow h a port s := rfl
theorem exec_clean {h a b off} (s : State) : exec (.clean h a b off) s = execClean h a b off s := rfl
theorem exec_inval {h a b off} (s : State) : exec (.inval h a b off) s = execInval h a b off s := rfl
theorem exec_send {h a chan} (s : State) : exec (.send h a chan) s = execSend h a chan s := rfl
theorem exec_recv {h d chan} (s : State) : exec (.recv h d chan) s = execRecv h d chan s := rfl
theorem exec_vsend {h a chan} (s : State) : exec (.vsend h a chan) s = execVsend h a chan s := rfl
theorem exec_vrecv {h d chan} (s : State) : exec (.vrecv h d chan) s = execVrecv h d chan s := rfl
theorem exec_csend {h a chan} (s : State) : exec (.csend h a chan) s = execCsend h a chan s := rfl
theorem exec_crecv {h d chan} (s : State) : exec (.crecv h d chan) s = execCrecv h d chan s := rfl
theorem exec_sbind {h a b port strm} (s : State) : exec (.sbind h a b port strm) s = execSbind h a b port strm s := rfl
theorem exec_sq {h a port strm} (s : State) : exec (.sq h a port strm) s = execSq h a port strm s := rfl
theorem exec_scopy {h d a b c port strm} (s : State) : exec (.scopy h d a b c port strm) s = execScopy h d a b c port strm s := rfl
theorem exec_scancel {h d port strm} (s : State) : exec (.scancel h d port strm) s = execScancel h d port strm s := rfl
theorem exec_ssub {h d a port strm} (s : State) : exec (.ssub h d a port strm) s = execSsub h d a port strm s := rfl
theorem exec_sdist {h a strm} (s : State) : exec (.sdist h a strm) s = execSdist h a strm s := rfl
theorem exec_sstat {h d a port strm} (s : State) : exec (.sstat h d a port strm) s = execSstat h d a port strm s := rfl
theorem exec_opset {h a unit param} (s : State) : exec (.opset h a unit param) s = execOpset h a unit param s := rfl
theorem exec_opget {h d unit param} (s : State) : exec (.opget h d unit param) s = execOpget h d unit param s := rfl
theorem exec_route {h a unit param} (s : State) : exec (.route h a unit param) s = execRoute h a unit param s := rfl
theorem exec_tinj {h a b unit param} (s : State) : exec (.tinj h a b unit param) s = execTinj h a b unit param s := rfl
theorem exec_tdrain {h d unit} (s : State) : exec (.tdrain h d unit) s = execTdrain h d unit s := rfl
theorem exec_tconv {h d a unit} (s : State) : exec (.tconv h d a unit) s = execTconv h d a unit s := rfl
theorem exec_tappend {h d a b unit} (s : State) : exec (.tappend h d a b unit) s = execTappend h d a b unit s := rfl
theorem exec_tsplit {h d a b unit} (s : State) : exec (.tsplit h d a b unit) s = execTsplit h d a b unit s := rfl
theorem exec_tmerge {h d a b unit} (s : State) : exec (.tmerge h d a b unit) s = execTmerge h d a b unit s := rfl
theorem exec_tfork {h d a unit} (s : State) : exec (.tfork h d a unit) s = execTfork h d a unit s := rfl
theorem exec_tevict {h d a b unit} (s : State) : exec (.tevict h d a b unit) s = execTevict h d a b unit s := rfl
theorem exec_tevictRelease {h d a b unit} (s : State) : exec (.tevictRelease h d a b unit) s = execTevictRelease h d a b unit s := rfl
theorem exec_tquery {h d a b c unit} (s : State) : exec (.tquery h d a b c unit) s = execTquery h d a b c unit s := rfl
theorem exec_tnode {h d a b c unit param} (s : State) : exec (.tnode h d a b c unit param) s = execTnode h d a b c unit param s := rfl
theorem exec_pklook {h d a b c unit} (s : State) : exec (.pklook h d a b c unit) s = execPklook h d a b c unit s := rfl
theorem exec_smpdrawSample {h d a b unit} (s : State) : exec (.smpdrawSample h d a b unit) s = execSmpdrawSample h d a b unit s := rfl
theorem exec_smpdrawVerify {h d a b c unit} (s : State) : exec (.smpdrawVerify h d a b c unit) s = execSmpdrawVerify h d a b c unit s := rfl
theorem exec_acpt {h d a b c unit} (s : State) : exec (.acpt h d a b c unit) s = execAcpt h d a b c unit s := rfl
theorem exec_gmstep {h d a unit} (s : State) : exec (.gmstep h d a unit) s = execGmstep h d a unit s := rfl
theorem exec_fence {h scope} (s : State) : exec (.fence h scope) s = execFence h scope s := rfl
theorem exec_frame {h} (s : State) : exec (.frame h) s = execFrame h s := rfl
theorem exec_rmws {h d a b c aop ty slot} (s : State) : exec (.rmws h d a b c aop ty slot) s = execRmws h d a b c aop ty slot s := rfl
theorem exec_redseq {h a b c aop ty} (s : State) : exec (.redseq h a b c aop ty) s = execRedseq h a b c aop ty s := rfl
theorem exec_amo {h d a b c aop ty} (s : State) : exec (.amo h d a b c aop ty) s = execAmo h d a b c aop ty s := rfl
theorem exec_bara {h a b} (s : State) : exec (.bara h a b) s = execBara h a b s := rfl
theorem exec_barw {h a} (s : State) : exec (.barw h a) s = execBarw h a s := rfl
theorem exec_marm {h a} (s : State) : exec (.marm h a) s = execMarm h a s := rfl
theorem exec_mwait {h d a} (s : State) : exec (.mwait h d a) s = execMwait h d a s := rfl
theorem exec_xbegin {h} (s : State) : exec (.xbegin h) s = execXbegin h s := rfl
theorem exec_xend {h d} (s : State) : exec (.xend h d) s = execXend h d s := rfl
theorem exec_xabort {h a} (s : State) : exec (.xabort h a) s = execXabort h a s := rfl
theorem exec_br {h off} (s : State) : exec (.br h off) s = execBr h off s := rfl
theorem exec_bc {h a b cc u off} (s : State) : exec (.bc h a b cc u off) s = execBc h a b cc u off s := rfl
theorem exec_jal {h d off} (s : State) : exec (.jal h d off) s = execJal h d off s := rfl
theorem exec_jalr {h d a off} (s : State) : exec (.jalr h d a off) s = execJalr h d a off s := rfl
theorem exec_istartFreshStart {h sr a} (s : State) : exec (.istartFreshStart h sr a) s = execIstartFreshStart h sr a s := rfl
theorem exec_istartResume {h sr a} (s : State) : exec (.istartResume h sr a) s = execIstartResume h sr a s := rfl
theorem exec_istartCancel {h sr a} (s : State) : exec (.istartCancel h sr a) s = execIstartCancel h sr a s := rfl
theorem exec_eflagsClear {h sr a} (s : State) : exec (.eflagsClear h sr a) s = execEflagsClear h sr a s := rfl
theorem exec_ufinfoRead {h d sr} (s : State) : exec (.ufinfoRead h d sr) s = execUfinfoRead h d sr s := rfl
theorem exec_ucfgRead {h d sr} (s : State) : exec (.ucfgRead h d sr) s = execUcfgRead h d sr s := rfl
theorem exec_lqstatClearDrops {h sr a} (s : State) : exec (.lqstatClearDrops h sr a) s = execLqstatClearDrops h sr a s := rfl
theorem exec_shctlRun {h sr a} (s : State) : exec (.shctlRun h sr a) s = execShctlRun h sr a s := rfl
theorem exec_shctlFreeze {h sr a} (s : State) : exec (.shctlFreeze h sr a) s = execShctlFreeze h sr a s := rfl
theorem exec_shctlReset {h sr a} (s : State) : exec (.shctlReset h sr a) s = execShctlReset h sr a s := rfl
theorem exec_windowDataArrival {g e w} (s : State) : exec (.windowDataArrival g e w) s = execWindowDataArrival g e w s := rfl
theorem exec_windowClose {g e w} (s : State) : exec (.windowClose g e w) s = execWindowClose g e w s := rfl
theorem exec_freezeLimit {g} (s : State) : exec (.freezeLimit g) s = execFreezeLimit g s := rfl
theorem exec_invocationEnd {g} (s : State) : exec (.invocationEnd g) s = execInvocationEnd g s := rfl
theorem exec_cueRelease {gr} (s : State) : exec (.cueRelease gr) s = execCueRelease gr s := rfl
theorem exec_understudySwitch {gr} (s : State) : exec (.understudySwitch gr) s = execUnderstudySwitch gr s := rfl
theorem exec_loadcfgInstall {g} (s : State) : exec (.loadcfgInstall g) s = execLoadcfgInstall g s := rfl
theorem exec_reconfTokenPass {gr} (s : State) : exec (.reconfTokenPass gr) s = execReconfTokenPass gr s := rfl
theorem exec_scoreFiring {u} (s : State) : exec (.scoreFiring u) s = execScoreFiring u s := rfl
theorem exec_descendFiring {u} (s : State) : exec (.descendFiring u) s = execDescendFiring u s := rfl
theorem exec_treeupdFiring {u} (s : State) : exec (.treeupdFiring u) s = execTreeupdFiring u s := rfl
theorem exec_queryPin {u} (s : State) : exec (.queryPin u) s = execQueryPin u s := rfl
theorem exec_queryUnpin {u} (s : State) : exec (.queryUnpin u) s = execQueryUnpin u s := rfl
theorem exec_pkeyFiring {u} (s : State) : exec (.pkeyFiring u) s = execPkeyFiring u s := rfl
theorem exec_cascellHeader {u} (s : State) : exec (.cascellHeader u) s = execCascellHeader u s := rfl
theorem exec_cascellCollect {u} (s : State) : exec (.cascellCollect u) s = execCascellCollect u s := rfl
theorem exec_cascellDrain {u} (s : State) : exec (.cascellDrain u) s = execCascellDrain u s := rfl
theorem exec_cumselSampleFiring {u} (s : State) : exec (.cumselSampleFiring u) s = execCumselSampleFiring u s := rfl
theorem exec_cumselVerifyFiring {u} (s : State) : exec (.cumselVerifyFiring u) s = execCumselVerifyFiring u s := rfl
theorem exec_acceptFiring {u} (s : State) : exec (.acceptFiring u) s = execAcceptFiring u s := rfl
theorem exec_grammarStepFiring {u} (s : State) : exec (.grammarStepFiring u) s = execGrammarStepFiring u s := rfl
theorem exec_grammarMaskFiring {u} (s : State) : exec (.grammarMaskFiring u) s = execGrammarMaskFiring u s := rfl
theorem exec_gatherFiring {u} (s : State) : exec (.gatherFiring u) s = execGatherFiring u s := rfl
theorem exec_gatherRowArrival {u k} (s : State) : exec (.gatherRowArrival u k) s = execGatherRowArrival u k s := rfl
theorem exec_reduceFiring {u} (s : State) : exec (.reduceFiring u) s = execReduceFiring u s := rfl
theorem exec_quantFiring {u} (s : State) : exec (.quantFiring u) s = execQuantFiring u s := rfl
theorem exec_switchSteer {u} (s : State) : exec (.switchSteer u) s = execSwitchSteer u s := rfl
theorem exec_switchMerge {u} (s : State) : exec (.switchMerge u) s = execSwitchMerge u s := rfl
theorem exec_switchCopy {u} (s : State) : exec (.switchCopy u) s = execSwitchCopy u s := rfl
theorem exec_unitTokenEmit {u} (s : State) : exec (.unitTokenEmit u) s = execUnitTokenEmit u s := rfl
theorem exec_converterTokenIn {k} (s : State) : exec (.converterTokenIn k) s = execConverterTokenIn k s := rfl
theorem exec_remoteBufputArrival {g} (s : State) : exec (.remoteBufputArrival g) s = execRemoteBufputArrival g s := rfl
theorem exec_scalarChannelArrival {gr ch} (s : State) : exec (.scalarChannelArrival gr ch) s = execScalarChannelArrival gr ch s := rfl
theorem exec_vectorChannelArrival {gr ch} (s : State) : exec (.vectorChannelArrival gr ch) s = execVectorChannelArrival gr ch s := rfl
theorem exec_distributorSendBeat {st sub} (s : State) : exec (.distributorSendBeat st sub) s = execDistributorSendBeat st sub s := rfl
theorem exec_streamProducerStart {g p} (s : State) : exec (.streamProducerStart g p) s = execStreamProducerStart g p s := rfl
theorem exec_streamCommandFinish {g p} (s : State) : exec (.streamCommandFinish g p) s = execStreamCommandFinish g p s := rfl
theorem exec_redseqPlaceFree {k} (s : State) : exec (.redseqPlaceFree k) s = execRedseqPlaceFree k s := rfl
theorem exec_mwaitReturn {c} (s : State) : exec (.mwaitReturn c) s = execMwaitReturn c s := rfl
theorem exec_barwReturn {c} (s : State) : exec (.barwReturn c) s = execBarwReturn c s := rfl
theorem exec_asyncEventTake {c} (s : State) : exec (.asyncEventTake c) s = execAsyncEventTake c s := rfl
theorem exec_graphStart {q} (s : State) : exec (.graphStart q) s = execGraphStart q s := rfl
theorem exec_graphEnd {gr} (s : State) : exec (.graphEnd gr) s = execGraphEnd gr s := rfl
theorem exec_wdogPreempt {gr} (s : State) : exec (.wdogPreempt gr) s = execWdogPreempt gr s := rfl
theorem exec_wdogKill {gr} (s : State) : exec (.wdogKill gr) s = execWdogKill gr s := rfl
theorem exec_wdogFence {gr} (s : State) : exec (.wdogFence gr) s = execWdogFence gr s := rfl
theorem exec_saveComplete (s : State) : exec .saveComplete s = execSaveComplete s := rfl
theorem exec_softError (s : State) : exec .softError s = execSoftError s := rfl
theorem exec_fatalDumpDone (s : State) : exec .fatalDumpDone s = execFatalDumpDone s := rfl
theorem exec_powerAverageHigh {n} (s : State) : exec (.powerAverageHigh n) s = execPowerAverageHigh n s := rfl
theorem exec_powerFatal {n} (s : State) : exec (.powerFatal n) s = execPowerFatal n s := rfl
theorem exec_temperatureFatal {n} (s : State) : exec (.temperatureFatal n) s = execTemperatureFatal n s := rfl
theorem exec_powerOnReset (s : State) : exec .powerOnReset s = execPowerOnReset s := rfl
theorem exec_bringUpComplete (s : State) : exec .bringUpComplete s = execBringUpComplete s := rfl
theorem exec_attestationRequest {nonce} (s : State) : exec (.attestationRequest nonce) s = execAttestationRequest nonce s := rfl
theorem exec_attestationReport (s : State) : exec .attestationReport s = execAttestationReport s := rfl
theorem exec_hostWrite {link addr data} (s : State) : exec (.hostWrite link addr data) s = execHostWrite link addr data s := rfl
theorem exec_hostRead {link addr len} (s : State) : exec (.hostRead link addr len) s = execHostRead link addr len s := rfl
theorem exec_peerWrite {port seq addr data} (s : State) : exec (.peerWrite port seq addr data) s = execPeerWrite port seq addr data s := rfl
theorem exec_peerRead {port addr len} (s : State) : exec (.peerRead port addr len) s = execPeerRead port addr len s := rfl
theorem exec_brunexPacketArrival {link} (s : State) : exec (.brunexPacketArrival link) s = execBrunexPacketArrival link s := rfl
theorem exec_linkRetrain {link} (s : State) : exec (.linkRetrain link) s = execLinkRetrain link s := rfl
theorem exec_ethernetLinkEvent {port} (s : State) : exec (.ethernetLinkEvent port) s = execEthernetLinkEvent port s := rfl
theorem exec_ptpEventTimestamp {port} (s : State) : exec (.ptpEventTimestamp port) s = execPtpEventTimestamp port s := rfl
theorem exec_powerAverageNormal {n} (s : State) : exec (.powerAverageNormal n) s = execPowerAverageNormal n s := rfl
theorem exec_hostLaunchWrite {q len data} (s : State) : exec (.hostLaunchWrite q len data) s = execHostLaunchWrite q len data s := rfl
theorem exec_silenceEviction {slot} (s : State) : exec (.silenceEviction slot) s = execSilenceEviction slot s := rfl
theorem exec_pageTableWalk {root va} (s : State) : exec (.pageTableWalk root va) s = execPageTableWalk root va s := rfl
theorem exec_codecBlockOperation {addr codec key party data} (s : State) : exec (.codecBlockOperation addr codec key party data) s = execCodecBlockOperation addr codec key party data s := rfl
theorem exec_redseqArrival {k} (s : State) : exec (.redseqArrival k) s = execRedseqArrival k s := rfl
theorem exec_prefComplete {k} (s : State) : exec (.prefComplete k) s = execPrefComplete k s := rfl

/-- EVERY WORD is the checks of R85, then what it does in an element or in a core. -/
theorem exec_of_word {i : Instr} (h : isWord i = true) (s : State) :
    ∃ (f : State → Except Stop (State × List Fx)) (g : State → Except Stop State), exec i s = word i s f g := by
  cases i with
  | nop h =>
    rw [exec_nop]
    unfold execNop
    exact ⟨_, _, rfl⟩
  | halt h =>
    rw [exec_halt]
    unfold execHalt coreWord
    exact ⟨_, _, rfl⟩
  | trap h imm =>
    rw [exec_trap]
    unfold execTrap
    exact ⟨_, _, rfl⟩
  | eret h =>
    rw [exec_eret]
    unfold execEret coreWord
    exact ⟨_, _, rfl⟩
  | mfsr h d sr =>
    rw [exec_mfsr]
    unfold execMfsr mfsrWord
    exact ⟨_, _, rfl⟩
  | mtsr h a sr =>
    rw [exec_mtsr]
    unfold execMtsr mtsrWord coreWord
    exact ⟨_, _, rfl⟩
  | launch h d a b =>
    rw [exec_launch]
    unfold execLaunch launchWord coreWord
    exact ⟨_, _, rfl⟩
  | tlaunch h d a b =>
    rw [exec_tlaunch]
    unfold execTlaunch launchWord coreWord
    exact ⟨_, _, rfl⟩
  | loadcfg h a =>
    rw [exec_loadcfg]
    unfold execLoadcfg coreWord
    exact ⟨_, _, rfl⟩
  | reconf h =>
    rw [exec_reconf]
    unfold execReconf coreWord
    exact ⟨_, _, rfl⟩
  | shrink h d a b =>
    rw [exec_shrink]
    unfold execShrink coreWord
    exact ⟨_, _, rfl⟩
  | shrinkQuery h d a b =>
    rw [exec_shrinkQuery]
    unfold execShrinkQuery coreWord
    exact ⟨_, _, rfl⟩
  | csave h d a b imm =>
    rw [exec_csave]
    unfold execCsave coreWord
    exact ⟨_, _, rfl⟩
  | crest h d a =>
    rw [exec_crest]
    unfold execCrest coreWord
    exact ⟨_, _, rfl⟩
  | wdogRestart h d a =>
    rw [exec_wdogRestart]
    unfold execWdogRestart wdogWord coreWord
    exact ⟨_, _, rfl⟩
  | wdogReport h d a =>
    rw [exec_wdogReport]
    unfold execWdogReport wdogWord coreWord
    exact ⟨_, _, rfl⟩
  | wdogNextStep h d a =>
    rw [exec_wdogNextStep]
    unfold execWdogNextStep wdogWord coreWord
    exact ⟨_, _, rfl⟩
  | wdogSuspend h d a =>
    rw [exec_wdogSuspend]
    unfold execWdogSuspend wdogWord coreWord
    exact ⟨_, _, rfl⟩
  | phcrd h d a =>
    rw [exec_phcrd]
    unfold execPhcrd coreWord
    exact ⟨_, _, rfl⟩
  | sslotBind h d a b =>
    rw [exec_sslotBind]
    unfold execSslotBind coreWord
    exact ⟨_, _, rfl⟩
  | sslotRefresh h d a b =>
    rw [exec_sslotRefresh]
    unfold execSslotRefresh coreWord
    exact ⟨_, _, rfl⟩
  | sslotEvict h d a =>
    rw [exec_sslotEvict]
    unfold execSslotEvict coreWord
    exact ⟨_, _, rfl⟩
  | rtywSupply h d a b =>
    rw [exec_rtywSupply]
    unfold execRtywSupply coreWord
    exact ⟨_, _, rfl⟩
  | rtywReplay h d a b =>
    rw [exec_rtywReplay]
    unfold execRtywReplay coreWord
    exact ⟨_, _, rfl⟩
  | rtypop h d =>
    rw [exec_rtypop]
    unfold execRtypop coreWord
    exact ⟨_, _, rfl⟩
  | tlbinvAll h =>
    rw [exec_tlbinvAll]
    unfold execTlbinvAll coreWord
    exact ⟨_, _, rfl⟩
  | tlbinvAsid h b =>
    rw [exec_tlbinvAsid]
    unfold execTlbinvAsid coreWord
    exact ⟨_, _, rfl⟩
  | tlbinvAddress h a b =>
    rw [exec_tlbinvAddress]
    unfold execTlbinvAddress coreWord
    exact ⟨_, _, rfl⟩
  | ifence h =>
    rw [exec_ifence]
    unfold execIfence coreWord
    exact ⟨_, _, rfl⟩
  | vcset h d a =>
    rw [exec_vcset]
    unfold execVcset coreWord
    exact ⟨_, _, rfl⟩
  | tqset h d a =>
    rw [exec_tqset]
    unfold execTqset coreWord
    exact ⟨_, _, rfl⟩
  | tqtest h d a =>
    rw [exec_tqtest]
    unfold execTqtest coreWord
    exact ⟨_, _, rfl⟩
  | add h d a b =>
    rw [exec_add]
    unfold execAdd intWord
    exact ⟨_, _, rfl⟩
  | sub h d a b =>
    rw [exec_sub]
    unfold execSub intWord
    exact ⟨_, _, rfl⟩
  | mul h d a b =>
    rw [exec_mul]
    unfold execMul intWord
    exact ⟨_, _, rfl⟩
  | and h d a b =>
    rw [exec_and]
    unfold execAnd intWord
    exact ⟨_, _, rfl⟩
  | or h d a b =>
    rw [exec_or]
    unfold execOr intWord
    exact ⟨_, _, rfl⟩
  | xor h d a b =>
    rw [exec_xor]
    unfold execXor intWord
    exact ⟨_, _, rfl⟩
  | shl h d a b =>
    rw [exec_shl]
    unfold execShl intWord
    exact ⟨_, _, rfl⟩
  | shr h d a b =>
    rw [exec_shr]
    unfold execShr intWord
    exact ⟨_, _, rfl⟩
  | sra h d a b =>
    rw [exec_sra]
    unfold execSra intWord
    exact ⟨_, _, rfl⟩
  | mulh h d a b u =>
    rw [exec_mulh]
    unfold execMulh intWord
    exact ⟨_, _, rfl⟩
  | div h d a b u =>
    rw [exec_div]
    unfold execDiv intWord
    exact ⟨_, _, rfl⟩
  | rem h d a b u =>
    rw [exec_rem]
    unfold execRem intWord
    exact ⟨_, _, rfl⟩
  | min h d a b u =>
    rw [exec_min]
    unfold execMin intWord
    exact ⟨_, _, rfl⟩
  | max h d a b u =>
    rw [exec_max]
    unfold execMax intWord
    exact ⟨_, _, rfl⟩
  | clz h d a =>
    rw [exec_clz]
    unfold execClz intWord
    exact ⟨_, _, rfl⟩
  | popc h d a =>
    rw [exec_popc]
    unfold execPopc intWord
    exact ⟨_, _, rfl⟩
  | setc h d a b u cc =>
    rw [exec_setc]
    unfold execSetc intWord
    exact ⟨_, _, rfl⟩
  | sel h d a b c =>
    rw [exec_sel]
    unfold execSel intWord
    exact ⟨_, _, rfl⟩
  | bfx h d a u pos len =>
    rw [exec_bfx]
    unfold execBfx intWord
    exact ⟨_, _, rfl⟩
  | bfi h d a b pos len =>
    rw [exec_bfi]
    unfold execBfi intWord
    exact ⟨_, _, rfl⟩
  | lea h d a b pos =>
    rw [exec_lea]
    unfold execLea intWord
    exact ⟨_, _, rfl⟩
  | addImm h d a imm =>
    rw [exec_addImm]
    unfold execAddImm intWord
    exact ⟨_, _, rfl⟩
  | andImm h d a imm =>
    rw [exec_andImm]
    unfold execAndImm intWord
    exact ⟨_, _, rfl⟩
  | orImm h d a imm =>
    rw [exec_orImm]
    unfold execOrImm intWord
    exact ⟨_, _, rfl⟩
  | xorImm h d a imm =>
    rw [exec_xorImm]
    unfold execXorImm intWord
    exact ⟨_, _, rfl⟩
  | shlImm h d a imm =>
    rw [exec_shlImm]
    unfold execShlImm intWord
    exact ⟨_, _, rfl⟩
  | shrImm h d a imm =>
    rw [exec_shrImm]
    unfold execShrImm intWord
    exact ⟨_, _, rfl⟩
  | sraImm h d a imm =>
    rw [exec_sraImm]
    unfold execSraImm intWord
    exact ⟨_, _, rfl⟩
  | setcImm h d a u cc imm =>
    rw [exec_setcImm]
    unfold execSetcImm intWord
    exact ⟨_, _, rfl⟩
  | movi h d imm =>
    rw [exec_movi]
    unfold execMovi intWord
    exact ⟨_, _, rfl⟩
  | movh h d a imm =>
    rw [exec_movh]
    unfold execMovh intWord
    exact ⟨_, _, rfl⟩
  | fadd h d a b ty rm =>
    rw [exec_fadd]
    unfold execFadd floatWord
    exact ⟨_, _, rfl⟩
  | fsub h d a b ty rm =>
    rw [exec_fsub]
    unfold execFsub floatWord
    exact ⟨_, _, rfl⟩
  | fmul h d a b ty rm =>
    rw [exec_fmul]
    unfold execFmul floatWord
    exact ⟨_, _, rfl⟩
  | fdiv h d a b ty rm =>
    rw [exec_fdiv]
    unfold execFdiv floatWord
    exact ⟨_, _, rfl⟩
  | ffma h d a b c ty rm =>
    rw [exec_ffma]
    unfold execFfma floatWord
    exact ⟨_, _, rfl⟩
  | fsqrt h d a ty rm =>
    rw [exec_fsqrt]
    unfold execFsqrt floatWord
    exact ⟨_, _, rfl⟩
  | fmin h d a b ty =>
    rw [exec_fmin]
    unfold execFmin floatWord
    exact ⟨_, _, rfl⟩
  | fmax h d a b ty =>
    rw [exec_fmax]
    unfold execFmax floatWord
    exact ⟨_, _, rfl⟩
  | fsetc h d a b ty cc =>
    rw [exec_fsetc]
    unfold execFsetc floatWord
    exact ⟨_, _, rfl⟩
  | fcvt h d a ty rm tty =>
    rw [exec_fcvt]
    unfold execFcvt floatWord
    exact ⟨_, _, rfl⟩
  | fclass h d a ty =>
    rw [exec_fclass]
    unfold execFclass floatWord
    exact ⟨_, _, rfl⟩
  | vadd h d a b ty rm sat =>
    rw [exec_vadd]
    unfold execVadd laneArith vectorWord elemWord
    exact ⟨_, _, rfl⟩
  | vsub h d a b ty rm sat =>
    rw [exec_vsub]
    unfold execVsub laneArith vectorWord elemWord
    exact ⟨_, _, rfl⟩
  | vmul h d a b ty rm sat =>
    rw [exec_vmul]
    unfold execVmul laneArith vectorWord elemWord
    exact ⟨_, _, rfl⟩
  | vfma h d a b c ty rm sat =>
    rw [exec_vfma]
    unfold execVfma laneArith vectorWord elemWord
    exact ⟨_, _, rfl⟩
  | vmin h d a b ty =>
    rw [exec_vmin]
    unfold execVmin laneArith vectorWord elemWord
    exact ⟨_, _, rfl⟩
  | vmax h d a b ty =>
    rw [exec_vmax]
    unfold execVmax laneArith vectorWord elemWord
    exact ⟨_, _, rfl⟩
  | vabs h d a ty sat =>
    rw [exec_vabs]
    unfold execVabs vectorWord elemWord
    exact ⟨_, _, rfl⟩
  | vneg h d a ty sat =>
    rw [exec_vneg]
    unfold execVneg vectorWord elemWord
    exact ⟨_, _, rfl⟩
  | vexp h d a ty rm =>
    rw [exec_vexp]
    unfold execVexp laneFunction vectorWord elemWord
    exact ⟨_, _, rfl⟩
  | vlog h d a ty rm =>
    rw [exec_vlog]
    unfold execVlog laneFunction vectorWord elemWord
    exact ⟨_, _, rfl⟩
  | vrcp h d a ty rm =>
    rw [exec_vrcp]
    unfold execVrcp laneFunction vectorWord elemWord
    exact ⟨_, _, rfl⟩
  | vrsq h d a ty rm =>
    rw [exec_vrsq]
    unfold execVrsq laneFunction vectorWord elemWord
    exact ⟨_, _, rfl⟩
  | vsetc h d a b ty cc =>
    rw [exec_vsetc]
    unfold execVsetc vectorWord elemWord
    exact ⟨_, _, rfl⟩
  | vsel h d a b c ty =>
    rw [exec_vsel]
    unfold execVsel vectorWord elemWord
    exact ⟨_, _, rfl⟩
  | vand h d a b =>
    rw [exec_vand]
    unfold execVand vectorWord elemWord
    exact ⟨_, _, rfl⟩
  | vor h d a b =>
    rw [exec_vor]
    unfold execVor vectorWord elemWord
    exact ⟨_, _, rfl⟩
  | vxor h d a b =>
    rw [exec_vxor]
    unfold execVxor vectorWord elemWord
    exact ⟨_, _, rfl⟩
  | vmov h d a =>
    rw [exec_vmov]
    unfold execVmov vectorWord elemWord
    exact ⟨_, _, rfl⟩
  | vshl h d a b ty =>
    rw [exec_vshl]
    unfold execVshl vectorWord elemWord
    exact ⟨_, _, rfl⟩
  | vshr h d a b ty sat =>
    rw [exec_vshr]
    unfold execVshr vectorWord elemWord
    exact ⟨_, _, rfl⟩
  | vdot h d a b ty rm oty sat =>
    rw [exec_vdot]
    unfold execVdot vectorWord elemWord
    exact ⟨_, _, rfl⟩
  | vred h d a ty rm oty sat =>
    rw [exec_vred]
    unfold execVred vectorWord elemWord
    exact ⟨_, _, rfl⟩
  | vscan h d a ty rm oty sat =>
    rw [exec_vscan]
    unfold execVscan vectorWord elemWord
    exact ⟨_, _, rfl⟩
  | vshuf h d a b ty =>
    rw [exec_vshuf]
    unfold execVshuf vectorWord elemWord
    exact ⟨_, _, rfl⟩
  | vbcast h d a ty idx =>
    rw [exec_vbcast]
    unfold execVbcast vectorWord elemWord
    exact ⟨_, _, rfl⟩
  | vextr h d a b ty idx =>
    rw [exec_vextr]
    unfold execVextr elemWord
    exact ⟨_, _, rfl⟩
  | vins h d a b ty idx =>
    rw [exec_vins]
    unfold execVins vectorWord elemWord
    exact ⟨_, _, rfl⟩
  | vpack h d a b ty rm oty =>
    rw [exec_vpack]
    unfold execVpack vectorWord elemWord
    exact ⟨_, _, rfl⟩
  | vunpk h d a ty rm oty imm8 =>
    rw [exec_vunpk]
    unfold execVunpk vectorWord elemWord
    exact ⟨_, _, rfl⟩
  | vcvt h d a ty rm oty =>
    rw [exec_vcvt]
    unfold execVcvt vectorWord elemWord
    exact ⟨_, _, rfl⟩
  | vqnt h d a b ty rm oty imm8 =>
    rw [exec_vqnt]
    unfold execVqnt elemWord
    exact ⟨_, _, rfl⟩
  | vdqnt h d a ty rm oty imm8 =>
    rw [exec_vdqnt]
    unfold execVdqnt elemWord
    exact ⟨_, _, rfl⟩
  | mmode h ty f =>
    rw [exec_mmode]
    unfold execMmode elemWord
    exact ⟨_, _, rfl⟩
  | wload h a b ty f =>
    rw [exec_wload]
    unfold execWload elemWord
    exact ⟨_, _, rfl⟩
  | mma h a b ty rm row f =>
    rw [exec_mma]
    unfold execMma arrayWord elemWord
    exact ⟨_, _, rfl⟩
  | mmasp h a b ty rm row f =>
    rw [exec_mmasp]
    unfold execMmasp arrayWord elemWord
    exact ⟨_, _, rfl⟩
  | mmeta h a =>
    rw [exec_mmeta]
    unfold execMmeta elemWord
    exact ⟨_, _, rfl⟩
  | accz h b row =>
    rw [exec_accz]
    unfold execAccz elemWord
    exact ⟨_, _, rfl⟩
  | accld h a b ty row =>
    rw [exec_accld]
    unfold execAccld elemWord
    exact ⟨_, _, rfl⟩
  | accst h a b ty rm row =>
    rw [exec_accst]
    unfold execAccst elemWord
    exact ⟨_, _, rfl⟩
  | accrd h d b row colb =>
    rw [exec_accrd]
    unfold execAccrd elemWord
    exact ⟨_, _, rfl⟩
  | accwr h a b row colb =>
    rw [exec_accwr]
    unfold execAccwr elemWord
    exact ⟨_, _, rfl⟩
  | prmld h a b grp =>
    rw [exec_prmld]
    unfold execPrmld elemWord
    exact ⟨_, _, rfl⟩
  | prmap h d a b grp =>
    rw [exec_prmap]
    unfold execPrmap elemWord
    exact ⟨_, _, rfl⟩
  | scans h d a =>
    rw [exec_scans]
    unfold execScans elemWord
    exact ⟨_, _, rfl⟩
  | difld h d a =>
    rw [exec_difld]
    unfold execDifld elemWord
    exact ⟨_, _, rfl⟩
  | difmul h d a b c =>
    rw [exec_difmul]
    unfold execDifmul elemWord
    exact ⟨_, _, rfl⟩
  | sbpfin h d a b c rm =>
    rw [exec_sbpfin]
    unfold execSbpfin elemWord
    exact ⟨_, _, rfl⟩
  | wsort h d a b grp =>
    rw [exec_wsort]
    unfold execWsort elemWord
    exact ⟨_, _, rfl⟩
  | yclr h d =>
    rw [exec_yclr]
    unfold execYclr elemWord
    exact ⟨_, _, rfl⟩
  | ld h d a b off port hint ty =>
    rw [exec_ld]
    unfold execLd
    exact ⟨_, _, rfl⟩
  | st h d a b off port hint ty =>
    rw [exec_st]
    unfold execSt
    exact ⟨_, _, rfl⟩
  | vld h d a b off port hint ty =>
    rw [exec_vld]
    unfold execVld elemWord
    exact ⟨_, _, rfl⟩
  | vst h d a b off port hint ty =>
    rw [exec_vst]
    unfold execVst elemWord
    exact ⟨_, _, rfl⟩
  | ldw h d a b off win port hint ty =>
    rw [exec_ldw]
    unfold execLdw elemWord
    exact ⟨_, _, rfl⟩
  | vldw h d a b off win port hint ty =>
    rw [exec_vldw]
    unfold execVldw elemWord
    exact ⟨_, _, rfl⟩
  | vldx h d a b off port hint ty =>
    rw [exec_vldx]
    unfold execVldx elemWord
    exact ⟨_, _, rfl⟩
  | vstx h d a b off port hint ty =>
    rw [exec_vstx]
    unfold execVstx elemWord
    exact ⟨_, _, rfl⟩
  | bufput h d a off port ty =>
    rw [exec_bufput]
    unfold execBufput elemWord
    exact ⟨_, _, rfl⟩
  | bufget h d off port ty =>
    rw [exec_bufget]
    unfold execBufget elemWord
    exact ⟨_, _, rfl⟩
  | ldsp h d a b off ty =>
    rw [exec_ldsp]
    unfold execLdsp
    exact ⟨_, _, rfl⟩
  | stsp h d a b off ty =>
    rw [exec_stsp]
    unfold execStsp
    exact ⟨_, _, rfl⟩
  | pref h d a b off =>
    rw [exec_pref]
    unfold execPref coreWord
    exact ⟨_, _, rfl⟩
  | shadow h d a b off port =>
    rw [exec_shadow]
    unfold execShadow coreWord
    exact ⟨_, _, rfl⟩
  | unshadow h a port =>
    rw [exec_unshadow]
    unfold execUnshadow coreWord
    exact ⟨_, _, rfl⟩
  | clean h a b off =>
    rw [exec_clean]
    unfold execClean coreWord
    exact ⟨_, _, rfl⟩
  | inval h a b off =>
    rw [exec_inval]
    unfold execInval coreWord
    exact ⟨_, _, rfl⟩
  | send h a chan =>
    rw [exec_send]
    unfold execSend
    exact ⟨_, _, rfl⟩
  | recv h d chan =>
    rw [exec_recv]
    unfold execRecv
    exact ⟨_, _, rfl⟩
  | vsend h a chan =>
    rw [exec_vsend]
    unfold execVsend elemWord
    exact ⟨_, _, rfl⟩
  | vrecv h d chan =>
    rw [exec_vrecv]
    unfold execVrecv elemWord
    exact ⟨_, _, rfl⟩
  | csend h a chan =>
    rw [exec_csend]
    unfold execCsend
    exact ⟨_, _, rfl⟩
  | crecv h d chan =>
    rw [exec_crecv]
    unfold execCrecv
    exact ⟨_, _, rfl⟩
  | sbind h a b port strm =>
    rw [exec_sbind]
    unfold execSbind coreWord
    exact ⟨_, _, rfl⟩
  | sq h a port strm =>
    rw [exec_sq]
    unfold execSq coreWord
    exact ⟨_, _, rfl⟩
  | scopy h d a b c port strm =>
    rw [exec_scopy]
    unfold execScopy coreWord
    exact ⟨_, _, rfl⟩
  | scancel h d port strm =>
    rw [exec_scancel]
    unfold execScancel coreWord
    exact ⟨_, _, rfl⟩
  | ssub h d a port strm =>
    rw [exec_ssub]
    unfold execSsub coreWord
    exact ⟨_, _, rfl⟩
  | sdist h a strm =>
    rw [exec_sdist]
    unfold execSdist coreWord
    exact ⟨_, _, rfl⟩
  | sstat h d a port strm =>
    rw [exec_sstat]
    unfold execSstat coreWord
    exact ⟨_, _, rfl⟩
  | opset h a unit param =>
    rw [exec_opset]
    unfold execOpset coreWord
    exact ⟨_, _, rfl⟩
  | opget h d unit param =>
    rw [exec_opget]
    unfold execOpget coreWord
    exact ⟨_, _, rfl⟩
  | route h a unit param =>
    rw [exec_route]
    unfold execRoute coreWord
    exact ⟨_, _, rfl⟩
  | tinj h a b unit param =>
    rw [exec_tinj]
    unfold execTinj coreWord
    exact ⟨_, _, rfl⟩
  | tdrain h d unit =>
    rw [exec_tdrain]
    unfold execTdrain coreWord
    exact ⟨_, _, rfl⟩
  | tconv h d a unit =>
    rw [exec_tconv]
    unfold execTconv coreWord
    exact ⟨_, _, rfl⟩
  | tappend h d a b unit =>
    rw [exec_tappend]
    unfold execTappend coreWord
    exact ⟨_, _, rfl⟩
  | tsplit h d a b unit =>
    rw [exec_tsplit]
    unfold execTsplit coreWord
    exact ⟨_, _, rfl⟩
  | tmerge h d a b unit =>
    rw [exec_tmerge]
    unfold execTmerge coreWord
    exact ⟨_, _, rfl⟩
  | tfork h d a unit =>
    rw [exec_tfork]
    unfold execTfork coreWord
    exact ⟨_, _, rfl⟩
  | tevict h d a b unit =>
    rw [exec_tevict]
    unfold execTevict coreWord
    exact ⟨_, _, rfl⟩
  | tevictRelease h d a b unit =>
    rw [exec_tevictRelease]
    unfold execTevictRelease coreWord
    exact ⟨_, _, rfl⟩
  | tquery h d a b c unit =>
    rw [exec_tquery]
    unfold execTquery coreWord
    exact ⟨_, _, rfl⟩
  | tnode h d a b c unit param =>
    rw [exec_tnode]
    unfold execTnode coreWord
    exact ⟨_, _, rfl⟩
  | pklook h d a b c unit =>
    rw [exec_pklook]
    unfold execPklook coreWord
    exact ⟨_, _, rfl⟩
  | smpdrawSample h d a b unit =>
    rw [exec_smpdrawSample]
    unfold execSmpdrawSample coreWord
    exact ⟨_, _, rfl⟩
  | smpdrawVerify h d a b c unit =>
    rw [exec_smpdrawVerify]
    unfold execSmpdrawVerify coreWord
    exact ⟨_, _, rfl⟩
  | acpt h d a b c unit =>
    rw [exec_acpt]
    unfold execAcpt coreWord
    exact ⟨_, _, rfl⟩
  | gmstep h d a unit =>
    rw [exec_gmstep]
    unfold execGmstep coreWord
    exact ⟨_, _, rfl⟩
  | fence h scope =>
    rw [exec_fence]
    unfold execFence
    exact ⟨_, _, rfl⟩
  | frame h =>
    rw [exec_frame]
    unfold execFrame elemWord
    exact ⟨_, _, rfl⟩
  | rmws h d a b c aop ty slot =>
    rw [exec_rmws]
    unfold execRmws elemWord
    exact ⟨_, _, rfl⟩
  | redseq h a b c aop ty =>
    rw [exec_redseq]
    unfold execRedseq
    exact ⟨_, _, rfl⟩
  | amo h d a b c aop ty =>
    rw [exec_amo]
    unfold execAmo
    exact ⟨_, _, rfl⟩
  | bara h a b =>
    rw [exec_bara]
    unfold execBara coreWord
    exact ⟨_, _, rfl⟩
  | barw h a =>
    rw [exec_barw]
    unfold execBarw coreWord
    exact ⟨_, _, rfl⟩
  | marm h a =>
    rw [exec_marm]
    unfold execMarm coreWord
    exact ⟨_, _, rfl⟩
  | mwait h d a =>
    rw [exec_mwait]
    unfold execMwait coreWord
    exact ⟨_, _, rfl⟩
  | xbegin h =>
    rw [exec_xbegin]
    unfold execXbegin coreWord
    exact ⟨_, _, rfl⟩
  | xend h d =>
    rw [exec_xend]
    unfold execXend coreWord
    exact ⟨_, _, rfl⟩
  | xabort h a =>
    rw [exec_xabort]
    unfold execXabort coreWord
    exact ⟨_, _, rfl⟩
  | br h off =>
    rw [exec_br]
    unfold execBr coreWord
    exact ⟨_, _, rfl⟩
  | bc h a b cc u off =>
    rw [exec_bc]
    unfold execBc coreWord
    exact ⟨_, _, rfl⟩
  | jal h d off =>
    rw [exec_jal]
    unfold execJal coreWord
    exact ⟨_, _, rfl⟩
  | jalr h d a off =>
    rw [exec_jalr]
    unfold execJalr coreWord
    exact ⟨_, _, rfl⟩
  | istartFreshStart h sr a =>
    rw [exec_istartFreshStart]
    unfold execIstartFreshStart mtsrWord coreWord
    exact ⟨_, _, rfl⟩
  | istartResume h sr a =>
    rw [exec_istartResume]
    unfold execIstartResume mtsrWord coreWord
    exact ⟨_, _, rfl⟩
  | istartCancel h sr a =>
    rw [exec_istartCancel]
    unfold execIstartCancel mtsrWord coreWord
    exact ⟨_, _, rfl⟩
  | eflagsClear h sr a =>
    rw [exec_eflagsClear]
    unfold execEflagsClear mtsrWord coreWord
    exact ⟨_, _, rfl⟩
  | ufinfoRead h d sr =>
    rw [exec_ufinfoRead]
    unfold execUfinfoRead mfsrWord
    exact ⟨_, _, rfl⟩
  | ucfgRead h d sr =>
    rw [exec_ucfgRead]
    unfold execUcfgRead mfsrWord
    exact ⟨_, _, rfl⟩
  | lqstatClearDrops h sr a =>
    rw [exec_lqstatClearDrops]
    unfold execLqstatClearDrops mtsrWord coreWord
    exact ⟨_, _, rfl⟩
  | shctlRun h sr a =>
    rw [exec_shctlRun]
    unfold execShctlRun mtsrWord coreWord
    exact ⟨_, _, rfl⟩
  | shctlFreeze h sr a =>
    rw [exec_shctlFreeze]
    unfold execShctlFreeze mtsrWord coreWord
    exact ⟨_, _, rfl⟩
  | shctlReset h sr a =>
    rw [exec_shctlReset]
    unfold execShctlReset mtsrWord coreWord
    exact ⟨_, _, rfl⟩
  | windowDataArrival _ _ _ => cases h
  | windowClose _ _ _ => cases h
  | freezeLimit _ => cases h
  | invocationEnd _ => cases h
  | cueRelease _ => cases h
  | understudySwitch _ => cases h
  | loadcfgInstall _ => cases h
  | reconfTokenPass _ => cases h
  | scoreFiring _ => cases h
  | descendFiring _ => cases h
  | treeupdFiring _ => cases h
  | queryPin _ => cases h
  | queryUnpin _ => cases h
  | pkeyFiring _ => cases h
  | cascellHeader _ => cases h
  | cascellCollect _ => cases h
  | cascellDrain _ => cases h
  | cumselSampleFiring _ => cases h
  | cumselVerifyFiring _ => cases h
  | acceptFiring _ => cases h
  | grammarStepFiring _ => cases h
  | grammarMaskFiring _ => cases h
  | gatherFiring _ => cases h
  | gatherRowArrival _ _ => cases h
  | reduceFiring _ => cases h
  | quantFiring _ => cases h
  | switchSteer _ => cases h
  | switchMerge _ => cases h
  | switchCopy _ => cases h
  | unitTokenEmit _ => cases h
  | converterTokenIn _ => cases h
  | remoteBufputArrival _ => cases h
  | scalarChannelArrival _ _ => cases h
  | vectorChannelArrival _ _ => cases h
  | distributorSendBeat _ _ => cases h
  | streamProducerStart _ _ => cases h
  | streamCommandFinish _ _ => cases h
  | redseqPlaceFree _ => cases h
  | mwaitReturn _ => cases h
  | barwReturn _ => cases h
  | asyncEventTake _ => cases h
  | graphStart _ => cases h
  | graphEnd _ => cases h
  | wdogPreempt _ => cases h
  | wdogKill _ => cases h
  | wdogFence _ => cases h
  | saveComplete => cases h
  | softError => cases h
  | fatalDumpDone => cases h
  | powerAverageHigh _ => cases h
  | powerFatal _ => cases h
  | temperatureFatal _ => cases h
  | powerOnReset => cases h
  | bringUpComplete => cases h
  | attestationRequest _ => cases h
  | attestationReport => cases h
  | hostWrite _ _ _ => cases h
  | hostRead _ _ _ => cases h
  | peerWrite _ _ _ _ => cases h
  | peerRead _ _ _ => cases h
  | brunexPacketArrival _ => cases h
  | linkRetrain _ => cases h
  | ethernetLinkEvent _ => cases h
  | ptpEventTimestamp _ => cases h
  | powerAverageNormal _ => cases h
  | hostLaunchWrite _ _ _ => cases h
  | silenceEviction _ => cases h
  | pageTableWalk _ _ => cases h
  | codecBlockOperation _ _ _ _ _ => cases h
  | redseqArrival _ => cases h
  | prefComplete _ => cases h

end Sys2Proof.Machine
end

