-- ==== Sys2Proof/Laws/Memory.lean ====
section
/-! SUPPORT. Every operation over memory keeps its canonical form. -/

namespace Sys2Proof.Machine

/-- A function over states that keeps memory canonical, folded over a list, keeps it. -/
theorem MemoryOk.foldl {α : Type} (f : State → α → State) (hf : ∀ s a, MemoryOk s → MemoryOk (f s a)) (l : List α) (s : State)
    (h : MemoryOk s) : MemoryOk (l.foldl f s) := by
  induction l generalizing s with
  | nil => exact h
  | cons a l ih => exact ih _ (hf _ _ h)

/-- Canonical memory is a matter of `mem` alone. -/
theorem MemoryOk.of_mem {s t : State} (hm : t.mem = s.mem) (h : MemoryOk s) : MemoryOk t := by
  unfold MemoryOk at *
  rwa [hm]

@[simp] theorem mem_l2put (s : State) (ln : Nat) (e : Option L2Line) : (l2put s ln e).mem = s.mem := rfl
@[simp] theorem mem_unmapCopy (s : State) (ln : Nat) : (unmapCopy s ln).mem = s.mem := by unfold unmapCopy; split <;> rfl
@[simp] theorem mem_l2keepRoom (s : State) (ln : Nat) : (l2keepRoom s ln).mem = s.mem := by
  unfold l2keepRoom
  dsimp only
  split
  · rfl
  · split <;> rfl
@[simp] theorem mem_l2touch (s : State) (ln : Nat) (e : L2Line) (hint : Nat) : (l2touch s ln e hint).mem = s.mem := by
  unfold l2touch
  dsimp only
  split <;> simp
@[simp] theorem mem_countCodec (s : State) (a : LineAttr) (m d : Line) (cd ci : Nat) : (countCodec s a m d cd ci).mem = s.mem := by
  unfold countCodec
  split <;> rfl
@[simp] theorem mem_invalidateCode (s : State) (ln : Nat) (every : Bool) : (invalidateCode s ln every).mem = s.mem := by
  unfold invalidateCode
  split <;> rfl
@[simp] theorem mem_discardSequenced (s : State) (ln : Nat) (bs : List (Nat × Byte)) : (discardSequenced s ln bs).mem = s.mem := by
  unfold discardSequenced
  split <;> rfl
@[simp] theorem mem_dropLaunch (s : State) (n q : Nat) : (dropLaunch s n q).mem = s.mem := rfl
@[simp] theorem mem_enqueueLaunch (s : State) (n q : Nat) (d : Line) : (enqueueLaunch s n q d).1.mem = s.mem := by
  unfold enqueueLaunch
  dsimp only
  split
  · rfl
  · split <;> rfl
@[simp] theorem mem_launchWrite (s : State) (n q len : Nat) (d : Line) : (launchWrite s n q len d).mem = s.mem := by
  unfold launchWrite
  dsimp only
  split
  · rfl
  · have h := mem_enqueueLaunch s n q d
    split <;> simp_all

/-- A line put into the L2. -/
theorem MemoryOk.l2put {s : State} (h : MemoryOk s) (ln : Nat) (e : Option L2Line) : MemoryOk (l2put s ln e) := h
/-- A line made the most recent. -/
theorem MemoryOk.l2touch {s : State} (h : MemoryOk s) (ln : Nat) (e : L2Line) (hint : Nat) : MemoryOk (l2touch s ln e hint) :=
  h.of_mem (mem_l2touch s ln e hint)

/-- A write of a slot. -/
theorem MemoryOk.slotWrite {s : State} (h : MemoryOk s) (ln : Nat) (a : LineAttr) (l : Line) (merge : Bool) :
    MemoryOk (slotWrite s ln a l merge) := by
  unfold Machine.slotWrite
  dsimp only
  split
  · exact h.of_mem (by simp)
  · have h' : MemoryOk (unmapCopy s ln) := h.of_mem (by simp)
    exact wf_setBytes _ _ _ h'
/-- A write-back. -/
theorem MemoryOk.writeBack {s : State} (h : MemoryOk s) (ln : Nat) (e : L2Line) : MemoryOk (writeBack s ln e) := by
  unfold Machine.writeBack
  split
  · exact h.slotWrite _ _ _ _
  · exact h
/-- A line leaves the L2. -/
theorem MemoryOk.l2drop {s : State} (h : MemoryOk s) (ln : Nat) : MemoryOk (l2drop s ln) := by
  unfold Machine.l2drop
  split
  · exact h
  · exact (h.writeBack _ _).l2put _ _
/-- A way is freed. -/
theorem MemoryOk.l2room {s : State} (h : MemoryOk s) (ln : Nat) : MemoryOk (l2room s ln) := by
  unfold Machine.l2room
  dsimp only
  split
  · exact h
  · split
    · exact h.l2drop _
    · exact h
/-- A line under other attributes is dropped. -/
theorem MemoryOk.l2agree {s : State} (h : MemoryOk s) (ln : Nat) (a : LineAttr) : MemoryOk (l2agree s ln a) := by
  unfold Machine.l2agree
  split
  · split
    · exact h
    · exact h.l2drop _
  · exact h
/-- A load of a line. -/
theorem MemoryOk.loadLine {s : State} (h : MemoryOk s) (ln : Nat) (a : LineAttr) (hint : Nat) :
    MemoryOk (loadLine s ln a hint).2 := by
  have h1 := h.l2agree ln a
  unfold Machine.loadLine
  dsimp only
  split
  · dsimp only
    split
    · exact h1.of_mem (by simp)
    · exact h1
  · dsimp only
    split
    · exact (h1.l2room ln).l2touch _ _ _
    · exact h1
/-- A write of bytes into a line. -/
theorem MemoryOk.storeLine {s : State} (h : MemoryOk s) (ln : Nat) (a : LineAttr) (bs : List (Nat × Byte)) (hint cd ci : Nat) :
    MemoryOk (storeLine s ln a bs hint cd ci) := by
  have h1 := h.l2agree ln a
  unfold Machine.storeLine
  dsimp only
  generalize hc : countCodec _ _ _ _ _ _ = t
  have h2 : MemoryOk t := by
    rw [← hc]
    exact h1.of_mem (by simp)
  split
  · exact h2.of_mem (by simp)
  · exact (h2.l2room ln).l2touch _ _ _
  · split
    · exact (h2.slotWrite _ _ _ _).l2put _ _
    · exact (h2.slotWrite _ _ _ _).l2put _ _
  · exact h2.slotWrite _ _ _ _

/-! ### The writes and the reads of every party -/

@[simp] theorem mem_sendPacket (s : State) (src dest : Nat) (c : VirtualChannel) (l : List Byte) :
    (sendPacket s src dest c l).mem = s.mem := by
  unfold sendPacket
  split <;> rfl
@[simp] theorem mem_sendFrame (s : State) (die party p addr : Nat) (l : List Byte) : (sendFrame s die party p addr l).mem = s.mem := rfl
@[simp] theorem mem_sendRead (s : State) (src dest : Nat) (l : List Byte) : (sendRead s src dest l).mem = s.mem := by simp [sendRead]
@[simp] theorem mem_fresh (s : State) : (fresh s).2.mem = s.mem := rfl
@[simp] theorem mem_postStage (s : State) (g code src : Nat) (v : BitVec 64) : (postStage s g code src v).mem = s.mem := rfl
@[simp] theorem mem_putMgr (s : State) (e : Event) : (putMgr s e).mem = s.mem := by
  unfold putMgr
  split <;> rfl
@[simp] theorem mem_postMgr (s : State) (code src g : Nat) (v : BitVec 64) (p : BitVec 54) : (postMgr s code src g v p).mem = s.mem :=
  mem_putMgr s _
/-- A function over states that leaves memory, folded over a list, leaves it. -/
theorem mem_foldl {α : Type} (f : State → α → State) (hf : ∀ s a, (f s a).mem = s.mem) (l : List α) (s : State) :
    (l.foldl f s).mem = s.mem := by
  induction l generalizing s with
  | nil => rfl
  | cons a l ih => exact (ih _).trans (hf _ _)
@[simp] theorem mem_answerRefreshes (s : State) (g : Group) (status : Refresh → X) : (answerRefreshes s g status).mem = s.mem := by
  refine mem_foldl _ (fun s q => ?_) _ _
  unfold answerRefresh
  split <;> simp
@[simp] theorem mem_abortGroup (s : State) (gid why : Nat) (arg : BitVec 32) : (abortGroup s gid why arg).mem = s.mem := by
  unfold abortGroup
  split
  · rfl
  · rw [modGraph_mem]
    exact (mem_foldl _ (fun _ _ => modUnit_mem _ _ _) _ _).trans (mem_answerRefreshes _ _ _)

/-- A write performs at the home of a line. -/
theorem MemoryOk.performLine {s : State} (h : MemoryOk s) (ln : Nat) (a : LineAttr) (bs : List (Nat × Byte)) (hint cd ci : Nat)
    (every : Bool) : MemoryOk (performLine s ln a bs hint cd ci every) := by
  unfold Machine.performLine
  dsimp only
  have h1 := h.of_mem (mem_sendPacket s cd (homeDie ln) .request (bs.map Prod.snd))
  exact (h1.storeLine ln a bs hint cd ci).of_mem (by simp)

/-- A WRITE AT A PHYSICAL ADDRESS keeps memory canonical. -/
theorem MemoryOk.performBytes {s : State} (h : MemoryOk s) (pa : Nat) (a : LineAttr) (data : List Byte) (hint cd ci : Nat)
    (every : Bool) : MemoryOk (performBytes s pa a data hint cd ci every) := by
  unfold Machine.performBytes
  split
  · exact MemoryOk.foldl _ (fun s p hs => hs.performLine _ _ _ _ _ _ _) _ _ h
  · exact MemoryOk.of_mem (s := { s with mem := Table.setBytes s.mem pa data }) (by simp) (wf_setBytes _ _ _ h)
  · exact MemoryOk.of_mem (s := { s with mem := Table.setBytes s.mem pa data }) (by simp) (wf_setBytes _ _ _ h)
  · exact MemoryOk.of_mem (s := { s with mem := Table.setBytes s.mem pa data }) (by simp) (wf_setBytes _ _ _ h)
  · exact h.of_mem (by simp)
  · exact h.of_mem (by simp)
  · exact h

@[simp] theorem mem_captureBytes (s : State) (g : Graph) (c : Ctx) (x : Xlat) (data : List Byte) (hint : Nat) :
    (captureBytes s g c x data hint).mem = s.mem := by
  unfold captureBytes
  dsimp only
  split <;> simp
@[simp] theorem mem_refreshCaptured (s : State) (gid : Option Nat) (pa : Nat) (data : List Byte) :
    (refreshCaptured s gid pa data).mem = s.mem := by
  unfold refreshCaptured
  split
  · rfl
  · split <;> rfl

@[simp] theorem mem_tagFrame (s : State) (pa : Nat) (parties asids : List Nat) : (tagFrame s pa parties asids).mem = s.mem := by
  unfold tagFrame
  split
  · exact modEth_mem _ _ _
  · rfl

/-- THE ONE WRITE of every party keeps memory canonical. -/
theorem MemoryOk.writeBytes {s : State} (h : MemoryOk s) (c : Ctx) (x : Xlat) (data : List Byte) (hint : Nat) :
    MemoryOk (writeBytes s c x data hint) := by
  unfold Machine.writeBytes
  dsimp only
  split
  · split
    · exact h.of_mem (by simp)
    · split
      · exact h
      · exact (h.performBytes x.pa x.attr data hint s.cur.val c.counter false).of_mem (by simp)
  · exact (h.performBytes x.pa x.attr data hint s.cur.val c.counter false).of_mem (by simp)

/-- A read where the bytes lie. -/
theorem MemoryOk.readPlace {s : State} (h : MemoryOk s) (c : Ctx) (x : Xlat) (len hint : Nat) :
    MemoryOk (readPlace s c x len hint).2 := by
  have h1 := h.loadLine (x.pa / 64) x.attr hint
  unfold Machine.readPlace
  split
  · exact h1
  all_goals exact h

/-- THE ONE READ of every party keeps memory canonical. -/
theorem MemoryOk.readBytes {s : State} (h : MemoryOk s) (c : Ctx) (x : Xlat) (len hint : Nat) :
    MemoryOk (readBytes s c x len hint).2 :=
  (h.readPlace c x len hint).of_mem (by simp [Machine.readBytes])

@[simp] theorem mem_noteWritten (s : State) (c pa : Nat) : (noteWritten s c pa).mem = s.mem := by
  unfold noteWritten
  split <;> rfl

/-- A line of a released group. -/
theorem MemoryOk.releaseLine {s : State} (h : MemoryOk s) (bytes : Table (Option Byte)) (base : Option Nat) (ln : Nat) (q : Capture) :
    MemoryOk (releaseLine s bytes base ln q) := by
  unfold Machine.releaseLine
  dsimp only
  split
  · exact MemoryOk.of_mem (mem_foldl _ (fun _ _ => mem_noteWritten _ _ _) _ _) (h.performLine _ _ _ _ _ _ _)
  · exact MemoryOk.foldl _ (fun s p hs => (hs.performBytes _ _ _ _ _ _ _).of_mem (mem_tagFrame _ _ _ _)) _ _ h

/-- The release of a commit group keeps memory canonical. -/
theorem MemoryOk.releaseGroup {s : State} (h : MemoryOk s) (gid : Nat) : MemoryOk (releaseGroup s gid) := by
  unfold Machine.releaseGroup
  split
  · exact h
  · split
    · refine MemoryOk.foldl _ (fun s p hs => ?_) _ _ (h.of_mem (by simp))
      cases hp : p.2 with
      | none => simpa [hp] using hs
      | some q => simpa [hp] using hs.releaseLine _ _ _ _
    · exact h

/-- A walk of the page table keeps memory canonical. -/
theorem MemoryOk.walkFrom {s : State} (h : MemoryOk s) (va base n : Nat) (met : List (Nat × X)) :
    MemoryOk (walkFrom s va base n met).1 := by
  induction n generalizing s base met with
  | zero => exact h
  | succ n ih =>
    unfold Machine.walkFrom
    dsimp only
    split
    · exact h
    · have h1 := h.loadLine ((base + 8 * (va / 2 ^ leafShift n % 512)) / 64) ⟨0, 0, false⟩ 0
      have h2 := fun (c d : Nat) (v : List Byte) => h1.of_mem (mem_sendRead _ c d v)
      split
      · exact h2 _ _ _
      · split
        · exact h2 _ _ _
        · split
          · exact h2 _ _ _
          · exact ih (h2 _ _ _) _ _

/-! ### The operations of homes, hold buffers and firmware -/

/-- An atomic operation at its home. -/
theorem MemoryOk.performAmo {s : State} (h : MemoryOk s) (c : Ctx) (x : Xlat) (aop : BitVec 5) (ty : BitVec 4) (b cmp : BitVec 32) :
    MemoryOk (performAmo s c x aop ty b cmp).2 := by
  have h1 := (h.readPlace c x 4 0).performBytes x.pa x.attr
    (natBytes (atomicNew aop ty (readWord32 s c x).1 b cmp).1.toNat 4) 0 (Machine.readPlace s c x 4 0).2.cur.val c.counter false
  exact h1.of_mem (by simp [Machine.performAmo, readWord32])

/-- A contribution to a sequenced line. -/
theorem MemoryOk.applyContribution {s : State} (h : MemoryOk s) (k : Contribution) : MemoryOk (applyContribution s k) := by
  unfold Machine.applyContribution
  dsimp only
  generalize hb : List.map _ _ ++ List.map _ _ = bs
  refine MemoryOk.of_mem ?_ (h.storeLine k.line k.attr bs 0 k.die (contributor k))
  simp only [onDie, mem_refreshCaptured, mem_invalidateCode]

/-- The bytes of a line of a hold buffer. -/
theorem MemoryOk.performCells {s : State} (h : MemoryOk s) (g : Nat) (cells : List (Xlat × Byte)) (hint : Nat) :
    MemoryOk (performCells s g cells hint) := by
  refine MemoryOk.foldl _ (fun s q hs => ?_) _ _ h
  dsimp only
  split
  · exact hs.performLine _ _ _ _ _ _ _
  · exact MemoryOk.foldl _ (fun s p hs => hs.performBytes _ _ _ _ _ _ _) _ _ hs

/-- The dump of every die. -/
theorem MemoryOk.writeDump {s : State} (h : MemoryOk s) : MemoryOk (writeDump s) := by
  have step : ∀ (count n : Nat) (put : Nat → List Byte) (m : List Host.Cell), Table.wf 0 m = true →
      Table.wf 0 ((List.range count).foldl (fun m k => Table.setBytes m (64 * dumpLine n k) (put k)) m) = true := by
    intro count n put m hm
    generalize List.range count = l
    induction l generalizing m with
    | nil => exact hm
    | cons k l ih => exact ih _ (wf_setBytes _ _ _ hm)
  have all : ∀ (l : List Nat) (m : List Host.Cell), Table.wf 0 m = true →
      Table.wf 0 (l.foldl (fun m n => (List.range ((Config.freeValue s.free).toNat % (dumpLines + 1))).foldl
        (fun m k => Table.setBytes m (64 * dumpLine n k)
          (encryptUnit s 0 (dumpLine n k) (lineBytes (Config.freeValue (s.free + 1 + n * dumpLines + k))))) m) m) = true := by
    intro l
    induction l with
    | nil => exact fun m hm => hm
    | cons n l ih => exact fun m hm => ih _ (step _ n _ m hm)
  exact all _ _ h

end Sys2Proof.Machine
end

