-- ==== Sys2Proof/Laws/Ops.lean ====
section
/-! SUPPORT. The shared operations of a core (translation, access, fetch, traps, the retry ring) keep memory canonical, and
what each of them leaves. -/

namespace Sys2Proof.Machine

/-- The leaf for an address. -/
theorem MemoryOk.findLeaf {s : State} (h : MemoryOk s) (m : Nat) (root : X) (ok : Tlb → Bool) (va : Nat) :
    MemoryOk (findLeaf s m root ok va).1 := by
  unfold Machine.findLeaf
  dsimp only
  split
  · split <;> exact h
  · split
    · split
      · exact h.of_mem (by simp)
      · exact h
    · have h1 := fun b l => h.walkFrom va b l []
      split
      · rename_i heq
        exact congrArg Prod.fst heq ▸ h1 _ _
      · rename_i heq
        have h2 : MemoryOk _ := congrArg Prod.fst heq ▸ h1 _ _
        split
        · exact h2.of_mem (by simp)
        · exact h2

/-- Translation. -/
theorem MemoryOk.translate {s : State} (h : MemoryOk s) (c : Ctx) (acc : Acc) (va : Nat) : MemoryOk (translate s c acc va).1 := by
  have h1 := h.findLeaf c.mtlb c.root (leafOk acc c.user va) va
  unfold Machine.translate
  split
  · exact h
  · split <;> rename_i heq <;> rw [heq] at h1 <;> exact h1

/-- The fetch of a code line, and of a word. -/
theorem MemoryOk.fetchLine {s : State} (h : MemoryOk s) (c idx : Nat) : MemoryOk (fetchLine s c idx).1 := by
  have h1 := h.translate (coreCtx s c) .fetch (codeLine idx)
  unfold Machine.fetchLine
  dsimp only
  split
  · exact h
  · split
    · rename_i heq
      rw [heq] at h1
      exact h1
    · rename_i s' x heq
      rw [heq] at h1
      split
      · exact h1
      · have h2 := MemoryOk.readBytes h1 (coreCtx s' c) x 64 0
        split
        · exact h1
        · split
          · exact h2.of_mem (by simp)
          · exact h2
theorem MemoryOk.fetchWord {s : State} (h : MemoryOk s) (c idx : Nat) : MemoryOk (fetchWord s c idx).1 := by
  have h1 := h.fetchLine c idx
  unfold Machine.fetchWord
  split
  · exact h
  · split
    · rename_i heq
      rw [heq] at h1
      exact h1
    · rename_i heq
      rw [heq] at h1
      split <;> exact h1

@[simp] theorem mem_enterHandler (s : State) (c : Nat) (e : Event) (p : BitVec 54) : (enterHandler s c e p).mem = s.mem := rfl
@[simp] theorem mem_escalate (s : State) (g : Nat) (c : Code) (p : BitVec 54) (v : X) (d : Bool) :
    (escalate s g c p v d).mem = s.mem := by simp [escalate]
@[simp] theorem mem_toFirmware (s : State) (e : Event) (b : Bool) : (toFirmware s e b).mem = s.mem := by
  unfold toFirmware
  dsimp only
  split <;> rfl
@[simp] theorem mem_elemFault (s : State) (c : Code) (cause : Nat) : (elemFault s c cause).mem = s.mem := rfl

/-- TAKING A TRAP keeps memory canonical. -/
theorem MemoryOk.stageTrap {s : State} (h : MemoryOk s) (g : Nat) (e : Event) (p : BitVec 54) : MemoryOk (stageTrap s g e p) := by
  have h1 := h.fetchWord g (bits (core s g).tvec.toNat 0 54)
  unfold Machine.stageTrap
  dsimp only
  split
  · exact h.of_mem (by simp)
  · split
    · exact h.of_mem (by simp)
    · rename_i heq
      rw [heq] at h1
      exact h1.of_mem (by simp)
theorem MemoryOk.coreFault {s : State} (h : MemoryOk s) (c : Nat) (code : Code) (v : X) : MemoryOk (coreFault s c code v) := by
  unfold Machine.coreFault
  dsimp only
  split
  · exact h.of_mem (by simp)
  · exact h.stageTrap _ _ _

/-- The retry ring. -/
theorem MemoryOk.postRetry {s t : State} {slot : Nat} (h : MemoryOk s) (q : RetryReq) (he : postRetry s q = some (slot, t)) :
    MemoryOk t := by
  unfold Machine.postRetry at he
  dsimp only at he
  split at he
  · cases he
  · simp only [Option.some.injEq, Prod.mk.injEq] at he
    rw [← he.2]
    refine MemoryOk.of_mem (mem_postMgr _ _ _ _ _ _) ?_
    exact MemoryOk.performBytes (h.of_mem (modDie_mem _ _)) _ _ _ _ _ _ _
theorem MemoryOk.corePage {s : State} (h : MemoryOk s) (acc : Acc) (lvl va size ty dst : Nat) :
    MemoryOk (corePage s acc lvl va size ty dst) := by
  unfold Machine.corePage
  dsimp only
  split
  · exact h.coreFault _ _ _
  · split
    · exact h
    · rename_i heq
      exact (h.postRetry _ heq).of_mem (by simp)

/-- A word of a core keeps memory canonical when the state that it completes in has it so. -/
theorem MemoryOk.coreOutcome {s : State} (h : MemoryOk s) {r : Except Stop State} (hr : ∀ t, r = .ok t → MemoryOk t) :
    MemoryOk (coreOutcome s r) := by
  unfold Machine.coreOutcome
  split
  · exact hr _ rfl
  · exact h.coreFault _ _ _
  · exact h.corePage _ _ _ _ _ _
  · exact h
  · exact h

@[simp] theorem mem_elemRetire (i : Instr) (s : State) (fx : List Fx) : (elemRetire i s fx).mem = s.mem := by simp [elemRetire]

/-- A word of an element that changes no memory itself leaves all of memory: its stores are held (R40). -/
theorem mem_elemOutcome (i : Instr) (s : State) (r : Except Stop (State × List Fx)) (hr : ∀ t fx, r = .ok (t, fx) → t.mem = s.mem) :
    (elemOutcome i s r).mem = s.mem := by
  unfold elemOutcome
  split
  · simp [hr _ _ rfl]
  all_goals rfl

/-- EVERY WORD keeps memory canonical when its element half and its core half do. -/
theorem MemoryOk.word {i : Instr} {s t : State} {f : State → Except Stop (State × List Fx)} {g : State → Except Stop State}
    (h : MemoryOk s) (hf : ∀ u fx, f s = .ok (u, fx) → MemoryOk u) (hg : ∀ u, g s = .ok u → MemoryOk u)
    (he : word i s f g = .next t) : MemoryOk t := by
  unfold Machine.word at he
  split at he
  · cases he
    exact h
  · cases he
    split
    · exact h
    · exact h.coreFault _ _ _
  · cases he
    split
    · unfold elemOutcome
      split
      · rename_i heq
        exact (hf _ _ heq).of_mem (by simp)
      all_goals exact h
    · exact h.coreOutcome hg

/-- A virtual read. -/
theorem MemoryOk.vread {s t : State} {bs : List Byte} {c : Ctx} {va size hint ty dst : Nat} (h : MemoryOk s)
    (he : vread s c va size hint ty dst = .ok (bs, t)) : MemoryOk t := by
  have h1 := h.translate c .read va
  unfold Machine.vread at he
  split at he
  · cases he
  · split at he
    · cases he
    · rename_i s' x heq
      rw [heq] at h1
      split at he
      · cases he
      · have h2 := MemoryOk.readBytes h1 c x size hint
        injection he with he
        rw [he] at h2
        exact h2
theorem MemoryOk.coreRead {s t : State} {bs : List Byte} {va size hint ty dst : Nat} (h : MemoryOk s)
    (he : coreRead s va size hint ty dst = .ok (bs, t)) : MemoryOk t := by
  unfold Machine.coreRead at he
  split at he
  · cases he
    exact h
  · exact h.vread he

/-- The address of a virtual write. -/
theorem MemoryOk.vwriteAddr {s t : State} {x : Xlat} {c : Ctx} {va size ty : Nat} (h : MemoryOk s)
    (he : vwriteAddr s c va size ty = .ok (x, t)) : MemoryOk t := by
  have h1 := h.translate c .write va
  unfold Machine.vwriteAddr at he
  split at he
  · cases he
  · split at he
    · cases he
    · rename_i s' x' heq
      rw [heq] at h1
      split at he
      · cases he
      · cases he
        exact h1

end Sys2Proof.Machine
end

