-- ==== Sys2Proof/Laws/PerInstr.lean ====
section
/-! SUPPORT. One lemma for each constructor of `Instr`: family EncodeDecode, the word that an instruction encodes to
decodes to it. -/

set_option Elab.async false

namespace Sys2Proof.Laws.EncodeDecode

/-- The encoding of an instruction, where it has one, decodes to the instruction that its word is. -/
def Statement (i : Instr) : Prop := ∀ w : Word, encode i = some w → decode w = .ok (coreForm i)

/-- From the encoding of an instruction and the candidate of that word. -/
theorem of_encoding {i : Instr} {u : Word} (he : encode i = some u) (hu : encode (coreForm i) = some u)
    (hc : candidate u = some (coreForm i)) : Statement i := by
  intro w h
  rw [he] at h
  cases h
  exact decode_of_candidate hc hu

/-- An instruction that no word encodes. -/
theorem of_none {i : Instr} (he : encode i = none) : Statement i := by
  intro w h
  rw [he] at h
  cases h

theorem nop (h : Hdr) : Statement (.nop h) :=
  of_encoding (u := (wordOf 0 0 h (bodySys 0 0 0 0 0))) rfl rfl (by simp [candidate, candSys, coreForm])
theorem halt (h : Hdr) : Statement (.halt h) :=
  of_encoding (u := (wordOf 0 1 h (bodySys 0 0 0 0 0))) rfl rfl (by simp [candidate, candSys, coreForm])
theorem trap (h : Hdr) (imm : BitVec 32) : Statement (.trap h imm) :=
  of_encoding (u := (wordOf 0 2 h (bodySys 0 0 0 0 imm))) rfl rfl (by simp [candidate, candSys, coreForm])
theorem eret (h : Hdr) : Statement (.eret h) :=
  of_encoding (u := (wordOf 0 3 h (bodySys 0 0 0 0 0))) rfl rfl (by simp [candidate, candSys, coreForm])
theorem mfsr (h : Hdr) (d : Reg) (sr : BitVec 12) : Statement (.mfsr h d sr) :=
  of_encoding (u := (wordOf 0 4 h (bodySys d 0 0 sr 0))) rfl rfl (by simp [candidate, candSys, coreForm])
theorem mtsr (h : Hdr) (a : Reg) (sr : BitVec 12) : Statement (.mtsr h a sr) :=
  of_encoding (u := (wordOf 0 5 h (bodySys 0 a 0 sr 0))) rfl rfl (by simp [candidate, candSys, coreForm])
theorem launch (h : Hdr) (d a b : Reg) : Statement (.launch h d a b) :=
  of_encoding (u := (wordOf 0 6 h (bodySys d a b 0 0))) rfl rfl (by simp [candidate, candSys, coreForm])
theorem tlaunch (h : Hdr) (d a b : Reg) : Statement (.tlaunch h d a b) :=
  of_encoding (u := (wordOf 0 7 h (bodySys d a b 0 0))) rfl rfl (by simp [candidate, candSys, coreForm])
theorem loadcfg (h : Hdr) (a : Reg) : Statement (.loadcfg h a) :=
  of_encoding (u := (wordOf 0 8 h (bodySys 0 a 0 0 0))) rfl rfl (by simp [candidate, candSys, coreForm])
theorem reconf (h : Hdr) : Statement (.reconf h) :=
  of_encoding (u := (wordOf 0 9 h (bodySys 0 0 0 0 0))) rfl rfl (by simp [candidate, candSys, coreForm])
theorem shrink (h : Hdr) (d a b : Reg) : Statement (.shrink h d a b) :=
  of_encoding (u := (wordOf 0 10 h (bodySys d a b 0 0))) rfl rfl (by simp [candidate, candSys, coreForm])
theorem shrinkQuery (h : Hdr) (d a b : Reg) : Statement (.shrinkQuery h d a b) :=
  of_encoding (u := (wordOf 0 10 h (bodySys d a b 0 1))) rfl rfl (by simp [candidate, candSys, coreForm])
theorem csave (h : Hdr) (d a b : Reg) (imm : BitVec 32) : Statement (.csave h d a b imm) :=
  of_encoding (u := (wordOf 0 11 h (bodySys d a b 0 imm))) rfl rfl (by simp [candidate, candSys, coreForm])
theorem crest (h : Hdr) (d a : Reg) : Statement (.crest h d a) :=
  of_encoding (u := (wordOf 0 12 h (bodySys d a 0 0 0))) rfl rfl (by simp [candidate, candSys, coreForm])
theorem wdogRestart (h : Hdr) (d a : Reg) : Statement (.wdogRestart h d a) :=
  of_encoding (u := (wordOf 0 13 h (bodySys d a 0 0 0))) rfl rfl (by simp [candidate, candSys, coreForm])
theorem wdogReport (h : Hdr) (d a : Reg) : Statement (.wdogReport h d a) :=
  of_encoding (u := (wordOf 0 13 h (bodySys d a 0 0 1))) rfl rfl (by simp [candidate, candSys, coreForm])
theorem wdogNextStep (h : Hdr) (d a : Reg) : Statement (.wdogNextStep h d a) :=
  of_encoding (u := (wordOf 0 13 h (bodySys d a 0 0 2))) rfl rfl (by simp [candidate, candSys, coreForm])
theorem wdogSuspend (h : Hdr) (d a : Reg) : Statement (.wdogSuspend h d a) :=
  of_encoding (u := (wordOf 0 13 h (bodySys d a 0 0 3))) rfl rfl (by simp [candidate, candSys, coreForm])
theorem phcrd (h : Hdr) (d a : Reg) : Statement (.phcrd h d a) :=
  of_encoding (u := (wordOf 0 14 h (bodySys d a 0 0 0))) rfl rfl (by simp [candidate, candSys, coreForm])
theorem sslotBind (h : Hdr) (d a b : Reg) : Statement (.sslotBind h d a b) :=
  of_encoding (u := (wordOf 0 15 h (bodySys d a b 0 0))) rfl rfl (by simp [candidate, candSys, coreForm])
theorem sslotRefresh (h : Hdr) (d a b : Reg) : Statement (.sslotRefresh h d a b) :=
  of_encoding (u := (wordOf 0 15 h (bodySys d a b 0 1))) rfl rfl (by simp [candidate, candSys, coreForm])
theorem sslotEvict (h : Hdr) (d a : Reg) : Statement (.sslotEvict h d a) :=
  of_encoding (u := (wordOf 0 15 h (bodySys d a 0 0 2))) rfl rfl (by simp [candidate, candSys, coreForm])
theorem rtywSupply (h : Hdr) (d a b : Reg) : Statement (.rtywSupply h d a b) :=
  of_encoding (u := (wordOf 0 16 h (bodySys d a b 0 0))) rfl rfl (by simp [candidate, candSys, coreForm])
theorem rtywReplay (h : Hdr) (d a b : Reg) : Statement (.rtywReplay h d a b) :=
  of_encoding (u := (wordOf 0 16 h (bodySys d a b 0 1))) rfl rfl (by simp [candidate, candSys, coreForm])
theorem rtypop (h : Hdr) (d : Reg) : Statement (.rtypop h d) :=
  of_encoding (u := (wordOf 0 17 h (bodySys d 0 0 0 0))) rfl rfl (by simp [candidate, candSys, coreForm])
theorem tlbinvAll (h : Hdr) : Statement (.tlbinvAll h) :=
  of_encoding (u := (wordOf 0 18 h (bodySys 0 0 0 0 0))) rfl rfl (by simp [candidate, candSys, coreForm])
theorem tlbinvAsid (h : Hdr) (b : Reg) : Statement (.tlbinvAsid h b) :=
  of_encoding (u := (wordOf 0 18 h (bodySys 0 0 b 0 1))) rfl rfl (by simp [candidate, candSys, coreForm])
theorem tlbinvAddress (h : Hdr) (a b : Reg) : Statement (.tlbinvAddress h a b) :=
  of_encoding (u := (wordOf 0 18 h (bodySys 0 a b 0 2))) rfl rfl (by simp [candidate, candSys, coreForm])
theorem ifence (h : Hdr) : Statement (.ifence h) :=
  of_encoding (u := (wordOf 0 19 h (bodySys 0 0 0 0 0))) rfl rfl (by simp [candidate, candSys, coreForm])
theorem vcset (h : Hdr) (d a : Reg) : Statement (.vcset h d a) :=
  of_encoding (u := (wordOf 0 20 h (bodySys d a 0 0 0))) rfl rfl (by simp [candidate, candSys, coreForm])
theorem tqset (h : Hdr) (d a : Reg) : Statement (.tqset h d a) :=
  of_encoding (u := (wordOf 0 21 h (bodySys d a 0 0 0))) rfl rfl (by simp [candidate, candSys, coreForm])
theorem tqtest (h : Hdr) (d a : Reg) : Statement (.tqtest h d a) :=
  of_encoding (u := (wordOf 0 22 h (bodySys d a 0 0 0))) rfl rfl (by simp [candidate, candSys, coreForm])
theorem add (h : Hdr) (d a b : Reg) : Statement (.add h d a b) :=
  of_encoding (u := (wordOf 1 0 h (bodyIr d a b 0 0 0 0 0))) rfl rfl (by simp [candidate, candIr, coreForm])
theorem sub (h : Hdr) (d a b : Reg) : Statement (.sub h d a b) :=
  of_encoding (u := (wordOf 1 1 h (bodyIr d a b 0 0 0 0 0))) rfl rfl (by simp [candidate, candIr, coreForm])
theorem mul (h : Hdr) (d a b : Reg) : Statement (.mul h d a b) :=
  of_encoding (u := (wordOf 1 2 h (bodyIr d a b 0 0 0 0 0))) rfl rfl (by simp [candidate, candIr, coreForm])
theorem and (h : Hdr) (d a b : Reg) : Statement (.and h d a b) :=
  of_encoding (u := (wordOf 1 6 h (bodyIr d a b 0 0 0 0 0))) rfl rfl (by simp [candidate, candIr, coreForm])
theorem or (h : Hdr) (d a b : Reg) : Statement (.or h d a b) :=
  of_encoding (u := (wordOf 1 7 h (bodyIr d a b 0 0 0 0 0))) rfl rfl (by simp [candidate, candIr, coreForm])
theorem xor (h : Hdr) (d a b : Reg) : Statement (.xor h d a b) :=
  of_encoding (u := (wordOf 1 8 h (bodyIr d a b 0 0 0 0 0))) rfl rfl (by simp [candidate, candIr, coreForm])
theorem shl (h : Hdr) (d a b : Reg) : Statement (.shl h d a b) :=
  of_encoding (u := (wordOf 1 9 h (bodyIr d a b 0 0 0 0 0))) rfl rfl (by simp [candidate, candIr, coreForm])
theorem shr (h : Hdr) (d a b : Reg) : Statement (.shr h d a b) :=
  of_encoding (u := (wordOf 1 10 h (bodyIr d a b 0 0 0 0 0))) rfl rfl (by simp [candidate, candIr, coreForm])
theorem sra (h : Hdr) (d a b : Reg) : Statement (.sra h d a b) :=
  of_encoding (u := (wordOf 1 11 h (bodyIr d a b 0 0 0 0 0))) rfl rfl (by simp [candidate, candIr, coreForm])
theorem mulh (h : Hdr) (d a b : Reg) (u : BitVec 1) : Statement (.mulh h d a b u) :=
  of_encoding (u := (wordOf 1 3 h (bodyIr d a b 0 u 0 0 0))) rfl rfl (by simp [candidate, candIr, coreForm])
theorem div (h : Hdr) (d a b : Reg) (u : BitVec 1) : Statement (.div h d a b u) :=
  of_encoding (u := (wordOf 1 4 h (bodyIr d a b 0 u 0 0 0))) rfl rfl (by simp [candidate, candIr, coreForm])
theorem rem (h : Hdr) (d a b : Reg) (u : BitVec 1) : Statement (.rem h d a b u) :=
  of_encoding (u := (wordOf 1 5 h (bodyIr d a b 0 u 0 0 0))) rfl rfl (by simp [candidate, candIr, coreForm])
theorem min (h : Hdr) (d a b : Reg) (u : BitVec 1) : Statement (.min h d a b u) :=
  of_encoding (u := (wordOf 1 14 h (bodyIr d a b 0 u 0 0 0))) rfl rfl (by simp [candidate, candIr, coreForm])
theorem max (h : Hdr) (d a b : Reg) (u : BitVec 1) : Statement (.max h d a b u) :=
  of_encoding (u := (wordOf 1 15 h (bodyIr d a b 0 u 0 0 0))) rfl rfl (by simp [candidate, candIr, coreForm])
theorem clz (h : Hdr) (d a : Reg) : Statement (.clz h d a) :=
  of_encoding (u := (wordOf 1 12 h (bodyIr d a 0 0 0 0 0 0))) rfl rfl (by simp [candidate, candIr, coreForm])
theorem popc (h : Hdr) (d a : Reg) : Statement (.popc h d a) :=
  of_encoding (u := (wordOf 1 13 h (bodyIr d a 0 0 0 0 0 0))) rfl rfl (by simp [candidate, candIr, coreForm])
theorem setc (h : Hdr) (d a b : Reg) (u : BitVec 1) (cc : BitVec 3) : Statement (.setc h d a b u cc) :=
  of_encoding (u := (wordOf 1 16 h (bodyIr d a b 0 u cc 0 0))) rfl rfl (by simp [candidate, candIr, coreForm])
theorem sel (h : Hdr) (d a b c : Reg) : Statement (.sel h d a b c) :=
  of_encoding (u := (wordOf 1 17 h (bodyIr d a b c 0 0 0 0))) rfl rfl (by simp [candidate, candIr, coreForm])
theorem bfx (h : Hdr) (d a : Reg) (u : BitVec 1) (pos len : BitVec 6) : Statement (.bfx h d a u pos len) :=
  of_encoding (u := (wordOf 1 18 h (bodyIr d a 0 0 u 0 pos len))) rfl rfl (by simp [candidate, candIr, coreForm])
theorem bfi (h : Hdr) (d a b : Reg) (pos len : BitVec 6) : Statement (.bfi h d a b pos len) :=
  of_encoding (u := (wordOf 1 19 h (bodyIr d a b 0 0 0 pos len))) rfl rfl (by simp [candidate, candIr, coreForm])
theorem lea (h : Hdr) (d a b : Reg) (pos : BitVec 6) : Statement (.lea h d a b pos) :=
  of_encoding (u := (wordOf 1 20 h (bodyIr d a b 0 0 0 pos 0))) rfl rfl (by simp [candidate, candIr, coreForm])
theorem addImm (h : Hdr) (d a : Reg) (imm : BitVec 32) : Statement (.addImm h d a imm) :=
  of_encoding (u := (wordOf 2 0 h (bodyIi d a 0 0 imm))) rfl rfl (by simp [candidate, candIi, coreForm])
theorem andImm (h : Hdr) (d a : Reg) (imm : BitVec 32) : Statement (.andImm h d a imm) :=
  of_encoding (u := (wordOf 2 6 h (bodyIi d a 0 0 imm))) rfl rfl (by simp [candidate, candIi, coreForm])
theorem orImm (h : Hdr) (d a : Reg) (imm : BitVec 32) : Statement (.orImm h d a imm) :=
  of_encoding (u := (wordOf 2 7 h (bodyIi d a 0 0 imm))) rfl rfl (by simp [candidate, candIi, coreForm])
theorem xorImm (h : Hdr) (d a : Reg) (imm : BitVec 32) : Statement (.xorImm h d a imm) :=
  of_encoding (u := (wordOf 2 8 h (bodyIi d a 0 0 imm))) rfl rfl (by simp [candidate, candIi, coreForm])
theorem shlImm (h : Hdr) (d a : Reg) (imm : BitVec 32) : Statement (.shlImm h d a imm) :=
  of_encoding (u := (wordOf 2 9 h (bodyIi d a 0 0 imm))) rfl rfl (by simp [candidate, candIi, coreForm])
theorem shrImm (h : Hdr) (d a : Reg) (imm : BitVec 32) : Statement (.shrImm h d a imm) :=
  of_encoding (u := (wordOf 2 10 h (bodyIi d a 0 0 imm))) rfl rfl (by simp [candidate, candIi, coreForm])
theorem sraImm (h : Hdr) (d a : Reg) (imm : BitVec 32) : Statement (.sraImm h d a imm) :=
  of_encoding (u := (wordOf 2 11 h (bodyIi d a 0 0 imm))) rfl rfl (by simp [candidate, candIi, coreForm])
theorem setcImm (h : Hdr) (d a : Reg) (u : BitVec 1) (cc : BitVec 3) (imm : BitVec 32) : Statement (.setcImm h d a u cc imm) :=
  of_encoding (u := (wordOf 2 16 h (bodyIi d a u cc imm))) rfl rfl (by simp [candidate, candIi, coreForm])
theorem movi (h : Hdr) (d : Reg) (imm : BitVec 32) : Statement (.movi h d imm) :=
  of_encoding (u := (wordOf 2 32 h (bodyIi d 0 0 0 imm))) rfl rfl (by simp [candidate, candIi, coreForm])
theorem movh (h : Hdr) (d a : Reg) (imm : BitVec 32) : Statement (.movh h d a imm) :=
  of_encoding (u := (wordOf 2 33 h (bodyIi d a 0 0 imm))) rfl rfl (by simp [candidate, candIi, coreForm])
theorem fadd (h : Hdr) (d a b : Reg) (ty : BitVec 4) (rm : BitVec 3) : Statement (.fadd h d a b ty rm) :=
  of_encoding (u := (wordOf 3 0 h (bodyFs d a b 0 ty rm 0 0))) rfl rfl (by simp [candidate, candFs, coreForm])
theorem fsub (h : Hdr) (d a b : Reg) (ty : BitVec 4) (rm : BitVec 3) : Statement (.fsub h d a b ty rm) :=
  of_encoding (u := (wordOf 3 1 h (bodyFs d a b 0 ty rm 0 0))) rfl rfl (by simp [candidate, candFs, coreForm])
theorem fmul (h : Hdr) (d a b : Reg) (ty : BitVec 4) (rm : BitVec 3) : Statement (.fmul h d a b ty rm) :=
  of_encoding (u := (wordOf 3 2 h (bodyFs d a b 0 ty rm 0 0))) rfl rfl (by simp [candidate, candFs, coreForm])
theorem fdiv (h : Hdr) (d a b : Reg) (ty : BitVec 4) (rm : BitVec 3) : Statement (.fdiv h d a b ty rm) :=
  of_encoding (u := (wordOf 3 4 h (bodyFs d a b 0 ty rm 0 0))) rfl rfl (by simp [candidate, candFs, coreForm])
theorem ffma (h : Hdr) (d a b c : Reg) (ty : BitVec 4) (rm : BitVec 3) : Statement (.ffma h d a b c ty rm) :=
  of_encoding (u := (wordOf 3 3 h (bodyFs d a b c ty rm 0 0))) rfl rfl (by simp [candidate, candFs, coreForm])
theorem fsqrt (h : Hdr) (d a : Reg) (ty : BitVec 4) (rm : BitVec 3) : Statement (.fsqrt h d a ty rm) :=
  of_encoding (u := (wordOf 3 5 h (bodyFs d a 0 0 ty rm 0 0))) rfl rfl (by simp [candidate, candFs, coreForm])
theorem fmin (h : Hdr) (d a b : Reg) (ty : BitVec 4) : Statement (.fmin h d a b ty) :=
  of_encoding (u := (wordOf 3 6 h (bodyFs d a b 0 ty 0 0 0))) rfl rfl (by simp [candidate, candFs, coreForm])
theorem fmax (h : Hdr) (d a b : Reg) (ty : BitVec 4) : Statement (.fmax h d a b ty) :=
  of_encoding (u := (wordOf 3 7 h (bodyFs d a b 0 ty 0 0 0))) rfl rfl (by simp [candidate, candFs, coreForm])
theorem fsetc (h : Hdr) (d a b : Reg) (ty : BitVec 4) (cc : BitVec 3) : Statement (.fsetc h d a b ty cc) :=
  of_encoding (u := (wordOf 3 8 h (bodyFs d a b 0 ty 0 0 cc))) rfl rfl (by simp [candidate, candFs, coreForm])
theorem fcvt (h : Hdr) (d a : Reg) (ty : BitVec 4) (rm : BitVec 3) (tty : BitVec 4) : Statement (.fcvt h d a ty rm tty) :=
  of_encoding (u := (wordOf 3 9 h (bodyFs d a 0 0 ty rm tty 0))) rfl rfl (by simp [candidate, candFs, coreForm])
theorem fclass (h : Hdr) (d a : Reg) (ty : BitVec 4) : Statement (.fclass h d a ty) :=
  of_encoding (u := (wordOf 3 10 h (bodyFs d a 0 0 ty 0 0 0))) rfl rfl (by simp [candidate, candFs, coreForm])
theorem vadd (h : Hdr) (d a b : Reg) (ty : BitVec 4) (rm : BitVec 3) (sat : BitVec 1) : Statement (.vadd h d a b ty rm sat) :=
  of_encoding (u := (wordOf 4 0 h (bodyVa d a b 0 ty rm 0 0 sat))) rfl rfl (by simp [candidate, candVa, coreForm])
theorem vsub (h : Hdr) (d a b : Reg) (ty : BitVec 4) (rm : BitVec 3) (sat : BitVec 1) : Statement (.vsub h d a b ty rm sat) :=
  of_encoding (u := (wordOf 4 1 h (bodyVa d a b 0 ty rm 0 0 sat))) rfl rfl (by simp [candidate, candVa, coreForm])
theorem vmul (h : Hdr) (d a b : Reg) (ty : BitVec 4) (rm : BitVec 3) (sat : BitVec 1) : Statement (.vmul h d a b ty rm sat) :=
  of_encoding (u := (wordOf 4 2 h (bodyVa d a b 0 ty rm 0 0 sat))) rfl rfl (by simp [candidate, candVa, coreForm])
theorem vfma (h : Hdr) (d a b c : Reg) (ty : BitVec 4) (rm : BitVec 3) (sat : BitVec 1) : Statement (.vfma h d a b c ty rm sat) :=
  of_encoding (u := (wordOf 4 3 h (bodyVa d a b c ty rm 0 0 sat))) rfl rfl (by simp [candidate, candVa, coreForm])
theorem vmin (h : Hdr) (d a b : Reg) (ty : BitVec 4) : Statement (.vmin h d a b ty) :=
  of_encoding (u := (wordOf 4 4 h (bodyVa d a b 0 ty 0 0 0 0))) rfl rfl (by simp [candidate, candVa, coreForm])
theorem vmax (h : Hdr) (d a b : Reg) (ty : BitVec 4) : Statement (.vmax h d a b ty) :=
  of_encoding (u := (wordOf 4 5 h (bodyVa d a b 0 ty 0 0 0 0))) rfl rfl (by simp [candidate, candVa, coreForm])
theorem vabs (h : Hdr) (d a : Reg) (ty : BitVec 4) (sat : BitVec 1) : Statement (.vabs h d a ty sat) :=
  of_encoding (u := (wordOf 4 6 h (bodyVa d a 0 0 ty 0 0 0 sat))) rfl rfl (by simp [candidate, candVa, coreForm])
theorem vneg (h : Hdr) (d a : Reg) (ty : BitVec 4) (sat : BitVec 1) : Statement (.vneg h d a ty sat) :=
  of_encoding (u := (wordOf 4 7 h (bodyVa d a 0 0 ty 0 0 0 sat))) rfl rfl (by simp [candidate, candVa, coreForm])
theorem vexp (h : Hdr) (d a : Reg) (ty : BitVec 4) (rm : BitVec 3) : Statement (.vexp h d a ty rm) :=
  of_encoding (u := (wordOf 4 8 h (bodyVa d a 0 0 ty rm 0 0 0))) rfl rfl (by simp [candidate, candVa, coreForm])
theorem vlog (h : Hdr) (d a : Reg) (ty : BitVec 4) (rm : BitVec 3) : Statement (.vlog h d a ty rm) :=
  of_encoding (u := (wordOf 4 9 h (bodyVa d a 0 0 ty rm 0 0 0))) rfl rfl (by simp [candidate, candVa, coreForm])
theorem vrcp (h : Hdr) (d a : Reg) (ty : BitVec 4) (rm : BitVec 3) : Statement (.vrcp h d a ty rm) :=
  of_encoding (u := (wordOf 4 10 h (bodyVa d a 0 0 ty rm 0 0 0))) rfl rfl (by simp [candidate, candVa, coreForm])
theorem vrsq (h : Hdr) (d a : Reg) (ty : BitVec 4) (rm : BitVec 3) : Statement (.vrsq h d a ty rm) :=
  of_encoding (u := (wordOf 4 11 h (bodyVa d a 0 0 ty rm 0 0 0))) rfl rfl (by simp [candidate, candVa, coreForm])
theorem vsetc (h : Hdr) (d a b : Reg) (ty : BitVec 4) (cc : BitVec 3) : Statement (.vsetc h d a b ty cc) :=
  of_encoding (u := (wordOf 4 12 h (bodyVa d a b 0 ty 0 0 cc 0))) rfl rfl (by simp [candidate, candVa, coreForm])
theorem vsel (h : Hdr) (d a b c : Reg) (ty : BitVec 4) : Statement (.vsel h d a b c ty) :=
  of_encoding (u := (wordOf 4 13 h (bodyVa d a b c ty 0 0 0 0))) rfl rfl (by simp [candidate, candVa, coreForm])
theorem vand (h : Hdr) (d a b : Reg) : Statement (.vand h d a b) :=
  of_encoding (u := (wordOf 4 14 h (bodyVa d a b 0 15 0 0 0 0))) rfl rfl (by simp [candidate, candVa, coreForm])
theorem vor (h : Hdr) (d a b : Reg) : Statement (.vor h d a b) :=
  of_encoding (u := (wordOf 4 15 h (bodyVa d a b 0 15 0 0 0 0))) rfl rfl (by simp [candidate, candVa, coreForm])
theorem vxor (h : Hdr) (d a b : Reg) : Statement (.vxor h d a b) :=
  of_encoding (u := (wordOf 4 16 h (bodyVa d a b 0 15 0 0 0 0))) rfl rfl (by simp [candidate, candVa, coreForm])
theorem vmov (h : Hdr) (d a : Reg) : Statement (.vmov h d a) :=
  of_encoding (u := (wordOf 4 19 h (bodyVa d a 0 0 15 0 0 0 0))) rfl rfl (by simp [candidate, candVa, coreForm])
theorem vshl (h : Hdr) (d a b : Reg) (ty : BitVec 4) : Statement (.vshl h d a b ty) :=
  of_encoding (u := (wordOf 4 17 h (bodyVa d a b 0 ty 0 0 0 0))) rfl rfl (by simp [candidate, candVa, coreForm])
theorem vshr (h : Hdr) (d a b : Reg) (ty : BitVec 4) (sat : BitVec 1) : Statement (.vshr h d a b ty sat) :=
  of_encoding (u := (wordOf 4 18 h (bodyVa d a b 0 ty 0 0 0 sat))) rfl rfl (by simp [candidate, candVa, coreForm])
theorem vdot (h : Hdr) (d a b : Reg) (ty : BitVec 4) (rm : BitVec 3) (oty : BitVec 4) (sat : BitVec 1) : Statement (.vdot h d a b ty rm oty sat) :=
  of_encoding (u := (wordOf 4 20 h (bodyVa d a b 0 ty rm oty 0 sat))) rfl rfl (by simp [candidate, candVa, coreForm])
theorem vred (h : Hdr) (d a : Reg) (ty : BitVec 4) (rm : BitVec 3) (oty : BitVec 4) (sat : BitVec 1) : Statement (.vred h d a ty rm oty sat) :=
  of_encoding (u := (wordOf 4 21 h (bodyVa d a 0 0 ty rm oty 0 sat))) rfl rfl (by simp [candidate, candVa, coreForm])
theorem vscan (h : Hdr) (d a : Reg) (ty : BitVec 4) (rm : BitVec 3) (oty : BitVec 4) (sat : BitVec 1) : Statement (.vscan h d a ty rm oty sat) :=
  of_encoding (u := (wordOf 4 22 h (bodyVa d a 0 0 ty rm oty 0 sat))) rfl rfl (by simp [candidate, candVa, coreForm])
theorem vshuf (h : Hdr) (d a b : Reg) (ty : BitVec 4) : Statement (.vshuf h d a b ty) :=
  of_encoding (u := (wordOf 5 0 h (bodyVp d a b 0 ty 0 0 0 0))) rfl rfl (by simp [candidate, candVp, coreForm])
theorem vbcast (h : Hdr) (d a : Reg) (ty : BitVec 4) (idx : BitVec 6) : Statement (.vbcast h d a ty idx) :=
  of_encoding (u := (wordOf 5 1 h (bodyVp d a 0 0 ty 0 0 idx 0))) rfl rfl (by simp [candidate, candVp, coreForm])
theorem vextr (h : Hdr) (d a b : Reg) (ty : BitVec 4) (idx : BitVec 6) : Statement (.vextr h d a b ty idx) :=
  of_encoding (u := (wordOf 5 2 h (bodyVp d a b 0 ty 0 0 idx 0))) rfl rfl (by simp [candidate, candVp, coreForm])
theorem vins (h : Hdr) (d a b : Reg) (ty : BitVec 4) (idx : BitVec 6) : Statement (.vins h d a b ty idx) :=
  of_encoding (u := (wordOf 5 3 h (bodyVp d a b 0 ty 0 0 idx 0))) rfl rfl (by simp [candidate, candVp, coreForm])
theorem vpack (h : Hdr) (d a b : Reg) (ty : BitVec 4) (rm : BitVec 3) (oty : BitVec 4) : Statement (.vpack h d a b ty rm oty) :=
  of_encoding (u := (wordOf 5 4 h (bodyVp d a b 0 ty rm oty 0 0))) rfl rfl (by simp [candidate, candVp, coreForm])
theorem vunpk (h : Hdr) (d a : Reg) (ty : BitVec 4) (rm : BitVec 3) (oty : BitVec 4) (imm8 : BitVec 8) : Statement (.vunpk h d a ty rm oty imm8) :=
  of_encoding (u := (wordOf 5 5 h (bodyVp d a 0 0 ty rm oty 0 imm8))) rfl rfl (by simp [candidate, candVp, coreForm])
theorem vcvt (h : Hdr) (d a : Reg) (ty : BitVec 4) (rm : BitVec 3) (oty : BitVec 4) : Statement (.vcvt h d a ty rm oty) :=
  of_encoding (u := (wordOf 5 6 h (bodyVp d a 0 0 ty rm oty 0 0))) rfl rfl (by simp [candidate, candVp, coreForm])
theorem vqnt (h : Hdr) (d a b : Reg) (ty : BitVec 4) (rm : BitVec 3) (oty : BitVec 4) (imm8 : BitVec 8) : Statement (.vqnt h d a b ty rm oty imm8) :=
  of_encoding (u := (wordOf 5 7 h (bodyVp d a b 0 ty rm oty 0 imm8))) rfl rfl (by simp [candidate, candVp, coreForm])
theorem vdqnt (h : Hdr) (d a : Reg) (ty : BitVec 4) (rm : BitVec 3) (oty : BitVec 4) (imm8 : BitVec 8) : Statement (.vdqnt h d a ty rm oty imm8) :=
  of_encoding (u := (wordOf 5 8 h (bodyVp d a 0 0 ty rm oty 0 imm8))) rfl rfl (by simp [candidate, candVp, coreForm])
theorem mmode (h : Hdr) (ty : BitVec 4) (f : BitVec 1) : Statement (.mmode h ty f) :=
  of_encoding (u := (wordOf 6 0 h (bodyMx 0 0 0 0 ty 0 0 0 f))) rfl rfl (by simp [candidate, candMx, coreForm])
theorem wload (h : Hdr) (a b : Reg) (ty : BitVec 4) (f : BitVec 1) : Statement (.wload h a b ty f) :=
  of_encoding (u := (wordOf 6 1 h (bodyMx 0 a b 0 ty 0 0 0 f))) rfl rfl (by simp [candidate, candMx, coreForm])
theorem mma (h : Hdr) (a b : Reg) (ty : BitVec 4) (rm : BitVec 3) (row : BitVec 9) (f : BitVec 1) : Statement (.mma h a b ty rm row f) :=
  of_encoding (u := (wordOf 6 2 h (bodyMx 0 a b 0 ty rm row 0 f))) rfl rfl (by simp [candidate, candMx, coreForm])
theorem mmasp (h : Hdr) (a b : Reg) (ty : BitVec 4) (rm : BitVec 3) (row : BitVec 9) (f : BitVec 1) : Statement (.mmasp h a b ty rm row f) :=
  of_encoding (u := (wordOf 6 3 h (bodyMx 0 a b 0 ty rm row 0 f))) rfl rfl (by simp [candidate, candMx, coreForm])
theorem mmeta (h : Hdr) (a : Reg) : Statement (.mmeta h a) :=
  of_encoding (u := (wordOf 6 4 h (bodyMx 0 a 0 0 0 0 0 0 0))) rfl rfl (by simp [candidate, candMx, coreForm])
theorem accz (h : Hdr) (b : Reg) (row : BitVec 9) : Statement (.accz h b row) :=
  of_encoding (u := (wordOf 6 5 h (bodyMx 0 0 b 0 0 0 row 0 0))) rfl rfl (by simp [candidate, candMx, coreForm])
theorem accld (h : Hdr) (a b : Reg) (ty : BitVec 4) (row : BitVec 9) : Statement (.accld h a b ty row) :=
  of_encoding (u := (wordOf 6 6 h (bodyMx 0 a b 0 ty 0 row 0 0))) rfl rfl (by simp [candidate, candMx, coreForm])
theorem accst (h : Hdr) (a b : Reg) (ty : BitVec 4) (rm : BitVec 3) (row : BitVec 9) : Statement (.accst h a b ty rm row) :=
  of_encoding (u := (wordOf 6 7 h (bodyMx 0 a b 0 ty rm row 0 0))) rfl rfl (by simp [candidate, candMx, coreForm])
theorem accrd (h : Hdr) (d b : Reg) (row : BitVec 9) (colb : BitVec 4) : Statement (.accrd h d b row colb) :=
  of_encoding (u := (wordOf 6 8 h (bodyMx d 0 b 0 0 0 row colb 0))) rfl rfl (by simp [candidate, candMx, coreForm])
theorem accwr (h : Hdr) (a b : Reg) (row : BitVec 9) (colb : BitVec 4) : Statement (.accwr h a b row colb) :=
  of_encoding (u := (wordOf 6 9 h (bodyMx 0 a b 0 0 0 row colb 0))) rfl rfl (by simp [candidate, candMx, coreForm])
theorem prmld (h : Hdr) (a b : Reg) (grp : BitVec 8) : Statement (.prmld h a b grp) :=
  of_encoding (u := (wordOf 7 0 h (bodySb 0 a b 0 grp 0))) rfl rfl (by simp [candidate, candSb, coreForm])
theorem prmap (h : Hdr) (d a b : Reg) (grp : BitVec 8) : Statement (.prmap h d a b grp) :=
  of_encoding (u := (wordOf 7 1 h (bodySb d a b 0 grp 0))) rfl rfl (by simp [candidate, candSb, coreForm])
theorem scans (h : Hdr) (d a : Reg) : Statement (.scans h d a) :=
  of_encoding (u := (wordOf 7 2 h (bodySb d a 0 0 0 0))) rfl rfl (by simp [candidate, candSb, coreForm])
theorem difld (h : Hdr) (d a : Reg) : Statement (.difld h d a) :=
  of_encoding (u := (wordOf 7 3 h (bodySb d a 0 0 0 0))) rfl rfl (by simp [candidate, candSb, coreForm])
theorem difmul (h : Hdr) (d a b c : Reg) : Statement (.difmul h d a b c) :=
  of_encoding (u := (wordOf 7 4 h (bodySb d a b c 0 0))) rfl rfl (by simp [candidate, candSb, coreForm])
theorem sbpfin (h : Hdr) (d a b c : Reg) (rm : BitVec 3) : Statement (.sbpfin h d a b c rm) :=
  of_encoding (u := (wordOf 7 5 h (bodySb d a b c 0 rm))) rfl rfl (by simp [candidate, candSb, coreForm])
theorem wsort (h : Hdr) (d a b : Reg) (grp : BitVec 8) : Statement (.wsort h d a b grp) :=
  of_encoding (u := (wordOf 7 6 h (bodySb d a b 0 grp 0))) rfl rfl (by simp [candidate, candSb, coreForm])
theorem yclr (h : Hdr) (d : Reg) : Statement (.yclr h d) :=
  of_encoding (u := (wordOf 7 7 h (bodySb d 0 0 0 0 0))) rfl rfl (by simp [candidate, candSb, coreForm])
theorem ld (h : Hdr) (d a b : Reg) (off : BitVec 20) (p : BitVec 6) (hint : BitVec 3) (ty : BitVec 4) : Statement (.ld h d a b off p hint ty) :=
  of_encoding (u := (wordOf 8 0 h (bodyMe d a b off 0 p hint ty))) rfl rfl (by simp [candidate, candMe, coreForm])
theorem st (h : Hdr) (d a b : Reg) (off : BitVec 20) (p : BitVec 6) (hint : BitVec 3) (ty : BitVec 4) : Statement (.st h d a b off p hint ty) :=
  of_encoding (u := (wordOf 8 1 h (bodyMe d a b off 0 p hint ty))) rfl rfl (by simp [candidate, candMe, coreForm])
theorem vld (h : Hdr) (d a b : Reg) (off : BitVec 20) (p : BitVec 6) (hint : BitVec 3) (ty : BitVec 4) : Statement (.vld h d a b off p hint ty) :=
  of_encoding (u := (wordOf 8 2 h (bodyMe d a b off 0 p hint ty))) rfl rfl (by simp [candidate, candMe, coreForm])
theorem vst (h : Hdr) (d a b : Reg) (off : BitVec 20) (p : BitVec 6) (hint : BitVec 3) (ty : BitVec 4) : Statement (.vst h d a b off p hint ty) :=
  of_encoding (u := (wordOf 8 3 h (bodyMe d a b off 0 p hint ty))) rfl rfl (by simp [candidate, candMe, coreForm])
theorem ldw (h : Hdr) (d a b : Reg) (off : BitVec 20) (win : BitVec 5) (p : BitVec 6) (hint : BitVec 3) (ty : BitVec 4) : Statement (.ldw h d a b off win p hint ty) :=
  of_encoding (u := (wordOf 8 4 h (bodyMe d a b off win p hint ty))) rfl rfl (by simp [candidate, candMe, coreForm])
theorem vldw (h : Hdr) (d a b : Reg) (off : BitVec 20) (win : BitVec 5) (p : BitVec 6) (hint : BitVec 3) (ty : BitVec 4) : Statement (.vldw h d a b off win p hint ty) :=
  of_encoding (u := (wordOf 8 5 h (bodyMe d a b off win p hint ty))) rfl rfl (by simp [candidate, candMe, coreForm])
theorem vldx (h : Hdr) (d a b : Reg) (off : BitVec 20) (p : BitVec 6) (hint : BitVec 3) (ty : BitVec 4) : Statement (.vldx h d a b off p hint ty) :=
  of_encoding (u := (wordOf 8 6 h (bodyMe d a b off 0 p hint ty))) rfl rfl (by simp [candidate, candMe, coreForm])
theorem vstx (h : Hdr) (d a b : Reg) (off : BitVec 20) (p : BitVec 6) (hint : BitVec 3) (ty : BitVec 4) : Statement (.vstx h d a b off p hint ty) :=
  of_encoding (u := (wordOf 8 7 h (bodyMe d a b off 0 p hint ty))) rfl rfl (by simp [candidate, candMe, coreForm])
theorem bufput (h : Hdr) (d a : Reg) (off : BitVec 20) (p : BitVec 6) (ty : BitVec 4) : Statement (.bufput h d a off p ty) :=
  of_encoding (u := (wordOf 8 8 h (bodyMe d a 0 off 0 p 0 ty))) rfl rfl (by simp [candidate, candMe, coreForm])
theorem bufget (h : Hdr) (d : Reg) (off : BitVec 20) (p : BitVec 6) (ty : BitVec 4) : Statement (.bufget h d off p ty) :=
  of_encoding (u := (wordOf 8 9 h (bodyMe d 0 0 off 0 p 0 ty))) rfl rfl (by simp [candidate, candMe, coreForm])
theorem ldsp (h : Hdr) (d a b : Reg) (off : BitVec 20) (ty : BitVec 4) : Statement (.ldsp h d a b off ty) :=
  of_encoding (u := (wordOf 8 10 h (bodyMe d a b off 0 0 0 ty))) rfl rfl (by simp [candidate, candMe, coreForm])
theorem stsp (h : Hdr) (d a b : Reg) (off : BitVec 20) (ty : BitVec 4) : Statement (.stsp h d a b off ty) :=
  of_encoding (u := (wordOf 8 11 h (bodyMe d a b off 0 0 0 ty))) rfl rfl (by simp [candidate, candMe, coreForm])
theorem pref (h : Hdr) (d a b : Reg) (off : BitVec 20) : Statement (.pref h d a b off) :=
  of_encoding (u := (wordOf 8 12 h (bodyMe d a b off 0 0 0 15))) rfl rfl (by simp [candidate, candMe, coreForm])
theorem shadow (h : Hdr) (d a b : Reg) (off : BitVec 20) (p : BitVec 6) : Statement (.shadow h d a b off p) :=
  of_encoding (u := (wordOf 8 13 h (bodyMe d a b off 0 p 0 15))) rfl rfl (by simp [candidate, candMe, coreForm])
theorem unshadow (h : Hdr) (a : Reg) (p : BitVec 6) : Statement (.unshadow h a p) :=
  of_encoding (u := (wordOf 8 14 h (bodyMe 0 a 0 0 0 p 0 15))) rfl rfl (by simp [candidate, candMe, coreForm])
theorem clean (h : Hdr) (a b : Reg) (off : BitVec 20) : Statement (.clean h a b off) :=
  of_encoding (u := (wordOf 8 15 h (bodyMe 0 a b off 0 0 0 15))) rfl rfl (by simp [candidate, candMe, coreForm])
theorem inval (h : Hdr) (a b : Reg) (off : BitVec 20) : Statement (.inval h a b off) :=
  of_encoding (u := (wordOf 8 16 h (bodyMe 0 a b off 0 0 0 15))) rfl rfl (by simp [candidate, candMe, coreForm])
theorem send (h : Hdr) (a : Reg) (chan : BitVec 6) : Statement (.send h a chan) :=
  of_encoding (u := (wordOf 9 0 h (bodyCh 0 a chan))) rfl rfl (by simp [candidate, candCh, coreForm])
theorem recv (h : Hdr) (d : Reg) (chan : BitVec 6) : Statement (.recv h d chan) :=
  of_encoding (u := (wordOf 9 1 h (bodyCh d 0 chan))) rfl rfl (by simp [candidate, candCh, coreForm])
theorem vsend (h : Hdr) (a : Reg) (chan : BitVec 6) : Statement (.vsend h a chan) :=
  of_encoding (u := (wordOf 9 2 h (bodyCh 0 a chan))) rfl rfl (by simp [candidate, candCh, coreForm])
theorem vrecv (h : Hdr) (d : Reg) (chan : BitVec 6) : Statement (.vrecv h d chan) :=
  of_encoding (u := (wordOf 9 3 h (bodyCh d 0 chan))) rfl rfl (by simp [candidate, candCh, coreForm])
theorem csend (h : Hdr) (a : Reg) (chan : BitVec 6) : Statement (.csend h a chan) :=
  of_encoding (u := (wordOf 9 4 h (bodyCh 0 a chan))) rfl rfl (by simp [candidate, candCh, coreForm])
theorem crecv (h : Hdr) (d : Reg) (chan : BitVec 6) : Statement (.crecv h d chan) :=
  of_encoding (u := (wordOf 9 5 h (bodyCh d 0 chan))) rfl rfl (by simp [candidate, candCh, coreForm])
theorem sbind (h : Hdr) (a b : Reg) (p : BitVec 6) (strm : BitVec 8) : Statement (.sbind h a b p strm) :=
  of_encoding (u := (wordOf 10 0 h (bodySq 0 a b 0 p strm))) rfl rfl (by simp [candidate, candSq, coreForm])
theorem sq (h : Hdr) (a : Reg) (p : BitVec 6) (strm : BitVec 8) : Statement (.sq h a p strm) :=
  of_encoding (u := (wordOf 10 1 h (bodySq 0 a 0 0 p strm))) rfl rfl (by simp [candidate, candSq, coreForm])
theorem scopy (h : Hdr) (d a b c : Reg) (p : BitVec 6) (strm : BitVec 8) : Statement (.scopy h d a b c p strm) :=
  of_encoding (u := (wordOf 10 2 h (bodySq d a b c p strm))) rfl rfl (by simp [candidate, candSq, coreForm])
theorem scancel (h : Hdr) (d : Reg) (p : BitVec 6) (strm : BitVec 8) : Statement (.scancel h d p strm) :=
  of_encoding (u := (wordOf 10 3 h (bodySq d 0 0 0 p strm))) rfl rfl (by simp [candidate, candSq, coreForm])
theorem ssub (h : Hdr) (d a : Reg) (p : BitVec 6) (strm : BitVec 8) : Statement (.ssub h d a p strm) :=
  of_encoding (u := (wordOf 10 4 h (bodySq d a 0 0 p strm))) rfl rfl (by simp [candidate, candSq, coreForm])
theorem sdist (h : Hdr) (a : Reg) (strm : BitVec 8) : Statement (.sdist h a strm) :=
  of_encoding (u := (wordOf 10 5 h (bodySq 0 a 0 0 0 strm))) rfl rfl (by simp [candidate, candSq, coreForm])
theorem sstat (h : Hdr) (d a : Reg) (p : BitVec 6) (strm : BitVec 8) : Statement (.sstat h d a p strm) :=
  of_encoding (u := (wordOf 10 6 h (bodySq d a 0 0 p strm))) rfl rfl (by simp [candidate, candSq, coreForm])
theorem opset (h : Hdr) (a : Reg) (unit : BitVec 10) (param : BitVec 6) : Statement (.opset h a unit param) :=
  of_encoding (u := (wordOf 11 0 h (bodyTk 0 a 0 0 unit param))) rfl rfl (by simp [candidate, candTk, coreForm])
theorem opget (h : Hdr) (d : Reg) (unit : BitVec 10) (param : BitVec 6) : Statement (.opget h d unit param) :=
  of_encoding (u := (wordOf 11 1 h (bodyTk d 0 0 0 unit param))) rfl rfl (by simp [candidate, candTk, coreForm])
theorem route (h : Hdr) (a : Reg) (unit : BitVec 10) (param : BitVec 6) : Statement (.route h a unit param) :=
  of_encoding (u := (wordOf 11 2 h (bodyTk 0 a 0 0 unit param))) rfl rfl (by simp [candidate, candTk, coreForm])
theorem tinj (h : Hdr) (a b : Reg) (unit : BitVec 10) (param : BitVec 6) : Statement (.tinj h a b unit param) :=
  of_encoding (u := (wordOf 11 3 h (bodyTk 0 a b 0 unit param))) rfl rfl (by simp [candidate, candTk, coreForm])
theorem tdrain (h : Hdr) (d : Reg) (unit : BitVec 10) : Statement (.tdrain h d unit) :=
  of_encoding (u := (wordOf 11 4 h (bodyTk d 0 0 0 unit 0))) rfl rfl (by simp [candidate, candTk, coreForm])
theorem tconv (h : Hdr) (d a : Reg) (unit : BitVec 10) : Statement (.tconv h d a unit) :=
  of_encoding (u := (wordOf 11 5 h (bodyTk d a 0 0 unit 0))) rfl rfl (by simp [candidate, candTk, coreForm])
theorem tappend (h : Hdr) (d a b : Reg) (unit : BitVec 10) : Statement (.tappend h d a b unit) :=
  of_encoding (u := (wordOf 11 6 h (bodyTk d a b 0 unit 0))) rfl rfl (by simp [candidate, candTk, coreForm])
theorem tsplit (h : Hdr) (d a b : Reg) (unit : BitVec 10) : Statement (.tsplit h d a b unit) :=
  of_encoding (u := (wordOf 11 7 h (bodyTk d a b 0 unit 0))) rfl rfl (by simp [candidate, candTk, coreForm])
theorem tmerge (h : Hdr) (d a b : Reg) (unit : BitVec 10) : Statement (.tmerge h d a b unit) :=
  of_encoding (u := (wordOf 11 8 h (bodyTk d a b 0 unit 0))) rfl rfl (by simp [candidate, candTk, coreForm])
theorem tfork (h : Hdr) (d a : Reg) (unit : BitVec 10) : Statement (.tfork h d a unit) :=
  of_encoding (u := (wordOf 11 9 h (bodyTk d a 0 0 unit 0))) rfl rfl (by simp [candidate, candTk, coreForm])
theorem tevict (h : Hdr) (d a b : Reg) (unit : BitVec 10) : Statement (.tevict h d a b unit) :=
  of_encoding (u := (wordOf 11 10 h (bodyTk d a b 0 unit 0))) rfl rfl (by simp [candidate, candTk, coreForm])
theorem tevictRelease (h : Hdr) (d a b : Reg) (unit : BitVec 10) : Statement (.tevictRelease h d a b unit) :=
  of_encoding (u := (wordOf 11 10 h (bodyTk d a b 0 unit 1))) rfl rfl (by simp [candidate, candTk, coreForm])
theorem tquery (h : Hdr) (d a b c : Reg) (unit : BitVec 10) : Statement (.tquery h d a b c unit) :=
  of_encoding (u := (wordOf 11 11 h (bodyTk d a b c unit 0))) rfl rfl (by simp [candidate, candTk, coreForm])
theorem tnode (h : Hdr) (d a b c : Reg) (unit : BitVec 10) (param : BitVec 6) : Statement (.tnode h d a b c unit param) :=
  of_encoding (u := (wordOf 11 12 h (bodyTk d a b c unit param))) rfl rfl (by simp [candidate, candTk, coreForm])
theorem pklook (h : Hdr) (d a b c : Reg) (unit : BitVec 10) : Statement (.pklook h d a b c unit) :=
  of_encoding (u := (wordOf 11 13 h (bodyTk d a b c unit 0))) rfl rfl (by simp [candidate, candTk, coreForm])
theorem smpdrawSample (h : Hdr) (d a b : Reg) (unit : BitVec 10) : Statement (.smpdrawSample h d a b unit) :=
  of_encoding (u := (wordOf 11 14 h (bodyTk d a b 0 unit 0))) rfl rfl (by simp [candidate, candTk, coreForm])
theorem smpdrawVerify (h : Hdr) (d a b c : Reg) (unit : BitVec 10) : Statement (.smpdrawVerify h d a b c unit) :=
  of_encoding (u := (wordOf 11 14 h (bodyTk d a b c unit 1))) rfl rfl (by simp [candidate, candTk, coreForm])
theorem acpt (h : Hdr) (d a b c : Reg) (unit : BitVec 10) : Statement (.acpt h d a b c unit) :=
  of_encoding (u := (wordOf 11 15 h (bodyTk d a b c unit 0))) rfl rfl (by simp [candidate, candTk, coreForm])
theorem gmstep (h : Hdr) (d a : Reg) (unit : BitVec 10) : Statement (.gmstep h d a unit) :=
  of_encoding (u := (wordOf 11 16 h (bodyTk d a 0 0 unit 0))) rfl rfl (by simp [candidate, candTk, coreForm])
theorem fence (h : Hdr) (scope : BitVec 3) : Statement (.fence h scope) :=
  of_encoding (u := (wordOf 12 0 h (bodySy 0 0 0 0 scope 0 0 0))) rfl rfl (by simp [candidate, candSy, coreForm])
theorem frame (h : Hdr) : Statement (.frame h) :=
  of_encoding (u := (wordOf 12 1 h (bodySy 0 0 0 0 0 0 0 0))) rfl rfl (by simp [candidate, candSy, coreForm])
theorem rmws (h : Hdr) (d a b c : Reg) (aop : BitVec 5) (ty : BitVec 4) (slot : BitVec 8) : Statement (.rmws h d a b c aop ty slot) :=
  of_encoding (u := (wordOf 12 2 h (bodySy d a b c 0 aop ty slot))) rfl rfl (by simp [candidate, candSy, coreForm])
theorem redseq (h : Hdr) (a b c : Reg) (aop : BitVec 5) (ty : BitVec 4) : Statement (.redseq h a b c aop ty) :=
  of_encoding (u := (wordOf 12 3 h (bodySy 0 a b c 0 aop ty 0))) rfl rfl (by simp [candidate, candSy, coreForm])
theorem amo (h : Hdr) (d a b c : Reg) (aop : BitVec 5) (ty : BitVec 4) : Statement (.amo h d a b c aop ty) :=
  of_encoding (u := (wordOf 12 4 h (bodySy d a b c 0 aop ty 0))) rfl rfl (by simp [candidate, candSy, coreForm])
theorem bara (h : Hdr) (a b : Reg) : Statement (.bara h a b) :=
  of_encoding (u := (wordOf 12 5 h (bodySy 0 a b 0 0 0 0 0))) rfl rfl (by simp [candidate, candSy, coreForm])
theorem barw (h : Hdr) (a : Reg) : Statement (.barw h a) :=
  of_encoding (u := (wordOf 12 6 h (bodySy 0 a 0 0 0 0 0 0))) rfl rfl (by simp [candidate, candSy, coreForm])
theorem marm (h : Hdr) (a : Reg) : Statement (.marm h a) :=
  of_encoding (u := (wordOf 12 7 h (bodySy 0 a 0 0 0 0 0 0))) rfl rfl (by simp [candidate, candSy, coreForm])
theorem mwait (h : Hdr) (d a : Reg) : Statement (.mwait h d a) :=
  of_encoding (u := (wordOf 12 8 h (bodySy d a 0 0 0 0 0 0))) rfl rfl (by simp [candidate, candSy, coreForm])
theorem xbegin (h : Hdr) : Statement (.xbegin h) :=
  of_encoding (u := (wordOf 12 9 h (bodySy 0 0 0 0 0 0 0 0))) rfl rfl (by simp [candidate, candSy, coreForm])
theorem xend (h : Hdr) (d : Reg) : Statement (.xend h d) :=
  of_encoding (u := (wordOf 12 10 h (bodySy d 0 0 0 0 0 0 0))) rfl rfl (by simp [candidate, candSy, coreForm])
theorem xabort (h : Hdr) (a : Reg) : Statement (.xabort h a) :=
  of_encoding (u := (wordOf 12 11 h (bodySy 0 a 0 0 0 0 0 0))) rfl rfl (by simp [candidate, candSy, coreForm])
theorem br (h : Hdr) (off : BitVec 32) : Statement (.br h off) :=
  of_encoding (u := (wordOf 13 0 h (bodyBr 0 0 0 0 0 off))) rfl rfl (by simp [candidate, candBr, coreForm])
theorem bc (h : Hdr) (a b : Reg) (cc : BitVec 3) (u : BitVec 1) (off : BitVec 32) : Statement (.bc h a b cc u off) :=
  of_encoding (u := (wordOf 13 1 h (bodyBr 0 a b cc u off))) rfl rfl (by simp [candidate, candBr, coreForm])
theorem jal (h : Hdr) (d : Reg) (off : BitVec 32) : Statement (.jal h d off) :=
  of_encoding (u := (wordOf 13 2 h (bodyBr d 0 0 0 0 off))) rfl rfl (by simp [candidate, candBr, coreForm])
theorem jalr (h : Hdr) (d a : Reg) (off : BitVec 32) : Statement (.jalr h d a off) :=
  of_encoding (u := (wordOf 13 3 h (bodyBr d a 0 0 0 off))) rfl rfl (by simp [candidate, candBr, coreForm])
theorem istartFreshStart (h : Hdr) (sr : BitVec 12) (a : Reg) : Statement (.istartFreshStart h sr a) :=
  of_encoding (u := (wordOf 0 5 h (bodySys 0 a 0 sr 0))) rfl rfl (by simp [candidate, candSys, coreForm])
theorem istartResume (h : Hdr) (sr : BitVec 12) (a : Reg) : Statement (.istartResume h sr a) :=
  of_encoding (u := (wordOf 0 5 h (bodySys 0 a 0 sr 0))) rfl rfl (by simp [candidate, candSys, coreForm])
theorem istartCancel (h : Hdr) (sr : BitVec 12) (a : Reg) : Statement (.istartCancel h sr a) :=
  of_encoding (u := (wordOf 0 5 h (bodySys 0 a 0 sr 0))) rfl rfl (by simp [candidate, candSys, coreForm])
theorem eflagsClear (h : Hdr) (sr : BitVec 12) (a : Reg) : Statement (.eflagsClear h sr a) :=
  of_encoding (u := (wordOf 0 5 h (bodySys 0 a 0 sr 0))) rfl rfl (by simp [candidate, candSys, coreForm])
theorem ufinfoRead (h : Hdr) (d : Reg) (sr : BitVec 12) : Statement (.ufinfoRead h d sr) :=
  of_encoding (u := (wordOf 0 4 h (bodySys d 0 0 sr 0))) rfl rfl (by simp [candidate, candSys, coreForm])
theorem ucfgRead (h : Hdr) (d : Reg) (sr : BitVec 12) : Statement (.ucfgRead h d sr) :=
  of_encoding (u := (wordOf 0 4 h (bodySys d 0 0 sr 0))) rfl rfl (by simp [candidate, candSys, coreForm])
theorem lqstatClearDrops (h : Hdr) (sr : BitVec 12) (a : Reg) : Statement (.lqstatClearDrops h sr a) :=
  of_encoding (u := (wordOf 0 5 h (bodySys 0 a 0 sr 0))) rfl rfl (by simp [candidate, candSys, coreForm])
theorem shctlRun (h : Hdr) (sr : BitVec 12) (a : Reg) : Statement (.shctlRun h sr a) :=
  of_encoding (u := (wordOf 0 5 h (bodySys 0 a 0 sr 0))) rfl rfl (by simp [candidate, candSys, coreForm])
theorem shctlFreeze (h : Hdr) (sr : BitVec 12) (a : Reg) : Statement (.shctlFreeze h sr a) :=
  of_encoding (u := (wordOf 0 5 h (bodySys 0 a 0 sr 0))) rfl rfl (by simp [candidate, candSys, coreForm])
theorem shctlReset (h : Hdr) (sr : BitVec 12) (a : Reg) : Statement (.shctlReset h sr a) :=
  of_encoding (u := (wordOf 0 5 h (bodySys 0 a 0 sr 0))) rfl rfl (by simp [candidate, candSys, coreForm])
theorem windowDataArrival (g : Nat) (e : Nat) (w : Nat) : Statement (.windowDataArrival g e w) := of_none rfl
theorem windowClose (g : Nat) (e : Nat) (w : Nat) : Statement (.windowClose g e w) := of_none rfl
theorem freezeLimit (g : Nat) : Statement (.freezeLimit g) := of_none rfl
theorem invocationEnd (g : Nat) : Statement (.invocationEnd g) := of_none rfl
theorem cueRelease (gr : Nat) : Statement (.cueRelease gr) := of_none rfl
theorem understudySwitch (gr : Nat) : Statement (.understudySwitch gr) := of_none rfl
theorem loadcfgInstall (g : Nat) : Statement (.loadcfgInstall g) := of_none rfl
theorem reconfTokenPass (gr : Nat) : Statement (.reconfTokenPass gr) := of_none rfl
theorem scoreFiring (u : Nat) : Statement (.scoreFiring u) := of_none rfl
theorem descendFiring (u : Nat) : Statement (.descendFiring u) := of_none rfl
theorem treeupdFiring (u : Nat) : Statement (.treeupdFiring u) := of_none rfl
theorem queryPin (u : Nat) : Statement (.queryPin u) := of_none rfl
theorem queryUnpin (u : Nat) : Statement (.queryUnpin u) := of_none rfl
theorem pkeyFiring (u : Nat) : Statement (.pkeyFiring u) := of_none rfl
theorem cascellHeader (u : Nat) : Statement (.cascellHeader u) := of_none rfl
theorem cascellCollect (u : Nat) : Statement (.cascellCollect u) := of_none rfl
theorem cascellDrain (u : Nat) : Statement (.cascellDrain u) := of_none rfl
theorem cumselSampleFiring (u : Nat) : Statement (.cumselSampleFiring u) := of_none rfl
theorem cumselVerifyFiring (u : Nat) : Statement (.cumselVerifyFiring u) := of_none rfl
theorem acceptFiring (u : Nat) : Statement (.acceptFiring u) := of_none rfl
theorem grammarStepFiring (u : Nat) : Statement (.grammarStepFiring u) := of_none rfl
theorem grammarMaskFiring (u : Nat) : Statement (.grammarMaskFiring u) := of_none rfl
theorem gatherFiring (u : Nat) : Statement (.gatherFiring u) := of_none rfl
theorem gatherRowArrival (u : Nat) (k : Nat) : Statement (.gatherRowArrival u k) := of_none rfl
theorem reduceFiring (u : Nat) : Statement (.reduceFiring u) := of_none rfl
theorem quantFiring (u : Nat) : Statement (.quantFiring u) := of_none rfl
theorem switchSteer (u : Nat) : Statement (.switchSteer u) := of_none rfl
theorem switchMerge (u : Nat) : Statement (.switchMerge u) := of_none rfl
theorem switchCopy (u : Nat) : Statement (.switchCopy u) := of_none rfl
theorem unitTokenEmit (u : Nat) : Statement (.unitTokenEmit u) := of_none rfl
theorem converterTokenIn (k : Nat) : Statement (.converterTokenIn k) := of_none rfl
theorem remoteBufputArrival (g : Nat) : Statement (.remoteBufputArrival g) := of_none rfl
theorem scalarChannelArrival (gr : Nat) (ch : Nat) : Statement (.scalarChannelArrival gr ch) := of_none rfl
theorem vectorChannelArrival (gr : Nat) (ch : Nat) : Statement (.vectorChannelArrival gr ch) := of_none rfl
theorem distributorSendBeat (st : Nat) (sub : Nat) : Statement (.distributorSendBeat st sub) := of_none rfl
theorem streamProducerStart (g : Nat) (p : Nat) : Statement (.streamProducerStart g p) := of_none rfl
theorem streamCommandFinish (g : Nat) (p : Nat) : Statement (.streamCommandFinish g p) := of_none rfl
theorem redseqPlaceFree (k : Nat) : Statement (.redseqPlaceFree k) := of_none rfl
theorem mwaitReturn (c : Nat) : Statement (.mwaitReturn c) := of_none rfl
theorem barwReturn (c : Nat) : Statement (.barwReturn c) := of_none rfl
theorem asyncEventTake (c : Nat) : Statement (.asyncEventTake c) := of_none rfl
theorem graphStart (q : Nat) : Statement (.graphStart q) := of_none rfl
theorem graphEnd (gr : Nat) : Statement (.graphEnd gr) := of_none rfl
theorem wdogPreempt (gr : Nat) : Statement (.wdogPreempt gr) := of_none rfl
theorem wdogKill (gr : Nat) : Statement (.wdogKill gr) := of_none rfl
theorem wdogFence (gr : Nat) : Statement (.wdogFence gr) := of_none rfl
theorem saveComplete : Statement (.saveComplete) := of_none rfl
theorem softError : Statement (.softError) := of_none rfl
theorem fatalDumpDone : Statement (.fatalDumpDone) := of_none rfl
theorem powerAverageHigh (n : Nat) : Statement (.powerAverageHigh n) := of_none rfl
theorem powerFatal (n : Nat) : Statement (.powerFatal n) := of_none rfl
theorem temperatureFatal (n : Nat) : Statement (.temperatureFatal n) := of_none rfl
theorem powerOnReset : Statement (.powerOnReset) := of_none rfl
theorem bringUpComplete : Statement (.bringUpComplete) := of_none rfl
theorem attestationRequest (nonce : BitVec 256) : Statement (.attestationRequest nonce) := of_none rfl
theorem attestationReport : Statement (.attestationReport) := of_none rfl
theorem hostWrite (link : Nat) (addr : Nat) (data : List (BitVec 8)) : Statement (.hostWrite link addr data) := of_none rfl
theorem hostRead (link : Nat) (addr : Nat) (len : Nat) : Statement (.hostRead link addr len) := of_none rfl
theorem peerWrite (p : Nat) (seq : Nat) (addr : Nat) (data : List (BitVec 8)) : Statement (.peerWrite p seq addr data) := of_none rfl
theorem peerRead (p : Nat) (addr : Nat) (len : Nat) : Statement (.peerRead p addr len) := of_none rfl
theorem brunexPacketArrival (link : Nat) : Statement (.brunexPacketArrival link) := of_none rfl
theorem linkRetrain (link : Nat) : Statement (.linkRetrain link) := of_none rfl
theorem ethernetLinkEvent (p : Nat) : Statement (.ethernetLinkEvent p) := of_none rfl
theorem ptpEventTimestamp (p : Nat) : Statement (.ptpEventTimestamp p) := of_none rfl
theorem powerAverageNormal (n : Nat) : Statement (.powerAverageNormal n) := of_none rfl
theorem hostLaunchWrite (q : Nat) (len : Nat) (data : BitVec 512) : Statement (.hostLaunchWrite q len data) := of_none rfl
theorem silenceEviction (slot : Nat) : Statement (.silenceEviction slot) := of_none rfl
theorem pageTableWalk (root : BitVec 64) (va : BitVec 64) : Statement (.pageTableWalk root va) := of_none rfl
theorem codecBlockOperation (addr : Nat) (codec : Nat) (key : Nat) (party : Nat) (data : List (BitVec 8)) : Statement (.codecBlockOperation addr codec key party data) := of_none rfl
theorem redseqArrival (k : Nat) : Statement (.redseqArrival k) := of_none rfl
theorem prefComplete (k : Nat) : Statement (.prefComplete k) := of_none rfl

end Sys2Proof.Laws.EncodeDecode
end

