-- ==== Sys2Proof/Laws/Quiet.lean ====
section
/-! SUPPORT. What a read of memory and a translation leave alone: the dies but for their translation caches, the contexts and
everything outside memory and the links. -/

namespace Sys2Proof.Machine

/-- Two states agree on everything but memory, its copies, the L2 and the links. -/
structure SameDies (s t : State) : Prop where
  dies : t.dies = s.dies
  cur : t.cur = s.cur
  who : t.who = s.who
  io : t.io = s.io
  free : t.free = s.free
  gid : t.gid = s.gid

theorem SameDies.rfl {s : State} : SameDies s s := ⟨by rfl, by rfl, by rfl, by rfl, by rfl, by rfl⟩
theorem SameDies.trans {s t u : State} (h : SameDies s t) (k : SameDies t u) : SameDies s u :=
  ⟨k.dies.trans h.dies, k.cur.trans h.cur, k.who.trans h.who, k.io.trans h.io, k.free.trans h.free,
    k.gid.trans h.gid⟩

theorem sameDies_unmapCopy (s : State) (ln : Nat) : SameDies s (unmapCopy s ln) := by
  unfold unmapCopy
  split <;> exact ⟨by rfl, by rfl, by rfl, by rfl, by rfl, by rfl⟩
theorem sameDies_slotWrite (s : State) (ln : Nat) (a : LineAttr) (l : Line) (m : Bool) : SameDies s (slotWrite s ln a l m) := by
  unfold slotWrite
  dsimp only
  have h := sameDies_unmapCopy s ln
  split <;> exact h.trans ⟨by rfl, by rfl, by rfl, by rfl, by rfl, by rfl⟩
theorem sameDies_l2put (s : State) (ln : Nat) (e : Option L2Line) : SameDies s (l2put s ln e) :=
  ⟨by rfl, by rfl, by rfl, by rfl, by rfl, by rfl⟩
theorem sameDies_writeBack (s : State) (ln : Nat) (e : L2Line) : SameDies s (writeBack s ln e) := by
  unfold writeBack
  split
  · exact sameDies_slotWrite ..
  · exact .rfl
theorem sameDies_l2drop (s : State) (ln : Nat) : SameDies s (l2drop s ln) := by
  unfold l2drop
  split
  · exact .rfl
  · exact (sameDies_writeBack ..).trans (sameDies_l2put ..)
theorem sameDies_l2room (s : State) (ln : Nat) : SameDies s (l2room s ln) := by
  unfold l2room
  dsimp only
  split
  · exact .rfl
  · split
    · exact sameDies_l2drop ..
    · exact .rfl
theorem sameDies_l2keepRoom (s : State) (ln : Nat) : SameDies s (l2keepRoom s ln) := by
  unfold l2keepRoom
  dsimp only
  split
  · exact .rfl
  · split
    · exact sameDies_l2put ..
    · exact .rfl
theorem sameDies_l2touch (s : State) (ln : Nat) (e : L2Line) (hint : Nat) : SameDies s (l2touch s ln e hint) := by
  unfold l2touch
  dsimp only
  split
  · exact (sameDies_l2keepRoom ..).trans ⟨by rfl, by rfl, by rfl, by rfl, by rfl, by rfl⟩
  · exact ⟨by rfl, by rfl, by rfl, by rfl, by rfl, by rfl⟩
theorem sameDies_l2agree (s : State) (ln : Nat) (a : LineAttr) : SameDies s (l2agree s ln a) := by
  unfold l2agree
  split
  · split
    · exact .rfl
    · exact sameDies_l2drop ..
  · exact .rfl

/-- A read of a line touches memory and the L2 alone. -/
theorem sameDies_loadLine (s : State) (ln : Nat) (a : LineAttr) (hint : Nat) : SameDies s (loadLine s ln a hint).2 := by
  have h := sameDies_l2agree s ln a
  unfold loadLine
  dsimp only
  split
  · dsimp only
    split
    · exact h.trans (sameDies_l2touch ..)
    · exact h
  · dsimp only
    split
    · exact h.trans ((sameDies_l2room ..).trans (sameDies_l2touch ..))
    · exact h

/-- A read's packets are on the links. -/
theorem sameDies_sendPacket (s : State) (src dest : Nat) (c : VirtualChannel) (l : List Byte) :
    SameDies s (sendPacket s src dest c l) := by
  unfold sendPacket
  split
  · exact .rfl
  · exact ⟨by rfl, by rfl, by rfl, by rfl, by rfl, by rfl⟩
theorem sameDies_sendRead (s : State) (src dest : Nat) (l : List Byte) : SameDies s (sendRead s src dest l) :=
  (sameDies_sendPacket ..).trans (sameDies_sendPacket ..)

/-- A walk reads lines. -/
theorem sameDies_walkFrom (n : Nat) (s : State) (va base : Nat) (met : List (Nat × X)) :
    SameDies s (walkFrom s va base n met).1 := by
  induction n generalizing s base met with
  | zero => exact .rfl
  | succ n ih =>
    unfold walkFrom
    dsimp only
    split
    · exact .rfl
    · have h := sameDies_loadLine s ((base + 8 * ((va / 2 ^ leafShift n) % 512)) / 64) ⟨0, 0, false⟩ 0
      have h := fun (c d : Nat) (v : List Byte) => h.trans (sameDies_sendRead _ c d v)
      split
      · exact h _ _ _
      · split
        · exact h _ _ _
        · split
          · exact h _ _ _
          · exact (h _ _ _).trans (ih ..)

/-- What a translation leaves alone: every core, region, unit, graph, stream and queue of every die, and the context. -/
structure SameUnits (s t : State) : Prop where
  cur : t.cur = s.cur
  who : t.who = s.who
  io : t.io = s.io
  free : t.free = s.free
  gid : t.gid = s.gid
  other : ∀ n : Fin 24, n ≠ s.cur → t.dies[n] = s.dies[n]
  here : die t = { die s with tlb := (die t).tlb, utlb := (die t).utlb, walk := (die t).walk }

theorem SameUnits.rfl {s : State} : SameUnits s s := ⟨by rfl, by rfl, by rfl, by rfl, by rfl, fun _ _ => by rfl, by rfl⟩
theorem SameDies.units {s t : State} (h : SameDies s t) : SameUnits s t :=
  ⟨h.cur, h.who, h.io, h.free, h.gid, fun _ _ => by rw [h.dies], by simp [die, h.dies, h.cur]⟩
theorem SameUnits.trans {s t u : State} (h : SameUnits s t) (k : SameUnits t u) : SameUnits s u := by
  refine ⟨k.cur.trans h.cur, k.who.trans h.who, k.io.trans h.io, k.free.trans h.free, k.gid.trans h.gid,
    fun n hn => (k.other n (by rw [h.cur]; exact hn)).trans (h.other n hn), ?_⟩
  have h1 := h.here
  have h2 := k.here
  rw [h1] at h2
  exact h2
theorem sameUnits_modDie {s : State} {f : Die → Die} (hf : ∀ d, f d = { d with tlb := (f d).tlb, utlb := (f d).utlb, walk := (f d).walk }) :
    SameUnits s (modDie s f) := by
  refine ⟨by rfl, by rfl, by rfl, by rfl, by rfl, fun n hn => ?_, ?_⟩
  · have : s.cur.val ≠ n.val := fun e => hn (Fin.ext e.symm)
    simp [modDie, this]
  · have e : die (modDie s f) = f (die s) := by simp [die, modDie]
    rw [e]
    exact hf _

/-- A leaf is found through the translation caches of the die. -/
theorem sameUnits_findLeaf (s : State) (m : Nat) (root : X) (ok : Tlb → Bool) (va : Nat) : SameUnits s (findLeaf s m root ok va).1 := by
  unfold findLeaf
  dsimp only
  split
  · split <;> exact .rfl
  · split
    · split
      · dsimp only
        apply sameUnits_modDie
        intro d
        unfold addMicro
        split <;> rfl
      · exact .rfl
    · have h := fun b l => (sameDies_walkFrom l s va b []).units
      split
      · next heq =>
        have h := h _ _ |> fun h => (congrArg (fun r => SameUnits s r.1) heq).mp h
        exact h
      · next heq =>
        have h := h _ _ |> fun h => (congrArg (fun r => SameUnits s r.1) heq).mp h
        split
        · refine h.trans ?_
          dsimp only
          apply sameUnits_modDie
          intro d
          unfold addMicro
          split <;> rfl
        · exact h

/-- A TRANSLATION changes the translation caches of the die, and nothing else of it. -/
theorem sameUnits_translate (s : State) (c : Ctx) (acc : Acc) (va : Nat) : SameUnits s (translate s c acc va).1 := by
  unfold translate
  split
  · exact .rfl
  · have h := sameUnits_findLeaf s c.mtlb c.root (leafOk acc c.user va) va
    generalize findLeaf s c.mtlb c.root (leafOk acc c.user va) va = r at h
    obtain ⟨s', r⟩ := r
    cases r <;> exact h

variable {s t : State} (h : SameUnits s t)
include h

theorem SameUnits.core (c : Nat) : Machine.core t c = Machine.core s c := by
  unfold Machine.core
  rw [h.here]
theorem SameUnits.region (g : Nat) : Machine.region t g = Machine.region s g := by
  unfold Machine.region
  rw [h.here]
theorem SameUnits.graph? (g : Nat) : Machine.graph? t g = Machine.graph? s g := by
  unfold Machine.graph?
  rw [h.here]
theorem SameUnits.stream (n : Nat) : Machine.stream t n = Machine.stream s n := by
  unfold Machine.stream
  rw [h.here]
theorem SameUnits.opUnit (n : Nat) : Machine.opUnit t n = Machine.opUnit s n := by
  unfold Machine.opUnit
  rw [h.here]
theorem SameUnits.port (g p : Nat) : Machine.port t g p = Machine.port s g p := by
  unfold Machine.port
  rw [h.region]
theorem SameUnits.kindOf : Machine.kindOf t = Machine.kindOf s := by unfold Machine.kindOf; rw [h.who]
theorem SameUnits.myCore : Machine.myCore t = Machine.myCore s := by unfold Machine.myCore; rw [h.who]
theorem SameUnits.myRegion : Machine.myRegion t = Machine.myRegion s := by unfold Machine.myRegion; rw [h.who]
theorem SameUnits.xval (r : Reg) : Machine.xval t r = Machine.xval s r := by
  unfold Machine.xval xreg
  rw [h.core, h.myCore]
theorem SameUnits.ownerOf (g : Nat) : Machine.ownerOf t g = Machine.ownerOf s g := by
  unfold Machine.ownerOf
  rw [h.region, show Machine.graph? t = Machine.graph? s from funext h.graph?]
theorem SameUnits.myGraph : Machine.myGraph t = Machine.myGraph s := by
  unfold Machine.myGraph
  rw [h.who, h.myRegion, h.ownerOf]
theorem SameUnits.coreRoot (c : Nat) : Machine.coreRoot t c = Machine.coreRoot s c := by
  unfold Machine.coreRoot
  rw [h.core]
theorem SameUnits.myRoot : Machine.myRoot t = Machine.myRoot s := by
  unfold Machine.myRoot
  rw [h.coreRoot, h.myCore]
theorem SameUnits.coreCtx (c : Nat) : Machine.coreCtx t c = Machine.coreCtx s c := by
  unfold Machine.coreCtx
  rw [h.coreRoot, h.region]
theorem SameUnits.ctxGroup (c : Ctx) : Machine.ctxGroup t c = Machine.ctxGroup s c := by
  unfold Machine.ctxGroup
  rw [show Machine.graph? t = Machine.graph? s from funext h.graph?]

end Sys2Proof.Machine
end

