-- ==== Sys2Proof/Tests/Slice0.lean ====
section
/-! SUPPORT. Tests: decoding of the spec's worked encodings, each check of well-formedness, results worked by hand from the
entries of the spec, and states that meet the hypotheses of the statements. -/

set_option maxRecDepth 100000
set_option Elab.async false

namespace Sys2Proof.Machine.Tests

open Sys2Proof

/-! ### Decoding: the encodings that the spec writes out (spec/03, and the Encoding lines of the reference entries) -/


theorem test_decode_system : ([
    (0x048000E1800000000010, .tlbinvAddress ⟨0, 0, 0⟩ 7 3),
    (0x00C00000000000000000, .eret ⟨0, 0, 0⟩),
    (0x00400000000000000000, .halt ⟨0, 0, 0⟩),
    (0x02C028C3800000000080, .csave ⟨0, 0, 0⟩ 5 6 7 16),
    (0x020000C0000000000000, .loadcfg ⟨0, 0, 0⟩ 6),
    (0x01001800009000000000, .mfsr ⟨0, 0, 0⟩ 3 18),
    (0x01400000008800000000, .mtsr ⟨0, 0, 0⟩ 0 17),
    (0x03801880000000000000, .phcrd ⟨0, 0, 0⟩ 3 4),
    (0x02400000000000000000, .reconf ⟨0, 0, 0⟩),
    (0x04404800000000000000, .rtypop ⟨0, 0, 0⟩ 9),
    (0x040000A3000000000000, .rtywSupply ⟨0, 0, 0⟩ 0 5 6),
    (0x040000A0000000000008, .rtywReplay ⟨0, 0, 0⟩ 0 5 0),
    (0x02801882800000000000, .shrink ⟨0, 0, 0⟩ 3 4 5),
    (0x02801880000000000008, .shrinkQuery ⟨0, 0, 0⟩ 3 4 0),
    (0x03C01882800000000008, .sslotRefresh ⟨0, 0, 0⟩ 3 4 5),
    (0x01C028C3800000000000, .tlaunch ⟨0, 0, 0⟩ 5 6 7),
    (0x0541A8A0000000000000, .tqset ⟨0, 0, 0⟩ 53 5),
    (0x05801EC0000000000000, .tqtest ⟨0, 0, 0⟩ 3 54),
    (0x00800000000000000028, .trap ⟨0, 0, 0⟩ 5),
    (0x04C00000000000000000, .ifence ⟨0, 0, 0⟩),
    (0x018028C3800000000000, .launch ⟨0, 0, 0⟩ 5 6 7)] : List (Word × Instr)).all (fun p => decide (decode p.1 = .ok p.2)) = true := by decide

theorem test_decode_integer : ([
    (0x200038E00000FFFFFFFF, .addImm ⟨0, 0, 0⟩ 7 7 0xFFFFFFFF),
    (0x1480390001020E000000, .bfx ⟨0, 0, 0⟩ 7 8 1 4 7),
    (0x28002000000000000001, .movi ⟨0, 0, 0⟩ 4 1),
    (0x144018828C0000000000, .sel ⟨0, 0, 0⟩ 3 4 5 6),
    (0x14001882814000000000, .setc ⟨0, 0, 0⟩ 3 4 5 1 2),
    (0x22401040000000000020, .shlImm ⟨0, 0, 0⟩ 2 2 32),
    (0x22402FC0000000000006, .shlImm ⟨0, 0, 0⟩ 5 62 6),
    (0x10401882800000000000, .sub ⟨0, 0, 0⟩ 3 4 5),
    (0x10081882800000000000, .add ⟨1, 0, 0⟩ 3 4 5)] : List (Word × Instr)).all (fun p => decide (decode p.1 = .ok p.2)) = true := by decide

theorem test_decode_floating : ([
    (0x32401880000140000000, .fcvt ⟨0, 0, 0⟩ 3 4 0 0 5),
    (0x30C018828C0000000000, .ffma ⟨0, 0, 0⟩ 3 4 5 6 0 0),
    (0x32001882800010000000, .fsetc ⟨0, 0, 0⟩ 3 4 5 0 2)] : List (Word × Instr)).all (fun p => decide (decode p.1 = .ok p.2)) = true := by decide

theorem test_decode_vector : ([
    (0x40C11C10C40000000000, .vfma ⟨0, 0, 0⟩ 35 32 33 34 0 0 0),
    (0x43811C3101E000000000, .vand ⟨0, 0, 0⟩ 35 33 34),
    (0x40012C72018000000000, .vadd ⟨0, 0, 0⟩ 37 35 36 12 0 0)] : List (Word × Instr)).all (fun p => decide (decode p.1 = .ok p.2)) = true := by decide

theorem test_decode_matrix : ([
    (0x6080042180600A100000, .mma ⟨0, 0, 0⟩ 33 3 3 0 5 1),
    (0x60000000006000100000, .mmode ⟨0, 0, 0⟩ 3 1),
    (0x60CC0405006000000000, .mmasp ⟨1, 1, 0⟩ 32 10 3 0 0 0),
    (0x610C0460000000000000, .mmeta ⟨1, 1, 0⟩ 35),
    (0x6209301F000001E00000, .accrd ⟨1, 0, 0⟩ 38 62 0 15)] : List (Word × Instr)).all (fun p => decide (decode p.1 = .ok p.2)) = true := by decide

theorem test_decode_summation : ([
    (0x70C18C40000000000000, .difld ⟨0, 0, 0⟩ 49 34),
    (0x70000480000600000000, .prmld ⟨0, 0, 0⟩ 36 0 3),
    (0x714136524A0000000000, .sbpfin ⟨0, 0, 0⟩ 38 50 36 37 0),
    (0x70818460000000000000, .scans ⟨0, 0, 0⟩ 48 35),
    (0x70410C1F000000000000, .prmap ⟨0, 0, 0⟩ 33 32 62 0),
    (0x710D9618FC0000000000, .difmul ⟨1, 1, 0⟩ 50 48 49 62)] : List (Word × Instr)).all (fun p => decide (decode p.1 = .ok p.2)) = true := by decide

theorem test_decode_memory : ([
    (0x82411800000200021E00, .bufget ⟨0, 0, 0⟩ 35 64 2 15),
    (0x840000A0000000001E00, .inval ⟨0, 0, 0⟩ 5 0 0),
    (0x80005180000000001600, .ld ⟨0, 0, 0⟩ 10 12 0 0 0 0 11),
    (0x828028C0000200001600, .ldsp ⟨0, 0, 0⟩ 5 6 0 64 11),
    (0x81003880000041C00000, .ldw ⟨0, 0, 0⟩ 7 4 0 8 7 0 0 0),
    (0x830038A3000000001E00, .pref ⟨0, 0, 0⟩ 7 5 6 0),
    (0x834038A0000000021E00, .shadow ⟨0, 0, 0⟩ 7 5 0 0 2),
    (0x80405180000000001600, .st ⟨0, 0, 0⟩ 10 12 0 0 0 0 11),
    (0x83800000000000021E00, .unshadow ⟨0, 0, 0⟩ 0 2),
    (0x814D0082800003C01E00, .vldw ⟨1, 1, 0⟩ 32 4 5 0 15 0 0 15)] : List (Word × Instr)).all (fun p => decide (decode p.1 = .ok p.2)) = true := by decide

theorem test_decode_channel_and_stream : ([
    (0x91401819000000000000, .crecv ⟨0, 0, 0⟩ 3 50),
    (0x9040180A000000000000, .recv ⟨0, 0, 0⟩ 3 20),
    (0x9000006A000000000000, .send ⟨0, 0, 0⟩ 3 20),
    (0xA08059461A0800000000, .scopy ⟨0, 0, 0⟩ 11 10 12 13 1 0)] : List (Word × Instr)).all (fun p => decide (decode p.1 = .ok p.2)) = true := by decide

theorem test_decode_unit : ([
    (0xB3C038828D1000000000, .acpt ⟨0, 0, 0⟩ 7 4 5 6 544),
    (0xB0402800016002000000, .opget ⟨0, 0, 0⟩ 5 704 1),
    (0xB08000C0000002000000, .route ⟨0, 0, 0⟩ 6 0 1),
    (0xB34038828C7800000000, .pklook ⟨0, 0, 0⟩ 7 4 5 6 240),
    (0xB1002800016000000000, .tdrain ⟨0, 0, 0⟩ 5 704),
    (0xB0C000A3016000000000, .tinj ⟨0, 0, 0⟩ 5 6 704 0),
    (0xB1401880000580000000, .tconv ⟨0, 0, 0⟩ 3 4 11),
    (0xB2405080007000000000, .tfork ⟨0, 0, 0⟩ 10 4 224),
    (0xB2802082807000000000, .tevict ⟨0, 0, 0⟩ 4 4 5 224),
    (0xB2C038828C6000000000, .tquery ⟨0, 0, 0⟩ 7 4 5 6 192),
    (0xB000004000600A000000, .opset ⟨0, 0, 0⟩ 2 192 5)] : List (Word × Instr)).all (fun p => decide (decode p.1 = .ok p.2)) = true := by decide

theorem test_decode_synchronization : ([
    (0xC2801800000000000000, .xend ⟨0, 0, 0⟩ 3),
    (0xC10028C3800160000000, .amo ⟨0, 0, 0⟩ 5 6 7 0 0 11),
    (0xC1800200000000000000, .barw ⟨0, 0, 0⟩ 16),
    (0xC1C001A0000000000000, .marm ⟨0, 0, 0⟩ 13),
    (0xC2007060000000000000, .mwait ⟨0, 0, 0⟩ 14 3),
    (0xC0C000A30E0000000000, .redseq ⟨0, 0, 0⟩ 5 6 7 0 0),
    (0xC0801882800160000000, .rmws ⟨0, 0, 0⟩ 3 4 5 0 0 11 0),
    (0xC0000000004000000000, .fence ⟨0, 0, 0⟩ 1),
    (0xC0000000010000000000, .fence ⟨0, 0, 0⟩ 4),
    (0xC0400000000000000000, .frame ⟨0, 0, 0⟩)] : List (Word × Instr)).all (fun p => decide (decode p.1 = .ok p.2)) = true := by decide

theorem test_decode_control_flow : ([
    (0xD000000007FFFFFFF800, .br ⟨0, 0, 0⟩ 0xFFFFFFFF),
    (0xD0807800000000006000, .jal ⟨0, 0, 0⟩ 15 12),
    (0xD0C001E0000000000000, .jalr ⟨0, 0, 0⟩ 0 15 0),
    (0xD04000E427FFFFFFF000, .bc ⟨0, 0, 0⟩ 7 8 2 0 0xFFFFFFFE)] : List (Word × Instr)).all (fun p => decide (decode p.1 = .ok p.2)) = true := by decide

/-- Bits 79 to 70 of `add` with D = e31, A = e30, B = e29, written out bit by bit (R71, Table 3-1, Table 3-5). -/
theorem test_decode_bits : decode 0b0001_000000_00000_011111_011110_011101_00000000000000000000000000000000000000000000000 =
    .ok (.add ⟨0, 0, 0⟩ 31 30 29) := by decide

/-- The zero word is a nop (R73). -/
theorem test_decode_zero : decode 0 = .ok (.nop ⟨0, 0, 0⟩) := by decide

/-- A set bit outside the fields of `add` makes the word reserved (R72, R85). -/
theorem test_decode_reserved_bit : decode 0x10001882800000000001 = .error (.reserved (.add ⟨0, 0, 0⟩ 3 4 5) [3, 4, 5, 0]) := by decide

/-- An operation that no table assigns is refused (R72). -/
theorem test_decode_unassigned : decode 0xFFC00000000000000000 = .error .unassigned := by decide


/-! ### Well-formedness: each check refuses an ill-formed term -/

/-- Context, privilege, header, register field, tag, rounding mode, immediate, channel, port and pair checks (R84, R85). -/
theorem test_ill_formed_words : ([
    (.elem, .halt ⟨0, 0, 0⟩),                              -- a word of cores only
    (.stage, .frame ⟨0, 0, 0⟩),                            -- a word of elements only
    (.mgr, .reconf ⟨0, 0, 0⟩),                             -- a word of stagehands only
    (.stage, .rtypop ⟨0, 0, 0⟩ 1),                         -- privileged
    (.stage, .add ⟨1, 0, 0⟩ 1 2 3),                        -- a predicate in a core
    (.elem, .add ⟨0, 0, 0⟩ 32 2 3),                        -- a vector register as a scalar
    (.elem, .vadd ⟨0, 0, 0⟩ 1 33 34 0 0 0),                -- a scalar register as a vector
    (.elem, .shlImm ⟨0, 0, 0⟩ 1 2 32),                     -- a count of the full width
    (.mgr, .shlImm ⟨0, 0, 0⟩ 1 2 64),
    (.elem, .bfx ⟨0, 0, 0⟩ 1 2 0 31 1),                    -- a field past the register
    (.elem, .setc ⟨0, 0, 0⟩ 1 2 3 0 6),                    -- a condition that integers do not have
    (.elem, .fadd ⟨0, 0, 0⟩ 1 2 3 12 0),                   -- a tag that elements do not have
    (.elem, .fadd ⟨0, 0, 0⟩ 1 2 3 0 6),                    -- a rounding mode past 5
    (.elem, .vadd ⟨0, 0, 0⟩ 32 33 34 0 0 1),               -- SAT on a floating tag
    (.elem, .vshl ⟨0, 0, 0⟩ 32 33 34 0),                   -- a shift of floating lanes
    (.elem, .vred ⟨0, 0, 0⟩ 32 33 10 0 0 0),               -- an integer sum into FP32
    (.elem, .vscan ⟨0, 0, 0⟩ 32 33 0 0 1 0),               -- a scan into another format
    (.elem, .vunpk ⟨0, 0, 0⟩ 32 33 1 0 0 2),               -- a half past 1
    (.elem, .vqnt ⟨0, 0, 0⟩ 33 34 0 0 0 6 0),              -- an odd pair
    (.elem, .mmode ⟨0, 0, 0⟩ 0xB 1),                       -- a type that the array does not have
    (.elem, .mma ⟨0, 0, 0⟩ 33 1 3 5 0 0),                  -- stochastic rounding in the array
    (.elem, .mmasp ⟨0, 0, 0⟩ 33 1 0 0 0 0),                -- a sparse form of a dense type
    (.elem, .accld ⟨0, 0, 0⟩ 1 2 3 0),                     -- accumulators in FP8
    (.elem, .ld ⟨0, 0, 0⟩ 1 2 3 0 0 4 11),                 -- a reserved hint
    (.elem, .vldx ⟨0, 0, 0⟩ 33 2 34 0 0 0 6),              -- a block tag
    (.elem, .bufput ⟨0, 0, 0⟩ 33 2 0 0 6),                 -- an odd pair of beats
    (.mgr, .shadow ⟨0, 0, 0⟩ 1 2 3 0 8),                   -- a window past 7
    (.stage, .unshadow ⟨0, 0, 0⟩ 1 0),                     -- A in a stagehand
    (.stage, .send ⟨0, 0, 0⟩ 1 15),                        -- a vector channel for a scalar
    (.elem, .vsend ⟨0, 0, 0⟩ 33 16),
    (.elem, .csend ⟨0, 0, 0⟩ 1 47),
    (.stage, .sq ⟨0, 0, 0⟩ 1 0 32),                        -- a stream in a stagehand's port field
    (.mgr, .phcrd ⟨0, 0, 0⟩ 1 1),                          -- one register for both results
    (.mgr, .csave ⟨0, 0, 0⟩ 1 2 3 0),                      -- no units
    (.stage, .tqset ⟨0, 0, 0⟩ 52 1),                       -- tq0
    (.stage, .trap ⟨0, 0, 0⟩ 256)                          -- a trap number past 255
    ] : List (Kind × Instr)).all (fun p => !p.2.wf p.1) = true := by decide

/-- An event whose agent does not exist is ill-formed; one whose agent is the last is well-formed (R11 to R28). -/
theorem test_ill_formed_events :
    ([.windowClose 32 0 0, .windowClose 0 128 0, .windowDataArrival 32 0 0, .freezeLimit 32, .invocationEnd 32, .loadcfgInstall 32,
      .scoreFiring 768, .gatherRowArrival 768 0, .converterTokenIn 64, .remoteBufputArrival 32, .distributorSendBeat 256 0,
      .streamProducerStart 0 64, .streamCommandFinish 32 0, .mwaitReturn 33, .barwReturn 33, .asyncEventTake 33, .graphStart 64,
      .powerFatal 24, .temperatureFatal 24, .powerAverageHigh 24, .powerAverageNormal 24, .hostWrite 2 0 [], .hostRead 2 0 0,
      .peerWrite 48 0 0 [], .peerRead 48 0 0, .brunexPacketArrival 432, .linkRetrain 108, .ethernetLinkEvent 48, .ptpEventTimestamp 48,
      .hostLaunchWrite 64 64 0, .codecBlockOperation 0 1 0 34 [1]] : List Instr).all (fun i => !i.wf .mgr) = true ∧
    ([.windowClose 31 127 0, .freezeLimit 31, .scoreFiring 767, .converterTokenIn 63, .distributorSendBeat 255 0, .streamProducerStart 31 63,
      .mwaitReturn 32, .graphStart 63, .powerFatal 23, .hostWrite 1 0 [], .peerWrite 47 0 0 [], .brunexPacketArrival 431, .linkRetrain 107,
      .codecBlockOperation 0 1 0 33 [1]] : List Instr).all (fun i => i.wf .mgr) = true := by decide

/-! ### Results worked by hand from the entries -/

/-- An invocation of region 0 that is running, of one iteration. -/
def inv0 : Invocation :=
  { first := 0, count := 1, ext := 0x0001000100010001, c0 := some 0, vc := 0xFFFFFFFF, tq := 0xFF, seed := 0, shadow := [],
    marks := [], resume := [] }

/-- No predicate and no mark. -/
abbrev h0 : Hdr := ⟨0, 0, 0⟩

/-- Element (r, c) of region 0 executes, with its registers set by `f`. -/
def inElem (r c : Nat) (f : Element → Element) : State :=
  let v : Region := { Region.reset with state := 1, ii := 1, inv := some inv0, elems := vmod Region.reset.elems (16 * r + c) f }
  { modRegion State.reset 0 fun _ => v with who := .elem 0 (Fin.ofNat 8 r) (Fin.ofNat 16 c) }

/-- e and v registers of an element. -/
def holding (es : List (Nat × E32)) (vs : List (Nat × Line)) (e : Element) : Element :=
  { e with e := es.foldl (fun v p => vset v p.1 p.2) e.e, v := vs.foldl (fun v p => vset v p.1 p.2) e.v }

/-- What the word that an element executed last will do. -/
def effects (i : Instr) (s : State) : List Fx :=
  match exec i s with
  | .next t => (myElem t).pend.flatMap fun p => p.fx
  | _ => []

/-- The value and the flags that a word of element (0, 0) gives. -/
def scalarOf (i : Instr) (es : List (Nat × E32)) : List Fx := effects i (inElem 0 0 (holding es []))

/-- The manager executes, with its registers set. -/
def inMgr (xs : List (Nat × X)) : State :=
  modCore State.reset 32 fun k => { k with x := xs.foldl (fun v p => vset v p.1 p.2) k.x }

/-- Register `r` of the manager, its pc, and its flags after a word. -/
def mgrAfter (i : Instr) (s : State) (r : Nat) : X × Nat × Flags :=
  match exec i s with
  | .next t => (xreg t 32 r, (core t 32).pc.toNat, (core t 32).fflags)
  | _ => (0, 0, 0)

/-- Every lane of width `w` holds `x`. -/
def every (w x : Nat) : Line := ofLanes w (List.replicate (512 / w) x)

/-- The examples of R349 (e8 = 0x0000_0F80, e9 = 5). -/
theorem test_bfx_unsigned : scalarOf (.bfx h0 7 8 1 4 7) [(8, 0xF80)] = [.scalar 7 0xF8] := by decide +kernel
theorem test_bfx_signed : scalarOf (.bfx h0 7 8 0 4 7) [(8, 0xF80)] = [.scalar 7 0xFFFFFFF8] := by decide +kernel
theorem test_bfi : scalarOf (.bfi h0 7 8 9 4 3) [(8, 0xF80), (9, 5)] = [.scalar 7 0xF50] := by decide +kernel
/-- The examples of R361 and R404: −7 by 2, and the unsigned quotient of the same bits. -/
theorem test_div_signed : scalarOf (.div h0 3 4 5 0) [(4, 0xFFFFFFF9), (5, 2)] = [.scalar 3 0xFFFFFFFD] := by decide +kernel
theorem test_div_unsigned : scalarOf (.div h0 3 4 5 1) [(4, 0xFFFFFFF9), (5, 2)] = [.scalar 3 0x7FFFFFFC] := by decide +kernel
theorem test_rem_signed : scalarOf (.rem h0 3 4 5 0) [(4, 0xFFFFFFF9), (5, 2)] = [.scalar 3 0xFFFFFFFF] := by decide +kernel
theorem test_rem_by_zero : scalarOf (.rem h0 3 4 5 0) [(4, 0xFFFFFFF9)] = [.scalar 3 0xFFFFFFF9] := by decide +kernel
/-- The example of R384. -/
theorem test_lea : scalarOf (.lea h0 5 4 6 6) [(4, 0x400000), (6, 3)] = [.scalar 5 0x4000C0] := by decide +kernel
/-- The examples of R394. -/
theorem test_min_signed : scalarOf (.min h0 3 4 5 0) [(4, 0xFFFFFFFF), (5, 1)] = [.scalar 3 0xFFFFFFFF] := by decide +kernel
theorem test_min_unsigned : scalarOf (.min h0 3 4 5 1) [(4, 0xFFFFFFFF), (5, 1)] = [.scalar 3 1] := by decide +kernel
/-- The examples of R398. -/
theorem test_mulh_signed : scalarOf (.mulh h0 3 4 5 0) [(4, 0xFFFFFFFF), (5, 2)] = [.scalar 3 0xFFFFFFFF] := by decide +kernel
theorem test_mulh_unsigned : scalarOf (.mulh h0 3 4 5 1) [(4, 0xFFFFFFFF), (5, 2)] = [.scalar 3 1] := by decide +kernel
/-- The shifts of 0x8000_0000 by 4 (R411). -/
theorem test_shr : scalarOf (.shrImm h0 3 4 4) [(4, 0x80000000)] = [.scalar 3 0x08000000] := by decide +kernel
theorem test_sra : scalarOf (.sraImm h0 3 4 4) [(4, 0x80000000)] = [.scalar 3 0xF8000000] := by decide +kernel
/-- An immediate is sign-extended to XLEN in each context (R341), and a word of a core advances its pc (R69). -/
theorem test_add_immediate_element : scalarOf (.addImm h0 7 7 0xFFFFFFFF) [] = [.scalar 7 0xFFFFFFFF] := by decide +kernel
theorem test_add_immediate_core : mgrAfter (.addImm h0 7 7 0xFFFFFFFF) (inMgr []) 7 = (0xFFFFFFFFFFFFFFFF, 1, 0) := by decide +kernel
/-- The examples of R397: MOVI sign-extends, MOVH replaces the upper half. -/
theorem test_movi : mgrAfter (.movi h0 2 0x80000000) (inMgr []) 2 = (0xFFFFFFFF80000000, 1, 0) := by decide +kernel
theorem test_movh : mgrAfter (.movh h0 2 2 0) (inMgr [(2, 0xFFFFFFFF80000000)]) 2 = (0x80000000, 1, 0) := by decide +kernel
/-- x0 reads 0 and discards what is written to it (R74). -/
theorem test_x0 : mgrAfter (.addImm h0 0 0 5) (inMgr []) 0 = (0, 1, 0) := by decide +kernel
/-- The examples of R365: 1.0 + 2^−11 in FP16 ties to even, or rounds up, with NX; bits 63 to 16 are 0. -/
theorem test_fadd_tie_to_even : mgrAfter (.fadd h0 3 4 5 1 0) (inMgr [(4, 0x3C00), (5, 0x1000)]) 3 = (0x3C00, 1, flagNX) := by decide +kernel
theorem test_fadd_up : mgrAfter (.fadd h0 3 4 5 1 2) (inMgr [(4, 0x3C00), (5, 0x1000)]) 3 = (0x3C01, 1, flagNX) := by decide +kernel
/-- The examples of R366: 32,500.0 in DX8, and in INT8 with NV. -/
theorem test_fcvt_dx8 : mgrAfter (.fcvt h0 3 4 0 0 5) (inMgr [(4, 0x46FDE800)]) 3 = (0x7C, 1, flagNX) := by decide +kernel
theorem test_fcvt_int8 : mgrAfter (.fcvt h0 3 4 0 0 9) (inMgr [(4, 0x46FDE800)]) 3 = (0x7F, 1, flagNV) := by decide +kernel
/-- The examples of R461: 3.5 gives 4, and 3.0e9 the greatest integer with NV. -/
theorem test_vcvt_rounds : effects (.vcvt h0 33 32 0 0 11) (inElem 0 0 (holding [] [(0, every 32 0x40600000)])) =
    [.vector 33 (every 32 4), .flags flagNX] := by decide +kernel
theorem test_vcvt_saturates : effects (.vcvt h0 33 32 0 0 11) (inElem 0 0 (holding [] [(0, every 32 0x4F32D05E)])) =
    [.vector 33 (every 32 0x7FFFFFFF), .flags flagNV] := by decide +kernel
/-- 65,520.0 in every lane of two registers packs to +∞ in FP16, with OF and NX (R94, R461). -/
theorem test_vpack : effects (.vpack h0 34 32 33 0 0 1) (inElem 0 0 (holding [] [(0, every 32 0x477FF000), (1, every 32 0x477FF000)])) =
    [.vector 34 (every 16 0x7C00), .flags (flagOF ||| flagNX)] := by decide +kernel
/-- 1.0 and 2^−24 fifteen times: every step of the scan ties to even, and the tree gives 0x3F80_0007 (R113, R462). -/
theorem test_vscan : effects (.vscan h0 34 32 0 0 0 0) (inElem 0 0 (holding [] [(0, ofLanes 32 (0x3F800000 :: List.replicate 15 0x33800000))])) =
    [.vector 34 (every 32 0x3F800000), .flags flagNX] := by decide +kernel
theorem test_vred : (effects (.vred h0 34 32 0 0 0 0)
    (inElem 0 0 (holding [] [(0, ofLanes 32 (0x3F800000 :: List.replicate 15 0x33800000))]))).take 1 = [.vector 34 0x3F800007] := by decide +kernel
/-- 88.8 overflows the exponential, with OF and NX (R464). -/
theorem test_vexp_overflow : effects (.vexp h0 35 34 0 0) (inElem 0 0 (holding [] [(2, every 32 0x42B1999A)])) =
    [.vector 35 (every 32 0x7F800000), .flags (flagOF ||| flagNX)] := by decide +kernel

/-! ### States that meet the hypotheses of the statements

One theorem for each statement that has hypotheses, with a state for each of its clauses; where a clause names a state or a value that
an operation answers, the theorem shows that it answers one. -/

/-- An operation that answers. -/
def isOk {ε α : Type} : Except ε α → Bool
  | .ok _ => true
  | .error _ => false

/-- An operation that answers gives the value that a statement names. -/
theorem exists_of_isOk {ε α : Type} {e : Except ε α} (h : isOk e = true) : ∃ a, e = .ok a := by
  cases e with
  | ok a => exact ⟨a, rfl⟩
  | error _ => cases h

/-- The word passes steps 1 to 5 of R85. -/
def runs (s : State) (i : Instr) : Bool := gate i s == .run

/-- A graph of region 0 alone. -/
def graph0 : Graph := startGraph State.reset 0 0 1

/-- A leaf that maps the first 512 GB to themselves for both users, with every right. -/
def leaf0 : Tlb := ⟨0, 39, 0, 0x1F⟩

/-- Region 0 belongs to graph 0, whose pages are mapped; units, streams and slots are as after reset. -/
def owned (f : Graph → Graph) : State :=
  modRegion (modDie { State.reset with gid := 1 } fun d => { d with graphs := [f graph0], tlb := [leaf0] }) 0 fun r => { r with owner := some 0 }

/-- Stagehand 0 executes, with its registers set. -/
def inStage (f : Graph → Graph) (xs : List (Nat × X)) : State :=
  let s := modCore (owned f) 0 fun k => { k with run := .running, x := xs.foldl (fun v p => vset v p.1 p.2) k.x }
  { s with who := .stage 0 }

/-- The manager executes with its pages mapped, with its registers set. -/
def inManager (f : Graph → Graph) (xs : List (Nat × X)) : State :=
  { modCore (owned f) 32 (fun k => { k with x := xs.foldl (fun v p => vset v p.1 p.2) k.x }) with who := .mgr }

/-- Element (r, c) of region 0 executes under graph 0, in the region that `g` makes. -/
def inOwned (f : Graph → Graph) (r c : Nat) (g : Region → Region) : State :=
  { modRegion (owned f) 0 (fun q => g { q with state := 1, ii := 1, inv := some inv0 }) with who := .elem 0 (Fin.ofNat 8 r) (Fin.ofNat 16 c) }

theorem test_witness_EncodedWordDecodes : encode (.add h0 31 30 29) ≠ none ∧ coreForm (.istartCancel h0 0x11 3) = .mtsr h0 3 0x11 := by decide

theorem test_witness_DecodedWordEncodesBack : decode 0x10001882800000000000 = .ok (.add h0 3 4 5) := by decide

/-- The state after reset with a word placed: the manager fetches it, and it decodes, or not. -/
theorem test_witness_WordAtProgramCounterRuns :
    ([(0x10001882800000000000, []), (0x10001882800000000000, [(4, 0)]), (0xFFC00000000000000000, [])] : List (Nat × List (Nat × Nat))).all (fun p =>
      let w := p.1
      let s := (modCore State.reset 32 fun k => { k with awaits := p.2 }).withFetchWord 80 w
      let n := nextTurn s
      let k := core n.2 32
      decide (n.1 = .core 32) && !s.io.fatal && k.run == .running && k.wait == .none && !k.frozen && !k.freezeReq && !takesEvent k 32 &&
        (region n.2 32).owner.isNone &&
        (match fetchWord { n.2 with who := whoCore 32 } 32 k.pc.toNat with
         | (t, .ok v) => v.toNat == w && readsAwaited (fetched t 32) 32 (.add ⟨0, 0, 0⟩ 3 4 5) == !p.2.isEmpty && (core t 32).issued.isNone
         | _ => false)) = true ∧ isOk (decode 0x10001882800000000000) = true ∧ isOk (decode 0xFFC00000000000000000) = false ∧
    requestOf State.reset (.add ⟨0, 0, 0⟩ 3 4 5) = none ∧ requestOf State.reset (.tfork ⟨0, 0, 0⟩ 4 1 224) = some 224 ∧
    (opUnit State.reset 224).served = false ∧ (State.reset.dies.toList.all fun d => d.reds.isEmpty && d.cores.toList.all fun k => k.wait == .none) = true ∧
    (core (modCore State.reset 0 fun k => { k with issued := some (true, 5) }) 0).issued = some (true, 5) := by decide +kernel

/-- A region whose ring word is at hand for element (0, 0), and for no element of row 1. -/
theorem test_witness_RingWordRunsInItsElement :
    let s := State.reset.withFetchWord 80 0x60000000006000100000
    let n := nextTurn s
    let u := askAgain n.2 0
    let v := modRegion n.2 0 fun r => { r with cursor := 17 }
    let undecoded := modRegion u 0 (supplyRing 0xFFC00000000000000000)
    n.1 = .region 0 ∧ s.io.fatal = false ∧ isRunning (region u 0) = true ∧ (region u 0).cursor = 0 ∧ wordsDone (region u 0) = false ∧
      handedWord (region u 0) 0 = some 0x60000000006000100000 ∧ decode 0x60000000006000100000 = .ok (.mmode h0 3 1) ∧
      isRunning (region v 0) = true ∧ handedWord (region v 0) 17 = none ∧ isRunning (region undecoded 0) = true ∧
      handedWord (region undecoded 0) 0 = some 0xFFC00000000000000000 ∧ isOk (decode 0xFFC00000000000000000) = false ∧
      predFalse (region undecoded 0) (hdrOf 0xFFC00000000000000000) = false ∧ (sampledVc (region undecoded 0)).toNat ≠ 0 ∧
      predFalse (region undecoded 0) (hdrOf 0xFFCC0000000000000000) = true := by decide +kernel

/-- A false predicate, an iteration past VC, and a position below a re-entry skip; the two faults and a word that runs. -/
theorem test_witness_ChecksDecideBeforeAnyEffect :
    let s := inElem 0 0 id
    gate (.add ⟨1, 1, 0⟩ 1 2 3) s = .skip ∧
    gate (.add h0 1 2 3) (modRegion s 0 fun r => { r with inv := some { inv0 with vc := 0 } }) = .skip ∧
    gate (.add h0 1 2 3) (modRegion s 0 fun r => { r with inv := some { inv0 with resume := [(0, 1)] } }) = .skip ∧
    gate (.halt h0) s = .stop 0x02 ∧ gate (.rtypop h0 1) (inStage id []) = .stop 0x03 ∧ gate (.add h0 32 2 3) s = .stop 0x01 ∧
    ([.add h0 1 2 33, .add h0 1 2 53, .add h0 60 2 3, .add h0 61 2 3, .add h0 1 2 62] : List Instr).all (fun i => gate i (inStage id []) == .stop 0x02) = true ∧
    ([.add ⟨1, 0, 0⟩ 1 2 3, .add h0 63 2 3, .fadd h0 1 2 3 3 0] : List Instr).all (fun i => gate i (inStage id []) == .stop 0x01) = true ∧
    0xE ≤ (0xFFC00000000000000000 : Word).toNat / 2 ^ 76 ∧ illegalCode .stage (.reserved (.halt h0) [33]) = 0x02 ∧
    illegalCode .stage (.reserved (.rtypop h0 1) []) = 0x03 ∧ illegalCode .stage (.reserved (.halt h0) []) = 0x01 ∧
    gate (.add h0 1 2 3) s = .run ∧ isWord (.add h0 1 2 3) = true ∧
    ([0x05C00000000000000000, 0x20400000000000000000, 0xD1000000000000000000] : List Nat).all (fun w =>
      !isOk (decode (BitVec.ofNat 80 w)) && handedWord (region (modRegion s 0 (supplyRing (BitVec.ofNat 80 w))) 0) 0 == some (BitVec.ofNat 80 w) &&
        !predFalse (region s 0) (hdrOf (BitVec.ofNat 80 w)) && predFalse (region s 0) (hdrOf (BitVec.ofNat 80 (w + 12 * 2 ^ 64)))) = true := by
  decide +kernel

/-- The integer words that elements and cores share. -/
def integerWords : List Instr :=
  [.add h0 1 2 3, .sub h0 1 2 3, .mul h0 1 2 3, .and h0 1 2 3, .or h0 1 2 3, .xor h0 1 2 3, .shl h0 1 2 3, .shr h0 1 2 3, .sra h0 1 2 3,
   .mulh h0 1 2 3 1, .div h0 1 2 3 1, .rem h0 1 2 3 1, .min h0 1 2 3 1, .max h0 1 2 3 1, .clz h0 1 2, .popc h0 1 2, .setc h0 1 2 3 1 5,
   .sel h0 1 2 3 4, .bfx h0 1 2 1 31 0, .bfi h0 1 2 3 31 0, .lea h0 1 2 3 31, .addImm h0 1 2 31, .andImm h0 1 2 31, .orImm h0 1 2 31,
   .xorImm h0 1 2 31, .shlImm h0 1 2 31, .shrImm h0 1 2 31, .sraImm h0 1 2 31, .setcImm h0 1 2 1 5 31, .movi h0 1 31]

theorem test_witness_IntegerWordsInElements : integerWords.all (runs (inElem 7 15 id)) = true := by decide +kernel
theorem test_witness_IntegerWordsInCores :
    (Instr.movh h0 1 2 0 :: integerWords).all (runs (inStage id [])) = true ∧ integerWords.all (runs (inMgr [])) = true := by decide +kernel
/-- Their next states, which the frame of the integer words names. -/
theorem test_witness_IntegerWordsNeverSetAFlag :
    ((exec (.add h0 1 2 3) (inMgr [])) matches .next _) = true ∧ ((exec (.movh h0 1 2 3) (inStage id [])) matches .next _) = true ∧ ((exec (.add h0 1 2 3) (inElem 0 0 id)) matches .next _) = true := by
  decide +kernel

/-- The floating words that both contexts share. -/
def floatWords : List Instr :=
  [.fadd h0 1 2 3 2 5, .fsub h0 1 2 3 2 4, .fmul h0 1 2 3 1 3, .fdiv h0 1 2 3 1 2, .ffma h0 1 2 3 4 0 1, .fsqrt h0 1 2 0 0, .fmin h0 1 2 3 0,
   .fmax h0 1 2 3 1, .fsetc h0 1 2 3 0 5, .fcvt h0 1 2 0 5 5, .fclass h0 1 2 2]

theorem test_witness_FloatingWordsInBothContexts :
    floatWords.all (runs (inElem 0 0 id)) = true ∧ floatWords.all (runs (inMgr [])) = true := by decide +kernel

theorem test_witness_LaneWordsActOnEveryLane :
    ([.vadd h0 47 32 33 9 0 1, .vsub h0 32 33 34 12 5 0, .vmul h0 32 33 34 0 4 0, .vfma h0 32 33 34 35 1 0 0, .vmin h0 32 33 34 11,
      .vmax h0 32 33 34 2, .vabs h0 32 33 10 1, .vneg h0 32 33 12 0, .vexp h0 32 33 0 0, .vlog h0 32 33 1 1, .vrcp h0 32 33 2 2,
      .vrsq h0 32 33 0 3, .vsetc h0 32 33 34 12 5, .vsel h0 32 33 34 35 5, .vshl h0 32 33 34 9, .vshr h0 32 33 34 10 1] :
      List Instr).all (runs (inElem 0 0 id)) = true := by decide +kernel

theorem test_witness_LanesOfAResultAreItsLanes : (15 : Nat) < 512 / 32 ∧ (0 : Nat) < 512 / 64 ∧ (127 : Nat) < 512 / 4 := by decide

theorem test_witness_WholeRegisterAndLaneMoveWords :
    ([.vand h0 32 33 34, .vor h0 32 33 34, .vxor h0 32 33 34, .vmov h0 32 47, .vshuf h0 32 33 34 3, .vbcast h0 32 33 9 63, .vbcast h0 32 1 0 0,
      .vextr h0 1 33 2 0 15, .vins h0 33 1 2 11 15] : List Instr).all (runs (inElem 0 0 id)) = true := by decide +kernel

theorem test_witness_ReductionsAndLaneConversions :
    ([.vdot h0 32 33 34 2 0 0 0, .vred h0 32 33 11 0 11 1, .vscan h0 32 33 1 0 1 0, .vcvt h0 32 33 0 5 11, .vpack h0 32 33 34 0 0 1,
      .vunpk h0 32 33 1 0 0 1, .vqnt h0 34 36 0 1 0 6 0, .vdqnt h0 34 36 6 0 0 0] : List Instr).map (runs (inElem 0 0 id)) =
      List.replicate 8 true ∧ lanes (eVector (inElem 0 0 id) 33 16) 16 ≠ [] := by decide +kernel

/-- The array in FP8E4 mode. -/
def arrayMode (r : Region) : Region := { r with mm := 1, mt := 3 }

/-- Metadata that selects elements 0 and 1 of every group. -/
def someMeta (r : Region) : Region :=
  let m : Line := BitVec.ofNat 512 ((List.range 128).foldl (fun a k => a + 4 * 16 ^ k) 0)
  { arrayMode r with elems := r.elems.map fun e => { e with metaFile := m } }

/-- Column 0 with its own head, column 1, and row 7; every word of the array, and the places of a row. -/
theorem test_witness_MatrixWordsComplete :
    let s := inOwned id 7 0 arrayMode
    let e := inOwned id 0 1 arrayMode
    let m := inOwned id 7 0 someMeta
    ([.mmode h0 3 1, .wload h0 32 1 3 0, .mmeta h0 33, .mma h0 32 1 3 0 511 1, .accz h0 1 511, .accrd h0 32 1 511 15,
      .accwr h0 32 1 511 15, .accld h0 1 2 0 511, .accst h0 1 2 1 0 511] : List Instr).all (runs s) = true ∧
    (region s 0).mm = 1 ∧ (region s 0).mt = 3 ∧ myCol s = 0 ∧ myRow s = 7 ∧ travelling (region s 0) 0 0 = [] ∧
    runs (inOwned id 0 0 fun r => { r with mm := 1, mt := 6 }) (.wload h0 32 1 6 1) = true ∧
    runs m (.mmasp h0 32 1 3 0 0 0) = true ∧
    ((List.range 16).all fun n => (List.range 8).all fun j => nibbleOk (metaNibble (myElem m) n j)) = true ∧
    isOk (accPlace s 1 0 false) = true ∧ isOk (accPlace s 1 1 true) = true ∧
    ([.mmode h0 3 1, .mma h0 32 1 3 0 511 1, .accz h0 1 0, .accld h0 1 2 0 0, .accst h0 1 2 1 0 0] : List Instr).all (runs e) = true ∧
    myCol e ≠ 0 := by decide +kernel

/-- The same words where the mode is another one; a change of the type, and none. -/
theorem test_witness_MatrixModeIsRequired :
    ([.wload h0 32 1 3 0, .mma h0 32 1 3 0 0 0, .mmasp h0 32 1 3 0 0 0] : List Instr).all (runs (inElem 0 0 id)) = true ∧
    Region.reset.mm = 0 ∧ (3 : BitVec 4) ≠ Region.reset.mt ∧ (0 : BitVec 4) = Region.reset.mt := by decide +kernel

/-- The identity permutation as PRMLD takes it, and a record of DIFLD with 63 steps of 1. -/
theorem test_witness_SummationByPartsWordsComplete :
    let perm : Line := BitVec.ofNat 512 ((List.range 64).foldl (fun a k => a + k * 64 ^ k) 0)
    let steps : Line := BitVec.ofNat 512 ((List.range 63).foldl (fun a k => a + 16 ^ (k + 3)) 0)
    let s := inElem 0 0 (holding [] [(0, perm), (1, steps)])
    bits (eVector s 32 8).toNat 384 128 = 0 ∧ isPerm (eVector s 32 8).toNat = true ∧
    escapes (eVector s 33 8).toNat ≤ 31 ∧ difNib (eVector s 33 8).toNat 0 = 0 ∧
    ((List.range 31).all fun e => decide (escapes (eVector s 33 8).toNat ≤ e → difSide (eVector s 33 8).toNat e = 0)) = true ∧
    ([.prmld h0 32 1 255, .prmap h0 32 33 1 255, .scans h0 48 32, .difld h0 51 33, .difmul h0 48 49 50 1, .sbpfin h0 32 48 33 34 5,
      .wsort h0 33 32 1 255, .yclr h0 51] : List Instr).all (runs s) = true := by decide +kernel

/-- Aligned and misaligned addresses of each form of element load and store. -/
theorem test_witness_ElementLoadsOpenWindows_ElementStoresAreHeld :
    let s := inElem 0 0 (holding [(1, 1)] [])
    ([.ld h0 2 0 0 0 63 3 11, .ldw h0 2 0 0 0 31 0 0 0, .vld h0 33 0 0 64 0 0 15, .vldw h0 33 0 0 0 31 0 0 15, .vldx h0 33 0 34 0 0 0 12,
      .st h0 2 0 0 0xFFFFC 0 3 11, .vst h0 33 0 0 0 0 0 15, .vstx h0 33 0 34 0 0 0 12, .redseq h0 0 2 3 0 0] : List Instr).all (runs s) = true ∧
    ([.ld h0 2 1 0 0 63 3 11, .ldw h0 2 1 0 0 31 0 0 0, .vld h0 33 1 0 0 0 0 15, .vldw h0 33 1 0 0 31 0 0 15, .vldx h0 33 1 34 0 0 0 12] :
      List Instr).all (runs s) = true ∧
    (eScalar s 0 + eScalar s 0 + (0xFFFFC : BitVec 20).signExtend 32).toNat % accessBytes .elem 11 = 0 ∧
    (eScalar s 1 + eScalar s 0 + (0 : BitVec 20).signExtend 32).toNat % accessBytes .elem 11 ≠ 0 ∧
    (eScalar s 1 + eScalar s 0).toNat % 64 ≠ 0 ∧ lane (eVector s 34 32) 32 15 % 8 = 0 ∧ (1 + lane (eVector s 34 32) 32 7) % 8 ≠ 0 ∧
    groupOpen s = false ∧ (eScalar s 0).toNat % cellBytes 0 = 0 := by decide +kernel

/-- A place of a node for an element and for a core, and an RMWS. -/
theorem test_witness_ScratchWordsReadAndWriteNodes :
    let s := inOwned id 0 0 id
    let k := inStage id []
    isOk (scratchAddr s (elemAddr s 0 0 0x7FFF8) 4) = true ∧ isOk (takePort s 0 false) = true ∧ isOk (takePort s 15 true) = true ∧
    isOk (scratchAddr k (coreAddr k 0 0 0x7FFF8) 4) = true ∧ isOk (scratchAddr k 0xFFFFFFC 4) = false ∧ rmwHolds (region s 0) 0 = false ∧
    ([false, true].all fun w => mayTakeNode k 0 0 w false &&
      !mayTakeNode (modRegion k 0 fun r => { r with portUse := [(0, false, 0), (0, true, 0)] }) 0 0 w false) = true ∧
    isOk (scratchAddr s (eScalar s 0).toNat 4) = true ∧
    ([.ldsp h0 1 0 0 0x7FFF8 11, .stsp h0 1 0 0 0x7FFF8 11, .rmws h0 1 0 2 0 0 11 0] : List Instr).all (runs s) = true ∧
    ([.ldsp h0 1 0 0 0x7FFF8 11, .stsp h0 1 0 0 0x7FFF8 11] : List Instr).all (runs k) = true := by decide +kernel

theorem test_witness_NodeBytesReadBack :
    Table.wf 0 Region.reset.nodes = true ∧ 524288 * 0 + 0 + 1 ≤ 524288 * 1 + 0 ∧
      Table.wf 0 (nodeWrite Region.reset 15 524287 [1]).nodes = true := by decide +kernel

/-- A buffer of two tiles of two beats in node 3, the first of them full. -/
def buffer0 : Buffer :=
  { node := 3, base := 0, depth := 2, bytes := 128, sport := some 5, full := [(0, some 0)], putIx := Vector.replicate 16 1,
    getIx := Vector.replicate 16 0, expect := 0, opened := false, fed := [] }

/-- A region with the buffer, and a load that holds region 1. -/
def buffered (r : Region) : Region := { r with bufs := [buffer0] }

/-- The words of a buffer: the tile at the get index is full and that at the put index is free, and the other way round; a remote buffer
of the same load; an offset that is not aligned, and one past the tile. -/
theorem test_witness_BufferWordsMoveBeats :
    let s := inOwned id 0 0 buffered
    let t := inOwned id 0 0 fun r => { r with bufs := [{ buffer0 with putIx := Vector.replicate 16 0, getIx := Vector.replicate 16 1 }] }
    (region s 0).bufs[(0 : BitVec 6).toNat]? = some buffer0 ∧ (64 + 64 ≤ buffer0.bytes) ∧ isFull buffer0 (vget 0 buffer0.getIx 0) = true ∧
    isFull buffer0 (vget 0 buffer0.putIx 0) = false ∧ isOk (takePort s 3 false) = true ∧ isOk (takePort s 3 true) = true ∧
    isFull buffer0 1 = false ∧ isFull buffer0 0 = true ∧ bits (eScalar s 0).toNat 22 10 = 0 ∧ (eScalar s 0).getLsbD 21 = false ∧
    (0x20 : BitVec 20).toNat % 64 ≠ 0 ∧ buffer0.bytes < (128 : BitVec 20).toNat + 64 ∧
    ([.bufget h0 33 64 0 15, .bufput h0 33 0 64 0 15, .bufget h0 33 0x20 0 15, .bufget h0 33 128 0 15] : List Instr).all (runs s) = true ∧
    ([.bufput h0 33 0 0x20 0 15, .bufput h0 33 0 128 0 15] : List Instr).all (runs s) = true ∧
    buffer0.full.get none 0 ≠ some ({ buffer0 with expect := 7 }).expect ∧ 112 % 16 = 0 ∧ buffer0.opened = false ∧
    ([.bufget h0 33 64 0 15, .bufput h0 33 0 64 0 15] : List Instr).all (runs t) = true := by decide +kernel

/-- A number of `n` bytes stored at a physical address. -/
def poke (pa n v : Nat) (s : State) : State := { s with mem := Table.setBytes s.mem pa (natBytes v n) }

/-- Graph 0 with a load of the records. -/
def loaded (recs : List LoadRec) (g : Graph) : Graph := { g with load := some ⟨⟨recs, []⟩, recs, 0⟩ }

/-- A translation that answers an address of HBM. -/
def maps (s : State) (c : Ctx) (acc : Acc) (va : Nat) : Bool :=
  match translate s c acc va with
  | (_, .ok x) => place x.pa == .hbm && x.pa == va && x.codec == 0 && reachable x.pa 64
  | _ => false

/-- BUFPUT into region 1 of the same load. -/
theorem test_witness_BufferWordsMoveBeats_remote :
    let s := modRegion (inOwned (loaded [.region 0 1 false [] [], .region 1 1 false [] []]) 0 0 fun r =>
      { r with elems := vmod r.elems 0 (holding [(1, 0x210000)] []) }) 1 buffered
    (region s 1).bufs[(0 : BitVec 6).toNat]? = some buffer0 ∧ (eScalar s 1).getLsbD 21 = true ∧ bits (eScalar s 1).toNat 16 5 = 1 ∧
      bits (eScalar s 1).toNat 22 10 = 0 ∧ sameLoad s 0 1 = true ∧ runs s (.bufput h0 33 1 64 0 15) = true ∧
      sameLoad (inOwned id 0 0 buffered) 0 1 = false := by decide +kernel

/-- Core loads and stores at 4096 and at 63, of stagehands and of the manager. -/
theorem test_witness_CoreLoadsAndStoresReachMemory :
    ([inStage id [(1, 4096), (2, 63)], inManager id [(1, 4096), (2, 63)]].all fun s =>
      ([.ld h0 3 1 0 0 0 0 12, .st h0 3 1 0 0 0 3 12, .ld h0 3 2 0 0 0 0 3, .ld h0 3 2 0 0 0 0 12, .st h0 3 2 0 0 0 0 12] : List Instr).all (runs s) &&
      maps s (coreCtx s (myCore s)) .read 4096 && maps s (coreCtx s (myCore s)) .write 4096 && maps s (coreCtx s (myCore s)) .read 0 &&
      (core s (myCore s)).supplied.isEmpty && decide (4096 % 64 + accessBytes (kindOf s) 12 ≤ 64 ∧ 4096 % accessBytes (kindOf s) 12 = 0 ∧
        63 % accessBytes (kindOf s) 12 ≠ 0) && (codedStore ⟨4096, 0, 0, false⟩ [1, 2]).isNone) = true := by decide +kernel

/-- The state after reset, and one in which a translation or a contribution leaves memory and the L2 as they were, agree with the slots. -/
def unwritten (s : State) : Bool := s.mem == [] && s.l2 == [] && s.dedup == [] && s.dedupMap == []
theorem agrees_unwritten (s : State) (h : unwritten s = true) : L2Agrees s := by
  simp only [unwritten, Bool.and_eq_true, beq_iff_eq] at h
  obtain ⟨⟨⟨h1, h2⟩, h3⟩, h4⟩ := h
  refine ⟨by unfold MemoryOk; rw [h1]; decide, by rw [h2]; decide, h3, h4, ?_⟩
  intro ln e h
  unfold l2get at h
  rw [h2] at h
  cases h

/-- States that agree with their slots after the translation of a plain address, outside an open group. -/
theorem test_witness_written_bytes :
    ([inStage id [(1, 4096)], inManager id [(1, 4096)]].all fun s =>
      unwritten (translate s (coreCtx s (myCore s)) .write 4096).1 && maps s (coreCtx s (myCore s)) .write 4096 &&
        (((coreCtx s (myCore s)).gid.bind (graph? (translate s (coreCtx s (myCore s)) .write 4096).1)).all fun g => g.group.state == 0)) = true ∧
    unwritten (modDie State.reset fun d => { d with reds := [⟨0, 0, 0, 11, 0, 5, 0, .elem 0 0 0, 0, false, false, false, 0⟩] }) = true ∧
    (contributionGid State.reset ⟨0, 0, 0, 11, 0, 5, 0, .elem 0 0 0, 0, false, false, false, 0⟩).isNone = true := by decide +kernel

/-- The state after reset agrees with its slots. -/
theorem test_witness_StoresChangeTheirOwnBytesAlone : L2Agrees State.reset ∧ ∀ p ∈ ([(63, 1), (0, 2)] : List (Nat × Byte)), p.1 < 64 := by
  refine ⟨⟨by unfold MemoryOk; decide, by decide, by decide, by decide, ?_⟩, by decide⟩
  intro ln e h
  cases h

/-- A contribution of element (0, 0) of region 0, for the first line, with its index. -/
def contribution (k : Nat) : Contribution := ⟨0, 0, 0, 11, BitVec.ofNat 32 k, 5, 0, .elem 0 0 0, 0, false, false, false, 0⟩

theorem test_witness_AtomicWordsActOnceAtTheirHome :
    let s := inStage id [(1, 128)]
    let e := inElem 0 0 (holding [(1, 128), (2, 2)] [])
    let r := modDie State.reset fun d => { d with reds := [contribution 0, { contribution 1 with arrived := true }] }
    ([.amo h0 3 1 2 4 7 11, .amo h0 3 1 2 0 0 0, .redseq h0 1 2 3 0 0, .redseq h0 1 2 3 0 1] : List Instr).all (runs s) = true ∧
    groupOpen s = false ∧ maps s (coreCtx s 0) .write 128 = true ∧ 128 % 64 + cellBytes 1 ≤ 56 ∧
    ([.amo h0 0 1 2 4 7 11, .amo h0 0 2 1 0 0 11] : List Instr).all (runs e) = true ∧ (eScalar e 1).toNat % 4 = 0 ∧ (eScalar e 2).toNat % 4 ≠ 0 ∧
    (die r).reds[0]? = some (contribution 0) ∧ (contribution 0).arrived = false ∧
    judgeable r { contribution 1 with arrived := true } = true ∧ agentOk (.redseqPlaceFree 1) = true := by decide +kernel

/-- Contributions whose index is next, is ahead, is too far ahead, and is held twice. -/
theorem test_witness_ContributionsApplyInIndexOrder :
    let s := modDie State.reset fun d => { d with reds := [contribution 0, contribution 255, contribution 256, { contribution 3 with stored := true },
      contribution 3] }
    snext s (contribution 0) = 0 ∧ homeDie 0 = 0 ∧ reorderUsed s 0 < 4096 ∧
    ((dieAt (modDieAt s 0 fun d => { d with reds := d.reds.eraseIdx 0 }) 0).reds.any fun o => o.line == 0 && o.stored && o.k == 0) = false ∧
    (List.range 5).map (fun k => ((dieAt s 0).reds[k]?.map fun c => (c.k.toNat, c.stored))) =
      [some (0, false), some (255, false), some (256, false), some (3, true), some (3, false)] ∧
    judgeable s (contribution 256) = true ∧ judgeable s (contribution 3) = true ∧
    ((dieAt s 0).reds.find? fun o => o.line == 0 && o.stored && o.k == snext s o) = none ∧
    ((dieAt (modDie State.reset fun d => { d with reds := [{ contribution 0 with stored := true }] }) 0).reds.find? fun o =>
      o.line == 0 && o.stored && o.k == snext State.reset o).isSome = true := by decide +kernel

/-- Barrier objects with PEND 0, 1, 2 and 2^20 − 1, a prefetch under way, and a core that waits. -/
theorem test_witness_BarrierWordsCountTheObject :
    let obj := fun (pa : Nat) => (⟨pa, 0, 0, false⟩ : Xlat)
    let s := poke 64 8 1 (poke 128 8 2 (poke 192 8 (2 ^ 20 - 1) (inStage id [(1, 0), (2, 64), (3, 128), (4, 192), (5, 1), (6, 128)])))
    let w := modCore (modDie s fun d => { d with prefs := [⟨64, 2, 0, 0, false, obj 64, none⟩] }) 0 fun k => { k with wait := .barw (obj 0) false }
    ([.bara h0 1 5, .bara h0 4 5, .barw h0 2, .barw h0 3, .barw h0 1, .pref h0 1 1 6 0] : List Instr).all (runs s) = true ∧
    ([0, 64, 128, 192].map fun pa => barrierWord s (coreGid s 0) (obj pa)) = [0, 1, 2, 2 ^ 20 - 1] ∧
    ([0, 64, 128, 192].all fun pa => maps s (coreCtx s 0) .write pa) = true ∧
    (core w 0).wait = .barw (obj 0) false ∧ barrierWord w (coreGid w 0) (obj 0) % 2 ^ 20 = 0 ∧
    (die w).prefs[0]? = some ⟨64, 2, 0, 0, false, obj 64, none⟩ := by decide +kernel

/-- A monitor that is armed and not, a threshold that is reached and not, and contributions that are open and not. -/
theorem test_witness_MonitorsAndFences :
    let s := inStage id [(1, 8), (2, 1)]
    let m := modCore s 0 fun k => { k with mon := some (8, 0, 0) }
    let w := fun (met : Option X) => modCore m 0 fun k => { k with wait := .mwait 3 0 met }
    let o := modDie s fun d => { d with reds := [{ contribution 0 with src := .stage 0 }] }
    let f := modEth s 0 fun p => { p with unacked := [⟨0, 0, [0, 5], [], 0, none, []⟩] }
    ([.marm h0 1, .mwait h0 3 2] : List Instr).all (runs s) = true ∧ (core s 0).mon = none ∧ maps s (coreCtx s 0) .read 8 = true ∧
    ([.mwait h0 3 2, .mwait h0 3 0] : List Instr).all (runs m) = true ∧ (core m 0).mon ≠ none ∧ (monitored m 0).1 = 0 ∧
    (core (w none) 0).wait = .mwait 3 0 none ∧ (core (w (some 7)) 0).wait = .mwait 3 0 (some 7) ∧ agentOk (.mwaitReturn 32) = true ∧
    ([1, 2, 3, 4].all fun sc => runs s (.fence h0 sc) && runs (inElem 0 0 id) (.fence h0 1)) = true ∧
    openContribution s (ofCore 0) = none ∧ openContribution o (ofCore 0) = some (0, 0) ∧
    framesOpen s s.cur.val 0 = false ∧ framesOpen f f.cur.val 0 = true := by decide +kernel

/-- A channel between row 0 of region 0 and its stagehand, or the other way round. -/
def chan0 (ch : Nat) (up : Bool) (queue : List Line) : Chan :=
  { ch := ch, prod := ⟨0, !up, 0⟩, cons := ⟨0, up, 0⟩, hops := 2, queue := queue, flight := [], levels := [] }

def withChans (l : List Chan) (g : Graph) : Graph := { g with chans := l }

/-- Producers and consumers in columns 0, 1 and 15 and in the stagehand, queues that are empty, hold one value and are full, and no
record. -/
theorem test_witness_ChannelWordsMoveValues :
    let up := withChans [chan0 16 true [], chan0 48 true [], chan0 0 true []]
    let down := withChans [chan0 16 false [7], chan0 48 false [], chan0 0 false [7]]
    let full := withChans [chan0 16 false [1, 2, 3, 4]]
    ([0, 15].all fun c => ([.send h0 1 16, .csend h0 1 48, .vsend h0 33 0] : List Instr).all (runs (inOwned up 0 c id)) &&
      (producing (inOwned up 0 c id) 16).isSome && (producing (inOwned up 0 c id) 48).isSome && (producing (inOwned up 0 c id) 0).isSome &&
      !convBound (inOwned up 0 c id) 0 0 0 && !convBound (inOwned up 0 c id) 0 1 0) = true ∧
    ([0, 1].all fun c => ([.recv h0 1 16, .crecv h0 1 48, .vrecv h0 33 0] : List Instr).all (runs (inOwned down 0 c id)) &&
      consuming (inOwned down 0 c id) 16 == some (chan0 16 false [7]) && (consuming (inOwned down 0 c id) 48).isSome &&
      consuming (inOwned down 0 c id) 0 == some (chan0 0 false [7]) && !convBound (inOwned down 0 c id) 0 0 0 && !convBound (inOwned down 0 c id) 0 1 0) = true ∧
    (consuming (inOwned (withChans [chan0 16 false []]) 0 0 id) 16).map Chan.queue = some [] ∧
    ([.send h0 1 16, .csend h0 1 48] : List Instr).all (runs (inStage down [])) = true ∧ producing (inStage down []) 16 = some (chan0 16 false [7]) ∧
    (producing (inStage full []) 16).map (fun c => c.queue.length + c.flight.length) = some 4 ∧
    ([.recv h0 1 16, .crecv h0 1 48] : List Instr).all (runs (inStage up [])) = true ∧ consuming (inStage up []) 16 = some (chan0 16 true []) ∧
    (consuming (inStage (withChans [chan0 16 true [9]]) []) 16).map Chan.queue = some [9] ∧
    producing (inStage id []) 16 = none ∧ consuming (inStage id []) 16 = none ∧
    (let none_ := inOwned id 0 0 id
     ([.send h0 1 16, .csend h0 1 48, .vsend h0 33 0, .recv h0 1 16, .crecv h0 1 48, .vrecv h0 33 0] : List Instr).all (runs none_) &&
       (producing none_ 0).isNone && (consuming none_ 0).isNone && !convBound none_ 0 0 0 && !convBound none_ 0 1 0) = true ∧
    (let empty := inOwned (withChans [chan0 0 false []]) 0 0 id
     runs empty (.vrecv h0 33 0) && (consuming empty 0).map Chan.queue == some [] && !convBound empty 0 0 0 && !convBound empty 0 1 0 && myCol empty == 0) = true := by
  decide +kernel

/-- A value and a beat that are due, at queues and places that are free and full. -/
theorem test_witness_ScheduledArrivals :
    let c := { chan0 16 true [] with flight := [(0, 5, 0, 0)] }
    let v := { chan0 0 true [1, 2, 3, 4] with flight := [(0, 5, 0, 0)] }
    let s := owned (withChans [c, v])
    let b : RemoteBeat := ⟨0, 0, 0, 0, 0, 1, 0, 0, natBytes 0 64, true, 0⟩
    let t := modRegion (modRegion (owned id) 0 fun r => { r with beats := [b] }) 1 buffered
    (dueValue s 0 16).map (fun p => p.1) = some c ∧ (dueValue s 0 0).map (fun p => p.1) = some v ∧
    betweenCycles s = true ∧ agentOk (.scalarChannelArrival 0 16) = true ∧ agentOk (.vectorChannelArrival 0 0) = true ∧
    dueBeat t 0 = some b ∧ bufAt (region t 1) 0 = some buffer0 ∧ betweenCycles t = true := by decide +kernel

/-- A descriptor of `n` bytes at an address of memory, and one whose source is operand stream `st`. -/
def bytesAt (a n : Nat) : Line := BitVec.ofNat 512 (a + 2 ^ 68 * 15 + 2 ^ 80 * (n + 2 ^ 16 + 2 ^ 32 + 2 ^ 48) + 2 ^ 144 + 2 ^ 272 * (n + 2 ^ 16 + 2 ^ 32 + 2 ^ 48))
def streamAt (st n : Nat) : Line := BitVec.ofNat 512 (st + 2 ^ 68 * 15 + 2 ^ 72 * 3 + 2 ^ 80 * (n + 2 ^ 16 + 2 ^ 32 + 2 ^ 48) + 2 ^ 272 * (n + 2 ^ 16 + 2 ^ 32 + 2 ^ 48))

/-- A command of a port. -/
def command0 (src dst : Line) (scopy started : Bool) : Command :=
  { src := src, dst := dst, scopy := scopy, stamp := none, asroot := 0, mgr := false, grouped := false, void := false, started := started, done := 0,
    gather := [], spill := [], retry := none, supplied := [], cycles := 0 }

/-- Port 5 of region 0, bound and with its queue, and operand stream 7. -/
def ported (q : List Command) (b : Option (Line × Line)) (st : Stream) (s : State) : State :=
  let s := modRegion s 0 fun r => { r with bufs := [{ buffer0 with full := [] }], ports := vset r.ports 5 { Port.reset with queue := q, bound := b } }
  modDie s fun d => { d with streams := vset d.streams 7 st }

/-- A subscriber with a window of two beats. -/
def sub0 (sent acked : Nat) : Subscriber := { g := 0, port := 5, window := 2, sent := sent, acked := acked, live := true }

theorem test_witness_StreamWordsActOnTheirPort :
    let s := inStage id [(1, 0), (2, 64), (3, 128)]
    let copies := ported [] (some (bytesAt 0 64, bytesAt 4096 64)) Stream.idle s
    let produces := ported [] (some (streamAt 7 64, bytesAt 4096 64)) Stream.idle s
    let k := command0 (streamAt 7 64) (bytesAt 4096 64) false false
    let queued := ported [k] none { Stream.idle with producer := some (0, 5), subs := [sub0 0 0] } (poke 128 4 1 s)
    let full := ported (List.replicate 16 k) (some (bytesAt 0 64, bytesAt 4096 64)) Stream.idle s
    ([.sbind h0 1 2 5 0, .sq h0 0 5 0, .sq h0 2 5 0, .scopy h0 1 2 0 2 5 0, .scancel h0 4 5 0, .ssub h0 4 0 5 7, .sdist h0 3 7, .sstat h0 4 6 5 0] :
      List Instr).all (runs s) = true ∧
    isOk (coreRead s 0 64 0 15 0) = true ∧ isOk (coreRead s 64 64 0 15 0) = true ∧ isOk (stampOf s 0) = true ∧ isOk (stampOf s 64) = true ∧
    pairOk copies 0 (bytesAt 0 64).toNat (bytesAt 4096 64).toNat = true ∧ dKind (bytesAt 0 64).toNat = 0 ∧ dKind (streamAt 7 64).toNat = 3 ∧
    pairOk produces 0 (streamAt 7 64).toNat (bytesAt 4096 64).toNat = true ∧ (stream produces 7).producer = none ∧
    (port copies 0 5).sub = none ∧ (port full 0 5).queue.length = 16 ∧ ([k].all fun k => k.stamp.isNone && isProducer k) = true ∧
    (let c := command0 (bytesAt 0 64) (bytesAt 4096 64) false false
     ({ c with stamp := some ⟨4096, 0, 0, false⟩ }).stamp = some ⟨4096, 0, 0, false⟩ ∧ c.void = false ∧ isProducer c = false) ∧ (xval s 2).toNat ≤ 2 ^ 32 ∧
    (region copies 0).bufs.any (fun b => b.sport == some 5) = true ∧ (port copies 0 5).queue = [] ∧ (stream copies 7).subs.length < 16 ∧
    producerOf queued 7 = some k ∧ (stream queued 7).subs ≠ [] ∧ (stream queued 7).started = false ∧
    (match coreRead queued 128 64 0 15 0 with | .ok (x, _) => windowsOk (bytesNat x) 1 | _ => false) = true ∧
    (stream queued 7).producer.map (fun gp => gp.1) = some (myRegion queued) := by decide +kernel

theorem test_witness_StreamCommandsPerform :
    let s := owned id
    let k := fun b => command0 (streamAt 7 64) (bytesAt 4096 64) false b
    let st : Stream := { Stream.idle with producer := some (0, 5), started := true, total := 1 }
    let waits := ported [k false] none { st with subs := [sub0 0 0] } s
    let reads := ported [k true] none { st with subs := [sub0 0 0] } s
    let holds := ported [k true] none { st with subs := [sub0 0 0], read := 1, replay := [(0, some 0)] } s
    let acked := ported [k true] none { st with subs := [sub0 1 1], read := 1 } s
    let copy := command0 64 4096 true false
    let moves := ported [{ copy with src := BitVec.ofNat 512 (64 + 2 ^ 64 * 64) }] none Stream.idle s
    let into := command0 (bytesAt 4096 64) (streamAt 0 64 - 2 ^ 73) false false
    let wide := command0 (bytesAt 4096 64 - 2 ^ 68 * 9) (streamAt 0 64 - 2 ^ 73 - 2 ^ 68 * 9) false false
    let inUse := fun (busy : Bool) (s : State) => modRegion s 0 fun r => { r with portUse := if busy then [(3, true, 0)] else [] }
    isProducer (k false) = true ∧ (port waits 0 5).queue.head? = some (k false) ∧ (stream waits 7).started = true ∧
    mayReceive reads 7 0 = true ∧ replayHas (stream (modStream reads 7 trimReplay) 7) 0 = false ∧
    (stream (modStream reads 7 trimReplay) 7).subs[0]? = some (sub0 0 0) ∧ isOk (readBeat (modStream reads 7 trimReplay) 0 (k true) 0) = true ∧
    mayReceive holds 7 0 = true ∧ replayHas (stream (modStream holds 7 trimReplay) 7) 0 = true ∧
    (port moves 0 5).queue.head?.map isProducer = some false ∧
    isOk (copyGroup moves 0 { copy with src := BitVec.ofNat 512 (64 + 2 ^ 64 * 64) }) = true ∧
    (stream reads 7).producer = some (0, 5) ∧ { copy with src := BitVec.ofNat 512 (64 + 2 ^ 64 * 64) }.done ≠ 64 ∧
    cmdValues { copy with src := BitVec.ofNat 512 (64 + 2 ^ 64 * 64) } = 64 ∧ (groupPorts moves 0 into).map Prod.fst = [(0, 3, true)] ∧
    (groupPorts moves 0 into).all (fun q => decide (q.2 ≤ into.cycles + 1)) = true ∧
    (groupPorts moves 0 wide).any (fun q => decide (wide.cycles + 1 < q.2)) = true ∧ isOk (copyGroup moves 0 wide) = true ∧
    wide.done ≠ cmdValues wide ∧
    [false, true].all (fun busy => let v := inUse busy (modStream reads 7 trimReplay)
      mayTakeNode v 0 (subscriberNode v (sub0 0 0)) true true == !busy && mayTakeNode (inUse busy moves) 0 3 true true == !busy) = true ∧
    allAcked (stream acked 7) = true ∧ agentOk (.distributorSendBeat 255 0) = true := by decide +kernel

/-- A unit of graph 0 with its parameter registers. -/
def withUnit (u : Nat) (ps : List (Nat × Nat)) (s : State) : State :=
  modUnit s u fun q => { q with owner := some 0, params := ps.foldl (fun t p => Table.set 0 p.1 (BitVec.ofNat 64 p.2) t) q.params }

/-- Tokens at an input port. -/
def withTokens (u n : Nat) (l : List Token) (s : State) : State := setIn s u n l

/-- A pool of 16 nodes of four dimensions and leaves of two entries, enabled, empty. -/
def pool0 (s : State) : State :=
  withUnit 224 [(0, 1 + 2 ^ 8 * 11), (4, 0x1000), (5, 0x2000), (6, 16 + 2 ^ 27 * 2), (7, 2 ^ 24 * 0xFFFFFF)] s

/-- The root and the state after an edit, of stagehand 0. -/
def edited (m : Nat → TreeM Nat) (p : Nat × State) : Nat × State :=
  match runEdit p.2 224 (coreAccess p.2) (some 0) p.1 (m p.1) with
  | .ok r => r
  | .error _ => p

/-- The entry of zeros at address 0 appended. -/
def appended (p : Nat × State) : Nat × State :=
  edited (fun root => do
    let bs ← readObject 0 16
    let e ← takeEntry 4 bs
    treeAppend root e) p

/-- Tokens that a port gives. -/
def gives {α : Type} : Taken α → Bool
  | .got _ _ => true
  | _ => false

/-- Stagehand 0 with the empty pool, and after two entries, a split of their leaf, and an eviction. -/
def emptyPool : Nat × State := (treeNull, pool0 (inStage id [(1, treeNull), (2, 64), (3, 5)]))
def twoEntries : Nat × State := appended (appended emptyPool)

/-- Two SWITCH units of graph 0, named by stagehand 0. -/
def twoUnits : State := withUnit 737 [] (withUnit 736 [] (inStage id [(1, 1), (2, 15), (3, 2 ^ 15 + 737)]))
def unitWords : List Instr :=
  [.opset h0 0 736 0, .opget h0 4 736 1, .route h0 0 736 1, .route h0 3 736 0, .tinj h0 1 2 736 3, .tdrain h0 4 736]

/-- OPSET that is taken and refused, OPGET, ROUTE of no destination and of one, TINJ into a queue with room and a full one, TDRAIN, TCONV, and
a unit that the graph does not own. -/
theorem test_witness_UnitWordsActOnTheirUnit :
    unitWords.all (runs twoUnits) = true ∧ unitWords.all (runs (inManager id [])) = true ∧ runs twoUnits (.tconv h0 4 1 1) = true ∧
    (opUnit twoUnits 736).owner = some 0 ∧ (myGraph twoUnits).map Graph.gid = some 0 ∧ (opsetUnit twoUnits 736 0 (1 + 2 ^ 8 * 15)).isSome = true ∧
    opsetUnit twoUnits 736 1 1 = none ∧ isOk (opgetUnit twoUnits 736 1) = true ∧ ctlEn twoUnits 736 = false ∧ routeV 0 = false ∧
    onlyFields [(0, 10), (12, 4)] (2 ^ 15 + 737) = true ∧ isOk (destAllowed twoUnits (2 ^ 15 + 737)) = true ∧
    destExists twoUnits (2 ^ 15 + 737) = true ∧ 3 < unitInputs (unitKind 736) ∧ portRoom twoUnits 736 3 = true ∧
    portRoom (withTokens 736 3 (List.replicate 8 marker) twoUnits) 736 3 = false ∧ inProgress (opUnit twoUnits 736) = false ∧
    inProgress (opUnit (modUnit twoUnits 736 fun q => { q with out := [(0, marker)] }) 736) = true ∧
    1 / 2 = myRegion twoUnits ∧ onlyFields [(0, 4), (8, 4), (16, 1)] 1 = true ∧ (opUnit (inStage id []) 736).owner = none := by decide +kernel
/-- No output of a unit of `twoUnits` has a route. -/
theorem upar_twoUnits_route (u o : Nat) : upar twoUnits u (2 + o) = 0 := by
  have h : ∀ (p : Table (BitVec 64)), p = [] → (p.get 0 (2 + o)).toNat = 0 := by intro p hp; subst hp; rfl
  unfold upar
  apply h
  unfold twoUnits withUnit
  by_cases a : 737 = u
  · subst a
    rw [opUnit_modUnit_same _ _ _ (by decide), opUnit_modUnit_ne _ _ _ _ (by decide)]
    rfl
  · rw [opUnit_modUnit_ne _ _ _ _ a]
    by_cases b : 736 = u
    · subst b
      rw [opUnit_modUnit_same _ _ _ (by decide)]
      rfl
    · rw [opUnit_modUnit_ne _ _ _ _ b]
      unfold opUnit
      show (vget OpUnit.reset (Vector.replicate 768 OpUnit.reset) u).params = []
      by_cases h : u < 768
      · simp [vget, Vector.getD, h]; rfl
      · simp [vget, Vector.getD, h]; rfl
theorem unitRoutes_twoUnits : unitRoutes twoUnits = [] := by
  unfold unitRoutes
  simp [upar_twoUnits_route, routeV]
theorem test_witness_UnitWordsActOnTheirUnit_port :
    destTaken twoUnits (portRoute 736 3) none = false ∧ destTaken twoUnits (2 ^ 15 + 737) (some (736, 0)) = false := by
  unfold destTaken
  rw [unitRoutes_twoUnits]
  decide +kernel

/-- Each edit on a root that it takes, a fork, a read of a node, and a query of NULL and of a tree. -/
theorem test_witness_TreeWordsEditAndQuery :
    let s := emptyPool.2
    let split := edited (fun r => treeSplit r []) twoEntries
    let gone := edited (fun r => treeEvict r []) twoEntries
    let q := withUnit 192 [(0, 1), (4, 224)] (withUnit 0 [(5, 192 + 2 ^ 15)] twoEntries.2)
    let edits := fun (p : Nat × State) (m : TreeM Nat) => isOk (runEdit p.2 224 (coreAccess p.2) (some 0) p.1 m)
    let ask : TreeM QResult := do
      let bs ← readObject 64 8
      let v ← takeQuery 4 bs
      incRef twoEntries.1
      treeQuery twoEntries.1 v 0 0
    ([.tappend h0 4 1 2 224, .tsplit h0 4 1 0 224, .tmerge h0 4 1 0 224, .tevict h0 4 1 0 224, .tevictRelease h0 4 1 0 224, .tfork h0 4 1 224,
      .tnode h0 4 1 0 3 224 0, .tquery h0 4 1 2 2 192] : List Instr).all (runs s) = true ∧
    isOk (unitReady s 224) = true ∧ isOk (unitReady q 192) = true ∧ rootOk (poolOf s 224 (coreAccess s)) treeNull = true ∧
    twoEntries.1 = 0 ∧ rootOk (poolOf s 224 (coreAccess s)) 0 = true ∧ pathTurns 0 = some [] ∧
    edits emptyPool (do
      let e ← takeEntry 4 (← readObject 64 16)
      treeAppend treeNull e) = true ∧
    edits twoEntries (treeSplit 0 []) = true ∧ edits split (treeMerge 0 []) = true ∧ edits twoEntries (treeEvict 0 []) = true ∧
    edits gone (treeRelease 0) = true ∧ isOk (runTree twoEntries.2 224 (coreAccess s) (some 0) (treeFork 0) fun _ => []) = true ∧
    isOk (runTree twoEntries.2 224 (coreAccess s) none (do
      let _ ← getLive 0
      let i ← walkPath 0 []
      getNode i) fun _ => []) = true ∧
    0 < (poolOf s 224 (coreAccess s)).ns / 8 ∧ descendPool (upar q 192 4) (upar q 192 6) q 192 = some 224 ∧
    isOk (runTree q 224 (coreAccess q) (some 0) ask fun v => asLines 64 (resultBytes 4 v)) = true ∧
    isOk (runTree q 224 (coreAccess q) (some 0) ask fun _ => []) = true := by decide +kernel

/-- Units of the generation loop of graph 0, enabled, with tables of zeros; TEMP and TOPP are 1.0. -/
def selUnit (sel : Nat) (s : State) : State :=
  withUnit 512 [(0, 1 + 2 ^ 4 * sel + 2 ^ 8 * (if sel = 0 then 11 else 15)), (4, 0x3F800000), (5, 0x3F800000), (7, 1 + 2 ^ 16)] s
def acceptUnit (s : State) : State := withUnit 544 [(0, 1 + 2 ^ 8 * 11), (6, 1)] s
def pkUnit (s : State) : State := withUnit 240 [(0, 1), (5, 2 + 2 ^ 16 * 1 + 2 ^ 24 * 3 + 2 ^ 28 * 2), (7, 64)] s
def gmUnit (s : State) : State := withUnit 560 [(0, 1), (6, 4096), (7, 16 + 2 ^ 32 + 2 ^ 40 * 4)] s

theorem test_witness_GenerationWordsComplete :
    let s := gmUnit (pkUnit (acceptUnit (selUnit 0 (inStage id [(1, 64), (2, 128)]))))
    let d := drawFrom s (coreAccess s) 512 0 [0, 0, 0]
    ([.smpdrawSample h0 4 1 0 512, .smpdrawVerify h0 4 1 0 2 512, .acpt h0 4 1 0 0 544, .pklook h0 4 1 2 0 240, .gmstep h0 4 0 560] :
      List Instr).all (runs s) = true ∧
    ([512, 544, 240, 560].all fun u => isOk (unitReady s u)) = true ∧ drainBeats s 512 = 3 ∧ isOk (readBeats s 64 3) = true ∧ isOk d = true ∧
    (match d with | .ok (x, e, v) => isOk (coreLines v 128 ((verifyObject 1 x e).1.flatMap lineBytes)) | _ => false) = true ∧
    acceptBeats s 544 = 3 ∧ isOk (draftOf s 544 0) = true ∧ isOk (acceptOf s 544 [0, 0, 0] 0 0) = true ∧
    (match pkLookup s (coreAccess s) 240 (List.replicate 8 0) 0 with
      | .ok (k, v) => isOk (coreLines v 128 ((k.out ++ k.ix.map (BitVec.ofNat 32) ++ k.w).flatMap fun v => natBytes v.toNat 4))
      | _ => false) = true ∧
    isOk (gmTake s (coreAccess s) 560 0) = true := by decide +kernel

/-- Tokens: an index, a beat of zeros, and a drain beat. -/
def index (n : Nat) : Token := scalarTok 11 n
def beat0 : Token := beatTok 15 0

/-- The pool with two entries as units of the graph see it, with the given tokens at a unit that is enabled. -/
def fabric (u tag : Nat) (ps : List (Nat × Nat)) (a b : List Token) (s : State) : State :=
  withTokens u 0 a (withTokens u 1 b (withUnit u ((0, 1 + 2 ^ 8 * tag) :: ps) s))

/-- A query of four FP16 zeros, and an entry. -/
def halves (n : Nat) : List Token := List.replicate n (scalarTok 1 0)

theorem test_witness_TreeUnitsFire :
    let score := fabric 0 0 [(4, 224)] (halves 4) [index 0] twoEntries.2
    let append := fabric 224 11 [] [index 0] (halves 8) twoEntries.2
    let bound := fun (p : Option Nat) (n : Nat) => modUnit (fabric 192 0 [(4, 224), (68, 224), (70, 0)] [index 0] (halves 4)
      (withUnit 0 [(5, 192 + 2 ^ 15)] twoEntries.2)) 192 fun q => { q with pin := p, count := n }
    let acc := unitAccess score 0
    isPool (upar score 0 4) = true ∧ (upar score 0 5).testBit 15 = false ∧ gives (takeHalves (poolOf score 224 acc).d (inPort score 0 0)) = true ∧
    gives (takeScalar 11 (inPort score 0 1)) = true ∧ 0 < (poolOf score 224 acc).cap ∧ mayFire score 0 .score = true ∧
    isOk (runTree (served score 224) 224 (unitAccess (served score 224) 0) none (getLive 0) fun _ => []) = true ∧
    gives (takeScalar 11 (inPort append 224 0)) = true ∧ gives (takeHalves 8 (inPort append 224 1)) = true ∧ mayFire append 224 .treeupd = true ∧
    isOk (runEdit append 224 (unitAccess append 224) none 0 (do
      let e ← takeEntry 4 (halfBytes (List.replicate 8 0))
      treeAppend 0 e)) = true ∧
    (opUnit (bound (some 0) 0) 192).pin = some 0 ∧ mayFire (bound (some 0) 0) 192 .descend = true ∧ pinnedPool (bound (some 0) 0) 192 = 224 ∧
    gives (takeHalves 4 (inPort (bound none 0) 192 1)) = true ∧
    isOk (runTree (bound (some 0) 0) 224 (unitAccess (bound (some 0) 0) 192) none (do
      let q ← takeQuery 4 (halfBytes [0, 0, 0, 0])
      treeQuery 0 q 0 0) fun _ => []) = true ∧
    descendPool (upar (bound none 0) 192 4) (upar (bound none 0) 192 6) (bound none 0) 192 = some 224 ∧ (opUnit (bound none 0) 192).pin = none ∧
    isOk (runTree (served (bound none 0) 224) 224 (unitAccess (served (bound none 0) 224) 192) none (incRef 0) fun _ => []) = true ∧
    unitKind 192 = .descend ∧ (opUnit (bound (some 0) 1) 192).count = 1 ∧ (opUnit (bound (some 0) 1) 192).retry = none ∧
    isOk (runTree (bound (some 0) 1) 224 (unitAccess (bound (some 0) 1) 192) none (dropRef treeFuel 0 none) fun _ => []) = true := by decide +kernel

/-- A cell in each of its phases with the token that it takes; draws, acceptances, lookups and grammar steps. -/
theorem test_witness_GenerationUnitsFire :
    let s := inStage id []
    let cell := fun (ctl : Nat) (p : Phase) (a b : List Token) => modUnit (fabric 256 15 [(4, ctl), (5, 2)] a b s) 256 fun q => { q with phase := p }
    let header := cell 7 .header [beat0] []
    let logit := cell 3 .collect [scalarTok 0 0] []
    let next := cell 0 .collect [beat0] []
    let ends := cell 2 .collect [marker] []
    let drain := cell 0 .drain [] [marker]
    let passes := cell 0 .drain [] [beat0]
    let select := fun sel => withTokens 512 0 (List.replicate 3 beat0) (withTokens 512 1 [index 0] (selUnit sel s))
    let accept := withTokens 544 0 (List.replicate 3 beat0) (withTokens 544 1 [index 0] (withTokens 544 2 [index 0] (acceptUnit s)))
    let key := withTokens 240 0 (halves 8) (withTokens 240 1 [index 0] (pkUnit s))
    let step := withTokens 560 1 [index (2 ^ 31)] (gmUnit (poke 4096 8 1 s))
    let mask := modUnit (withTokens 560 0 [scalarTok 0 0] (gmUnit s)) 560 fun q => { q with phase := .mask }
    cellPhase header 256 = .header ∧ cellPhase logit 256 = .collect ∧ cellHead logit 256 = true ∧ cellPhase next 256 = .collect ∧
    cellHead next 256 = false ∧ isMarker marker = true ∧ cellPhase ends 256 = .collect ∧ cellPhase drain 256 = .drain ∧ cellPhase passes 256 = .drain ∧
    ([header, logit, next, ends, drain, passes].all fun t => mayFire t 256 .cascell) = true ∧ gives (takeOne 0 [scalarTok 0 0]) = true ∧
    ([0, 1].all fun sel => mayFire (select sel) 512 .cumsel && ctlSel (select sel) 512 == sel &&
      gives (takeBeats (drainBeats (select sel) 512) (inPort (select sel) 512 0)) && gives (takeScalar 11 (inPort (select sel) 512 1)) &&
      isOk (drawFrom (select sel) (unitAccess (select sel) 512) 512 0 [0, 0, 0])) = true ∧
    mayFire accept 544 .accept = true ∧ gives (takeBeats (acceptBeats accept 544) (inPort accept 544 0)) = true ∧
    isOk (acceptOf accept 544 [0, 0, 0] 0 0) = true ∧
    mayFire key 240 .pkey = true ∧ gives (takeHalves (pkD key 240) (inPort key 240 0)) = true ∧
    isOk (pkLookup key (unitAccess key 240) 240 (List.replicate 8 0) 0) = true ∧
    mayFire step 560 .grammar = true ∧ (opUnit step 560).phase ≠ .mask ∧ gives (takeScalar 11 (inPort step 560 1)) = true ∧
    (match gmTake step (unitAccess step 560) 560 (2 ^ 31) with | .ok (b, _) => b | _ => false) = true ∧
    (match gmTake step (unitAccess step 560) 560 0 with | .ok (b, _) => !b | _ => false) = true ∧
    (opUnit mask 560).phase = .mask ∧ gives (takeOne 0 (inPort mask 560 0)) = true ∧
    max (0 + 1) (min (0 + 1) (gmVocab mask 560)) = 1 ∧
    isOk (readLines mask (unitAccess mask 560) ((maskBase mask 560 + 64) % 2 ^ 64) 1) = true := by decide +kernel

/-- A tile header of two rows of 64 bytes from address 0, with 8-bit indices. -/
def tile0 : Line := BitVec.ofNat 512 (2 ^ 80 + 2 ^ 96 * 2)

/-- GATHER before and in a tile, a row in flight, and REDUCE, QUANT and SWITCH with their inputs. -/
theorem test_witness_FabricUnitsFireAndTokensMove_units :
    let s := inStage id []
    let idle := fabric 576 15 [] [beatTok 15 tile0] [] s
    let inTile := modUnit idle 576 fun q => { q with tile := some (tile0, 0) }
    let flight := modUnit idle 576 fun q => { q with rows := [⟨0, 64, 64, [], none, none, none, 0⟩] }
    let sum := fabric 640 0 [(4, 0), (5, 3)] [scalarTok 0 1] [scalarTok 0 2] s
    let quant := fabric 704 6 [] (List.replicate 4 beat0) [] s
    let steer := fun sel => withUnit 736 [(0, 1 + 2 ^ 4 * sel + 2 ^ 8 * 15)] (withTokens 736 0 [beat0] (withTokens 736 1 [index 1] s))
    tileOk tile0 = true ∧ convertible 15 15 = true ∧ mayFire idle 576 .gather = true ∧ (opUnit idle 576).tile = none ∧
    mayFire inTile 576 .gather = true ∧ (tileTarget tile0 (tileIndex tile0 tile0 0)).1 < 24 ∧ (opUnit inTile 576).rows.length < 64 ∧
    (opUnit flight 576).rows[0]? = some ⟨0, 64, 64, [], none, none, none, 0⟩ ∧
    isOk (readRow flight { unitAccess flight 576 with ctx := { (unitAccess flight 576).ctx with root := 0 } } (bits (upar flight 576 4) 0 2) 0 64 1) = true ∧
    reduceOk sum 640 = true ∧ joinedPorts sum 640 = [0, 1] ∧ isOk (takeJoined (fresh sum).2 640 0 [0, 1]) = true ∧ mayFire sum 640 .reduce = true ∧
    mxTag (ctlTag quant 704) = true ∧ gives (takeMany 0 (32 * mxBlocks 6) 64 [] (inPort quant 704 0)) = true ∧ mayFire quant 704 .quant = true ∧
    ([0, 1, 2].all fun sel => mayFire (steer sel) 736 .switch && ctlSel (steer sel) 736 == sel && (headUnit (inPort (steer sel) 736 0)).isSome) = true ∧ mergePort (steer 1) 736 = some 0 := by
  decide +kernel

/-- A token at the output of unit 0 and at an output converter, with routes to units and to an input converter. -/
theorem test_witness_FabricUnitsFireAndTokensMove_tokens :
    let unit := modUnit (withUnit 0 [(2, 2 ^ 15 + 736)] (inStage id [])) 0 fun q => { q with out := [(0, scalarTok 0 5)] }
    let conv := modConv (inStage (loaded [.route 0 true 0 (2 ^ 15 + 736)]) []) 0 fun c => { c with latch := [scalarTok 0 5] }
    let into := modUnit (withUnit 0 [(2, 2 ^ 15 + 2 ^ 14 + 1)] (inStage id [])) 0 fun q => { q with out := [(0, scalarTok 0 5)] }
    (opUnit unit 0).out = [(0, scalarTok 0 5)] ∧ routeV (upar unit 0 2) = true ∧ routeConv (upar unit 0 2) = false ∧
    portRoom unit (routeDest (upar unit 0 2)) (routePort (upar unit 0 2)) = true ∧ agentOk (.unitTokenEmit 0) = true ∧
    (Machine.conv conv 0).latch = [scalarTok 0 5] ∧ routeV (convRoute conv 0) = true ∧ routeConv (convRoute conv 0) = false ∧
    portRoom conv 736 0 = true ∧ agentOk (.converterTokenIn 63) = true ∧
    (routedInto into 1).map (fun p => p.1) = some (scalarTok 0 5) ∧ convRoom (Machine.conv into 1) (scalarTok 0 5) = true := by decide +kernel

/-- Targets of jumps that name a word and that do not, a branch that is taken and not, and HALT under INH. -/
theorem test_witness_BranchesJumpsAndStops :
    let s := inStage id [(1, 5), (2, 2 ^ 63)]
    ([.br h0 7, .jal h0 3 7, .jalr h0 3 1 0, .bc h0 1 1 0 0 7, .bc h0 1 2 0 0 7, .nop h0, .halt h0] : List Instr).all (runs s) = true ∧
    (core s 0).pc = 0 ∧ (core s 0).inh = false ∧ (0 : Int) ≤ 0 + (7 : BitVec 32).toInt ∧ (0 : Int) + (-1 : BitVec 32).toInt < 0 ∧
    ((xval s 1).toNat : Int) < 6 * 2 ^ 51 ∧ ¬((xval s 2).toNat : Int) < 6 * 2 ^ 51 ∧ xval s 1 = xval s 1 ∧ xval s 1 ≠ xval s 2 ∧
    (core (modCore s 0 fun k => { k with inh := true }) 0).inh = true ∧
    ([.nop h0, .frame h0] : List Instr).all (runs (inElem 0 0 id)) = true := by decide +kernel

/-- A stagehand whose handler's line is supplied, with INH 0 and 1. -/
def handler (inh : Bool) (c : Nat) (s : State) : State :=
  modCore s c fun k => { k with tvec := 2 ^ 63 + 6, inh := inh, supplied := [(64, List.replicate 64 0)] }

theorem test_witness_TrapsSaveAndEnterAndReturn :
    let s := handler false 0 (inStage id [])
    let t := handler true 0 (inStage id [])
    (core s 0).tvec.getLsbD 63 = true ∧ (core s 0).inh = false ∧
    (match fetchWord s 0 ((core s 0).tvec.toNat % 2 ^ 54) with | (_, .ok _) => true | _ => false) = true ∧
    (core (inStage id []) 0).tvec.getLsbD 63 = false ∧ (core t 0).inh = true ∧ runs s (.trap h0 255) = true ∧
    runs (inElem 0 0 id) (.trap h0 255) = true ∧ runs t (.eret h0) = true ∧ runs s (.eret h0) = true := by decide +kernel

theorem test_witness_AsynchronousEventsAndTheManager :
    let e := mkEvent State.reset 0x60 5 0 0 0
    let s := modCore (handler false 32 (inManager id [])) 32 fun k => { k with events := [e], ien := true }
    let t := modCore (handler false 0 (inStage id [])) 0 fun k => { k with events := [e], ien := true }
    takesEvent (core s 32) 32 = true ∧ (core s 32).events = [e] ∧ takesEvent (core t 0) 0 = true ∧ agentOk (.asyncEventTake 32) = true ∧
    (core s 32).tvec.getLsbD 63 = true ∧ (match fetchWord s 32 ((core s 32).tvec.toNat % 2 ^ 54) with | (_, .ok _) => true | _ => false) = true ∧
    (core State.reset 32).tvec.getLsbD 63 = false ∧ (core (handler true 32 State.reset) 32).inh = true := by decide +kernel

theorem test_witness_CommitGroupWords :
    ([.xbegin h0, .xend h0 1, .xabort h0 1] : List Instr).all (runs (inStage id [])) = true ∧
    ([.xbegin h0, .xend h0 1, .xabort h0 1] : List Instr).all (runs (inManager id [])) = true ∧ myGraph (inManager id []) = none ∧
    ([0, 1, 2, 3].all fun st => (myGraph (inStage (fun g => { g with group := { g.group with state := st } }) [])).any
      fun g => g.group.state == st) = true ∧
    groupedLeft (inStage id []) 0 = false ∧
    groupedLeft (ported [{ command0 0 0 true false with grouped := true }] none Stream.idle (inStage id [])) 0 = true := by decide +kernel

theorem test_witness_ClockPredicateAndCacheWords :
    let s := inStage id [(1, 4096), (2, 2 ^ 32), (3, 64)]
    let m := inManager id [(1, 31), (2, 2 ^ 57)]
    let tile := poke 4096 16 (2 ^ 80 + 2 ^ 96 * 2)
    let dirty := performLine s 64 ⟨0, 0, false⟩ [(0, 1)] 0 0 0 false
    ([.phcrd h0 3 4, .vcset h0 60 1, .vcset h0 60 2, .tqset h0 59 1, .tqset h0 53 0, .tqtest h0 3 52, .ifence h0, .clean h0 1 0 0, .inval h0 1 0 0,
      .shadow h0 1 1 0 0 7, .unshadow h0 0 7] : List Instr).all (runs s) = true ∧
    ([.tlbinvAll h0, .tlbinvAsid h0 1, .tlbinvAddress h0 1 1, .shadow h0 2 0 0 0 0, .unshadow h0 1 7] : List Instr).all (runs m) = true ∧
    [none, some (contribution 0)].map (fun c => translatedOpen (modDie m fun d => { d with reds := c.toList }) fun _ => true) = [false, true] ∧
    (xval s 1).toNat < 2 ^ 32 ∧ 2 ^ 32 ≤ (xval s 2).toNat ∧ maps s (coreCtx s 0) .read 4096 = true ∧ maps dirty (coreCtx dirty 0) .read 4096 = true ∧
    (l2get dirty 64).map L2Line.dirty = some true ∧ (l2get s 64).isNone = true ∧
    (xval s 1).toNat < 2 ^ 57 ∧ (xval m 2).toNat < 2 ^ 62 ∧ (xval m 1).toNat < 32 ∧
    (match coreRead (tile s) 4096 64 0 15 0 with | .ok (bs, _) => tileOk (bytesLine bs) | _ => false) = true := by decide +kernel

/-- Registers named in each context; writes that are done, of reserved bits, of read-only registers, of a stagehand's own root; and
numbers that fault. -/
theorem test_witness_SystemRegisterWords :
    let s := inStage id [(1, 5), (2, 2 ^ 63)]
    let m := inManager id [(1, 5), (2, 2 ^ 63)]
    ([.mfsr h0 3 0, .mfsr h0 3 0x20] : List Instr).all (runs (inElem 0 0 id)) = true ∧
    [s, m].all (fun u => ([.mfsr h0 3 0x20, .ufinfoRead h0 3 0x20, .ucfgRead h0 3 0x20, .mtsr h0 1 0x20, .istartFreshStart h0 0x20 1,
      .istartResume h0 0x20 1, .istartCancel h0 0x20 1, .eflagsClear h0 0x20 1, .lqstatClearDrops h0 0x20 1, .shctlRun h0 0x20 1,
      .shctlFreeze h0 0x20 1, .shctlReset h0 0x20 1] : List Instr).all (runs u)) = true ∧
    srOf (kindOf s) (myCore s) 0x20 = .ok (.fflags 0) ∧ srReadOnly (.fflags 0) = false ∧ xval s 1 &&& srReserved (.fflags 0) = 0 ∧
    isOk (srWrite s (.fflags 0) 5) = true ∧ xval s 2 &&& srReserved (.fflags 0) ≠ 0 ∧
    srOf (kindOf s) (myCore s) 0x30 = .ok (.ufinfo 0) ∧ srReadOnly (.ufinfo 0) = true ∧
    kindOf s = .stage ∧ srOf (kindOf s) (myCore s) 0x60 = .ok (.asroot 0) ∧ srReadOnly (.asroot 0) = false ∧
    srOf (kindOf s) (myCore s) 0xA00 = .error 0x01 ∧ srOf (kindOf m) (myCore m) 0x10 = .error 0x03 := by decide +kernel

/-- Values without and with reserved bits. -/
theorem test_witness_SystemRegistersHoldWhatIsWritten :
    ([.inv 0 0, .inv 31 5, .fflags 32, .rsbase 0, .sctr 0, .codec 33 2, .asroot 3, .rtybase, .xattr, .trap 0 0, .trap 0 2, .lqage, .lqcfg 63,
      .lqwd 0] : List Sr).all (fun r => (0 : X) &&& srReserved r == 0) = true ∧ (~~~(0 : X)) &&& srReserved .rtybase ≠ 0 := by decide

/-- Numbers that name a register, and that name none; and which each context may access. -/
theorem test_witness_SystemRegisterPrivileges :
    (srOwn 0 0x41).isSome = true ∧ (srFar 0x41).isSome = false ∧ (srOwn 0 0x843).isSome = false ∧ (srFar 0x843).isSome = true ∧
    (srOwn 32 0x17).isSome = false ∧ (srFar 0xFFF).isSome = false ∧ (srOwn 0 0x16).isSome = true ∧ (srOwn 0 0).isSome = true := by decide
/-- An image whose graph no graph of the die resembles, of region 1 alone. -/
def image1 : SaveImage :=
  { id := 5, step := (die State.reset).stepping, graph := { graph0 with gid := 9, mask := 2 }, regions := [(1, Region.reset)],
    cores := [(1, Core.reset)], units := [], convs := [], streams := [] }

/-- Descriptors of 0, an image of one UNIT record, graphs in each state of SHRINK, and saved images that fit and that do not. -/
theorem test_witness_LaunchAndGraphWords :
    let s := inStage id [(1, 4096), (2, 70)]
    let m := inManager id [(1, 0), (2, 0), (3, 4096), (4, 70), (5, 8192)]
    let l := loaded [.region 0 1 true [] []]
    let framed := fun (f : Graph → Graph) => modRegion (inManager f [(1, 0), (2, 1)]) 0 fun r => { r with framed := true }
    let unit := poke 4096 16 (3 + 2 ^ 32 * 5) s
    let opened := modQueue (inStage id [(1, 4096), (2, 7)]) 7 fun k => { k with cfg := 64 }
    let stored := fun (g : Nat) => poke 8192 64 (1 + 2 ^ 320 * 5) { m with images := [{ image1 with regions := [(g, Region.reset)] }] }
    let words : List Instr := [.launch h0 3 1 2, .tlaunch h0 3 1 2, .shrink h0 6 1 2, .shrinkQuery h0 6 1 2, .wdogRestart h0 6 1,
      .wdogReport h0 6 1, .wdogNextStep h0 6 1, .wdogSuspend h0 6 1, .csave h0 6 1 2 9, .crest h0 6 5]
    words.all (runs m) = true ∧ ([.launch h0 3 1 2, .tlaunch h0 3 1 2, .loadcfg h0 1, .reconf h0] : List Instr).all (runs s) = true ∧
    isOk (coreRead m (xval m 1).toNat 64 0 15 0) = true ∧ descriptorOk 0 = true ∧
    (queue opened (xval opened 2).toNat).cfg.getLsbD 6 = true ∧ isOk (coreRead opened (xval opened 1).toNat 64 0 15 0) = true ∧
    64 ≤ (xval s 2).toNat ∧
    myGraph unit = some graph0 ∧ graph0.load = none ∧ loading unit 0 = false ∧ (xval unit 1).toNat % 64 = 0 ∧
    (match readImage unit graph0 4096 with | .ok (i, _) => i == ⟨[.unit 5], []⟩ | _ => false) = true ∧
    (myGraph (inStage l [])).any (fun g => g.load.isSome) = true ∧
    ownerOf (framed l) 0 = some (l graph0) ∧ (markedRegions (framed l) 0).isEmpty = false ∧ (l graph0).load ≠ none ∧
    selectUnder (l graph0) 0 = some 0 ∧ (markedRegions m 0).isEmpty = true ∧ graph0.pending = none ∧ graph0.shrunk = false ∧
    (ownerOf (inManager (fun g => { g with pending := some 0 }) []) 0).any (fun g => g.pending == some 0) = true ∧
    (ownerOf (inManager (fun g => { g with shrunk := true }) []) 0).any (fun g => g.pending.isNone && g.shrunk) = true ∧
    (xval m 2).toNat % 4096 = 0 ∧ (die m).save = none ∧ (die (modDie m fun d => { d with save := some ⟨0, 0, 0, 0⟩ })).save ≠ none ∧
    [1, 0].map (fun g => match coreRead (stored g) 8192 64 0 15 0 with
      | .ok (bs, t) => (t.images.find? fun i => i.id == bits (bytesNat bs) 320 64).map fun i =>
          (bytesNat bs % 2 ^ 64, i.step == (die t).stepping, restoreFits t i)
      | _ => none) = [some (1, true, true), some (1, true, false)] ∧
    [1, 65].map (fun n => let u := poke (dumpBase - 4096) 64 (1 + 2 ^ 64 * (64 * n) + 2 ^ 320 * 5) { m with images := [image1] }
      match coreRead u (dumpBase - 4096) 64 0 15 0 with
      | .ok (bs, t) => some (isOk (readLines t (coreAccess t) (dumpBase - 4096) (bits (bytesNat bs) 64 64 / 64)))
      | _ => none) = [some true, some false] ∧
    isOk (coreRead m (2 ^ 39) 64 0 15 0) = false ∧ ownerOf m 31 = none ∧ selectUnder (l graph0) 1 = none := by decide +kernel
/-- The table at 2^20 with the pool on, slot 3's record with a STATE and a PINKB of 2, and an argument block at 4096 with PINKB `k` and
SPILL 2^21. -/
def slotted (st k : Nat) (s : State) : State :=
  poke 4096 128 (4 * k + 2 ^ 640 * 2 ^ 21) (poke (2 ^ 20 + 3 * 128) 128 (st + 4 * 2 + 2 ^ 640 * 2 ^ 22)
    (modDie s fun d => { d with sctbase := 2 ^ 20, sctctl := 1 }))

/-- An open entry of slot 5. -/
def entry0 (who : Requester) (acc va : Nat) : Retry :=
  { slot := 5, who := who, acc := acc, va := va, size := 8, root := 0, index := false, popped := false }

/-- Slots in each state with a run of granules and with none; entries that are open, popped, and of a read and a page that is gone. -/
theorem test_witness_SlotAndRetryWords :
    let m := inManager id [(1, 3), (2, 4096), (3, 5)]
    let full := fun (s : State) => modDie s fun d => { d with granules := [(9, 0, 131072)] }
    let ring := fun (e : Retry) => modDie m fun d => { d with retry := [e] }
    let e := entry0 (.core 0) 0 4096
    let gone := entry0 (.core 0) 0 (2 ^ 39)
    let read := fun (e : Retry) => translate (ring e) (requesterCtx (ring e) e) (entryAcc e) e.va
    let words : List Instr := [.sslotBind h0 4 1 2, .sslotRefresh h0 4 1 2, .sslotEvict h0 4 1, .rtypop h0 4, .rtywSupply h0 4 3 2, .rtywReplay h0 4 3 2]
    words.all (runs m) = true ∧ groupOpen m = false ∧ xval m 1 = 3 ∧
    [0, 1, 2, 3].all (fun st => poolOn (slotted st 1 m) && recState (slotRec (slotted st 1 m) 3) == st &&
      match slotArg (slotted st 1 m) 2 with
        | .ok (v, t) => recState (slotRec t 3) == st && recPinkb v == 1 && isOk (spillOf (askRecord t 3) (recSpill v)) &&
            ((freeRun (die (askRecord t 3)).granules (recPinkb v)).any fun first => mayMove (askRecord t 3) first 1 true &&
              !mayMove ((granuleNodes first 1).foldl (fun s q => takeNode s q.1 q.2 true true) (askRecord t 3)) first 1 true)
        | _ => false) = true ∧
    (let e := modDie (slotted 1 1 m) fun d => { d with granules := [(3, 0, 1)] }
     mayMove e (slotGranules e 3).1 (slotGranules e 3).2 false && !mayMove (takeNode e 0 0 false true) 0 1 false) = true ∧
    (match slotArg (full (slotted 3 1 m)) 2 with
      | .ok (v, t) => (freeRun (die (askRecord t 3)).granules (recPinkb v)).isNone
      | _ => false) = true ∧
    groupOpen (inManager id []) = false ∧ poolOn (slotted 1 1 (inStage (fun g => { g with group := { g.group with state := 1 } }) [(2, 4096)])) = true ∧
    groupOpen (slotted 1 1 (inStage (fun g => { g with group := { g.group with state := 1 } }) [(2, 4096)])) = true ∧
    isOk (slotArg (slotted 1 1 (inStage (fun g => { g with group := { g.group with state := 1 } }) [(2, 4096)])) 2) = true ∧
    runs (inStage (fun g => { g with group := { g.group with state := 1 } }) [(2, 4096)]) (.sslotRefresh h0 4 1 2) = true ∧
    (die m).retry = [] ∧ ((die (ring e)).retry.find? fun r => r.slot == 5) = some e ∧ ((die (ring e)).retry.find? fun r => !r.popped) = some e ∧
    e.acc ≠ 1 ∧ isOk (coreRead (ring e) (xval m 2).toNat 64 0 15 0) = true ∧
    (match (read e).2 with | .ok x => reachable x.pa e.size | _ => false) = true ∧
    [Requester.window 0 0 0 0, .held 0 64, .amo 0, .port 0 0, .gather 0, .opUnit 0].all (fun who => isOk (read (entry0 who 0 4096)).2) = true ∧
    (match (read gone).2 with | .error (.page _) => true | _ => false) = true := by decide +kernel
/-- An access of four bytes, with or without its data, on the retry ring, or at fault. -/
def access0 (data : Option (List Byte)) (retry : Option Nat) (fault : Option Code) : Access := ⟨4096, 4, data, retry, fault, none⟩

/-- A window of element (0, 0) of region 0, due in region cycle 0. -/
def window0 (a : Access) : Window := ⟨0, 0, 0, 3, .scalar 11, 0, 0, [a], [], 0, 11, 0, false⟩

/-- Stagehand 0 executes with region 0 in a state of its kernel. -/
def inRegion (f : Graph → Graph) (g : Region → Region) : State := modRegion (inStage f []) 0 g

/-- Region 0 with a window open, in a state of its kernel. -/
def windowed (st : BitVec 3) (w : Window) (r : Region) : Region :=
  { r with state := st, ii := 1, inv := some inv0, elems := vmod r.elems 0 fun e => { e with wins := [w] } }

/-- A region in each state that a write of ISTART takes; windows that fill, close, miss and fault; and a freeze, an end, a cue, an
installation and a token that are due. -/
theorem test_witness_InvocationsStartFillAndEnd :
    let st := fun (n : BitVec 3) => inRegion id fun r => { r with state := n, inv := some inv0 }
    let empty := window0 (access0 none none none)
    let has := window0 (access0 (some [1, 2, 3, 4]) none none)
    let late := window0 (access0 none (some 3) none)
    let bad := window0 (access0 none none (some 0x21))
    let sees := fun (w : Window) => windowAt (inRegion id (windowed 1 w)) 0 0 0 = some w
    let frozen := { inRegion id (fun r => { windowed 2 late r with freezeStart := some 0, frzlim := 1, rc := 3 }) with clock := 1 }
    let held : HoldEntry := ⟨64, [⟨0, 0, 0, 0, 0, 0, [1, 2, 3, 4], 11, 0, none, none, some 3, 0, none, none⟩]⟩
    let past := fun (r : Region) => { r with state := 1, ii := 1, inv := some inv0, rc := 20, endStart := some 0, frzlim := 1, cursor := 129 }
    let delayed := { inRegion id (fun r => { past r with hold := [held] }) with clock := 1 }
    let shut := inRegion id (windowed 1 { has with closed := true })
    let ended := inRegion id fun r => { r with state := 1, ii := 1, inv := some inv0, rc := 20 }
    let cue := fun (l : Graph) => { l with cueAt := some 0 }
    let under := loaded []
    let at8 := fun (f : Graph → Graph) => { inStage f [] with clock := 8 }
    let pending := fun (g : Graph) => { under g with cueAt := some 0, pending := some 0 }
    (0 ∉ extents (region State.reset 0).iext ∧ extentProduct (region State.reset 0).iext ≤ 2 ^ 31 ∧ 0 < extentProduct (region State.reset 0).iext) ∧
    0 ∈ extents (region (inRegion id fun r => { r with iext := 0 }) 0).iext ∧
    ([0, 3, 4] : List (BitVec 3)).all (fun n => (region (st n) 0).state == n && (region (st n) 0).inv == some inv0 && !(region (st n) 0).framePending) = true ∧
    (sees empty ∧ sees has ∧ sees late ∧ sees bad) ∧ agentOk (.windowDataArrival 0 0 0) = true ∧ agentOk (.windowClose 0 0 0) = true ∧
    isRunning (region (inRegion id (windowed 1 has)) 0) = true ∧ has.close ≤ (region (inRegion id (windowed 1 has)) 0).rc ∧
    windowFault has = none ∧ windowFull has = true ∧
    has.closed = false ∧ bad.closed = false ∧ empty.closed = false ∧ (elemAt shut 0 0).wins = [{ has with closed := true }] ∧
    (List.range 128).all (fun k => k == 0 || (elemAt shut 0 k).wins.all fun x => !x.closed) = true ∧
    isOk (applyFx (modElem shut 0 0 fun x => { x with wins := [] }) 0 0 0 0 (windowValue { has with closed := true })) = true ∧
    windowFull empty = false ∧ windowPaged empty = false ∧ windowFault empty = none ∧ windowFault bad = some 0x21 ∧
    agentOk (.freezeLimit 0) = true ∧ limitDue frozen 0 = true ∧ freezeDue frozen 0 = true ∧ limitDue delayed 0 = true ∧ delayDue delayed 0 = true ∧
    (region ended 0).faults = [] ∧ regionGroupOpen ended 0 = false ∧ heldReds (region ended 0) = [] ∧
    isRunning (region ended 0) = true ∧ (region ended 0).cursor = 0 ∧ wordsDone (region ended 0) = true ∧ storesDone (region ended 0) = true ∧
    openContribution (releaseHold ended 0) (ofElems 0) = none ∧ (region (releaseHold ended 0) 0).framePending = false ∧
    graph? (at8 cue) 0 = some (cue graph0) ∧ cueDue (at8 cue) (cue graph0) = true ∧ switchFits (at8 cue) (cue graph0) = false ∧
    agentOk (.cueRelease 0) = true ∧ graph? (at8 pending) 0 = some (pending graph0) ∧ cueDue (at8 pending) (pending graph0) = true ∧
    switchFits (at8 pending) (pending graph0) = true ∧ drained (at8 pending) 0 = true ∧ (configOf (pending graph0) 0).isSome = true ∧
    (core (modCore (inStage id []) 0 fun k => { k with wait := .load ⟨[], []⟩ }) 0).wait = .load ⟨[], []⟩ ∧
    (region (inStage id []) 0).owner = some 0 ∧
    0 ∈ graphRegions (inStage id []) 0 ∧ (core (modCore (inStage id []) 0 fun k => { k with wait := .reconf }) 0).wait = .reconf ∧
    drained (modCore (inStage id []) 0 fun k => { k with wait := .reconf }) 0 = true := by decide +kernel

/-- A region that has met a fault, and a discarded one that has met another since. -/
theorem test_witness_InvocationsStartFillAndEnd_discard :
    let faulted := inRegion id fun r => { r with state := 1, ii := 1, inv := some inv0, rc := 20, faults := [⟨0, 1, 2, 0, 0x21, 0⟩] }
    let again := inRegion id fun r => { r with state := 3, inv := some inv0, faults := [⟨0, 1, 2, 0, 0x21, 0⟩] }
    reported (region faulted 0).faults = some ⟨0, 1, 2, 0, 0x21, 0⟩ ∧ groupRegions faulted 0 = [0] ∧ againRegions again 0 = [0] ∧
    (region (completeBefore (passMarks faulted 0 (cutCycle (region faulted 0))) 0 (cutCycle (region faulted 0))) 0).inv.isSome = true ∧
    (region (judged again 0) 0).inv.any (fun v => decide (v.first < v.count)) = true ∧ (region (judged again 0) 0).framePending = false ∧
    (core faulted 0).ien = false := by decide +kernel

/-- The head of queue 0 launches the graph whose header at 4096 names region 0. -/
def launch0 : Launch := { desc := 4096, since := 0, ready := none }
def launchable : State :=
  modQueue (poke 4096 8 (2 ^ 63 + 6) (modDie State.reset fun d => { d with tlb := [leaf0] })) 0 fun k => { k with cfg := 16, entries := [{ launch0 with ready := some 0 }] }

/-- A graph whose stagehands have halted, and whose watchdog is due in each of its steps. -/
theorem test_witness_GraphsStartEndAndAreWatched :
    let popped := modQueue launchable 0 fun k => { k with entries := k.entries.drop 1 }
    let ended := modCore (inStage id []) 0 fun k => { k with run := .halted }
    let grouped := fun (g : Graph) => { g with group := { g.group with state := 1 } }
    let late := fun (n : Nat) (g : Graph) => { g with wdStep := n, wdCycles := 4097 }
    let watched := fun (n : Nat) => modQueue (inStage (late n) []) 0 fun k => { k with wd := 1 + 2 ^ 20 + 2 ^ 40 }
    agentOk (.graphStart 0) = true ∧ mayStart launchable 0 = true ∧ readyHead launchable 0 = some { launch0 with ready := some 0 } ∧
    (match readHeader popped launch0.desc with
      | (_, .ok hdr) => headerMask hdr == 1
      | _ => false) = true ∧
    agentOk (.graphEnd 0) = true ∧ graph? ended 0 = some graph0 ∧ mayEnd ended graph0 = true ∧
    mayEnd (modCore (inStage grouped []) 0 fun k => { k with run := .halted }) (grouped graph0) = true ∧
    graphFrames ended 0 = false ∧ graphFrames (modEth ended 0 fun p => { p with unacked := [⟨0, 0, [0], [], 0, none, []⟩] }) 0 = true ∧
    [0, 1, 2].all (fun n => graph? (watched n) 0 == some (late n graph0) && wdOverdue (watched n) (late n graph0)) = true ∧
    slotSilent (slotted 1 1 (inManager id [])) 3 = true ∧ slotEvicting (slotted 1 1 (inManager id [])) 3 = false ∧
    slotEvicting (beginEvict (slotted 1 1 (inManager id [])) 3) 3 = true := by decide +kernel

/-- Graph 0 is being saved, to an area of 513 pages that the manager's micro-TLB maps. -/
def savedTo (n : Nat) : State :=
  modDie (owned id) fun d => { d with save := some ⟨0, 2 ^ 22, n, 0⟩, utlb := [(64, [leaf0])] }

/-- The image of a graph of one region that has written no granule. -/
theorem imageLines_savedTo (n : Nat)
    (h : graphRegions (savedTo n) 0 = [0] ∧ imageGranules (savedTo n) (region (savedTo n) 0) = []) :
    (imageLines (savedTo n) 0).length = 32831 := by
  simp only [imageLines, h.1, h.2, List.length_append, List.length_replicate, List.length_flatMap,
    List.map_cons, List.map_nil, List.sum_cons, List.sum_nil, Nat.add_zero]

theorem test_witness_GraphsStartEndAndAreWatched_saved :
    (die (savedTo 513)).save = some ⟨0, 2 ^ 22, 513, 0⟩ ∧ graph? (savedTo 513) 0 = some graph0 ∧ saveReady (savedTo 513) graph0 = true ∧
    graph0.group.state ≠ 1 ∧ ∃ t pages,
      savePages (savedTo 513) ⟨0, 2 ^ 22, 513, 0⟩ (((imageLines (savedTo 513) 0).length + 1) / 64) 0 = (t, pages, none) := by
  rw [imageLines_savedTo 513 (by decide +kernel)]
  have h : (savePages (savedTo 513) ⟨0, 2 ^ 22, 513, 0⟩ 513 0).2.2 = none := by decide +kernel
  exact ⟨by decide +kernel, by decide +kernel, by decide +kernel, by decide +kernel, _, _, Prod.ext rfl (Prod.ext rfl h)⟩

/-- The same with an area of one page, which the image passes. -/
theorem test_witness_GraphsStartEndAndAreWatched_stopped :
    (die (savedTo 1)).save = some ⟨0, 2 ^ 22, 1, 0⟩ ∧ graph? (savedTo 1) 0 = some graph0 ∧ saveReady (savedTo 1) graph0 = true ∧
    ∃ t pages, savePages (savedTo 1) ⟨0, 2 ^ 22, 1, 0⟩ (((imageLines (savedTo 1) 0).length + 1) / 64) 0 = (t, pages, some 0x51) := by
  rw [imageLines_savedTo 1 (by decide +kernel)]
  have h : (savePages (savedTo 1) ⟨0, 2 ^ 22, 1, 0⟩ 513 0).2.2 = some 0x51 := by decide +kernel
  exact ⟨by decide +kernel, by decide +kernel, by decide +kernel, _, _, Prod.ext rfl (Prod.ext rfl h)⟩

/-- A zero word with stage 2 in slot 17 of a ring of 32 is a NOP placed at 81, as chapter 8 of the spec places one in row 1; the
other slots hold nothing. -/
theorem test_placed_nop :
    placedPositions { Region.reset with ii := 32, stage := [(32 + 17, 2)] } = [81] ∧
    ringBad [] 0 32 (List.replicate 49 0 ++ [2] ++ List.replicate 206 0) (List.replicate 256 0) = false := by decide +kernel

/-- A running manager takes an escalated fault with the stagehand's word in its TEPC, a halted one with its own (R304, R310). -/
theorem test_manager_tepc :
    let e : Event := { code := 4, src := 6, region := 1, tval := 5, epc := 0x60000, async := false, more := false, job := 0 }
    managerEpc { Core.reset with pc := 9, run := .running } e = 0x60000 ∧ managerEpc { Core.reset with pc := 9, run := .halted } e = 9 := by
  decide +kernel
/-- The module before and after its fatal state, and with a nonce waiting or none. -/
def stopped : State := { State.reset with io := { State.reset.io with fatal := true } }

theorem test_witness_FatalResetAndBringUpEvents :
    MemoryOk State.reset ∧ State.reset.io.fatal = false ∧ State.reset.io.ready = false ∧ stopped.io.fatal = true ∧ State.reset.io.nonce = none ∧
    ({ State.reset.io with nonce := some 7 }).nonce = some (7 : BitVec 256) ∧ 63 < 64 ∧ 23 < 24 := by
  unfold MemoryOk
  decide +kernel

/-- A packet, a link whose wire holds it behind one of another channel, and a port with a frame in sequence. -/
def packet0 (dest : Nat) (chan : VirtualChannel) : Packet := ⟨0, dest, chan, none, natBytes 7 64⟩
def wired (dest : Nat) : State :=
  modLink State.reset 0 fun _ => { Link.idle with wire := [packet0 dest .request, packet0 dest .response] }

/-- Addresses of HBM, of the mailbox and of a launch register, at their edges; packets at their die and on their way, and their blocks;
a frame in and out of sequence; and a block operation. -/
theorem test_witness_HostsPeersLinksAndTime :
    hostReaches 4096 64 = true ∧ place 4096 = .hbm ∧ hostReaches (2 ^ 43 - 8) 8 = true ∧ hostReaches 0x0001000000181000 32 = true ∧
    place 0x0001000000181000 = .mailbox ∧ hostReaches 0x0001000000170FC0 64 = true ∧ place 0x0001000000170FC0 = .launch 23 63 ∧
    Table.wf none (ethAt State.reset 47).ring = true ∧ (ethAt { State.reset with io := { State.reset.io with eth := [(47, { EthPort.idle with again := 2 })] } } 47).again ≠ 0 ∧
    (ethAt State.reset 47).inSeq = 0 ∧ (1 : Nat) ≠ (ethAt State.reset 47).inSeq ∧ linkEnd 0 = 1 ∧
    [1, 5].all (fun dest => [(0, VirtualChannel.request), (1, VirtualChannel.response)].all fun c =>
      vget [] (crossUntil c.1 2 (linkAt (wired dest) 0)).queues c.1 == [packet0 dest c.2]) = true ∧
    (linkAt (wired 1) 0).wire.length = 2 ∧ (packet0 1 .request).block = some 7 ∧
    nonFinite ((List.replicate 64 (0 : Byte)).zipIdx.map fun p => (4096 % 64 + p.2, p.1)) = false ∧
    4096 % 64 + (List.replicate 64 (0 : Byte)).length ≤ 64 := by decide +kernel

/-- The fatal state with each agent in focus. -/
theorem test_witness_FatalStateIsKeptUntilReset :
    FatalState stopped ∧ (nextTurn { stopped with agenda := [.core 32] }).1 = .core 32 ∧
    (nextTurn { stopped with agenda := [.region 0] }).1 = .region 0 ∧ (nextTurn { stopped with agenda := [.tick] }).1 = .tick ∧
    (nextTurn { stopped with agenda := [.event .softError] }).1 ≠ .event .powerOnReset ∧
    (match step { stopped with agenda := [.event .softError] } with | .next _ => true | _ => false) = true := by
  refine ⟨⟨rfl, fun n => ?_⟩, by decide +kernel, by decide +kernel, by decide +kernel, by decide +kernel, by decide +kernel⟩
  have hv : ∀ {α : Type} (k i : Nat) (a : α), (Array.replicate k a)[i]?.getD a = a := by
    intro α k i a
    rw [Array.getElem?_replicate]
    split <;> rfl
  have hd : dieAt stopped n = Die.reset := by simp [dieAt, stopped, State.reset, vget, Vector.getD, hv]
  intro q
  rw [hd]
  simp [Die.reset, vget, Vector.getD, Queue.reset, hv]
/-- A number that is not 0, a pattern of each format that is finite, and the edges of the numbers of dies, regions, elements and registers. -/
theorem test_witness_ExactArithmeticBeforeRounding : (2 : Rat) ≠ 0 := by decide
theorem test_witness_ExactResultsAreReturnedUnchanged :
    (fp8e4.value 0x7E).finite = true ∧ (fp8e4.value 0x7F).finite = false ∧ (fp8e5.value 0x80).finite = true ∧ (5 : BitVec 3).toNat ≤ 5 := by
  decide +kernel
theorem test_witness_ResetLeavesTheSpecValues : (vget Region.reset (dieAt State.reset 23).regions 31).iext = 0x0001000100010001 ∧
    (vget Queue.reset (dieAt State.reset 23).queues 63).drops = 0 ∧ (vget Codec.reset (dieAt State.reset 23).codec 33).cmaxe = 0x8000 := by
  decide +kernel
theorem test_witness_ResultsTouchOnlyWhatTheyName : (31 : Reg).toNat < 32 ∧ (0 : Reg).toNat < 32 ∧ 31 < 32 ∧ 127 < 128 := by decide

/-- A cycle in which a record of a sum and a flag is due and another is not; one in which a word has met a fault; and turns of the clock with
every die ready and with one that is not. -/
theorem test_witness_ResultsTouchOnlyWhatTheyName_cycle :
    let p : Pending := ⟨0, 1, 0, 0, [.scalar 1 7, .flags 1]⟩
    let s := inRegion id fun r => { r with state := 1, inv := some inv0, rc := 1, elems := vmod r.elems 5 fun e => { e with pend := [p, { p with ret := 2 }] } }
    let f := modRegion s 0 fun r => { r with faults := [⟨0, 0, 5, 0, 0x10, 0⟩] }
    groupRegions s 0 = [0] ∧ againRegions s 0 = [] ∧ (region s 0).faults = [] ∧ (region s 0).freezeWanted = false ∧ (region s 0).rmwBusy = [] ∧
    (List.range 128).all (fun k => (elemAt s 0 k).wins.isEmpty) = true ∧
    isOk (([((5, p), p.fx)] : List ((Nat × Pending) × List Fx)).foldlM (fun s q => q.2.foldlM (fun s fx => applyFx s 0 q.1.1 q.1.2.iter q.1.2.pos fx) s) s) = true ∧
    groupRegions f 0 = [0] ∧ (region f 0).faults ≠ [] ∧ (nextTurn { State.reset with agenda := [.tick] }).1 = .tick ∧
    State.reset.dies.toList.all dieReady = true ∧ s.dies.toList.all dieReady = false := by decide +kernel

/-- A word placed after reset runs in the manager (R69). -/
theorem test_step_runs_placed_word :
    (match step (State.reset.withFetchWord 80 0x10001882800000000000) with
      | .next t => (core t 32).pc == 1
      | _ => false) = true := by decide +kernel

/-- The example vectors of FIPS 197 (C.3) and the SHA3-256 digest of the empty message (FIPS 202), which the spec names for R330 and R331. -/
theorem test_ciphers_standard_vectors :
    aesEncrypt (roundKeys ((List.range 32).map (BitVec.ofNat 8))) ((List.range 16).map fun i => BitVec.ofNat 8 (0x11 * i)) =
      ([0x8e, 0xa2, 0xb7, 0xca, 0x51, 0x67, 0x45, 0xbf, 0xea, 0xfc, 0x49, 0x90, 0x4b, 0x49, 0x60, 0x89] : List Byte) ∧
    natBytes (sha3 []).toNat 32 = ([0xa7, 0xff, 0xc6, 0xf8, 0xbf, 0x1e, 0xd7, 0x66, 0x51, 0xc1, 0x47, 0x56, 0xa0, 0x61, 0xd6, 0x62,
      0xf5, 0x80, 0xff, 0x4d, 0xe4, 0x3b, 0x49, 0xfa, 0x82, 0xd8, 0x0a, 0x4b, 0x80, 0xf8, 0x43, 0x4a] : List Byte) := by decide +kernel
end Sys2Proof.Machine.Tests
end

section
/-! PROOFS. Memory nodes: what a read of a node gives after a write of one (R16, R242), and what LDSP, STSP and RMWS do where their
scratch address is legal (R243, R244, R383, R443). -/

namespace Sys2Proof.Machine

/-! ### The bytes of the nodes of a region -/

/-- The nodes of a region stand one behind the other, 512 KiB each, in one table of bytes (R16). -/
theorem nodeRead_eq (r : Region) (j off n : Nat) : nodeRead r j off n = Table.bytes r.nodes (524288 * j + off) n := rfl
@[simp] theorem nodeWrite_nodes (r : Region) (j off : Nat) (data : List Byte) :
    (nodeWrite r j off data).nodes = Table.setBytes r.nodes (524288 * j + off) data := rfl

/-- Outside its nodes and its list of touched granules a region is as it was. -/
theorem nodeWrite_frame (r : Region) (j off : Nat) (data : List Byte) :
    nodeWrite r j off data = { r with nodes := (nodeWrite r j off data).nodes, touched := (nodeWrite r j off data).touched } := rfl

section
variable {r : Region} (hr : Table.wf 0 r.nodes = true)
include hr

theorem wf_nodes_nodeWrite (j off : Nat) (data : List Byte) : Table.wf 0 (nodeWrite r j off data).nodes = true :=
  wf_setBytes data _ _ hr

theorem nodeRead_nodeWrite_same (j off : Nat) (data : List Byte) :
    nodeRead (nodeWrite r j off data) j off data.length = data := by
  rw [nodeRead_eq, nodeWrite_nodes, bytes_setBytes data _ _ hr]

/-- Two ranges of nodes lie apart where their places in the table do, in one node or in two. -/
theorem nodeRead_nodeWrite_apart (j off : Nat) (data : List Byte) (j' off' n : Nat)
    (h : 524288 * j' + off' + n ≤ 524288 * j + off ∨ 524288 * j + off + data.length ≤ 524288 * j' + off') :
    nodeRead (nodeWrite r j off data) j' off' n = nodeRead r j' off' n := by
  rw [nodeRead_eq, nodeWrite_nodes, bytes_setBytes_apart data _ _ _ _ hr h, nodeRead_eq]

end

/-- Settles O25: a read after a write of the table of bytes that holds the nodes. -/
theorem nodeBytesReadBack : Obligations.NodeBytesReadBack := by
  unfold Obligations.NodeBytesReadBack
  intro r j off data hr
  exact ⟨nodeRead_nodeWrite_same hr j off data, nodeRead_nodeWrite_apart hr j off data, nodeWrite_frame r j off data,
    wf_nodes_nodeWrite hr j off data⟩

/-! ### The outcome of a word, and the port it takes -/

theorem elemOutcome_ok (i : Instr) (s t : State) (fx : List Fx) : elemOutcome i s (.ok (t, fx)) = elemRetire i t fx := rfl
@[simp] theorem myCore_takeNode (s : State) (g j : Nat) (write engine : Bool) : myCore (takeNode s g j write engine) = myCore s := rfl

/-- The access of an element that finds its port free is one more user of it in this cycle, and the executing region is otherwise as
it was (R339). -/
theorem takePort_ok {s t : State} {j : Nat} {write : Bool} (h : takePort s j write = .ok t) :
    t = modRegion s (myRegion s) fun r => { r with portUse := r.portUse ++ [(j, write, myElemIx s)] } := by
  unfold takePort at h
  dsimp only at h
  split at h
  · cases h
  · exact (Except.ok.inj h).symm

/-- No operand is read from the users of the ports. -/
theorem eScalar_of_portUse {s t : State} {users : List (Nat × Bool × Nat)} (hwho : t.who = s.who)
    (hregion : region t (myRegion s) = { region s (myRegion s) with portUse := users }) (r : Reg) : eScalar t r = eScalar s r := by
  have hg : myRegion t = myRegion s := myRegion_congr hwho
  have hrow : myRow t = myRow s := by unfold myRow; rw [hwho]
  have hcol : myCol t = myCol s := by unfold myCol; rw [hwho]
  unfold eScalar myElem elemAt myElemIx myIter
  rw [hg, hrow, hcol, hregion]
  rfl

/-- Taking a port leaves the scalar operands of the word. -/
theorem eScalar_takePort {s t : State} {j : Nat} {write : Bool} (h : takePort s j write = .ok t) (r : Reg) :
    eScalar t r = eScalar s r := by
  rw [takePort_ok h]
  exact eScalar_of_portUse (modRegion_who _ _ _) (region_modRegion_same _ _ _ (myRegion_lt s)) r

/-! ### The scratch words in an element -/

section
variable {h : Hdr} {d a b c : Reg} {off : BitVec 20} {ty : BitVec 4} {aop : BitVec 5} {slot : BitVec 8} {s t : State} {g j o : Nat}

/-- LDSP takes the read port of its node and loads from the node as it then is. -/
theorem exec_ldsp_elem (hs : scratchAddr s (elemAddr s a b off) (accessBytes (kindOf s) ty) = .ok (g, j, o))
    (ht : takePort s j false = .ok t) (hr : ElemRuns (.ldsp h d a b off ty) s) :
    exec (.ldsp h d a b off ty) s =
      .next (elemRetire (.ldsp h d a b off ty) t [.scalar d (loadValue ty (nodeRead (region t g) j o (accessBytes (kindOf s) ty)))]) := by
  rw [hr.1] at hs ⊢
  rw [exec_ldsp, execLdsp, word_of_elem hr]
  simp only [hs, ht, elemOutcome_ok]

/-- STSP takes the write port of its node; the bytes go to the node as the word retires. -/
theorem exec_stsp_elem (hs : scratchAddr s (elemAddr s a b off) (accessBytes (kindOf s) ty) = .ok (g, j, o))
    (ht : takePort s j true = .ok t) (hr : ElemRuns (.stsp h d a b off ty) s) :
    exec (.stsp h d a b off ty) s =
      .next (elemRetire (.stsp h d a b off ty) t [.node j o (natBytes (eScalar s d).toNat (accessBytes (kindOf s) ty))]) := by
  rw [hr.1] at hs ⊢
  rw [exec_stsp, execStsp, word_of_elem hr]
  simp only [hs, ht, elemOutcome_ok, eScalar_takePort ht]

/-- RMWS reads the old word, and its node stays with it until it writes the new one in the second cycle after this one (R244). -/
theorem exec_rmws_elem (hs : scratchAddr s (eScalar s a).toNat 4 = .ok (g, j, o)) (hj : rmwHolds (region s g) j = false)
    (hr : ElemRuns (.rmws h d a b c aop ty slot) s) :
    let old : BitVec 32 := BitVec.ofNat 32 (bytesNat (nodeRead (region s g) j o 4))
    let r := atomicNew aop ty old (eScalar s b) (eScalar s c)
    exec (.rmws h d a b c aop ty slot) s = .next (elemRetire (.rmws h d a b c aop ty slot)
      (modRegion (faultUsers s j) g fun q =>
        { q with rmwBusy := q.rmwBusy ++ [(⟨j, q.rc + 2, o, natBytes r.1.toNat 4, myIter s, myPos s, myRow s, myCol s⟩ : RmwOp)] })
      [.scalar d old, .flags r.2]) := by
  rw [exec_rmws, execRmws, elemWord_of_elem hr]
  simp only [hs, hj, Bool.false_eq_true, if_false, elemOutcome_ok]

/-! ### The scratch words in a core -/

/-- LDSP of a core loads in a cycle that the schedule and the other users of the node leave it, and waits for one (R16, R244). -/
theorem exec_ldsp_core (hs : scratchAddr s (coreAddr s a b off) (accessBytes (kindOf s) ty) = .ok (g, j, o))
    (hr : CoreRuns (.ldsp h d a b off ty) s) :
    exec (.ldsp h d a b off ty) s = .next (
      if mayTakeNode s g j false false then
        retX (takeNode s g j false false) d (loadValue ty (nodeRead (region s g) j o (accessBytes (kindOf s) ty)))
      else awaitNode s g j false false) := by
  rw [exec_ldsp, execLdsp, word_of_core hr]
  simp only [hs]
  split <;> rfl

/-- STSP of a core, with the same wait. -/
theorem exec_stsp_core (hs : scratchAddr s (coreAddr s a b off) (accessBytes (kindOf s) ty) = .ok (g, j, o))
    (hr : CoreRuns (.stsp h d a b off ty) s) :
    exec (.stsp h d a b off ty) s = .next (
      if mayTakeNode s g j true false then
        advance (modRegion (takeNode s g j true false) g fun r =>
          nodeWrite r j o (natBytes (xval s d).toNat (accessBytes (kindOf s) ty)))
      else awaitNode s g j true false) := by
  rw [exec_stsp, execStsp, word_of_core hr]
  simp only [hs]
  split <;> rfl

end

/-- Settles O24: each word by its meaning in an element or in a core, where its address is legal. -/
theorem scratchWordsReadAndWriteNodes : Obligations.ScratchWordsReadAndWriteNodes := by
  unfold Obligations.ScratchWordsReadAndWriteNodes
  intro h d a b c off ty aop slot s t g j o size node
  refine ⟨exec_ldsp_elem, exec_stsp_elem, fun hs hm hr => ?ldspTakes, fun hs hm hr => ?ldspWaits, fun hs hm hr => ?stspTakes,
    fun hs hm hr => ?stspWaits, exec_rmws_elem⟩
  case ldspTakes => rw [exec_ldsp_core hs hr, if_pos hm, retX, myCore_takeNode, nodeRead_eq]
  case ldspWaits => rw [exec_ldsp_core hs hr, hm, if_neg Bool.false_ne_true]
  case stspTakes => rw [exec_stsp_core hs hr, if_pos hm]
  case stspWaits => rw [exec_stsp_core hs hr, hm, if_neg Bool.false_ne_true]

end Sys2Proof.Machine
end

section
/-! PROOFS. Updates of the state one over another, and what an update of the dies alone leaves: everything outside them, and every byte
of memory (R245, R266). -/

namespace Sys2Proof.Machine

/-! ### Updates one over another -/

theorem vmod_congr {α : Type} {n : Nat} {v : Vector α n} {i : Nat} {f f' : α → α} (d : α) (h : f (vget d v i) = f' (vget d v i)) :
    vmod v i f = vmod v i f' := by
  unfold vmod
  split
  · next hi => simpa [vget, Vector.getD, hi] using congrArg (v.set i) h
  · rfl

theorem modRegion_congr {s : State} {g : Nat} {f f' : Region → Region} (h : f (region s g) = f' (region s g)) :
    modRegion s g f = modRegion s g f' := by
  unfold modRegion modDie
  have := vmod_congr (v := (s.dies[s.cur]).regions) Region.reset h
  simp only [this]

theorem vmod_id {α : Type} {n : Nat} (v : Vector α n) (i : Nat) : vmod v i (fun x => x) = v := by
  unfold vmod
  split <;> simp

theorem modDie_id (s : State) : modDie s (fun d => d) = s := by
  have h : s.dies.set s.cur s.dies[s.cur] = s.dies := Vector.set_getElem_self ..
  rw [modDie, h]

theorem modRegion_id (s : State) (g : Nat) : modRegion s g (fun r => r) = s := by
  simp only [modRegion, vmod_id]
  exact modDie_id s

theorem vmod_vmod {α : Type} {n : Nat} (v : Vector α n) (i : Nat) (f f' : α → α) : vmod (vmod v i f) i f' = vmod v i fun x => f' (f x) := by
  unfold vmod
  split <;> simp

theorem modDie_modDie (s : State) (f f' : Die → Die) : modDie (modDie s f) f' = modDie s fun d => f' (f d) := by
  simp [modDie]

theorem modRegion_modRegion (s : State) (g : Nat) (f f' : Region → Region) :
    modRegion (modRegion s g f) g f' = modRegion s g fun r => f' (f r) := by
  simp only [modRegion, modDie_modDie, vmod_vmod]

/-! ### Updates of the dies alone -/

/-- A state differs from another in its dies alone. -/
def OnlyDies (s t : State) : Prop := t = { s with dies := t.dies }

theorem OnlyDies.refl (s : State) : OnlyDies s s := rfl
theorem OnlyDies.modDie (s : State) (f : Die → Die) : OnlyDies s (modDie s f) := rfl
theorem OnlyDies.trans {s t u : State} (h : OnlyDies s t) (k : OnlyDies t u) : OnlyDies s u := by
  unfold OnlyDies at *
  rw [k, h]
theorem OnlyDies.sameOutside {s t : State} (h : OnlyDies s t) : SameOutside s t := by
  rw [h]
  simp [SameOutside]

/-! ### What memory holds hangs on no die -/

theorem unmapCopy_dies (s : State) (ds : Vector Die 24) (ln : Nat) :
    unmapCopy { s with dies := ds } ln = { unmapCopy s ln with dies := ds } := by
  unfold unmapCopy
  cases s.dedupMap.get none ln <;> rfl
theorem slotWrite_dies (s : State) (ds : Vector Die 24) (ln : Nat) (a : LineAttr) (l : Line) (merge : Bool) :
    slotWrite { s with dies := ds } ln a l merge = { slotWrite s ln a l merge with dies := ds } := by
  unfold slotWrite
  rw [unmapCopy_dies]
  generalize unmapCopy s ln = t
  cases merge with
  | false => rfl
  | true =>
    dsimp only
    generalize hk : findCopy { t with dedup := t.dedup.filter fun c => c.line != ln || c.refs != 0 } ln a.key
      ((lineBytes l).take (codecBytes a.codec (a.key != 0))) = k
    have hd : findCopy { t with dies := ds, dedup := t.dedup.filter fun c => c.line != ln || c.refs != 0 } ln a.key
      ((lineBytes l).take (codecBytes a.codec (a.key != 0))) = k := hk
    rw [hd]
    cases k <;> rfl
theorem l2drop_dies (s : State) (ds : Vector Die 24) (ln : Nat) :
    l2drop { s with dies := ds } ln = { l2drop s ln with dies := ds } := by
  unfold l2drop l2get
  cases s.l2.get none ln with
  | none => rfl
  | some e =>
    simp only [writeBack, slotWrite_dies]
    cases e.dirty <;> rfl
theorem l2agree_dies (s : State) (ds : Vector Die 24) (ln : Nat) (a : LineAttr) :
    l2agree { s with dies := ds } ln a = { l2agree s ln a with dies := ds } := by
  unfold l2agree l2get
  cases s.l2.get none ln with
  | none => rfl
  | some e =>
    simp only [l2drop_dies]
    split <;> rfl
theorem peekLine_dies (s : State) (ds : Vector Die 24) (ln : Nat) (a : LineAttr) :
    peekLine { s with dies := ds } ln a = peekLine s ln a := by
  unfold peekLine
  rw [l2agree_dies]
  rfl

theorem OnlyDies.byteAt {s t : State} (h : OnlyDies s t) (a : LineAttr) (pa : Nat) : byteAt t a pa = byteAt s a pa := by
  rw [h]
  unfold Machine.byteAt
  rw [peekLine_dies]

/-! ### The next turn -/

@[simp] theorem io_nextTurn (s : State) : (nextTurn s).2.io = s.io := by
  unfold nextTurn
  split <;> rfl

section
variable {s s' : State} {t : Turn} (hn : nextTurn s = (t, s'))
include hn

theorem step_of_turn : step s = onNext settleTurn (agentTurn s' t) := by simp only [step, hn, turn]

theorem io_of_nextTurn : s'.io = s.io := by simpa only [hn] using io_nextTurn s

end

end Sys2Proof.Machine
end

section
/-! PROOFS. What a result touches: the register of a core's word and its pc, the record of an element's word, the effect of a record on its
element, and the end of a cycle of a freeze group of one region (R51, R74, R87, R88, R143). -/

namespace Sys2Proof.Machine

/-! ### The result of a core's word -/

/-- Only the cores of the focused die move. -/
def OnlyCores (s t : State) : Prop := OnlyDies s t ∧ die t = { die s with cores := (die t).cores } ∧
  ∀ n, n ≠ s.cur.val → dieAt t n = dieAt s n

theorem OnlyCores.refl (s : State) : OnlyCores s s := ⟨rfl, rfl, fun _ _ => rfl⟩
theorem OnlyCores.modCore (s : State) (c : Nat) (f : Core → Core) : OnlyCores s (modCore s c f) :=
  ⟨rfl, by simp, fun n h => dieAt_modDie_ne _ _ _ (Ne.symm h)⟩
theorem OnlyCores.trans {s t u : State} (h : OnlyCores s t) (k : OnlyCores t u) : OnlyCores s u := by
  obtain ⟨h1, h2, h3⟩ := h
  obtain ⟨k1, k2, k3⟩ := k
  refine ⟨h1.trans k1, ?_, fun n hn => ?_⟩
  · rw [k2, h2]
  · have hc : t.cur = s.cur := h1.sameOutside.1
    rw [k3 n (by rwa [hc]), h3 n hn]
theorem OnlyCores.setX (s : State) (c r : Nat) (v : X) : OnlyCores s (setX s c r v) := by
  unfold Machine.setX
  split
  · exact .refl s
  · exact .modCore ..
theorem OnlyCores.retX (s : State) (d : Reg) (v : X) : OnlyCores s (retX s d v) := (OnlyCores.setX ..).trans (.modCore ..)

/-- The core of a retiring word goes on, with the register of its result written. -/
theorem core_retX_same (s : State) (d : Reg) (v : X) :
    core (retX s d v) (myCore s) = { core (setX s (myCore s) d.toNat v) (myCore s) with
      pc := (core (setX s (myCore s) d.toNat v) (myCore s)).pc + 1, supplied := [], issued := none } := by
  have h : myCore (setX s (myCore s) d.toNat v) = myCore s := myCore_congr (setX_who ..)
  have := core_advance_same (setX s (myCore s) d.toNat v)
  rwa [h] at this

theorem core_setX_same (s : State) (c r : Nat) (v : X) (hc : c < 33) :
    core (setX s c r v) c = { core s c with
      x := (core (setX s c r v) c).x
      awaits := if r = 0 then (core s c).awaits else (core s c).awaits.filter fun p => p.1 != r } := by
  unfold setX
  split
  · rfl
  · rw [core_modCore_same _ _ _ hc]
theorem core_setX_ne (s : State) (c c' r : Nat) (v : X) (h : c ≠ c') : core (setX s c r v) c' = core s c' := by
  unfold setX
  split
  · rfl
  · exact core_modCore_ne _ _ _ _ h
theorem core_retX_ne (s : State) (d : Reg) (v : X) (c' : Nat) (h : myCore s ≠ c') : core (retX s d v) c' = core s c' := by
  have hm : myCore (setX s (myCore s) d.toNat v) = myCore s := myCore_congr (setX_who ..)
  rw [retX, core_advance_ne _ _ (by rwa [hm]), core_setX_ne _ _ _ _ _ h]

theorem toNat_eq_zero_iff {w : Nat} (d : BitVec w) : d.toNat = 0 ↔ d = 0 := by
  rw [← BitVec.toNat_inj]; simp

/-- A register of the core reads its result, and x0 reads 0. -/
theorem xreg_retX_same (s : State) (d : Reg) (v : X) (hd : d.toNat < 32) :
    xreg (retX s d v) (myCore s) d.toNat = if d = 0 then 0 else v := by
  rw [retX, xreg_advance]
  by_cases h : d = 0
  · simp [h]
  · rw [if_neg h, xreg_setX_same _ _ _ _ (myCore_lt s) hd (by rwa [ne_eq, toNat_eq_zero_iff])]

/-- THE RESULT OF A CORE'S WORD. -/
theorem retX_touches (s : State) (d : Reg) (v : X) (hd : d.toNat < 32) :
    let c := myCore s
    let t := retX s d v
    xreg t c d.toNat = (if d = 0 then 0 else v) ∧ (∀ r, r ≠ d.toNat → xreg t c r = xreg s c r) ∧
      core t c = { core s c with
        x := (core t c).x, pc := (core s c).pc + 1, supplied := [], issued := none
        awaits := if d = 0 then (core s c).awaits else (core s c).awaits.filter fun p => p.1 != d.toNat } ∧
      (∀ c', c' ≠ c → core t c' = core s c') ∧ die t = { die s with cores := (die t).cores } ∧
      (∀ n, n ≠ s.cur.val → dieAt t n = dieAt s n) ∧ SameOutside s t ∧ ∀ a pa, byteAt t a pa = byteAt s a pa := by
  obtain ⟨hdies, hcores, hother⟩ := OnlyCores.retX s d v
  refine ⟨xreg_retX_same s d v hd, fun r hr => ?_, ?_, fun c' h => core_retX_ne s d v c' h.symm, hcores, hother,
    hdies.sameOutside, hdies.byteAt⟩
  · rw [retX, xreg_advance, xreg_setX_ne _ _ _ _ _ _ (.inr hr.symm)]
  · rw [core_retX_same, core_setX_same _ _ _ _ (myCore_lt s)]
    simp only [toNat_eq_zero_iff]

/-! ### The result of an element's word -/

/-- Only element `k` of region `g` moves. -/
structure OnlyElem (s t : State) (g k : Nat) : Prop where
  outside : OnlyDies s t
  dies : ∀ n, n ≠ s.cur.val → dieAt t n = dieAt s n
  die : die t = { die s with regions := (die t).regions }
  region : region t g = { region s g with elems := (region t g).elems }
  regions : ∀ g', g' ≠ g → Machine.region t g' = Machine.region s g'
  elems : ∀ k', k' ≠ k → elemAt t g k' = elemAt s g k'

theorem onlyElem_modElem (s : State) (g k : Nat) (f : Element → Element) (hg : g < 32) : OnlyElem s (modElem s g k f) g k where
  outside := rfl
  dies n h := dieAt_modDie_ne _ _ _ (Ne.symm h)
  die := by simp [modElem]
  region := by simp [modElem, hg]
  regions g' h := by simp [modElem, region_modRegion_ne _ _ _ _ (Ne.symm h)]
  elems k' h := elemAt_modElem_ne _ _ _ _ _ _ (.inr (Ne.symm h))

theorem OnlyElem.frame {s t : State} {g k : Nat} (h : OnlyElem s t g k) :
    SameOutside s t ∧ (∀ a pa, byteAt t a pa = byteAt s a pa) ∧ (∀ n, n ≠ s.cur.val → dieAt t n = dieAt s n) ∧
      (Machine.die t = { Machine.die s with regions := (Machine.die t).regions } ∧
        Machine.region t g = { Machine.region s g with elems := (Machine.region t g).elems } ∧
        ∀ g', g' ≠ g → Machine.region t g' = Machine.region s g') ∧ ∀ k', k' ≠ k → elemAt t g k' = elemAt s g k' :=
  ⟨h.outside.sameOutside, h.outside.byteAt, h.dies, ⟨h.die, h.region, h.regions⟩, h.elems⟩

/-- e0 discards what is written to it (R74). -/
theorem setScalarReg_eq (e : Element) (d : Reg) (v : BitVec 32) :
    setScalarReg e d v = if d = 0 then e else { e with e := vset e.e d.toNat v } := by simp [setScalarReg]

/-- An element's word that retires adds its record. -/
theorem elemRetire_eq (i : Instr) (s : State) (fx : List Fx) :
    elemRetire i s fx = modMyElem s fun e => { e with
      pend := e.pend ++ [⟨(region s (myRegion s)).rc, max ((region s (myRegion s)).rc + latency i - 1) e.lastRet, myIter s, myPos s,
        fx ++ if (header i).rstp = 1 ∧ myCol s = 15 then [.mark] else []⟩]
      lastRet := max ((region s (myRegion s)).rc + latency i - 1) e.lastRet } := by
  have h : (if (header i).rstp == 1 && myCol s == 15 then fx ++ [.mark] else fx) =
      fx ++ if (header i).rstp = 1 ∧ myCol s = 15 then [.mark] else [] := by
    by_cases hm : (header i).rstp = 1 ∧ myCol s = 15
    · simp [hm]
    · rw [if_neg hm, if_neg (by simpa using hm), List.append_nil]
  simp only [elemRetire, h]

theorem elemAt_modMyElem (s : State) (f : Element → Element) :
    elemAt (modMyElem s f) (myRegion s) (myElemIx s) = f (myElem s) :=
  elemAt_modElem_same _ _ _ _ (myRegion_lt s) (myElemIx_lt s)

/-! ### The end of a cycle -/

/-- Parts of words retire one after another, up to the first fault. -/
def retireParts (g : Nat) (s : State) (l : List (Retiring × List Fx)) : Except (Code × Nat) State :=
  l.foldlM (fun s q => q.2.foldlM (fun s fx => applyFx s g q.1.1 q.1.2.iter q.1.2.pos fx) s) s

theorem retireParts_append (g : Nat) (s : State) (l l' : List (Retiring × List Fx)) :
    retireParts g s (l ++ l') = retireParts g s l >>= fun t => retireParts g t l' := List.foldlM_append

/-- The part of each word that a cycle's retirement takes at once. -/
def partOf (p : Fx → Bool) (ws : List Retiring) : List (Retiring × List Fx) := ws.map fun w => (w, w.2.fx.filter p)

/-- Words whose parts retire without a fault leave none behind. -/
theorem foldl_applyWord_of_ok (g : Nat) (p : Fx → Bool) (ws : List Retiring) (fs : List FaultRec) (s t : State)
    (h : retireParts g s (partOf p ws) = .ok t) :
    ws.foldl (fun acc w => ((applyWord g acc.1 w (w.2.fx.filter p)).1, acc.2 ++ (applyWord g acc.1 w (w.2.fx.filter p)).2)) (s, fs) =
      (t, fs) := by
  induction ws generalizing s with
  | nil => cases h; rfl
  | cons w ws ih =>
    simp only [retireParts, partOf, List.map_cons, List.foldlM_cons] at h
    cases hw : (w.2.fx.filter p).foldlM (fun s fx => applyFx s g w.1 w.2.iter w.2.pos fx) s with
    | error e => rw [hw] at h; cases h
    | ok u =>
      rw [hw] at h
      have ha : applyWord g s w (w.2.fx.filter p) = (u, []) := by simp only [applyWord, hw]
      simp only [List.foldl_cons, ha, List.append_nil]
      exact ih u h

/-- The words of a cycle retire, MMA first, when none of them meets a fault (R143). -/
theorem retireRegion_of_ok {s t : State} {g : Nat} {due : Pending → Bool}
    (h : retireParts g (modRegion s g fun r => dropPending r due)
      (partOf isMma (retiring (region s g) due) ++ partOf (fun fx => !isMma fx) (retiring (region s g) due)) = .ok t) :
    retireRegion s g due = (t, []) := by
  rw [retireParts_append] at h
  cases hm : retireParts g (modRegion s g fun r => dropPending r due) (partOf isMma (retiring (region s g) due)) with
  | error e => rw [hm] at h; cases h
  | ok u =>
    rw [hm] at h
    unfold retireRegion applyWords
    dsimp only
    rw [foldl_applyWord_of_ok g isMma _ [] _ _ hm]
    exact foldl_applyWord_of_ok g (fun fx => !isMma fx) _ [] _ _ h

/-- Nothing is written at a node where no RMWS is under way. -/
theorem rmwStep_of_idle {s : State} {g : Nat} (h : (region s g).rmwBusy = []) : rmwStep s g = s := by
  unfold rmwStep
  rw [modRegion_congr (f' := fun r => r) (by simp [h]), modRegion_id]

/-- No window has closed, so none writes. -/
theorem writeClosed_of_open {s : State} {g : Nat} (h : ∀ k < 128, ∀ w ∈ (elemAt s g k).wins, w.closed = false) :
    writeClosed s g = s := by
  unfold writeClosed writeWindows
  refine List.foldlRecOn (motive := fun t => t = s) _ _ rfl fun t ht k hk => ?_
  subst ht
  have he : (elemAt t g k).wins.filter (fun w => w.closed) = [] := by
    rw [List.filter_eq_nil_iff]
    intro w hw
    simp [h k (List.mem_range.mp hk) w hw]
  simp [he]

/-- The faults of a cycle are recorded in the one region that has met them. -/
theorem foldl_recordFaults (g : Nat) (fs : List FaultRec) (s : State) (hg : g < 32) :
    (fs.map fun f => (g, f)).foldl (fun s (p : Nat × FaultRec) => modRegion s p.1 fun r => { r with faults := r.faults ++ [p.2] }) s =
      modRegion s g fun r => { r with faults := (region s g).faults ++ fs } := by
  induction fs generalizing s with
  | nil =>
    rw [modRegion_congr (f' := fun r => r) (by simp), modRegion_id]
    rfl
  | cons f fs ih =>
    simp only [List.map_cons, List.foldl_cons, ih, region_modRegion_same _ _ _ hg, List.append_assoc, List.singleton_append]
    exact modRegion_modRegion ..

/-- A region whose invocation is in progress is not among those that have met a fault after their discard. -/
theorem againRegions_faults {s : State} {g n : Nat} (hst : (region s g).state ≠ 3) (l : List FaultRec) :
    againRegions (modRegion s g fun r => { r with faults := l }) n = againRegions s n := by
  unfold againRegions
  refine List.filter_congr fun h hh => ?_
  by_cases e : g = h
  · subst e
    rw [region_modRegion_same _ _ _ (List.mem_range.mp hh)]
    dsimp only
    rw [beq_false_of_ne hst]
    simp
  · rw [region_modRegion_ne _ _ _ _ e]

section
variable {s : State} {g n : Nat} (hlt : g < 32) (hg : groupRegions s n = [g]) (ha : againRegions s n = [])
  (hst : (region s g).state = 1)
include hlt hg ha hst

/-- The end of a cycle of a group of one running region. -/
theorem endGroup_of_one : endGroup s n =
    let r := retireRegion (writeClosed (rmwStep s g) g) g fun p => decide (p.ret ≤ (region s g).rc)
    if (region s g).faults ++ r.2 ≠ [] then discardGroup (modRegion s g fun q => { q with faults := (region s g).faults ++ r.2 }) n
    else if (region s g).freezeWanted then freezeGroup s n
    else modRegion r.1 g nextCycle := by
  have h2 : (region s g).state ≠ 2 := by rw [hst]; decide
  have h3 : (region s g).state ≠ 3 := by rw [hst]; decide
  simp only [endGroup, hg, retireGroup, List.append_nil, foldl_recordFaults _ _ _ hlt, againRegions_faults h3, ha, List.any_cons,
    List.any_nil, Bool.or_false, region_modRegion_same _ _ _ hlt, List.foldl_cons, List.foldl_nil, beq_iff_eq, if_neg h2]
  simp

/-- A CYCLE THAT MEETS NO FAULT: the records that are due have their effects, and the next cycle begins. -/
theorem endGroup_retires {w : State} (hf : (region s g).faults = []) (hz : (region s g).freezeWanted = false)
    (hb : (region s g).rmwBusy = []) (hw : ∀ k < 128, ∀ w ∈ (elemAt s g k).wins, w.closed = false)
    (hr : retireRegion s g (fun p => decide (p.ret ≤ (region s g).rc)) = (w, [])) : endGroup s n = modRegion w g nextCycle := by
  rw [endGroup_of_one hlt hg ha hst, rmwStep_of_idle hb, writeClosed_of_open hw, hr]
  simp [hf, hz]

/-- A CYCLE IN WHICH A WORD HAS MET A FAULT: the group is discarded with every fault of the cycle. -/
theorem endGroup_discards (hf : (region s g).faults ≠ []) :
    ∃ l, endGroup s n = discardGroup (modRegion s g fun q => { q with faults := (region s g).faults ++ l }) n :=
  ⟨_, (endGroup_of_one hlt hg ha hst).trans (if_pos (by simp [hf]))⟩

end

/-! ### The turn of the clock -/

/-- A turn of the clock outside the fatal state. -/
theorem step_tick {s s' : State} (hn : nextTurn s = (.tick, s')) (hf : s.io.fatal = false) :
    step s = onNext settleTurn (tickTurn s') := by
  rw [step_of_turn hn, agentTurn, io_of_nextTurn hn, hf, if_neg Bool.false_ne_true]

/-- Settles O60: a result by its updates of the state, a cycle by the retirements of its one region, the clock by its definition. -/
theorem resultsTouchOnlyWhatTheyName : Obligations.ResultsTouchOnlyWhatTheyName := by
  unfold Obligations.ResultsTouchOnlyWhatTheyName
  intro s d v i fx g k iter pos x y z f
  refine ⟨retX_touches s d v, ?retires, fun hg hk => ?effects, fun n hg hgs has hst => ⟨fun hf hz hb hw w hok => ?cycle, fun hf => ?discard⟩,
    ⟨rfl, rfl, rfl⟩, rfl, fun s' hn hfatal => ⟨fun hr => ?waits, fun hr => ?ticks⟩, rfl⟩
  case retires =>
    rw [elemRetire_eq]
    exact ⟨elemAt_modMyElem s _, (onlyElem_modElem s (myRegion s) (myElemIx s) _ (myRegion_lt s)).frame⟩
  case effects =>
    have same := fun f => elemAt_modElem_same s g k f hg hk
    have only := fun f => (onlyElem_modElem s g k f hg).frame
    exact ⟨⟨_, rfl, (same _).trans (setScalarReg_eq ..), only _⟩, ⟨_, rfl, same _, only _⟩, ⟨_, rfl, same _, only _⟩,
      ⟨_, rfl, same _, only _⟩⟩
  case cycle => exact endGroup_retires hg hgs has hst hf hz hb hw (retireRegion_of_ok hok)
  case discard => exact endGroup_discards hg hgs has hst hf
  case waits => rw [step_tick hn hfatal, tickTurn, hr]; rfl
  case ticks => rw [step_tick hn hfatal, tickTurn, hr]; rfl

end Sys2Proof.Machine
end

section
/-! PROOFS. The checks of R85 in their order: which word is skipped, which one a check stops and with what, and which word decodes to no
instruction (R38, R39, R55, R76, R81 to R85). -/

namespace Sys2Proof.Machine

/-! ### A skipped word -/

/-- A false predicate, a skipped iteration, or a position that a resumed iteration has passed (R38, R39, R55). -/
theorem elemSkips_iff (s : State) (h : Hdr) : elemSkips s h = true ↔
    predFalse (region s (myRegion s)) h = true ∨ (sampledVc (region s (myRegion s))).toNat ≤ myIter s ∨
      myPos s < ((region s (myRegion s)).inv.map fun v => v.resume.get 0 (myIter s)).getD 0 := by
  simp only [elemSkips, Bool.or_eq_true, decide_eq_true_eq, or_assoc]

/-- The same for the word of an element of region `g`. -/
theorem elemSkips_elem (s : State) (g : Fin 32) (r : Fin 8) (c : Fin 16) (h : Hdr) :
    let me : State := { s with who := .elem g r c }
    elemSkips me h = true ↔ predFalse (region s g.val) h = true ∨ (sampledVc (region s g.val)).toNat ≤ myIter me ∨
      myPos me < ((region s g.val).inv.map fun v => v.resume.get 0 (myIter me)).getD 0 := by
  intro me
  have hr : region me (myRegion me) = region s g.val := rfl
  rw [elemSkips_iff, hr]

theorem gate_eq_skip_iff (i : Instr) (s : State) : gate i s = .skip ↔ kindOf s = .elem ∧ elemSkips s (header i) = true := by
  unfold gate
  split
  · next h => simpa using h
  · next h =>
    refine ⟨fun hs => ?_, fun hs => absurd hs (by simpa using h)⟩
    split at hs <;> cases hs

/-- A word that is not skipped is stopped by the first check that fails, or runs. -/
theorem gate_of_ne_skip {i : Instr} {s : State} (h : gate i s ≠ .skip) :
    gate i s = match legal (kindOf s) i with
      | some c => .stop c
      | none => .run := by
  unfold gate at h ⊢
  split
  · next hs => exact absurd (if_pos hs) h
  · rfl

/-! ### The checks of the operation and of its fields -/

/-- Table 3-2 marks the specifier CONTEXT in a core for the word. -/
def MarkedContext (k : Kind) (i : Instr) (r : Reg) : Prop :=
  k ≠ .elem ∧ (32 ≤ r.toNat ∧ r.toNat < 52 ∨ 52 ≤ r.toNat ∧ r.toNat < 60 ∧ predWord i = false ∨
    r.toNat = 60 ∧ (∀ h d a, i ≠ .vcset h d a) ∨ r.toNat = 61 ∨ r.toNat = 62)

/-- Step 3 of R85 fails: the context does not admit the operation, or an operand is marked CONTEXT. -/
def FailsContext (k : Kind) (i : Instr) : Prop :=
  contextOk k (contexts i) = false ∨ ∃ p ∈ operands i, MarkedContext k i p.2

/-- Step 4 fails: the operation is privileged in a stagehand. -/
def FailsPrivilege (k : Kind) (i : Instr) : Prop := k = .stage ∧ contexts i = .privileged

/-- Step 5 fails: the header, a specifier or a coded value is not allowed. -/
def FailsForm (k : Kind) (i : Instr) : Prop :=
  k ≠ .elem ∧ header i ≠ default ∨ (∃ p ∈ operands i, specCheck k i p.1 p.2 = .illegal) ∨ codedOk k i = false

theorem coreSpec_eq_context_iff (i : Instr) (role : Role) (r : Reg) : coreSpec i role r = .context ↔
    (32 ≤ r.toNat ∧ r.toNat < 52 ∨ 52 ≤ r.toNat ∧ r.toNat < 60 ∧ predWord i = false ∨
      r.toNat = 60 ∧ (∀ h d a, i ≠ .vcset h d a) ∨ r.toNat = 61 ∨ r.toNat = 62) := by
  have hr : r.toNat < 64 := r.isLt
  generalize hn : r.toNat = n at hr
  unfold coreSpec
  dsimp only
  rw [hn]
  rcases lt_or_ge n 32 with h32 | h32
  · rw [if_pos h32]
    exact iff_of_false (by split <;> decide) (by omega)
  rw [if_neg (by omega)]
  by_cases h63 : n = 63
  · subst h63
    exact iff_of_false (by simp) (by omega)
  rw [if_neg (by simpa using h63)]
  by_cases h52 : 52 ≤ n ∧ n < 60
  · rw [if_pos (by simpa using h52)]
    cases predWord i with
    | true => exact iff_of_false (by cases role <;> decide) (by simp; omega)
    | false => exact iff_of_true rfl (.inr (.inl ⟨h52.1, h52.2, rfl⟩))
  rw [if_neg (by simpa using h52)]
  by_cases h60 : n = 60
  · subst h60
    rw [if_pos (by decide)]
    split
    · exact iff_of_false (by decide) (by simp)
    · exact iff_of_false (by decide) (by simp)
    · next hi _ => exact iff_of_true rfl (.inr (.inr (.inl ⟨rfl, fun h d a e => hi h d a e⟩)))
  · rw [if_neg (by simpa using h60)]
    exact iff_of_true rfl (by omega)

theorem specCheck_eq_context_iff (k : Kind) (i : Instr) (role : Role) (r : Reg) :
    specCheck k i role r = .context ↔ MarkedContext k i r := by
  unfold MarkedContext
  cases k with
  | elem => exact iff_of_false (by unfold specCheck; cases elemAdmits role r <;> simp) (fun h => h.1 rfl)
  | stage => exact (coreSpec_eq_context_iff i role r).trans (by simp)
  | mgr => exact (coreSpec_eq_context_iff i role r).trans (by simp)

section
variable {k : Kind} {i : Instr}

theorem failsContext_iff : FailsContext k i ↔
    (!contextOk k (contexts i) || (operands i).any fun p => specCheck k i p.1 p.2 == .context) = true := by
  simp [FailsContext, specCheck_eq_context_iff]

theorem failsPrivilege_iff : FailsPrivilege k i ↔ (contexts i == .privileged && k == .stage) = true := by
  simp [FailsPrivilege, and_comm]

theorem failsForm_iff : FailsForm k i ↔ ((k.isCore && header i != default) ||
    (operands i).any (fun p => specCheck k i p.1 p.2 == .illegal) || !codedOk k i) = true := by
  simp [FailsForm, Kind.isCore, or_assoc]

open Classical in
/-- Steps 3 to 5 of R85 in their order. -/
theorem legal_eq : legal k i =
    if FailsContext k i then some 0x02 else if FailsPrivilege k i then some 0x03 else if FailsForm k i then some 0x01 else none := by
  simp only [legal, failsContext_iff, failsPrivilege_iff, failsForm_iff]

end

/-- No word of the predicates is privileged. -/
theorem contexts_ne_privileged_of_predWord {i : Instr} (h : predWord i = true) : contexts i ≠ .privileged := by
  unfold predWord at h
  split at h
  · exact fun hc => by cases hc
  · exact fun hc => by cases hc
  · exact fun hc => by cases hc
  · cases h

/-- A field of a word that decodes to nothing comes first, then the checks of the instruction that its FMT and OP select (R76, R85). -/
theorem illegalCode_of_context {k : Kind} {i : Instr} {fields : List Reg} (h : FailsContext k i ∨ ∃ r ∈ fields, MarkedContext k i r) :
    illegalCode k (.reserved i fields) = 0x02 := by
  unfold illegalCode
  dsimp only
  split
  · rfl
  · next hn =>
    have hc : FailsContext k i := h.resolve_right fun hf => hn (by simpa [fieldContext, specCheck_eq_context_iff] using hf)
    rw [legal_eq, if_pos hc]
    rfl

section
variable {k : Kind} {i : Instr} {fields : List Reg} (h : ¬ FailsContext k i) (hf : ∀ r ∈ fields, ¬ MarkedContext k i r)
include h hf

theorem illegalCode_of_privilege (hp : FailsPrivilege k i) : illegalCode k (.reserved i fields) = 0x03 := by
  have hn : ¬ fields.any (fieldContext k i) = true := by simpa [fieldContext, specCheck_eq_context_iff] using hf
  unfold illegalCode
  dsimp only
  rw [if_neg hn, legal_eq, if_neg h, if_pos hp]
  rfl

theorem illegalCode_of_form (hp : ¬ FailsPrivilege k i) : illegalCode k (.reserved i fields) = 0x01 := by
  have hn : ¬ fields.any (fieldContext k i) = true := by simpa [fieldContext, specCheck_eq_context_iff] using hf
  unfold illegalCode
  dsimp only
  rw [if_neg hn, legal_eq, if_neg h, if_neg hp]
  by_cases hx : FailsForm k i
  · rw [if_pos hx]
    rfl
  · rw [if_neg hx]

end

theorem illegalCode_of_predWord {k : Kind} {i : Instr} {fields : List Reg} (h : predWord i = true) :
    illegalCode k (.reserved i fields) = 0x01 ∨ illegalCode k (.reserved i fields) = 0x02 := by
  by_cases hc : FailsContext k i ∨ ∃ r ∈ fields, MarkedContext k i r
  · exact .inr (illegalCode_of_context hc)
  · have hn : ∀ r ∈ fields, ¬ MarkedContext k i r := fun r hr hm => hc (.inr ⟨r, hr, hm⟩)
    have hp : ¬ FailsPrivilege k i := fun hp => contexts_ne_privileged_of_predWord h hp.2
    exact .inl (illegalCode_of_form (fun h => hc (.inl h)) hn hp)

/-! ### Words that decode to nothing -/

theorem candSys_none (w : Word) {n : Nat} (h : 23 ≤ n) : candSys w n = none := by
  obtain ⟨m, rfl⟩ := Nat.exists_eq_add_of_le' h
  rfl
theorem candIr_none (w : Word) {n : Nat} (h : 21 ≤ n) : candIr w n = none := by
  obtain ⟨m, rfl⟩ := Nat.exists_eq_add_of_le' h
  rfl
theorem candIi_none (w : Word) {n : Nat} (h : n ∉ [0, 6, 7, 8, 9, 10, 11, 16, 32, 33]) : candIi w n = none := by
  unfold candIi
  split <;> simp_all
theorem candFs_none (w : Word) {n : Nat} (h : 11 ≤ n) : candFs w n = none := by
  obtain ⟨m, rfl⟩ := Nat.exists_eq_add_of_le' h
  rfl
theorem candVa_none (w : Word) {n : Nat} (h : 23 ≤ n) : candVa w n = none := by
  obtain ⟨m, rfl⟩ := Nat.exists_eq_add_of_le' h
  rfl
theorem candVp_none (w : Word) {n : Nat} (h : 9 ≤ n) : candVp w n = none := by
  obtain ⟨m, rfl⟩ := Nat.exists_eq_add_of_le' h
  rfl
theorem candMx_none (w : Word) {n : Nat} (h : 10 ≤ n) : candMx w n = none := by
  obtain ⟨m, rfl⟩ := Nat.exists_eq_add_of_le' h
  rfl
theorem candSb_none (w : Word) {n : Nat} (h : 8 ≤ n) : candSb w n = none := by
  obtain ⟨m, rfl⟩ := Nat.exists_eq_add_of_le' h
  rfl
theorem candMe_none (w : Word) {n : Nat} (h : 17 ≤ n) : candMe w n = none := by
  obtain ⟨m, rfl⟩ := Nat.exists_eq_add_of_le' h
  rfl
theorem candCh_none (w : Word) {n : Nat} (h : 6 ≤ n) : candCh w n = none := by
  obtain ⟨m, rfl⟩ := Nat.exists_eq_add_of_le' h
  rfl
theorem candSq_none (w : Word) {n : Nat} (h : 7 ≤ n) : candSq w n = none := by
  obtain ⟨m, rfl⟩ := Nat.exists_eq_add_of_le' h
  rfl
theorem candTk_none (w : Word) {n : Nat} (h : 17 ≤ n) : candTk w n = none := by
  obtain ⟨m, rfl⟩ := Nat.exists_eq_add_of_le' h
  rfl
theorem candSy_none (w : Word) {n : Nat} (h : 12 ≤ n) : candSy w n = none := by
  obtain ⟨m, rfl⟩ := Nat.exists_eq_add_of_le' h
  rfl
theorem candBr_none (w : Word) {n : Nat} (h : 4 ≤ n) : candBr w n = none := by
  obtain ⟨m, rfl⟩ := Nat.exists_eq_add_of_le' h
  rfl

theorem decode_of_none {w : Word} (h : candidate w = none) : decode w = .error .unassigned := by
  simp only [decode, h]

theorem fmtOf_word (w : Word) : (w.extractLsb' 76 4).toNat = w.toNat / 2 ^ 76 := by
  have := w.isLt
  rw [BitVec.extractLsb'_toNat, Nat.shiftRight_eq_div_pow]
  omega
theorem opOf_word (w : Word) : (w.extractLsb' 70 6).toNat = w.toNat / 2 ^ 70 % 64 := by
  rw [BitVec.extractLsb'_toNat, Nat.shiftRight_eq_div_pow]

/-- FMT 0xE and 0xF are unassigned (Table 3-18). -/
theorem decode_of_fmt {w : Word} (h : 0xE ≤ w.toNat / 2 ^ 76) : decode w = .error .unassigned := by
  refine decode_of_none ?_
  rw [← fmtOf_word] at h
  unfold candidate
  dsimp only
  obtain ⟨m, hm⟩ := Nat.exists_eq_add_of_le' h
  rw [hm]
  rfl

/-- The number of OPs that Table 3-18 assigns in each format; those of format II do not follow on one another. -/
def assignedOps : List Nat := [23, 21, 0, 11, 23, 9, 10, 8, 17, 6, 7, 17, 12, 4]

theorem decode_of_op {w : Word} (hf : w.toNat / 2 ^ 76 < 14)
    (h : if w.toNat / 2 ^ 76 = 2 then w.toNat / 2 ^ 70 % 64 ∉ [0, 6, 7, 8, 9, 10, 11, 16, 32, 33]
      else assignedOps.getD (w.toNat / 2 ^ 76) 0 ≤ w.toNat / 2 ^ 70 % 64) : decode w = .error .unassigned := by
  refine decode_of_none ?_
  rw [← fmtOf_word] at hf h
  rw [← opOf_word] at h
  unfold candidate
  dsimp only
  generalize (w.extractLsb' 76 4).toNat = fmt at hf h
  generalize (w.extractLsb' 70 6).toNat = op at h
  match fmt, hf with
  | 0, _ => exact candSys_none w h
  | 1, _ => exact candIr_none w h
  | 2, _ => exact candIi_none w h
  | 3, _ => exact candFs_none w h
  | 4, _ => exact candVa_none w h
  | 5, _ => exact candVp_none w h
  | 6, _ => exact candMx_none w h
  | 7, _ => exact candSb_none w h
  | 8, _ => exact candMe_none w h
  | 9, _ => exact candCh_none w h
  | 10, _ => exact candSq_none w h
  | 11, _ => exact candTk_none w h
  | 12, _ => exact candSy_none w h
  | 13, _ => exact candBr_none w h

/-- The turn of an element whose ring word decodes to nothing: skipped without effect, or the fault that R85 gives. -/
theorem elemTurn_of_error {s : State} {g : Fin 32} {k : Nat} {w : Word} {e : DecodeError} (hw : handedWord (region s g.val) k = some w)
    (hd : decode w = .error e) :
    let me : State := { s with who := .elem g (Fin.ofNat 8 (k / 16)) (Fin.ofNat 16 k) }
    elemTurn s g k = .next (modRegion (if elemSkips me (hdrOf w) then me else elemFault me (illegalCode .elem e) 0) g.val
      fun r => { r with cursor := k + 1 }) := by
  simp only [elemTurn, hw, hd, onNext]

/-- Settles O7: every word is one call of `word`, whose gate is the first of the checks that fails. -/
theorem checksDecideBeforeAnyEffect : Obligations.ChecksDecideBeforeAnyEffect := by
  unfold Obligations.ChecksDecideBeforeAnyEffect
  refine ⟨fun i s hi hg => ?skip, fun i s c hi hg => ?stop, fun i s => ?skips, fun i s hg => ?order, fun w hw => decode_of_fmt hw,
    fun w hf ho => decode_of_op hf ho, fun s g k w e hk hw hd => ?ring, fun k => rfl, fun k i fields => ?reserved⟩
  case skip =>
    obtain ⟨f, g, he⟩ := exec_of_word hi s
    rw [he, word_of_skip hg]
  case stop =>
    obtain ⟨f, g, he⟩ := exec_of_word hi s
    rw [he, word_of_stop hg]
    simp
  case skips => rw [gate_eq_skip_iff, elemSkips_iff]
  case order =>
    rw [gate_of_ne_skip hg]
    refine ⟨fun h3 => ?_, fun h3 h4 => ?_, fun h3 h4 h5 => ?_, fun h3 h4 h5 => ?_⟩
    · rw [legal_eq, if_pos (show FailsContext _ i from h3)]
    · rw [legal_eq, if_neg (show ¬ FailsContext _ i from h3), if_pos (show FailsPrivilege _ i from h4)]
    · rw [legal_eq, if_neg (show ¬ FailsContext _ i from h3), if_neg (show ¬ FailsPrivilege _ i from h4),
        if_pos (show FailsForm _ i from h5)]
    · rw [legal_eq, if_neg (show ¬ FailsContext _ i from h3), if_neg (show ¬ FailsPrivilege _ i from h4),
        if_neg (show ¬ FailsForm _ i from h5)]
  case ring =>
    have ht := elemTurn_of_error hw hd
    refine ⟨fun hs => ht.trans ?_, fun hs => ht.trans ?_⟩
    · rw [if_pos ((elemSkips_elem ..).mpr hs)]
    · rw [if_neg fun h => hs ((elemSkips_elem ..).mp h)]
  case reserved =>
    refine ⟨illegalCode_of_context, fun h3 hf _ => ?_, illegalCode_of_predWord⟩
    split
    · next hp => exact illegalCode_of_privilege h3 hf hp
    · next hp => exact illegalCode_of_form h3 hf hp

end Sys2Proof.Machine
end

section
/-! PROOFS. The turn of a region: the next element runs the word that its ring hands out (R34, R70). -/

namespace Sys2Proof.Machine

theorem state_of_isRunning {r : Region} (h : isRunning r = true) : r.state = 1 := by
  simp only [isRunning, Bool.and_eq_true, beq_iff_eq] at h
  exact h.1

/-- A running region whose words are not done gives the turn to its next element; at the start of a cycle what found no place before is
asked for again first. -/
theorem regionTurn_of_running {s t : State} {g : Fin 32} (ht : t = if (region s g.val).cursor = 0 then askAgain s g.val else s)
    (hr : isRunning (region t g.val) = true) (hk : (region t g.val).cursor < 128)
    (hd : (region t g.val).cursor = 0 → wordsDone (region t g.val) = false) :
    regionTurn s g = elemTurn t g (region t g.val).cursor := by
  have ht' : (if (region s g.val).cursor == 0 then askAgain s g.val else s) = t := by simp only [ht, beq_iff_eq]
  have h2 : ((region t g.val).state == 2) = false := beq_false_of_ne (by rw [state_of_isRunning hr]; decide)
  have hd' : ((region t g.val).cursor == 0 && wordsDone (region t g.val)) = false := by
    by_cases h : (region t g.val).cursor = 0
    · simp [hd h]
    · simp [h]
  simp only [regionTurn, ht', h2, hr, hd', hk, if_pos, Bool.not_true, Bool.false_eq_true, if_false]

/-- A turn of a region outside the fatal state. -/
theorem step_region {s s' : State} {g : Fin 32} (hn : nextTurn s = (.region g, s')) (hf : s.io.fatal = false) :
    step s = onNext settleTurn (regionTurn s' g) := by
  rw [step_of_turn hn, agentTurn, io_of_nextTurn hn, hf, if_neg Bool.false_ne_true]

theorem elemTurn_of_ok {s u : State} {g : Fin 32} {k : Nat} {w : Word} {i : Instr} (hw : handedWord (region s g.val) k = some w)
    (hd : decode w = .ok i) (he : exec i { s with who := .elem g (Fin.ofNat 8 (k / 16)) (Fin.ofNat 16 k) } = .next u) :
    elemTurn s g k = .next (modRegion u g.val fun r => { r with cursor := k + 1 }) := by
  simp only [elemTurn, hw, hd, he, onNext]

theorem elemTurn_of_none {s : State} {g : Fin 32} {k : Nat} (hw : handedWord (region s g.val) k = none) :
    elemTurn s g k = .next (modRegion s g.val fun r => { r with cursor := k + 1 }) := by
  simp only [elemTurn, hw, onNext]

/-- Settles O5: the turn of a region is that of its next element, by the word that the ring hands out. -/
theorem ringWordRunsInItsElement : Obligations.RingWordRunsInItsElement := by
  unfold Obligations.RingWordRunsInItsElement
  intro s s' t g k hn hf ht hr hc hk hd me goOn
  have hs : step s = onNext settleTurn (elemTurn t g k) := by
    subst hc
    rw [step_region hn hf, regionTurn_of_running ht hr hk hd]
  refine ⟨fun w i u hw hi he => ?_, fun hw => ?_, fun w e hw he => ⟨fun h => ?_, fun h => ?_⟩⟩
  · rw [hs, elemTurn_of_ok hw hi he]
    rfl
  · rw [hs, elemTurn_of_none hw]
    rfl
  · rw [hs, elemTurn_of_error hw he, if_pos ((elemSkips_elem ..).mpr h)]
    rfl
  · rw [hs, elemTurn_of_error hw he, if_neg fun q => h ((elemSkips_elem ..).mp q)]
    rfl

end Sys2Proof.Machine
end

section
/-! PROOFS. The module after reset (R45, R112, R271, R299, R332, R334, R479). -/

namespace Sys2Proof.Machine

/-- A vector of one value reads as it everywhere, beyond its end too. -/
theorem vget_replicate {α : Type} (n : Nat) (a : α) (i : Nat) : vget a (Vector.replicate n a) i = a := by
  by_cases h : i < n <;> simp [vget, Vector.getD, h]

theorem dieAt_reset (n : Nat) : dieAt State.reset n = Die.reset := vget_replicate 24 _ n

theorem region_reset (g : Nat) : vget Region.reset Die.reset.regions g = Region.reset := vget_replicate 32 _ g
theorem queue_reset (q : Nat) : vget Queue.reset Die.reset.queues q = Queue.reset := vget_replicate 64 _ q
theorem codec_reset (k : Nat) : vget Codec.reset Die.reset.codec k = Codec.reset := vget_replicate 34 _ k
theorem stream_reset (b : Nat) : vget Stream.idle Die.reset.streams b = Stream.idle := vget_replicate 256 _ b

/-- Every core is as after reset but that the manager runs. -/
theorem core_reset (c : Nat) : vget Core.reset Die.reset.cores c = { Core.reset with run := (vget Core.reset Die.reset.cores c).run } := by
  have h : Die.reset.cores = vset (Vector.replicate 33 Core.reset) 32 { Core.reset with run := .running } := rfl
  rw [h]
  by_cases hc : 32 = c
  · subst hc
    rw [vget_vset_same _ _ _ _ (by decide)]
  · rw [vget_vset_ne _ _ _ _ _ hc, vget_replicate]

theorem memoryOk_reset : MemoryOk State.reset := rfl
theorem l2Agrees_reset : L2Agrees State.reset :=
  ⟨memoryOk_reset, rfl, rfl, rfl, fun _ _ h => nomatch h⟩

/-- Settles O59: each part of each die reads as its reset value. -/
theorem resetLeavesTheSpecValues : Obligations.ResetLeavesTheSpecValues := by
  unfold Obligations.ResetLeavesTheSpecValues
  simp only [dieAt_reset, region_reset, queue_reset, codec_reset, stream_reset]
  refine ⟨fun _ _ _ _ => ⟨rfl, rfl, rfl, rfl⟩, fun _ _ _ _ => ⟨rfl, rfl, rfl, rfl, rfl⟩, fun _ _ _ _ => rfl, fun _ _ => ⟨rfl, rfl⟩,
    fun _ c _ _ => ?cores, fun _ _ => ⟨rfl, rfl, rfl⟩, fun _ _ _ _ => trivial, rfl, rfl, memoryOk_reset, l2Agrees_reset⟩
  case cores =>
    rw [core_reset]
    exact ⟨rfl, rfl⟩

end Sys2Proof.Machine
end

section
/-! PROOFS. The memory words of an element: loads open windows (R47, R383, R465, R467), and stores are held (R40, R441, R465, R467). -/

namespace Sys2Proof.Machine

section
variable {i : Instr} {s : State}

/-- A word of an element that traps as it executes. -/
theorem elemOutcome_trap (c : Code) (v : X) : elemOutcome i s (.error (.trap c v)) = elemFault s c 0 := rfl
/-- A word of an element that misses its place in the schedule. -/
theorem elemOutcome_miss (cause : Nat) : elemOutcome i s (.error (.miss cause)) = elemFault s 0x10 cause := rfl

end

section
variable {h : Hdr} {d a b c : Reg} {off : BitVec 20} {win : BitVec 5} {port : BitVec 6} {hint : BitVec 3} {ty : BitVec 4}
  {aop : BitVec 5} {s : State}

/-! ### Loads -/

section
variable {form : LoadForm} {size n : Nat}

theorem elemLoad_of_aligned (hva : elemAddr s a b off % size = 0) : elemLoad s d a b off form size n port hint ty =
    .ok (openWindow s d form n port hint ty [(elemAddr s a b off, size)], []) := by simp [elemLoad, hva]
theorem elemLoad_of_misaligned (hva : elemAddr s a b off % size ≠ 0) : elemLoad s d a b off form size n port hint ty =
    .error (.trap 0x23 0) := by simp [elemLoad, hva]

end

theorem exec_ld_elem (hr : ElemRuns (.ld h d a b off port hint ty) s) : exec (.ld h d a b off port hint ty) s =
    .next (elemOutcome (.ld h d a b off port hint ty) s
      (elemLoad s d a b off (.scalar ty) (accessBytes .elem ty) 31 port hint ty)) := by
  rw [exec_ld, execLd, word_of_elem hr]
theorem exec_ldw_elem (hr : ElemRuns (.ldw h d a b off win port hint ty) s) : exec (.ldw h d a b off win port hint ty) s =
    .next (elemOutcome (.ldw h d a b off win port hint ty) s
      (elemLoad s d a b off (.scalar ty) (accessBytes .elem ty) win.toNat port hint ty)) := by
  rw [exec_ldw, execLdw, elemWord_of_elem hr]
theorem exec_vld_elem (hr : ElemRuns (.vld h d a b off port hint ty) s) : exec (.vld h d a b off port hint ty) s =
    .next (elemOutcome (.vld h d a b off port hint ty) s (elemLoad s d a b off .line 64 31 port hint ty)) := by
  rw [exec_vld, execVld, elemWord_of_elem hr]
theorem exec_vldw_elem (hr : ElemRuns (.vldw h d a b off win port hint ty) s) : exec (.vldw h d a b off win port hint ty) s =
    .next (elemOutcome (.vldw h d a b off win port hint ty) s (elemLoad s d a b off .line 64 win.toNat port hint ty)) := by
  rw [exec_vldw, execVldw, elemWord_of_elem hr]

theorem exec_vldx_aligned (hva : ∀ x ∈ laneAddrs s a b off ty, x % (tagWidth ty / 8) = 0)
    (hr : ElemRuns (.vldx h d a b off port hint ty) s) : exec (.vldx h d a b off port hint ty) s =
    .next (elemRetire (.vldx h d a b off port hint ty) (openWindow s d (.indexed (tagWidth ty)) 31 port hint ty
      ((laneAddrs s a b off ty).map fun va => (va, tagWidth ty / 8))) []) := by
  have hn : ¬ ((laneAddrs s a b off ty).any fun va => va % (tagWidth ty / 8) != 0) = true := by simpa using hva
  rw [exec_vldx, execVldx, elemWord_of_elem hr]
  dsimp only
  rw [if_neg hn, elemOutcome_ok]
theorem exec_vldx_misaligned (hva : ∃ x ∈ laneAddrs s a b off ty, x % (tagWidth ty / 8) ≠ 0)
    (hr : ElemRuns (.vldx h d a b off port hint ty) s) : exec (.vldx h d a b off port hint ty) s = .next (elemFault s 0x23 0) := by
  have hy : ((laneAddrs s a b off ty).any fun va => va % (tagWidth ty / 8) != 0) = true := by simpa using hva
  rw [exec_vldx, execVldx, elemWord_of_elem hr]
  dsimp only
  rw [if_pos hy, elemOutcome_trap]

/-! ### Stores -/

theorem elemStore_of_aligned {size v : Nat} (hva : elemAddr s a b off % size = 0) :
    elemStore s a b off size v ty hint = .ok (s, [holdFx s (elemAddr s a b off) (natBytes v size) ty hint none]) := by
  simp [elemStore, hva]

theorem exec_st_elem (hva : elemAddr s a b off % accessBytes .elem ty = 0) (hr : ElemRuns (.st h d a b off port hint ty) s) :
    exec (.st h d a b off port hint ty) s = .next (elemRetire (.st h d a b off port hint ty) s
      [holdFx s (elemAddr s a b off) (natBytes (eScalar s d).toNat (accessBytes .elem ty)) ty hint none]) := by
  rw [exec_st, execSt, word_of_elem hr, elemStore_of_aligned hva, elemOutcome_ok]
theorem exec_vst_elem (hva : elemAddr s a b off % 64 = 0) (hr : ElemRuns (.vst h d a b off port hint ty) s) :
    exec (.vst h d a b off port hint ty) s = .next (elemRetire (.vst h d a b off port hint ty) s
      [holdFx s (elemAddr s a b off) (natBytes (eVector s d 8).toNat 64) ty hint none]) := by
  rw [exec_vst, execVst, elemWord_of_elem hr, elemStore_of_aligned hva, elemOutcome_ok]
theorem exec_vstx_elem (hva : ∀ x ∈ laneAddrs s a b off ty, x % (tagWidth ty / 8) = 0)
    (hr : ElemRuns (.vstx h d a b off port hint ty) s) : exec (.vstx h d a b off port hint ty) s =
    .next (elemRetire (.vstx h d a b off port hint ty) s ((laneAddrs s a b off ty).zipIdx.map fun p =>
      holdFx s p.1 (natBytes (lane (eVector s d (tagWidth ty)) (tagWidth ty) p.2) (tagWidth ty / 8)) ty hint none)) := by
  have hn : ¬ ((laneAddrs s a b off ty).any fun va => va % (tagWidth ty / 8) != 0) = true := by simpa using hva
  rw [exec_vstx, execVstx, elemWord_of_elem hr]
  dsimp only
  rw [if_neg hn, elemOutcome_ok]
theorem exec_redseq_elem (hva : (eScalar s a).toNat % cellBytes ty = 0) (hr : ElemRuns (.redseq h a b c aop ty) s) :
    exec (.redseq h a b c aop ty) s = .next (elemRetire (.redseq h a b c aop ty) s
      [holdFx s (eScalar s a).toNat (natBytes (eScalar s b).toNat (cellBytes ty)) ty 0 (some (aop, ty, eScalar s c))]) := by
  rw [exec_redseq, execRedseq, word_of_elem hr]
  simp only [hva, bne_self_eq_false, Bool.false_eq_true, if_false, elemOutcome_ok]

end

/-- The record of an element's word touches no byte of memory. -/
theorem elemRetire_frame (i : Instr) (s : State) (fx : List Fx) :
    SameOutside s (elemRetire i s fx) ∧ ∀ x pa, byteAt (elemRetire i s fx) x pa = byteAt s x pa := by
  have h : OnlyDies s (elemRetire i s fx) := rfl
  exact ⟨h.sameOutside, h.byteAt⟩

/-- Settles O22: each load by its access, aligned or not. -/
theorem elementLoadsOpenWindows : Obligations.ElementLoadsOpenWindows := by
  unfold Obligations.ElementLoadsOpenWindows
  intro h d a b off win port hint ty s va size opened gives faults lanesOfB each
  refine ⟨fun hva hr => ?ld, fun hva hr => ?ldw, fun hva hr => ?vld, fun hva hr => ?vldw, fun hva hr => exec_vldx_aligned hva hr,
    fun hva => ⟨fun hr => ?ldBad, fun hr => ?ldwBad⟩, fun hva => ⟨fun hr => ?vldBad, fun hr => ?vldwBad⟩,
    fun hva hr => exec_vldx_misaligned hva hr⟩
  case ld => rw [exec_ld_elem hr, elemLoad_of_aligned hva]; rfl
  case ldw => rw [exec_ldw_elem hr, elemLoad_of_aligned hva]; rfl
  case vld => rw [exec_vld_elem hr, elemLoad_of_aligned hva]; rfl
  case vldw => rw [exec_vldw_elem hr, elemLoad_of_aligned hva]; rfl
  case ldBad => rw [exec_ld_elem hr, elemLoad_of_misaligned hva, elemOutcome_trap]
  case ldwBad => rw [exec_ldw_elem hr, elemLoad_of_misaligned hva, elemOutcome_trap]
  case vldBad => rw [exec_vld_elem hr, elemLoad_of_misaligned hva, elemOutcome_trap]
  case vldwBad => rw [exec_vldw_elem hr, elemLoad_of_misaligned hva, elemOutcome_trap]

/-- Settles O23: each store completes with its held stores, and its record is all that moves. -/
theorem elementStoresAreHeld : Obligations.ElementStoresAreHeld := by
  unfold Obligations.ElementStoresAreHeld
  intro h d a b c off port hint ty aop s va held lanesOfB each gives
  exact ⟨fun hva hr => ⟨exec_st_elem hva hr, elemRetire_frame ..⟩, fun hva hr => ⟨exec_vst_elem hva hr, elemRetire_frame ..⟩,
    fun hva hr => ⟨exec_vstx_elem hva hr, elemRetire_frame ..⟩, fun hva hr => ⟨exec_redseq_elem hva hr, elemRetire_frame ..⟩⟩

end Sys2Proof.Machine
end

section
/-! PROOFS. The buffer words: a beat goes into a place that is not full or comes out of one that is, in a cycle in which the port of its
node is free (R57, R156, R352 to R354). -/

namespace Sys2Proof.Machine

/-! ### The offset of a beat -/

section
variable {b : Buffer} {off : BitVec 20} {ty : BitVec 4}

theorem beatOff_of_fits (h : off.toNat % beatBytes ty = 0) (hp : off.toNat + beatBytes ty ≤ b.bytes) : beatOff b off ty = .ok () := by
  simp [beatOff, h, hp]
theorem beatOff_of_misaligned (h : off.toNat % beatBytes ty ≠ 0) : beatOff b off ty = .error (.trap 0x23 0) := by
  simp [beatOff, h]
theorem beatOff_of_past (h : off.toNat % beatBytes ty = 0) (hp : b.bytes < off.toNat + beatBytes ty) :
    beatOff b off ty = .error (.trap 0x21 0) := by
  simp [beatOff, h, hp]

end

section
variable {h : Hdr} {d a : Reg} {off : BitVec 20} {port : BitVec 6} {ty : BitVec 4} {s t : State} {b : Buffer}

/-! ### BUFGET -/

/-- BUFGET of a declared buffer whose offset fails a check. -/
theorem exec_bufget_off (hb : bufAt (region s (myRegion s)) port.toNat = some b) {c : Code} {v : X}
    (ho : beatOff b off ty = .error (.trap c v)) (hr : ElemRuns (.bufget h d off port ty) s) :
    exec (.bufget h d off port ty) s = .next (elemFault s c 0) := by
  rw [exec_bufget, execBufget, elemWord_of_elem hr]
  simp only [hb, ho, elemOutcome_trap]

/-- BUFGET from an empty place. -/
theorem exec_bufget_empty (hb : bufAt (region s (myRegion s)) port.toNat = some b) (ho : beatOff b off ty = .ok ())
    (hf : isFull b (vget 0 b.getIx (myCol s)) = false) (hr : ElemRuns (.bufget h d off port ty) s) :
    exec (.bufget h d off port ty) s = .next (elemFault s 0x10 1) := by
  rw [exec_bufget, execBufget, elemWord_of_elem hr]
  simp only [hb, ho, hf, Bool.not_false, if_pos, elemOutcome_miss]

/-- BUFGET from a full place, in a cycle in which the read port of its node is free. -/
theorem exec_bufget_full (hb : bufAt (region s (myRegion s)) port.toNat = some b) (ho : beatOff b off ty = .ok ())
    (hf : isFull b (vget 0 b.getIx (myCol s)) = true) (ht : takePort s b.node false = .ok t)
    (hr : ElemRuns (.bufget h d off port ty) s) :
    let place := vget 0 b.getIx (myCol s)
    let bs := nodeRead (region t (myRegion s)) b.node (placeOff b place + off.toNat) (beatBytes ty)
    exec (.bufget h d off port ty) s = .next (elemRetire (.bufget h d off port ty) t
      (.bufGet port.toNat place (off.toNat + beatBytes ty == b.bytes) :: .vector d (bytesLine (bs.take 64)) ::
        if mxTag ty then [.vector (d ||| 1) (bytesLine (bs.drop 64))] else [])) := by
  rw [exec_bufget, execBufget, elemWord_of_elem hr]
  simp only [hb, ho, hf, ht, Bool.not_true, Bool.false_eq_true, if_false, elemOutcome_ok]

/-! ### BUFPUT -/

/-- The region into whose buffer a BUFPUT with control word `cw` puts. -/
def putRegion (s : State) (cw : E32) : Nat := if cw.getLsbD 21 then bits cw.toNat 16 5 else myRegion s

/-- A remote BUFPUT into a region that the load does not name. -/
theorem exec_bufput_elsewhere (hz : bits (eScalar s a).toNat 22 10 = 0) (hrem : (eScalar s a).getLsbD 21 = true)
    (hl : sameLoad s (myRegion s) (putRegion s (eScalar s a)) = false) (hr : ElemRuns (.bufput h d a off port ty) s) :
    exec (.bufput h d a off port ty) s = .next (elemFault s 0x21 0) := by
  rw [putRegion, hrem, if_pos rfl] at hl
  rw [exec_bufput, execBufput, elemWord_of_elem hr]
  simp only [hz, hrem, hl, bne_self_eq_false, Bool.false_eq_true, if_true, if_false, Bool.not_false, Bool.and_self, elemOutcome_trap]

section
variable (hz : bits (eScalar s a).toNat 22 10 = 0)
  (hl : (eScalar s a).getLsbD 21 = true → sameLoad s (myRegion s) (putRegion s (eScalar s a)) = true)
  (hb : bufAt (region s (putRegion s (eScalar s a))) port.toNat = some b)
include hz hl hb

/-- BUFPUT into a declared buffer whose offset fails a check. -/
theorem exec_bufput_off {c : Code} {v : X} (ho : beatOff b off ty = .error (.trap c v))
    (hr : ElemRuns (.bufput h d a off port ty) s) : exec (.bufput h d a off port ty) s = .next (elemFault s c 0) := by
  rw [exec_bufput, execBufput, elemWord_of_elem hr]
  cases hrem : (eScalar s a).getLsbD 21 with
  | true =>
    rw [putRegion, hrem, if_pos rfl] at hl hb
    simp only [hz, hrem, hl, hb, ho, bne_self_eq_false, Bool.false_eq_true, if_true, if_false, Bool.not_true, Bool.and_false,
      elemOutcome_trap]
  | false =>
    rw [putRegion, hrem, if_neg Bool.false_ne_true] at hb
    simp only [hz, hrem, hb, ho, bne_self_eq_false, Bool.false_eq_true, if_false, Bool.false_and, elemOutcome_trap]

end

/-- The beats of a BUFPUT. -/
def putBeat (s : State) (d : Reg) (ty : BitVec 4) : List Byte :=
  lineBytes (eVector s d 512) ++ if mxTag ty then lineBytes (eVector s (d ||| 1) 512) else []

/-- A remote BUFPUT sends its beats over the vector network (R354). -/
theorem exec_bufput_remote (hz : bits (eScalar s a).toNat 22 10 = 0) (hrem : (eScalar s a).getLsbD 21 = true)
    (hl : sameLoad s (myRegion s) (putRegion s (eScalar s a)) = true)
    (hb : bufAt (region s (putRegion s (eScalar s a))) port.toNat = some b) (ho : beatOff b off ty = .ok ())
    (hr : ElemRuns (.bufput h d a off port ty) s) :
    let g' := putRegion s (eScalar s a)
    exec (.bufput h d a off port ty) s = .next (elemRetire (.bufput h d a off port ty) (modRegion s (myRegion s) fun r =>
      { r with beats := r.beats ++ [(⟨hopCount (myRegion s) g' + 1, myIter s, myPos s, myRow s, myCol s, g', port.toNat, off.toNat,
          putBeat s d ty, off.toNat + beatBytes ty == b.bytes, (eScalar s a).setWidth 16⟩ : RemoteBeat)] }) []) := by
  have hg : putRegion s (eScalar s a) = bits (eScalar s a).toNat 16 5 := by rw [putRegion, hrem, if_pos rfl]
  rw [hg] at hl hb ⊢
  rw [exec_bufput, execBufput, elemWord_of_elem hr]
  simp only [hz, hrem, hl, hb, ho, bne_self_eq_false, Bool.false_eq_true, if_true, if_false, Bool.not_true, Bool.and_false,
    elemOutcome_ok, putBeat]

/-- BUFPUT of the executing region into a place that is not full, in a cycle in which the write port of its node is free. -/
theorem exec_bufput_free (hz : bits (eScalar s a).toNat 22 10 = 0) (hrem : (eScalar s a).getLsbD 21 = false)
    (hb : bufAt (region s (myRegion s)) port.toNat = some b) (ho : beatOff b off ty = .ok ())
    (hf : isFull b (vget 0 b.putIx (myCol s)) = false) (ht : takePort s b.node true = .ok t)
    (hr : ElemRuns (.bufput h d a off port ty) s) :
    exec (.bufput h d a off port ty) s = .next (elemRetire (.bufput h d a off port ty) t
      [.bufPut port.toNat off.toNat (vget 0 b.putIx (myCol s)) (putBeat s d ty) (off.toNat + beatBytes ty == b.bytes)
        ((eScalar s a).setWidth 16)]) := by
  rw [exec_bufput, execBufput, elemWord_of_elem hr]
  simp only [hz, hrem, hb, ho, hf, ht, bne_self_eq_false, Bool.false_eq_true, if_false, Bool.false_and, elemOutcome_ok, putBeat]

/-- BUFPUT of the executing region into a full place. -/
theorem exec_bufput_full (hz : bits (eScalar s a).toNat 22 10 = 0) (hrem : (eScalar s a).getLsbD 21 = false)
    (hb : bufAt (region s (myRegion s)) port.toNat = some b) (ho : beatOff b off ty = .ok ())
    (hf : isFull b (vget 0 b.putIx (myCol s)) = true) (hr : ElemRuns (.bufput h d a off port ty) s) :
    exec (.bufput h d a off port ty) s = .next (elemFault s 0x10 1) := by
  rw [exec_bufput, execBufput, elemWord_of_elem hr]
  simp only [hz, hrem, hb, ho, hf, bne_self_eq_false, Bool.false_eq_true, if_true, if_false, Bool.false_and, elemOutcome_miss]

end

/-- The first BUFGET of a tile in column 0 meets another watermark than the one expected (R57). -/
theorem takeBeat_of_watermark {s : State} {g buf place : Nat} {last : Bool} {b : Buffer} (hb : bufAt (region s g) buf = some b)
    (ho : b.opened = false) (hw : b.full.get none place ≠ some b.expect) : takeBeat s g buf place 0 last = .error (0x11, 0) := by
  simp [takeBeat, hb, ho, hw]

/-- Settles O26: each buffer word by its checks, its place and its port. -/
theorem bufferWordsMoveBeats : Obligations.BufferWordsMoveBeats := by
  unfold Obligations.BufferWordsMoveBeats
  intro h d a off port ty s t b g n cw g' put get beat last fits ahead behind
  have ok : fits → beatOff b off ty = .ok () := fun hf => beatOff_of_fits hf.1 hf.2
  refine ⟨fun hb hf hfull ht hr => exec_bufget_full hb (ok hf) hfull ht hr,
    fun hb hz hrem hf hfree ht hr => exec_bufput_free hz hrem hb (ok hf) hfree ht hr,
    fun hb hz hrem hl hf hr => exec_bufput_remote hz hrem hl hb (ok hf) hr,
    fun hb ho hr => exec_bufget_off hb (beatOff_of_misaligned ho) hr,
    fun hb ho hp hr => exec_bufget_off hb (beatOff_of_past ho hp) hr,
    fun hb hf he hr => exec_bufget_empty hb (ok hf) he hr,
    fun hb hz hrem hf hfull hr => exec_bufput_full hz hrem hb (ok hf) hfull hr,
    fun hb hz hl hr => ⟨fun ho => exec_bufput_off hz hl hb (beatOff_of_misaligned ho) hr,
      fun ho hp => exec_bufput_off hz hl hb (beatOff_of_past ho hp) hr⟩,
    fun hz hrem hl hr => exec_bufput_elsewhere hz hrem hl hr, fun k iter pos place hb hk ho hw => ?watermark⟩
  case watermark => simp only [applyFx, hk, takeBeat_of_watermark hb ho hw, and_self]

end Sys2Proof.Machine
end

section
/-! PROOFS. Control flow: the conditions of Table 3-19, targets that name a word and targets that name none (R69, R347, R350, R379), NOP,
FRAME and HALT (R59, R73, R304). -/

namespace Sys2Proof.Machine

/-! ### A word that runs has legal fields -/

theorem legal_of_run {i : Instr} {s : State} (h : gate i s = .run) : legal (kindOf s) i = none := by
  have hn : gate i s ≠ .skip := by rw [h]; decide
  rw [gate_of_ne_skip hn] at h
  cases hl : legal (kindOf s) i with
  | none => rfl
  | some c => rw [hl] at h; cases h

theorem codedOk_of_legal {k : Kind} {i : Instr} (h : legal k i = none) : codedOk k i = true := by
  by_contra hc
  have hf : FailsForm k i := .inr (.inr (by simpa using hc))
  rw [legal_eq, if_pos hf] at h
  split_ifs at h

/-! ### Conditions -/

theorem lessInt_iff {w : Nat} (u : BitVec 1) (x y : BitVec w) : (if u == 1 then x.ult y else x.slt y) = true ↔
    if u = 1 then x.toNat < y.toNat else x.toInt < y.toInt := by
  by_cases hu : u = 1 <;> simp [hu, BitVec.ult, BitVec.slt]

theorem notLessInt_iff {w : Nat} (u : BitVec 1) (x y : BitVec w) : (!if u == 1 then x.ult y else x.slt y) = true ↔
    if u = 1 then y.toNat ≤ x.toNat else y.toInt ≤ x.toInt := by
  by_cases hu : u = 1 <;> simp [hu, BitVec.ult, BitVec.slt]

/-- The comparison of the integer words is that of Table 3-19, whose codes end at 5. -/
theorem compareInt_iff {w : Nat} {cc : BitVec 3} (hcc : ccInt cc = true) (u : BitVec 1) (a b : BitVec w) :
    compareInt cc u a b = true ↔ Holds cc u a b := by
  have hc : cc = 0 ∨ cc = 1 ∨ cc = 2 ∨ cc = 3 ∨ cc = 4 ∨ cc = 5 := by revert cc; decide
  rcases hc with rfl | rfl | rfl | rfl | rfl | rfl
  · simp [compareInt, Holds]
  · simp [compareInt, Holds]
  · exact (lessInt_iff u a b).trans (by simp [Holds])
  · exact (notLessInt_iff u a b).trans (by simp [Holds])
  · exact (notLessInt_iff u b a).trans (by simp [Holds])
  · exact (lessInt_iff u b a).trans (by simp [Holds])

/-! ### Jumps -/

section
variable {s : State} {t : Int}

/-- The core goes to the word of an index. -/
def goTo (s : State) (t : Int) : State :=
  modCore s (myCore s) fun k => { k with pc := BitVec.ofNat 54 t.toNat, supplied := [], issued := none }

theorem jumpTo_of_names (h : 0 ≤ t ∧ t < 6 * 2 ^ 51) : jumpTo s t = .ok (goTo s t) := by
  have hl : (pcLimit : Int) = 6 * 2 ^ 51 := rfl
  rw [jumpTo, hl, if_neg (by simp; omega)]
  rfl
theorem jumpTo_of_not_names (h : ¬ (0 ≤ t ∧ t < 6 * 2 ^ 51)) : jumpTo s t = .error (.trap 0x21 (BitVec.ofInt 64 t)) := by
  have hl : (pcLimit : Int) = 6 * 2 ^ 51 := rfl
  rw [jumpTo, hl, if_pos (by simp; omega)]

theorem linkTo_of_names (d : Reg) (h : 0 ≤ t ∧ t < 6 * 2 ^ 51) :
    linkTo s d t = .ok (setX (goTo s t) (myCore s) d.toNat (((core s (myCore s)).pc + 1).setWidth 64)) := by
  rw [linkTo, jumpTo_of_names h]
  rfl
theorem linkTo_of_not_names (d : Reg) (h : ¬ (0 ≤ t ∧ t < 6 * 2 ^ 51)) :
    linkTo s d t = .error (.trap 0x21 (BitVec.ofInt 64 t)) := by
  rw [linkTo, jumpTo_of_not_names h]
  rfl

end

theorem coreOutcome_ok (s t : State) : coreOutcome s (.ok t) = t := rfl
theorem coreOutcome_trap (s : State) (c : Code) (v : X) : coreOutcome s (.error (.trap c v)) = coreFault s (myCore s) c v := rfl

section
variable {h : Hdr} {d a b : Reg} {cc : BitVec 3} {u : BitVec 1} {off : BitVec 32} {s : State}

theorem exec_br_core (hr : CoreRuns (.br h off) s) :
    exec (.br h off) s = .next (coreOutcome s (jumpTo s (branchTarget s off))) := by
  rw [exec_br, execBr, coreWord_of_core hr]
theorem exec_jal_core (hr : CoreRuns (.jal h d off) s) :
    exec (.jal h d off) s = .next (coreOutcome s (linkTo s d (branchTarget s off))) := by
  rw [exec_jal, execJal, coreWord_of_core hr]
theorem exec_jalr_core (hr : CoreRuns (.jalr h d a off) s) :
    exec (.jalr h d a off) s = .next (coreOutcome s (linkTo s d ((xval s a + off.signExtend 64).toNat : Int))) := by
  rw [exec_jalr, execJalr, coreWord_of_core hr]

/-- BC jumps where its condition holds. -/
theorem exec_bc_taken (hc : Holds cc u (xval s a) (xval s b)) (hr : CoreRuns (.bc h a b cc u off) s) :
    exec (.bc h a b cc u off) s = .next (coreOutcome s (jumpTo s (branchTarget s off))) := by
  have hcc : ccInt cc = true := codedOk_of_legal (legal_of_run hr.2)
  rw [exec_bc, execBc, coreWord_of_core hr, if_pos ((compareInt_iff hcc u _ _).mpr hc)]
/-- And goes on where it does not. -/
theorem exec_bc_untaken (hc : ¬ Holds cc u (xval s a) (xval s b)) (hr : CoreRuns (.bc h a b cc u off) s) :
    exec (.bc h a b cc u off) s = .next (advance s) := by
  have hcc : ccInt cc = true := codedOk_of_legal (legal_of_run hr.2)
  rw [exec_bc, execBc, coreWord_of_core hr, if_neg fun he => hc ((compareInt_iff hcc u _ _).mp he), coreOutcome_ok]

/-! ### NOP, FRAME and HALT -/

theorem exec_nop_core (hr : CoreRuns (.nop h) s) : exec (.nop h) s = .next (advance s) := by
  rw [exec_nop, execNop, word_of_core hr, coreOutcome_ok]
theorem exec_nop_elem (hr : ElemRuns (.nop h) s) : exec (.nop h) s = .next (elemRetire (.nop h) s []) := by
  rw [exec_nop, execNop, word_of_elem hr, elemOutcome_ok]
theorem exec_frame_elem (hr : ElemRuns (.frame h) s) : exec (.frame h) s = .next (elemRetire (.frame h) s [.frame]) := by
  rw [exec_frame, execFrame, elemWord_of_elem hr, elemOutcome_ok]
theorem exec_halt_core (hi : (core s (myCore s)).inh = false) (hr : CoreRuns (.halt h) s) :
    exec (.halt h) s = .next (modCore (advance s) (myCore s) fun k => { k with run := .halted }) := by
  rw [exec_halt, execHalt, coreWord_of_core hr, hi, if_neg Bool.false_ne_true, coreOutcome_ok]
theorem exec_halt_handler (hi : (core s (myCore s)).inh = true) (hr : CoreRuns (.halt h) s) :
    exec (.halt h) s = .next (coreFault s (myCore s) 0x01 0) := by
  rw [exec_halt, execHalt, coreWord_of_core hr, hi, if_pos rfl, coreOutcome_trap]

end

/-- Settles O44: each word by its target, its condition or its context. -/
theorem branchesJumpsAndStops : Obligations.BranchesJumpsAndStops := by
  unfold Obligations.BranchesJumpsAndStops
  intro h d a b cc u off s me pc near far names at_ linked gives prot
  refine ⟨fun hn => ⟨fun hr => ?br, fun hr => ?jal⟩, fun hn => ⟨fun hr => ?brNot, fun hr => ?jalNot⟩, fun hn hr => ?jalr,
    fun hn hr => ?jalrNot, fun hc hn hr => ?bc, fun hc hn hr => ?bcNot, exec_bc_untaken, exec_nop_core, exec_nop_elem, exec_frame_elem,
    exec_halt_core, exec_halt_handler⟩
  case br => rw [exec_br_core hr, jumpTo_of_names (t := branchTarget s off) hn, coreOutcome_ok]; rfl
  case jal => rw [exec_jal_core hr, linkTo_of_names (t := branchTarget s off) d hn, coreOutcome_ok]; rfl
  case brNot => rw [exec_br_core hr, jumpTo_of_not_names (t := branchTarget s off) hn, coreOutcome_trap]; rfl
  case jalNot => rw [exec_jal_core hr, linkTo_of_not_names (t := branchTarget s off) d hn, coreOutcome_trap]; rfl
  case jalr => rw [exec_jalr_core hr, linkTo_of_names d hn, coreOutcome_ok]; rfl
  case jalrNot => rw [exec_jalr_core hr, linkTo_of_not_names d hn, coreOutcome_trap]
  case bc => rw [exec_bc_taken hc hr, jumpTo_of_names (t := branchTarget s off) hn, coreOutcome_ok]; rfl
  case bcNot => rw [exec_bc_taken hc hr, jumpTo_of_not_names (t := branchTarget s off) hn, coreOutcome_trap]; rfl

end Sys2Proof.Machine
end

section
/-! PROOFS. The system registers: MFSR and MTSR in each context (R45, R395), and what a plain register holds after a write (R112, R271,
R299, R302, R307). -/

namespace Sys2Proof.Machine

/-! ### MFSR and MTSR -/

section
variable {i : Instr} {d a : Reg} {n : BitVec 12} {s t : State} {r : Sr}

theorem mfsrWord_of_elem (hr : ElemRuns i s) {x : E32}
    (hn : (n = 0 ∧ x = ident s) ∨ (n = 0x20 ∧ x = (myElem s).fflags.setWidth 32)) :
    mfsrWord i d n s = .next (elemRetire i s [.scalar d x]) := by
  rw [mfsrWord, word_of_elem hr]
  obtain ⟨rfl, rfl⟩ | ⟨rfl, rfl⟩ := hn <;> rfl

theorem mfsrWord_of_core (hr : CoreRuns i s) (hn : srOf (kindOf s) (myCore s) n.toNat = .ok r) :
    mfsrWord i d n s = .next (retX (srAfterRead s r) d (srRead s r)) := by
  rw [mfsrWord, word_of_core hr]
  simp only [hn, coreOutcome_ok]

theorem mtsrWord_of_no_register {c : Code} (hr : CoreRuns i s) (hn : srOf (kindOf s) (myCore s) n.toNat = .error c) :
    mtsrWord i a n s = .next (coreFault s (myCore s) c 0) := by
  rw [mtsrWord, coreWord_of_core hr]
  simp only [hn, coreOutcome_trap]

section
variable (hr : CoreRuns i s) (hn : srOf (kindOf s) (myCore s) n.toNat = .ok r)
include hr hn

theorem mtsrWord_of_readOnly (ho : srReadOnly r = true) : mtsrWord i a n s = .next (coreFault s (myCore s) 0x01 0) := by
  rw [mtsrWord, coreWord_of_core hr]
  simp only [hn, ho, if_true, coreOutcome_trap]

variable (ho : srReadOnly r = false)
include ho

/-- A stagehand's ASROOT is the supervisor's to write. -/
theorem mtsrWord_of_own (hw : kindOf s = .stage ∧ n = 0x60) : mtsrWord i a n s = .next (coreFault s (myCore s) 0x03 0) := by
  have hb : (kindOf s == .stage && n == 0x60) = true := by simp [hw]
  rw [mtsrWord, coreWord_of_core hr]
  simp only [hn, ho, hb, Bool.false_eq_true, if_true, if_false, coreOutcome_trap]

variable (hw : ¬ (kindOf s = .stage ∧ n = 0x60))
include hw

theorem mtsrWord_of_reserved (hv : xval s a &&& srReserved r ≠ 0) : mtsrWord i a n s = .next (coreFault s (myCore s) 0x22 0) := by
  have hb : (kindOf s == .stage && n == 0x60) = false := by simpa using hw
  have hz : (xval s a &&& srReserved r != 0) = true := by simpa using hv
  rw [mtsrWord, coreWord_of_core hr]
  simp only [hn, ho, hb, hz, Bool.false_eq_true, if_true, if_false, coreOutcome_trap]

theorem mtsrWord_of_written (hv : xval s a &&& srReserved r = 0) (ht : srWrite s r (xval s a) = .ok t) :
    mtsrWord i a n s = .next (advance t) := by
  have hb : (kindOf s == .stage && n == 0x60) = false := by simpa using hw
  have hz : (xval s a &&& srReserved r != 0) = false := by simpa using hv
  rw [mtsrWord, coreWord_of_core hr]
  simp only [hn, ho, hb, hz, ht, Bool.false_eq_true, if_false, coreOutcome_ok]

end
end

/-- The uses of MFSR are words of it (Table 22-4). -/
theorem exec_mfsr_uses (h : Hdr) (d : Reg) (n : BitVec 12) (s : State) :
    ∀ i ∈ [Instr.mfsr h d n, .ufinfoRead h d n, .ucfgRead h d n], exec i s = mfsrWord i d n s := by
  simp only [List.forall_mem_cons]
  exact ⟨rfl, rfl, rfl, List.forall_mem_nil _⟩

/-- The uses of MTSR are words of it (Table 22-4). -/
theorem exec_mtsr_uses (h : Hdr) (a : Reg) (n : BitVec 12) (s : State) :
    ∀ i ∈ [Instr.mtsr h a n, .istartFreshStart h n a, .istartResume h n a, .istartCancel h n a, .eflagsClear h n a,
      .lqstatClearDrops h n a, .shctlRun h n a, .shctlFreeze h n a, .shctlReset h n a], exec i s = mtsrWord i a n s := by
  simp only [List.forall_mem_cons]
  exact ⟨rfl, rfl, rfl, rfl, rfl, rfl, rfl, rfl, rfl, List.forall_mem_nil _⟩

/-- Settles O49: every use of MFSR and MTSR is that word, and each of its checks decides in its turn. -/
theorem systemRegisterWords : Obligations.SystemRegisterWords := by
  unfold Obligations.SystemRegisterWords
  intro h d a n s t r named v gives
  refine ⟨fun hn hr => mfsrWord_of_elem hr (.inl ⟨hn, rfl⟩), fun hn hr => mfsrWord_of_elem hr (.inr ⟨hn, rfl⟩),
    fun hn i hi hr => (exec_mfsr_uses h d n s i hi).trans (mfsrWord_of_core hr hn), fun i hi => ?_⟩
  intro own
  have he := exec_mtsr_uses h a n s i hi
  exact ⟨fun hn ho hw hv ht hr => he.trans (mtsrWord_of_written hr hn ho hw hv ht),
    fun hn ho hr => he.trans (mtsrWord_of_readOnly hr hn ho), fun hn ho hw hr => he.trans (mtsrWord_of_own hr hn ho hw),
    fun hn ho hw hv hr => he.trans (mtsrWord_of_reserved hr hn ho hw hv), fun c hn hr => he.trans (mtsrWord_of_no_register hr hn)⟩

/-! ### A plain register -/

/-- The register holds what is written to it, and memory, the general registers and every pc stay. -/
def HoldsWritten (s : State) (v : X) (r : Sr) : Prop :=
  ∃ t, srWrite s r v = .ok t ∧ srRead t r = v ∧ t.mem = s.mem ∧ t.l2 = s.l2 ∧
    ∀ n, (core t n).x = (core s n).x ∧ (core t n).pc = (core s n).pc

section
variable {s : State} {v : X} {r : Sr}

/-- A register kept in a core. -/
theorem holdsWritten_core {c : Nat} {f : Core → Core} (hc : c < 33) (hw : srWrite s r v = .ok (modCore s c f))
    (hr : srRead (modCore s c f) r = v) (hf : ∀ k, (f k).x = k.x ∧ (f k).pc = k.pc) : HoldsWritten s v r := by
  refine ⟨_, hw, hr, rfl, rfl, fun n => ?_⟩
  by_cases h : c = n
  · subst h
    rw [core_modCore_same _ _ _ hc]
    exact hf _
  · rw [core_modCore_ne _ _ _ _ h]
    exact ⟨rfl, rfl⟩

/-- A register kept in another part of the die. -/
theorem holdsWritten_die {f : Die → Die} (hw : srWrite s r v = .ok (modDie s f)) (hr : srRead (modDie s f) r = v)
    (hf : ∀ d, (f d).cores = d.cores) : HoldsWritten s v r :=
  ⟨_, hw, hr, rfl, rfl, fun n => by simp [core, hf]⟩

end

/-- A value without the bits above a field is the field's value. -/
theorem setWidth_setWidth_of_masked {v m : X} {w : Nat} (hm : ∀ i < 64, w ≤ i → m.getLsbD i = true) (h : v &&& m = 0) :
    (v.setWidth w).setWidth 64 = v := by
  apply BitVec.eq_of_getLsbD_eq
  intro i hi
  by_cases hw : i < w
  · simp [hi, hw]
  · have hb : (v &&& m).getLsbD i = false := by simp [h]
    rw [BitVec.getLsbD_and, hm i hi (by omega), Bool.and_true] at hb
    rw [BitVec.getLsbD_setWidth, BitVec.getLsbD_setWidth, hb, Bool.and_false, Bool.and_false]

/-- A counter of the codec. -/
theorem holdsWritten_codec (s : State) (v : X) (c : Nat) {k : Nat} (hc : c < 34) (hk : k < 4) (hv : v &&& srReserved (.codec c k) = 0) :
    HoldsWritten s v (.codec c k) := by
  refine holdsWritten_die rfl ?_ fun d => rfl
  match k, hk with
  | 0, _ => simp [srRead, hc]
  | 1, _ => simp [srRead, hc]
  | 2, _ => simpa [srRead, hc] using setWidth_setWidth_of_masked (m := ~~~(0xFFFF : X)) (w := 16) (by decide) hv
  | 3, _ => simp [srRead, hc]

/-- Settles O50: each register is a field of a core, or of another part of the die. -/
theorem systemRegistersHoldWhatIsWritten : Obligations.SystemRegistersHoldWhatIsWritten := by
  unfold Obligations.SystemRegistersHoldWhatIsWritten
  intro s v c q k plain r hr hv
  change HoldsWritten s v r
  have h32 : c % 32 < 32 := Nat.mod_lt _ (by decide)
  have h33 : c % 33 < 33 := Nat.mod_lt _ (by decide)
  have h64 : q % 64 < 64 := Nat.mod_lt _ (by decide)
  simp only [plain, List.mem_cons, List.not_mem_nil, or_false] at hr
  rcases hr with rfl | rfl | rfl | rfl | rfl | rfl | rfl | rfl | rfl | rfl | rfl | rfl | rfl | rfl
  · exact holdsWritten_die rfl (by simp [srRead, invRead, region, h32]) fun d => rfl
  · exact holdsWritten_die rfl (by simp [srRead, invRead, region, h32]) fun d => rfl
  · exact holdsWritten_core h33 rfl
      (by simpa [srRead, h33] using setWidth_setWidth_of_masked (m := ~~~(0x7F : X)) (w := 7) (by decide) hv) fun k => ⟨rfl, rfl⟩
  · exact holdsWritten_core h33 rfl (by simp [srRead, h33]) fun k => ⟨rfl, rfl⟩
  · exact holdsWritten_core h33 rfl (by simp [srRead, h33]) fun k => ⟨rfl, rfl⟩
  · exact holdsWritten_codec s v _ (Nat.mod_lt _ (by decide)) (Nat.mod_lt _ (by decide)) hv
  · exact holdsWritten_core h33 rfl (by simp [srRead, h33]) fun k => ⟨rfl, rfl⟩
  · exact holdsWritten_die rfl (by simp [srRead]) fun d => rfl
  · exact holdsWritten_die rfl (by simp [srRead]) fun d => rfl
  · exact holdsWritten_core h33 rfl (by simp [srRead, h33]) fun k => ⟨rfl, rfl⟩
  · exact holdsWritten_core h33 rfl
      (by simpa [srRead, h33] using setWidth_setWidth_of_masked (m := 0xFFC0000000000000) (w := 54) (by decide) hv) fun k => ⟨rfl, rfl⟩
  · exact holdsWritten_die rfl (by simp [srRead]) fun d => rfl
  · exact holdsWritten_die rfl (by simp [srRead, queue, h64]) fun d => rfl
  · exact holdsWritten_die rfl (by simp [srRead, queue, h64]) fun d => rfl

end Sys2Proof.Machine
end

section
/-! PROOFS. A write to ISTART, and what a region reports of the faults it has met (R46, R51, R55, R62, R160). -/

namespace Sys2Proof.Machine

/-! ### The faults of a region -/

theorem reported_eq_none {l : List FaultRec} : reported l = none ↔ l = [] := by cases l <;> simp [reported]

/-- The order of R51 as one number: the oldest iteration, then the lowest row, then the lowest column. -/
def faultAge (f : FaultRec) : Nat := f.iter * 2 ^ 16 + f.row * 16 + f.col

theorem olderFault_of_lt {a b : FaultRec} (h : faultAge b < faultAge a) : olderFault a b = b := if_pos h
theorem olderFault_of_le {a b : FaultRec} (h : faultAge a ≤ faultAge b) : olderFault a b = a := if_neg (Nat.not_lt.2 h)

/-- Of several faults, one that is at least as old as each of them is left. -/
theorem foldl_olderFault_mem_le (l : List FaultRec) (x : FaultRec) :
    l.foldl olderFault x ∈ x :: l ∧ ∀ y ∈ x :: l, faultAge (l.foldl olderFault x) ≤ faultAge y := by
  induction l generalizing x with
  | nil => simp
  | cons y l ih =>
    rw [List.foldl_cons]
    rcases Nat.lt_or_ge (faultAge y) (faultAge x) with h | h
    · obtain ⟨hm, hle⟩ := ih y
      rw [olderFault_of_lt h]
      refine ⟨List.mem_cons_of_mem _ hm, List.forall_mem_cons.2 ⟨?_, hle⟩⟩
      exact (hle y List.mem_cons_self).trans h.le
    · obtain ⟨hm, hle⟩ := ih x
      rw [olderFault_of_le h]
      obtain ⟨hx, hl⟩ := List.forall_mem_cons.1 hle
      refine ⟨?_, List.forall_mem_cons.2 ⟨hx, List.forall_mem_cons.2 ⟨hx.trans h, hl⟩⟩⟩
      rcases List.mem_cons.1 hm with e | hm
      · exact List.mem_cons.2 (.inl e)
      · exact List.mem_cons_of_mem _ (List.mem_cons_of_mem _ hm)

/-- What is reported is met, and nothing met is older (R51). -/
theorem reported_oldest {x f : FaultRec} {l : List FaultRec} (h : reported (x :: l) = some f) :
    f ∈ x :: l ∧ ∀ y ∈ x :: l, faultAge f ≤ faultAge y := by
  cases h
  exact foldl_olderFault_mem_le l x

section
variable {s : State} {g n : Nat}

theorem recordLate_of_no_fault (h : (region s g).faults = []) : recordLate s g = s := by
  simp [recordLate, h, reported]

theorem judged_eq : judged s g = if (region s g).faults = [] then s else discardGroup s (region s g).group := by
  simp only [judged, List.isEmpty_iff]

/-- The discard of a freeze group, region by region, each under its own fault or under the first of the group (R52). -/
theorem discardGroup_of_reported {first : FaultRec}
    (h : reported ((groupRegions s n ++ againRegions s n).flatMap fun g => (region s g).faults) = some first) :
    discardGroup s n = (groupRegions s n ++ againRegions s n).foldl (fun u h =>
      match reported (region u h).faults with
      | some own => discardRegion u h own true
      | none => discardRegion u h first false) s := by
  simp only [discardGroup, h] <;> rfl

theorem discardGroup_of_no_fault (h : ∀ k ∈ groupRegions s n ++ againRegions s n, (region s k).faults = []) : discardGroup s n = s := by
  simp only [discardGroup, List.flatMap_eq_nil_iff.2 h, reported]

end

/-! ### A write to ISTART -/

section
variable {s : State} {g : Nat} {v : X}

/-- The fields of a value written to ISTART (Table 2-4) where no bit above FIRST but `RESUME` and `CANCEL` is set. -/
theorem istart_fields (h : v.toNat < 2 ^ 34) :
    bits v.toNat 34 30 = 0 ∧ istartFirst v = v.toNat % 2 ^ 32 ∧ istartResume v = decide (v.toNat / 2 ^ 32 % 2 = 1) ∧
      istartCancel v = decide (2 ^ 33 ≤ v.toNat) := by
  refine ⟨?_, ?_, ?_, ?_⟩
  · simp only [bits]; omega
  · simp only [istartFirst, bits]; omega
  · simp only [istartResume, BitVec.getLsbD, Nat.testBit_eq_decide_div_mod_eq]
  · simp only [istartCancel, BitVec.getLsbD, Nat.testBit_eq_decide_div_mod_eq, decide_eq_decide]
    omega

/-- A start that R46 refuses: an extent of 0, or a product beyond 2^31. -/
theorem extents_refused_iff {ext : BitVec 64} :
    ((extents ext).contains 0 || decide (2 ^ 31 < extentProduct ext)) = true ↔ ¬ (0 ∉ extents ext ∧ extentProduct ext ≤ 2 ^ 31) := by
  rw [Bool.or_eq_true, List.contains_iff_mem, decide_eq_true_iff, not_and_or, not_not, Nat.not_le]

theorem extents_accepted {ext : BitVec 64} (h : 0 ∉ extents ext ∧ extentProduct ext ≤ 2 ^ 31) :
    ((extents ext).contains 0 || decide (2 ^ 31 < extentProduct ext)) = false :=
  Bool.eq_false_iff.2 fun hc => extents_refused_iff.1 hc h

/-- A start within the extents: STATE 1, its first word four cycles on (R46). -/
theorem startNow_of_lt {w : Invocation} (h : w.first < w.count) :
    startNow s g w = modRegion s g fun r => { r with
      state := 1
      inv := some { w with c0 := some ((region s g).rc + 4) }
      cursor := 0
      freezeWanted := false } := by
  simp only [startNow, Nat.not_le.2 h, if_false]

section
variable (hv : v.toNat < 2 ^ 32)
include hv

theorem istart_fresh_fields : bits v.toNat 34 30 = 0 ∧ istartFirst v = v.toNat % 2 ^ 32 ∧ istartResume v = false ∧ istartCancel v = false := by
  obtain ⟨hb, hf, hr, hc⟩ := istart_fields (v := v) (by omega)
  refine ⟨hb, hf, hr.trans ?_, hc.trans ?_⟩ <;> simp only [decide_eq_false_iff_not] <;> omega

/-- A fresh start of an idle region. -/
theorem writeIstart_starts (hs : (region s g).state = 0) (hl : 0 ∉ extents (region s g).iext ∧ extentProduct (region s g).iext ≤ 2 ^ 31)
    (hn : v.toNat % 2 ^ 32 < extentProduct (region s g).iext) :
    writeIstart s g v = .ok (modRegion (recordLate s g) g fun r => { r with
      state := 1
      inv := some (sampleInv s g (v.toNat % 2 ^ 32) (some (r.rc + 4)) [] [])
      cursor := 0
      freezeWanted := false }) := by
  obtain ⟨hb, hf, hr, hc⟩ := istart_fresh_fields hv
  have hw : startNow (recordLate s g) g (sampleInv s g (v.toNat % 2 ^ 32) none [] []) = _ := startNow_of_lt hn
  rw [modRegion_congr (f' := fun r => { r with
    state := 1, inv := some (sampleInv s g (v.toNat % 2 ^ 32) (some (r.rc + 4)) [] []), cursor := 0, freezeWanted := false }) rfl] at hw
  simp only [writeIstart, hb, hc, hr, hs, hf, extents_accepted hl, ← hw]
  rfl

/-- A start in a region whose frame is complete waits for the cue (R61). -/
theorem writeIstart_waits (hs : (region s g).state = 4) (hl : 0 ∉ extents (region s g).iext ∧ extentProduct (region s g).iext ≤ 2 ^ 31) :
    writeIstart s g v = .ok (modRegion s g fun r => { r with state := 5, inv := some (sampleInv s g (v.toNat % 2 ^ 32) none [] []) }) := by
  obtain ⟨hb, hf, hr, hc⟩ := istart_fresh_fields hv
  simp only [writeIstart, hb, hc, hr, hs, hf, extents_accepted hl]
  rfl

theorem writeIstart_refused (hs : (region s g).state = 0 ∨ (region s g).state = 4)
    (hl : ¬ (0 ∉ extents (region s g).iext ∧ extentProduct (region s g).iext ≤ 2 ^ 31)) : writeIstart s g v = .error 0x01 := by
  obtain ⟨hb, hf, hr, hc⟩ := istart_fresh_fields hv
  rcases hs with hs | hs <;> simp only [writeIstart, hb, hc, hr, hs, extents_refused_iff.2 hl] <;> rfl

end

/-- A resume takes up the restart iteration under the seed of the first start (R62, R109). -/
theorem writeIstart_resumes {inv : Invocation} {marks back : Table Nat} (hv : v.toNat = 2 ^ 32) (hs : (region s g).state = 3)
    (hi : (region (judged s g) g).inv = some inv)
    (hm : marks = inv.marks.filter fun p => decide (inv.first ≤ p.1)) (hk : back = marks.map fun p => (p.1, p.2 - 1))
    (hn : (sampleInv (judged s g) g inv.first none marks back).first < (sampleInv (judged s g) g inv.first none marks back).count) :
    writeIstart s g v = .ok (modRegion (judged s g) g fun r => { r with
      state := 1
      inv := some { sampleInv (judged s g) g inv.first none marks back with
        seed := inv.seed, c0 := some ((region (judged s g) g).rc + 4) }
      cursor := 0
      freezeWanted := false }) := by
  subst hm hk
  obtain ⟨hb, hf, hr, hc⟩ := istart_fields (v := v) (by omega)
  have hf : istartFirst v = 0 := by omega
  have hr : istartResume v = true := by rw [hr, hv]; rfl
  have hc : istartCancel v = false := by rw [hc, hv]; rfl
  simp only [writeIstart, hb, hc, hr, hs, hf, hi]
  exact congrArg Except.ok (startNow_of_lt (w := { sampleInv (judged s g) g inv.first none _ _ with seed := inv.seed }) hn)

@[simp] theorem region_withdrawRetry (s : State) (p : Retry → Bool) (g : Nat) : region (withdrawRetry s p) g = region s g := by
  simp only [withdrawRetry, region, die_modDie]

/-- A cancel leaves the region idle, its held stores and retry entries gone (R55). -/
theorem writeIstart_cancels (hv : v.toNat = 2 ^ 33) (hs : (region s g).state = 3) (hg : g < 32)
    (hp : (region (judged s g) g).framePending = false) :
    writeIstart s g v = .ok (modRegion (withdrawRetry (judged s g) fun q => isHeldOf g q.who) g fun r => { r with
      state := 0, slot := slotCounter r, hold := [], inv := none }) := by
  obtain ⟨hb, hf, hr, hc⟩ := istart_fields (v := v) (by omega)
  have hf : istartFirst v = 0 := by omega
  have hr : istartResume v = false := by rw [hr, hv]; rfl
  have hc : istartCancel v = true := by rw [hc, hv]; rfl
  simp only [writeIstart, hb, hc, hr, hs, hf, region_modRegion_same _ _ _ hg, region_withdrawRetry, hp]
  rfl

end

end Sys2Proof.Machine
end

section
/-! PROOFS. The events of a region in time: windows, the limit of a freeze, the end of an invocation, the cue, a checked image and the
token (R43, R47, R48, R50, R61, R64, R315, R391). -/

namespace Sys2Proof.Machine

/-! ### Windows -/

section
variable {s : State} {g e w : Nat} {q : Window} (hq : windowAt s g e w = some q)
include hq

theorem exec_windowDataArrival_of_due (ha : AgentRuns (.windowDataArrival g e w)) (hf : windowFull q = false)
    (hs : (region s g).state = 1 ∨ (region s g).state = 2) :
    exec (.windowDataArrival g e w) s = .next (setWindow (fillWindow s g e q [] q.accs).1 g e w
      (some { q with accs := (fillWindow s g e q [] q.accs).2 })) := by
  rw [exec_windowDataArrival, execWindowDataArrival]
  simp only [hq]
  exact event_of_enabled ha (by simpa [hf] using hs)

/-- The close of a window that is due (R48). -/
theorem exec_windowClose_of_due (ha : AgentRuns (.windowClose g e w)) (hd : windowDue (region s g) q = true)
    (hr : isRunning (region s g) = true) : exec (.windowClose g e w) s = .next (closeWindow s g e w q) := by
  rw [exec_windowClose, execWindowClose]
  simp only [hq]
  exact event_of_enabled ha (by rw [hd, hr, Bool.true_and])

end

/-- A window is due once its cycle has come and it can be judged. -/
theorem windowDue_iff {r : Region} {q : Window} :
    windowDue r q = true ↔ q.closed = false ∧ q.close ≤ r.rc ∧
      (windowFull q = true ∨ (windowFault q).isSome = true ∨ windowPaged q = false) := by
  simp only [windowDue, Bool.and_eq_true, Bool.not_eq_true', decide_eq_true_iff, Bool.or_eq_true, or_assoc, and_assoc]

section
variable {s : State} {g e w : Nat} {q : Window}

theorem closeWindow_of_full (hf : windowFault q = none) (hd : windowFull q = true) :
    closeWindow s g e w q = setWindow s g e w (some { q with closed := true }) := by
  simp only [closeWindow, closeFault, hf, hd, if_true]

/-- A window that closes with a fault records it at its word (R48). -/
theorem closeWindow_of_fault {c : Code} (hc : closeFault q = some c) :
    closeWindow s g e w q = modRegion (setWindow s g e w none) g fun r =>
      { r with faults := r.faults ++ [⟨q.iter, e / 16, e % 16, q.pos, c, 0⟩] } := by
  simp only [closeWindow, hc]

theorem closeFault_of_fault {c : Code} (hf : windowFault q = some c) : closeFault q = some c := by simp only [closeFault, hf]

theorem closeFault_of_missing (hf : windowFault q = none) (hd : windowFull q = false) : closeFault q = some 0x10 := by
  simp only [closeFault, hf, hd]
  rfl

end

/-! ### The write of a closed window -/

/-- What a window writes is one register of its element, and no window. -/
theorem applyFx_windowValue (q : Window) : ∃ f : Element → Element, (∀ x, (f x).wins = x.wins) ∧
    ∀ s g k i p, applyFx s g k i p (windowValue q) = .ok (modElem s g k f) := by
  unfold windowValue
  cases q.form with
  | scalar ty =>
    refine ⟨_, fun x => ?_, fun _ _ _ _ _ => rfl⟩
    simp only [setScalarReg]
    split <;> rfl
  | line =>
    refine ⟨_, ?_, fun _ _ _ _ _ => rfl⟩
    exact fun _ => rfl
  | indexed width =>
    refine ⟨_, ?_, fun _ _ _ _ _ => rfl⟩
    exact fun _ => rfl

/-- A fold in which one number alone acts. -/
theorem foldl_range_of_one {σ : Type} {f : σ → Nat → σ} {s t : σ} {e : Nat} (n : Nat) (hs : ∀ k < n, k ≠ e → f s k = s) (he : f s e = t)
    (ht : ∀ k < n, k ≠ e → f t k = t) : (List.range n).foldl f s = if e < n then t else s := by
  induction n with
  | zero => rfl
  | succ n ih =>
    rw [List.range_succ, List.foldl_append, ih (fun k hk => hs k (by omega)) (fun k hk => ht k (by omega)), List.foldl_cons, List.foldl_nil]
    rcases Nat.lt_trichotomy e n with h | h | h
    · rw [if_pos h, if_pos (by omega), ht n (by omega) (by omega)]
    · rw [if_neg (by omega), if_pos (by omega), ← h, he]
    · rw [if_neg (by omega), if_neg (by omega), hs n (by omega) (by omega)]

/-- The windows that an element has closed write and go. -/
def writeClosedOf (g : Nat) (s : State) (k : Nat) : State :=
  let ws := (elemAt s g k).wins.filter fun w => w.closed
  if ws.isEmpty then s else
    ws.foldl (fun s w => (applyWord g s (k, ⟨0, 0, w.iter, w.pos, []⟩) [windowValue w]).1)
      (modElem s g k fun e => { e with wins := e.wins.filter fun w => !w.closed })

theorem writeClosed_eq (s : State) (g : Nat) : writeClosed s g = (List.range 128).foldl (writeClosedOf g) s := rfl

theorem writeClosedOf_of_open {s : State} {g k : Nat} (h : ∀ x ∈ (elemAt s g k).wins, x.closed = false) : writeClosedOf g s k = s := by
  have he : (elemAt s g k).wins.filter (fun w => w.closed) = [] := List.filter_eq_nil_iff.2 fun w hw => by simp [h w hw]
  simp only [writeClosedOf, he, List.isEmpty_nil, if_true]

section
variable {s t : State} {g e : Nat} {q : Window} (hw : (elemAt s g e).wins = [q]) (hc : q.closed = true)
  (ht : applyFx (modElem s g e fun x => { x with wins := [] }) g e q.iter q.pos (windowValue q) = .ok t)
include hw hc ht

theorem writeClosedOf_of_one : writeClosedOf g s e = t := by
  have hd : (modElem s g e fun x => { x with wins := x.wins.filter fun w => !w.closed }) = modElem s g e fun x => { x with wins := [] } := by
    refine modRegion_congr ?_
    have hv := vmod_congr (v := (region s g).elems) (i := e) (f := fun x => { x with wins := x.wins.filter fun w => !w.closed })
      (f' := fun x => { x with wins := [] }) Element.reset (by simp [show (vget Element.reset (region s g).elems e).wins = [q] from hw, hc])
    rw [hv]
  simp only [writeClosedOf, hw, hc, hd, List.filter_cons_of_pos, List.filter_nil, List.isEmpty_cons, Bool.false_eq_true, if_false,
    List.foldl_cons, List.foldl_nil, applyWord, List.foldlM_cons, List.foldlM_nil, ht, bind, Except.bind, pure, Except.pure]

/-- The one window of a region that has closed writes, and goes (R47, R129). -/
theorem writeClosed_of_one (he : e < 128) (ho : ∀ k < 128, k ≠ e → ∀ x ∈ (elemAt s g k).wins, x.closed = false) : writeClosed s g = t := by
  obtain ⟨f, hf, hfx⟩ := applyFx_windowValue q
  have hte : t = modElem (modElem s g e fun x => { x with wins := [] }) g e f := by
    rw [hfx] at ht
    exact (Except.ok.inj ht).symm
  rw [writeClosed_eq, foldl_range_of_one 128 (fun k hk hne => writeClosedOf_of_open (ho k hk hne)) (writeClosedOf_of_one hw hc ht)
    fun k hk hne => writeClosedOf_of_open ?_, if_pos he]
  rw [hte, elemAt_modElem_ne _ _ _ _ _ _ (.inr hne.symm), elemAt_modElem_ne _ _ _ _ _ _ (.inr hne.symm)]
  exact ho k hk hne

end

/-! ### The limit of a freeze -/

/-- The faults that the limit of region `g` finds in a freeze. -/
def freezeFound (s : State) (g : Nat) : State :=
  if freezeDue s g then
    (groupRegions s (region s g).group).foldl (fun s g => modRegion s g fun r => { r with faults := r.faults ++ freezeFaults r }) s
  else s

theorem freezeLimit_eq (s : State) (g : Nat) :
    freezeLimit s g =
      let u := discardGroup (modRegion (freezeFound s g) g fun r => { r with
        faults := r.faults ++ (if delayDue s g then delayFault (region (freezeFound s g) g) else none).toList }) (region s g).group
      if delayDue s g then withdrawStores u g else u := by
  simp only [freezeLimit, freezeFound]
  cases freezeDue s g <;> rfl

theorem exec_freezeLimit_of_due {s : State} {g : Nat} (ha : AgentRuns (.freezeLimit g)) (hd : limitDue s g = true) :
    exec (.freezeLimit g) s = .next (freezeLimit s g) := by
  rw [exec_freezeLimit, execFreezeLimit]
  exact event_of_enabled ha hd

/-! ### The end of an invocation -/

theorem exec_invocationEnd_of_done {s : State} {g : Nat} (ha : AgentRuns (.invocationEnd g)) (hr : isRunning (region s g) = true)
    (hc : (region s g).cursor = 0) (hw : wordsDone (region s g) = true) (hs : storesDone (region s g) = true) (hf : (region s g).faults = []) :
    exec (.invocationEnd g) s = .next (endInvocation s g s.clock) := by
  rw [exec_invocationEnd, execInvocationEnd]
  exact event_of_enabled ha (by simp [hr, hc, hw, hs, hf])

/-- An end that neither an open commit group, a contribution not yet judged nor a frame delays (R43, R60). -/
theorem endInvocation_of_released {s : State} {g now : Nat} (hg : g < 32) (hr : regionGroupOpen s g = false ∨ heldReds (region s g) = [])
    (ho : openContribution (releaseHold s g) (ofElems g) = none) (hf : (region (releaseHold s g) g).framePending = false) :
    endInvocation s g now = modRegion (releaseHold s g) g fun r => { r with
      slot := (if r.ii == 0 then 0 else (r.rc - 1 - (r.inv.bind fun v => v.c0).getD r.rc) % r.ii)
      done := r.done + 1, state := 0, inv := none, cursor := 0, freezeStart := none, endStart := none, faults := []
      freezeWanted := false, travel := [], portUse := [], rmwBusy := [] } := by
  have hb : (regionGroupOpen s g && !(heldReds (region s g)).isEmpty) = false := by rcases hr with h | h <;> simp [h]
  simp only [endInvocation, hb, ho, Bool.false_eq_true, if_false, Option.isSome_none, region_modRegion_same _ _ _ hg, hf, Bool.false_and]

/-! ### The cue, a checked image and the token -/

section
variable {s : State} {gr : Nat} {graph : Graph} (hg : graph? s gr = some graph) (hd : cueDue s graph = true)
include hg hd

theorem exec_cueRelease_of_due (ha : AgentRuns (.cueRelease gr)) (hf : switchFits s graph = false) :
    exec (.cueRelease gr) s = .next (releaseCue s gr) := by
  rw [exec_cueRelease, execCueRelease]
  simp only [hg]
  exact event_of_enabled ha (by rw [hd, hf]; rfl)

/-- A switch that fits takes the place of the cue (R315). -/
theorem exec_understudySwitch_of_due {k : Nat} {mask : BitVec 32} {recs : List LoadRec} (ha : AgentRuns (.understudySwitch gr))
    (hf : switchFits s graph = true) (he : drained s gr = true) (hp : graph.pending = some k) (hk : configOf graph k = some (mask, recs)) :
    exec (.understudySwitch gr) s = .next (switchLoad s graph k mask recs) := by
  rw [exec_understudySwitch, execUnderstudySwitch]
  simp only [hg]
  refine (event_of_enabled ha (by rw [hd, hf, he]; rfl)).trans ?_
  simp only [hp, Option.bind_some, hk]

end

theorem exec_loadcfgInstall_of_checked {s : State} {g gr : Nat} {img : LoadImage} (ha : AgentRuns (.loadcfgInstall g))
    (hw : (core s g).wait = .load img) (ho : (region s g).owner = some gr) :
    exec (.loadcfgInstall g) s = .next (modCore (installLoad s gr g img) g fun k =>
      { k with wait := .none, pc := k.pc + 1, supplied := [], issued := none, loading := false }) := by
  rw [exec_loadcfgInstall, execLoadcfgInstall]
  simp only [hw, ho]
  exact event_of_enabled ha rfl

theorem exec_reconfTokenPass_of_drained {s : State} {gr : Nat} (ha : AgentRuns (.reconfTokenPass gr)) (hd : drained s gr = true)
    (hw : ∃ n ∈ graphRegions s gr, (core s n).wait = .reconf) :
    exec (.reconfTokenPass gr) s = .next (retireReconf (passToken s gr) gr) := by
  rw [exec_reconfTokenPass, execReconfTokenPass]
  exact event_of_enabled ha (by simpa [hd] using hw)

end Sys2Proof.Machine
end

section
/-! PROOFS. The discard of a region (R48, R50, R51, R54), and with it how an invocation starts, fills and ends. -/

namespace Sys2Proof.Machine

/-! ### Sorting -/

theorem insertBy_perm {α : Type} (key : α → Nat) (a : α) (l : List α) : (insertBy key a l).Perm (a :: l) := by
  induction l with
  | nil => exact .refl _
  | cons b l ih =>
    rw [insertBy]
    split
    · exact .refl _
    · exact (ih.cons b).trans (.swap a b l)

theorem foldl_insertBy_perm {α : Type} (key : α → Nat) (l acc : List α) : (l.foldl (fun acc a => insertBy key a acc) acc).Perm (l ++ acc) := by
  induction l generalizing acc with
  | nil => exact .refl _
  | cons a l ih => exact (ih _).trans (((insertBy_perm key a acc).append_left l).trans List.perm_middle)

theorem mem_sortBy {α : Type} {key : α → Nat} {a : α} {l : List α} : a ∈ sortBy key l ↔ a ∈ l := by
  rw [sortBy, (foldl_insertBy_perm key l []).mem_iff, List.append_nil]

/-! ### The hold buffer after a discard -/

theorem keepStore_iff {v : Invocation} {p : Nat} {t : HeldStore} :
    keepStore v p t = true ↔ t.iter < p ∨ t.pos + 1 < v.marks.get 0 t.iter := by
  simp only [keepStore, Bool.or_eq_true, decide_eq_true_iff]

/-- The stores that stand are those before the restart iteration or before the mark of their own (R54). -/
theorem mem_pruneHold {v : Invocation} {p : Nat} {l : List HoldEntry} {t : HeldStore} :
    (∃ e ∈ pruneHold v p l, t ∈ e.stores) ↔ (∃ e ∈ l, t ∈ e.stores) ∧ (t.iter < p ∨ t.pos + 1 < v.marks.get 0 t.iter) := by
  simp only [pruneHold, mem_sortBy, List.mem_filter, List.mem_map, ← keepStore_iff]
  constructor
  · rintro ⟨_, ⟨⟨e, he, rfl⟩, -⟩, ht⟩
    obtain ⟨ht, hk⟩ := List.mem_filter.1 ht
    exact ⟨⟨e, he, ht⟩, hk⟩
  · rintro ⟨⟨e, he, ht⟩, hk⟩
    have hm : t ∈ e.stores.filter (keepStore v p) := List.mem_filter.2 ⟨ht, hk⟩
    refine ⟨_, ⟨⟨e, he, rfl⟩, ?_⟩, hm⟩
    rw [List.isEmpty_eq_false_iff_exists_mem.2 ⟨t, hm⟩]
    rfl

/-! ### The discard of one region -/

/-- Region `g` when what this cycle closes and retires before the cut has completed (R51). -/
def discardPassed (s : State) (g : Nat) : State :=
  completeBefore (passMarks s g (cutCycle (region s g))) g (cutCycle (region s g))

/-- The same when the words and windows in flight have completed or gone, too (R48). -/
def discardSettled (s : State) (g : Nat) : State :=
  dropWindows (settleWords (discardPassed s g) g (cutCycle (region s g))) g (cutCycle (region s g))

/-- The marks that a discard keeps of an invocation. -/
def settledMarks (s : State) (g : Nat) (v : Invocation) : Table Nat := ((region (discardSettled s g) g).inv.map fun w => w.marks).getD v.marks

/-- The fault as IFINFO reports it: a sibling reports its restart iteration (R52). -/
def faultSeen (f : FaultRec) (own : Bool) (p : Nat) : FaultRec := if own then f else { f with iter := p, row := 0, col := 0, pos := 0 }

/-- A region that a discard leaves: `p` is the restart iteration, `f` the fault, `now` the cycle. -/
def discarded (v : Invocation) (p : Nat) (f : FaultRec) (now : Nat) : Region → Region := fun r =>
  { r with
    state := 3
    ifvec := iterVector v.ext p
    ifinfo := ifinfoOf f p (v.marks.get 0 p != 0)
    inv := some { v with first := p, c0 := none }
    elems := r.elems.map fun e => { e with lastRet := min e.lastRet now }
    cursor := 0
    freezeStart := none
    endStart := none
    freezeWanted := false
    faults := []
    portUse := []
    rmwBusy := []
    travel := [] }

section
variable (v : Invocation) (p : Nat) (f : FaultRec) (now : Nat) (r : Region)

@[simp] theorem state_discarded : (discarded v p f now r).state = 3 := rfl
@[simp] theorem ifvec_discarded : (discarded v p f now r).ifvec = iterVector v.ext p := rfl
@[simp] theorem faults_discarded : (discarded v p f now r).faults = [] := rfl
@[simp] theorem inv_discarded : (discarded v p f now r).inv = some { v with first := p, c0 := none } := rfl
@[simp] theorem ifinfo_discarded : (discarded v p f now r).ifinfo = ifinfoOf f p (v.marks.get 0 p != 0) := rfl
@[simp] theorem hold_discarded : (discarded v p f now r).hold = r.hold := rfl

end

/-- The event of a discard, where the stagehand takes it (R51). -/
def reportDiscard (s : State) (g : Nat) (c : Code) : State := if (core s g).ien then postStage s g c.toNat 1 0 else s

@[simp] theorem region_reportDiscard (s : State) (g : Nat) (c : Code) (h : Nat) : region (reportDiscard s g c) h = region s h := by
  unfold reportDiscard postStage
  split <;> simp

@[simp] theorem core_withdrawRetry (s : State) (p : Retry → Bool) (c : Nat) : core (withdrawRetry s p) c = core s c := by
  simp only [withdrawRetry, core, die_modDie]

@[simp] theorem core_discardHeld (s : State) (g p : Nat) (v : Invocation) (c : Nat) : core (discardHeld s g p v) c = core s c := by
  simp [discardHeld]

theorem core_reportDiscard_ne (s : State) {g h : Nat} (c : Code) (hn : h ≠ g) : core (reportDiscard s g c) h = core s h := by
  unfold reportDiscard postStage
  split
  · exact core_modCore_ne _ _ _ _ hn.symm
  · rfl

theorem reportDiscard_of_off {s : State} {g : Nat} (c : Code) (h : (core s g).ien = false) : reportDiscard s g c = s := by
  simp [reportDiscard, h]

section
variable {s : State} {g : Nat} {v : Invocation} (f : FaultRec) (own : Bool) (hs : (region s g).state ≠ 3)
  (hi : (region (discardPassed s g) g).inv = some v)
include hs hi

/-- The discard of an invocation in progress. -/
theorem discardRegion_eq :
    let p := restartIter (region (discardPassed s g) g) v f own
    let w := { v with marks := settledMarks s g v }
    discardRegion s g f own = reportDiscard
      (modRegion (discardHeld (withdrawRetry (discardSettled s g) fun q => isWindowOf g q.who) g p w) g
        (discarded w p (faultSeen f own p) (region s g).rc)) g (faultSeen f own p).code := by
  intro p w
  unfold discardRegion
  extract_lets now again cut passed settled
  have hb : again = false := beq_false_of_ne hs
  have hp : passed = discardPassed s g := if_neg (by rw [hb]; decide)
  have hq : settled = withdrawRetry (discardSettled s g) fun q => isWindowOf g q.who := (if_neg (by rw [hb]; decide)).trans (by rw [hp]; rfl)
  rw [hp, hi, hq]
  simp only [region_withdrawRetry, reportDiscard, faultSeen, w, settledMarks, p, now]
  unfold discarded
  dsimp only

theorem region_discardRegion (hg : g < 32) :
    let p := restartIter (region (discardPassed s g) g) v f own
    let w := { v with marks := settledMarks s g v }
    region (discardRegion s g f own) g = discarded w p (faultSeen f own p) (region s g).rc
      { region (discardSettled s g) g with hold := pruneHold w p (region (discardSettled s g) g).hold } := by
  intro p w
  rw [discardRegion_eq f own hs hi, region_reportDiscard, region_modRegion_same _ _ _ hg, discardHeld, region_modRegion_same _ _ _ hg]
  simp only [region_withdrawRetry]
  rfl

theorem core_discardRegion_ne {h : Nat} (hn : h ≠ g) : core (discardRegion s g f own) h = core (discardSettled s g) h := by
  rw [discardRegion_eq f own hs hi, core_reportDiscard_ne _ _ hn]
  simp

theorem core_discardRegion_of_off (ho : (core (discardSettled s g) g).ien = false) :
    core (discardRegion s g f own) g = core (discardSettled s g) g := by
  rw [discardRegion_eq f own hs hi, reportDiscard_of_off _ (by simpa using ho)]
  simp

end

/-- IFINFO is the sum of its fields (Table 2-7). -/
theorem toNat_ifinfoOf (f : FaultRec) (p n : Nat) :
    (ifinfoOf f p (n != 0)).toNat = f.code.toNat + 2 ^ 13 * (f.row % 8) + 2 ^ 16 * (f.col % 16) + 2 ^ 20 * ((f.iter - p) % 256) +
      2 ^ 28 * (f.pos % 256) + (if n = 0 then 0 else 2 ^ 36) + 2 ^ 37 * (f.cause % 8) := by
  have hc := f.code.isLt
  have hm : (if (n != 0) = true then 2 ^ 36 else 0) = if n = 0 then 0 else 2 ^ 36 := by cases n <;> rfl
  rw [ifinfoOf, hm, BitVec.toNat_ofNat, Nat.mod_eq_of_lt]
  have := Nat.mod_lt (f.iter - p) (show 0 < 256 by decide)
  split <;> omega

/-! ### O54 -/

/-- What a discard leaves of its region, its held stores and the events (R50, R51, R54). -/
theorem discardRegion_leaves {s : State} {g : Nat} {v : Invocation} (f : FaultRec) (own : Bool) (hg : g < 32) (hs : (region s g).state ≠ 3)
    (hi : (region (discardPassed s g) g).inv = some v) :
    let u := discardRegion s g f own
    let p := restartIter (region (discardPassed s g) g) v f own
    let marks := settledMarks s g v
    let seen := faultSeen f own p
    let holds := fun (s : State) (t : HeldStore) => ∃ e ∈ (region s g).hold, t ∈ e.stores
    (region u g).state = 3 ∧ (region u g).ifvec = iterVector v.ext p ∧ (region u g).faults = [] ∧
    (region u g).inv = some { v with marks := marks, first := p, c0 := none } ∧
    (region u g).ifinfo.toNat = seen.code.toNat + 2 ^ 13 * (seen.row % 8) + 2 ^ 16 * (seen.col % 16) + 2 ^ 20 * ((seen.iter - p) % 256) +
      2 ^ 28 * (seen.pos % 256) + (if marks.get 0 p = 0 then 0 else 2 ^ 36) + 2 ^ 37 * (seen.cause % 8) ∧
    (∀ t, holds u t ↔ holds (discardSettled s g) t ∧ (t.iter < p ∨ t.pos + 1 < marks.get 0 t.iter)) ∧
    (∀ h, h ≠ g → (core u h).events = (core (discardSettled s g) h).events) ∧
    ((core (discardSettled s g) g).ien = false → (core u g).events = (core (discardSettled s g) g).events) := by
  intro u p marks seen holds
  have hr : region u g = _ := region_discardRegion f own hs hi hg
  have hf : (region u g).ifinfo = ifinfoOf seen p (marks.get 0 p != 0) := by
    rw [hr, ifinfo_discarded]
  rw [hf, toNat_ifinfoOf, hr, state_discarded, ifvec_discarded, faults_discarded, inv_discarded]
  refine ⟨rfl, rfl, rfl, ?_, rfl, fun t => ?_, fun h hn => ?_, fun ho => ?_⟩
  · dsimp only
  · simp only [holds, hr, hold_discarded]
    rw [mem_pruneHold]
  · rw [core_discardRegion_ne f own hs hi hn]
  · rw [core_discardRegion_of_off f own hs hi ho]

/-- Settles O54: an invocation starts, resumes and is cancelled by ISTART, its windows fill and close, and discards, ends, cues and loads
take place, each by the lemma of its event. -/
theorem invocationsStartFillAndEnd : Obligations.InvocationsStartFillAndEnd := by
  unfold Obligations.InvocationsStartFillAndEnd
  intro g e w gr s t v q c graph k mask recs img inv f r judgedState age cut passed settled first legal began found late miss held
  have hj : judged s g = judgedState := judged_eq
  refine ⟨fun hv hs hl hn _ => writeIstart_starts hv hs hl hn, fun hv hs hl => writeIstart_waits hv hs hl,
    fun hv hs hl => writeIstart_refused hv hs hl, fun hv hs hi hn => ?resume, fun hv hs hp hg => ?cancel,
    fun h => ⟨recordLate_of_no_fault h, if_pos h⟩, fun l x h => reported_oldest h,
    fun n h => ⟨discardGroup_of_no_fault h, fun _ => discardGroup_of_reported⟩,
    fun own hg hs hi => discardRegion_leaves f own hg hs hi,
    fun hq => ⟨fun ha hf hs => exec_windowDataArrival_of_due hq ha hf hs,
      fun ha ho hd hr => ⟨fun hf hw => ?closes, fun hf => ?faults, fun hf hw hp => ?missing⟩⟩,
    fun _ he hw hc ho ht => writeClosed_of_one hw hc ht he ho, fun ha hd => ?limit, fun ha hr hc hw hs hf ho hz hp => ?ends,
    fun hg hd => ⟨fun ha hf => exec_cueRelease_of_due hg hd ha hf, fun ha hf he hp hk => exec_understudySwitch_of_due hg hd ha hf he hp hk⟩,
    fun ha hw ho => exec_loadcfgInstall_of_checked ha hw ho, fun ha hd hw => exec_reconfTokenPass_of_drained ha hd hw⟩
  case resume =>
    have h := writeIstart_resumes hv hs (hj ▸ hi) rfl rfl (hj ▸ hn)
    rw [hj] at h
    exact h
  case cancel =>
    have h := writeIstart_cancels hv hs hg (hj ▸ hp)
    rw [hj] at h
    exact h
  case closes => rw [exec_windowClose_of_due hq ha (windowDue_iff.2 ⟨ho, hd, .inl hw⟩) hr, closeWindow_of_full hf hw]
  case faults =>
    rw [exec_windowClose_of_due hq ha (windowDue_iff.2 ⟨ho, hd, .inr (.inl (by rw [hf]; rfl))⟩) hr, closeWindow_of_fault (closeFault_of_fault hf)]
  case missing =>
    rw [exec_windowClose_of_due hq ha (windowDue_iff.2 ⟨ho, hd, .inr (.inr hp)⟩) hr, closeWindow_of_fault (closeFault_of_missing hf hw)]
  case limit =>
    rw [exec_freezeLimit_of_due ha hd, freezeLimit_eq]
    rfl
  case ends => rw [exec_invocationEnd_of_done ha hr hc hw hs hf, endInvocation_of_released (of_decide_eq_true ha) ho hz hp]

end Sys2Proof.Machine
end

section
/-! PROOFS. The instruction word: what an instruction encodes to decodes to its core form, and a word decodes to nothing but the instruction
that it encodes (R71 to R73, Tables 3-1 and 3-3 to 3-18). -/

namespace Sys2Proof.Laws.EncodeDecode

/-- Every word by the lemma of its instruction, every event by its having none. -/
theorem statement (i : Instr) : Statement i := by
  cases i with
  | nop => apply nop | halt => apply halt | trap => apply trap | eret => apply eret | mfsr => apply mfsr | mtsr => apply mtsr
  | launch => apply launch | tlaunch => apply tlaunch | loadcfg => apply loadcfg | reconf => apply reconf
  | shrink => apply shrink | shrinkQuery => apply shrinkQuery | csave => apply csave | crest => apply crest
  | wdogRestart => apply wdogRestart | wdogReport => apply wdogReport | wdogNextStep => apply wdogNextStep
  | wdogSuspend => apply wdogSuspend | phcrd => apply phcrd | sslotBind => apply sslotBind | sslotRefresh => apply sslotRefresh
  | sslotEvict => apply sslotEvict | rtywSupply => apply rtywSupply | rtywReplay => apply rtywReplay | rtypop => apply rtypop
  | tlbinvAll => apply tlbinvAll | tlbinvAsid => apply tlbinvAsid | tlbinvAddress => apply tlbinvAddress | ifence => apply ifence
  | vcset => apply vcset | tqset => apply tqset | tqtest => apply tqtest | add => apply add | sub => apply sub | mul => apply mul
  | and => apply and | or => apply or | xor => apply xor | shl => apply shl | shr => apply shr | sra => apply sra
  | mulh => apply mulh | div => apply div | rem => apply rem | min => apply min | max => apply max | clz => apply clz
  | popc => apply popc | setc => apply setc | sel => apply sel | bfx => apply bfx | bfi => apply bfi | lea => apply lea
  | addImm => apply addImm | andImm => apply andImm | orImm => apply orImm | xorImm => apply xorImm | shlImm => apply shlImm
  | shrImm => apply shrImm | sraImm => apply sraImm | setcImm => apply setcImm | movi => apply movi | movh => apply movh
  | fadd => apply fadd | fsub => apply fsub | fmul => apply fmul | fdiv => apply fdiv | ffma => apply ffma | fsqrt => apply fsqrt
  | fmin => apply fmin | fmax => apply fmax | fsetc => apply fsetc | fcvt => apply fcvt | fclass => apply fclass
  | vadd => apply vadd | vsub => apply vsub | vmul => apply vmul | vfma => apply vfma | vmin => apply vmin | vmax => apply vmax
  | vabs => apply vabs | vneg => apply vneg | vexp => apply vexp | vlog => apply vlog | vrcp => apply vrcp | vrsq => apply vrsq
  | vsetc => apply vsetc | vsel => apply vsel | vand => apply vand | vor => apply vor | vxor => apply vxor | vmov => apply vmov
  | vshl => apply vshl | vshr => apply vshr | vdot => apply vdot | vred => apply vred | vscan => apply vscan
  | vshuf => apply vshuf | vbcast => apply vbcast | vextr => apply vextr | vins => apply vins | vpack => apply vpack
  | vunpk => apply vunpk | vcvt => apply vcvt | vqnt => apply vqnt | vdqnt => apply vdqnt | mmode => apply mmode
  | wload => apply wload | mma => apply mma | mmasp => apply mmasp | mmeta => apply mmeta | accz => apply accz
  | accld => apply accld | accst => apply accst | accrd => apply accrd | accwr => apply accwr | prmld => apply prmld
  | prmap => apply prmap | scans => apply scans | difld => apply difld | difmul => apply difmul | sbpfin => apply sbpfin
  | wsort => apply wsort | yclr => apply yclr | ld => apply ld | st => apply st | vld => apply vld | vst => apply vst
  | ldw => apply ldw | vldw => apply vldw | vldx => apply vldx | vstx => apply vstx | bufput => apply bufput
  | bufget => apply bufget | ldsp => apply ldsp | stsp => apply stsp | pref => apply pref | shadow => apply shadow
  | unshadow => apply unshadow | clean => apply clean | inval => apply inval | send => apply send | recv => apply recv
  | vsend => apply vsend | vrecv => apply vrecv | csend => apply csend | crecv => apply crecv | sbind => apply sbind
  | sq => apply sq | scopy => apply scopy | scancel => apply scancel | ssub => apply ssub | sdist => apply sdist
  | sstat => apply sstat | opset => apply opset | opget => apply opget | route => apply route | tinj => apply tinj
  | tdrain => apply tdrain | tconv => apply tconv | tappend => apply tappend | tsplit => apply tsplit | tmerge => apply tmerge
  | tfork => apply tfork | tevict => apply tevict | tevictRelease => apply tevictRelease | tquery => apply tquery
  | tnode => apply tnode | pklook => apply pklook | smpdrawSample => apply smpdrawSample | smpdrawVerify => apply smpdrawVerify
  | acpt => apply acpt | gmstep => apply gmstep | fence => apply fence | frame => apply frame | rmws => apply rmws
  | redseq => apply redseq | amo => apply amo | bara => apply bara | barw => apply barw | marm => apply marm
  | mwait => apply mwait | xbegin => apply xbegin | xend => apply xend | xabort => apply xabort | br => apply br | bc => apply bc
  | jal => apply jal | jalr => apply jalr | istartFreshStart => apply istartFreshStart | istartResume => apply istartResume
  | istartCancel => apply istartCancel | eflagsClear => apply eflagsClear | ufinfoRead => apply ufinfoRead
  | ucfgRead => apply ucfgRead | lqstatClearDrops => apply lqstatClearDrops | shctlRun => apply shctlRun
  | shctlFreeze => apply shctlFreeze | shctlReset => apply shctlReset
  | _ => exact of_none rfl

end Sys2Proof.Laws.EncodeDecode

namespace Sys2Proof.Machine

/-- The instruction of a word is that of the row itself, or the access to a single register that the row is a use of. -/
theorem coreForm_cases (i : Instr) : coreForm i = i ∨
    (∃ h a sr, coreForm i = .mtsr h a sr ∧ encode i = encode (.mtsr h a sr)) ∨
    (∃ h d sr, coreForm i = .mfsr h d sr ∧ encode i = encode (.mfsr h d sr)) := by
  unfold coreForm
  split
  case h_9 | h_10 => exact .inr (.inr ⟨_, _, _, rfl, rfl⟩)
  case h_11 => exact .inl rfl
  all_goals exact .inr (.inl ⟨_, _, _, rfl, rfl⟩)

theorem encode_coreForm (i : Instr) : encode (coreForm i) = encode i := by
  obtain h | ⟨_, _, _, h, he⟩ | ⟨_, _, _, h, he⟩ := coreForm_cases i
  · rw [h]
  · rw [h, he]
  · rw [h, he]

/-- The instructions that have a word are those that some context admits (R71). -/
theorem isSome_encode (i : Instr) : (encode i).isSome = isWord i := by
  cases i <;> rfl

/-- Settles O1: each instruction by the lemma of its own word. -/
theorem encodedWordDecodes : Obligations.EncodedWordDecodes := by
  unfold Obligations.EncodedWordDecodes
  exact ⟨Laws.EncodeDecode.statement, coreForm_cases, isSome_encode⟩

/-- A word decodes to the instruction, in its core form, that encodes to it, and to nothing else. -/
theorem decode_eq_ok_iff {w : Word} {i : Instr} : decode w = .ok i ↔ encode i = some w ∧ coreForm i = i := by
  refine ⟨fun h => ?_, fun ⟨he, hc⟩ => ?_⟩
  · have he := Laws.encode_of_decode h
    have hc := Laws.EncodeDecode.statement i w he
    exact ⟨he, Except.ok.inj (hc.symm.trans h)⟩
  · have hd := Laws.EncodeDecode.statement i w he
    rwa [hc] at hd

/-- Settles O2: the decoder accepts a word by encoding what it has read from it. -/
theorem decodedWordEncodesBack : Obligations.DecodedWordEncodesBack := by
  unfold Obligations.DecodedWordEncodesBack
  refine ⟨fun w i h => ?back, fun v w i hv hw => ?unique⟩
  case back =>
    obtain ⟨he, hc⟩ := decode_eq_ok_iff.1 h
    exact ⟨he, by rw [← isSome_encode, he, Option.isSome_some], hc⟩
  case unique => exact Option.some.inj ((Laws.encode_of_decode hv).symm.trans (Laws.encode_of_decode hw))

/-- Settles O3: each of the words is the encoding of its instruction. -/
theorem writtenOutWordsDecode : Obligations.WrittenOutWordsDecode := by
  unfold Obligations.WrittenOutWordsDecode
  refine ⟨?_, ?_, ?_, ?_, ?_, ?_, ?_, ?_, ?_, ?_, ?_, ?_, ?_, ?_, ?_, ?_, ?_, ?_, ?_, ?_, ?_⟩
  all_goals exact decode_eq_ok_iff.2 ⟨by decide, rfl⟩

end Sys2Proof.Machine
end

section
/-! PROOFS. The turn of a core: it fetches the word at its pc and runs the instruction that the word decodes to (R68 to R70, R85, R89, R210). -/

namespace Sys2Proof.Machine

/-! ### The fetch of a word -/

section
variable {s : State} {c : Nat}

theorem fetched_of_line (h : ∀ p, (core s c).issued = some p → p.1 = false) : fetched s c = s := by
  unfold fetched
  cases hi : (core s c).issued with
  | none => rfl
  | some p => simp [h p hi]

theorem fetched_of_page {root : X} (h : (core s c).issued = some (true, root)) :
    fetched s c = modCore s c fun k => { k with issued := none } := by
  unfold fetched
  rw [h]
  rfl

theorem who_fetched : (fetched s c).who = s.who := by
  unfold fetched
  split <;> rfl

/-- What an SSLOT refresh has still to write stays as the word is fetched. -/
theorem awaits_fetched (hc : c < 33) : (core (fetched s c) c).awaits = (core s c).awaits := by
  unfold fetched
  split
  · rw [core_modCore_same _ _ _ hc]
  · rfl

theorem readsAwaited_iff {i : Instr} : readsAwaited s c i = true ↔
    ∃ p ∈ operands i, p.1 ≠ .scalarDst ∧ ∃ q ∈ (core s c).awaits, q.1 = p.2.toNat := by
  simp [readsAwaited]

end

/-! ### The unit that a word asks -/

theorem giveWay_of_none {s : State} {i : Instr} (h : requestOf s i = none) : giveWay s i = s := by simp only [giveWay, h]

theorem fireBefore_of_unserved {s : State} {u : Nat} (h : (opUnit s u).served = false) : fireBefore s u = s := by
  simp [fireBefore, h]

theorem giveWay_of_unserved {s : State} {i : Instr} {u : Nat} (h : requestOf s i = some u) (hs : (opUnit s u).served = false) :
    giveWay s i = if reachesUnit s i u = true then served s u else s := by
  simp only [giveWay, h, fireBefore_of_unserved hs]

/-! ### What follows a turn -/

theorem all_toList_iff {α : Type} {n : Nat} (v : Vector α n) (p : α → Bool) : v.toList.all p = true ↔ ∀ i : Fin n, p v[i] = true := by
  simp [Fin.forall_iff]

theorem waitsMonitor_eq_false {k : Core} (h : ∀ r x, k.wait ≠ .mwait r x none) : waitsMonitor k = false := by
  unfold waitsMonitor
  split
  · next hw => exact absurd hw (h _ _)
  · rfl

/-- No core watches its bytes. -/
theorem monitorsSee_of_quiet {s : State} (h : ∀ (d : Fin 24) (n : Fin 33) r x, ((s.dies[d]).cores[n]).wait ≠ .mwait r x none) :
    monitorsSee s = s := by
  unfold monitorsSee
  rw [if_pos]
  simp only [all_toList_iff, Bool.not_eq_true']
  exact fun d n => waitsMonitor_eq_false (h d n)

/-- No contribution waits, and no core watches its bytes. -/
theorem settleTurn_of_quiet {s : State} (hr : ∀ d : Fin 24, ∀ q ∈ (s.dies[d]).reds, q.stored = true ∨ q.arrived = false)
    (hm : ∀ (d : Fin 24) (n : Fin 33) r x, ((s.dies[d]).cores[n]).wait ≠ .mwait r x none) : settleTurn s = s := by
  unfold settleTurn
  rw [monitorsSee_of_quiet hm]
  exact if_pos ((all_toList_iff _ _).2 fun d => by simpa using hr d)

/-! ### The turn -/

/-- A turn of a core outside the fatal state. -/
theorem step_core {s s' : State} {c : Fin 33} (hn : nextTurn s = (.core c, s')) (hf : s.io.fatal = false) :
    step s = onNext settleTurn (coreTurn s' c) := by
  rw [step_of_turn hn, agentTurn, io_of_nextTurn hn, hf, if_neg Bool.false_ne_true]

/-- A core that runs, waits for nothing and takes no event spends its turn on its next word. -/
theorem coreTurn_of_running {s : State} {c : Fin 33} {k : Core} (hk : core s c.val = k) (hr : k.run = .running) (hw : k.wait = .none)
    (hf : k.frozen = false) (hq : k.freezeReq = false) (he : takesEvent k c.val = false)
    (hs : (region s c.val).owner.all (fun gid => !saving s gid) = true) :
    coreTurn s c = runCore { s with who := whoCore c } c := by
  have ho : (region { s with who := whoCore c } c.val).owner.any (saving { s with who := whoCore c }) = false := by
    change (region s c.val).owner.any (saving s) = false
    cases hg : (region s c.val).owner with
    | none => rfl
    | some gid => simpa [hg] using hs
  subst hk
  simp [coreTurn, hf, ho, hr, hw, hq, he]

theorem runCore_of_word {s t : State} {c : Nat} {w : Word} (h : fetchWord s c (core s c).pc.toNat = (t, .ok w)) :
    runCore s c = runWord (fetched t c) c w := by simp only [runCore, h]

/-- Settles O4: the turn of a core is the run of the word that it fetches. -/
theorem wordAtProgramCounterRuns : Obligations.WordAtProgramCounterRuns := by
  unfold Obligations.WordAtProgramCounterRuns
  intro s s' s1 c w k hn hf hk hr hw hz hq he ho hx s2
  have hs : step s = onNext settleTurn (runWord s2 c w) := by
    rw [step_core hn hf, coreTurn_of_running hk hr hw hz hq he ho]
    subst hk
    rw [runCore_of_word hx]
  refine ⟨fun i hi ha => ?runs, fun i hi ha => ?awaits, fun i => ?awaited, fun e hi => ?fault, fetched_of_line, fun _ => fetched_of_page,
    fun i => giveWay_of_none, fun i u => giveWay_of_unserved, fun u h => settleTurn_of_quiet (fun d => (h d).1) (fun d => (h d).2)⟩
  case runs => simp only [hs, runWord, hi, ha, Bool.false_eq_true, if_false]
  case awaits => simp only [hs, runWord, hi, ha, if_true, onNext]
  case awaited => rw [readsAwaited_iff, awaits_fetched c.isLt]
  case fault => simp only [hs, runWord, hi, onNext, kindOf_congr (who_fetched (s := s1) (c := c.val)), s2]

end Sys2Proof.Machine
end

section
/-! PROOFS. The integer words, formats IR and II, in an element and in a core (R74, R75, R88, R336 and the entries of the words). -/

namespace Sys2Proof.Machine

/-! ### The results of the entries -/

section
variable {w : Nat} (u : BitVec 1) (a b : BitVec w)

theorem quotient_eq : quotient u a b = if b = 0 then BitVec.allOnes w
    else if u = 1 then BitVec.ofNat w (a.toNat / b.toNat) else BitVec.ofInt w (a.toInt.tdiv b.toInt) := by
  have hs : a.sdiv b = BitVec.ofInt w (a.toInt.tdiv b.toInt) := BitVec.eq_of_toInt_eq (by simp [BitVec.toInt_sdiv])
  rw [quotient, hs, BitVec.udiv_def]

theorem remainder_eq : remainder u a b = if b = 0 then a
    else if u = 1 then BitVec.ofNat w (a.toNat % b.toNat) else BitVec.ofInt w (a.toInt.tmod b.toInt) := by
  have hs : a.srem b = BitVec.ofInt w (a.toInt.tmod b.toInt) := by rw [← BitVec.toInt_srem, BitVec.ofInt_toInt]
  rw [remainder, hs, BitVec.umod_def]

theorem pickMin_eq : pickMin u a b =
    if u = 1 then BitVec.ofNat w (min a.toNat b.toNat) else BitVec.ofInt w (min a.toInt b.toInt) := by
  have hc : compareInt 4 u a b = true ↔ if u = 1 then a.toNat ≤ b.toNat else a.toInt ≤ b.toInt := notLessInt_iff u b a
  simp only [pickMin, hc]
  by_cases hu : u = 1
  · simp only [if_pos hu, min_def, apply_ite (BitVec.ofNat w), BitVec.ofNat_toNat, BitVec.setWidth_eq]
  · simp only [if_neg hu, min_def, apply_ite (BitVec.ofInt w), BitVec.ofInt_toInt]

theorem pickMax_eq : pickMax u a b =
    if u = 1 then BitVec.ofNat w (max a.toNat b.toNat) else BitVec.ofInt w (max a.toInt b.toInt) := by
  have hc : compareInt 3 u a b = true ↔ if u = 1 then b.toNat ≤ a.toNat else b.toInt ≤ a.toInt := notLessInt_iff u a b
  simp only [pickMax, hc]
  by_cases hu : u = 1
  · simp only [if_pos hu, max_def', apply_ite (BitVec.ofNat w), BitVec.ofNat_toNat, BitVec.setWidth_eq]
  · simp only [if_neg hu, max_def', apply_ite (BitVec.ofInt w), BitVec.ofInt_toInt]

open Classical in
theorem ofBool_compareInt {cc : BitVec 3} (hcc : ccInt cc = true) :
    (ofBool (compareInt cc u a b) : BitVec w) = if Holds cc u a b then 1 else 0 := by
  simp only [ofBool, compareInt_iff hcc]

end

/-! ### The words -/

/-- The word `p.1` is an integer word of destination `d`, and from the source registers `x` its entry gives `p.2`. -/
def GivesInt {w : Nat} (x : Reg → BitVec w) (d : Reg) (p : Instr × BitVec w) : Prop :=
  ∃ g : (w : Nat) → (Reg → BitVec w) → BitVec w, (∀ s, exec p.1 s = intWord p.1 d g s) ∧ g w x = p.2

/-- An integer word whose meaning computes the value of its entry. -/
theorem GivesInt.intro {w : Nat} {x : Reg → BitVec w} {d : Reg} {i : Instr} {v : BitVec w} (g : (w : Nat) → (Reg → BitVec w) → BitVec w)
    (hi : ∀ s, exec i s = intWord i d g s) (hv : g w x = v) : GivesInt x d (i, v) := ⟨g, hi, hv⟩

/-- Every integer word gives the value of its entry, where the condition of SETC is one of Table 3-19. -/
theorem givesInt_of_mem {w : Nat} {x : Reg → BitVec w} {f : IntFields} {k : Kind} {p : Instr × BitVec w} (hp : p ∈ integerResults w x f)
    (hk : codedOk k p.1 = true) : GivesInt x f.d p := by
  revert p
  simp only [integerResults, List.forall_mem_cons]
  exact ⟨fun _ => .intro _ exec_add rfl, fun _ => .intro _ exec_sub rfl, fun _ => .intro _ exec_mul rfl, fun _ => .intro _ exec_and rfl,
    fun _ => .intro _ exec_or rfl, fun _ => .intro _ exec_xor rfl, fun _ => .intro _ exec_shl rfl, fun _ => .intro _ exec_shr rfl,
    fun _ => .intro _ exec_sra rfl, fun _ => .intro _ exec_mulh rfl, fun _ => .intro _ exec_div (quotient_eq ..),
    fun _ => .intro _ exec_rem (remainder_eq ..), fun _ => .intro _ exec_min (pickMin_eq ..),
    fun _ => .intro _ exec_max (pickMax_eq ..), fun _ => .intro _ exec_clz rfl, fun _ => .intro _ exec_popc rfl,
    fun hcc => .intro _ exec_setc (ofBool_compareInt _ _ _ hcc), fun _ => .intro _ exec_sel rfl, fun _ => .intro _ exec_bfx rfl,
    fun _ => .intro _ exec_bfi rfl, fun _ => .intro _ exec_lea rfl, fun _ => .intro _ exec_addImm rfl,
    fun _ => .intro _ exec_andImm rfl, fun _ => .intro _ exec_orImm rfl, fun _ => .intro _ exec_xorImm rfl,
    fun _ => .intro _ exec_shlImm rfl, fun _ => .intro _ exec_shrImm rfl, fun _ => .intro _ exec_sraImm rfl,
    fun hcc => .intro _ exec_setcImm (ofBool_compareInt _ _ _ hcc), fun _ => .intro _ exec_movi rfl,
    fun _ h => absurd h List.not_mem_nil⟩

section
variable {i : Instr} {d : Reg} {g : (w : Nat) → (Reg → BitVec w) → BitVec w} {s : State}

theorem intWord_of_elem (h : ElemRuns i s) : intWord i d g s = .next (elemRetire i s [.scalar d (g 32 (eScalar s))]) := by
  rw [intWord, word_of_elem h, elemOutcome_ok]

/-- In a core the result is written as the word goes on to the next (R87). -/
theorem intWord_of_core (h : CoreRuns i s) : intWord i d g s = .next (retX s d (g 64 (xval s))) := by
  rw [intWord, word_of_core h]
  rfl

end

/-- One word above another. -/
theorem shiftLeft_or_eq_append (x y : BitVec 32) : x.setWidth 64 <<< 32 ||| y.setWidth 64 = (x ++ y : BitVec 64) := by
  rw [BitVec.append_def, BitVec.shiftLeftZeroExtend_eq, BitVec.setWidth'_eq]

/-- Settles O8: every integer word is one call of `intWord`, with the value of its entry at XLEN = 32. -/
theorem integerWordsInElements : Obligations.IntegerWordsInElements := by
  unfold Obligations.IntegerWordsInElements
  intro f s p hp hr
  obtain ⟨g, hi, hv⟩ := givesInt_of_mem hp (codedOk_of_legal (legal_of_run hr.2))
  rw [hi, intWord_of_elem hr, hv]

/-- Settles O9: the same words at XLEN = 64, and MOVH, which puts its immediate above the low half of A. -/
theorem integerWordsInCores : Obligations.IntegerWordsInCores := by
  unfold Obligations.IntegerWordsInCores
  refine ⟨fun f s p hp hr => ?shared, fun f s hr => ?movh⟩
  case shared =>
    obtain ⟨g, hi, hv⟩ := givesInt_of_mem hp (codedOk_of_legal (legal_of_run hr.2))
    rw [hi, intWord_of_core hr, hv, retX]
  case movh =>
    rw [exec_movh, execMovh, intWord_of_core hr, retX, shiftLeft_or_eq_append]

end Sys2Proof.Machine
end

section
/-! PROOFS. The floating scalar words, format FS, in an element and in a core (R87, R108, R109, R111, R337, R365, R369). -/

namespace Sys2Proof.Machine

/-- The word `p.1` is a floating word of destination `d` that counts a draw under the mode `p.2.1`, and from the source registers `x` and
the draw its entry gives the value and the flags `p.2.2`. -/
def GivesFloat {w : Nat} (x : Reg → BitVec w) (draw : Nat) (d : Reg) (p : Instr × BitVec 3 × BitVec w × Flags) : Prop :=
  ∃ g : (w : Nat) → (Reg → BitVec w) → Nat → BitVec w × Flags,
    (∀ s, exec p.1 s = floatWord p.1 d p.2.1 g s) ∧ g w x draw = p.2.2

/-- A floating word whose meaning computes the value and the flags of its entry. -/
theorem GivesFloat.intro {w : Nat} {x : Reg → BitVec w} {draw : Nat} {d : Reg} {i : Instr} {rm : BitVec 3} {v : BitVec w × Flags}
    (g : (w : Nat) → (Reg → BitVec w) → Nat → BitVec w × Flags) (hi : ∀ s, exec i s = floatWord i d rm g s) (hv : g w x draw = v) :
    GivesFloat x draw d (i, rm, v) := ⟨g, hi, hv⟩

theorem ofBool_eq {w : Nat} (b : Bool) : (ofBool b : BitVec w) = BitVec.ofNat w b.toNat := by cases b <;> rfl

/-- Every floating word gives the value and the flags of its entry. -/
theorem givesFloat_of_mem {w : Nat} {x : Reg → BitVec w} {draw : Nat} {f : FloatFields} {p : Instr × BitVec 3 × BitVec w × Flags}
    (hp : p ∈ floatResults w x draw f) : GivesFloat x draw f.d p := by
  revert p
  simp only [floatResults, List.forall_mem_cons]
  exact ⟨.intro _ exec_fadd rfl, .intro _ exec_fsub rfl, .intro _ exec_fmul rfl, .intro _ exec_fdiv rfl, .intro _ exec_ffma rfl,
    .intro _ exec_fsqrt rfl, .intro _ exec_fmin rfl, .intro _ exec_fmax rfl, .intro _ exec_fsetc (Prod.ext (ofBool_eq _) rfl),
    .intro _ exec_fcvt rfl, .intro _ exec_fclass rfl, fun _ h => absurd h List.not_mem_nil⟩

/-! ### The two contexts -/

theorem countDraw_eq (s : State) (rm : BitVec 3) :
    countDraw s rm = if rm = 5 then modCore s (myCore s) fun k => { k with sctr := k.sctr + 1 } else s := by
  simp only [countDraw, beq_iff_eq]

@[simp] theorem who_countDraw (s : State) (rm : BitVec 3) : (countDraw s rm).who = s.who := by
  unfold countDraw
  split <;> rfl

section
variable {i : Instr} {d : Reg} {rm : BitVec 3} {g : (w : Nat) → (Reg → BitVec w) → Nat → BitVec w × Flags} {s : State}

theorem floatWord_of_elem (h : ElemRuns i s) : floatWord i d rm g s =
    .next (elemRetire i s [.scalar d (g 32 (eScalar s) (myDraw s 0)).1, .flags (g 32 (eScalar s) (myDraw s 0)).2]) := by
  rw [floatWord, word_of_elem h, elemOutcome_ok]

/-- In a core the flags, the draw and the result are written together. -/
theorem floatWord_of_core (h : CoreRuns i s) : floatWord i d rm g s = .next (advance
    (setX (modCore (countDraw s rm) (myCore s) fun k => { k with fflags := k.fflags ||| (g 64 (xval s) (myCoreDraw s)).2 })
      (myCore s) d.toNat (g 64 (xval s) (myCoreDraw s)).1)) := by
  have hc : myCore (countDraw s rm) = myCore s := myCore_congr (who_countDraw s rm)
  have hm : ∀ f, myCore (setCoreFlags (countDraw s rm) f) = myCore s := fun f => hc
  rw [floatWord, word_of_core h, coreOutcome, retX, hm, setCoreFlags, hc]

end

/-- Settles O11: every floating word is one call of `floatWord`, with the value and the flags of its entry. -/
theorem floatingWordsInBothContexts : Obligations.FloatingWordsInBothContexts := by
  unfold Obligations.FloatingWordsInBothContexts
  refine ⟨fun f s p hp hr => ?element, fun f s p hp hr => ?core⟩
  case element =>
    obtain ⟨g, hi, hv⟩ := givesFloat_of_mem hp
    rw [hi, floatWord_of_elem hr, hv]
  case core =>
    obtain ⟨g, hi, hv⟩ := givesFloat_of_mem hp
    rw [hi, floatWord_of_core hr, hv, countDraw_eq]

end Sys2Proof.Machine
end

section
/-! PROOFS. The vector words that act on each lane or on whole registers, formats VA and VP (R87, R88, R453 to R458, R464, R470, R471). -/

namespace Sys2Proof.Machine

/-- An integer lane, clamped with SAT and wrapped without (R456). -/
theorem intLane_eq (w : Nat) (sat : BitVec 1) (v : Int) :
    intLane w sat v = if sat = 1 then (toBits w (clampInt w v).1, flagIf (clampInt w v).2 flagSAT) else (toBits w v, 0) := by
  simp only [intLane, beq_iff_eq]

/-- One lane of lane arithmetic: an exact integer brought into the lane, or an exact value rounded once with the draw of the lane. -/
def arithLane (s : State) (a b c : Reg) (ty : BitVec 4) (rm : BitVec 3) (sat : BitVec 1) (onInt : Int → Int → Int → Int)
    (onVal : FVal → FVal → FVal → FVal × Flags) (j : Nat) : Nat × Flags :=
  let w := tagWidth ty
  let l := lanesOf s w a b c j
  let v := onVal ((fmtOf ty).value l.a) ((fmtOf ty).value l.b) ((fmtOf ty).value l.c)
  let r := (fmtOf ty).round rm (myDraw s j) v.1
  if intTag ty then intLane w sat (onInt (sInt w l.a) (sInt w l.b) (sInt w l.c)) else (r.1, v.2 ||| r.2)

theorem laneArith_eq (i : Instr) (d a b c : Reg) (ty : BitVec 4) (rm : BitVec 3) (sat : BitVec 1) (onInt : Int → Int → Int → Int)
    (onVal : FVal → FVal → FVal → FVal × Flags) (s : State) :
    laneArith i d a b c ty rm sat onInt onVal s =
      vectorWord i d s fun s => laneWise (tagWidth ty) (arithLane s a b c ty rm sat onInt onVal) := rfl

section
variable {i : Instr} {d : Reg} {s : State} {w : Nat}

theorem vectorWord_of_elem {f : State → Line × Flags} (h : ElemRuns i s) :
    vectorWord i d s f = .next (elemRetire i s [.vector d (f s).1, .flags (f s).2]) := by
  rw [vectorWord, elemWord_of_elem h, elemOutcome_ok]

/-- A word that computes each lane retires with the line of its lanes and the flags of all of them. -/
theorem exec_of_lanes {f : State → Nat → Nat × Flags} {g : Nat → Nat × Flags} (hi : exec i s = vectorWord i d s fun s => laneWise w (f s))
    (hf : ∀ j, f s j = g j) (hr : ElemRuns i s) :
    exec i s = .next (elemRetire i s [.vector d (laneWise w g).1, .flags (laneWise w g).2]) := by
  rw [hi, vectorWord_of_elem hr, funext hf]

/-- A word of lane arithmetic, by its lanes. -/
theorem exec_of_laneArith {a b c : Reg} {ty : BitVec 4} {rm : BitVec 3} {sat : BitVec 1} {onInt : Int → Int → Int → Int}
    {onVal : FVal → FVal → FVal → FVal × Flags} {g : Nat → Nat × Flags} (hi : exec i s = laneArith i d a b c ty rm sat onInt onVal s)
    (hg : ∀ j, arithLane s a b c ty rm sat onInt onVal j = g j) (hr : ElemRuns i s) :
    exec i s = .next (elemRetire i s [.vector d (laneWise (tagWidth ty) g).1, .flags (laneWise (tagWidth ty) g).2]) :=
  exec_of_lanes (hi.trans (laneArith_eq ..)) hg hr

/-- A word of a lane function, with the draw of each lane (R464). -/
theorem exec_of_laneFunction {a : Reg} {ty : BitVec 4} {f : Nat → FVal → Nat × Flags} (hi : exec i s = laneFunction i d a ty f s)
    (hr : ElemRuns i s) :
    let r := laneWise (tagWidth ty) fun j => f (myDraw s j) ((fmtOf ty).value (lane (eVector s a (tagWidth ty)) (tagWidth ty) j))
    exec i s = .next (elemRetire i s [.vector d r.1, .flags r.2]) := by
  rw [hi, laneFunction, vectorWord_of_elem hr]

end

/-- Settles O14: each word computes its lanes one by one, the arithmetic words by `laneArith` and the functions by `laneFunction`. -/
theorem laneWordsActOnEveryLane : Obligations.LaneWordsActOnEveryLane := by
  unfold Obligations.LaneWordsActOnEveryLane
  intro h d a b c ty rm cc sat s w f A B C toLane toFmt signed gives
  refine ⟨exec_of_laneArith (exec_vadd s) fun j => ?vadd, exec_of_laneArith (exec_vsub s) fun j => ?vsub,
    exec_of_laneArith (exec_vmul s) fun j => ?vmul, exec_of_laneArith (exec_vfma s) fun j => ?vfma,
    exec_of_laneArith (exec_vmin s) fun j => ?vmin, exec_of_laneArith (exec_vmax s) fun j => ?vmax,
    exec_of_lanes (exec_vabs s) fun j => ?vabs, exec_of_lanes (exec_vneg s) fun j => ?vneg,
    exec_of_laneFunction (exec_vexp s), exec_of_laneFunction (exec_vlog s), exec_of_laneFunction (exec_vrcp s),
    exec_of_laneFunction (exec_vrsq s), exec_of_lanes (exec_vsetc s) fun j => ?vsetc, exec_of_lanes (exec_vsel s) fun j => ?vsel,
    exec_of_lanes (exec_vshl s) fun j => ?vshl, exec_of_lanes (exec_vshr s) fun j => ?vshr⟩
  case vadd | vsub | vmul | vfma =>
    rw [arithLane, intLane_eq]
    rfl
  case vabs | vneg =>
    dsimp only
    rw [intLane_eq]
    rfl
  case vsel => simp only [bne_iff_ne, lanesOf, A, B, C, w]
  case vshr => simp only [beq_iff_eq, lanesOf, A, B, signed, w]
  case vmin | vmax | vsetc | vshl => rfl

/-- Settles O16: the logic words give one line, VEXTR gives a scalar, and the others give their lanes one by one. -/
theorem wholeRegisterAndLaneMoveWords : Obligations.WholeRegisterAndLaneMoveWords := by
  unfold Obligations.WholeRegisterAndLaneMoveWords
  intro h d a b ty idx s w A n sel gives
  refine ⟨fun hr => (exec_vand s).trans (vectorWord_of_elem hr), fun hr => (exec_vor s).trans (vectorWord_of_elem hr),
    fun hr => (exec_vxor s).trans (vectorWord_of_elem hr), fun hr => (exec_vmov s).trans (vectorWord_of_elem hr),
    exec_of_lanes (exec_vshuf s) fun j => rfl, exec_of_lanes (exec_vbcast s) fun j => ?vbcast,
    fun hr => (exec_vextr s).trans (elemWord_of_elem hr), exec_of_lanes (exec_vins s) fun j => ?vins⟩
  case vbcast => simp only [Bool.and_eq_true, decide_eq_true_eq, bne_iff_ne, A, w]
  case vins => simp only [beq_iff_eq, sel, n, w]

end Sys2Proof.Machine
end

section
/-! PROOFS. The lanes of a line: a line put together from lanes holds each of them, and a line is made of its own lanes (R77, R111, R454). -/

namespace Sys2Proof.Machine

/-- The number whose digits to the base 2^w are the low bits of a list, the least significant first. -/
def packed (w : Nat) (l : List Nat) : Nat := l.foldr (fun v acc => v % 2 ^ w + 2 ^ w * acc) 0

theorem ofLanes_eq (w : Nat) (l : List Nat) : ofLanes w l = BitVec.ofNat 512 (packed w l) := rfl

@[simp] theorem packed_cons (w v : Nat) (l : List Nat) : packed w (v :: l) = v % 2 ^ w + 2 ^ w * packed w l := rfl

theorem packed_lt (w : Nat) (l : List Nat) : packed w l < 2 ^ (w * l.length) := by
  induction l with
  | nil => simp [packed]
  | cons v l ih =>
    have hv : v % 2 ^ w < 2 ^ w := Nat.mod_lt _ (Nat.two_pow_pos w)
    calc packed w (v :: l) < 2 ^ w * (packed w l + 1) := by rw [packed_cons, Nat.mul_succ]; omega
      _ ≤ 2 ^ w * 2 ^ (w * l.length) := Nat.mul_le_mul_left _ ih
      _ = 2 ^ (w * (v :: l).length) := by rw [List.length_cons, Nat.mul_succ, Nat.add_comm, Nat.pow_add]

theorem packed_cons_shiftRight (w v : Nat) (l : List Nat) : packed w (v :: l) >>> w = packed w l := by
  rw [packed_cons, Nat.shiftRight_eq_div_pow, Nat.add_mul_div_left _ _ (Nat.two_pow_pos w),
    Nat.div_eq_of_lt (Nat.mod_lt _ (Nat.two_pow_pos w)), Nat.zero_add]

theorem bits_shiftRight (n w lo k : Nat) : bits (n >>> w) lo k = bits n (w + lo) k := by
  rw [bits, bits, Nat.shiftRight_add]

/-- Lane `j` of the number is the low bits of entry `j`. -/
theorem bits_packed (w : Nat) (l : List Nat) (j : Nat) : bits (packed w l) (w * j) w = l.getD j 0 % 2 ^ w := by
  induction l generalizing j with
  | nil => simp [packed, bits]
  | cons v l ih =>
    cases j with
    | zero => simp [bits]
    | succ j => rw [Nat.mul_succ, Nat.add_comm, ← bits_shiftRight, packed_cons_shiftRight, ih, List.getD_cons_succ]

/-- The first `k` lanes of a number make its low bits. -/
theorem packed_bits (w k n : Nat) : packed w ((List.range k).map fun j => bits n (w * j) w) = n % 2 ^ (w * k) := by
  induction k generalizing n with
  | zero => simp [packed, Nat.mod_one]
  | succ k ih =>
    have ht : (fun j => bits n (w * (j + 1)) w) = fun j => bits (n >>> w) (w * j) w := by
      funext j
      rw [bits_shiftRight, Nat.mul_succ, Nat.add_comm]
    rw [List.range_succ_eq_map, List.map_cons, List.map_map, packed_cons]
    simp only [Function.comp_def, Nat.succ_eq_add_one, ht, ih]
    rw [Nat.mul_succ, Nat.pow_add, Nat.mul_comm (2 ^ (w * k)), Nat.mod_mul, Nat.shiftRight_eq_div_pow]
    simp [bits]

/-- Lanes of a width that divides 512 fill a line. -/
theorem width_mul_count {w : Nat} (hw : w = 4 ∨ w = 8 ∨ w = 16 ∨ w = 32 ∨ w = 64) : w * (512 / w) = 512 := by
  rcases hw with rfl | rfl | rfl | rfl | rfl <;> rfl

theorem lane_ofLanes {w : Nat} {l : List Nat} (hl : w * l.length = 512) (j : Nat) : lane (ofLanes w l) w j = l.getD j 0 % 2 ^ w := by
  have h : (ofLanes w l).toNat = packed w l := Nat.mod_eq_of_lt (hl ▸ packed_lt w l)
  rw [lane, h, bits_packed]

theorem ofLanes_lanes {w : Nat} (hw : w * (512 / w) = 512) (l : Line) : ofLanes w (lanes l w) = l := by
  have h : packed w (lanes l w) = l.toNat := (packed_bits w (512 / w) l.toNat).trans (by rw [hw, Nat.mod_eq_of_lt l.isLt])
  rw [ofLanes_eq, h, BitVec.ofNat_toNat, BitVec.setWidth_eq]

/-- A flag stands in the union of a list if it stood before or an entry has it. -/
theorem getLsbD_unionFlags (l : List (Nat × Flags)) (z : Flags) (n : Nat) :
    (l.foldl (fun a r => a ||| r.2) z).getLsbD n = true ↔ z.getLsbD n = true ∨ ∃ r ∈ l, r.2.getLsbD n = true := by
  induction l generalizing z with
  | nil => simp
  | cons r l ih => simp [ih, or_assoc]

/-- Settles O15: the lanes of a line are the digits of its number to the base 2^w. -/
theorem lanesOfAResultAreItsLanes : Obligations.LanesOfAResultAreItsLanes := by
  unfold Obligations.LanesOfAResultAreItsLanes
  refine ⟨fun w f j hw hj => ?lane, fun w f n => ?flag, fun w l hw => ofLanes_lanes (width_mul_count hw) l⟩
  case lane =>
    rw [laneWise, lane_ofLanes (by simpa using width_mul_count hw)]
    simp [List.getD_eq_getElem?_getD, hj]
  case flag =>
    rw [laneWise, getLsbD_unionFlags]
    simp

end Sys2Proof.Machine
end

section
/-! PROOFS. Exact arithmetic on values: finite operands give exact results, and the special cases a quiet NaN or an infinity with its flag
(R93, R111, R367, R369). -/

namespace Sys2Proof.Machine

section
variable (rm : BitVec 3) (x y z : Rat) (n m k : Bool)

/-- The exact sum of finite values; the sign is of note where the sum is zero. -/
theorem addV_fin : ∃ q, addV rm (.fin x n) (.fin y m) = (.fin (x + y) q, 0) := ⟨_, rfl⟩

theorem addV_opposite_infinities : addV rm (.inf n) (.inf (!n)) = (.nan false, flagNV) := by
  have hn : (n == !n) = false := by cases n <;> rfl
  simp only [addV, hn, Bool.false_eq_true, if_false, invalid]

theorem mulV_fin : ∃ q, mulV (.fin x n) (.fin y m) = (.fin (x * y) q, 0) := ⟨_, rfl⟩

theorem mulV_inf_zero : mulV (.inf n) (.fin 0 m) = (.nan false, flagNV) := rfl
theorem mulV_zero_inf : mulV (.fin 0 m) (.inf n) = (.nan false, flagNV) := rfl

/-- A fused sum is the exact sum of the exact product. -/
theorem fmaV_fin : ∃ q, fmaV rm (.fin x n) (.fin y m) (.fin z k) = (.fin (x * y + z) q, 0) := by
  obtain ⟨p, hp⟩ := mulV_fin x y n m
  obtain ⟨q, hq⟩ := addV_fin rm (x * y) z p k
  exact ⟨q, by simp only [fmaV, hp, hq, BitVec.or_self]⟩

theorem divV_fin {y : Rat} (hy : y ≠ 0) : ∃ q, divV (.fin x n) (.fin y m) = (.fin (x / y) q, 0) := by
  have hb : (y == 0) = false := beq_eq_false_iff_ne.mpr hy
  exact ⟨_, by simp only [divV, hb, Bool.false_eq_true, if_false]; rfl⟩

theorem divV_zero_zero : divV (.fin 0 n) (.fin 0 m) = (.nan false, flagNV) := rfl
theorem divV_inf_inf : divV (.inf n) (.inf m) = (.nan false, flagNV) := rfl

theorem divV_by_zero {x : Rat} (hx : x ≠ 0) : ∃ q, divV (.fin x n) (.fin 0 m) = (.inf q, flagDZ) := by
  have hb : (x == 0) = false := beq_eq_false_iff_ne.mpr hx
  exact ⟨_, by simp only [divV, hb, beq_self_eq_true, Bool.false_eq_true, if_true, if_false]; rfl⟩

theorem round_quietNan (f : Fmt) (draw : Nat) : f.round rm draw (.nan false) = (f.nan, 0) := rfl

end

/-- Settles O12: the exact result of each operation on finite values, and what it gives in each special case. -/
theorem exactArithmeticBeforeRounding : Obligations.ExactArithmeticBeforeRounding := by
  unfold Obligations.ExactArithmeticBeforeRounding
  exact ⟨addV_fin, mulV_fin, fun x y n m hy => divV_fin x n m hy, addV_opposite_infinities,
    fun n m => ⟨mulV_inf_zero n m, mulV_zero_inf n m⟩, fun n m => ⟨divV_zero_zero n m, divV_inf_inf n m⟩,
    fun f rm draw => round_quietNan rm f draw, fun x n m hx => divV_by_zero n m hx, fmaV_fin⟩

end Sys2Proof.Machine
end

section
/-! PROOFS. The binary formats: a value that a format holds is a multiple of the step to which the format rounds it, so it rounds to its
own pattern (R91, R108, Table 4-2). -/

namespace Sys2Proof.Machine

/-! ### Powers of two and binary exponents -/

theorem pow2_eq_zpow (e : Int) : pow2 e = (2 : Rat) ^ e := by
  unfold pow2
  split
  case isTrue h =>
    lift e to Nat using h
    simp
  case isFalse h =>
    obtain ⟨n, rfl⟩ : ∃ n : Nat, e = -(n : Int) := ⟨(-e).toNat, by omega⟩
    simp [Rat.mkRat_eq_div]

theorem pow2_pos (e : Int) : 0 < pow2 e := by
  rw [pow2_eq_zpow]
  positivity

theorem pow2_mul_pow2_neg (e : Int) : pow2 e * pow2 (-e) = 1 := by
  rw [pow2_eq_zpow, pow2_eq_zpow, zpow_neg, mul_inv_cancel₀ (by positivity)]

theorem pow2_add_natCast (e : Int) (n : Nat) : pow2 (e + n) = pow2 e * (2 ^ n : Nat) := by
  rw [pow2_eq_zpow, pow2_eq_zpow, zpow_add₀ two_ne_zero, zpow_natCast, Nat.cast_pow, Nat.cast_ofNat]

theorem pow2_sub_natCast (a b : Nat) : pow2 (a - b) = ((2 ^ a : Nat) : Rat) / ((2 ^ b : Nat) : Rat) := by
  rw [pow2_eq_zpow, zpow_sub₀ two_ne_zero, zpow_natCast, zpow_natCast, Nat.cast_pow, Nat.cast_pow, Nat.cast_ofNat]

theorem pow2_le_iff {q : Rat} (hq : 0 < q) (e : Int) : pow2 e ≤ q ↔ e ≤ Int.log 2 q := by
  rw [pow2_eq_zpow, ← Int.zpow_le_iff_le_log Nat.one_lt_two hq, Nat.cast_ofNat]

theorem lt_pow2_iff {q : Rat} (hq : 0 < q) (e : Int) : q < pow2 e ↔ Int.log 2 q < e := by
  rw [← not_le, pow2_le_iff hq, not_le]

/-- The lengths of the numerator and the denominator give the binary exponent up to one, and `ilog2` tries its neighbours. -/
theorem ilog2_eq_log {q : Rat} (hq : 0 < q) : ilog2 q = Int.log 2 q := by
  have hnum : q.num.natAbs ≠ 0 := by simpa using hq.ne'
  have hden : (0 : Rat) < q.den := by exact_mod_cast q.pos
  have hdiv : q = (q.num.natAbs : Rat) / (q.den : Rat) := by
    rw [Nat.cast_natAbs, abs_of_pos (Rat.num_pos.mpr hq), Rat.num_div_den]
  have hlow : (q.num.natAbs.log2 : Int) - (q.den.log2 + 1 : Nat) ≤ Int.log 2 q := by
    refine (pow2_le_iff hq _).mp ?_
    calc pow2 (q.num.natAbs.log2 - (q.den.log2 + 1 : Nat)) = _ := pow2_sub_natCast _ _
      _ ≤ (q.num.natAbs : Rat) / (q.den : Rat) := by
        gcongr
        · exact Nat.log2_self_le hnum
        · exact Nat.lt_log2_self.le
      _ = q := hdiv.symm
  have hhigh : Int.log 2 q < (q.num.natAbs.log2 + 1 : Nat) - (q.den.log2 : Int) := by
    refine (lt_pow2_iff hq _).mp ?_
    calc q = (q.num.natAbs : Rat) / (q.den : Rat) := hdiv
      _ < ((2 ^ (q.num.natAbs.log2 + 1) : Nat) : Rat) / ((2 ^ q.den.log2 : Nat) : Rat) := by
        gcongr
        · exact Nat.lt_log2_self
        · exact Nat.log2_self_le q.den_nz
      _ = _ := (pow2_sub_natCast _ _).symm
  simp only [ilog2, pow2_le_iff hq]
  split
  case isTrue => split <;> omega
  case isFalse => omega

/-! ### What a rounding gives on a number that is a multiple of its step -/

theorem roundAt_multiple (rm : BitVec 3) (draw : Nat) (neg : Bool) (k : Nat) (e : Int) :
    roundAt rm draw neg (k * pow2 e) e = (k, true) := by
  have hs : (k : Rat) * pow2 e * pow2 (-e) = k := by rw [mul_assoc, pow2_mul_pow2_neg, mul_one]
  have hf : (k : Rat).floor = k := Rat.floor_intCast k
  simp [roundAt, hs, hf]

/-- The unit in the last place of the binade `j` of a format, counted from its subnormals. -/
def Fmt.ulp (f : Fmt) (j : Nat) : Rat := pow2 (f.emin - f.mb + j)

/-- A significand and its binade as a format writes them: the leading bit is set but in the lowest binade. -/
structure Fmt.Canonical (f : Fmt) (j k : Nat) : Prop where
  fits : k < 2 ^ (f.mb + 1)
  leading : j = 0 ∨ 2 ^ f.mb ≤ k

section
variable {f : Fmt} {j k : Nat}

/-- A number of a format is a multiple of the very step to which the format rounds it. -/
theorem Fmt.Canonical.exponent (h : f.Canonical j k) (hk : 0 < k) :
    (if ilog2 (k * f.ulp j) < f.emin then f.emin else ilog2 (k * f.ulp j)) - f.mb = f.emin - f.mb + j := by
  have hpos : 0 < (k : Rat) * f.ulp j := mul_pos (by exact_mod_cast hk) (pow2_pos _)
  have hup : Int.log 2 ((k : Rat) * f.ulp j) < f.emin - f.mb + j + (f.mb + 1 : Nat) := by
    rw [← lt_pow2_iff hpos, pow2_add_natCast, mul_comm]
    exact mul_lt_mul_of_pos_left (by exact_mod_cast h.fits) (pow2_pos _)
  have hlow : j = 0 ∨ f.emin - f.mb + j + f.mb ≤ Int.log 2 ((k : Rat) * f.ulp j) := by
    refine h.leading.imp_right fun hl => ?_
    rw [← pow2_le_iff hpos, pow2_add_natCast, mul_comm]
    exact mul_le_mul_of_nonneg_right (by exact_mod_cast hl) (pow2_pos _).le
  rw [ilog2_eq_log hpos]
  split <;> omega

/-- A number with the sign that a pattern writes. -/
def signedValue (neg : Bool) (m : Rat) : FVal := .fin (if neg then -m else m) neg

theorem roundFin_canonical {q : Rat} (h : f.Canonical j k) (hk : 0 < k) (hq : ratAbs q = k * f.ulp j) (hmax : k * f.ulp j ≤ f.maxQ)
    (rm : BitVec 3) (draw : Nat) : f.roundFin rm draw q = (f.signed (decide (q < 0)) (j * 2 ^ f.mb + k), 0) := by
  have hr : ∀ neg, roundAt rm draw neg (k * f.ulp j) (f.emin - f.mb + j) = (k, true) := fun neg => roundAt_multiple ..
  have hulp : ((k : Int) : Rat) * pow2 (f.emin - f.mb + j) = k * f.ulp j := by simp [Fmt.ulp]
  have hj : (f.emin - f.mb + j - (f.emin - f.mb)).toNat = j := by omega
  simp only [Fmt.roundFin, hq, h.exponent hk, hr, hulp, decide_eq_false hmax.not_gt, ite_self, hj]
  simp [flagIf]

theorem round_canonical (h : f.Canonical j k) (hmax : k * f.ulp j ≤ f.maxQ) (neg : Bool) (rm : BitVec 3) (draw : Nat) :
    f.round rm draw (signedValue neg (k * f.ulp j)) = (f.signed neg (j * 2 ^ f.mb + k), 0) := by
  rcases Nat.eq_zero_or_pos k with rfl | hk
  case inl =>
    have hj : j = 0 := h.leading.resolve_right (by simp)
    simp [signedValue, Fmt.round, hj]
  case inr =>
    have hpos : 0 < (k : Rat) * f.ulp j := mul_pos (by exact_mod_cast hk) (pow2_pos _)
    cases neg
    case false =>
      have h0 : ¬ (k : Rat) * f.ulp j < 0 := hpos.not_gt
      simp [signedValue, Fmt.round, hpos.ne', roundFin_canonical h hk (if_neg h0) hmax, h0]
    case true =>
      have h0 : -((k : Rat) * f.ulp j) < 0 := neg_lt_zero.mpr hpos
      simp [signedValue, Fmt.round, hpos.ne', roundFin_canonical h hk ((if_pos h0).trans (neg_neg _)) hmax, h0]

/-! ### The patterns of a format -/

/-- A pattern is its sign, its exponent field and its fraction. -/
theorem signed_bits (hw : f.width = f.eb + f.mb + 1) {b : Nat} (hb : b < 2 ^ f.width) :
    f.signed (bits b (f.width - 1) 1 == 1) (bits b f.mb f.eb * 2 ^ f.mb + bits b 0 f.mb) = b := by
  have hlow : bits b f.mb f.eb * 2 ^ f.mb + bits b 0 f.mb = b % 2 ^ (f.width - 1) := by
    rw [hw, Nat.add_sub_cancel, Nat.add_comm f.eb, Nat.pow_add, Nat.mod_mul, bits, bits, Nat.shiftRight_eq_div_pow]
    simp [Nat.mul_comm, Nat.add_comm]
  have htop : bits b (f.width - 1) 1 = b / 2 ^ (f.width - 1) := by
    have hb2 : b < 2 ^ 1 * 2 ^ (f.width - 1) := by rwa [← Nat.pow_add, hw, Nat.add_sub_cancel, Nat.add_comm 1, ← hw]
    rw [bits, Nat.shiftRight_eq_div_pow, Nat.mod_eq_of_lt (Nat.div_lt_of_lt_mul (Nat.mul_comm _ _ ▸ hb2))]
  have hlt : bits b (f.width - 1) 1 < 2 := Nat.mod_lt _ Nat.two_pos
  have hb' := Nat.div_add_mod b (2 ^ (f.width - 1))
  rw [← htop, ← hlow] at hb'
  obtain h0 | h1 : bits b (f.width - 1) 1 = 0 ∨ bits b (f.width - 1) 1 = 1 := by omega
  · rw [h0] at hb' ⊢
    simpa [Fmt.signed] using hb'
  · rw [h1] at hb' ⊢
    simpa [Fmt.signed, Nat.add_comm] using hb'

/-- A finite value is a number of the format in canonical form, and its binade and significand add up to the pattern without its sign. -/
theorem exists_canonical_of_finite {b : Nat} (h : (f.value b).finite = true) :
    ∃ j k, f.Canonical j k ∧ j * 2 ^ f.mb + k = bits b f.mb f.eb * 2 ^ f.mb + bits b 0 f.mb ∧
      f.value b = signedValue (bits b (f.width - 1) 1 == 1) (k * f.ulp j) := by
  have hm : bits b 0 f.mb < 2 ^ f.mb := Nat.mod_lt _ (Nat.two_pow_pos _)
  have hv : f.value b = signedValue (bits b (f.width - 1) 1 == 1)
      (if bits b f.mb f.eb == 0 then (bits b 0 f.mb : Int) * pow2 (f.emin - f.mb)
        else ((2 ^ f.mb + bits b 0 f.mb : Nat) : Int) * pow2 ((bits b f.mb f.eb : Int) - 1 + f.emin - f.mb)) := by
    revert h
    simp only [Fmt.value]
    split
    case isTrue => split <;> intro h <;> cases h
    case isFalse =>
      split
      case isTrue => intro h; cases h
      case isFalse => intro _; rfl
  rw [hv]
  cases bits b f.mb f.eb with
  | zero => exact ⟨0, bits b 0 f.mb, ⟨by rw [Nat.pow_succ]; omega, .inl rfl⟩, rfl, by simp [Fmt.ulp]⟩
  | succ e =>
    refine ⟨e, 2 ^ f.mb + bits b 0 f.mb, ⟨by rw [Nat.pow_succ]; omega, .inr (by omega)⟩, by rw [Nat.succ_mul]; omega, ?_⟩
    have he : ((e + 1 : Nat) : Int) - 1 + f.emin - f.mb = f.emin - f.mb + e := by omega
    rw [he]
    rfl

end

/-- What a format has to meet: its fields fill its patterns, and no finite value passes the one that it names as its largest. -/
structure Fmt.Sound (f : Fmt) : Prop where
  width_eq : f.width = f.eb + f.mb + 1
  magOf_le : ∀ b < 2 ^ f.width, (f.value b).finite = true → magOf (f.value b) ≤ f.maxQ

theorem magOf_signedValue {m : Rat} (hm : 0 ≤ m) (neg : Bool) : magOf (signedValue neg m) = m := by
  rcases hm.eq_or_lt with rfl | hpos
  · simp [signedValue, magOf, ratAbs]
  · cases neg <;> simp [signedValue, magOf, ratAbs, hpos, hpos.le]

/-- A finite value of a format rounds to its own pattern, in every mode and for every draw. -/
theorem round_value {f : Fmt} (hf : f.Sound) {b : Nat} (hb : b < 2 ^ f.width) (h : (f.value b).finite = true) (rm : BitVec 3) (draw : Nat) :
    f.round rm draw (f.value b) = (b, 0) := by
  obtain ⟨j, k, hc, hcode, hv⟩ := exists_canonical_of_finite h
  have hnonneg : 0 ≤ (k : Rat) * f.ulp j := mul_nonneg k.cast_nonneg (pow2_pos _).le
  have hmax : k * f.ulp j ≤ f.maxQ := by
    rw [← magOf_signedValue hnonneg, ← hv]
    exact hf.magOf_le b hb h
  rw [hv, round_canonical hc hmax, hcode, signed_bits hf.width_eq hb]

theorem sound_fp8e4 : fp8e4.Sound := ⟨rfl, by decide +kernel⟩
theorem sound_fp8e5 : fp8e5.Sound := ⟨rfl, by decide +kernel⟩

/-- Settles O13: both formats are sound, and a sound format gives back the pattern of each of its finite values. -/
theorem exactResultsAreReturnedUnchanged : Obligations.ExactResultsAreReturnedUnchanged := by
  unfold Obligations.ExactResultsAreReturnedUnchanged
  rintro draw f (rfl | rfl) rm - code hcode hfin
  · exact round_value sound_fp8e4 hcode hfin rm draw
  · exact round_value sound_fp8e5 hcode hfin rm draw

end Sys2Proof.Machine
end

section
/-! PROOFS. Reductions, scans, lane conversions and MX block words (R110, R113, R114, R454, R460 to R463). -/

namespace Sys2Proof.Machine

/-- Settles O17: the conversions go lane by lane, and each other word retires with the lines and flags that its meaning computes. -/
theorem reductionsAndLaneConversions : Obligations.ReductionsAndLaneConversions := by
  unfold Obligations.ReductionsAndLaneConversions
  intro h d a b ty oty rm sat imm8 s w v A B gives pairs
  refine ⟨fun hr => ?vdot, fun hr => ?vred, fun x l hl hr => ?vscan, exec_of_lanes (exec_vcvt s) fun j => rfl,
    exec_of_lanes (exec_vpack s) fun j => rfl, exec_of_lanes (exec_vunpk s) fun j => rfl,
    fun hr => (exec_vqnt s).trans (elemWord_of_elem hr), fun hr => ?vdqnt⟩
  case vdot =>
    rw [exec_vdot, execVdot, vectorWord_of_elem hr]
    simp only [List.map_map, pairs]
    rfl
  case vred =>
    rw [exec_vred, execVred, vectorWord_of_elem hr]
    simp only [List.map_map, pairs, lanes]
    rfl
  case vscan =>
    rw [exec_vscan, execVscan, vectorWord_of_elem hr]
    simp only [w] at hl
    simp only [hl]
    rfl
  case vdqnt =>
    rw [exec_vdqnt, execVdqnt, elemWord_of_elem hr, elemOutcome_ok]
    simp only [beq_iff_eq]
    rfl

end Sys2Proof.Machine
end

section
/-! PROOFS. Summation by parts, format SB: the words of the format (R116, R117, R119 to R121, R123 to R127), and the order of WSORT (R126). -/

namespace Sys2Proof.Machine

/-! ### A stable sort -/

section
variable {α : Type} {key : α → Nat} {r : α → α → Prop}

/-- The order of a stable sort: by the key, and elements of one key by the order `r` in which they came. -/
def KeyedBefore (key : α → Nat) (r : α → α → Prop) (x y : α) : Prop := key x < key y ∨ (key x = key y ∧ r x y)

theorem KeyedBefore.key_le {x y : α} (h : KeyedBefore key r x y) : key x ≤ key y := by
  rcases h with h | ⟨h, -⟩
  · exact h.le
  · exact h.le

theorem sortBy_perm (key : α → Nat) (l : List α) : (sortBy key l).Perm l := by
  simpa [sortBy] using foldl_insertBy_perm key l []

/-- An element that came after all of a sorted list takes its place in it. -/
theorem pairwise_insertBy {a : α} {l : List α} (hl : l.Pairwise (KeyedBefore key r)) (ha : ∀ b ∈ l, r b a) :
    (insertBy key a l).Pairwise (KeyedBefore key r) := by
  induction l with
  | nil => exact List.pairwise_singleton _ a
  | cons b l ih =>
    obtain ⟨hb, htail⟩ := List.pairwise_cons.1 hl
    obtain ⟨hba, hla⟩ := List.forall_mem_cons.1 ha
    rw [insertBy]
    split
    case isTrue hlt =>
      refine List.pairwise_cons.2 ⟨List.forall_mem_cons.2 ⟨.inl hlt, fun c hc => .inl ?_⟩, hl⟩
      exact hlt.trans_le (hb c hc).key_le
    case isFalse hge =>
      refine List.pairwise_cons.2 ⟨fun c hc => ?_, ih htail hla⟩
      rcases List.mem_cons.1 ((insertBy_perm key a l).mem_iff.1 hc) with rfl | hc
      · exact (lt_or_eq_of_le (not_lt.1 hge)).imp_right fun he => ⟨he, hba⟩
      · exact hb c hc

theorem pairwise_foldl_insertBy {l acc : List α} (hacc : acc.Pairwise (KeyedBefore key r)) (hl : l.Pairwise r)
    (hbefore : ∀ a ∈ l, ∀ b ∈ acc, r b a) : (l.foldl (fun acc a => insertBy key a acc) acc).Pairwise (KeyedBefore key r) := by
  induction l generalizing acc with
  | nil => exact hacc
  | cons a l ih =>
    obtain ⟨hal, htail⟩ := List.pairwise_cons.1 hl
    obtain ⟨ha, hbefore⟩ := List.forall_mem_cons.1 hbefore
    refine ih (pairwise_insertBy hacc ha) htail fun c hc b hb => ?_
    rcases List.mem_cons.1 ((insertBy_perm key a acc).mem_iff.1 hb) with rfl | hb
    · exact hal c hc
    · exact hbefore c hc b hb

/-- A sort is stable: a list in the order `r` comes out by rising key, and in the order `r` among elements of one key. -/
theorem pairwise_sortBy {l : List α} (hl : l.Pairwise r) : (sortBy key l).Pairwise (KeyedBefore key r) :=
  pairwise_foldl_insertBy .nil hl fun _ _ _ hb => absurd hb List.not_mem_nil

end

/-! ### The order of WSORT -/

theorem neg_le_i8 (l : Line) (j : Nat) : -128 ≤ i8 l j := by
  unfold i8 sInt
  split <;> omega

/-- The key of WSORT, a weight moved up by 128, orders lanes as their weights do. -/
theorem weight_order_of_keyedBefore {v : Line} {i j : Nat} (h : KeyedBefore (fun i => (i8 v i + 128).toNat) (· < ·) i j) :
    i8 v i < i8 v j ∨ (i8 v i = i8 v j ∧ i < j) := by
  have hi := neg_le_i8 v i
  have hj := neg_le_i8 v j
  dsimp only [KeyedBefore] at h
  omega

/-- Settles O21: WSORT sorts the lane numbers, which rise, by a stable sort whose key orders lanes as their weights do. -/
theorem sortedWeightsAscendAndPermute : Obligations.SortedWeightsAscendAndPermute := by
  unfold Obligations.SortedWeightsAscendAndPermute
  intro v
  exact ⟨sortBy_perm _ _, (pairwise_sortBy List.pairwise_lt_range).imp weight_order_of_keyedBefore⟩

/-! ### The words of format SB -/

theorem west_eq_true_iff (s : State) : west s = true ↔ myCol s = 0 := beq_iff_eq

/-- Settles O20: each word retires with the effects that its meaning computes, PRMLD and DIFLD past the checks of their operand. -/
theorem summationByPartsWordsComplete : Obligations.SummationByPartsWordsComplete := by
  unfold Obligations.SummationByPartsWordsComplete
  intro h d a b c grp rm s group A gives
  refine ⟨fun hzero hperm hr => ?prmld, fun hr => (exec_prmap s).trans (elemWord_of_elem hr),
    fun hr => (exec_scans s).trans (elemWord_of_elem hr), fun hcount hfirst hside hr => ?difld,
    fun hr => (exec_difmul s).trans (elemWord_of_elem hr), fun hr => (exec_sbpfin s).trans (elemWord_of_elem hr), fun hr => ?wsort,
    fun hr => (exec_yclr s).trans (elemWord_of_elem hr)⟩
  case prmld =>
    have hlegal : ¬(bits A.toNat 384 128 != 0 || !isPerm A.toNat) = true := by simp [hzero, hperm]
    rw [exec_prmld, execPrmld, elemWord_of_elem hr]
    dsimp only
    rw [if_neg hlegal, elemOutcome_ok]
    simp only [west_eq_true_iff]
    rfl
  case difld =>
    have hunused : (List.range 31).any (fun e => decide (escapes A.toNat ≤ e) && difSide A.toNat e != 0) = false := by
      simpa [List.any_eq_false] using hside
    have hlegal : ¬(decide (31 < escapes A.toNat) || difNib A.toNat 0 != 0 ||
        (List.range 31).any fun e => decide (escapes A.toNat ≤ e) && difSide A.toNat e != 0) = true := by
      simp [hunused, hfirst, hcount]
    rw [exec_difld, execDifld, elemWord_of_elem hr]
    dsimp only
    rw [if_neg hlegal, elemOutcome_ok]
  case wsort =>
    rw [exec_wsort, execWsort, elemWord_of_elem hr, elemOutcome_ok]
    simp only [west_eq_true_iff]
    rfl

end Sys2Proof.Machine
end

section
/-! PROOFS. A graph on its die: its start and its end, the steps of its watchdog, its save, and the eviction of a silent slot (R258, R303 to
R305, R316, R317). -/

namespace Sys2Proof.Machine

/-! ### The start of a graph -/

section
variable {s t : State} {q : Nat} {e : Launch} {hdr : List Nat}

/-- The start of a head whose header reads and names a region. -/
theorem startHead_of_header (hh : readHeader (popLaunch s q) e.desc = (t, .ok hdr)) (hm : headerMask hdr ≠ 0) :
    startHead s q e = ((List.range 32).filter fun g => (headerMask hdr).getLsbD g).foldl (fun s g =>
      modCore (modRegion s g fun r => { r with owner := some (startGraph t q e.desc (headerMask hdr)).gid }) g fun k =>
        startCore k e.desc (headerMask hdr) (nth 0 hdr g % 2 ^ 54))
      (modDie { t with gid := t.gid + 1 } fun d => { d with graphs := d.graphs ++ [startGraph t q e.desc (headerMask hdr)] }) := by
  have hz : (headerMask hdr == 0) = false := by simpa using hm
  simp only [startHead, hh, hz, Bool.false_eq_true, if_false, bits, Nat.shiftRight_zero]

theorem exec_graphStart_of_ready (ha : AgentRuns (.graphStart q)) (hs : mayStart s q = true) (hr : readyHead s q = some e) :
    exec (.graphStart q) s = .next (startHead s q e) := by
  rw [exec_graphStart, execGraphStart, event_of_enabled ha hs]
  simp only [hr]

end

/-- The registers of a stagehand that begins: the parameters of the launch in x1 to x8, and the mask of its regions in x9 (R303). -/
theorem startCore_registers (k : Core) (d : Line) (mask : BitVec 32) (idx : Nat) :
    vget 0 (startCore k d mask idx).x 9 = mask.setWidth 64 ∧
      ∀ n, n < 8 → vget 0 (startCore k d mask idx).x (n + 1) = descParam d n := by
  refine ⟨by simp [startCore, vget, Vector.getD], fun n hn => ?_⟩
  have h32 : n + 1 < 32 := by omega
  have h8 : n + 1 ≤ 8 := hn
  simp [startCore, vget, Vector.getD, h32, h8]

/-! ### The end of a graph -/

section
variable {s : State} {gr : Nat} {g : Graph}

/-- A graph waits at its end for its writes to peers: for a frame that no peer has acknowledged, sent by one of its regions (R304, R326). -/
theorem graphFrames_iff {gid : Nat} : graphFrames s gid = true ↔
    ∃ p ∈ s.io.eth, ∃ f ∈ p.2.unacked, f.die = s.cur.val ∧ ∃ n ∈ graphRegions s gid, n ∈ f.parties := by
  simp only [graphFrames, frameOpen, List.any_eq_true, Bool.and_eq_true, beq_iff_eq, List.contains_iff_mem]

/-- A graph past its token, with its commit group settled. -/
def endReleased (s : State) (g : Graph) : State :=
  let passed := if g.load.isSome then passToken s g.gid else s
  modGraph (if g.group.state = 1 then abortGroup passed g.gid 0 0 else releaseCommit passed g.gid) g.gid fun g =>
    { g with group := Group.none }

theorem endGraph_eq (s : State) (g : Graph) :
    endGraph s g = if graphFrames (endReleased s g) g.gid then endReleased s g
      else freeGraph (countDone (endReleased s g) g.queue) g.gid := by
  by_cases h : g.group.state = 1 <;> simp only [endGraph, endReleased, h, beq_iff_eq, if_true, if_false]

/-- The end of a graph that waits for a peer, and of one whose writes have all performed (R304). -/
theorem endGraph_of_frames (hf : graphFrames (endReleased s g) g.gid = true) : endGraph s g = endReleased s g := by
  rw [endGraph_eq, if_pos hf]
theorem endGraph_of_no_frame (hf : ¬ graphFrames (endReleased s g) g.gid = true) :
    endGraph s g = freeGraph (countDone (endReleased s g) g.queue) g.gid := by
  rw [endGraph_eq, if_neg hf]

variable (hg : graph? s gr = some g)
include hg

theorem exec_graphEnd_of_halted (ha : AgentRuns (.graphEnd gr)) (hm : mayEnd s g = true) :
    exec (.graphEnd gr) s = .next (endGraph s g) := by
  rw [exec_graphEnd, execGraphEnd]
  simp only [hg]
  exact event_of_enabled ha hm

/-! ### The watchdog -/

/-- The event of the step that a watchdog is at, once its limit has passed (R305). -/
theorem wdEvent_of_overdue {n : Nat} (hn : g.wdStep = n) (ho : wdOverdue s g = true) : wdEvent gr n s = .next (wdStepOf s g) := by
  simp only [wdEvent, hg]
  exact machineEvent_of_enabled (by rw [ho, hn, beq_self_eq_true, Bool.true_and])

theorem exec_wdogPreempt_of_overdue (hn : g.wdStep = 0) (ho : wdOverdue s g = true) :
    exec (.wdogPreempt gr) s = .next (wdPreempt s g) := by
  rw [exec_wdogPreempt, execWdogPreempt, wdEvent_of_overdue hg hn ho]
  simp only [wdStepOf, hn]

theorem exec_wdogKill_of_overdue (hn : g.wdStep = 1) (ho : wdOverdue s g = true) : exec (.wdogKill gr) s = .next (wdKill s g) := by
  rw [exec_wdogKill, execWdogKill, wdEvent_of_overdue hg hn ho]
  simp only [wdStepOf, hn]

theorem exec_wdogFence_of_overdue (hn : g.wdStep = 2) (ho : wdOverdue s g = true) : exec (.wdogFence gr) s = .next (wdFence s g) := by
  rw [exec_wdogFence, execWdogFence, wdEvent_of_overdue hg hn ho]
  simp only [wdStepOf, hn]

end

/-! ### The save of a graph -/

section
variable {s t : State} {v : Save} {g : Graph} {pages : List Xlat} {c : Code}

/-- The number that the next image of a state gets. -/
def nextImage (s : State) : Nat := s.images.foldl (fun m (i : SaveImage) => max m (i.id + 1)) 1

/-- The image of a graph as far as its pages go, word 0 of its first line clear, from the state `t` in which they were translated. -/
def imageWritten (s t : State) (v : Save) (g : Graph) (pages : List Xlat) : State :=
  writeImage (fresh t).2 pages (imageLines s v.gid)
    (imageHead (fresh t).2 g 0 (64 * ((imageLines s v.gid).length + 1)) (nextImage s) (fresh t).1)

variable (hv : (die s).save = some v) (hg : graph? s v.gid = some g) (hr : saveReady s g = true)
include hv hg hr

/-- A save whose pages are all translated sets word 0 last, and the graph leaves the die (R316). -/
theorem exec_saveComplete_of_pages (ho : g.group.state ≠ 1)
    (hp : savePages s v (((imageLines s v.gid).length + 1) / 64) 0 = (t, pages, none)) :
    exec .saveComplete s = .next (
      let w := imageWritten s t v g pages
      let kept := { w with images := w.images ++ [saveOf w g (nextImage s)] }
      leaveDie (putImageLine pages kept 0
        (imageHead kept g 1 (64 * ((imageLines s v.gid).length + 1)) (nextImage s) (fresh t).1)) g) := by
  have hclosed : (g.group.state == 1) = false := by simpa using ho
  rw [exec_saveComplete, execSaveComplete]
  simp only [hv, hg]
  rw [machineEvent_of_enabled hr]
  simp only [hp, hclosed, Bool.false_eq_true, if_false]
  rfl

/-- A save that a page stops tells the manager, and word 0 stays clear (R317). -/
theorem exec_saveComplete_of_stop (hp : savePages s v (((imageLines s v.gid).length + 1) / 64) 0 = (t, pages, some c)) :
    exec .saveComplete s = .next (postMgr (modDie (imageWritten s t v g pages) fun d => { d with save := none })
      c.toNat 7 (lowestOf g.mask) (BitVec.ofNat 64 v.area) 0) := by
  rw [exec_saveComplete, execSaveComplete]
  simp only [hv, hg]
  rw [machineEvent_of_enabled hr]
  simp only [hp]
  rfl

end

/-! ### The eviction of a silent slot -/

section
variable {s : State} {slot : Nat}

theorem exec_silenceEviction_of_silent (hs : slotSilent s slot = true) (he : slotEvicting s slot = false) :
    exec (.silenceEviction slot) s = .next (beginEvict s slot) := by
  rw [exec_silenceEviction, execSilenceEviction, machineEvent_of_enabled (by rw [hs, Bool.true_or]), he, if_neg Bool.false_ne_true]

theorem exec_silenceEviction_of_evicting (he : slotEvicting s slot = true) :
    exec (.silenceEviction slot) s = .next (finishEvict s slot) := by
  rw [exec_silenceEviction, execSilenceEviction, machineEvent_of_enabled (by rw [he, Bool.or_true]), if_pos he]

end

/-- Settles O55: each event by the lemma of its own, where its conditions hold. -/
theorem graphsStartEndAndAreWatched : Obligations.GraphsStartEndAndAreWatched := by
  unfold Obligations.GraphsStartEndAndAreWatched
  intro q gr slot s t e hdr g v pages c popped mask graph
  refine ⟨fun ha hs hr hh hm => ?start, fun k => ⟨rfl, ?pc, rfl, rfl, startCore_registers k _ _ _⟩,
    fun hg => ⟨fun ha hm => ⟨fun hf => ?ends, fun hf => ?waits⟩, fun hn ho => exec_wdogPreempt_of_overdue hg hn ho,
      fun hn ho => exec_wdogKill_of_overdue hg hn ho, fun hn ho => exec_wdogFence_of_overdue hg hn ho⟩,
    fun hv hg hr ho => ⟨fun hp => exec_saveComplete_of_pages hv hg hr ho hp, fun hp => exec_saveComplete_of_stop hv hg hr hp⟩,
    exec_silenceEviction_of_silent, exec_silenceEviction_of_evicting⟩
  case start => rw [exec_graphStart_of_ready ha hs hr, startHead_of_header hh hm]
  case pc => exact Nat.mod_eq_of_lt (Nat.mod_lt _ (by decide))
  case ends => exact (exec_graphEnd_of_halted hg ha hm).trans (congrArg _ (endGraph_of_no_frame (mt graphFrames_iff.1 hf)))
  case waits => exact (exec_graphEnd_of_halted hg ha hm).trans (congrArg _ (endGraph_of_frames (graphFrames_iff.2 hf)))

end Sys2Proof.Machine
end

section
/-! PROOFS. LD and ST of a core: two parties of a graph that reach one line under different keys (R261, R265, R295, R330). -/

namespace Sys2Proof.Machine

/-! ### Bytes and lines -/

theorem bytesNat_eq_packed (l : List Byte) : bytesNat l = packed 8 (l.map BitVec.toNat) := by
  induction l with
  | nil => rfl
  | cons b l ih =>
    rw [bytesNat, ih, List.map_cons, packed_cons, Nat.mod_eq_of_lt b.isLt]
    rfl

/-- Byte `j` of a line is entry `j` of its bytes. -/
theorem byte_bytesLine {l : List Byte} (h : l.length = 64) (j : Nat) :
    BitVec.ofNat 8 (bits (bytesLine l).toNat (8 * j) 8) = l.getD j 0 := by
  have hlane := lane_ofLanes (w := 8) (l := l.map BitVec.toNat) (by rw [List.length_map, h]) j
  rw [ofLanes_eq, ← bytesNat_eq_packed, ← bytesLine, lane] at hlane
  rw [hlane, List.getD_eq_getElem?_getD, List.getD_eq_getElem?_getD, List.getElem?_map]
  cases l[j]? with
  | none => rfl
  | some b => exact BitVec.eq_of_toNat_eq (by simpa using b.isLt)

theorem natBytes_bytesNat (l : List Byte) : natBytes (bytesNat l) l.length = l := by
  induction l with
  | nil => rfl
  | cons b l ih =>
    have hlow : BitVec.ofNat 8 (b.toNat + 256 * bytesNat l) = b := by
      apply BitVec.eq_of_toNat_eq
      rw [BitVec.toNat_ofNat, Nat.add_mul_mod_self_left, Nat.mod_eq_of_lt b.isLt]
    have hrest : (b.toNat + 256 * bytesNat l) / 256 = bytesNat l := by
      have := b.isLt
      omega
    rw [List.length_cons, bytesNat, natBytes, hlow, hrest, ih]

/-- The bytes of a line are those that it was made of. -/
theorem lineBytes_bytesLine {l : List Byte} (h : l.length = 64) : lineBytes (bytesLine l) = l := by
  have hlt := packed_lt 8 (l.map BitVec.toNat)
  rw [List.length_map, h, ← bytesNat_eq_packed] at hlt
  have hv : (bytesLine l).toNat = bytesNat l := by
    simp only [bytesLine, BitVec.toNat_ofNat]
    norm_num at hlt ⊢
    omega
  rw [lineBytes, hv, ← h, natBytes_bytesNat]

/-- A block set into a list byte by byte, after the bytes `pre`. -/
theorem foldl_set_block (block pre l : List Byte) (h : block.length ≤ l.length) :
    ((block.zipIdx pre.length).map fun p => (p.2, p.1)).foldl (fun l p => l.set p.1 p.2) (pre ++ l) =
      pre ++ (block ++ l.drop block.length) := by
  induction block generalizing pre l with
  | nil => simp
  | cons b block ih =>
    cases l with
    | nil => simp at h
    | cons x l =>
      have := ih (pre ++ [b]) l (by simpa using h)
      simpa using this

/-- A line that a block has been merged into begins with the block. -/
theorem take_mergeLine_block {block : List Byte} (h : block.length ≤ 64) (l : Line) :
    (lineBytes (mergeLine l (block.zipIdx.map fun p => (p.2, p.1)))).take block.length = block := by
  have hset := foldl_set_block block [] (lineBytes l) (by rwa [length_lineBytes])
  rw [List.nil_append, List.nil_append, List.length_nil] at hset
  rw [mergeLine, hset, lineBytes_bytesLine (by simp; omega), List.take_left]

/-! ### A line that the L2 does not hold and that shares no copy -/

section
variable {s : State} {ln : Nat} (hl : l2get s ln = none)
include hl

theorem l2agree_of_unlisted (a : LineAttr) : l2agree s ln a = s := by simp only [l2agree, hl]

theorem peekLine_of_unlisted (a : LineAttr) : peekLine s ln a = slotRead s ln a := by
  simp only [peekLine, l2agree_of_unlisted hl, hl]

/-- A store that puts no line into the L2 writes the slot (Table 14-3). -/
theorem storeLine_of_unlisted {a : LineAttr} (hc : a.codec = 0) (bs : List (Nat × Byte)) (cd ci : Nat) :
    storeLine s ln a bs 2 cd ci = slotWrite s ln a (mergeLine (slotRead s ln a) bs) false := by
  simp [storeLine, l2agree_of_unlisted hl, hl, hc, codecStore, countCodec]

end

section
variable {s : State} (hd : s.dedup = []) (hm : s.dedupMap = [])
include hm

theorem slotRead_of_unshared (ln key : Nat) (dedup : Bool) :
    slotRead s ln ⟨0, key, dedup⟩ = bytesLine (unsealBytes s key ln (Table.bytes s.mem (64 * ln) 64)) := by
  have hb : codecBytes 0 (key != 0) = 64 := by cases key != 0 <;> rfl
  simp [slotRead, slotCode, copyOf, hm, Table.get, codecLoad, hb]

include hd

theorem slotWrite_of_unshared (ln key : Nat) (dedup : Bool) (l : Line) : slotWrite s ln ⟨0, key, dedup⟩ l false =
    { s with mem := Table.setBytes s.mem (64 * ln) (sealBytes s key ln (lineBytes l)) } := by
  have hb : codecBytes 0 (key != 0) = 64 := by cases key != 0 <;> rfl
  have hu : unmapCopy s ln = s := by simp only [unmapCopy, hm, Table.get]
  have he : ({ s with dedup := [] } : State) = s := by rw [← hd]
  simp only [slotWrite, hu, hb, hd, List.filter_nil, he, Bool.false_eq_true, if_false, List.take_of_length_le (length_lineBytes l).le]

end

theorem length_sealBytes (s : State) (key ln : Nat) (data : List Byte) (hd : 16 ∣ data.length) :
    (sealBytes s key ln data).length = data.length := by
  unfold sealBytes
  split
  · rfl
  · exact (xtsUnit_undo _ _ _ hd).1

/-- A plain line that was stored under a key reads, in the clear, as its sealed bytes (R261, R265). -/
theorem peekLine_storeLine_sealed {s : State} {ln : Nat} (hl : l2get s ln = none) (hd : s.dedup = []) (hm : s.dedupMap = [])
    (hs : MemoryOk s) (key : Nat) (bs : List (Nat × Byte)) (cd ci : Nat) :
    peekLine (storeLine s ln ⟨0, key, false⟩ bs 2 cd ci) ln ⟨0, 0, false⟩ =
      bytesLine (sealBytes s key ln (lineBytes (mergeLine (slotRead s ln ⟨0, key, false⟩) bs))) := by
  rw [storeLine_of_unlisted hl rfl, slotWrite_of_unshared hd hm]
  have hlen : (sealBytes s key ln (lineBytes (mergeLine (slotRead s ln ⟨0, key, false⟩) bs))).length = 64 := by
    rw [length_sealBytes _ _ _ _ (by rw [length_lineBytes]; decide), length_lineBytes]
  generalize sealBytes s key ln _ = sealed at hlen ⊢
  have hw := bytes_setBytes sealed (64 * ln) s.mem hs
  rw [hlen] at hw
  let u : State := { s with mem := Table.setBytes s.mem (64 * ln) sealed }
  calc peekLine u ln ⟨0, 0, false⟩ = slotRead u ln ⟨0, 0, false⟩ := peekLine_of_unlisted (s := u) hl _
    _ = bytesLine (unsealBytes u 0 ln (Table.bytes u.mem (64 * ln) 64)) := slotRead_of_unshared (s := u) hm ln 0 false
    _ = bytesLine sealed := congrArg bytesLine hw

/-! ### A block that equals the tweak of its data unit -/

/-- The tweak of the first block of a data unit (IEEE 1619). -/
def firstTweak (key : BitVec 512) (tweak : Nat) : BitVec 128 :=
  BitVec.ofNat 128 (bytesNat (aesEncrypt (roundKeys ((lineBytes key).drop 32)) (natBytes tweak 16)))

theorem xorBytes_self (a : List Byte) : xorBytes a a = List.replicate a.length 0 := by
  induction a with
  | nil => rfl
  | cons x a ih => rw [xorBytes, List.zipWith_cons_cons, BitVec.xor_self, ← xorBytes, ih]; rfl

theorem getD_xorBytes {a b : List Byte} {i : Nat} (ha : i < a.length) (hb : i < b.length) :
    (xorBytes a b).getD i 0 = a.getD i 0 ^^^ b.getD i 0 := by
  simp [xorBytes, ha, hb]

/-- A first block that equals its tweak is encrypted as a block of zeros. -/
theorem xtsUnit_firstTweak {key : BitVec 512} {tweak : Nat} {data : List Byte} (hd : 16 ≤ data.length)
    (ht : data.take 16 = natBytes (firstTweak key tweak).toNat 16) :
    (xtsUnit false key tweak data).getD 0 0 =
      (aesEncrypt (roundKeys ((lineBytes key).take 32)) (List.replicate 16 0)).getD 0 0 ^^^
        (natBytes (firstTweak key tweak).toNat 16).getD 0 0 := by
  obtain ⟨n, hn⟩ : ∃ n, data.length / 16 = n + 1 := ⟨data.length / 16 - 1, by omega⟩
  have hk := roundKeys_length ((lineBytes key).take 32) (by simp)
  have he := (aesDecrypt_aesEncrypt hk (List.length_replicate (n := 16) (a := (0 : Byte)))).2
  have hx : xorBytes (natBytes (firstTweak key tweak).toNat 16) (natBytes (firstTweak key tweak).toNat 16) = List.replicate 16 0 := by
    rw [xorBytes_self, length_natBytes]
  have hlen : 0 < (xorBytes (aesEncrypt (roundKeys ((lineBytes key).take 32)) (List.replicate 16 0))
      (natBytes (firstTweak key tweak).toNat 16)).length := by rw [xorBytes_length, he, length_natBytes]; decide
  rw [xtsUnit, hn]
  simp only [Bool.false_eq_true, if_false, xtsBlocks]
  rw [← firstTweak, ht, hx, List.getD_append _ _ _ _ hlen, getD_xorBytes (by rw [he]; decide) (by rw [length_natBytes]; decide)]

/-- AES-256 of zeros under a key of zeros begins with 0xDC. -/
theorem aesEncrypt_zero : (aesEncrypt (roundKeys ((lineBytes 0).take 32)) (List.replicate 16 0)).getD 0 0 = 0xDC := by decide +kernel

/-! ### A byte that a graph has written under a key, and reads in the clear -/

/-- The captured bytes of a group that has taken one block, from address 0 on. -/
def blockTable (block : List Byte) : Table (Option Byte) := block.zipIdx.map fun p => (p.2, some p.1)

/-- A graph whose open commit group has taken a block of line 0 under key index 1. -/
def keyedGraph (block : List Byte) : Graph :=
  { startGraph State.reset 0 0 1 with group := { Group.none with
    state := 1, bytes := blockTable block, attrs := [(0, some ⟨0, 1, false, 2, 0, [0], [0]⟩)] } }

/-- The module after reset, with that graph: the L2 is empty, and the keys of its store are 0. -/
def keyedCapture (block : List Byte) : State := modDie State.reset fun d => { d with graphs := [keyedGraph block] }

theorem graph?_keyedCapture (block : List Byte) : graph? (keyedCapture block) 0 = some (keyedGraph block) := by
  rw [graph?, keyedCapture, die_modDie]
  rfl

theorem bytes_keyedGraph (block : List Byte) : (keyedGraph block).group.bytes = blockTable block := rfl

theorem get_blockTable (v : Nat) : (blockTable (natBytes v 16)).get none 0 = some ((natBytes v 16).getD 0 0) := rfl

theorem capturedIn_blockTable (v : Nat) :
    capturedIn (blockTable (natBytes v 16)) 0 = (natBytes v 16).zipIdx.map fun p => (p.2, p.1) := rfl

/-- Line 0 is sealed under a key of zeros. -/
theorem sealBytes_keyedCapture (block data : List Byte) : sealBytes (keyedCapture block) 1 0 data = xtsUnit false 0 0 data := by
  have hkey : vget 0 (keyedCapture block).io.keys 1 = 0 := vget_replicate 256 (0 : BitVec 512) 1
  rw [sealBytes, if_neg (by decide), encryptUnit, hkey]

/-- What the graph sees of the line in the clear: the line with the block, sealed under the other key (R261). -/
theorem viewLine_keyedCapture (v : Nat) (l : Line) :
    let s := keyedCapture (natBytes v 16)
    viewLine s (some 0) 0 ⟨0, 0, false⟩ l =
      bytesLine (sealBytes s 1 0 (lineBytes (mergeLine (slotRead s 0 ⟨0, 1, false⟩) ((natBytes v 16).zipIdx.map fun p => (p.2, p.1))))) := by
  intro s
  have hattr : (keyedGraph (natBytes v 16)).group.attrs.get none 0 = some ⟨0, 1, false, 2, 0, [0], [0]⟩ := rfl
  have hkey : ((0 : Nat) == 0 && (1 : Nat) == 0) = false := rfl
  simp only [viewLine, Option.bind_some, show graph? s 0 = _ from graph?_keyedCapture _, groupLine, hattr, hkey, Bool.false_eq_true, if_false]
  rw [bytes_keyedGraph, capturedIn_blockTable]
  exact peekLine_storeLine_sealed rfl rfl rfl (memoryOk_reset.of_mem (modDie_mem _ _)) 1 _ 0 0

/-- Where the block equals the tweak of the line's data unit, its first byte reads as another: the byte is 0xDC, for the tweak of line 0
too is an encryption of zeros, and it reads as 0. -/
theorem viewAt_keyedCapture :
    viewAt (keyedCapture (natBytes (firstTweak 0 0).toNat 16)) (some 0) ⟨0, 0, false⟩ 0 ≠ (natBytes (firstTweak 0 0).toNat 16).getD 0 0 := by
  intro he
  rw [viewAt, viewLine_keyedCapture] at he
  generalize hdata : lineBytes (mergeLine (slotRead _ _ _) _) = data at he
  have hlen : data.length = 64 := by rw [← hdata, length_lineBytes]
  have htweak : data.take 16 = natBytes (firstTweak 0 0).toNat 16 := by
    rw [← hdata]
    exact take_mergeLine_block (block := natBytes (firstTweak 0 0).toNat 16) (by rw [length_natBytes]; decide) _
  rw [sealBytes_keyedCapture, byte_bytesLine ((xtsUnit_undo 0 0 data (by rw [hlen]; decide)).1.trans hlen) 0,
    xtsUnit_firstTweak (by rw [hlen]; decide) htweak] at he
  have hzero := (BitVec.xor_left_inj _).1 (he.trans (BitVec.zero_xor (x := _)).symm)
  rw [aesEncrypt_zero] at hzero
  exact absurd hzero (by decide)

/-- Refutes O27: a graph whose commit group has taken a plain line under one key reads it, under another, as its sealed bytes (R261), not
as the byte that the group has taken. -/
theorem not_coreLoadsAndStoresReachMemory : ¬ Obligations.CoreLoadsAndStoresReachMemory := by
  unfold Obligations.CoreLoadsAndStoresReachMemory
  intro h
  obtain ⟨-, htaken, -⟩ := h ⟨0, 0, 0⟩ 0 0 0 0 0 0 0 State.reset (keyedCapture (natBytes (firstTweak 0 0).toNat 16)) ⟨0, 0, 0, false⟩
  have hseen := viewAt_keyedCapture
  generalize (firstTweak 0 0).toNat = v at htaken hseen
  have htook := htaken 0 (keyedGraph (natBytes v 16)) ⟨0, 1, false, 2, 0, [0], [0]⟩ ⟨0, 0, false⟩ 0 (graph?_keyedCapture _) rfl rfl rfl
  rw [bytes_keyedGraph, get_blockTable, Option.getD_some] at htook
  exact hseen htook

end Sys2Proof.Machine
end

section
/-! PROOFS. The words of the matrix array, format MX: the mode that WLOAD, MMA and MMASP require (R147, R148), and the effects of each word
(R146 to R154). -/

namespace Sys2Proof.Machine

/-! ### The mode of the array -/

theorem modeIs_eq_true_iff (s : State) (ty : BitVec 4) :
    modeIs s ty = true ↔ (region s (myRegion s)).mm = 1 ∧ (region s (myRegion s)).mt = ty := by
  rw [modeIs, Bool.and_eq_true, beq_iff_eq, beq_iff_eq]

section
variable {h : Hdr} {a b : Reg} {ty : BitVec 4} {f : BitVec 1} {s : State}

theorem exec_wload_elem (hr : ElemRuns (.wload h a b ty f) s) (hm : modeIs s ty = true) (hmx : f = 1 → mxTag ty = true) :
    exec (.wload h a b ty f) s = .next (elemRetire (.wload h a b ty f) s
      [if f == 1 then .scale ((eVector s a 8).setWidth 128) else .weight ((eScalar s b).toNat % 4) (eVector s a 8)]) := by
  have hlegal : ¬(!modeIs s ty || (f == 1 && !mxTag ty)) = true := by simpa [hm] using hmx
  rw [exec_wload, execWload, elemWord_of_elem hr]
  dsimp only
  rw [if_neg hlegal, elemOutcome_ok]

theorem exec_wload_otherMode (hr : ElemRuns (.wload h a b ty f) s) (hm : modeIs s ty = false) :
    exec (.wload h a b ty f) s = .next (elemFault s 0x01 0) := by
  rw [exec_wload, execWload, elemWord_of_elem hr]
  simp only [hm, Bool.not_false, Bool.true_or, if_true, elemOutcome_trap]

end

theorem myRow_ite_sendEast (p : Prop) [Decidable p] (s : State) (vs : List Wide) : myRow (if p then sendEast s vs else s) = myRow s := by
  split <;> rfl
theorem myCol_ite_sendEast (p : Prop) [Decidable p] (s : State) (vs : List Wide) : myCol (if p then sendEast s vs else s) = myCol s := by
  split <;> rfl

section
variable {i : Instr} {sparse : Bool} {a b : Reg} {ty : BitVec 4} {rm : BitVec 3} {row : BitVec 9} {f : BitVec 1} {s : State}
  (hr : ElemRuns i s)
include hr

theorem arrayWord_otherMode (hm : modeIs s ty = false) :
    arrayWord i sparse a b ty rm row f s = .next (elemFault s 0x01 0) := by
  rw [arrayWord, elemWord_of_elem hr]
  simp only [hm, Bool.not_false, if_true, elemOutcome_trap]

/-- MMA and MMASP past their checks: column 0 sends its slice and its b east, and row 7 updates the cells of its column (R151, R153). -/
theorem arrayWord_elem (hm : modeIs s ty = true)
    (hhead : myCol s = 0 → (travelling (region s (myRegion s)) 0 (myCol s)).headD ((eScalar s b).setWidth 1024) = (eScalar s b).setWidth 1024)
    (hmeta : sparse = true → ∀ n < 16, ∀ j < 8, nibbleOk (metaNibble (myElem s) n j) = true) :
    let head := (travelling (region s (myRegion s)) 0 (myCol s)).headD ((eScalar s b).setWidth 1024)
    let sent := if myCol s = 0 then
      sendEast s [(eScalar s b).setWidth 1024, (if mxTag ty then eVector s (a ||| 1) 512 else 0) ++ eVector s a 512] else s
    arrayWord i sparse a b ty rm row f s = .next (elemRetire i sent (if myRow s = 7 then
      [.mma ((row.toNat + head.toNat) % 512) (16 * myCol s) (f == 1) ty rm (columnDots sent ty sparse rm)] else [])) := by
  intro head sent
  have hmode : ¬(!modeIs s ty) = true := by simp [hm]
  have heast : ¬(west s && head != (eScalar s b).setWidth 1024) = true := by
    rw [Bool.and_eq_true, west_eq_true_iff, bne_iff_ne]
    exact fun ⟨hwest, hother⟩ => hother (hhead hwest)
  have hnibbles : ¬(sparse && !(List.range 16).all fun n => (List.range 8).all fun j => nibbleOk (metaNibble (myElem s) n j)) = true := by
    simpa using hmeta
  rw [arrayWord, elemWord_of_elem hr]
  dsimp only
  rw [if_neg hmode, if_neg heast, if_neg hnibbles, elemOutcome_ok]
  simp only [west_eq_true_iff, bne_iff_ne, ne_eq, ite_not, myRow_ite_sendEast, myCol_ite_sendEast]
  rfl

end

/-! ### The places of a row of the accumulator store -/

section
variable {h : Hdr} {a b : Reg} {ty : BitVec 4} {rm : BitVec 3} {row : BitVec 9} {s t : State} {o : Nat}

theorem exec_accld_east (hr : ElemRuns (.accld h a b ty row) s) (hw : west s = false) :
    exec (.accld h a b ty row) s = .next (elemRetire (.accld h a b ty row) s []) := by
  rw [exec_accld, execAccld, elemWord_of_elem hr]
  simp only [hw, Bool.not_false, if_true, elemOutcome_ok]

theorem exec_accst_east (hr : ElemRuns (.accst h a b ty rm row) s) (hw : west s = false) :
    exec (.accst h a b ty rm row) s = .next (elemRetire (.accst h a b ty rm row) s []) := by
  rw [exec_accst, execAccst, elemWord_of_elem hr]
  simp only [hw, Bool.not_false, if_true, elemOutcome_ok]

theorem exec_accld_west (hr : ElemRuns (.accld h a b ty row) s) (hw : west s = true) (hp : accPlace s a ty false = .ok (o, t)) :
    let cells := (List.range 256).map fun c =>
      let v := bytesNat (nodeRead (region t (myRegion t)) (c / 16) (o + accBytes ty / 16 * (c % 16)) (accBytes ty / 16))
      if ty == 0 then (v, 0) else convertTag ty 0 0 0 v
    exec (.accld h a b ty row) s = .next (elemRetire (.accld h a b ty row) t
      [.accCells (accRow t row b) 0 (cells.map fun v => BitVec.ofNat 32 v.1), .flags (cells.foldl (fun f v => f ||| v.2) 0)]) := by
  rw [exec_accld, execAccld, elemWord_of_elem hr]
  simp only [hw, Bool.not_true, Bool.false_eq_true, if_false, hp, elemOutcome_ok]

theorem exec_accst_west (hr : ElemRuns (.accst h a b ty rm row) s) (hw : west s = true) (hp : accPlace s a ty true = .ok (o, t)) :
    let cells := (List.range 256).map fun c =>
      let v := (accGet (region t (myRegion t)) (accRow t row b) c).toNat
      if ty == 0 then (v, 0) else convertTag 0 ty rm 0 v
    exec (.accst h a b ty rm row) s = .next (elemRetire (.accst h a b ty rm row) t
      (((List.range 16).map fun j => .node j o (((cells.drop (16 * j)).take 16).flatMap fun v => natBytes v.1 (accBytes ty / 16))) ++
        [.flags (cells.foldl (fun f v => f ||| v.2) 0)])) := by
  rw [exec_accst, execAccst, elemWord_of_elem hr]
  simp only [hw, Bool.not_true, Bool.false_eq_true, if_false, hp, elemOutcome_ok]

end

/-- Settles O18: each word retires with the effects of its entry, WLOAD, MMA and MMASP past the checks of their mode. -/
theorem matrixWordsComplete : Obligations.MatrixWordsComplete := by
  unfold Obligations.MatrixWordsComplete
  intro h d a b ty rm row f colb s t o g r modeHolds first line slice arrow head sent gives
  have hmode : modeHolds → modeIs s ty = true := (modeIs_eq_true_iff s ty).2
  have heast : ¬first → west s = false := fun hf => by rwa [← Bool.not_eq_true, west_eq_true_iff]
  have hwest : first → west s = true := (west_eq_true_iff s).2
  refine ⟨fun hr => ?mmode, fun hm hf hr => ?weights, fun hm hf hmx hr => ?scales, fun hr => (exec_mmeta s).trans (elemWord_of_elem hr),
    fun hm hh hr => ?mma, fun hm hh hn hr => ?mmasp, fun hr => ?accz, fun hr => (exec_accrd s).trans (elemWord_of_elem hr),
    fun hr => ?accwr, fun hf => ⟨fun hr => exec_accld_east hr (heast hf), fun hr => exec_accst_east hr (heast hf)⟩,
    fun hf hp hr => ?accld, fun hf hp hr => ?accst⟩
  case mmode =>
    rw [exec_mmode, execMmode, elemWord_of_elem hr, elemOutcome_ok]
    simp only [Bool.and_eq_true, west_eq_true_iff, beq_iff_eq]
    rfl
  case weights => rw [exec_wload_elem hr (hmode hm) (by simp [hf]), hf]; rfl
  case scales => rw [exec_wload_elem hr (hmode hm) fun _ => hmx, hf]; rfl
  case mma => exact (exec_mma s).trans (arrayWord_elem hr (hmode hm) hh (fun hs => absurd hs Bool.false_ne_true))
  case mmasp => exact (exec_mmasp s).trans (arrayWord_elem hr (hmode hm) hh fun _ => hn)
  case accz =>
    rw [exec_accz, execAccz, elemWord_of_elem hr, elemOutcome_ok]
    simp only [west_eq_true_iff]
    rfl
  case accwr =>
    rw [exec_accwr, execAccwr, elemWord_of_elem hr, elemOutcome_ok]
    simp only [west_eq_true_iff]
    rfl
  case accld => simpa only [beq_iff_eq] using exec_accld_west hr (hwest hf) hp
  case accst => simpa only [beq_iff_eq] using exec_accst_west hr (hwest hf) hp

/-! ### MMODE -/

theorem setMode_of_change {r : Region} {ty : BitVec 4} (h : ty ≠ r.mt) : setMode r 1 ty =
    { r with mm := 1, mt := ty, elems := r.elems.map fun e => { e with weight := 0, scale := 0, metaFile := 0 } } := by
  rw [setMode, if_pos (by simpa using h)]

theorem setMode_of_keep {r : Region} {f : BitVec 1} {ty : BitVec 4} (h : f = 0 ∨ ty = r.mt) : setMode r f ty = { r with mm := f } := by
  have hk : ¬(f == 1 && ty != r.mt) = true := by rcases h with h | h <;> simp [h]
  rw [setMode, if_neg hk]

/-- An entry of a vector after a map that leaves the default as it is. -/
theorem vget_map {α : Type} {n : Nat} {f : α → α} {d : α} (hd : f d = d) (v : Vector α n) (k : Nat) :
    vget d (v.map f) k = f (vget d v k) := by
  unfold vget Vector.getD
  by_cases hk : k < n
  · simp [hk]
  · simp [hk, hd]

/-- Settles O19: the three words fault where the mode is another one, and `setMode` zeroes the files of every element. -/
theorem matrixModeIsRequired : Obligations.MatrixModeIsRequired := by
  unfold Obligations.MatrixModeIsRequired
  refine ⟨fun h a b ty rm row f s i hi hm hr => ?other, fun r ty hty => ?change, fun r f ty => setMode_of_keep⟩
  case other =>
    have hm : modeIs s ty = false := by rwa [← Bool.not_eq_true, modeIs_eq_true_iff]
    simp only [List.mem_cons, List.not_mem_nil, or_false] at hi
    rcases hi with rfl | rfl | rfl
    · exact exec_wload_otherMode hr hm
    · exact (exec_mma s).trans (arrayWord_otherMode hr hm)
    · exact (exec_mmasp s).trans (arrayWord_otherMode hr hm)
  case change =>
    rw [setMode_of_change hty]
    refine ⟨rfl, rfl, rfl, fun k => ?_⟩
    dsimp only
    rw [vget_map rfl]
    exact ⟨rfl, rfl, rfl⟩

end Sys2Proof.Machine
end

section
/-! PROOFS. The commands of a stream port and the beats of a distributor (R16, R158, R254, R420, R421); a read of a stream's producer
leaves every operand stream as it is. -/

namespace Sys2Proof.Machine

/-! ### Reads leave the operand streams -/

/-- Every operand stream of the focused die is as it was. -/
structure SameStreams (s t : State) : Prop where
  stream : ∀ n, Machine.stream t n = Machine.stream s n

theorem SameStreams.refl (s : State) : SameStreams s s := ⟨fun _ => rfl⟩
theorem SameStreams.trans {s t u : State} (h : SameStreams s t) (k : SameStreams t u) : SameStreams s u :=
  ⟨fun n => (k.stream n).trans (h.stream n)⟩
theorem SameUnits.sameStreams {s t : State} (h : SameUnits s t) : SameStreams s t := ⟨h.stream⟩
theorem SameDies.sameStreams {s t : State} (h : SameDies s t) : SameStreams s t := h.units.sameStreams

theorem sameStreams_modRegion (s : State) (g : Nat) (f : Region → Region) : SameStreams s (modRegion s g f) :=
  ⟨fun n => by rw [stream, die_modRegion, stream]⟩

/-- What a read changes, and what a host or a peer answers it, is no part of a die. -/
theorem sameStreams_readPlace (s : State) (c : Ctx) (x : Xlat) (len hint : Nat) : SameStreams s (readPlace s c x len hint).2 := by
  unfold readPlace
  split
  · exact (sameDies_loadLine ..).sameStreams
  all_goals exact ⟨fun _ => rfl⟩

theorem sameStreams_readBytes (s : State) (c : Ctx) (x : Xlat) (len hint : Nat) : SameStreams s (readBytes s c x len hint).2 :=
  (sameStreams_readPlace ..).trans (sameDies_sendRead ..).sameStreams

theorem sameStreams_vread {s t : State} {c : Ctx} {va size hint ty dst : Nat} {bs : List Byte}
    (h : vread s c va size hint ty dst = .ok (bs, t)) : SameStreams s t := by
  have htranslate := sameUnits_translate s c .read va
  unfold vread at h
  split at h
  · cases h
  · split at h
    · cases h
    next s' x hx =>
      rw [hx] at htranslate
      split at h
      · cases h
      · have hread := sameStreams_readBytes s' c x size hint
        rw [Except.ok.inj h] at hread
        exact htranslate.sameStreams.trans hread

theorem sameStreams_portRead {s t : State} {a : OpAccess} {va size hint : Nat} {tag : BitVec 4} {bs : List Byte}
    (h : portRead s a va size hint tag = .ok (bs, t)) : SameStreams s t := by
  unfold portRead at h
  split at h
  · cases h
    exact .refl s
  · exact sameStreams_vread h

theorem sameStreams_readParts {a : OpAccess} {hint : Nat} {tag : BitVec 4} {l : List (Nat × Nat)} {s t : State} {vs : List Nat}
    (h : readParts s a hint tag l = .ok (vs, t)) : SameStreams s t := by
  induction l generalizing s vs with
  | nil =>
    cases h
    exact .refl _
  | cons p l ih =>
    unfold readParts at h
    split at h
    · cases h
    next hp =>
      split at h
      · cases h
      next hl =>
        cases h
        exact (sameStreams_portRead hp).trans (ih hl)

theorem sameStreams_physLoad (s : State) (pa n : Nat) : SameStreams s (physLoad s pa n) := by
  unfold physLoad
  generalize splitLines pa (physRead s pa n) = l
  induction l generalizing s with
  | nil => exact .refl s
  | cons p l ih => exact (sameDies_sendRead ..).sameStreams.trans (ih _)

theorem sameStreams_pinnedRead {s t : State} {slot off n : Nat} {bs : List Byte} (h : pinnedRead s slot off n = .ok (bs, t)) :
    SameStreams s t := by
  have hask : SameStreams s (askRecord s slot) := sameStreams_physLoad ..
  unfold pinnedRead at h
  split at h
  · cases h
  · cases h
    exact hask
  · cases h
    exact hask.trans (sameStreams_physLoad ..)

theorem sameStreams_readSlot {slot : Nat} {l : List (Int × Nat)} {s t : State} {vs : List Nat} (h : readSlot s slot l = .ok (vs, t)) :
    SameStreams s t := by
  induction l generalizing s vs with
  | nil =>
    cases h
    exact .refl _
  | cons p l ih =>
    unfold readSlot at h
    split at h
    · cases h
    · split at h
      · cases h
      next hp =>
        split at h
        · cases h
        next hl =>
          cases h
          exact (sameStreams_pinnedRead hp).trans (ih hl)

theorem sameStreams_readPiece {s t : State} {g : Nat} {a : OpAccess} {e : Endpoint} {first n : Nat} {p : Piece}
    (h : readPiece s g a e first n = .ok (p, t)) : SameStreams s t := by
  unfold readPiece at h
  split at h
  case isTrue =>
    split at h <;> cases h
    exact .refl s
  case isFalse =>
    split at h
    case isTrue =>
      split at h
      · cases h
      next hslot =>
        cases h
        exact sameStreams_readSlot hslot
    case isFalse =>
      split at h
      · cases h
        exact .refl s
      · split at h
        · cases h
        next hparts =>
          cases h
          exact sameStreams_readParts hparts

theorem sameStreams_readPieces (g : Nat) (a : OpAccess) (e : Endpoint) (first k n : Nat) (s : State) :
    SameStreams s (readPieces s g a e first k n).2.1 := by
  induction k generalizing s n with
  | zero => exact .refl s
  | succ k ih =>
    unfold readPieces
    split
    · exact .refl s
    next hp => exact (sameStreams_readPiece hp).trans (ih ..)

theorem sameStreams_readBeat {s t : State} {g n : Nat} {k : Command} {ls : List Line} (h : readBeat s g k n = .ok (ls, t)) :
    SameStreams s t := by
  unfold readBeat at h
  dsimp only at h
  split at h
  · cases h
  next hps =>
    cases h
    exact (congrArg (fun r => SameStreams s r.2.1) hps).mp (sameStreams_readPieces ..)

/-! ### The beats of a distributor -/

/-- A change of a stream that leaves its subscribers. -/
theorem subs_modStream (s : State) (n : Nat) {f : Stream → Stream} (hf : ∀ q, (f q).subs = q.subs) :
    (stream (modStream s n f) n).subs = (stream s n).subs := by
  rw [stream, die_modStream, stream]
  by_cases hn : n < 256
  · rw [vget_vmod_same _ _ _ _ hn, hf]
  · rw [vget_vmod_out _ _ _ _ _ (not_lt.1 hn)]
    simp [vget, Vector.getD, hn]

theorem sameStreams_noteRead (s : State) (st g p beats : Nat) : SameStreams s (noteRead s st g p beats) := sameStreams_modRegion ..

theorem subs_storeBeats (s : State) (n : Nat) (ls : List Line) : (stream (storeBeats s n ls) n).subs = (stream s n).subs :=
  subs_modStream _ _ fun _ => rfl

section
variable {s t : State} {g p st sub : Nat} {k : Command} {u : Subscriber} {ls : List Line}

/-- A subscriber whose next beat is not in the replay store receives nothing. -/
theorem sendBeat_of_missing (hu : (stream s st).subs[sub]? = some u) (hn : replayHas (stream s st) u.sent = false) :
    sendBeat s st sub = s := by
  have hget : (stream s st).replay.get none u.sent = none := by simpa [replayHas] using hn
  simp only [sendBeat, hu, hget]

theorem produceBeat_of_read (hk : (port s g p).queue.head? = some k) (hread : readBeat s g k (stream s st).read = .ok (ls, t)) :
    produceBeat s st g p = storeBeats (noteRead t st g p ls.length) st ls := by
  simp only [produceBeat, hk, hread]

/-- A read of the producer leaves the subscribers of its stream. -/
theorem subs_of_read (hread : readBeat s g k (stream s st).read = .ok (ls, t)) :
    (stream (storeBeats (noteRead t st g p ls.length) st ls) st).subs = (stream s st).subs := by
  rw [subs_storeBeats, (sameStreams_noteRead ..).stream, (sameStreams_readBeat hread).stream]

end

section
variable {s t : State} {g p st sub : Nat} {k : Command} {u : Subscriber} {ls : List Line}
  (ha : AgentRuns (.distributorSendBeat st sub)) (hm : mayReceive s st sub = true)
  (hu : (stream (modStream s st trimReplay) st).subs[sub]? = some u)
  (hp : (stream (modStream s st trimReplay) st).producer = some (g, p))
include ha hm hu hp

/-- The step of a distributor for a subscriber that may receive a beat: it waits for the node, or it sends the beat, read first where the
replay store does not hold it. -/
theorem exec_distributorSendBeat_of_ready :
    let v := modStream s st trimReplay
    exec (.distributorSendBeat st sub) s = .next (
      if !mayTakeNode v u.g (subscriberNode v u) true true then awaitNode v u.g (subscriberNode v u) true true else
      let w := if replayHas (stream v st) u.sent then v else produceBeat v st g p
      if replayHas (stream w st) u.sent then sendBeat w st sub else w) := by
  rw [exec_distributorSendBeat, execDistributorSendBeat, event_of_enabled ha hm]
  simp only [hu, hp]

theorem exec_distributorSendBeat_held (hfree : mayTakeNode (modStream s st trimReplay) u.g
    (subscriberNode (modStream s st trimReplay) u) true true = true) (hh : replayHas (stream (modStream s st trimReplay) st) u.sent = true) :
    exec (.distributorSendBeat st sub) s = .next (sendBeat (modStream s st trimReplay) st sub) := by
  rw [exec_distributorSendBeat_of_ready ha hm hu hp]
  simp only [hfree, hh, Bool.not_true, Bool.false_eq_true, if_false, if_true]

theorem exec_distributorSendBeat_read (hfree : mayTakeNode (modStream s st trimReplay) u.g
    (subscriberNode (modStream s st trimReplay) u) true true = true) (hh : replayHas (stream (modStream s st trimReplay) st) u.sent = false)
    (hk : (port (modStream s st trimReplay) g p).queue.head? = some k)
    (hread : readBeat (modStream s st trimReplay) g k (stream (modStream s st trimReplay) st).read = .ok (ls, t)) :
    exec (.distributorSendBeat st sub) s = .next (sendBeat (storeBeats (noteRead t st g p ls.length) st ls) st sub) := by
  rw [exec_distributorSendBeat_of_ready ha hm hu hp]
  simp only [hfree, hh, produceBeat_of_read hk hread, Bool.not_true, Bool.false_eq_true, if_false]
  split
  case isTrue => rfl
  case isFalse hn => rw [sendBeat_of_missing (by rw [subs_of_read hread, hu]) (eq_false_of_ne_true hn)]

end

/-! ### The commands of a port -/

section
variable {s t : State} {g p : Nat} {k k' : Command}

theorem exec_streamProducerStart_of_ready (ha : AgentRuns (.streamProducerStart g p)) (hk : (port s g p).queue.head? = some k)
    (hprod : isProducer k = true) (hnew : k.started = false) (hstream : (stream s (bits k.src.toNat 0 8)).started = true) :
    exec (.streamProducerStart g p) s = .next (modHead s g p fun k => { k with started := true }) := by
  rw [exec_streamProducerStart, execStreamProducerStart]
  exact event_of_enabled ha (by simp [hk, hprod, hnew, hstream])

theorem exec_streamCommandFinish_producer (ha : AgentRuns (.streamCommandFinish g p)) (hk : (port s g p).queue.head? = some k)
    (hretry : k.retry = none) (hprod : isProducer k = true) (hstarted : k.started = true)
    (hacked : allAcked (stream s (bits k.src.toNat 0 8)) = true) : exec (.streamCommandFinish g p) s = .next (finishHead s g p 0) := by
  have hready : headReady s g p = true := by simp [headReady, hk, hretry, hstarted, hacked]
  rw [exec_streamCommandFinish, execStreamCommandFinish, event_of_enabled ha hready]
  simp only [hk, hprod, if_true]

/-- A copy at the head of a port moves its next group, as far as the node ports let it. -/
theorem exec_streamCommandFinish_copy (ha : AgentRuns (.streamCommandFinish g p)) (hk : (port s g p).queue.head? = some k)
    (hretry : k.retry = none) (hcopy : isProducer k = false) :
    exec (.streamCommandFinish g p) s = .next (headOutcome s g p (tryGroup s g k)) := by
  have hready : headReady s g p = true := by simp [headReady, hk, hretry, hcopy]
  rw [exec_streamCommandFinish, execStreamCommandFinish, event_of_enabled ha hready]
  simp only [hk, hcopy, Bool.false_eq_true, if_false]

/-- The command finishes with its last group. -/
theorem headOutcome_ok (s t : State) (g p : Nat) (k : Command) : headOutcome s g p (.ok (t, k)) =
    if k.done = cmdValues k then finishHead (modHead t g p fun _ => k) g p 0 else modHead t g p fun _ => k := by
  simp only [headOutcome, beq_iff_eq]

theorem headOutcome_of_unfinished (h : k.done ≠ cmdValues k) : headOutcome s g p (.ok (t, k)) = modHead t g p fun _ => k := by
  rw [headOutcome_ok, if_neg h]

end

/-- The node ports that the next group of a command still needs. -/
def portsLeft (s : State) (g : Nat) (k : Command) : List (Nat × Nat × Bool) :=
  ((groupPorts s g k).filter fun q => decide (k.cycles < q.2)).map Prod.fst

/-- The copy engine takes a cycle at each of the ports, or waits for each. -/
def takeAll (s : State) (ports : List (Nat × Nat × Bool)) : State := ports.foldl (fun s q => takeNode s q.1 q.2.1 q.2.2 true) s
def awaitAll (s : State) (ports : List (Nat × Nat × Bool)) : State := ports.foldl (fun s q => awaitNode s q.1 q.2.1 q.2.2 true) s

section
variable {s t : State} {g : Nat} {k k' : Command} (hgroup : copyGroup s g k = .ok (t, k'))
include hgroup

theorem tryGroup_of_taken (hwait : ∃ q ∈ portsLeft s g k, mayTakeNode s q.1 q.2.1 q.2.2 true = false) :
    tryGroup s g k = .ok (awaitAll s (portsLeft s g k), k) := by
  have hblocked : (!(portsLeft s g k).all fun q => mayTakeNode s q.1 q.2.1 q.2.2 true) = true := by simpa using hwait
  rw [tryGroup, hgroup]
  exact if_pos hblocked

variable (hfree : ∀ q ∈ portsLeft s g k, mayTakeNode s q.1 q.2.1 q.2.2 true = true)
include hfree

theorem tryGroup_of_free : tryGroup s g k =
    if (groupPorts s g k).any fun q => decide (k.cycles + 1 < q.2) then
      .ok (takeAll s (portsLeft s g k), { k with cycles := k.cycles + 1 })
    else .ok (takeAll t (portsLeft s g k), { k' with supplied := [], cycles := 0 }) := by
  have hopen : ¬(!(portsLeft s g k).all fun q => mayTakeNode s q.1 q.2.1 q.2.2 true) = true := by simpa using hfree
  rw [tryGroup, hgroup]
  exact if_neg hopen

theorem tryGroup_of_moreCycles (hmore : ∃ q ∈ groupPorts s g k, k.cycles + 1 < q.2) :
    tryGroup s g k = .ok (takeAll s (portsLeft s g k), { k with cycles := k.cycles + 1 }) := by
  rw [tryGroup_of_free hgroup hfree, if_pos (by simpa using hmore)]

theorem tryGroup_of_lastCycle (hlast : ∀ q ∈ groupPorts s g k, q.2 ≤ k.cycles + 1) :
    tryGroup s g k = .ok (takeAll t (portsLeft s g k), { k' with supplied := [], cycles := 0 }) := by
  rw [tryGroup_of_free hgroup hfree, if_neg (by simpa using hlast)]

end

/-- Settles O37: each event by what the head of its port, or the next beat of its subscriber, needs. -/
theorem streamCommandsPerform : Obligations.StreamCommandsPerform := by
  unfold Obligations.StreamCommandsPerform
  intro s t g p st sub k k' u ls head trimmed free all ports taken
  refine ⟨exec_streamProducerStart_of_ready, fun ha hm hu hp => ⟨exec_distributorSendBeat_held ha hm hu hp,
      exec_distributorSendBeat_read ha hm hu hp, fun hwait => ?nodeTaken⟩,
    fun ha hk hretry hcopy hgroup => ⟨fun hfree hlast => ?lastCycle, fun hfree hmore hdone => ?moreCycles,
      fun hwait hdone => ?portsTaken⟩, exec_streamCommandFinish_producer⟩
  case nodeTaken =>
    rw [exec_distributorSendBeat_of_ready ha hm hu hp]
    exact congrArg Host.Outcome.next (if_pos (congrArg not hwait))
  case lastCycle =>
    rw [exec_streamCommandFinish_copy ha hk hretry hcopy, tryGroup_of_lastCycle hgroup hfree hlast, headOutcome_ok]
    rfl
  case moreCycles =>
    rw [exec_streamCommandFinish_copy ha hk hretry hcopy, tryGroup_of_moreCycles hgroup hfree hmore]
    exact congrArg Host.Outcome.next (headOutcome_of_unfinished hdone)
  case portsTaken =>
    rw [exec_streamCommandFinish_copy ha hk hretry hcopy, tryGroup_of_taken hgroup hwait, headOutcome_of_unfinished hdone]
    rfl

end Sys2Proof.Machine
end

section
/-! PROOFS. The words of the token fabric that act on a unit or a converter: which of them a core may name, and what each does to it (R162,
R168, R172 to R174). -/

namespace Sys2Proof.Machine

/-! ### What a core may name -/

/-- The executing core may name a unit: the manager any, a stagehand those that its graph owns (R172). -/
def MayName (s : State) (u : Nat) : Prop :=
  (kindOf s).isMgr = true ∨ ∃ gr, myGraph s = some gr ∧ (opUnit s u).owner = some gr.gid

theorem unitAllowed_of_named {s : State} {u : Nat} (h : MayName s u) : unitAllowed s u = .ok () := by
  rcases h with hmgr | ⟨gr, hgr, howner⟩
  · simp [unitAllowed, hmgr]
  · simp [unitAllowed, hgr, howner]

theorem unitAllowed_of_not_named {s : State} {u : Nat} (h : ¬MayName s u) :
    unitAllowed s u = .error (.trap 0x21 (BitVec.ofNat 64 u)) := by
  obtain ⟨hmgr, hgraph⟩ := not_or.1 h
  refine if_pos ?_
  cases hg : myGraph s with
  | none => simp [hmgr]
  | some gr =>
    have howner : (opUnit s u).owner ≠ some gr.gid := fun he => hgraph ⟨gr, hg, he⟩
    simp [hmgr, howner]

theorem convAllowed_of_named {s : State} {k : Nat} (h : (kindOf s).isMgr = true ∨ k / 2 = myRegion s) : convAllowed s k = .ok () :=
  if_pos (by simpa using h)

/-! ### The words -/

theorem coreOutcome_hold (s : State) : coreOutcome s (.error .hold) = s := rfl

section
variable {h : Hdr} {a b d : Reg} {unit : BitVec 10} {param : BitVec 6} {s t : State} {v : Nat}

theorem exec_opset_of_taken (hr : CoreRuns (.opset h a unit param) s) (hm : MayName s unit.toNat)
    (hi : inProgress (opUnit s unit.toNat) = false) (ht : opsetUnit s unit.toNat param.toNat (xval s a).toNat = some t) :
    exec (.opset h a unit param) s = .next (advance t) := by
  rw [exec_opset, execOpset, coreWord_of_core hr]
  simp only [unitAllowed_of_named hm, hi, ht, Bool.false_eq_true, if_false, coreOutcome_ok]

theorem exec_opset_of_refused (hr : CoreRuns (.opset h a unit param) s) (hm : MayName s unit.toNat)
    (hi : inProgress (opUnit s unit.toNat) = false) (ht : opsetUnit s unit.toNat param.toNat (xval s a).toNat = none) :
    exec (.opset h a unit param) s = .next (coreFault s (myCore s) 0x01 0) := by
  rw [exec_opset, execOpset, coreWord_of_core hr]
  simp only [unitAllowed_of_named hm, hi, ht, Bool.false_eq_true, if_false, coreOutcome_trap]

theorem exec_opget_of_read (hr : CoreRuns (.opget h d unit param) s) (hm : MayName s unit.toNat)
    (hi : inProgress (opUnit s unit.toNat) = false) (ht : opgetUnit s unit.toNat param.toNat = .ok (v, t)) :
    exec (.opget h d unit param) s = .next (retX t d (BitVec.ofNat 64 v)) := by
  rw [exec_opget, execOpget, coreWord_of_core hr]
  simp only [unitAllowed_of_named hm, hi, ht, Bool.false_eq_true, if_false, coreOutcome_ok]

/-- A route of a stopped unit is stored where it is invalid, or leads to a place that exists, that no other route has, and that the core
may name (R173). -/
theorem exec_route_of_stopped (hr : CoreRuns (.route h a unit param) s) (hm : MayName s unit.toNat)
    (hi : inProgress (opUnit s unit.toNat) = false) (hen : ctlEn s unit.toNat = false)
    (hf : onlyFields [(0, 10), (12, 4)] (xval s a).toNat = true)
    (hdest : routeV (xval s a).toNat = false ∨ destAllowed s (xval s a).toNat = .ok () ∧ destExists s (xval s a).toNat = true ∧
      destTaken s (xval s a).toNat (some (unit.toNat, param.toNat)) = false) :
    exec (.route h a unit param) s = .next (advance (setPar s unit.toNat (2 + param.toNat) (xval s a).toNat)) := by
  rw [exec_route, execRoute, coreWord_of_core hr]
  simp only [unitAllowed_of_named hm, hi, hen, hf, Bool.not_true, Bool.or_self, Bool.false_eq_true, if_false]
  cases hv : routeV (xval s a).toNat with
  | false => rfl
  | true =>
    obtain ⟨hallowed, hexists, hfree⟩ := hdest.resolve_left (by simp [hv])
    simp only [hallowed, hexists, hfree, Bool.not_true, Bool.or_self, Bool.false_eq_true, if_false, coreOutcome_ok]

/-- A scalar for a port that no route feeds joins its queue, or waits for room there (R173). -/
theorem exec_tinj_of_unrouted (hr : CoreRuns (.tinj h a b unit param) s) (hm : MayName s unit.toNat) (htag : (xval s b).toNat < 16)
    (hport : param.toNat < unitInputs (unitKind unit.toNat)) (hfree : destTaken s (portRoute unit.toNat param.toNat) none = false) :
    exec (.tinj h a b unit param) s = .next (if portRoom s unit.toNat param.toNat then
      advance (setIn s unit.toNat param.toNat (inPort s unit.toNat param.toNat ++
        [scalarTok (BitVec.ofNat 4 (xval s b).toNat) (xval s a).toNat])) else s) := by
  have hlegal : ¬(decide (16 ≤ (xval s b).toNat) || decide (unitInputs (unitKind unit.toNat) ≤ param.toNat) ||
      destTaken s (portRoute unit.toNat param.toNat) none) = true := by simp [hfree, htag, hport]
  rw [exec_tinj, execTinj, coreWord_of_core hr]
  simp only [unitAllowed_of_named hm]
  rw [if_neg hlegal]
  cases portRoom s unit.toNat param.toNat <;> rfl

theorem exec_tdrain_of_idle (hr : CoreRuns (.tdrain h d unit) s) (hm : MayName s unit.toNat)
    (hi : inProgress (opUnit s unit.toNat) = false) : exec (.tdrain h d unit) s = .next (retX (drainUnit s unit.toNat) d
      (BitVec.ofNat 64 ((opUnit s unit.toNat).inq.toList.map List.length).sum)) := by
  rw [exec_tdrain, execTdrain, coreWord_of_core hr]
  simp only [unitAllowed_of_named hm, hi, Bool.false_eq_true, if_false, coreOutcome_ok]

theorem exec_tconv_of_named (hr : CoreRuns (.tconv h d a unit) s)
    (hm : (kindOf s).isMgr = true ∨ unit.toNat / 2 = myRegion s) (hf : onlyFields [(0, 4), (8, 4), (16, 1)] (xval s a).toNat = true) :
    exec (.tconv h d a unit) s = .next (retX (modConv s unit.toNat fun c => { c with cfg := (xval s a).setWidth 17 }) d
      ((conv s unit.toNat).cfg.setWidth 64)) := by
  rw [exec_tconv, execTconv, coreWord_of_core hr]
  simp only [convAllowed_of_named hm, hf, Bool.not_true, Bool.false_eq_true, if_false, coreOutcome_ok]

/-- The words that wait for the end of a firing leave the state as it is (R400). -/
theorem exec_unitWord_of_inProgress (hm : MayName s unit.toNat) (hi : inProgress (opUnit s unit.toNat) = true) :
    ∀ i ∈ [Instr.opset h a unit param, .opget h d unit param, .route h a unit param, .tdrain h d unit], CoreRuns i s → exec i s = .next s := by
  simp only [List.forall_mem_cons, List.not_mem_nil, false_implies, implies_true, and_true]
  refine ⟨?opset, ?opget, ?route, ?tdrain⟩
  all_goals
    intro hr
    simp only [exec_opset, execOpset, exec_opget, execOpget, exec_route, execRoute, exec_tdrain, execTdrain, coreWord_of_core hr,
      unitAllowed_of_named hm, hi, if_true, coreOutcome_hold]

/-- A unit of another graph is PROT (R172). -/
theorem exec_unitWord_of_not_named (hm : ¬MayName s unit.toNat) :
    ∀ i ∈ [Instr.opset h a unit param, .opget h d unit param, .route h a unit param, .tinj h a b unit param, .tdrain h d unit],
      CoreRuns i s → exec i s = .next (coreFault s (myCore s) 0x21 (BitVec.ofNat 64 unit.toNat)) := by
  simp only [List.forall_mem_cons, List.not_mem_nil, false_implies, implies_true, and_true]
  refine ⟨?opset, ?opget, ?route, ?tinj, ?tdrain⟩
  all_goals
    intro hr
    simp only [exec_opset, execOpset, exec_opget, execOpget, exec_route, execRoute, exec_tinj, execTinj, exec_tdrain, execTdrain,
      coreWord_of_core hr, unitAllowed_of_not_named hm, coreOutcome_trap]

end

/-- Settles O38: each word past the check of its unit, with the wait for a firing and the fault of a unit that is not the core's. -/
theorem unitWordsActOnTheirUnit : Obligations.UnitWordsActOnTheirUnit := by
  unfold Obligations.UnitWordsActOnTheirUnit
  intro h a b d unit param s t v u may mayConv x gives queue idle
  refine ⟨fun hm hi ht hr => exec_opset_of_taken hr hm hi ht, fun hm hi ht hr => exec_opset_of_refused hr hm hi ht,
    fun hm hi ht hr => exec_opget_of_read hr hm hi ht, fun hm hi hen hf hdest hr => exec_route_of_stopped hr hm hi hen hf hdest,
    fun hm htag hport hfree => ⟨fun hroom hr => ?room, fun hfull hr => ?full⟩, fun hm hi => exec_unitWord_of_inProgress hm hi,
    fun hm hi hr => exec_tdrain_of_idle hr hm hi, fun hm hf hr => exec_tconv_of_named hr hm hf, fun hm => exec_unitWord_of_not_named hm⟩
  case room => rw [exec_tinj_of_unrouted hr hm htag hport hfree, if_pos hroom]
  case full => rw [exec_tinj_of_unrouted hr hm htag hport hfree, if_neg (ne_true_of_eq_false hfull)]

end Sys2Proof.Machine
end

section
/-! PROOFS. Operator units: what an update of one leaves and what two of them come to, and the firing of a unit that has its inputs (R161,
R165, R167). -/

namespace Sys2Proof.Machine

/-! ### Updates of a unit -/

/-- A part of a unit that an update leaves reads as it was, at this unit and at any other. -/
theorem opUnit_modUnit_of_kept {α : Type} {f : OpUnit → OpUnit} (g : OpUnit → α) (hf : ∀ q, g (f q) = g q) (s : State) (u v : Nat) :
    g (opUnit (modUnit s u f) v) = g (opUnit s v) := by
  by_cases huv : u = v
  · subst huv
    by_cases hu : u < 768
    · rw [opUnit_modUnit_same _ _ _ hu, hf]
    · have hout : ∀ t : State, opUnit t u = OpUnit.reset := fun t => by simp [opUnit, vget, Vector.getD, hu]
      rw [hout, hout]
  · rw [opUnit_modUnit_ne _ _ _ _ huv]

theorem upar_modUnit {f : OpUnit → OpUnit} (hf : ∀ q, (f q).params = q.params) (s : State) (u v p : Nat) :
    upar (modUnit s u f) v p = upar s v p := by
  rw [upar, opUnit_modUnit_of_kept OpUnit.params hf, upar]

/-- The address space of a unit hangs on the graph that owns it. -/
theorem unitRoot_modUnit {f : OpUnit → OpUnit} (hf : ∀ q, (f q).owner = q.owner) (s : State) (u v : Nat) :
    unitRoot (modUnit s u f) v = unitRoot s v := by
  have hgraph : unitGraph (modUnit s u f) v = unitGraph s v := by
    have hfind : graph? (modUnit s u f) = graph? s := funext fun gid => by rw [graph?, die_modUnit, graph?]
    rw [unitGraph, opUnit_modUnit_of_kept OpUnit.owner hf, hfind, unitGraph]
  simp only [unitRoot, unitLoader, hgraph, core_modUnit]

theorem modUnit_modUnit (s : State) (u : Nat) (f f' : OpUnit → OpUnit) :
    modUnit (modUnit s u f) u f' = modUnit s u fun q => f' (f q) := by
  simp only [modUnit, modDie_modDie, vmod_vmod]

/-- Two updates of a unit are one where they make the same of it. -/
theorem modUnit_congr {s : State} {u : Nat} {f f' : OpUnit → OpUnit} (h : f (opUnit s u) = f' (opUnit s u)) :
    modUnit s u f = modUnit s u f' := by
  unfold modUnit modDie
  have := vmod_congr (v := (s.dies[s.cur]).units) OpUnit.reset h
  simp only [this]

/-! ### Firings -/

/-- The unit after a firing: its tokens wait at the outputs, and FIRINGS counts it (R165). -/
def fired (t : State) (u : Nat) (out : List (Nat × Token)) : State :=
  modUnit t u fun q => { q with out := q.out ++ out, firings := q.firings + 1, supplied := [], issued := none, served := false }

theorem firingOutcome_ok (s t : State) (u : Nat) (out : List (Nat × Token)) : firingOutcome s u (.ok (t, out)) = fired t u out := rfl

/-- A unit that may fire, with its inputs, does its operation. -/
theorem firing_of_ready {i : Instr} {s t : State} {u : Nat} {k : UnitKind} {b : Bool} {out : List (Nat × Token)}
    {f : State → Except Stop (State × List (Nat × Token))} (ha : AgentRuns i) (hm : mayFire s u k = true) (hb : b = true)
    (hf : f s = .ok (t, out)) : firing i s u k b f = .next (fired t u out) := by
  rw [firing, event_of_enabled ha (by rw [hm, hb]; rfl), hf, firingOutcome_ok]

@[simp] theorem joinTwo_got {α β : Type} (a : α) (p : List Token) (b : β) (q : List Token)
    (f : α → List Token → β → List Token → Except Stop (State × List (Nat × Token))) : joinTwo (.got a p) (.got b q) f = f a p b q := rfl
@[simp] theorem ready_got {α : Type} (v : α) (rest : List Token) : (Taken.got v rest).ready = true := rfl

end Sys2Proof.Machine
end

section
/-! PROOFS. The firings of the units of the summary tree, SCORE, TREEUPD and DESCEND, and the pin of a query (R165, R166, R205 to R211,
R218). -/

namespace Sys2Proof.Machine

section
variable {u n r pool : Nat} {s t : State} {q : List Nat} {p rest : List Token}

/-- SCORE gives s and ε of a node of the pool, which counts the request as served (R208, R210). -/
theorem exec_scoreFiring_of_ready {se : F32 × F32} (ha : AgentRuns (.scoreFiring u)) (hm : mayFire s u .score = true)
    (hpool : isPool (upar s u 4) = true) (hbound : (upar s u 5).testBit 15 = false)
    (hq : takeHalves (poolOf s (upar s u 4) (unitAccess s u)).d (inPort s u 0) = .got q p)
    (hn : takeScalar 11 (inPort s u 1) = .got n rest) (hcap : n < (poolOf s (upar s u 4) (unitAccess s u)).cap)
    (hrun : runTree (served s (upar s u 4)) (upar s u 4) (unitAccess (served s (upar s u 4)) u) none (do
      let q ← takeQuery (poolOf s (upar s u 4) (unitAccess s u)).d (halfBytes q)
      let n ← getNode n
      pure (scoreOf (poolOf s (upar s u 4) (unitAccess s u)).d q (floatVals n.c), epsOf (poolOf s (upar s u 4) (unitAccess s u)).d q n.rho))
        (fun _ => []) = .ok (se, t)) :
    exec (.scoreFiring u) s = .next (fired (setIn (setIn t u 0 p) u 1 rest) u [(0, scalarTok 0 se.1.toNat), (0, scalarTok 0 se.2.toNat)]) := by
  rw [exec_scoreFiring, execScoreFiring, event_of_enabled ha
    (by simp only [hm, hpool, hbound, hq, hn, ready_got, if_true, Bool.not_false, Bool.and_self])]
  simp only [hpool, hq, hn, hrun, joinTwo_got, if_true, Bool.not_true, Bool.false_eq_true, if_false, if_neg (not_le.2 hcap), firingOutcome_ok]

/-- TREEUPD gives the root after an append (R194, R209). -/
theorem exec_treeupdFiring_of_ready (ha : AgentRuns (.treeupdFiring u)) (hm : mayFire s u .treeupd = true)
    (hn : takeScalar 11 (inPort s u 0) = .got n p)
    (hq : takeHalves (2 * (poolOf s u (unitAccess s u)).d) (inPort s u 1) = .got q rest)
    (hroot : rootOk (poolOf s u (unitAccess s u)) n = true)
    (hrun : runEdit s u (unitAccess s u) none n (do
      let e ← takeEntry (poolOf s u (unitAccess s u)).d (halfBytes q)
      treeAppend n e) = .ok (r, t)) :
    exec (.treeupdFiring u) s = .next (fired (setIn (setIn t u 0 p) u 1 rest) u [(0, scalarTok 11 r)]) := by
  rw [exec_treeupdFiring, execTreeupdFiring]
  refine firing_of_ready ha hm (by simp only [hn, hq, ready_got, Bool.and_self]) ?_
  simp only [hn, hq, hroot, hrun, joinTwo_got, Bool.not_true, Bool.false_eq_true, if_false]

/-- DESCEND answers the query whose root is pinned (R205, R209). -/
theorem exec_descendFiring_of_pinned {res : QResult} (ha : AgentRuns (.descendFiring u)) (hm : mayFire s u .descend = true)
    (hpin : (opUnit s u).pin = some r) (hcount : (opUnit s u).count = 0) (hn : takeScalar 11 (inPort s u 0) = .got n p)
    (hq : takeHalves (poolOf s (pinnedPool s u) (unitAccess s u)).d (inPort s u 1) = .got q rest)
    (hrun : runTree s (pinnedPool s u) (unitAccess s u) none (do
      let q ← takeQuery (poolOf s (pinnedPool s u) (unitAccess s u)).d (halfBytes q)
      treeQuery r q (BitVec.ofNat 32 (upar s u 69)) (bits (upar s u 71) 0 16)) (fun _ => []) = .ok (res, t)) :
    exec (.descendFiring u) s = .next (fired (modUnit (setIn (setIn t u 0 p) u 1 rest) u fun k => { k with count := 1 }) u
      ((floatBeats res.out).map (fun b => (0, b)) ++
          [(1, scalarTok 0 res.r.toNat), (1, scalarTok 0 res.z.toNat), (1, scalarTok 0 res.m.toNat), (1, scalarTok 0 res.status.toNat)])) := by
  rw [exec_descendFiring, execDescendFiring, event_of_enabled ha (by simp [hm, hpin, hcount])]
  simp only [hpin, hn, hq, hrun, joinTwo_got, firingOutcome_ok]
  rfl

/-- QUERY_PIN keeps the root, with a reference to it, and the registers of the query (R211, R218). -/
theorem exec_queryPin_of_ready (ha : AgentRuns (.queryPin u)) (hm : mayFire s u .descend = true) (hpin : (opUnit s u).pin = none)
    (hpool : descendPool (upar s u 4) (upar s u 6) s u = some pool) (hn : takeScalar 11 (inPort s u 0) = .got n p)
    (hq : takeHalves (2 ^ bits (upar s pool 6) 27 3) (inPort s u 1) = .got q rest)
    (hroot : rootOk (poolOf (served s pool) pool (unitAccess (served s pool) u)) n = true)
    (hrun : runTree (served s pool) pool (unitAccess (served s pool) u) none (incRef n) (fun _ => []) = .ok ((), t)) :
    exec (.queryPin u) s = .next (modUnit t u fun q => { q with
      pin := some n
      supplied := []
      issued := none
      params := (List.range 4).foldl (fun t k => t.set 0 (68 + k) (t.get 0 (4 + k))) q.params }) := by
  rw [exec_queryPin, execQueryPin, event_of_enabled ha (by simp only [hm, hpin, hpool, hn, hq, ready_got, Option.isNone_none, Bool.and_self])]
  simp only [hpool, hn, hroot, hrun, Bool.not_true, Bool.false_eq_true, if_false]

/-- QUERY_UNPIN drops the pin of a query that is done (R205). -/
theorem exec_queryUnpin_of_done (ha : AgentRuns (.queryUnpin u)) (hk : unitKind u = .descend) (hpin : (opUnit s u).pin = some r)
    (hcount : (opUnit s u).count = 1) (hretry : (opUnit s u).retry = none)
    (hrun : runTree s (pinnedPool s u) (unitAccess s u) none (dropRef treeFuel r none) (fun _ => []) = .ok ((), t)) :
    exec (.queryUnpin u) s = .next (clearPin t u) := by
  rw [exec_queryUnpin, execQueryUnpin, event_of_enabled ha (by simp [hk, hpin, hcount, hretry])]
  simp only [hpin, Option.getD_some, unpin, dropPin, hrun]

end

/-- Settles O41: each firing by the operation on its pool, and the pin by the references of its root. -/
theorem treeUnitsFire : Obligations.TreeUnitsFire := by
  unfold Obligations.TreeUnitsFire
  intro u s t q p rest n r pool se res acc fires took
  exact ⟨fun hpool hbound hq hn hcap hrun ha hm => exec_scoreFiring_of_ready ha hm hpool hbound hq hn hcap hrun,
    fun hn hq hroot hrun ha hm => exec_treeupdFiring_of_ready ha hm hn hq hroot hrun,
    fun hpin hcount hn hq hrun ha hm => exec_descendFiring_of_pinned ha hm hpin hcount hn hq hrun,
    fun ha hm hpin hpool hn hq hroot hrun => exec_queryPin_of_ready ha hm hpin hpool hn hq hroot hrun,
    fun ha hk hpin hcount hretry hrun => exec_queryUnpin_of_done ha hk hpin hcount hretry hrun⟩

end Sys2Proof.Machine
end

section
/-! PROOFS. The firings of the units of the generation loop: CASCELL in each of its phases, CUMSEL, ACCEPT, PKEY and GRAMMAR (R165, R224 to
R237). -/

namespace Sys2Proof.Machine

/-! ### CASCELL -/

/-- The low field of a vector, taken as a number. -/
theorem ofNat_bits_zero {w : Nat} (x : BitVec w) (k : Nat) : BitVec.ofNat k (bits x.toNat 0 k) = x.setWidth k := by
  apply BitVec.eq_of_toNat_eq
  rw [bits, Nat.shiftRight_zero, BitVec.toNat_ofNat, BitVec.toNat_setWidth, Nat.mod_mod]

section
variable {u : Nat} {s : State} {tok : Token} {p0 p1 : List Token} {vs : List Nat}

/-- The head's header names the forced token (R225). -/
theorem exec_cascellHeader_of_beat (ha : AgentRuns (.cascellHeader u)) (hm : mayFire s u .cascell = true) (hp : cellPhase s u = .header)
    (hq : inPort s u 0 = tok :: p0) (hvec : tok.vec = true) (htag : tok.tag = 15) :
    exec (.cascellHeader u) s = .next (fired (modUnit (setIn s u 0 p0) u fun q =>
      { q with phase := .collect, rrp := 1, fid := tok.data.setWidth 24, forced := tok.data.getLsbD 31 }) u []) := by
  rw [exec_cascellHeader, execCascellHeader]
  refine firing_of_ready ha hm (by simp [hp, hq]) ?_
  simp only [hq, hvec, htag, bne_self_eq_false, Bool.not_true, Bool.or_self, Bool.false_eq_true, if_false, ofNat_bits_zero]
  rfl

section
variable {q : OpUnit} {out : List (Nat × Token)} (ha : AgentRuns (.cascellCollect u)) (hm : mayFire s u .cascell = true)
  (hp : cellPhase s u = .collect) (hhead : cellHead s u = true) (hq : inPort s u 0 = tok :: p1) (hvec : tok.vec = true) (htag : tok.tag ≠ 15)
  (hvals : takeOne 0 (tok :: p1) = .got vs p0)
  (htake : headTake (upar s u 5) (cellLast s u) (opUnit s u) (chunks 16 vs.length (vs.map (BitVec.ofNat 32))) = (q, out))
include ha hm hp hhead hq hvec htag hvals htake

/-- The head takes logits and spills what they displace, while there are more of the vocabulary (R224). -/
theorem exec_cascellCollect_logits (hmore : q.count < upar s u 5) : exec (.cascellCollect u) s =
    .next (fired (setIn (modUnit s u fun _ => { q with phase := .collect, rrp := 1 }) u 0 p0) u out) := by
  rw [exec_cascellCollect, execCascellCollect]
  refine firing_of_ready ha hm (by simp [hp, hq]) ?_
  have hlegal : ¬(!tok.vec || tok.tag == 15) = true := by simpa [hvec] using htag
  simp only [hq, hhead, if_true, if_neg hlegal, hvals, htake, decide_eq_false (not_le.2 hmore), Bool.false_eq_true, if_false,
    List.append_nil]

/-- The last logits of the vocabulary end the phase (R225). -/
theorem exec_cascellCollect_lastLogits (hend : upar s u 5 ≤ q.count) : exec (.cascellCollect u) s =
    .next (fired (setIn (modUnit s u fun _ => (cellEnd true (cellLast s u) { q with rrp := 1 }).2) u 0 p0) u
      (out ++ (cellEnd true (cellLast s u) { q with rrp := 1 }).1)) := by
  rw [exec_cascellCollect, execCascellCollect]
  refine firing_of_ready ha hm (by simp [hp, hq]) ?_
  have hlegal : ¬(!tok.vec || tok.tag == 15) = true := by simpa [hvec] using htag
  simp only [hq, hhead, if_true, if_neg hlegal, hvals, htake, decide_eq_true hend]

end

/-- The end marker from the west ends the phase of a cell (R225). -/
theorem exec_cascellCollect_marker (ha : AgentRuns (.cascellCollect u)) (hm : mayFire s u .cascell = true)
    (hp : cellPhase s u = .collect) (hhead : cellHead s u = false) (hq : inPort s u 0 = tok :: p0) (hmark : isMarker tok = true) :
    exec (.cascellCollect u) s = .next (fired
      (setIn (modUnit s u fun _ => (cellEnd false (cellLast s u) { opUnit s u with rrp := 1 }).2) u 0 p0) u
      (cellEnd false (cellLast s u) { opUnit s u with rrp := 1 }).1) := by
  rw [exec_cascellCollect, execCascellCollect]
  refine firing_of_ready ha hm (by simp [hp, hq]) ?_
  simp only [hq, hhead, hmark, Bool.false_eq_true, if_false, if_true]
  rfl

theorem isMarker_of_vec (hvec : tok.vec = true) : isMarker tok = false := by simp [isMarker, hvec]

/-- A cell merges the candidates of a beat and spills those that they displace (R224). -/
theorem exec_cascellCollect_beat (ha : AgentRuns (.cascellCollect u)) (hm : mayFire s u .cascell = true)
    (hp : cellPhase s u = .collect) (hhead : cellHead s u = false) (hq : inPort s u 0 = tok :: p0) (hvec : tok.vec = true)
    (htag : tok.tag = 15) :
    exec (.cascellCollect u) s = .next (fired
      (setIn (modUnit s u fun _ => { (cellMerge (opUnit s u) (beatCands tok.data)).1 with phase := .collect, rrp := 1 }) u 0 p0) u
      (spill (cellLast s u) (cellMerge (opUnit s u) (beatCands tok.data)).2)) := by
  rw [exec_cascellCollect, execCascellCollect]
  refine firing_of_ready ha hm (by simp [hp, hq]) ?_
  simp only [hq, hhead, isMarker_of_vec hvec, hvec, htag, bne_self_eq_false, Bool.not_true, Bool.or_self, Bool.false_eq_true, if_false,
    List.append_nil]

/-- The terminator ends the step, and the head's summary goes out in its place (R225). -/
theorem exec_cascellDrain_marker (ha : AgentRuns (.cascellDrain u)) (hm : mayFire s u .cascell = true) (hp : cellPhase s u = .drain)
    (hq : inPort s u 1 = tok :: p1) (hmark : isMarker tok = true) :
    let passed := modUnit (setIn s u 1 p1) u fun q => { q with rrp := 0 }
    exec (.cascellDrain u) s =
      .next (fired (modUnit passed u cellReset) u [(1, if cellHead s u then summaryBeat (opUnit passed u) else marker)]) := by
  intro passed
  have hhead : cellHead passed u = cellHead s u := by simp only [passed, setIn, cellHead, upar_modUnit, implies_true]
  rw [exec_cascellDrain, execCascellDrain]
  refine firing_of_ready ha hm (by simp [hp, hq]) ?_
  simp only [hq, hmark, if_true]
  rw [← hhead]

/-- A beat from the east passes on. -/
theorem exec_cascellDrain_beat (ha : AgentRuns (.cascellDrain u)) (hm : mayFire s u .cascell = true) (hp : cellPhase s u = .drain)
    (hq : inPort s u 1 = tok :: p1) (hvec : tok.vec = true) (htag : tok.tag = 15) :
    exec (.cascellDrain u) s = .next (fired (modUnit (setIn s u 1 p1) u fun q => { q with rrp := 0 }) u [(1, tok)]) := by
  rw [exec_cascellDrain, execCascellDrain]
  refine firing_of_ready ha hm (by simp [hp, hq]) ?_
  simp only [hq, isMarker_of_vec hvec, hvec, htag, beq_self_eq_true, Bool.and_self, Bool.false_eq_true, if_false, if_true]

end

/-! ### CUMSEL, ACCEPT and PKEY -/

section
variable {u n m : Nat} {s t : State} {p0 p1 p2 : List Token} {ls : List Line} {x : Drawn} {e : DrainEnd}

theorem exec_cumselSampleFiring_of_drawn (ha : AgentRuns (.cumselSampleFiring u)) (hm : mayFire s u .cumsel = true)
    (hls : takeBeats (drainBeats s u) (inPort s u 0) = .got ls p0) (hn : takeScalar 11 (inPort s u 1) = .got n p1) (hsel : ctlSel s u = 0)
    (hd : drawFrom s (unitAccess s u) u (BitVec.ofNat 64 (upar s u 9)) ls = .ok (x, e, t)) :
    exec (.cumselSampleFiring u) s = .next (fired (setIn (setIn (countSample t u e) u 0 p0) u 1 p1) u
      [(0, scalarTok 11 (x.tok + 2 ^ 31))]) := by
  rw [exec_cumselSampleFiring, execCumselSampleFiring]
  refine firing_of_ready ha hm (by simp only [hls, hn, hsel, ready_got, beq_self_eq_true, Bool.and_self]) ?_
  simp only [hls, hn, joinTwo_got, hd]

theorem exec_cumselVerifyFiring_of_drawn (ha : AgentRuns (.cumselVerifyFiring u)) (hm : mayFire s u .cumsel = true)
    (hls : takeBeats (drainBeats s u) (inPort s u 0) = .got ls p0) (hn : takeScalar 11 (inPort s u 1) = .got n p1) (hsel : ctlSel s u = 1)
    (hd : drawFrom s (unitAccess s u) u (BitVec.ofNat 64 (upar s u 9 + n)) ls = .ok (x, e, t)) :
    exec (.cumselVerifyFiring u) s = .next (fired (setIn (setIn t u 0 p0) u 1 p1) u
      ((verifyObject (selCells t u) x e).1.map fun l => (0, beatTok 15 l))) := by
  rw [exec_cumselVerifyFiring, execCumselVerifyFiring]
  refine firing_of_ready ha hm (by simp only [hls, hn, hsel, ready_got, beq_self_eq_true, Bool.and_self]) ?_
  simp only [hls, hn, joinTwo_got, hd]

theorem exec_acceptFiring_of_judged {r : Accepted} (ha : AgentRuns (.acceptFiring u)) (hm : mayFire s u .accept = true)
    (hls : takeBeats (acceptBeats s u) (inPort s u 0) = .got ls p0) (hn : takeScalar 11 (inPort s u 1) = .got n p1)
    (hc : takeScalar 11 (inPort s u 2) = .got m p2) (hr : acceptOf s u ls n m = .ok r) :
    exec (.acceptFiring u) s = .next (fired (setIn (setIn (setIn (modUnit s u fun _ => r.unit) u 0 p0) u 1 p1) u 2 p2) u
      (r.emit.toList.map fun p => (0, committed p))) := by
  rw [exec_acceptFiring, execAcceptFiring]
  refine firing_of_ready ha hm (by simp only [hls, hn, hc, ready_got, Bool.and_self]) ?_
  simp only [hls, hn, hc, joinTwo_got, hr]

theorem exec_pkeyFiring_of_found {hs : List Nat} {k : Lookup} (ha : AgentRuns (.pkeyFiring u)) (hm : mayFire s u .pkey = true)
    (hq : takeHalves (pkD s u) (inPort s u 0) = .got hs p0) (hn : takeScalar 11 (inPort s u 1) = .got n p1)
    (hk : pkLookup s (unitAccess s u) u hs n = .ok (k, t)) :
    exec (.pkeyFiring u) s = .next (fired (setIn (setIn t u 0 p0) u 1 p1) u
      ((floatBeats k.out).map fun t => (0, t))) := by
  rw [exec_pkeyFiring, execPkeyFiring]
  refine firing_of_ready ha hm (by simp only [hq, hn, ready_got, Bool.and_self]) ?_
  simp only [hq, hn, joinTwo_got, hk]

/-! ### GRAMMAR -/

section
variable (ha : AgentRuns (.grammarStepFiring u)) (hm : mayFire s u .grammar = true) (hp : (opUnit s u).phase ≠ .mask)
  (hn : takeScalar 11 (inPort s u 1) = .got n p1)
include ha hm hp hn

/-- A step by a token that is not the last of its object (R237). -/
theorem exec_grammarStepFiring_more (ht : gmTake s (unitAccess s u) u n = .ok (false, t)) :
    exec (.grammarStepFiring u) s = .next (fired (setIn t u 1 p1) u []) := by
  have hphase : ((opUnit s u).phase != .mask) = true := by simpa using hp
  rw [exec_grammarStepFiring, execGrammarStepFiring]
  refine firing_of_ready ha hm (by simp only [hphase, hn, ready_got, Bool.and_self]) ?_
  simp only [hn, ht, Bool.false_eq_true, if_false]

/-- The header step of the last token emits FID and FORCED, and the masks begin (R237). -/
theorem exec_grammarStepFiring_last (ht : gmTake s (unitAccess s u) u n = .ok (true, t)) :
    exec (.grammarStepFiring u) s = .next (fired (modUnit (setIn t u 1 p1) u fun q => { q with phase := .mask, count := 0 }) u
      [(0, beatTok 15 (BitVec.ofNat 512 ((opUnit t u).fid.toNat + if (opUnit t u).forced then 2 ^ 31 else 0)))]) := by
  have hphase : ((opUnit s u).phase != .mask) = true := by simpa using hp
  rw [exec_grammarStepFiring, execGrammarStepFiring]
  refine firing_of_ready ha hm (by simp only [hphase, hn, ready_got, Bool.and_self]) ?_
  simp only [hn, ht, if_true]

end

/-- The mask bits are those of the chunks that are read. -/
theorem gmMask_of_read {len : Nat} {bs : List Byte} (hread : readLines s (unitAccess s u) ((maskBase s u + 64 + 64 * (n / 512)) % 2 ^ 64)
    ((max (n + 1) (min (n + len) (gmVocab s u)) - 1) / 512 + 1 - n / 512) = .ok (bs, t)) : gmMask s u n len = .ok (bytesNat bs, t) := by
  simp only [gmMask, hread]

/-- Logits are masked by the bits of the state's mask, and the last ones of the vocabulary end the masks (R237). -/
theorem exec_grammarMaskFiring_of_read {vs : List Nat} {bs : List Byte} (ha : AgentRuns (.grammarMaskFiring u))
    (hm : mayFire s u .grammar = true) (hp : (opUnit s u).phase = .mask) (hvals : takeOne 0 (inPort s u 0) = .got vs p0)
    (hmask : gmMask s u (opUnit s u).count vs.length = .ok (bytesNat bs, t)) :
    let n := (opUnit s u).count
    let done := decide (gmVocab t u ≤ n + vs.length)
    exec (.grammarMaskFiring u) s = .next (fired (modUnit (setIn t u 0 p0) u fun k =>
        { k with count := if done then 0 else n + vs.length, phase := if done then .step else .mask }) u
      ((floatBeats (vs.zipIdx.map fun p => if (bytesNat bs).testBit (n % 512 + p.2) then BitVec.ofNat 32 p.1 else negInf)).map
        fun b => (0, b))) := by
  intro n done
  rw [exec_grammarMaskFiring, execGrammarMaskFiring]
  refine firing_of_ready ha hm (by simp only [hp, hvals, ready_got, beq_self_eq_true, Bool.and_self]) ?_
  simp only [hvals, hmask]
  rfl

end

/-- Settles O42: each firing by the inputs of its phase. -/
theorem generationUnitsFire : Obligations.GenerationUnitsFire := by
  unfold Obligations.GenerationUnitsFire
  intro u s t tok p0 p1 p2 vs hs ls n m x e r k b bs acc q fires cell last passed
  refine ⟨fun hp hq hvec htag ha hm => exec_cascellHeader_of_beat ha hm hp hq hvec htag,
    fun hp hhead hq hvec htag hvals => ⟨fun hmore ha hm => exec_cascellCollect_logits ha hm hp hhead hq hvec htag hvals rfl hmore,
      fun hend ha hm => exec_cascellCollect_lastLogits ha hm hp hhead hq hvec htag hvals rfl hend⟩,
    fun hp hhead hq => ⟨fun hmark ha hm => exec_cascellCollect_marker ha hm hp hhead hq hmark,
      fun hvec htag ha hm => exec_cascellCollect_beat ha hm hp hhead hq hvec htag⟩,
    fun hp hq => ⟨fun hmark ha hm => exec_cascellDrain_marker ha hm hp hq hmark,
      fun hvec htag ha hm => exec_cascellDrain_beat ha hm hp hq hvec htag⟩,
    fun hls hn => ⟨fun hsel hd ha hm => exec_cumselSampleFiring_of_drawn ha hm hls hn hsel hd,
      fun hsel hd ha hm => exec_cumselVerifyFiring_of_drawn ha hm hls hn hsel hd⟩,
    fun hls hn hc hr ha hm => exec_acceptFiring_of_judged ha hm hls hn hc hr,
    fun hq hn hk ha hm => exec_pkeyFiring_of_found ha hm hq hn hk,
    fun hp hn ht => ⟨fun hb ha hm => exec_grammarStepFiring_more ha hm hp hn (hb ▸ ht),
      fun hb ha hm => exec_grammarStepFiring_last ha hm hp hn (hb ▸ ht)⟩,
    fun hp hvals hread ha hm => exec_grammarMaskFiring_of_read ha hm hp hvals (gmMask_of_read hread)⟩

end Sys2Proof.Machine
end

section
/-! PROOFS. The firings of GATHER, REDUCE, QUANT and SWITCH, and tokens on their way along routes and through converters (R164 to R170,
R175 to R177, R480). -/

namespace Sys2Proof.Machine

/-! ### GATHER -/

section
variable {u k n : Nat} {s t : State} {tok : Token} {p0 : List Token} {head : Line} {row : GatherRow} {bs : List Byte}

section
variable (ha : AgentRuns (.gatherFiring u)) (hm : mayFire s u .gather = true) (hlen : (opUnit s u).rows.length < 64)
  (hfault : ∀ r ∈ (opUnit s u).rows, r.fault = none) (hq : inPort s u 0 = tok :: p0) (hvec : tok.vec = true)
  (hconv : convertible tok.tag 15 = true)
include ha hm hlen hfault hq hvec hconv

/-- A header begins a tile (R175). -/
theorem exec_gatherFiring_header (htile : (opUnit s u).tile = none) (hok : tileOk tok.data = true) :
    exec (.gatherFiring u) s = .next (modUnit (setIn s u 0 p0) u fun q =>
      { q with tile := some (tok.data, 0), firings := q.firings + 1, served := false }) := by
  rw [exec_gatherFiring, execGatherFiring, event_of_enabled ha (by simpa [hm, hlen, hq] using hfault)]
  simp only [hq, hvec, hconv, htile, hok, Bool.not_true, Bool.or_self, Bool.false_eq_true, if_false]

/-- An index puts a row in flight; the beat is used up with its last index (R175, R176). -/
theorem exec_gatherFiring_index (htile : (opUnit s u).tile = some (head, n))
    (hdie : (tileTarget head (tileIndex head tok.data n)).1 < 24) :
    let aim := tileTarget head (tileIndex head tok.data n)
    let ends := lastOfBeat head n
    let t := modUnit s u fun q => { q with
      rows := q.rows ++ [⟨aim.1, aim.2, tileRow head, [], none, if ends then some tok else none, none, unitRoot s u⟩]
      tile := if n + 1 == tileCount head then none else some (head, n + 1)
      served := false }
    exec (.gatherFiring u) s = .next (if ends then setIn t u 0 p0 else t) := by
  intro aim ends t
  have hroot : unitRoot (setIn s u 0 p0) u = unitRoot s u :=
    unitRoot_modUnit (f := fun k => { k with inq := vset k.inq 0 p0 }) (fun _ => rfl) ..
  rw [exec_gatherFiring, execGatherFiring, event_of_enabled ha (by simpa [hm, hlen, hq] using hfault)]
  simp only [hq, hvec, hconv, htile, if_neg (not_le.2 hdie), Bool.not_true, Bool.or_self, Bool.false_eq_true, if_false]
  cases hends : lastOfBeat head n with
  | true =>
    simp only [ends, t, hends, if_true, hroot]
    simp only [putRow, setIn, modUnit_modUnit]
    rfl
  | false =>
    simp only [ends, t, hends, Bool.false_eq_true, if_false]
    simp only [putRow, modUnit_modUnit]
    rfl

end

/-- A row that is read takes its bytes, and the complete rows go on (R176, R177). -/
theorem exec_gatherRowArrival_of_read (ha : AgentRuns (.gatherRowArrival u k)) (hk : unitKind u = .gather)
    (hrow : (opUnit s u).rows[k]? = some row) (hdata : row.data = []) (hretry : row.retry = none) (hfault : row.fault = none)
    (hhalt : (opUnit s u).halted = false)
    (hread : readRow s { unitAccess s u with ctx := { (unitAccess s u).ctx with root := row.root } } (bits (upar s u 4) 0 2) row.die row.addr
      (row.size / 64) = .ok (bs, t)) :
    exec (.gatherRowArrival u k) s = .next (advanceRows (modUnit t u fun q => { q with
      rows := modNth q.rows k fun r => { r with data := bs }
      supplied := q.supplied.filter fun p => !(row.addr ≤ p.1 && p.1 < row.addr + row.size) }) u) := by
  rw [exec_gatherRowArrival, execGatherRowArrival, hrow]
  dsimp only
  rw [event_of_enabled ha (by simp [hk, hdata, hretry, hfault, hhalt]), hread]

/-- Complete rows leave the unit where no row whose read has faulted is next (R177). -/
theorem advanceRows_of_noFault (hnext : ∀ r ∈ (emitRows (ctlTag s u) (opUnit s u).rows).2.head?, r.fault = none) :
    let ready := emitRows (ctlTag s u) (opUnit s u).rows
    advanceRows s u = modUnit s u fun q => { q with
      out := q.out ++ ready.1.map (fun t => (0, t))
      rows := ready.2
      firings := q.firings + BitVec.ofNat 32 ((q.rows.take (q.rows.length - ready.2.length)).filter fun r => r.beat.isSome).length } := by
  have hnone : ((emitRows (ctlTag s u) (opUnit s u).rows).2.head?.bind fun r => r.fault) = none := Option.bind_eq_none_iff.2 hnext
  simp only [advanceRows, hnone]
  exact modUnit_congr rfl

end

/-! ### REDUCE, QUANT and SWITCH -/

section
variable {u n : Nat} {s : State} {tok sel : Token} {p0 p1 ls : List Token} {vs : List Nat}

/-- A free value that is taken is no part of a unit. -/
theorem upar_fresh (p : Nat) : upar (fresh s).2 u p = upar s u p := rfl
theorem ctlSel_fresh : ctlSel (fresh s).2 u = ctlSel s u := rfl
theorem ctlTag_fresh : ctlTag (fresh s).2 u = ctlTag s u := rfl
theorem ctlRm_fresh : ctlRm (fresh s).2 u = ctlRm s u := rfl
theorem inPort_fresh (p : Nat) : inPort (fresh s).2 u p = inPort s u p := rfl

/-- REDUCE combines the scalars of the ports that it joins, lane by lane (Table 9-5, R480). -/
theorem exec_reduceFiring_scalars {heads : List (Nat × List Nat × List Token)} (ha : AgentRuns (.reduceFiring u))
    (hm : mayFire s u .reduce = true) (hok : reduceOk s u = true) (hsel : ctlSel s u ≠ 3)
    (hfull : ∀ p ∈ joinedPorts s u, inPort s u p ≠ [])
    (htake : takeJoined (fresh s).2 u (BitVec.ofNat 4 (bits (upar s u 4) 0 4)) (joinedPorts s u) = .ok heads)
    (hlen : ∀ p ∈ heads, p.2.1.length = n) (hscalar : ∀ p ∈ joinedPorts s u, ∀ t ∈ (inPort s u p).head?, t.vec = false) :
    let tag : BitVec 4 := BitVec.ofNat 4 (bits (upar s u 4) 0 4)
    exec (.reduceFiring u) s = .next (fired (heads.foldl (fun s p => setIn s u p.1 p.2.2) (fresh s).2) u
      ((((combinePorts (reduceLane (ctlSel s u) tag ((upar s u 4).testBit 4) (ctlRm s u)) (heads.map fun p => p.2.1)).map
        (outValue tag (ctlTag s u) (ctlRm s u))).map (scalarTok (ctlTag s u))).map fun t => (0, t))) := by
  intro tag
  have hports : (joinedPorts s u).isEmpty = false := by
    rw [reduceOk, Bool.and_eq_true, decide_eq_true_iff] at hok
    rw [List.isEmpty_eq_false_iff, ← List.length_pos_iff]
    omega
  have hready : (!(joinedPorts s u).isEmpty && (joinedPorts s u).all fun p => !(inPort s u p).isEmpty) = true := by
    simpa [hports] using hfull
  have hvec : (((joinedPorts s u).filterMap fun p => (inPort s u p).head?).any fun k => k.vec) = false := by
    rw [List.any_eq_false]
    intro k hk
    obtain ⟨p, hp, hkp⟩ := List.mem_filterMap.1 hk
    rw [hscalar p hp k hkp]
    exact Bool.false_ne_true
  have hsame : (heads.any fun p => p.2.1.length != (heads.map fun p => p.2.1.length).headD 0) = false := by
    cases heads with
    | nil => rfl
    | cons q l =>
      rw [List.any_eq_false]
      intro p hp
      rw [hlen p hp, List.map_cons, List.headD_cons, hlen q List.mem_cons_self]
      simp
  rw [exec_reduceFiring, execReduceFiring]
  refine firing_of_ready ha hm hready ?_
  have hwide : (ctlSel s u == 3) = false := by simpa using hsel
  simp only [hok, hwide, upar_fresh, ctlSel_fresh, ctlTag_fresh, ctlRm_fresh, inPort_fresh, htake, hsame, hvec, tag, Bool.not_true,
    Bool.false_eq_true, if_false]

/-- QUANT quantises the values of one pair; the values that are left stay for the next firing (R101 to R103). -/
theorem exec_quantFiring_of_pair (ha : AgentRuns (.quantFiring u)) (hm : mayFire s u .quant = true) (hmx : mxTag (ctlTag s u) = true)
    (hvals : takeMany 0 (32 * mxBlocks (ctlTag s u)) 64 [] (inPort s u 0) = .got vs p0) :
    let tag := ctlTag s u
    let need := 32 * mxBlocks tag
    let pair := packPair tag (if ctlSel s u == 1 then some (fp32.value (bits (upar s u 4) 0 32)) else none) (ctlRm s u)
      ((vs.take need).map fp32.value)
    exec (.quantFiring u) s = .next (fired (setIn s u 0 ((packBeats 32 0 (vs.drop need)).map (beatTok 0) ++ p0)) u
      [(0, beatTok tag pair.1), (0, beatTok tag pair.2)]) := by
  intro tag need pair
  rw [exec_quantFiring, execQuantFiring]
  refine firing_of_ready ha hm (by simp only [hvals, hmx, ready_got, Bool.and_self]) ?_
  simp only [hvals]
  rfl

/-- A token or a pair goes to the output that the scalar selects (R100). -/
theorem exec_switchSteer_of_selected (ha : AgentRuns (.switchSteer u)) (hm : mayFire s u .switch = true) (hsel : ctlSel s u = 0)
    (hq : headUnit (inPort s u 0) = some (ls, p0)) (hk : inPort s u 1 = sel :: p1) (hscalar : sel.vec = false) :
    exec (.switchSteer u) s = .next (fired (setIn (setIn s u 0 p0) u 1 p1) u (ls.map fun t => (sel.data.toNat % 2, t))) := by
  rw [exec_switchSteer, execSwitchSteer]
  refine firing_of_ready ha hm (by simp [hsel, hq, hk]) ?_
  simp only [hq, hk, hscalar, Bool.false_eq_true, if_false]
  rfl

/-- The ports are served in turn (R163, R165). -/
theorem exec_switchMerge_of_served (ha : AgentRuns (.switchMerge u)) (hm : mayFire s u .switch = true) (hsel : ctlSel s u = 1)
    (hport : mergePort s u = some n) (hq : headUnit (inPort s u n) = some (ls, p0)) :
    exec (.switchMerge u) s = .next (fired (modUnit (setIn s u n p0) u fun q => { q with rrp := (n + 1) % 4 }) u
      (ls.map fun t => (0, t))) := by
  rw [exec_switchMerge, execSwitchMerge]
  refine firing_of_ready ha hm (by simp [hsel, hport]) ?_
  simp only [hport, hq, Option.bind_some, Option.map_some]

theorem exec_switchCopy_of_token (ha : AgentRuns (.switchCopy u)) (hm : mayFire s u .switch = true) (hsel : ctlSel s u = 2)
    (hq : inPort s u 0 = tok :: p0) :
    exec (.switchCopy u) s = .next (fired (setIn s u 0 p0) u [(0, tok), (1, tok)]) := by
  rw [exec_switchCopy, execSwitchCopy]
  refine firing_of_ready ha hm (by simp [hsel, hq]) ?_
  simp only [hq]

end

/-! ### Tokens on their way -/

/-- A valid route leads to an input port of a unit that has room. -/
def RouteFree (s : State) (v : Nat) : Prop := routeV v = true ∧ routeConv v = false ∧ portRoom s (routeDest v) (routePort v) = true

theorem RouteFree.enabled {s : State} {v : Nat} (h : RouteFree s v) :
    (routeV v && !routeConv v && portRoom s (routeDest v) (routePort v)) = true := by
  obtain ⟨hvalid, hunit, hroom⟩ := h
  simp only [hvalid, hunit, hroom, Bool.not_false, Bool.and_self]

section
variable {u k o : Nat} {s t : State} {tok : Token} {ls : List Token} {out : List (Nat × Token)}

theorem exec_unitTokenEmit_of_free (ha : AgentRuns (.unitTokenEmit u)) (ho : (opUnit s u).out = (o, tok) :: out)
    (hfree : RouteFree s (upar s u (2 + o))) :
    let t := modUnit s u fun q => { q with out := out }
    let v := upar s u (2 + o)
    exec (.unitTokenEmit u) s =
      .next (setIn t (routeDest v) (routePort v) (inPort t (routeDest v) (routePort v) ++ [tok])) := by
  intro t v
  simp only [exec_unitTokenEmit, execUnitTokenEmit, ho]
  exact event_of_enabled ha hfree.enabled

theorem exec_converterTokenIn_output (ha : AgentRuns (.converterTokenIn k)) (hk : k % 2 = 0) (hl : (conv s k).latch = tok :: ls)
    (hfree : RouteFree s (convRoute s k)) :
    let t := modConv s k fun c => { c with latch := ls }
    let v := convRoute s k
    exec (.converterTokenIn k) s =
      .next (setIn t (routeDest v) (routePort v) (inPort t (routeDest v) (routePort v) ++ [tok])) := by
  intro t v
  have hout : ¬(k % 2 == 1) = true := by simp [hk]
  simp only [exec_converterTokenIn, execConverterTokenIn, if_neg hout, hl]
  exact event_of_enabled ha hfree.enabled

theorem exec_converterTokenIn_input (ha : AgentRuns (.converterTokenIn k)) (hk : k % 2 = 1) (ht : routedInto s k = some (tok, t))
    (hroom : convRoom (conv s k) tok = true) : exec (.converterTokenIn k) s = .next (convPut t k tok) := by
  simp only [exec_converterTokenIn, execConverterTokenIn, hk, beq_self_eq_true, if_true, ht]
  exact event_of_enabled ha hroom

end

/-- Settles O43: each firing by the inputs that it takes, and each move of a token by the room at its destination. -/
theorem fabricUnitsFireAndTokensMove : Obligations.FabricUnitsFireAndTokensMove := by
  unfold Obligations.FabricUnitsFireAndTokensMove
  intro u k s t tok sel p0 p1 vs row bs n o head out heads ls fires q gathers dest onto free
  exact ⟨fun hq hvec hconv htile hok ha hm hlen hfault => exec_gatherFiring_header ha hm hlen hfault hq hvec hconv htile hok,
    fun hq hvec hconv htile hdie ha hm hlen hfault => exec_gatherFiring_index ha hm hlen hfault hq hvec hconv htile hdie,
    fun ha hk hrow hdata hretry hfault hhalt hread => exec_gatherRowArrival_of_read ha hk hrow hdata hretry hfault hhalt hread,
    advanceRows_of_noFault,
    fun hok hsel hfull htake hlen hscalar ha hm => exec_reduceFiring_scalars ha hm hok hsel hfull htake hlen hscalar,
    fun hmx hvals ha hm => exec_quantFiring_of_pair ha hm hmx hvals,
    fun hsel hq hk hscalar ha hm => exec_switchSteer_of_selected ha hm hsel hq hk hscalar,
    fun hsel hport hq ha hm => exec_switchMerge_of_served ha hm hsel hport hq,
    fun hsel hq ha hm => exec_switchCopy_of_token ha hm hsel hq,
    fun ha ho hfree => exec_unitTokenEmit_of_free ha ho hfree,
    fun ha hk hl hfree => exec_converterTokenIn_output ha hk hl hfree,
    fun ha hk ht hroom => exec_converterTokenIn_input ha hk ht hroom⟩

end Sys2Proof.Machine
end

section
/-! PROOFS. What comes from outside the compute dies: accesses of hosts and peers (R294, R301, R326, R327, R331, R479), packets of the
links (R181, R182), time stamps (R329), walks (R277) and block operations (R267). -/

namespace Sys2Proof.Machine

/-! ### Hosts -/

section
variable {l addr len q : Nat} {data : List Byte} {desc : BitVec 512} {s : State}

section
variable (hl : l < 2) (hr : hostReaches addr data.length = true)
include hl hr

/-- Within what its link reaches, a write of a host to HBM performs line by line (R294, R479). -/
theorem exec_hostWrite_hbm (hp : place addr = .hbm) :
    exec (.hostWrite l addr data) s = .next (externalWrite s (ioOfHost l) addr data) := by
  rw [exec_hostWrite, execHostWrite, machineEvent_of_enabled (by simp [hl, hr])]
  simp only [hp]

/-- 32 bytes at the mailbox are the nonce of a report (R331). -/
theorem exec_hostWrite_mailbox (hp : place addr = .mailbox) (hlen : data.length = 32) :
    exec (.hostWrite l addr data) s = .next (requestReport s (BitVec.ofNat 256 (bytesNat data))) := by
  rw [exec_hostWrite, execHostWrite, machineEvent_of_enabled (by simp [hl, hr])]
  simp only [hp, hlen, beq_self_eq_true, if_true]

/-- A write to a launch register is one access, which launches where it is a whole line (R301). -/
theorem exec_hostWrite_launch {n m : Nat} (hp : place addr = .launch n m) :
    exec (.hostWrite l addr data) s = .next (launchWrite (sendPacket s (ioOfHost l) n .request data) n m
      (if addr % 64 = 0 then data.length else 0) (bytesLine data)) := by
  rw [exec_hostWrite, execHostWrite, machineEvent_of_enabled (by simp [hl, hr])]
  simp only [hp, performBytes, beq_iff_eq]

end

theorem exec_hostRead_of_reached (hl : l < 2) (hr : hostReaches addr len = true) : exec (.hostRead l addr len) s = .next (
    let read := externalRead s (ioOfHost l) addr len
    { read.2 with io := { read.2.io with reads := read.2.io.reads ++ [(l, read.1)] } }) := by
  rw [exec_hostRead, execHostRead, machineEvent_of_enabled (by simp [hl, hr])]

theorem exec_hostLaunchWrite_of_queue (hq : q < 64) : exec (.hostLaunchWrite q len desc) s = .next
    (launchWrite (sendPacket s (ioOfHost 0) s.cur.val .request ((lineBytes desc).take len)) s.cur.val q len desc) := by
  rw [exec_hostLaunchWrite, execHostLaunchWrite, machineEvent_of_enabled (by simp [hq])]

end

/-! ### Peers -/

/-- A table in its canonical form reads at each number what it lists there. -/
theorem Table.get_of_mem {α : Type} [DecidableEq α] {dflt : α} {p : Nat × α} {t : Table α} (hp : p ∈ t) (ht : Table.wf dflt t = true) :
    t.get dflt p.1 = p.2 := by
  induction t with
  | nil => cases hp
  | cons c t ih =>
    obtain ⟨k, v⟩ := c
    simp only [Table.wf, Bool.and_eq_true] at ht
    obtain ⟨⟨-, habove⟩, hwf⟩ := ht
    rcases List.mem_cons.1 hp with rfl | hp
    · simp [Table.get]
    · have hlt : k < p.1 := by simpa using List.all_eq_true.1 habove p hp
      rw [Table.get, if_neg hlt.ne', if_neg hlt.not_gt, ih hp hwf]

/-- The block that a port receives is as long as the bytes that came. -/
theorem length_receiveBlock (e : EthPort) (full : Bool) (data : List Byte) : (receiveBlock e full data).2.length = data.length := by
  unfold receiveBlock
  dsimp only
  split
  case h_1 b hb =>
    by_cases hlen : data.length = 64
    · rw [length_lineBytes, hlen]
    · simp [hlen] at hb
  case h_2 => rfl

/-- A block that came in full is delivered as it came. -/
theorem receiveBlock_full (e : EthPort) (data : List Byte) : (receiveBlock e true data).2 = data := by
  simp [receiveBlock]

/-- A reference gives the block that it stands for, as long as the ring is in its canonical form (R181). -/
theorem receiveBlock_of_wf {e : EthPort} {data : List Byte} (hwf : Table.wf none e.ring = true) (hlen : data.length = 64) (full : Bool) :
    (receiveBlock e full data).2 = data := by
  unfold receiveBlock
  dsimp only
  split
  case h_2 => rfl
  case h_1 b hb =>
    obtain ⟨k, hk, hget⟩ := Option.bind_eq_some_iff.1 hb
    split at hk
    · cases hk
    · obtain ⟨p, hp, hpk⟩ := List.exists_of_findSome?_eq_some hk
      split at hpk
      case isFalse => cases hpk
      case isTrue hblock =>
        cases hpk
        rw [Table.get_of_mem hp hwf, beq_iff_eq.1 hblock] at hget
        rw [← Option.some.inj hget, lineBytes_bytesLine hlen]

section
variable {l seq addr len : Nat} {data : List Byte} {s : State}

/-- A frame in sequence performs with what the port has received; any other empties the caches of the port (R326, R327). -/
theorem exec_peerWrite_of_reached (hl : l < 48) (hr : addr + data.length ≤ 2 ^ 43) : exec (.peerWrite l seq addr data) s = .next (
    if seq = (ethAt s l).inSeq then externalWrite (modEth s l fun _ => (receiveFrame (ethAt s l) data).1) (ioOfPort l) addr
      (receiveFrame (ethAt s l) data).2
    else clearEthernet s l) := by
  rw [exec_peerWrite, execPeerWrite, machineEvent_of_enabled (by simpa [hl] using hr)]
  simp only [beq_iff_eq]

theorem exec_peerRead_of_reached (hl : l < 48) (hr : addr + len ≤ 2 ^ 43) : exec (.peerRead l addr len) s = .next (
    let read := externalRead s (ioOfPort l) addr len
    let sent := sendAnswer read.2 l addr read.1
    { sent with io := { sent.io with reads := sent.io.reads ++ [(2 + l, read.1)] } }) := by
  rw [exec_peerRead, execPeerRead, machineEvent_of_enabled (by simpa [hl] using hr)]

/-- A block of an answer enters the sender's cache unless the cache holds an equal one (R181, R327). -/
theorem dedupSend_cached (e : EthPort) (b : Line) :
    { e with cache := (dedupSend e.cache e.sent b).1, sent := (dedupSend e.cache e.sent b).2.1 } =
      match e.cache.find? fun p => p.2 == some b with
      | some _ => e
      | none => { e with cache := e.cache.set none (e.sent % ringSlots) (some b), sent := e.sent + 1 } := by
  unfold dedupSend
  cases e.cache.find? fun p => p.2 == some b <;> rfl

theorem sendAnswer_of_port {t : State} {e : EthPort} (hport : ethAt t l = e) (addr : Nat) (data : List Byte) :
    sendAnswer t l addr data = modEth t l fun _ => (answerBlocks addr data).foldl (fun e b =>
      match e.cache.find? fun p => p.2 == some (bytesLine b) with
      | some _ => e
      | none => { e with cache := e.cache.set none (e.sent % ringSlots) (some (bytesLine b)), sent := e.sent + 1 }) e := by
  subst hport
  simp only [sendAnswer, dedupSend_cached]
  rfl

theorem exec_ethernetLinkEvent_of_port (hl : l < 48) : exec (.ethernetLinkEvent l) s = .next (clearEthernet s l) := by
  rw [exec_ethernetLinkEvent, execEthernetLinkEvent, machineEvent_of_enabled (by simp [hl])]

end

/-! ### Links -/

section
variable {l q : Nat} {s : State} {p : Packet} {rest : List Packet}

/-- The oldest packet of a channel is delivered at its die, and at any other goes on to the next link towards it (R12, R13). -/
theorem exec_brunexPacketArrival_of_waiting (hq : q < 432)
    (hp : vget [] (crossUntil (q % 4) (linkAt s (q / 4)).wire.length (linkAt s (q / 4))).queues (q % 4) = p :: rest) :
    let read := crossUntil (q % 4) (linkAt s (q / 4)).wire.length (linkAt s (q / 4))
    let left := { read with queues := vset read.queues (q % 4) rest }
    exec (.brunexPacketArrival q) s = .next (if p.dest = linkEnd (q / 4) then modLink s (q / 4) fun _ => { left with delivered := some p }
      else modLink (modLink s (q / 4) fun _ => left) (linkFor (linkEnd (q / 4)) p.dest) fun k => sendOn k p) := by
  intro read left
  rw [exec_brunexPacketArrival, execBrunexPacketArrival, machineEvent_of_enabled (by simp [hq])]
  simp only [arrivePacket, hp, beq_iff_eq]
  rfl

theorem exec_linkRetrain_of_link (hl : l < 108) : exec (.linkRetrain l) s = .next (retrainLink s l) := by
  rw [exec_linkRetrain, execLinkRetrain, machineEvent_of_enabled (by simp [hl])]

/-- A deduplicated packet joins the wire, its block by a reference or in full (R181). -/
theorem wire_sendOn (k : Link) {b : Line} (hb : p.block = some b) : ∃ ref, (sendOn k p).wire = k.wire ++ [{ p with ref := ref }] := by
  rw [sendOn, hb]
  exact ⟨_, rfl⟩

/-- Sent in full, it enters the next slot of the cache too (R182). -/
theorem sendFull_of_block (k : Link) {b : Line} (hb : p.block = some b) : sendFull k p = { k with
    wire := k.wire ++ [{ p with ref := none }], cache := k.cache.set none (k.sent % ringSlots) (some b), sent := k.sent + 1 } := by
  rw [sendFull, hb]

end

/-! ### Time, walks and block operations -/

/-- A stamp of the port's own clock is kept, and every clock is slewed by at most 5 in 10,000 (R329). -/
theorem exec_ptpEventTimestamp_of_port {l : Nat} {s : State} (hl : l < 48) :
    let v := (fresh s).1
    let slew : Int := (v.toNat % 11 : Nat) - 5
    exec (.ptpEventTimestamp l) s = .next { (fresh s).2 with
      io := { s.io with stamps := s.io.stamps ++ [⟨l, vget 0 s.io.phcs (l / 12), v.getLsbD 8, v.getLsbD 9⟩], slew := slew }
      dies := s.dies.map fun d => { d with slew := slew } } := by
  intro v slew
  rw [exec_ptpEventTimestamp, execPtpEventTimestamp, machineEvent_of_enabled (by simp [hl])]
  rfl

/-- A change of every die is one of each that the module has. -/
theorem dieAt_of_map {s t : State} {f : Die → Die} (h : t.dies = s.dies.map f) (n : Nat) :
    dieAt t n = if n < 24 then f (dieAt s n) else dieAt s n := by
  rw [dieAt, h, dieAt]
  by_cases hn : n < 24 <;> simp [vget, Vector.getD, hn]

theorem exec_pageTableWalk_of_space {root va : X} {s : State} (hva : va.toNat < 2 ^ 57) :
    exec (.pageTableWalk root va) s = .next (findLeaf s noTlb root (leafPlaced va.toNat) va.toNat).1 := by
  rw [exec_pageTableWalk, execPageTableWalk, machineEvent_of_enabled (by simpa using hva)]

theorem exec_codecBlockOperation_of_finite {addr codec key party : Nat} {data : List Byte} {s : State} (hp : place addr = .hbm)
    (hd : data ≠ []) (hline : addr % 64 + data.length ≤ 64) (h0 : 0 < codec) (hc : codec < 7) (hk : key < 256) (hparty : party < 34)
    (hf : nonFinite (data.zipIdx.map fun p => (addr % 64 + p.2, p.1)) = false) :
    exec (.codecBlockOperation addr codec key party data) s = .next (performLine s (addr / 64) ⟨codec, key, false⟩
      (data.zipIdx.map fun p => (addr % 64 + p.2, p.1)) 0 s.cur.val party (party == 33)) := by
  rw [exec_codecBlockOperation, execCodecBlockOperation,
    machineEvent_of_enabled (by simp [hp, hd, hline, h0.ne', hc, hk, hparty, hf])]

/-- Settles O57: each event by what its party reaches, and a received block by the ring that mirrors the sender's cache. -/
theorem hostsPeersLinksAndTime : Obligations.HostsPeersLinksAndTime := by
  unfold Obligations.HostsPeersLinksAndTime
  intro l addr len seq q codec key party data desc root va s p rest k lines answered port_ again emptied got read
  refine ⟨fun hl hr => ⟨exec_hostWrite_hbm hl hr, exec_hostWrite_mailbox hl hr, fun _ _ => exec_hostWrite_launch hl hr⟩,
    exec_hostRead_of_reached, exec_hostLaunchWrite_of_queue,
    fun hl hr => ⟨fun hseq => ?inSequence, rfl, length_receiveBlock .., fun hagain => ?sentAgain, fun hwf hlen => receiveBlock_of_wf hwf hlen _,
      fun hseq => ?outOfSequence⟩,
    exec_peerRead_of_reached, fun t ht => sendAnswer_of_port (by rw [ethAt, ht]; rfl) addr data, exec_ethernetLinkEvent_of_port,
    fun hq hp => ⟨fun hdest => ?delivered, fun hdest => ?goesOn⟩, exec_linkRetrain_of_link, fun b hb => ?block, fun hl => ?stamp,
    exec_pageTableWalk_of_space, exec_codecBlockOperation_of_finite⟩
  case inSequence => rw [exec_peerWrite_of_reached hl hr, if_pos hseq]
  case outOfSequence => rw [exec_peerWrite_of_reached hl hr, if_neg hseq]; rfl
  case sentAgain =>
    have hfull : (port_.again != 0) = true := by simpa using hagain
    show (receiveBlock port_ (port_.again != 0) data).2 = data
    rw [hfull, receiveBlock_full]
  case delivered => rw [exec_brunexPacketArrival_of_waiting hq hp, if_pos hdest]
  case goesOn => rw [exec_brunexPacketArrival_of_waiting hq hp, if_neg hdest]
  case block =>
    obtain ⟨ref, hwire⟩ := wire_sendOn k hb
    rw [sendFull_of_block k hb]
    exact ⟨ref, hwire, rfl, rfl⟩
  case stamp =>
    refine ⟨((fresh s).1.toNat % 11 : Nat) - 5, _, exec_ptpEventTimestamp_of_port hl, by omega, by omega, ⟨_, _, rfl⟩, rfl, rfl,
      dieAt_of_map (f := fun d => { d with slew := ((fresh s).1.toNat % 11 : Nat) - 5 }) rfl⟩

end Sys2Proof.Machine
end

section
/-! PROOFS. The tree instructions of a core: the edits of a sequence, its release and its fork, the read of a node, and the query of a root
(R194, R199, R202, R203, R205, R211 to R216, R219). -/

namespace Sys2Proof.Machine

/-! ### Edits -/

/-- A path that is well formed, from a root that is not NULL, names a node to edit (R201). -/
theorem pathOperands_of_turns {path root : Nat} {turns : List Bool} (hpath : pathTurns path = some turns) (hnull : root ≠ treeNull) :
    pathOperands path root = none :=
  if_neg (by simp [hpath, hnull])

section
variable {h : Hdr} {a b c d : Reg} {unit : BitVec 10} {param : BitVec 6} {s t : State} {r : Nat} {turns : List Bool}
  (hu : unitReady s unit.toNat = .ok ()) (hroot : rootOk (poolOf s unit.toNat (coreAccess s)) (xval s a).toNat = true)
include hu hroot

/-- AN EDIT WORD: on a ready unit, with a root that the pool takes and operands that are legal, D takes the root that the edit gives (R213,
R215, R216). -/
theorem editWord_of_ran {operands : Nat → Option Stop} {m : Tree → Nat → TreeM Nat} (hop : operands (xval s a).toNat = none)
    (hrun : runEdit s unit.toNat (coreAccess s) (some (myCore s)) (xval s a).toNat
      (m (poolOf s unit.toNat (coreAccess s)) (xval s a).toNat) = .ok (r, t)) :
    editWord s d a unit operands m = .ok (retX (served t unit.toNat) d (BitVec.ofNat 64 r)) := by
  simp only [editWord, hu, hroot, hop, hrun, Bool.not_true, Bool.false_eq_true, if_false]

/-- An edit of the node that a path names. -/
theorem pathWord_of_ran {m : Nat → List Bool → TreeM Nat}
    (hpath : pathTurns (xval s b).toNat = some turns) (hnull : (xval s a).toNat ≠ treeNull)
    (hrun : runEdit s unit.toNat (coreAccess s) (some (myCore s)) (xval s a).toNat (m (xval s a).toNat turns) = .ok (r, t)) :
    pathWord s d a b unit m = .ok (retX (served t unit.toNat) d (BitVec.ofNat 64 r)) := by
  rw [pathWord]
  refine editWord_of_ran hu hroot (pathOperands_of_turns hpath hnull) ?_
  rw [hpath]
  exact hrun

theorem exec_tappend_of_ran (hr : CoreRuns (.tappend h d a b unit) s) (hva : (xval s b).toNat % 64 = 0)
    (hrun : runEdit s unit.toNat (coreAccess s) (some (myCore s)) (xval s a).toNat (do
      let bs ← readObject (xval s b).toNat (4 * (poolOf s unit.toNat (coreAccess s)).d)
      let e ← takeEntry (poolOf s unit.toNat (coreAccess s)).d bs
      treeAppend (xval s a).toNat e) = .ok (r, t)) :
    exec (.tappend h d a b unit) s = .next (retX (served t unit.toNat) d (BitVec.ofNat 64 r)) := by
  rw [exec_tappend, execTappend, coreWord_of_core hr, editWord_of_ran hu hroot (if_neg (by simp [hva])) hrun, coreOutcome_ok]

/-- A word that edits the node that a path names, by the operation of its entry. -/
theorem coreWord_pathWord_of_ran {i : Instr} {m : Nat → List Bool → TreeM Nat} (hr : CoreRuns i s)
    (hpath : pathTurns (xval s b).toNat = some turns) (hnull : (xval s a).toNat ≠ treeNull)
    (hrun : runEdit s unit.toNat (coreAccess s) (some (myCore s)) (xval s a).toNat (m (xval s a).toNat turns) = .ok (r, t)) :
    coreWord i s (fun s => pathWord s d a b unit m) = .next (retX (served t unit.toNat) d (BitVec.ofNat 64 r)) := by
  rw [coreWord_of_core hr, pathWord_of_ran hu hroot hpath hnull hrun, coreOutcome_ok]

theorem exec_tevictRelease_of_ran (hr : CoreRuns (.tevictRelease h d a b unit) s) (hpath : (xval s b).toNat = 0)
    (hrun : runEdit s unit.toNat (coreAccess s) (some (myCore s)) (xval s a).toNat (treeRelease (xval s a).toNat) = .ok (r, t)) :
    exec (.tevictRelease h d a b unit) s = .next (retX (served t unit.toNat) d (BitVec.ofNat 64 r)) := by
  rw [exec_tevictRelease, execTevictRelease, coreWord_of_core hr, editWord_of_ran hu hroot (if_neg (by simp [hpath])) hrun, coreOutcome_ok]

/-! ### TFORK and TNODE -/

/-- TFORK edits no node of the sequence: an open group notes the unit, and pins and makes no root (R202, R212). -/
theorem exec_tfork_of_ran (hr : CoreRuns (.tfork h d a unit) s)
    (hrun : runTree (if groupState s (coreAccess s) = 1 then noteEdit s (coreAccess s) unit.toNat none none else s) unit.toNat
      (coreAccess s) (some (myCore s)) (treeFork (xval s a).toNat) (fun _ => []) = .ok (r, t)) :
    exec (.tfork h d a unit) s = .next (retX (served t unit.toNat) d (BitVec.ofNat 64 r)) := by
  rw [exec_tfork, execTfork, coreWord_of_core hr]
  simp only [hu, hroot, hrun, beq_iff_eq, Bool.not_true, Bool.false_eq_true, if_false, coreOutcome_ok]

/-- TNODE reads a word of the record of the node that a path names (R214). -/
theorem exec_tnode_of_ran (hr : CoreRuns (.tnode h d a b c unit param) s) (hnull : (xval s a).toNat ≠ treeNull)
    (hpath : pathTurns (xval s b).toNat = some turns)
    (hword : param.toNat + (xval s c).toNat < (poolOf s unit.toNat (coreAccess s)).ns / 8)
    (hrun : runTree s unit.toNat (coreAccess s) none (do
      let _ ← getLive (xval s a).toNat
      let i ← walkPath (xval s a).toNat turns
      let n ← getNode i
      pure (if 64 + 8 * (poolOf s unit.toNat (coreAccess s)).d ≤ 8 * (param.toNat + (xval s c).toNat) then 0
        else bytesNat ((n.raw.drop (8 * (param.toNat + (xval s c).toNat))).take 8))) (fun _ => []) = .ok (r, t)) :
    exec (.tnode h d a b c unit param) s = .next (retX (served t unit.toNat) d (BitVec.ofNat 64 r)) := by
  have hlegal : ¬((xval s a).toNat == treeNull || !rootOk (poolOf s unit.toNat (coreAccess s)) (xval s a).toNat ||
      decide ((poolOf s unit.toNat (coreAccess s)).ns / 8 ≤ param.toNat + (xval s c).toNat)) = true := by simp [hnull, hroot, hword]
  rw [exec_tnode, execTnode, coreWord_of_core hr]
  simp only [hu, hpath]
  rw [if_neg hlegal]
  simp only [hrun, coreOutcome_ok]

end

/-! ### TQUERY -/

/-- The operation of a TQUERY: the query object is read, the root takes the pin, and the version that stands is asked (R205, R211). -/
def askPool (s : State) (u pool va root : Nat) : TreeM QResult := do
  let bs ← readObject va (2 * (poolOf s pool (coreAccess s)).d)
  let q ← takeQuery (poolOf s pool (coreAccess s)).d bs
  incRef root
  treeQuery root q (BitVec.ofNat 32 (upar s u 5)) (bits (upar s u 7) 0 16)

/-- The result block of a TQUERY (R207, R219). -/
def answerLines (s : State) (pool res : Nat) (q : QResult) : List (Nat × List Byte) :=
  asLines res (resultBytes (poolOf s pool (coreAccess s)).d q)

section
variable {h : Hdr} {a b c d : Reg} {unit : BitVec 10} {s t t' : State} {pool : Nat} {q q' : QResult}
  (hr : CoreRuns (.tquery h d a b c unit) s) (hu : unitReady s unit.toNat = .ok ())
  (hpool : descendPool (upar s unit.toNat 4) (upar s unit.toNat 6) s unit.toNat = some pool)
  (hroot : rootOk (poolOf s pool (coreAccess s)) (xval s a).toNat = true) (hva : (xval s b).toNat % 64 = 0)
  (hres : (xval s c).toNat % 64 = 0)
  (hrun : runTree s pool (coreAccess s) (some (myCore s)) (askPool s unit.toNat pool (xval s b).toNat (xval s a).toNat)
    (answerLines s pool (xval s c).toNat) = .ok (q, t))
include hr hu hpool hroot hva hres hrun

/-- A TQUERY of a NULL root is answered at once (R205). -/
theorem exec_tquery_of_null (hnull : (xval s a).toNat = treeNull) :
    exec (.tquery h d a b c unit) s = .next (retX t d (q.status.setWidth 64)) := by
  unfold askPool answerLines at hrun
  rw [exec_tquery, execTquery, coreWord_of_core hr]
  simp only [hu, hpool, hroot, hva, hres, hrun, Bool.not_true, bne_self_eq_false, Bool.false_eq_true, if_false]
  rw [if_pos (beq_iff_eq.2 hnull), coreOutcome_ok]

/-- A TQUERY of another root, whose result block translates, runs again without those writes: the root is pinned, and the core waits with
the answer (R205, R216, R219). -/
theorem exec_tquery_of_pinned (hnull : (xval s a).toNat ≠ treeNull)
    (hpin : runTree s pool (coreAccess s) (some (myCore s)) (askPool s unit.toNat pool (xval s b).toNat (xval s a).toNat)
      (fun _ => []) = .ok (q', t')) :
    exec (.tquery h d a b c unit) s = .next (modCore (served t' pool) (myCore t') fun k => { k with
      wait := .query d pool (xval s a).toNat (answerLines s pool (xval s c).toNat q) (q.status.setWidth 64) }) := by
  unfold askPool answerLines at *
  rw [exec_tquery, execTquery, coreWord_of_core hr]
  simp only [hu, hpool, hroot, hva, hres, hrun, hpin, Bool.not_true, bne_self_eq_false, Bool.false_eq_true, if_false]
  rw [if_neg (mt beq_iff_eq.1 hnull), coreOutcome_ok]

end

/-- Settles O39: the edits by the lemma of an edit word, and each other word past the checks of its operands. -/
theorem treeWordsEditAndQuery : Obligations.TreeWordsEditAndQuery := by
  unfold Obligations.TreeWordsEditAndQuery
  intro h a b c d unit param s t r turns u root acc tree me va gives edits hu
  exact ⟨fun hroot hva hrun hr => exec_tappend_of_ran hu hroot hr hva hrun,
    fun hroot hpath hnull =>
      ⟨fun hrun hr => (exec_tsplit s).trans (coreWord_pathWord_of_ran hu hroot hr hpath hnull hrun),
        fun hrun hr => (exec_tmerge s).trans (coreWord_pathWord_of_ran hu hroot hr hpath hnull hrun),
        fun hrun hr => (exec_tevict s).trans (coreWord_pathWord_of_ran hu hroot hr hpath hnull hrun)⟩,
    fun hroot hpath hrun hr => exec_tevictRelease_of_ran hu hroot hr hpath hrun,
    fun hroot hrun hr => exec_tfork_of_ran hu hroot hr hrun,
    fun hroot hnull hpath hword hrun hr => exec_tnode_of_ran hu hroot hr hnull hpath hword hrun,
    fun pool q hpool hroot hva hres hrun =>
      ⟨fun hnull hr => exec_tquery_of_null hr hu hpool hroot hva hres hrun hnull,
        fun hnull q' t' hpin hr => exec_tquery_of_pinned hr hu hpool hroot hva hres hrun hnull hpin⟩⟩

end Sys2Proof.Machine
end

section
/-! PROOFS. The words of the generation loop: SMPDRAW in each of its modes, ACPT, PKLOOK and GMSTEP on a ready unit (R227, R229, R230, R234,
R236, R237, R239). -/

namespace Sys2Proof.Machine

/-- The low field of a number is its remainder. -/
theorem bits_zero_eq_mod (v width : Nat) : bits v 0 width = v % 2 ^ width := rfl

/-- A result that begins a line passes the check of its address, whatever the address of the operand. -/
theorem not_misaligned_of_line {va res : Nat} (hres : res % 64 = 0) : ¬(va % 64 == 0 && res % 64 != 0) = true := by simp [hres]

section
variable {h : Hdr} {a b c d : Reg} {unit : BitVec 10} {s t v w : State} {ls : List Line} (hu : unitReady s unit.toNat = .ok ())
include hu

/-! ### SMPDRAW -/

section
variable {x : Drawn} {e : DrainEnd} (hls : readBeats s (xval s a).toNat (drainBeats s unit.toNat) = .ok (ls, t))
include hls

/-- In sample mode a draw counts GPOS, and D takes the token (R227, R239). -/
theorem exec_smpdrawSample_of_drawn (hr : CoreRuns (.smpdrawSample h d a b unit) s)
    (hdraw : drawFrom t (coreAccess t) unit.toNat (BitVec.ofNat 64 (upar t unit.toNat 9)) ls = .ok (x, e, v)) :
    exec (.smpdrawSample h d a b unit) s =
      .next (retX (countService (countSample v unit.toNat e) unit.toNat) d (BitVec.ofNat 64 x.tok)) := by
  rw [exec_smpdrawSample, execSmpdrawSample, coreWord_of_core hr]
  simp only [hu, hls, hdraw, coreOutcome_ok]

/-- In verify mode a draw is at a position of its own and leaves GPOS: the verify object is written, and D takes the token and H (R229,
R239). -/
theorem exec_smpdrawVerify_of_drawn (hr : CoreRuns (.smpdrawVerify h d a b c unit) s) (hres : (xval s c).toNat % 64 = 0)
    (hdraw : drawFrom t (coreAccess t) unit.toNat (BitVec.ofNat 64 (upar t unit.toNat 9) + xval t b) ls = .ok (x, e, v))
    (hwrite : coreLines v (xval s c).toNat ((verifyObject (selCells v unit.toNat) x e).1.flatMap lineBytes) = .ok w) :
    exec (.smpdrawVerify h d a b c unit) s = .next (retX (countService w unit.toNat) d
      (BitVec.ofNat 64 (x.tok + 2 ^ 32 * (verifyObject (selCells v unit.toNat) x e).2.toNat))) := by
  rw [exec_smpdrawVerify, execSmpdrawVerify, coreWord_of_core hr]
  simp only [hu, if_neg (not_misaligned_of_line hres), hls, hdraw, hwrite, coreOutcome_ok]

end

/-! ### ACPT -/

/-- A draft that is well formed is judged against the verify object: D takes what is emitted, with LAST, the verdict and REJ (R230, R239). -/
theorem exec_acpt_of_judged {n : Nat} {r : Accepted} (hr : CoreRuns (.acpt h d a b c unit) s)
    (hdraft : draftOf s unit.toNat ((xval s b).toNat % 2 ^ 32) = .ok n)
    (hls : readBeats s (xval s a).toNat (acceptBeats s unit.toNat) = .ok (ls, t))
    (hjudge : acceptOf t unit.toNat ls ((xval t b).toNat % 2 ^ 32) ((xval t c).toNat % 2 ^ 32) = .ok r) :
    exec (.acpt h d a b c unit) s = .next (retX (countService (modUnit t unit.toNat fun _ => r.unit) unit.toNat) d
      (BitVec.ofNat 64 ((r.emit.getD (0xFFFFFF, false)).1 + (if (r.emit.getD (0xFFFFFF, false)).2 then 2 ^ 31 else 0) +
        (if r.accepted then 2 ^ 32 else 0) + (if r.unit.rej then 2 ^ 33 else 0)))) := by
  rw [exec_acpt, execAcpt, coreWord_of_core hr]
  simp only [hu, bits_zero_eq_mod, hdraft, hls, hjudge, coreOutcome_ok]

/-! ### PKLOOK -/

/-- A lookup writes what it gathers, its indices and its weights, and D takes K (R234, R239). -/
theorem exec_pklook_of_found {k : Lookup} (hr : CoreRuns (.pklook h d a b c unit) s) (hres : (xval s b).toNat % 64 = 0)
    (hls : readBeats s (xval s a).toNat ((2 * pkD s unit.toNat + 63) / 64) = .ok (ls, t))
    (hfind : pkLookup t (coreAccess t) unit.toNat (wordsAt (ls.flatMap lineBytes) 2 (pkD t unit.toNat) 0) (xval t c).toNat = .ok (k, v))
    (hwrite : coreLines v (xval s b).toNat ((k.out ++ k.ix.map (BitVec.ofNat 32) ++ k.w).flatMap fun v => natBytes v.toNat 4) = .ok w) :
    exec (.pklook h d a b c unit) s = .next (retX (countService w unit.toNat) d (BitVec.ofNat 64 (pkK w unit.toNat))) := by
  rw [exec_pklook, execPklook, coreWord_of_core hr]
  simp only [hu, if_neg (not_misaligned_of_line hres), hls, hfind, hwrite, coreOutcome_ok]

/-! ### GMSTEP -/

/-- A grammar takes the committed token: D takes its state and depth, FORCED and FID (R236, R237, R239). -/
theorem exec_gmstep_of_taken {last : Bool} (hr : CoreRuns (.gmstep h d a unit) s)
    (htake : gmTake s (coreAccess s) unit.toNat ((xval s a).toNat % 2 ^ 32) = .ok (last, t)) :
    exec (.gmstep h d a unit) s = .next (retX (countService t unit.toNat) d (BitVec.ofNat 64 (upar t unit.toNat 8 % 2 ^ 23 +
      (if (opUnit t unit.toNat).forced then 2 ^ 32 else 0) + 2 ^ 40 * (opUnit t unit.toNat).fid.toNat))) := by
  rw [exec_gmstep, execGmstep, coreWord_of_core hr]
  simp only [hu, bits_zero_eq_mod, htake, coreOutcome_ok]

end

/-- Settles O40: each word by the operation of its unit on what it reads, past the checks of its operands. -/
theorem generationWordsComplete : Obligations.GenerationWordsComplete := by
  unfold Obligations.GenerationWordsComplete
  intro h a b c d unit s t v w ls x e r k last u gives reads flag hu
  exact ⟨fun hls hdraw hr => exec_smpdrawSample_of_drawn hu hls hr hdraw,
    fun hres hls hdraw hwrite hr => exec_smpdrawVerify_of_drawn hu hls hr hres hdraw hwrite,
    fun n hdraft hls hjudge hr => exec_acpt_of_judged hu hr hdraft hls hjudge,
    fun hres hls hfind hwrite hr => exec_pklook_of_found hu hr hres hls hfind hwrite,
    fun htake hr => exec_gmstep_of_taken hu hr htake⟩

end Sys2Proof.Machine
end

section
/-! PROOFS. A block of the codec on its way through a slot (R262 to R267), and the bytes that a write merges into a line. -/

namespace Sys2Proof.Machine

/-! ### The code of a block fits its budget -/

theorem toBits_lt (w : Nat) (i : Int) : toBits w i < 2 ^ w := by
  have hpos : (0 : Int) < (2 ^ w : Nat) := by exact_mod_cast Nat.two_pow_pos w
  have hlt := Int.emod_lt_of_pos i hpos
  unfold toBits
  omega

theorem foldl_max_lt {l : List Nat} {m n : Nat} (hm : m < n) (hl : ∀ x ∈ l, x < n) : l.foldl max m < n := by
  induction l generalizing m with
  | nil => exact hm
  | cons x l ih =>
    obtain ⟨hx, hl⟩ := List.forall_mem_cons.1 hl
    exact ih (max_lt hm hx) hl

/-- Fields put one above the other end below the sum of their widths. -/
theorem foldl_fields_lt {α : Type} {v w : α → Nat} (hv : ∀ f, v f < 2 ^ w f) (l : List α) (acc : Nat × Nat) (h : acc.1 < 2 ^ acc.2) :
    (l.foldl (fun acc f => (acc.1 + v f * 2 ^ acc.2, acc.2 + w f)) acc).1 < 2 ^ (acc.2 + (l.map w).sum) := by
  induction l generalizing acc with
  | nil => simpa using h
  | cons f l ih =>
    have hnext : acc.1 + v f * 2 ^ acc.2 < 2 ^ (acc.2 + w f) := by
      calc acc.1 + v f * 2 ^ acc.2 < (v f + 1) * 2 ^ acc.2 := by rw [Nat.succ_mul]; omega
        _ ≤ 2 ^ w f * 2 ^ acc.2 := Nat.mul_le_mul_right _ (hv f)
        _ = 2 ^ (acc.2 + w f) := by rw [Nat.pow_add, Nat.mul_comm]
    simpa [Nat.add_assoc] using ih (acc.1 + v f * 2 ^ acc.2, acc.2 + w f) hnext

/-- The fields of Table 15-2, after the exponent and the mark of a block of zeros, fill the budget of Table 15-1. -/
theorem codecWidths_le_budget (code : Nat) :
    let w := codecWidths code
    12 + [w.1, w.2.1, w.2.2.1, w.2.2.1, w.2.2.2, w.2.2.2, w.2.2.2, w.2.2.2].sum ≤ codecBudget code := by
  match code with
  | 0 | 1 | 2 | 3 | 4 | 5 => decide
  | n + 6 => exact (by decide : 12 + [44, 44, 30, 30, 24, 24, 24, 24].sum ≤ 512)

theorem encodeBlock_lt (code : Nat) (l : Line) : encodeBlock code l < 2 ^ codecBudget code := by
  have hw := codecWidths_le_budget code
  have hexp : ∀ x ∈ ((List.range 8).map (lineF64 l)).map expF64, x < 2 ^ 11 := by
    intro x hx
    obtain ⟨v, -, rfl⟩ := List.mem_map.1 hx
    exact Nat.mod_lt _ (Nat.two_pow_pos 11)
  have heb : max 1 ((((List.range 8).map (lineF64 l)).map expF64).foldl max 0) < 2 ^ 12 :=
    (max_lt (by decide) (foldl_max_lt (by decide) hexp)).trans (by decide)
  unfold encodeBlock
  generalize codecWidths code = w at hw
  obtain ⟨w0, w1, w2, w3⟩ := w
  dsimp only at hw ⊢
  split
  case isTrue => exact Nat.pow_lt_pow_right (by decide) (by omega)
  case isFalse =>
    refine (foldl_fields_lt (v := fun f : Int × Nat × Nat => toBits f.2.2 (codeField f.1 f.2.1 f.2.2)) (w := fun f => f.2.2)
      (fun f => toBits_lt _ _) _ (_, 12) heb).trans_le (Nat.pow_le_pow_right (by decide) ?_)
    simp only [List.map_cons, List.map_nil]
    exact hw

/-! ### What a slot gives back -/

/-- The first bytes of a number are those of its low bits. -/
theorem take_natBytes (v : Nat) {n m : Nat} (h : n ≤ m) : (natBytes v m).take n = natBytes v n := by
  induction n generalizing v m with
  | zero => rfl
  | succ n ih =>
    obtain ⟨m, rfl⟩ : ∃ k, m = k + 1 := ⟨m - 1, by omega⟩
    rw [natBytes, natBytes, List.take_succ_cons, ih _ (by omega)]

/-- A slot of a codec code is no longer than a line, holds the budget of the code, and under a key is of whole blocks (R265). -/
theorem codecBytes_bounds (code : Nat) (keyed : Bool) :
    codecBytes code keyed ≤ 64 ∧ codecBudget code ≤ 8 * codecBytes code keyed ∧ codecBudget code ≤ 512 ∧
      (keyed = true → 16 ∣ codecBytes code keyed) := by
  unfold codecBytes codecBudget
  cases keyed <;> split <;> decide

theorem codecBytes_le (code : Nat) (keyed : Bool) : codecBytes code keyed ≤ 64 := (codecBytes_bounds code keyed).1

/-- The low bits of a line, as far as the bytes that were kept of it reach. -/
theorem bits_bytesLine_take {k n : Nat} (hn : n ≤ 64) (hk : k ≤ 8 * n) (l : Line) :
    bits (bytesLine ((lineBytes l).take n)).toNat 0 k = l.toNat % 2 ^ k := by
  have h256 : 256 ^ n = 2 ^ (8 * n) := by rw [Nat.pow_mul]
  rw [lineBytes, take_natBytes _ hn, bytesLine, bytesNat_natBytes, BitVec.toNat_ofNat, h256, bits, Nat.shiftRight_zero,
    Nat.mod_mod_of_dvd _ (Nat.pow_dvd_pow 2 (hk.trans (by omega : 8 * n ≤ 512))), Nat.mod_mod_of_dvd _ (Nat.pow_dvd_pow 2 hk)]

/-- The code that an operation stores decodes to the values that it leaves, from the bytes that the slot keeps (R266, R267). -/
theorem codecLoad_codecStore (code : Nat) (l : Line) (keyed : Bool) :
    codecLoad code (bytesLine ((lineBytes (codecStore code l).1).take (codecBytes code keyed))) = (codecStore code l).2 := by
  obtain ⟨hle, hbudget, hline, -⟩ := codecBytes_bounds code keyed
  by_cases hplain : (code == 0 || code == 6) = true
  case pos =>
    have hb : codecBytes code keyed = 64 := by
      rcases Bool.or_eq_true_iff.1 hplain with h | h <;> cases keyed <;> rw [eq_of_beq h] <;> rfl
    simp only [codecLoad, codecStore, hplain, if_true, hb]
    rw [List.take_of_length_le (length_lineBytes l).le, bytesLine_lineBytes]
  case neg =>
    simp only [codecLoad, codecStore, hplain, Bool.false_eq_true, if_false]
    have hlt := encodeBlock_lt code l
    rw [bits_bytesLine_take hle hbudget, BitVec.toNat_ofNat, Nat.mod_mod_of_dvd _ (Nat.pow_dvd_pow 2 hline), Nat.mod_eq_of_lt hlt]

/-! ### The bytes of a line after a merge -/

/-- Byte `j` of a line. -/
def byteOf (l : Line) (j : Nat) : Byte := BitVec.ofNat 8 (bits l.toNat (8 * j) 8)

theorem byteAt_eq (s : State) (a : LineAttr) (pa : Nat) : byteAt s a pa = byteOf (peekLine s (pa / 64) a) (pa % 64) := rfl

theorem byteOf_bytesLine {l : List Byte} (h : l.length = 64) (j : Nat) : byteOf (bytesLine l) j = l.getD j 0 := byte_bytesLine h j

theorem getD_lineBytes (l : Line) (j : Nat) : (lineBytes l).getD j 0 = byteOf l j := by
  rw [← byteOf_bytesLine (length_lineBytes l), bytesLine_lineBytes]

/-- What a list of writes leaves at a place: the byte of the last of them that names it. -/
def lastByte (bs : List (Nat × Byte)) (j : Nat) : Option Byte := (bs.reverse.find? fun p => p.1 == j).map Prod.snd

theorem lastByte_cons (p : Nat × Byte) (bs : List (Nat × Byte)) (j : Nat) :
    lastByte (p :: bs) j = (lastByte bs j).or (if p.1 = j then some p.2 else none) := by
  rw [lastByte, List.reverse_cons, List.find?_append, Option.map_or, ← lastByte]
  congr 1
  by_cases h : p.1 = j <;> simp [h]

theorem getD_foldl_set {l : List Byte} {j : Nat} (hj : j < l.length) (bs : List (Nat × Byte)) :
    (bs.foldl (fun l p => l.set p.1 p.2) l).getD j 0 = (lastByte bs j).getD (l.getD j 0) := by
  induction bs generalizing l with
  | nil => rfl
  | cons p bs ih =>
    rw [List.foldl_cons, ih (by rwa [List.length_set]), lastByte_cons]
    cases lastByte bs j with
    | some b => rfl
    | none =>
      by_cases h : p.1 = j
      · subst h; simp [hj]
      · simp [h, List.getD_eq_getElem?_getD]

theorem length_foldl_set (bs : List (Nat × Byte)) (l : List Byte) : (bs.foldl (fun l p => l.set p.1 p.2) l).length = l.length := by
  induction bs generalizing l with
  | nil => rfl
  | cons p bs ih => exact (ih _).trans List.length_set

theorem byteOf_mergeLine (l : Line) (bs : List (Nat × Byte)) {j : Nat} (hj : j < 64) :
    byteOf (mergeLine l bs) j = (lastByte bs j).getD (byteOf l j) := by
  rw [mergeLine, byteOf_bytesLine (by rw [length_foldl_set, length_lineBytes]), getD_foldl_set (by rwa [length_lineBytes]), getD_lineBytes]

/-- Consecutive bytes from the place `o + n` on. -/
theorem lastByte_zipIdx (data : List Byte) (o n j : Nat) : lastByte ((data.zipIdx n).map fun p => (o + p.2, p.1)) j =
    if o + n ≤ j ∧ j < o + n + data.length then some (data.getD (j - (o + n)) 0) else none := by
  induction data generalizing n with
  | nil => rw [if_neg (by simp)]; rfl
  | cons b data ih =>
    rw [List.zipIdx_cons, List.map_cons, lastByte_cons, ih, List.length_cons]
    rcases lt_trichotomy j (o + n) with h | h | h
    · rw [if_neg (by omega), if_neg (by dsimp only; omega), if_neg (by omega)]; rfl
    · rw [if_neg (by omega), if_pos h.symm, if_pos (by omega), h, Nat.sub_self]; rfl
    · by_cases hin : j < o + n + (data.length + 1)
      · obtain ⟨k, rfl⟩ : ∃ k, j = o + n + (k + 1) := ⟨j - (o + n) - 1, by omega⟩
        rw [if_pos (by omega), Option.some_or, if_pos (by omega), Nat.add_sub_cancel_left, List.getD_cons_succ,
          show o + n + (k + 1) - (o + (n + 1)) = k by omega]
      · rw [if_neg (by omega), if_neg (by dsimp only; omega), if_neg (by omega)]; rfl

end Sys2Proof.Machine
end

section
/-! PROOFS. What a read of memory hangs on: the slots, the L2, the stored copies and the keys (R245, R265, R330). -/

namespace Sys2Proof.Machine

/-- Two states hold the same memory: slots, L2, stored copies and keys. -/
structure SameStore (s t : State) : Prop where
  mem : t.mem = s.mem
  l2 : t.l2 = s.l2
  dedup : t.dedup = s.dedup
  dedupMap : t.dedupMap = s.dedupMap
  keys : t.io.keys = s.io.keys

namespace SameStore

theorem refl (s : State) : SameStore s s := ⟨rfl, rfl, rfl, rfl, rfl⟩

section
variable {s t u : State} (h : SameStore s t)
include h

theorem trans (k : SameStore t u) : SameStore s u :=
  ⟨k.mem.trans h.mem, k.l2.trans h.l2, k.dedup.trans h.dedup, k.dedupMap.trans h.dedupMap, k.keys.trans h.keys⟩

theorem l2get (ln : Nat) : Machine.l2get t ln = Machine.l2get s ln := by rw [Machine.l2get, h.l2, Machine.l2get]

theorem slotRead (ln : Nat) (a : LineAttr) : Machine.slotRead t ln a = Machine.slotRead s ln a := by
  simp only [Machine.slotRead, slotCode, copyOf, sealBytes, unsealBytes, encryptUnit, h.mem, h.dedup, h.dedupMap, h.keys]

theorem unmapCopy (ln : Nat) : SameStore (unmapCopy s ln) (unmapCopy t ln) := by
  unfold Machine.unmapCopy
  rw [h.dedupMap]
  split
  · exact h
  · exact ⟨h.mem, h.l2, congrArg (List.map _) h.dedup, rfl, h.keys⟩

theorem slotWrite (ln : Nat) (a : LineAttr) (l : Line) (merge : Bool) :
    SameStore (slotWrite s ln a l merge) (slotWrite t ln a l merge) := by
  have hu := h.unmapCopy ln
  simp only [Machine.slotWrite, findCopy, hu.dedup, hu.dedupMap]
  split
  · exact ⟨hu.mem, hu.l2, rfl, rfl, hu.keys⟩
  · refine ⟨?_, hu.l2, rfl, rfl, hu.keys⟩
    simp only [sealBytes, encryptUnit, hu.mem, hu.keys]

theorem l2drop (ln : Nat) : SameStore (l2drop s ln) (l2drop t ln) := by
  unfold Machine.l2drop
  rw [h.l2get]
  split
  · exact h
  · next e _ =>
    have hw : SameStore (writeBack s ln e) (writeBack t ln e) := by
      unfold writeBack
      split
      · exact h.slotWrite ..
      · exact h
    exact ⟨hw.mem, congrArg (Table.set none ln none) hw.l2, hw.dedup, hw.dedupMap, hw.keys⟩

theorem l2agree (ln : Nat) (a : LineAttr) : SameStore (l2agree s ln a) (l2agree t ln a) := by
  unfold Machine.l2agree
  rw [h.l2get]
  split
  · split
    · exact h
    · exact h.l2drop ln
  · exact h

theorem peekLine (ln : Nat) (a : LineAttr) : Machine.peekLine t ln a = Machine.peekLine s ln a := by
  have ha := h.l2agree ln a
  simp only [Machine.peekLine, ha.l2get, ha.slotRead]

theorem byteAt (a : LineAttr) (pa : Nat) : Machine.byteAt t a pa = Machine.byteAt s a pa := by
  rw [byteAt_eq, byteAt_eq, h.peekLine]

end

theorem of_onlyDies {s t : State} (h : OnlyDies s t) : SameStore s t := by
  rw [h]
  exact ⟨rfl, rfl, rfl, rfl, rfl⟩

end SameStore

/-! ### Operations that leave all of memory -/

theorem sameStore_foldl {α : Type} {f : State → α → State} (hf : ∀ s a, SameStore s (f s a)) (l : List α) (s : State) :
    SameStore s (l.foldl f s) := by
  induction l generalizing s with
  | nil => exact .refl s
  | cons a l ih => exact (hf s a).trans (ih _)

theorem sameStore_sendPacket (s : State) (src dest : Nat) (c : VirtualChannel) (l : List Byte) : SameStore s (sendPacket s src dest c l) := by
  unfold sendPacket
  split <;> exact ⟨rfl, rfl, rfl, rfl, rfl⟩
theorem sameStore_sendRead (s : State) (src dest : Nat) (l : List Byte) : SameStore s (sendRead s src dest l) :=
  (sameStore_sendPacket ..).trans (sameStore_sendPacket ..)
theorem sameStore_modDieAt (s : State) (n : Nat) (f : Die → Die) : SameStore s (modDieAt s n f) := ⟨rfl, rfl, rfl, rfl, rfl⟩
theorem sameStore_countCodec (s : State) (a : LineAttr) (m d : Line) (cd ci : Nat) : SameStore s (countCodec s a m d cd ci) := by
  unfold countCodec
  split
  · exact .refl s
  · exact sameStore_modDieAt ..
theorem sameStore_invalidateCode (s : State) (ln : Nat) (every : Bool) : SameStore s (invalidateCode s ln every) := by
  unfold invalidateCode
  split <;> exact ⟨rfl, rfl, rfl, rfl, rfl⟩
theorem sameStore_discardSequenced (s : State) (ln : Nat) (bs : List (Nat × Byte)) : SameStore s (discardSequenced s ln bs) := by
  unfold discardSequenced
  split
  · exact sameStore_modDieAt ..
  · exact .refl s
theorem sameStore_refreshCaptured (s : State) (gid : Option Nat) (pa : Nat) (data : List Byte) :
    SameStore s (refreshCaptured s gid pa data) := by
  unfold refreshCaptured
  split
  · exact .refl s
  · split
    · exact .refl s
    · exact ⟨rfl, rfl, rfl, rfl, rfl⟩
theorem sameStore_noteWritten (s : State) (c pa : Nat) : SameStore s (noteWritten s c pa) := by
  unfold noteWritten
  split <;> exact ⟨rfl, rfl, rfl, rfl, rfl⟩
theorem sameStore_onDie {f : State → State} (hf : ∀ s, SameStore s (f s)) (s : State) (n : Nat) : SameStore s (onDie s n f) := by
  have h := hf { s with cur := Fin.ofNat 24 n }
  exact ⟨h.mem, h.l2, h.dedup, h.dedupMap, h.keys⟩

/-! ### The parts of an agreement of the L2 with its slots -/

/-- A line of the L2 agrees with its slot: it shares no stored copy, a clean one is what the slot reads as, and the code of a dirty one
decodes to its data. -/
def EntryAgrees (s : State) (ln : Nat) (e : L2Line) : Prop :=
  e.dedup = false ∧
    if e.dirty then codecLoad e.codec (bytesLine ((lineBytes e.code).take (codecBytes e.codec (e.key != 0)))) = e.data
    else slotRead s ln ⟨e.codec, e.key, false⟩ = e.data

/-- Tables are canonical and nothing is deduplicated. -/
structure Unshared (s : State) : Prop where
  memory : MemoryOk s
  table : Table.wf none s.l2 = true
  dedup : s.dedup = []
  dedupMap : s.dedupMap = []

theorem l2Agrees_iff (s : State) : L2Agrees s ↔ Unshared s ∧ ∀ ln e, l2get s ln = some e → EntryAgrees s ln e := by
  constructor
  · rintro ⟨hmem, htable, hdedup, hmap, he⟩
    exact ⟨⟨hmem, htable, hdedup, hmap⟩, he⟩
  · rintro ⟨⟨hmem, htable, hdedup, hmap⟩, he⟩
    exact ⟨hmem, htable, hdedup, hmap, he⟩

theorem L2Agrees.unshared {s : State} (h : L2Agrees s) : Unshared s := ((l2Agrees_iff s).1 h).1
theorem L2Agrees.entry {s : State} (h : L2Agrees s) {ln : Nat} {e : L2Line} (he : l2get s ln = some e) : EntryAgrees s ln e :=
  ((l2Agrees_iff s).1 h).2 ln e he

section
variable {s : State} {ln : Nat}

theorem l2get_l2put_same (hs : Unshared s) (o : Option L2Line) : l2get (l2put s ln o) ln = o := Table.get_set_same _ _ _ hs.table
theorem l2get_l2put_ne (hs : Unshared s) (o : Option L2Line) {m : Nat} (h : m ≠ ln) : l2get (l2put s ln o) m = l2get s m :=
  Table.get_set_ne _ _ _ _ hs.table h

theorem Unshared.l2put (hs : Unshared s) (ln : Nat) (o : Option L2Line) : Unshared (l2put s ln o) :=
  ⟨hs.memory, Table.wf_set _ _ _ hs.table, hs.dedup, hs.dedupMap⟩

theorem Unshared.of_sameStore {t : State} (hs : Unshared s) (h : SameStore s t) : Unshared t :=
  ⟨hs.memory.of_mem h.mem, by rw [h.l2]; exact hs.table, h.dedup.trans hs.dedup, h.dedupMap.trans hs.dedupMap⟩

theorem EntryAgrees.of_slotRead {t : State} {e : L2Line} (h : EntryAgrees s ln e) (hr : ∀ a, slotRead t ln a = slotRead s ln a) :
    EntryAgrees t ln e := by
  unfold EntryAgrees at *
  rwa [hr]

theorem L2Agrees.of_sameStore {t : State} (h : L2Agrees s) (k : SameStore s t) : L2Agrees t :=
  (l2Agrees_iff t).2 ⟨h.unshared.of_sameStore k, fun _ _ he => (h.entry ((k.l2get _).symm.trans he)).of_slotRead (k.slotRead _)⟩

end

end Sys2Proof.Machine
end

section
/-! PROOFS. Lines that move between the L2 and their slots keep what they read as, and a write changes its own line alone (R245, R246, R261,
R266, R267). -/

namespace Sys2Proof.Machine

/-! ### Slots where nothing is shared -/

/-- The bytes that a line keeps in the slot of a codec code, sealed: they are as many, and unseal to what they were (R265). -/
theorem sealBytes_codecBytes (s : State) (ln code key : Nat) (l : Line) :
    (sealBytes s key ln ((lineBytes l).take (codecBytes code (key != 0)))).length = codecBytes code (key != 0) ∧
      unsealBytes s key ln (sealBytes s key ln ((lineBytes l).take (codecBytes code (key != 0)))) =
        (lineBytes l).take (codecBytes code (key != 0)) := by
  obtain ⟨hle, -, -, hblocks⟩ := codecBytes_bounds code (key != 0)
  have hlen : ((lineBytes l).take (codecBytes code (key != 0))).length = codecBytes code (key != 0) := by
    rw [List.length_take, length_lineBytes, Nat.min_eq_left hle]
  have hunit : key = 0 ∨ 16 ∣ ((lineBytes l).take (codecBytes code (key != 0))).length := by
    rw [hlen]
    exact (eq_or_ne key 0).imp_right fun h => hblocks (bne_iff_ne.2 h)
  refine ⟨?_, unsealBytes_sealBytes s key ln _ hunit⟩
  rcases hunit with rfl | h
  · exact hlen
  · rw [length_sealBytes _ _ _ _ h, hlen]

theorem take_bytes (m : Table Byte) (pa : Nat) {n k : Nat} (h : n ≤ k) : (Table.bytes m pa k).take n = Table.bytes m pa n := by
  induction n generalizing pa k with
  | zero => rfl
  | succ n ih =>
    obtain ⟨k, rfl⟩ : ∃ j, k = j + 1 := ⟨k - 1, by omega⟩
    rw [Table.bytes, Table.bytes, List.take_succ_cons, ih _ (by omega)]

theorem drop_bytes (m : Table Byte) (pa n k : Nat) : (Table.bytes m pa (n + k)).drop n = Table.bytes m (pa + n) k := by
  induction n generalizing pa with
  | zero => rw [Nat.zero_add]; rfl
  | succ n ih => rw [Nat.add_right_comm, Table.bytes, List.drop_succ_cons, ih, Nat.add_assoc, Nat.add_comm 1 n]

/-- Bytes written at the start of a stretch of memory, with the rest of it. -/
theorem bytes_setBytes_start (l : List Byte) (pa k : Nat) (m : Table Byte) (hm : Table.wf 0 m = true) (h : l.length ≤ k) :
    Table.bytes (Table.setBytes m pa l) pa k = l ++ (Table.bytes m pa k).drop l.length := by
  obtain ⟨j, rfl⟩ := Nat.exists_eq_add_of_le h
  rw [drop_bytes, ← List.take_append_drop l.length (Table.bytes (Table.setBytes m pa l) pa (l.length + j)), take_bytes _ _ h,
    bytes_setBytes l pa m hm, drop_bytes, bytes_setBytes_apart l pa _ j m hm (.inr le_rfl)]

/-- The 64 bytes of a line's slot. -/
def slotBytes (s : State) (ln : Nat) : List Byte := Table.bytes s.mem (64 * ln) 64

/-- What a slot of the given bytes reads as under the attributes `a`. -/
def slotValue (s : State) (ln : Nat) (a : LineAttr) (bytes : List Byte) : Line :=
  codecLoad a.codec (bytesLine (unsealBytes s a.key ln (bytes.take (codecBytes a.codec (a.key != 0)))))

theorem slotValue_keys {s t : State} (h : t.io.keys = s.io.keys) (ln : Nat) (a : LineAttr) (l : List Byte) :
    slotValue t ln a l = slotValue s ln a l := by
  simp only [slotValue, unsealBytes, h]

/-- The bytes that a line's code takes in its slot. -/
def sealedCode (s : State) (ln codec key : Nat) (code : Line) : List Byte :=
  sealBytes s key ln ((lineBytes code).take (codecBytes codec (key != 0)))

theorem length_sealedCode_le (s : State) (ln codec key : Nat) (code : Line) : (sealedCode s ln codec key code).length ≤ 64 := by
  rw [sealedCode, (sealBytes_codecBytes ..).1]
  exact codecBytes_le ..

/-- A slot that begins with a sealed code reads as that code decodes. -/
theorem slotValue_sealedCode (s : State) (ln codec key : Nat) (dedup : Bool) (code : Line) (rest : List Byte) :
    slotValue s ln ⟨codec, key, dedup⟩ (sealedCode s ln codec key code ++ rest) =
      codecLoad codec (bytesLine ((lineBytes code).take (codecBytes codec (key != 0)))) := by
  obtain ⟨hlen, hunseal⟩ := sealBytes_codecBytes s ln codec key code
  simp only [slotValue, sealedCode]
  rw [List.take_left' hlen, hunseal]

section
variable {s : State} (hs : Unshared s)
include hs

theorem slotRead_eq_slotValue (ln : Nat) (a : LineAttr) : slotRead s ln a = slotValue s ln a (slotBytes s ln) := by
  rw [slotValue, slotBytes, take_bytes _ _ (codecBytes_le ..)]
  simp only [slotRead, slotCode, copyOf, hs.dedupMap, Table.get, Option.bind_none]

/-- A slot written with a code, and nothing else. -/
theorem slotWrite_eq_setBytes (ln codec key : Nat) (dedup : Bool) (code : Line) : slotWrite s ln ⟨codec, key, dedup⟩ code false =
    { s with mem := Table.setBytes s.mem (64 * ln) (sealedCode s ln codec key code) } := by
  have hu : unmapCopy s ln = s := by simp only [unmapCopy, hs.dedupMap, Table.get]
  have he : ({ s with dedup := [] } : State) = s := by rw [← hs.dedup]
  simp only [slotWrite, hu, hs.dedup, List.filter_nil, he, Bool.false_eq_true, if_false, sealedCode]

theorem Unshared.slotWrite (ln codec key : Nat) (dedup : Bool) (code : Line) : Unshared (slotWrite s ln ⟨codec, key, dedup⟩ code false) := by
  have hm := hs.memory.slotWrite ln ⟨codec, key, dedup⟩ code false
  rw [slotWrite_eq_setBytes hs] at hm ⊢
  exact ⟨hm, hs.table, hs.dedup, hs.dedupMap⟩

theorem slotBytes_slotWrite_same (ln codec key : Nat) (dedup : Bool) (code : Line) :
    slotBytes (slotWrite s ln ⟨codec, key, dedup⟩ code false) ln =
      sealedCode s ln codec key code ++ (slotBytes s ln).drop (sealedCode s ln codec key code).length := by
  rw [slotWrite_eq_setBytes hs]
  exact bytes_setBytes_start _ _ _ _ hs.memory (length_sealedCode_le ..)

theorem slotBytes_slotWrite_ne (ln codec key : Nat) (dedup : Bool) (code : Line) {m : Nat} (h : m ≠ ln) :
    slotBytes (slotWrite s ln ⟨codec, key, dedup⟩ code false) m = slotBytes s m := by
  have hlen := length_sealedCode_le s ln codec key code
  rw [slotWrite_eq_setBytes hs]
  exact bytes_setBytes_apart _ _ _ _ _ hs.memory (by omega)

theorem keys_slotWrite (ln codec key : Nat) (dedup : Bool) (code : Line) :
    (slotWrite s ln ⟨codec, key, dedup⟩ code false).io.keys = s.io.keys := by rw [slotWrite_eq_setBytes hs]

theorem l2get_slotWrite (ln codec key : Nat) (dedup : Bool) (code : Line) (m : Nat) :
    l2get (slotWrite s ln ⟨codec, key, dedup⟩ code false) m = l2get s m := by rw [slotWrite_eq_setBytes hs]; rfl

end

/-! ### What a line reads as -/

/-- The bytes of a line's slot once the L2 entry `o` has been written back to it. -/
def settledWith (s : State) (ln : Nat) (o : Option L2Line) : List Byte :=
  match o with
  | none => slotBytes s ln
  | some e =>
    let back := sealedCode s ln e.codec e.key e.code
    if e.dirty then back ++ (slotBytes s ln).drop back.length else slotBytes s ln

/-- The bytes of a line's slot once the L2 has written the line back. -/
def settled (s : State) (ln : Nat) : List Byte := settledWith s ln (l2get s ln)

theorem settledWith_congr {s t : State} {ln : Nat} (hk : t.io.keys = s.io.keys) (hb : slotBytes t ln = slotBytes s ln) (o : Option L2Line) :
    settledWith t ln o = settledWith s ln o := by
  simp only [settledWith, sealedCode, sealBytes, encryptUnit, hk, hb]

/-- Marks of an entry that no read sees. -/
theorem settledWith_marks (s : State) (ln : Nat) (e : L2Line) (keep : Bool) (used : Nat) :
    settledWith s ln (some { e with keep := keep, used := used }) = settledWith s ln (some e) := rfl

theorem EntryAgrees.marks {s : State} {ln : Nat} {e : L2Line} (h : EntryAgrees s ln e) (keep : Bool) (used : Nat) :
    EntryAgrees s ln { e with keep := keep, used := used } := h

theorem writeBack_of_agrees {s : State} {ln : Nat} {e : L2Line} (he : EntryAgrees s ln e) :
    writeBack s ln e = if e.dirty then slotWrite s ln ⟨e.codec, e.key, false⟩ e.code false else s := by
  rw [writeBack, he.1]

section
variable {s : State} {ln : Nat} {e : L2Line} (hs : Unshared s) (he : EntryAgrees s ln e)
include hs he

theorem Unshared.writeBack : Unshared (writeBack s ln e) := by
  rw [writeBack_of_agrees he]
  split
  · exact hs.slotWrite ..
  · exact hs

theorem slotBytes_writeBack_same : slotBytes (writeBack s ln e) ln = settledWith s ln (some e) := by
  rw [writeBack_of_agrees he, settledWith]
  split
  · exact slotBytes_slotWrite_same hs ..
  · rfl

theorem slotBytes_writeBack_ne {m : Nat} (h : m ≠ ln) : slotBytes (writeBack s ln e) m = slotBytes s m := by
  rw [writeBack_of_agrees he]
  split
  · exact slotBytes_slotWrite_ne hs _ _ _ _ _ h
  · rfl

theorem keys_writeBack : (writeBack s ln e).io.keys = s.io.keys := by
  rw [writeBack_of_agrees he]
  split
  · exact keys_slotWrite hs ..
  · rfl

theorem l2get_writeBack (m : Nat) : l2get (writeBack s ln e) m = l2get s m := by
  rw [writeBack_of_agrees he]
  split
  · exact l2get_slotWrite hs ..
  · rfl

/-- An entry that agrees with its slot is what its settled slot reads as. -/
theorem slotValue_settledWith (dedup : Bool) : slotValue s ln ⟨e.codec, e.key, dedup⟩ (settledWith s ln (some e)) = e.data := by
  obtain ⟨-, hdata⟩ := he
  rw [settledWith]
  split
  · next hd =>
    rw [if_pos hd] at hdata
    exact (slotValue_sealedCode ..).trans hdata
  · next hd =>
    rw [if_neg hd] at hdata
    exact (slotRead_eq_slotValue hs ln ⟨e.codec, e.key, false⟩).symm.trans hdata

end

/-! ### Steps between the L2 and the slots -/

/-- From `s` to `t` the L2 agrees with its slots, and the lines that `q` names keep their settled slots. -/
structure KeepsLines (q : Nat → Prop) (s t : State) : Prop where
  agrees : L2Agrees t
  keys : t.io.keys = s.io.keys
  slot : ∀ ln, q ln → settled t ln = settled s ln

namespace KeepsLines

theorem refl {q : Nat → Prop} {s : State} (h : L2Agrees s) : KeepsLines q s s := ⟨h, rfl, fun _ _ => rfl⟩

theorem trans {q : Nat → Prop} {s t u : State} (h : KeepsLines q s t) (k : KeepsLines q t u) : KeepsLines q s u :=
  ⟨k.agrees, k.keys.trans h.keys, fun ln hq => (k.slot ln hq).trans (h.slot ln hq)⟩

theorem mono {q r : Nat → Prop} {s t : State} (h : KeepsLines q s t) (hr : ∀ ln, r ln → q ln) : KeepsLines r s t :=
  ⟨h.agrees, h.keys, fun ln hl => h.slot ln (hr ln hl)⟩

theorem of_sameStore {q : Nat → Prop} {s t : State} (hs : L2Agrees s) (h : SameStore s t) : KeepsLines q s t := by
  refine ⟨hs.of_sameStore h, h.keys, fun ln _ => ?_⟩
  rw [settled, settled, h.l2get]
  exact settledWith_congr h.keys (by rw [slotBytes, slotBytes, h.mem]) _

end KeepsLines

/-- A step that touches one line, its entry and its slot: the L2 agrees after it where the new entry does. -/
theorem KeepsLines.of_line {s t : State} {ln : Nat} (hs : L2Agrees s) (ht : Unshared t) (hkeys : t.io.keys = s.io.keys)
    (hget : ∀ m, m ≠ ln → l2get t m = l2get s m) (hslot : ∀ m, m ≠ ln → slotBytes t m = slotBytes s m)
    (he : ∀ e, l2get t ln = some e → EntryAgrees t ln e) : KeepsLines (· ≠ ln) s t := by
  refine ⟨(l2Agrees_iff t).2 ⟨ht, fun m e hm => ?_⟩, hkeys, fun m hm => ?_⟩
  · by_cases h : m = ln
    · subst h; exact he e hm
    · refine (hs.entry ((hget m h).symm.trans hm)).of_slotRead fun a => ?_
      rw [slotRead_eq_slotValue ht, slotRead_eq_slotValue hs.unshared, hslot m h, slotValue_keys hkeys]
  · rw [settled, settled, hget m hm]
    exact settledWith_congr hkeys (hslot m hm) _

/-- A step that keeps every other line, and this one. -/
theorem KeepsLines.all {s t : State} {ln : Nat} (h : KeepsLines (· ≠ ln) s t) (hln : settled t ln = settled s ln) :
    KeepsLines (fun _ => True) s t := by
  refine ⟨h.agrees, h.keys, fun m _ => ?_⟩
  by_cases hm : m = ln
  · subst hm; exact hln
  · exact h.slot m hm

theorem mem_of_leastRecent {l : List (Nat × L2Line)} {p : Nat × L2Line} (h : leastRecent l = some p) : p ∈ l := by
  induction l generalizing p with
  | nil => cases h
  | cons q l ih =>
    unfold leastRecent at h
    split at h
    · cases h; exact List.mem_cons_self
    · next r hr =>
      split at h <;> cases h
      · exact List.mem_cons_of_mem _ (ih hr)
      · exact List.mem_cons_self

section
variable {s : State} (hs : L2Agrees s)
include hs

/-- An entry of the L2 put in place of another, or dropped where its slot is settled. -/
theorem keepsLines_l2put {ln : Nat} {o : Option L2Line} (ho : ∀ e, o = some e → EntryAgrees s ln e) : KeepsLines (· ≠ ln) s (l2put s ln o) :=
  .of_line hs (hs.unshared.l2put ln o) rfl (fun _ hm => l2get_l2put_ne hs.unshared o hm) (fun _ _ => rfl)
    fun e he => ho e ((l2get_l2put_same hs.unshared o).symm.trans he)

theorem settled_l2put (ln : Nat) (o : Option L2Line) : settled (l2put s ln o) ln = settledWith s ln o := by
  rw [settled, l2get_l2put_same hs.unshared]
  rfl

theorem keepsLines_l2drop (ln : Nat) : KeepsLines (fun _ => True) s (l2drop s ln) := by
  unfold l2drop
  split
  · exact .refl hs
  · next e hget =>
    have he := hs.entry hget
    have hw := hs.unshared.writeBack he
    refine (KeepsLines.of_line hs (hw.l2put ln none) (keys_writeBack hs.unshared he) (fun m hm => ?_)
      (fun m hm => slotBytes_writeBack_ne hs.unshared he hm) fun e' he' => ?_).all ?_
    · rw [l2get_l2put_ne hw _ hm, l2get_writeBack hs.unshared he]
    · rw [l2get_l2put_same hw] at he'; cases he'
    · rw [settled, l2get_l2put_same hw, settled, hget]
      exact slotBytes_writeBack_same hs.unshared he

theorem l2get_l2drop_same (ln : Nat) : l2get (l2drop s ln) ln = none := by
  unfold l2drop
  split
  · assumption
  · next hget => exact l2get_l2put_same (hs.unshared.writeBack (hs.entry hget)) none

theorem l2get_l2drop_ne (ln : Nat) {m : Nat} (h : m ≠ ln) : l2get (l2drop s ln) m = l2get s m := by
  unfold l2drop
  split
  · rfl
  · next hget =>
    have he := hs.entry hget
    rw [l2get_l2put_ne (hs.unshared.writeBack he) _ h, l2get_writeBack hs.unshared he]

theorem keepsLines_l2agree (ln : Nat) (a : LineAttr) : KeepsLines (fun _ => True) s (l2agree s ln a) := by
  unfold l2agree
  split
  · split
    · exact .refl hs
    · exact keepsLines_l2drop hs ln
  · exact .refl hs

/-- After a line has been made to agree with some attributes, the L2 holds it under those or not at all. -/
theorem l2get_l2agree {ln : Nat} {a : LineAttr} {e : L2Line} (h : l2get (l2agree s ln a) ln = some e) : e.codec = a.codec ∧ e.key = a.key := by
  unfold l2agree at h
  split at h
  · next e' hget =>
    split at h
    · next hagree =>
      rw [hget, Option.some.injEq] at h
      subst h
      simpa using hagree
    · rw [l2get_l2drop_same hs] at h; cases h
  · next hget => rw [hget] at h; cases h

theorem l2get_of_mem_l2set {ln : Nat} {p : Nat × L2Line} (h : p ∈ l2set s ln) : p.1 ≠ ln ∧ l2get s p.1 = some p.2 := by
  obtain ⟨r, hr, hp⟩ := List.mem_filterMap.1 h
  split at hp
  · next hset =>
    simp only [Bool.and_eq_true, bne_iff_ne] at hset
    obtain ⟨e, he, rfl⟩ := Option.map_eq_some_iff.1 hp
    exact ⟨hset.2, (Table.get_of_mem hr hs.unshared.table).trans he⟩
  · cases hp

/-- A way that is freed takes another line out of the L2. -/
theorem l2room_eq (ln : Nat) : l2room s ln = s ∨ ∃ m, m ≠ ln ∧ l2room s ln = l2drop s m := by
  unfold l2room
  dsimp only
  split
  · exact .inl rfl
  · split
    · next p hp =>
      have hmem : p ∈ l2set s ln := by
        have := mem_of_leastRecent hp
        split at this
        · exact this
        · exact List.mem_of_mem_filter this
      exact .inr ⟨p.1, (l2get_of_mem_l2set hs hmem).1, rfl⟩
    · exact .inl rfl

theorem keepsLines_l2room (ln : Nat) : KeepsLines (fun _ => True) s (l2room s ln) ∧ l2get (l2room s ln) ln = l2get s ln := by
  rcases l2room_eq hs ln with h | ⟨m, hm, h⟩
  · rw [h]; exact ⟨.refl hs, rfl⟩
  · rw [h]; exact ⟨keepsLines_l2drop hs m, l2get_l2drop_ne hs m hm.symm⟩

/-- Room for a keep line costs another line its mark. -/
theorem keepsLines_l2keepRoom (ln : Nat) : KeepsLines (fun _ => True) s (l2keepRoom s ln) := by
  unfold l2keepRoom
  dsimp only
  split
  · exact .refl hs
  · split
    · next p hp =>
      obtain ⟨-, hget⟩ := l2get_of_mem_l2set hs (List.mem_of_mem_filter (mem_of_leastRecent hp))
      refine (keepsLines_l2put hs fun e he => ?_).all ?_
      · cases he; exact (hs.entry hget).marks false _
      · rw [settled_l2put hs, settled, hget]; rfl
    · exact .refl hs

end

/-- The state with room among the keep lines of a set, where the hint of a touch asks for the mark (R246). -/
def touchRoom (s : State) (ln : Nat) (e : L2Line) (hint : Nat) : State := if hint == 3 && !e.keep then l2keepRoom s ln else s

theorem sameStore_l2touch (s : State) (ln : Nat) (e : L2Line) (hint : Nat) : SameStore
    (l2put (touchRoom s ln e hint) ln (some { e with keep := e.keep || hint == 3, used := (touchRoom s ln e hint).useCtr }))
    (l2touch s ln e hint) := ⟨rfl, rfl, rfl, rfl, rfl⟩

/-- A line becomes the most recent of its set: what it was, with its marks. -/
theorem l2touch_spec {s : State} (hs : L2Agrees s) {ln : Nat} {e : L2Line} (he : EntryAgrees s ln e) (hint : Nat) :
    KeepsLines (· ≠ ln) s (l2touch s ln e hint) ∧ settled (l2touch s ln e hint) ln = settledWith s ln (some e) ∧
      ∃ keep used, l2get (l2touch s ln e hint) ln = some { e with keep := keep, used := used } := by
  have hroom : KeepsLines (fun _ => True) s (touchRoom s ln e hint) ∧ (touchRoom s ln e hint).mem = s.mem := by
    unfold touchRoom
    split
    · exact ⟨keepsLines_l2keepRoom hs ln, mem_l2keepRoom s ln⟩
    · exact ⟨.refl hs, rfl⟩
  have htouch := sameStore_l2touch s ln e hint
  generalize touchRoom s ln e hint = t at hroom htouch
  obtain ⟨ht, hmem⟩ := hroom
  have hbytes : slotBytes t ln = slotBytes s ln := by rw [slotBytes, slotBytes, hmem]
  have het : EntryAgrees t ln e := he.of_slotRead fun a => by
    rw [slotRead_eq_slotValue ht.agrees.unshared, slotRead_eq_slotValue hs.unshared, hbytes, slotValue_keys ht.keys]
  have hput := keepsLines_l2put (ln := ln) (o := some { e with keep := e.keep || hint == 3, used := t.useCtr }) ht.agrees
    fun _ h => (Option.some.inj h) ▸ het.marks _ _
  have hall := KeepsLines.of_sameStore (q := fun _ => True) hput.agrees htouch
  refine ⟨(ht.mono fun _ _ => trivial).trans (hput.trans (hall.mono fun _ _ => trivial)), ?_, e.keep || hint == 3, t.useCtr, ?_⟩
  · rw [hall.slot ln trivial, settled_l2put ht.agrees, settledWith_marks, settledWith_congr ht.keys hbytes]
  · rw [htouch.l2get, l2get_l2put_same ht.agrees.unshared]

/-! ### Reads -/

/-- A line of the L2 reads as it stands there, under its own attributes. -/
theorem peekLine_of_listed {s : State} {ln : Nat} {a : LineAttr} {e : L2Line} (hget : l2get s ln = some e) (hc : e.codec = a.codec)
    (hk : e.key = a.key) : peekLine s ln a = e.data := by
  have ha : l2agree s ln a = s := by simp [l2agree, hget, hc, hk]
  simp only [peekLine, ha, hget]

/-- EVERY READ OF A LINE is a read of its settled slot. -/
theorem peekLine_eq_settled {s : State} (hs : L2Agrees s) (ln : Nat) (a : LineAttr) : peekLine s ln a = slotValue s ln a (settled s ln) := by
  have hagree := keepsLines_l2agree hs ln a
  rw [← hagree.slot ln trivial, ← slotValue_keys hagree.keys, settled]
  unfold peekLine
  dsimp only
  split
  · next e hget =>
    obtain ⟨hc, hk⟩ := l2get_l2agree hs hget
    have hvalue := slotValue_settledWith hagree.agrees.unshared (hagree.agrees.entry hget) a.dedup
    rw [hc, hk] at hvalue
    rw [hget]
    exact hvalue.symm
  · next hget =>
    rw [hget]
    exact slotRead_eq_slotValue hagree.agrees.unshared ln a

theorem KeepsLines.peekLine {q : Nat → Prop} {s t : State} (h : KeepsLines q s t) (hs : L2Agrees s) {ln : Nat} (hq : q ln) (a : LineAttr) :
    peekLine t ln a = Machine.peekLine s ln a := by
  rw [peekLine_eq_settled h.agrees, peekLine_eq_settled hs, h.slot ln hq, slotValue_keys h.keys]

theorem KeepsLines.byteAt {q : Nat → Prop} {s t : State} (h : KeepsLines q s t) (hs : L2Agrees s) {pa : Nat} (hq : q (pa / 64))
    (a : LineAttr) : byteAt t a pa = Machine.byteAt s a pa := by
  rw [byteAt_eq, byteAt_eq, h.peekLine hs hq]

/-- What a load returns is what the line reads as. -/
theorem loadLine_fst (s : State) (ln : Nat) (a : LineAttr) (hint : Nat) : (loadLine s ln a hint).1 = peekLine s ln a := by
  simp only [loadLine, peekLine]
  split <;> rfl

/-- A LOAD of a line leaves every line as it reads. -/
theorem keepsLines_loadLine {s : State} (hs : L2Agrees s) (ln : Nat) {a : LineAttr} (ha : a.dedup = false) (hint : Nat) :
    KeepsLines (fun _ => True) s (loadLine s ln a hint).2 := by
  have hagree := keepsLines_l2agree hs ln a
  unfold loadLine
  dsimp only
  generalize l2agree s ln a = t at hagree
  split
  · next e hget =>
    refine hagree.trans ?_
    dsimp only
    split
    · obtain ⟨hothers, hslot, -⟩ := l2touch_spec hagree.agrees (hagree.agrees.entry hget) hint
      exact hothers.all (by rw [hslot, settled, hget])
    · exact .refl hagree.agrees
  · next hget =>
    refine hagree.trans ?_
    dsimp only
    split
    · obtain ⟨hroom, hnone⟩ := keepsLines_l2room hagree.agrees ln
      refine hroom.trans ?_
      rw [hget] at hnone
      have hslot := hroom.slot ln trivial
      rw [settled, settled, hnone, hget] at hslot
      have hread : slotRead (l2room t ln) ln a = slotRead t ln a := by
        rw [slotRead_eq_slotValue hroom.agrees.unshared, slotRead_eq_slotValue hagree.agrees.unshared, slotValue_keys hroom.keys]
        exact congrArg (slotValue t ln a) hslot
      obtain ⟨hothers, htouched, -⟩ := l2touch_spec (ln := ln)
        (e := ⟨slotRead t ln a, slotCode t ln a, a.codec, a.key, a.dedup, false, false, 0⟩) hroom.agrees ⟨ha, hread⟩ hint
      exact hothers.all (by rw [htouched, settled, hnone]; rfl)
    · exact .refl hagree.agrees

/-! ### Writes -/

/-- A write of a code into a slot, with the entry that the L2 keeps of the line. -/
theorem keepsLines_slotWrite_l2put {s : State} (hs : L2Agrees s) (ln codec key : Nat) (dedup : Bool) (code : Line) {o : Option L2Line}
    (ho : ∀ e, o = some e → EntryAgrees (slotWrite s ln ⟨codec, key, dedup⟩ code false) ln e) :
    KeepsLines (· ≠ ln) s (l2put (slotWrite s ln ⟨codec, key, dedup⟩ code false) ln o) := by
  have hw := hs.unshared.slotWrite ln codec key dedup code
  refine .of_line hs (hw.l2put ln o) (keys_slotWrite hs.unshared ln codec key dedup code) (fun m hm => ?_)
    (fun m hm => slotBytes_slotWrite_ne hs.unshared _ _ _ _ _ hm) fun e he => ho e ((l2get_l2put_same hw o).symm.trans he)
  rw [l2get_l2put_ne hw o hm, l2get_slotWrite hs.unshared]

theorem slotRead_slotWrite_same {s : State} (hs : Unshared s) (ln codec key : Nat) (dedup dedup' : Bool) (code : Line) :
    slotRead (slotWrite s ln ⟨codec, key, dedup⟩ code false) ln ⟨codec, key, dedup'⟩ =
      codecLoad codec (bytesLine ((lineBytes code).take (codecBytes codec (key != 0)))) := by
  rw [slotRead_eq_slotValue (hs.slotWrite ..), slotBytes_slotWrite_same hs, slotValue_keys (keys_slotWrite hs ..)]
  exact slotValue_sealedCode ..

theorem slotRead_l2put (s : State) (ln : Nat) (o : Option L2Line) (m : Nat) (a : LineAttr) : slotRead (l2put s ln o) m a = slotRead s m a := rfl

/-- A code and its data put where the hint says: into the L2, or into the slot (Table 14-3). -/
def placeStored (s : State) (ln : Nat) (a : LineAttr) (code data : Line) (hint : Nat) : State :=
  match l2get s ln, hint == 0 || hint == 3 with
  | some e, true => l2touch s ln { e with data := data, code := code, dedup := e.dedup || a.dedup, dirty := true } hint
  | none, true => l2touch (l2room s ln) ln ⟨data, code, a.codec, a.key, a.dedup, true, false, 0⟩ hint
  | some e, false =>
    if hint == 1 then l2put (slotWrite s ln a code false) ln (some { e with data := data, code := code, dirty := false })
    else l2put (slotWrite s ln a code false) ln none
  | none, false => slotWrite s ln a code false

/-- A STORE merges its bytes into what the line reads as, encodes the line, and puts it where the hint says. -/
theorem storeLine_eq (s : State) (ln : Nat) (a : LineAttr) (bs : List (Nat × Byte)) (hint cd ci : Nat) :
    let merged := mergeLine (peekLine s ln a) bs
    let stored := codecStore a.codec merged
    storeLine s ln a bs hint cd ci = placeStored (countCodec (l2agree s ln a) a merged stored.2 cd ci) ln a stored.1 stored.2 hint := rfl

theorem placeStored_spec {s : State} (hs : L2Agrees s) {ln : Nat} {a : LineAttr} (ha : a.dedup = false) {code data : Line}
    (hget : ∀ e, l2get s ln = some e → e.codec = a.codec ∧ e.key = a.key)
    (hdata : codecLoad a.codec (bytesLine ((lineBytes code).take (codecBytes a.codec (a.key != 0)))) = data) (hint : Nat) :
    KeepsLines (· ≠ ln) s (placeStored s ln a code data hint) ∧ peekLine (placeStored s ln a code data hint) ln a = data := by
  obtain ⟨codec, key, dedup⟩ := a
  dsimp only at ha hget hdata
  subst ha
  have hslot := (slotRead_slotWrite_same hs.unshared ln codec key false false code).trans hdata
  unfold placeStored
  split
  case h_1 _ _ e he _ =>
    obtain ⟨rfl, rfl⟩ := hget e he
    obtain ⟨hkeeps, -, keep, used, hlisted⟩ := l2touch_spec (ln := ln)
      (e := { e with data := data, code := code, dedup := e.dedup || false, dirty := true }) hs
      ⟨by rw [(hs.entry he).1]; rfl, hdata⟩ hint
    exact ⟨hkeeps, peekLine_of_listed hlisted rfl rfl⟩
  case h_2 =>
    obtain ⟨hroom, -⟩ := keepsLines_l2room hs ln
    obtain ⟨hkeeps, -, keep, used, hlisted⟩ := l2touch_spec (ln := ln) (e := ⟨data, code, codec, key, false, true, false, 0⟩) hroom.agrees
      ⟨rfl, hdata⟩ hint
    exact ⟨(hroom.mono fun _ _ => trivial).trans hkeeps, peekLine_of_listed hlisted rfl rfl⟩
  case h_3 _ _ e he _ =>
    obtain ⟨rfl, rfl⟩ := hget e he
    have hw := hs.unshared.slotWrite ln e.codec e.key false code
    split
    · exact ⟨keepsLines_slotWrite_l2put hs _ _ _ _ _ fun _ h => (Option.some.inj h) ▸ ⟨(hs.entry he).1, hslot⟩,
        peekLine_of_listed (l2get_l2put_same hw _) rfl rfl⟩
    · exact ⟨keepsLines_slotWrite_l2put hs _ _ _ _ _ fun _ h => (nomatch h),
        ((peekLine_of_unlisted (l2get_l2put_same hw none) _).trans (slotRead_l2put ..)).trans hslot⟩
  case h_4 _ _ hnone _ =>
    have hget' := (l2get_slotWrite hs.unshared ln codec key false code ln).trans hnone
    refine ⟨.of_line hs (hs.unshared.slotWrite ..) (keys_slotWrite hs.unshared ..) (fun m _ => l2get_slotWrite hs.unshared ..)
      (fun m hm => slotBytes_slotWrite_ne hs.unshared _ _ _ _ _ hm) fun e he => ?_, (peekLine_of_unlisted hget' _).trans hslot⟩
    rw [hget'] at he; cases he

/-- A STORE changes its own line alone, which then reads as the bytes merged and encoded leave it (R267). -/
theorem storeLine_spec {s : State} (hs : L2Agrees s) (ln : Nat) {a : LineAttr} (ha : a.dedup = false) (bs : List (Nat × Byte))
    (hint cd ci : Nat) :
    KeepsLines (· ≠ ln) s (storeLine s ln a bs hint cd ci) ∧
      peekLine (storeLine s ln a bs hint cd ci) ln a = (codecStore a.codec (mergeLine (peekLine s ln a) bs)).2 := by
  have hagree := keepsLines_l2agree hs ln a
  rw [storeLine_eq]
  have hcount := sameStore_countCodec (l2agree s ln a) a (mergeLine (peekLine s ln a) bs)
    (codecStore a.codec (mergeLine (peekLine s ln a) bs)).2 cd ci
  have hkeeps := hagree.trans (.of_sameStore hagree.agrees hcount)
  obtain ⟨hplace, hread⟩ := placeStored_spec hkeeps.agrees ha (fun e he => l2get_l2agree hs ((hcount.l2get ln).symm.trans he))
    (codecLoad_codecStore a.codec (mergeLine (peekLine s ln a) bs) (a.key != 0)) hint
  exact ⟨(hkeeps.mono fun _ _ => trivial).trans hplace, hread⟩

/-- A WRITE OF BYTES OF ONE LINE at its home changes that line alone. -/
theorem performLine_spec {s : State} (hs : L2Agrees s) (ln : Nat) {a : LineAttr} (ha : a.dedup = false) (bs : List (Nat × Byte))
    (hint cd ci : Nat) (every : Bool) :
    KeepsLines (· ≠ ln) s (performLine s ln a bs hint cd ci every) ∧
      peekLine (performLine s ln a bs hint cd ci every) ln a = (codecStore a.codec (mergeLine (peekLine s ln a) bs)).2 := by
  have hsent := sameStore_sendPacket s cd (homeDie ln) .request (bs.map Prod.snd)
  obtain ⟨hstored, hread⟩ := storeLine_spec (hs.of_sameStore hsent) ln ha bs hint cd ci
  unfold performLine
  dsimp only
  generalize sendPacket s cd (homeDie ln) .request (bs.map Prod.snd) = t at hsent hstored hread ⊢
  have hafter := (sameStore_invalidateCode (storeLine t ln a bs hint cd ci) ln every).trans (sameStore_discardSequenced _ ln bs)
  exact ⟨((KeepsLines.of_sameStore hs hsent).trans hstored).trans (.of_sameStore hstored.agrees hafter),
    by rw [hafter.peekLine, hread, hsent.peekLine]⟩

/-- A plain line keeps its bytes but those written, of which the last at a place stands. -/
theorem byteAt_performLine_same {s : State} (hs : L2Agrees s) {ln : Nat} {a : LineAttr} (ha : a.dedup = false) (hc : a.codec = 0)
    (bs : List (Nat × Byte)) (hint cd ci : Nat) (every : Bool) {pa : Nat} (hpa : pa / 64 = ln) :
    byteAt (performLine s ln a bs hint cd ci every) a pa = (lastByte bs (pa % 64)).getD (byteAt s a pa) := by
  obtain ⟨-, hread⟩ := performLine_spec hs ln ha bs hint cd ci every
  rw [hc] at hread
  rw [byteAt_eq, byteAt_eq, hpa, hread]
  exact byteOf_mergeLine _ _ (Nat.mod_lt _ (by decide))

/-- Settles O28: a write keeps every line but its own, whose bytes are merged, and a load keeps every line. -/
theorem storesChangeTheirOwnBytesAlone : Obligations.StoresChangeTheirOwnBytesAlone := by
  unfold Obligations.StoresChangeTheirOwnBytesAlone
  intro s ln a bs hint cd ci every hs ha _ w r
  obtain ⟨hw, -⟩ := performLine_spec hs ln ha bs hint cd ci every
  have hr := keepsLines_loadLine hs ln ha hint
  refine ⟨⟨hw.agrees, hr.agrees⟩, fun b pa hpa => hw.byteAt hs hpa b, fun hc pa hpa => ?_, fun b pa => hr.byteAt hs trivial b⟩
  refine (byteAt_performLine_same hs ha hc bs hint cd ci every hpa).trans ?_
  unfold lastByte
  cases bs.reverse.find? fun p => p.1 == pa % 64 <;> rfl

end Sys2Proof.Machine
end

section
/-! PROOFS. AMO, REDSEQ and the contributions that a home judges (R243, R291 to R293, R343, R344, R410), over a write and a read of bytes
within one line (R283, R295). -/

namespace Sys2Proof.Machine

/-! ### Bytes within one line -/

theorem splitLines_of_fits {pa : Nat} {data : List Byte} (hpos : 0 < data.length) (hfit : pa % 64 + data.length ≤ 64) :
    splitLines pa data = [(pa / 64, data.zipIdx.map fun p => (pa % 64 + p.2, p.1))] := by
  have hone : (pa % 64 + data.length + 63) / 64 = 1 := by omega
  have hin : ∀ p ∈ data.zipIdx, p.2 < data.length := by
    rintro ⟨b, i⟩ hp
    obtain ⟨-, hi, -⟩ := List.mem_zipIdx hp
    simpa using hi
  have hall : (data.zipIdx.map fun p => (pa + p.2, p.1)).filter (fun c => c.1 / 64 == pa / 64) = data.zipIdx.map fun p => (pa + p.2, p.1) := by
    refine List.filter_eq_self.2 fun c hc => ?_
    obtain ⟨p, hp, rfl⟩ := List.mem_map.1 hc
    have := hin p hp
    simp only [beq_iff_eq]
    omega
  simp only [splitLines, hone, List.range_one, List.map_cons, List.map_nil, Nat.add_zero, hall, List.map_map]
  refine congrArg (fun l => [(pa / 64, l)]) (List.map_congr_left fun p hp => ?_)
  have := hin p hp
  simp only [Function.comp_apply, Prod.mk.injEq, and_true]
  omega

theorem performBytes_of_fits {pa : Nat} {data : List Byte} (hp : place pa = .hbm) (hpos : 0 < data.length) (hfit : pa % 64 + data.length ≤ 64)
    (s : State) (a : LineAttr) (hint cd ci : Nat) (every : Bool) : performBytes s pa a data hint cd ci every =
      performLine s (pa / 64) a (data.zipIdx.map fun p => (pa % 64 + p.2, p.1)) hint cd ci every := by
  simp only [performBytes, hp, splitLines_of_fits hpos hfit, List.foldl_cons, List.foldl_nil]

/-- From `s` to `t` the bytes `data` have been written at `pa`, within one line, and no other byte has changed. -/
structure BytesWritten (s t : State) (a : LineAttr) (pa : Nat) (data : List Byte) : Prop where
  written : ∀ j < data.length, byteAt t a (pa + j) = data.getD j 0
  line : ∀ p, p / 64 = pa / 64 → (p < pa ∨ pa + data.length ≤ p) → byteAt t a p = byteAt s a p
  others : ∀ b p, p / 64 ≠ pa / 64 → byteAt t b p = byteAt s b p

section
variable {s t u : State} {a : LineAttr} {pa : Nat} {data : List Byte}

theorem BytesWritten.before (h : BytesWritten t u a pa data) (hs : ∀ b p, byteAt t b p = byteAt s b p) : BytesWritten s u a pa data :=
  ⟨h.written, fun p hp hout => (h.line p hp hout).trans (hs a p), fun b p hp => (h.others b p hp).trans (hs b p)⟩

theorem BytesWritten.after (h : BytesWritten s t a pa data) (hu : SameStore t u) : BytesWritten s u a pa data :=
  ⟨fun j hj => (hu.byteAt ..).trans (h.written j hj), fun p hp hout => (hu.byteAt ..).trans (h.line p hp hout),
    fun b p hp => (hu.byteAt ..).trans (h.others b p hp)⟩

/-- A write of a plain line that shares no copy. -/
theorem bytesWritten_performBytes (hs : L2Agrees s) (hp : place pa = .hbm) (hpos : 0 < data.length) (hfit : pa % 64 + data.length ≤ 64)
    (hc : a.codec = 0) (ha : a.dedup = false) (hint cd ci : Nat) (every : Bool) :
    BytesWritten s (performBytes s pa a data hint cd ci every) a pa data := by
  rw [performBytes_of_fits hp hpos hfit]
  have hbyte : ∀ p, p / 64 = pa / 64 → byteAt (performLine s (pa / 64) a (data.zipIdx.map fun p => (pa % 64 + p.2, p.1)) hint cd ci every) a p =
      (if pa ≤ p ∧ p < pa + data.length then some (data.getD (p - pa) 0) else none).getD (byteAt s a p) := by
    intro p hline
    have hplace : pa % 64 + 0 ≤ p % 64 ∧ p % 64 < pa % 64 + 0 + data.length ↔ pa ≤ p ∧ p < pa + data.length := by omega
    have hoff : p % 64 - (pa % 64 + 0) = p - pa := by omega
    rw [byteAt_performLine_same hs ha hc _ hint cd ci every hline, lastByte_zipIdx, hoff]
    simp only [hplace]
  refine ⟨fun j hj => ?_, fun p hline hout => ?_, fun b p hline => ?_⟩
  · rw [hbyte _ (by omega), if_pos (by omega), Nat.add_sub_cancel_left, Option.getD_some]
  · rw [hbyte p hline, if_neg (by omega), Option.getD_none]
  · exact (performLine_spec hs _ ha _ hint cd ci every).1.byteAt hs hline b

end

/-- The bytes that a read of HBM gives, within one line, are those that the parties of a graph see (R295). -/
theorem readPlace_of_fits {x : Xlat} {n : Nat} (hp : place x.pa = .hbm) (hfit : x.pa % 64 + n ≤ 64) (s : State) (c : Ctx) (hint : Nat) :
    (readPlace s c x n hint).1 = (List.range n).map fun j => viewAt s c.gid x.attr (x.pa + j) := by
  simp only [readPlace, hp, loadLine_fst]
  refine List.ext_getElem (by simp; omega) fun j h₁ h₂ => ?_
  have hj : j < n := by simpa using h₂
  have hline : (x.pa + j) / 64 = x.pa / 64 := by omega
  have hoff : (x.pa + j) % 64 = x.pa % 64 + j := by omega
  simp only [List.getElem_take, List.getElem_drop, List.getElem_map, List.getElem_range, viewAt, hline, hoff]
  rw [← byteOf, ← getD_lineBytes, List.getD_eq_getElem]

theorem readPlace_snd {x : Xlat} (hp : place x.pa = .hbm) (s : State) (c : Ctx) (n hint : Nat) :
    (readPlace s c x n hint).2 = (loadLine s (x.pa / 64) x.attr hint).2 := by
  simp only [readPlace, hp]

/-! ### Who executes -/

@[simp] theorem who_sendPacket (s : State) (src dest : Nat) (c : VirtualChannel) (l : List Byte) : (sendPacket s src dest c l).who = s.who :=
  (sameDies_sendPacket ..).who
@[simp] theorem who_refreshCaptured (s : State) (gid : Option Nat) (pa : Nat) (data : List Byte) :
    (refreshCaptured s gid pa data).who = s.who := by
  unfold refreshCaptured
  split
  · rfl
  · split <;> rfl
@[simp] theorem who_noteWritten (s : State) (c pa : Nat) : (noteWritten s c pa).who = s.who := by
  unfold noteWritten
  split <;> rfl
@[simp] theorem who_countCodec (s : State) (a : LineAttr) (m d : Line) (cd ci : Nat) : (countCodec s a m d cd ci).who = s.who := by
  unfold countCodec
  split <;> rfl
@[simp] theorem who_invalidateCode (s : State) (ln : Nat) (every : Bool) : (invalidateCode s ln every).who = s.who := by
  unfold invalidateCode
  split <;> rfl
@[simp] theorem who_discardSequenced (s : State) (ln : Nat) (bs : List (Nat × Byte)) : (discardSequenced s ln bs).who = s.who := by
  unfold discardSequenced
  split <;> rfl

theorem sameDies_placeStored (s : State) (ln : Nat) (a : LineAttr) (code data : Line) (hint : Nat) :
    SameDies s (placeStored s ln a code data hint) := by
  unfold placeStored
  split
  · exact sameDies_l2touch ..
  · exact (sameDies_l2room ..).trans (sameDies_l2touch ..)
  · split <;> exact (sameDies_slotWrite ..).trans (sameDies_l2put ..)
  · exact sameDies_slotWrite ..

@[simp] theorem who_storeLine (s : State) (ln : Nat) (a : LineAttr) (bs : List (Nat × Byte)) (hint cd ci : Nat) :
    (storeLine s ln a bs hint cd ci).who = s.who := by
  rw [storeLine_eq, (sameDies_placeStored ..).who, who_countCodec, (sameDies_l2agree ..).who]
@[simp] theorem who_performLine (s : State) (ln : Nat) (a : LineAttr) (bs : List (Nat × Byte)) (hint cd ci : Nat) (every : Bool) :
    (performLine s ln a bs hint cd ci every).who = s.who := by simp [performLine]

theorem who_foldl {α : Type} {f : State → α → State} (hf : ∀ s a, (f s a).who = s.who) (l : List α) (s : State) :
    (l.foldl f s).who = s.who := by
  induction l generalizing s with
  | nil => rfl
  | cons a l ih => exact (ih _).trans (hf _ _)

theorem who_performBytes {pa : Nat} (hp : place pa = .hbm) (s : State) (a : LineAttr) (data : List Byte) (hint cd ci : Nat) (every : Bool) :
    (performBytes s pa a data hint cd ci every).who = s.who := by
  simp only [performBytes, hp]
  exact who_foldl (fun _ _ => who_performLine ..) _ _

/-! ### The atomic operations of Table 14-2 on INT32 -/

section
variable (old b c : E32)

theorem toInt_ite_slt_min : (if old.slt b then old else b).toInt = min old.toInt b.toInt := by
  simp only [BitVec.slt_iff_toInt_lt]
  split <;> omega

theorem toInt_ite_slt_max : (if old.slt b then b else old).toInt = max old.toInt b.toInt := by
  simp only [BitVec.slt_iff_toInt_lt]
  split <;> omega

/-- ADD, MIN, MAX, AND, OR, XOR, SWAP and CAS of INT32 words. -/
theorem atomicNew_int32 :
    atomicNew 0 11 old b c = (old + b, 0) ∧
    (atomicNew 1 11 old b c).1.toInt = min old.toInt b.toInt ∧ (atomicNew 2 11 old b c).1.toInt = max old.toInt b.toInt ∧
    atomicNew 3 11 old b c = (old &&& b, 0) ∧ atomicNew 4 11 old b c = (old ||| b, 0) ∧ atomicNew 5 11 old b c = (old ^^^ b, 0) ∧
    atomicNew 6 11 old b c = (b, 0) ∧ atomicNew 7 11 old b c = (if old = c then b else old, 0) := by
  refine ⟨rfl, toInt_ite_slt_min old b, toInt_ite_slt_max old b, rfl, rfl, rfl, rfl, ?_⟩
  simp only [atomicNew, beq_iff_eq]
  rfl

end

/-! ### AMO -/

/-- An address whose bytes a core may write: aligned, translated, and of bytes that exist. -/
theorem vwriteAddr_of_translated {s t : State} {c : Ctx} {va size : Nat} {x : Xlat} (ty : Nat) (hva : va % size = 0)
    (ht : translate s c .write va = (t, .ok x)) (hr : reachable x.pa size = true) : vwriteAddr s c va size ty = .ok (x, t) := by
  simp [vwriteAddr, hva, ht, hr]

theorem sameUnits_of_translated {s t : State} {c : Ctx} {acc : Acc} {va : Nat} {r : Except XFault Xlat} (ht : translate s c acc va = (t, r)) :
    SameUnits s t := by
  have h := sameUnits_translate s c acc va
  rwa [ht] at h

theorem atomicDenied_of_plain {x : Xlat} (hp : place x.pa = .hbm) (hc : x.codec = 0) : atomicDenied x = false := by
  simp [atomicDenied, hp, hc]

/-- The home after the read and the write of an AMO, before it answers. -/
def amoWritten (s : State) (c : Ctx) (x : Xlat) (new : BitVec 32) : State :=
  let read := (readPlace s c x 4 0).2
  performBytes read x.pa x.attr (natBytes new.toNat 4) 0 read.cur.val c.counter false

theorem performAmo_of_fits {x : Xlat} (hp : place x.pa = .hbm) (hfit : x.pa % 64 + 4 ≤ 64) (s : State) (c : Ctx) (aop : BitVec 5) (ty : BitVec 4)
    (b cmp : BitVec 32) :
    let old := BitVec.ofNat 32 (bytesNat ((List.range 4).map fun j => viewAt s c.gid x.attr (x.pa + j)))
    let new := (atomicNew aop ty old b cmp).1
    let done := amoWritten s c x new
    performAmo s c x aop ty b cmp = (old, refreshCaptured
      (sendPacket done (systemDie x.pa) done.cur.val .response (natBytes old.toNat 4)) c.gid x.pa (natBytes new.toNat 4)) := by
  simp only [performAmo, readWord32, readPlace_of_fits hp hfit, amoWritten]

theorem who_amoWritten {x : Xlat} (hp : place x.pa = .hbm) (s : State) (c : Ctx) (new : BitVec 32) : (amoWritten s c x new).who = s.who := by
  rw [amoWritten, who_performBytes hp, readPlace_snd hp, (sameDies_loadLine ..).who]

theorem myCore_amoAnswered {s : State} {x : Xlat} (hp : place x.pa = .hbm) (c : Ctx) (new : BitVec 32) (src dest : Nat) (chan : VirtualChannel)
    (answer data : List Byte) : myCore (refreshCaptured (sendPacket (amoWritten s c x new) src dest chan answer) c.gid x.pa data) = myCore s :=
  myCore_congr (by rw [who_refreshCaptured, who_sendPacket, who_amoWritten hp])

theorem bytesWritten_amoWritten {s : State} {x : Xlat} (hs : L2Agrees s) (hp : place x.pa = .hbm) (hfit : x.pa % 64 + 4 ≤ 64) (hc : x.codec = 0)
    (hd : x.dedup = false) (c : Ctx) (new : BitVec 32) : BytesWritten s (amoWritten s c x new) x.attr x.pa (natBytes new.toNat 4) := by
  have hload := keepsLines_loadLine hs (x.pa / 64) (a := x.attr) hd 0
  rw [← readPlace_snd hp s c 4 0] at hload
  exact (bytesWritten_performBytes hload.agrees hp (by simp) (by simpa using hfit) hc hd ..).before fun b p => hload.byteAt hs trivial b

section
variable {h : Hdr} {d a b c : Reg} {aop : BitVec 5} {ty : BitVec 4} {s t : State} {x : Xlat}

theorem exec_amo_core (hg : groupOpen s = false) (hva : (xval s a).toNat % 4 = 0)
    (ht : translate s (coreCtx s (myCore s)) .write (xval s a).toNat = (t, .ok x)) (hp : place x.pa = .hbm) (hreach : reachable x.pa 4 = true)
    (hc : x.codec = 0) (hfit : x.pa % 64 + 4 ≤ 64) (hr : CoreRuns (.amo h d a b c aop ty) s) :
    let ctx := coreCtx s (myCore s)
    let old := BitVec.ofNat 32 (bytesNat ((List.range 4).map fun j => viewAt t ctx.gid x.attr (x.pa + j)))
    let new := (atomicNew aop ty old ((xval s b).setWidth 32) ((xval s c).setWidth 32)).1
    let done := amoWritten t ctx x new
    let answered := sendPacket done (systemDie x.pa) done.cur.val .response (natBytes old.toNat 4)
    exec (.amo h d a b c aop ty) s = .next (retX
      (noteWritten (refreshCaptured answered ctx.gid x.pa (natBytes new.toNat 4)) (myCore s) x.pa)
      d (if ty = 11 then old.signExtend 64 else old.setWidth 64)) := by
  have hu := sameUnits_of_translated ht
  rw [exec_amo, execAmo, word_of_core hr]
  simp only [hg, Bool.false_eq_true, if_false, vwriteAddr_of_translated ty.toNat hva ht hreach, atomicDenied_of_plain hp hc, hu.xval, hu.myCore,
    hu.coreCtx, performAmo_of_fits hp hfit, myCore_amoAnswered hp, coreOutcome_ok, beq_iff_eq]

theorem exec_amo_elem (hva : (eScalar s a).toNat % 4 = 0) (hr : ElemRuns (.amo h d a b c aop ty) s) : exec (.amo h d a b c aop ty) s =
    .next (elemRetire (.amo h d a b c aop ty) s [.amo (eScalar s a).toNat aop ty (eScalar s b) (eScalar s c)]) := by
  rw [exec_amo, execAmo, word_of_elem hr]
  simp only [hva, bne_self_eq_false, Bool.false_eq_true, if_false, elemOutcome_ok]

theorem exec_amo_elem_misaligned (hva : (eScalar s a).toNat % 4 ≠ 0) (hr : ElemRuns (.amo h d a b c aop ty) s) :
    exec (.amo h d a b c aop ty) s = .next (elemFault s 0x23 0) := by
  rw [exec_amo, execAmo, word_of_elem hr]
  simp only [bne_iff_ne, hva, ne_eq, not_false_eq_true, if_true]
  rfl

/-! ### REDSEQ -/

theorem exec_redseq_core (hg : groupOpen s = false) (hva : (xval s a).toNat % cellBytes ty = 0)
    (ht : translate s (coreCtx s (myCore s)) .write (xval s a).toNat = (t, .ok x)) (hp : place x.pa = .hbm)
    (hreach : reachable x.pa (cellBytes ty) = true) (hc : x.codec = 0) (hfit : x.pa % 64 + cellBytes ty ≤ 56)
    (hr : CoreRuns (.redseq h a b c aop ty) s) :
    let mine : Contribution := ⟨x.pa / 64, x.pa % 64, aop, ty, (xval s c).setWidth 32, (xval s b).setWidth 32, t.cur.val, t.who, x.key, x.dedup,
      false, false, rootAsid (myRoot t)⟩
    let sent := sendContribution (noteWritten (modCore t (myCore s) fun q => { q with wait := .redseq }) (myCore s) x.pa) mine
    exec (.redseq h a b c aop ty) s =
      .next (judgeContribution sent (homeDie mine.line) ((dieAt sent (homeDie mine.line)).reds.length - 1)) := by
  have hu := sameUnits_of_translated ht
  have hcell : decide (56 < x.pa % 64 + cellBytes ty) = false := decide_eq_false (by omega)
  rw [exec_redseq, execRedseq, word_of_core hr]
  simp only [hg, Bool.false_eq_true, if_false, vwriteAddr_of_translated ty.toNat hva ht hreach, atomicDenied_of_plain hp hc, hcell,
    Bool.or_false, hu.xval, coreOutcome_ok]

end

section
variable {s : State} {n : Nat} {k : Contribution}

theorem exec_redseqArrival_of_new (hk : (die s).reds[n]? = some k) (hs : k.stored = false) (ha : k.arrived = false) :
    exec (.redseqArrival n) s = .next (judgeContribution s s.cur.val n) := by
  rw [exec_redseqArrival, execRedseqArrival, machineEvent_of_enabled (by simp [hk, hs, ha])]

theorem exec_redseqPlaceFree_of_judgeable (hk : (die s).reds[n]? = some k) (hs : k.stored = false) (ha : k.arrived = true)
    (hj : judgeable s k = true) (hr : AgentRuns (.redseqPlaceFree n)) :
    exec (.redseqPlaceFree n) s = .next (judgeContribution s s.cur.val n) := by
  rw [exec_redseqPlaceFree, execRedseqPlaceFree, event_of_enabled hr (by simp [hk, hs, ha, hj])]

end

/-- Settles O30: each word and event by the lemma of its own; the bytes by the write of the home after its read. -/
theorem atomicWordsActOnceAtTheirHome : Obligations.AtomicWordsActOnceAtTheirHome := by
  unfold Obligations.AtomicWordsActOnceAtTheirHome
  refine ⟨atomicNew_int32, fun h d a b c aop ty s t x n k => ?_⟩
  intro va ctx home old b32 new read done answered mine sent
  refine ⟨fun hr hg ⟨hva, ht, hp, hreach, hc⟩ hfit => exec_amo_core hg hva ht hp hreach hc hfit hr,
    fun hs ⟨_, _, hp, _, hc⟩ hfit hd => ?bytes, fun hr hva => exec_amo_elem hva hr, fun hr hva => exec_amo_elem_misaligned hva hr,
    fun hr hg ⟨hva, ht, hp, hreach, hc⟩ hfit => exec_redseq_core hg hva ht hp hreach hc hfit hr, exec_redseqArrival_of_new,
    exec_redseqPlaceFree_of_judgeable⟩
  have hw : BytesWritten t answered x.attr x.pa (natBytes new.toNat 4) :=
    (bytesWritten_amoWritten hs hp hfit hc hd ctx new).after (sameStore_sendPacket ..)
  obtain ⟨hwritten, hline, hothers⟩ := hw
  rw [length_natBytes] at hwritten hline
  exact ⟨hwritten, hline, hothers⟩

end Sys2Proof.Machine
end

section
/-! PROOFS. The barrier words BARA, BARW and PREF with their events, and PEND of the object that they count (R248, R249, R289, R346, R405). -/

namespace Sys2Proof.Machine

/-! ### What an update of an object leaves -/

theorem sameStore_modCore (s : State) (c : Nat) (f : Core → Core) : SameStore s (modCore s c f) := ⟨rfl, rfl, rfl, rfl, rfl⟩

/-- What a waiting core notes when it sees the count is no part of memory. -/
theorem sameStore_barrierMet (s : State) (pa : Nat) : SameStore s (barrierMet s pa) := by
  refine sameStore_foldl (fun s c => ?_) _ s
  split
  · split
    · exact sameStore_modCore ..
    · exact .refl s
  · exact .refl s

theorem sameStore_barrierSeen (s : State) (pa : Nat) : SameStore s (barrierSeen s pa) :=
  sameStore_foldl (fun s n => sameStore_onDie (fun s => sameStore_barrierMet s pa) s n) _ s

theorem who_barrierMet (s : State) (pa : Nat) : (barrierMet s pa).who = s.who := by
  refine who_foldl (fun s c => ?_) _ s
  split
  · split <;> rfl
  · rfl

theorem who_onDie {f : State → State} (hf : ∀ s, (f s).who = s.who) (s : State) (n : Nat) : (onDie s n f).who = s.who := hf _

theorem who_barrierSeen (s : State) (pa : Nat) : (barrierSeen s pa).who = s.who :=
  who_foldl (fun s n => who_onDie (fun s => who_barrierMet s pa) s n) _ s

section
variable {s : State} {x : Xlat} (hp : place x.pa = .hbm)
include hp

theorem who_coreBarrier (v : Nat) : (coreBarrier s x v).who = s.who := by
  rw [coreBarrier, who_noteWritten, who_sendPacket, setBarrier, who_barrierSeen, who_refreshCaptured, who_performBytes hp]

/-- AN UPDATE OF A BARRIER OBJECT writes its eight bytes. -/
theorem bytesWritten_coreBarrier (hs : L2Agrees s) (hfit : x.pa % 64 + 8 ≤ 64) (hc : x.codec = 0) (hd : x.dedup = false) (v : Nat) :
    BytesWritten s (coreBarrier s x v) x.attr x.pa (natBytes v 8) := by
  have hw := bytesWritten_performBytes (a := x.attr) (data := natBytes v 8) hs hp (by simp) (by simpa using hfit) hc hd 0 s.cur.val 32 false
  have hset := hw.after ((sameStore_refreshCaptured _ (coreGid s (myCore s)) x.pa (natBytes v 8)).trans (sameStore_barrierSeen _ x.pa))
  exact hset.after ((sameStore_sendPacket ..).trans (sameStore_noteWritten ..))

end

/-! ### The object that a word names -/

/-- An aligned barrier object of uncoded HBM (R248). -/
theorem barrierAt_of_object {s t : State} {va : Nat} {x : Xlat} (hva : va % 64 = 0) (ht : translate s (coreCtx s (myCore s)) .write va = (t, .ok x))
    (hp : place x.pa = .hbm) (hreach : reachable x.pa 64 = true) (hc : x.codec = 0) : barrierAt s va = .ok (x, t) := by
  simp [barrierAt, hva, vwriteAddr_of_translated 15 hva ht hreach, atomicDenied_of_plain hp hc]

section
variable {h : Hdr} {d a b : Reg} {off : BitVec 20} {s t : State} {x : Xlat}

theorem exec_bara_of_object (hb : barrierAt s (xval s a).toNat = .ok (x, t)) (hu : SameUnits s t) (hr : CoreRuns (.bara h a b) s) :
    exec (.bara h a b) s = .next (if myBarrier t x % 2 ^ 20 + (xval s b).toNat < 2 ^ 20
      then advance (coreBarrier t x (myBarrier t x + (xval s b).toNat)) else coreFault s (myCore s) 0x37 (xval s a)) := by
  rw [exec_bara, execBara, coreWord_of_core hr]
  simp only [hb, bits_zero_eq_mod, hu.xval]
  split
  · rw [if_neg (by omega), coreOutcome_trap, BitVec.ofNat_toNat, BitVec.setWidth_eq]
  · rw [if_pos (by omega), coreOutcome_ok]

/-- BARW by what PEND is: nothing to take, the last to come, or others still to come. -/
theorem exec_barw_of_object (hb : barrierAt s (xval s a).toNat = .ok (x, t)) (hu : SameUnits s t) (hp : place x.pa = .hbm)
    (hr : CoreRuns (.barw h a) s) :
    exec (.barw h a) s = .next (if myBarrier t x % 2 ^ 20 = 0 then coreFault s (myCore s) 0x37 (xval s a)
      else if myBarrier t x % 2 ^ 20 = 1 then advance (coreBarrier t x (myBarrier t x - 1))
      else modCore (coreBarrier t x (myBarrier t x - 1)) (myCore s) fun k => { k with wait := .barw x false }) := by
  have hme : myCore (coreBarrier t x (myBarrier t x - 1)) = myCore s := (myCore_congr (who_coreBarrier hp _)).trans hu.myCore
  rw [exec_barw, execBarw, coreWord_of_core hr]
  simp only [hb, bits_zero_eq_mod, beq_iff_eq, hme]
  split
  · rw [coreOutcome_trap, BitVec.ofNat_toNat, BitVec.setWidth_eq]
  · split <;> rw [coreOutcome_ok]

theorem exec_pref_of_object (hva : (xval s a + off.signExtend 64).toNat % 64 = 0) (hlen : (xval s b).toNat % 64 = 0)
    (hpos : 0 < (xval s b).toNat) (hmax : (xval s b).toNat ≤ 2 ^ 32) (hb : barrierAt s (xval s d).toNat = .ok (x, t))
    (hpend : myBarrier t x % 2 ^ 20 < 2 ^ 20 - 1) (hr : CoreRuns (.pref h d a b off) s) :
    exec (.pref h d a b off) s = .next (advance (modDie (coreBarrier t x (myBarrier t x + 1)) fun q => { q with
      prefs := q.prefs ++ [⟨(xval s a + off.signExtend 64).toNat / 64, (xval s b).toNat / 64, 0, myRoot t, (kindOf t).isMgr, x,
        coreGid t (myCore t)⟩] })) := by
  have hrange : ((xval s b).toNat == 0 || decide (2 ^ 32 < (xval s b).toNat)) = false := by
    simp only [Bool.or_eq_false_iff, beq_eq_false_iff_ne, decide_eq_false_iff_not]
    omega
  have hroom : (myBarrier t x % 2 ^ 20 == 2 ^ 20 - 1) = false := beq_eq_false_iff_ne.2 (by omega)
  rw [exec_pref, execPref, coreWord_of_core hr]
  simp only [hva, hlen, bne_self_eq_false, Bool.or_self, Bool.false_eq_true, if_false, hrange, hb, bits_zero_eq_mod, hroom, coreOutcome_ok]

end

/-! ### Events -/

theorem exec_barwReturn_of_met {s : State} {c : Nat} {x : Xlat} {seen : Bool} (hw : (core s c).wait = .barw x seen)
    (hmet : seen = true ∨ barrierWord s (coreGid s c) x % 2 ^ 20 = 0) (ha : AgentRuns (.barwReturn c)) :
    exec (.barwReturn c) s = .next (modCore
      (sendRead s s.cur.val (systemDie x.pa) (natBytes (barrierWord s (coreGid s c) x) 8)) c fun k =>
        { k with wait := .none, pc := k.pc + 1, supplied := [], issued := none }) := by
  rw [exec_barwReturn, execBarwReturn, hw]
  exact event_of_enabled ha (by simpa [bits_zero_eq_mod] using hmet)

/-- The bits above bit 20 do not see a bit 20 that was clear and is set. -/
theorem bits_add_two_pow {v : Nat} (h : v.testBit 20 = false) : bits (v + 2 ^ 20) 21 8 = bits v 21 8 := by
  have hbit : v / 2 ^ 20 % 2 = 0 := by
    simpa [Nat.testBit_eq_decide_div_mod_eq] using h
  simp only [bits, Nat.shiftRight_eq_div_pow]
  omega

/-- ERR set in an object of value `v`, and a code put where none stands (Table 14-4), as one sum. -/
theorem errorNoted_eq (v code : Nat) :
    (let w := if v.testBit 20 = true then v else v + 2 ^ 20
      if bits w 21 8 = 0 then w + 2 ^ 21 * code else w) =
    v + (if v.testBit 20 then 0 else 2 ^ 20) + if bits v 21 8 = 0 then 2 ^ 21 * code else 0 := by
  have hcode : bits (if v.testBit 20 = true then v else v + 2 ^ 20) 21 8 = bits v 21 8 := by
    split
    · rfl
    · next h => exact bits_add_two_pow (by simpa using h)
  dsimp only
  rw [hcode]
  split <;> split <;> rfl

/-- PREF_COMPLETE takes one from PEND and, where a line was skipped, sets ERR and its code. -/
theorem exec_prefComplete_of_prefetch {s : State} {n : Nat} {p : Prefetch} (hp : (die s).prefs[n]? = some p) :
    let r := prefLines p p.count p.line (modDie s fun q => { q with prefs := q.prefs.eraseIdx n }) 0
    let v := barrierWord r.1 p.gid p.obj
    let v := v - if v % 2 ^ 20 = 0 then 0 else 1
    let err := if r.2 = 0 then v else
      v + (if v.testBit 20 then 0 else 2 ^ 20) + if bits v 21 8 = 0 then 2 ^ 21 * r.2 else 0
    exec (.prefComplete n) s = .next (setBarrier r.1 p.gid p.obj err) := by
  intro r v v' err
  have hv : (if v % 2 ^ 20 = 0 then v else v - 1) = v' := by
    simp only [v']
    split <;> rfl
  rw [exec_prefComplete, execPrefComplete]
  simp only [hp, bits_zero_eq_mod, beq_iff_eq]
  rw [machineEvent_of_enabled rfl]
  simp only [err, ← errorNoted_eq, ← hv]
  rfl

/-- Settles O32: the bytes of an object by the write at its home, each word by what PEND is, each event by the lemma of its own. -/
theorem barrierWordsCountTheObject : Obligations.BarrierWordsCountTheObject := by
  unfold Obligations.BarrierWordsCountTheObject
  intro h d a b off s t x c n p object w pend va len
  have hobject : ∀ r, object r → barrierAt s (xval s r).toNat = .ok (x, t) ∧ SameUnits s t ∧ place x.pa = .hbm :=
    fun r ⟨hva, ht, hp, hreach, hc⟩ => ⟨barrierAt_of_object hva ht hp hreach hc, sameUnits_of_translated ht, hp⟩
  refine ⟨fun v hs hp hfit hc hd => ?bytes, fun hr ho hlt => ?bara, fun hr ho hge => ?baraFault, fun hr ho hone => ?barw,
    fun hr ho hmore => ?barwWaits, fun hr ho hzero => ?barwFault, fun seen => exec_barwReturn_of_met, fun hr hva hlen hpos hmax ho hpend => ?pref,
    exec_prefComplete_of_prefetch⟩
  case bytes =>
    obtain ⟨hwritten, hline, hothers⟩ := bytesWritten_coreBarrier hp hs hfit hc hd v
    rw [length_natBytes] at hwritten hline
    exact ⟨hwritten, hline, hothers⟩
  case pref => exact exec_pref_of_object hva hlen hpos hmax (hobject d ho).1 hpend hr
  all_goals obtain ⟨hb, hu, hp⟩ := hobject a ho
  case bara => rw [exec_bara_of_object hb hu hr, if_pos hlt]
  case baraFault => rw [exec_bara_of_object hb hu hr, if_neg (not_lt.2 hge)]
  case barw => rw [exec_barw_of_object hb hu hp hr, if_neg (by omega), if_pos hone]
  case barwWaits => rw [exec_barw_of_object hb hu hp hr, if_neg (by omega), if_neg (by omega)]
  case barwFault => rw [exec_barw_of_object hb hu hp hr, if_pos hzero]

end Sys2Proof.Machine
end

section
/-! PROOFS. SSLOT on the records of the stream-context table, and RTYPOP and RTYW on the entries of the retry ring (R257, R258, R413 to R415,
R438, R439). -/

namespace Sys2Proof.Machine

/-! ### What the reads of a core leave of its graph -/

theorem myGraph_congr {s t : State} (hdies : t.dies = s.dies) (hcur : t.cur = s.cur) (hwho : t.who = s.who) : myGraph t = myGraph s := by
  have hdie : die t = die s := by simp only [die, hdies, hcur]
  unfold myGraph ownerOf region graph? myRegion
  rw [hdie, hwho]

theorem groupOpen_congr {s t : State} (h : myGraph t = myGraph s) : groupOpen t = groupOpen s := by rw [groupOpen, groupOpen, h]

/-- What a host or a peer answers is no part of a graph. -/
theorem myGraph_readPlace (s : State) (c : Ctx) (x : Xlat) (len hint : Nat) : myGraph (readPlace s c x len hint).2 = myGraph s := by
  unfold readPlace
  split
  · exact (sameDies_loadLine ..).units.myGraph
  all_goals exact myGraph_congr rfl rfl rfl

theorem myGraph_coreRead {s t : State} {va size hint ty dst : Nat} {bs : List Byte} (h : coreRead s va size hint ty dst = .ok (bs, t)) :
    myGraph t = myGraph s := by
  unfold coreRead at h
  split at h
  · cases h; rfl
  · unfold vread at h
    split at h
    · cases h
    · split at h
      · cases h
      · next u x hx =>
        split at h
        · cases h
        · have hread : (readBytes u (coreCtx s (myCore s)) x size hint).2 = t := congrArg Prod.snd (Except.ok.inj h)
          rw [← hread, readBytes, (sameDies_sendRead ..).units.myGraph, myGraph_readPlace, (sameUnits_of_translated hx).myGraph]

theorem myGraph_slotArg {s t : State} {b : Reg} {v : Nat} (h : slotArg s b = .ok (v, t)) : myGraph t = myGraph s := by
  unfold slotArg at h
  dsimp only at h
  split at h
  · cases h
  · split at h
    · cases h
    · next lo u hlo =>
      split at h
      · cases h
      · next hi w hhi =>
        split at h
        · obtain ⟨-, rfl⟩ := Prod.mk.inj (Except.ok.inj h)
          rw [myGraph_coreRead hhi, myGraph_coreRead hlo]
        · cases h

/-! ### The read of a record -/

theorem sameDies_foldl {α : Type} {f : State → α → State} (hf : ∀ s a, SameDies s (f s a)) (l : List α) (s : State) :
    SameDies s (l.foldl f s) := by
  induction l generalizing s with
  | nil => exact .rfl
  | cons a l ih => exact (hf s a).trans (ih _)

/-- The packets of a read of memory leave memory and the dies. -/
theorem physLoad_keeps (s : State) (pa n : Nat) : SameStore s (physLoad s pa n) ∧ SameDies s (physLoad s pa n) :=
  ⟨sameStore_foldl (fun _ _ => sameStore_sendRead ..) _ s, sameDies_foldl (fun _ _ => sameDies_sendRead ..) _ s⟩

theorem SameDies.die {s t : State} (h : SameDies s t) : Machine.die t = Machine.die s := by simp only [Machine.die, h.dies, h.cur]

/-- A record that is read stays as it is. -/
theorem slotRec_askRecord (s : State) (n : Nat) : slotRec (askRecord s n) n = slotRec s n := by
  obtain ⟨hstore, hdies⟩ := physLoad_keeps s (slotAddr s n) 128
  have haddr : slotAddr (askRecord s n) n = slotAddr s n := by rw [slotAddr, askRecord, hdies.die, slotAddr]
  rw [slotRec, haddr, slotRec, askRecord]
  simp only [physRead, hstore.peekLine]

/-! ### SSLOT -/

section
variable {h : Hdr} {d a b : Reg} {s t u : State} {v spill first : Nat}

theorem slotNumber_of_legal (closed : Bool) (hn : (xval s a).toNat < 16384) (hpool : poolOn s = true)
    (hclosed : closed = true → groupOpen s = false) : slotNumber s a closed = .ok (xval s a).toNat := by
  have hfree : (closed && groupOpen s) = false := by
    cases closed
    · rfl
    · exact hclosed rfl
  simp [slotNumber, hn.not_ge, hpool, hfree]

/-! SSLOT, bind, by the STATE of the record and the granules that are free. -/

section
variable (hn : slotNumber s a true = .ok (xval s a).toNat) (harg : slotArg s b = .ok (v, t))
include hn harg

theorem exec_sslotBind_free (h0 : recState (slotRec t (xval s a).toNat) = 0)
    (hspill : spillOf (askRecord t (xval s a).toNat) (recSpill v) = .ok (spill, u))
    (hrun : freeRun (die (askRecord t (xval s a).toNat)).granules (recPinkb v) = some first) (hr : CoreRuns (.sslotBind h d a b) s) :
    exec (.sslotBind h d a b) s = .next (retX (bindSlot u (xval s a).toNat v spill first none) d 0) := by
  rw [exec_sslotBind, execSslotBind, coreWord_of_core hr]
  simp only [hn, harg, h0, hspill, hrun, beq_self_eq_true, if_true, coreOutcome_ok]

theorem exec_sslotBind_free_full (h0 : recState (slotRec t (xval s a).toNat) = 0)
    (hspill : spillOf (askRecord t (xval s a).toNat) (recSpill v) = .ok (spill, u))
    (hrun : freeRun (die (askRecord t (xval s a).toNat)).granules (recPinkb v) = none) (hr : CoreRuns (.sslotBind h d a b) s) :
    exec (.sslotBind h d a b) s = .next (retX u d 1) := by
  rw [exec_sslotBind, execSslotBind, coreWord_of_core hr]
  simp only [hn, harg, h0, hspill, hrun, beq_self_eq_true, if_true, coreOutcome_ok]

/-- The image of an evicted slot comes back once the ports of its granules are free. -/
theorem exec_sslotBind_image (h3 : recState (slotRec t (xval s a).toNat) = 3)
    (hrun : freeRun (die (askRecord t (xval s a).toNat)).granules (recPinkb v) = some first) (hr : CoreRuns (.sslotBind h d a b) s) :
    exec (.sslotBind h d a b) s = .next (
      if mayMove (askRecord t (xval s a).toNat) first (recPinkb v) true = true then
        retX (bindSlot (takeMove (askRecord t (xval s a).toNat) first (recPinkb v) true) (xval s a).toNat v
          (recSpill (slotRec t (xval s a).toNat)) first (some (recPinkb (slotRec t (xval s a).toNat)))) d 0
      else awaitMove s first (recPinkb v) true) := by
  have h0 : ((3 : Nat) == 0) = false := rfl
  rw [exec_sslotBind, execSslotBind, coreWord_of_core hr]
  simp only [hn, harg, h0, h3, hrun, beq_self_eq_true, if_true, Bool.false_eq_true, if_false]
  split <;> rw [coreOutcome_ok]

theorem exec_sslotBind_taken (h0 : recState (slotRec t (xval s a).toNat) ≠ 0)
    (h3 : recState (slotRec t (xval s a).toNat) = 3 → freeRun (die (askRecord t (xval s a).toNat)).granules (recPinkb v) = none)
    (hr : CoreRuns (.sslotBind h d a b) s) :
    exec (.sslotBind h d a b) s = .next (retX (askRecord t (xval s a).toNat) d 1) := by
  rw [exec_sslotBind, execSslotBind, coreWord_of_core hr]
  simp only [hn, harg, beq_iff_eq, h0, if_false]
  split
  · next hst => simp only [h3 hst, coreOutcome_ok]
  · rw [coreOutcome_ok]

end

theorem exec_sslotRefresh_of_arg (hn : slotNumber s a false = .ok (xval s a).toNat) (harg : slotArg s b = .ok (v, t))
    (hr : CoreRuns (.sslotRefresh h d a b) s) :
    let n := (xval s a).toNat
    let asked := askRecord t n
    exec (.sslotRefresh h d a b) s = .next (
      if groupOpen s = true then advance (captureRefresh t n v d)
      else if recState (slotRec t n) = 1 then retX (noteRecord (writeRefresh asked n v) n) d 0 else retX asked d 1) := by
  intro n asked
  rw [exec_sslotRefresh, execSslotRefresh, coreWord_of_core hr]
  simp only [hn, harg, groupOpen_congr (myGraph_slotArg harg), slotRec_askRecord, bne_iff_ne]
  by_cases hopen : groupOpen s = true
  · rw [if_pos hopen, if_pos hopen]; rfl
  · rw [if_neg hopen, if_neg hopen]
    by_cases hbound : recState (slotRec t n) = 1
    · rw [if_neg (not_not.2 hbound), if_pos hbound]; rfl
    · rw [if_pos hbound, if_neg hbound]; rfl

theorem exec_sslotEvict_of_number (hn : slotNumber s a true = .ok (xval s a).toNat) (hr : CoreRuns (.sslotEvict h d a) s) :
    let n := (xval s a).toNat
    let run := slotGranules s n
    exec (.sslotEvict h d a) s = .next (
      if recState (slotRec s n) = 1 then
        if mayMove s run.1 run.2 false = true then retX (noteRecord (evictSlot (takeMove s run.1 run.2 false) n) n) d 0
        else awaitMove s run.1 run.2 false
      else retX (askRecord s n) d 1) := by
  intro n run
  rw [exec_sslotEvict, execSslotEvict, coreWord_of_core hr]
  simp only [hn, bne_iff_ne]
  by_cases hbound : recState (slotRec s n) = 1
  · rw [if_neg (not_not.2 hbound), if_pos hbound]
    split <;> rfl
  · rw [if_pos hbound, if_neg hbound]; rfl

end

/-! ### RTYPOP and RTYW -/

section
variable {h : Hdr} {d a b : Reg} {s t : State} {e : Retry}

theorem exec_rtypop_of_none (hnone : (die s).retry.find? (fun r => !r.popped) = none) (hr : CoreRuns (.rtypop h d) s) :
    exec (.rtypop h d) s = .next (retX s d (1 <<< 63)) := by
  rw [exec_rtypop, execRtypop, coreWord_of_core hr]
  simp only [hnone, coreOutcome_ok]

theorem exec_rtypop_of_some (hsome : (die s).retry.find? (fun r => !r.popped) = some e) (hr : CoreRuns (.rtypop h d) s) :
    exec (.rtypop h d) s = .next (retX (modDie s fun q =>
      { q with retry := q.retry.map fun r => if r.slot == e.slot then { r with popped := true } else r }) d (BitVec.ofNat 64 e.slot)) := by
  rw [exec_rtypop, execRtypop, coreWord_of_core hr]
  simp only [hsome, coreOutcome_ok]

section
variable (hn : (xval s a).toNat < 1024)
include hn

theorem slotOfReg_of_legal : slotOfReg s a = .ok (xval s a).toNat := if_neg hn.not_ge

theorem exec_rtywSupply_of_none (hnone : openEntry s (xval s a).toNat = none) (hr : CoreRuns (.rtywSupply h d a b) s) :
    exec (.rtywSupply h d a b) s = .next (retX s d 2) := by
  rw [exec_rtywSupply, execRtywSupply, coreWord_of_core hr]
  simp only [slotOfReg_of_legal hn, hnone, coreOutcome_ok]

theorem exec_rtywReplay_of_none (hnone : openEntry s (xval s a).toNat = none) (hr : CoreRuns (.rtywReplay h d a b) s) :
    exec (.rtywReplay h d a b) s = .next (retX s d 2) := by
  rw [exec_rtywReplay, execRtywReplay, coreWord_of_core hr]
  simp only [slotOfReg_of_legal hn, hnone, coreOutcome_ok]

variable (he : openEntry s (xval s a).toNat = some e)
include he

theorem exec_rtywSupply_of_read {bs : List Byte} (hacc : e.acc ≠ 1) (hread : coreRead s (xval s b).toNat 64 0 15 0 = .ok (bs, t))
    (hr : CoreRuns (.rtywSupply h d a b) s) :
    exec (.rtywSupply h d a b) s = .next (retX (closeEntry (supplyTo t e (bs.take e.size)) (xval s a).toNat) d 0) := by
  rw [exec_rtywSupply, execRtywSupply, coreWord_of_core hr]
  simp only [slotOfReg_of_legal hn, he, beq_iff_eq, hacc, if_false, hread, coreOutcome_ok]

/-- RTYW, replay, of a page that is still absent. -/
theorem exec_rtywReplay_of_page {lvl : Nat} (ht : translate s (requesterCtx s e) (entryAcc e) e.va = (t, .error (.page lvl)))
    (hr : CoreRuns (.rtywReplay h d a b) s) :
    exec (.rtywReplay h d a b) s = .next (retX (setLevel t (xval s a).toNat lvl) d 1) := by
  rw [exec_rtywReplay, execRtywReplay, coreWord_of_core hr]
  simp only [slotOfReg_of_legal hn, he, ht, coreOutcome_ok]

/-- RTYW, replay, of any other access: what the entry's requester leaves, from the state with the entry closed. -/
theorem exec_rtywReplay_of_closed {res : Except XFault Xlat} (ht : translate s (requesterCtx s e) (entryAcc e) e.va = (t, res))
    (hres : ∀ l, res ≠ .error (.page l)) (hr : CoreRuns (.rtywReplay h d a b) s) :
    let n := (xval s a).toNat
    let u := closeEntry t n
    let done := fun (r : State × Bool) => retX r.1 d (if r.2 then 3 else 0)
    exec (.rtywReplay h d a b) s = .next (match e.who with
      | .window g k iter pos => done (replayWindow u g k iter pos n)
      | .held g _ => done (replayHeld u g e none)
      | .amo g => done (replayAmo u g e none)
      | _ => modCore u (myCore s) fun k => { k with wait := .rtyw d e }) := by
  have hme : myCore (closeEntry t (xval s a).toNat) = myCore s := (sameUnits_of_translated ht).myCore
  rw [exec_rtywReplay, execRtywReplay, coreWord_of_core hr]
  simp only [slotOfReg_of_legal hn, he, ht]
  cases res with
  | ok x => cases e.who <;> simp only [coreOutcome_ok, hme]
  | error f =>
    cases f with
    | page l => exact absurd rfl (hres l)
    | code c => cases e.who <;> simp only [coreOutcome_ok, hme]

end

end

theorem rtywReturn_of_done {s t : State} {d : Reg} {e : Retry} {faulted : Bool}
    (h : replayAccess (modCore s 32 fun q => { q with wait := .none }) e = (t, some faulted)) :
    rtywReturn s d e = retX t d (if faulted then 3 else 0) := by
  simp only [rtywReturn, h]

theorem rtywReturn_of_waiting {s t : State} {d : Reg} {e : Retry}
    (h : replayAccess (modCore s 32 fun q => { q with wait := .none }) e = (t, none)) :
    rtywReturn s d e = modCore t 32 fun q => { q with wait := .rtyw d e } := by
  simp only [rtywReturn, h]

/-- Settles O53: SSLOT by the STATE of its record, RTYW by its entry and requester, each by the lemma of its own. -/
theorem slotAndRetryWords : Obligations.SlotAndRetryWords := by
  unfold Obligations.SlotAndRetryWords
  intro h d a b s t u v spill first lvl e bs res gives n closed old bound opened taken waits run
  have hclosed : closed → slotNumber s a true = .ok n := fun ⟨hn, hpool, hg⟩ => slotNumber_of_legal true hn hpool fun _ => hg
  refine ⟨fun hc harg => ?bind, fun hn hpool harg => ?refresh, fun hc => ?evict, exec_rtypop_of_none, exec_rtypop_of_some,
    fun hn hnone => ⟨exec_rtywSupply_of_none hn hnone, exec_rtywReplay_of_none hn hnone⟩,
    fun hn he hacc hread => exec_rtywSupply_of_read hn he hacc hread, fun hn he ht => exec_rtywReplay_of_page hn he ht,
    fun hn he ht hres => ?replay, fun faulted => rtywReturn_of_done, rtywReturn_of_waiting⟩
  case bind =>
    have hn := hclosed hc
    refine ⟨fun h0 hspill hrun hr => exec_sslotBind_free hn harg h0 hspill hrun hr,
      fun h0 hspill hrun hr => exec_sslotBind_free_full hn harg h0 hspill hrun hr, fun h3 hrun hmay hr => ?moves, fun h3 hrun hmay hr => ?waits,
      fun hno hr => ?taken⟩
    case moves => exact (exec_sslotBind_image hn harg h3 hrun hr).trans (congrArg _ (if_pos hmay))
    case waits => exact (exec_sslotBind_image hn harg h3 hrun hr).trans (congrArg _ (if_neg (by rw [hmay]; decide)))
    case taken =>
      have hstate : recState old ≠ 0 ∧ (recState old = 3 → freeRun (die (askRecord t n)).granules (recPinkb v) = none) := by
        rcases hno with h1 | h2 | ⟨h3, hrun⟩
        · simp [h1]
        · simp [h2]
        · exact ⟨by simp [h3], fun _ => hrun⟩
      exact exec_sslotBind_taken hn harg hstate.1 hstate.2 hr
  case refresh =>
    have hexec := fun hr => exec_sslotRefresh_of_arg (h := h) (d := d) (slotNumber_of_legal false hn hpool (fun h => nomatch h)) harg hr
    refine ⟨fun hg hr => ?_, fun hg hb hr => ?_, fun hg hb hr => ?_⟩
    · rw [hexec hr, if_pos hg]
    · rw [hexec hr, if_neg (by rw [hg]; decide), if_pos hb]; rfl
    · rw [hexec hr, if_neg (by rw [hg]; decide), if_neg hb]
  case evict =>
    have hexec := fun hr => exec_sslotEvict_of_number (h := h) (d := d) (hclosed hc) hr
    refine ⟨fun hb => ⟨fun hmay hr => ?_, fun hmay hr => ?_⟩, fun hb hr => ?_⟩
    · rw [hexec hr, if_pos hb, if_pos hmay]; rfl
    · rw [hexec hr, if_pos hb, if_neg (by rw [hmay]; decide)]; rfl
    · rw [hexec hr, if_neg hb]
  case replay =>
    have hexec := fun hr => exec_rtywReplay_of_closed (h := h) (d := d) (b := b) hn he ht hres hr
    refine ⟨fun g k i p hw hr => ?_, fun g ln hw hr => ?_, fun g hw hr => ?_, ?_⟩
    · rw [hexec hr, hw]
    · rw [hexec hr, hw]
    · rw [hexec hr, hw]
    · rintro (⟨g, hw⟩ | ⟨g, p, hw⟩ | ⟨k, hw⟩ | ⟨k, hw⟩) hr
      all_goals rw [hexec hr, hw]

end Sys2Proof.Machine
end

section
/-! PROOFS. The fatal state: every operation that hosts, peers, links and the dump reach, and what settles after a turn, keeps FATAL set
and every launch queue empty (R301, R312, R334). -/

namespace Sys2Proof.Machine

/-! ### Updates of a state that stands fatal -/

namespace FatalState

/-- A state with as fatal a flag, whose dies hold what no launch queue shows. -/
theorem of_queues {s t : State} (h : FatalState s) (hf : t.io.fatal = s.io.fatal)
    (hq : ∀ n, queuesEmpty (dieAt s n) → queuesEmpty (dieAt t n)) : FatalState t :=
  ⟨hf.trans h.1, fun n => hq n (h.2 n)⟩

/-- What leaves the dies, and FATAL. -/
theorem of_dies {s t : State} (h : FatalState s) (hf : t.io.fatal = s.io.fatal) (hd : t.dies = s.dies) : FatalState t :=
  h.of_queues hf fun n hn => by simpa only [dieAt, hd] using hn

theorem sameDies {s t : State} (h : FatalState s) (k : SameDies s t) : FatalState t := h.of_dies (by rw [k.io]) k.dies

/-- A change of one die that fills no queue. -/
theorem modDieAt {s : State} (h : FatalState s) (n : Nat) {f : Die → Die} (hf : ∀ d, queuesEmpty d → queuesEmpty (f d)) :
    FatalState (modDieAt s n f) := by
  refine h.of_queues rfl fun m hm => ?_
  by_cases e : n = m
  · subst e
    by_cases hn : n < 24
    · rw [dieAt, Machine.modDieAt, vget_vmod_same _ _ _ _ hn]
      exact hf _ hm
    · rw [dieAt, Machine.modDieAt, vget_vmod_out _ _ _ _ _ (by omega)]
      simpa [dieAt, vget, Vector.getD, hn] using hm
  · rwa [dieAt, Machine.modDieAt, vget_vmod_ne _ _ _ _ _ e]

end FatalState

theorem modDie_eq_modDieAt (s : State) (f : Die → Die) : modDie s f = modDieAt s s.cur.val f := by
  simp [modDie, modDieAt, vmod]

namespace FatalState

/-- A change of the die in focus that leaves its queues. -/
theorem modDie {s : State} (h : FatalState s) {f : Die → Die} (hf : ∀ d, (f d).queues = d.queues) : FatalState (modDie s f) := by
  rw [modDie_eq_modDieAt]
  exact h.modDieAt _ fun d hd q => by rw [hf]; exact hd q

theorem modCore {s : State} (h : FatalState s) (c : Nat) (f : Core → Core) : FatalState (modCore s c f) := h.modDie fun _ => rfl
theorem modUnit {s : State} (h : FatalState s) (u : Nat) (f : OpUnit → OpUnit) : FatalState (modUnit s u f) := h.modDie fun _ => rfl
theorem modGraph {s : State} (h : FatalState s) (g : Nat) (f : Graph → Graph) : FatalState (modGraph s g f) := h.modDie fun _ => rfl

/-- A change of every die that leaves its queues. -/
theorem mapDies {s t : State} (h : FatalState s) {f : Die → Die} (hf : ∀ d, (f d).queues = d.queues) (hd : t.dies = s.dies.map f)
    (ht : t.io.fatal = s.io.fatal) : FatalState t := by
  refine h.of_queues ht fun n hn q => ?_
  by_cases hb : n < 24
  · have e : dieAt t n = f (dieAt s n) := by simp [dieAt, hd, vget, Vector.getD, hb]
    rw [e, hf]
    exact hn q
  · have e : dieAt t n = dieAt s n := by simp [dieAt, vget, Vector.getD, hb]
    rw [e]
    exact hn q

theorem foldl {α : Type} {f : State → α → State} (hf : ∀ s a, FatalState s → FatalState (f s a)) (l : List α) {s : State}
    (h : FatalState s) : FatalState (l.foldl f s) := by
  induction l generalizing s with
  | nil => exact h
  | cons a l ih => exact ih (hf _ _ h)

/-- Another die in focus. -/
theorem focus {s : State} (h : FatalState s) (c : Fin 24) : FatalState { s with cur := c } := h.of_dies rfl rfl

theorem onDie {s : State} (h : FatalState s) (n : Nat) {f : State → State} (hf : ∀ t, FatalState t → FatalState (f t)) :
    FatalState (onDie s n f) := (hf _ (h.focus _)).focus _

theorem units {s t : State} (h : FatalState s) (k : SameUnits s t) : FatalState t := by
  refine h.of_queues (by rw [k.io]) fun n hn q => ?_
  by_cases hb : n < 24
  · by_cases e : (⟨n, hb⟩ : Fin 24) = s.cur
    · have hq : (die t).queues = (die s).queues := by rw [k.here]
      have ht : dieAt t n = die t := by simp [dieAt, die, vget, Vector.getD, hb, k.cur, ← e]
      have hs : dieAt s n = die s := by simp [dieAt, die, vget, Vector.getD, hb, ← e]
      rw [ht, hq, ← hs]
      exact hn q
    · have := k.other ⟨n, hb⟩ e
      have ht : dieAt t n = dieAt s n := by simpa [dieAt, vget, Vector.getD, hb] using this
      rw [ht]
      exact hn q
  · have e : dieAt t n = dieAt s n := by simp [dieAt, vget, Vector.getD, hb]
    rw [e]
    exact hn q

/-! ### Packets, frames and free values -/

theorem modLink {s : State} (h : FatalState s) (k : Nat) (f : Link → Link) : FatalState (modLink s k f) := h.of_dies rfl rfl
theorem sendPacket {s : State} (h : FatalState s) (src dest : Nat) (c : VirtualChannel) (l : List Byte) :
    FatalState (sendPacket s src dest c l) := h.sameDies (sameDies_sendPacket ..)
theorem sendRead {s : State} (h : FatalState s) (src dest : Nat) (l : List Byte) : FatalState (sendRead s src dest l) :=
  h.sameDies (sameDies_sendRead ..)
theorem modEth {s : State} (h : FatalState s) (p : Nat) (f : EthPort → EthPort) : FatalState (modEth s p f) := h.of_dies rfl rfl
theorem sendAnswer {s : State} (h : FatalState s) (p addr : Nat) (l : List Byte) : FatalState (sendAnswer s p addr l) := h.modEth ..
theorem fresh {s : State} (h : FatalState s) : FatalState (fresh s).2 := h.of_dies rfl rfl

/-! ### Memory -/

theorem countCodec {s : State} (h : FatalState s) (a : LineAttr) (m d : Line) (cd ci : Nat) : FatalState (countCodec s a m d cd ci) := by
  unfold Machine.countCodec
  split
  · exact h
  · exact h.modDieAt _ fun _ hd => hd

theorem storeLine {s : State} (h : FatalState s) (ln : Nat) (a : LineAttr) (bs : List (Nat × Byte)) (hint cd ci : Nat) :
    FatalState (storeLine s ln a bs hint cd ci) := by
  rw [storeLine_eq]
  exact ((h.sameDies (sameDies_l2agree ..)).countCodec ..).sameDies (sameDies_placeStored ..)

theorem invalidateCode {s : State} (h : FatalState s) (ln : Nat) (every : Bool) : FatalState (invalidateCode s ln every) := by
  have hq : ∀ d : Die, (if d.cores.toList.any fun c => (c.l1i.get none ln).isSome then
      { d with cores := d.cores.map fun c => { c with l1i := c.l1i.set none ln none } } else d).queues = d.queues := by
    intro d
    split <;> rfl
  unfold Machine.invalidateCode
  split
  · exact h.mapDies hq rfl rfl
  · exact h.modDieAt _ fun d hd q => by rw [hq]; exact hd q

theorem discardSequenced {s : State} (h : FatalState s) (ln : Nat) (bs : List (Nat × Byte)) : FatalState (discardSequenced s ln bs) := by
  unfold Machine.discardSequenced
  split
  · exact h.modDieAt _ fun _ hd => hd
  · exact h

theorem performLine {s : State} (h : FatalState s) (ln : Nat) (a : LineAttr) (bs : List (Nat × Byte)) (hint cd ci : Nat) (every : Bool) :
    FatalState (performLine s ln a bs hint cd ci every) :=
  (((h.sendPacket ..).storeLine ..).invalidateCode ..).discardSequenced ..

theorem dropLaunch {s : State} (h : FatalState s) (n q : Nat) : FatalState (dropLaunch s n q) := by
  refine h.modDieAt _ fun d hd m => ?_
  by_cases e : q = m
  · subst e
    by_cases hb : q < 64
    · simpa [hb] using hd q
    · simp [vget, Vector.getD, hb, Queue.reset]
  · simpa [vget_vmod_ne _ _ _ _ _ e] using hd m

/-- No launch is enqueued in the fatal state (R312). -/
theorem launchWrite {s : State} (h : FatalState s) (n q len : Nat) (d : Line) : FatalState (launchWrite s n q len d) := by
  simpa [Machine.launchWrite, h.1] using h.dropLaunch n q

theorem performBytes {s : State} (h : FatalState s) (pa : Nat) (a : LineAttr) (data : List Byte) (hint cd ci : Nat) (every : Bool) :
    FatalState (performBytes s pa a data hint cd ci every) := by
  unfold Machine.performBytes
  have stored : FatalState { s with mem := Table.setBytes s.mem pa data } := h.of_dies rfl rfl
  cases place pa with
  | hbm => exact foldl (fun _ _ ht => ht.performLine ..) _ h
  | host => exact stored.sendPacket ..
  | mailbox => exact stored.sendPacket ..
  | peer => exact (stored.modEth ..).sendPacket ..
  | launch => exact (h.sendPacket ..).launchWrite ..
  | fstat => exact h.sendPacket ..
  | absent => exact h

theorem readPlace {s : State} (h : FatalState s) (c : Ctx) (x : Xlat) (len hint : Nat) : FatalState (readPlace s c x len hint).2 := by
  unfold Machine.readPlace
  cases place x.pa with
  | hbm => exact h.sameDies (sameDies_loadLine ..)
  | launch | fstat => exact h
  | peer => exact h.fresh.modEth ..
  | host | mailbox | absent => exact h.fresh

theorem readBytes {s : State} (h : FatalState s) (c : Ctx) (x : Xlat) (len hint : Nat) : FatalState (readBytes s c x len hint).2 :=
  (h.readPlace ..).sendRead ..

theorem refreshCaptured {s : State} (h : FatalState s) (gid : Option Nat) (pa : Nat) (data : List Byte) :
    FatalState (refreshCaptured s gid pa data) := by
  unfold Machine.refreshCaptured
  split
  · exact h
  · split
    · exact h
    · exact h.modGraph ..

/-! ### Traps -/

theorem translate {s : State} (h : FatalState s) (c : Ctx) (acc : Acc) (va : Nat) : FatalState (translate s c acc va).1 :=
  h.units (sameUnits_translate ..)

theorem fetchLine {s : State} (h : FatalState s) (c idx : Nat) : FatalState (fetchLine s c idx).1 := by
  have ht := h.translate (coreCtx s c) .fetch (codeLine idx)
  unfold Machine.fetchLine
  dsimp only
  split
  · exact h
  · split
    · next heq => rwa [heq] at ht
    · next s' x heq =>
      rw [heq] at ht
      split
      · exact ht
      · have hr := FatalState.readBytes ht (coreCtx s' c) x 64 0
        split
        · exact ht
        · split
          · exact hr.modCore ..
          · exact hr

theorem fetchWord {s : State} (h : FatalState s) (c idx : Nat) : FatalState (fetchWord s c idx).1 := by
  have hl := h.fetchLine c idx
  unfold Machine.fetchWord
  split
  · exact h
  · split
    · next heq => rwa [heq] at hl
    · next heq =>
      rw [heq] at hl
      split <;> exact hl

theorem putMgr {s : State} (h : FatalState s) (e : Event) : FatalState (putMgr s e) := by
  unfold Machine.putMgr
  split
  · exact h.modCore ..
  · exact h.modDie fun _ => rfl

theorem escalate {s : State} (h : FatalState s) (g : Nat) (code : Code) (epc : BitVec 54) (v : X) (df : Bool) :
    FatalState (escalate s g code epc v df) := (h.modCore ..).putMgr _

theorem toFirmware {s : State} (h : FatalState s) (e : Event) (stop : Bool) : FatalState (toFirmware s e stop) := by
  have hd : FatalState (Machine.modDie s fun d => { d with fwEvents := d.fwEvents ++ [e] }) := h.modDie fun _ => rfl
  unfold Machine.toFirmware
  dsimp only
  split
  · exact hd.modCore ..
  · exact hd

theorem stageTrap {s : State} (h : FatalState s) (g : Nat) (e : Event) (epc : BitVec 54) : FatalState (stageTrap s g e epc) := by
  have hw := h.fetchWord g (bits (core s g).tvec.toNat 0 54)
  unfold Machine.stageTrap
  dsimp only
  split
  · exact h.escalate ..
  · split
    · exact h.escalate ..
    · next heq =>
      rw [heq] at hw
      exact hw.modCore ..

theorem coreFault {s : State} (h : FatalState s) (c : Nat) (code : Code) (v : X) : FatalState (coreFault s c code v) := by
  unfold Machine.coreFault
  dsimp only
  split
  · exact h.toFirmware ..
  · exact h.stageTrap ..

/-! ### Monitors and contributions -/

theorem monitorsSee {s : State} (h : FatalState s) : FatalState (monitorsSee s) := by
  have sees : ∀ (t : State) (c : Nat), FatalState t → FatalState (monitorSees t c) := by
    intro t c ht
    unfold monitorSees
    split
    · split
      · exact ht.modCore ..
      · exact ht
    · exact ht
  unfold Machine.monitorsSee
  split
  · exact h
  · exact foldl (fun _ _ ht => ht.onDie _ fun _ hu => foldl sees _ hu) _ h

theorem applyContribution {s : State} (h : FatalState s) (k : Contribution) : FatalState (applyContribution s k) :=
  ((h.storeLine ..).invalidateCode ..).onDie _ fun _ ht => (ht.refreshCaptured ..).refreshCaptured ..

theorem drainSequenced (n : Nat) {s : State} (h : FatalState s) (ln : Nat) : FatalState (drainSequenced s ln n) := by
  induction n generalizing s with
  | zero => exact h
  | succ n ih =>
    unfold Machine.drainSequenced
    dsimp only
    split
    · exact h
    · next c _ =>
      have erased : FatalState (Machine.modDieAt s (homeDie ln) fun d => { d with reds := d.reds.erase c }) :=
        h.modDieAt _ fun _ hd => hd
      exact ih (erased.applyContribution c).monitorsSee

theorem acceptContribution {s : State} (h : FatalState s) (k : Contribution) : FatalState (acceptContribution s k) := by
  unfold Machine.acceptContribution
  split
  · exact (h.applyContribution k).monitorsSee.drainSequenced ..
  · exact h.modDieAt _ fun _ hd => hd

theorem settleContribution {s : State} (h : FatalState s) (k : Contribution) (ok : Bool) : FatalState (settleContribution s k ok) := by
  unfold Machine.settleContribution
  have hp := h.sendPacket (homeDie k.line) k.die .response []
  refine hp.onDie k.die fun t ht => ?_
  split
  · exact ht
  · exact ht.modCore ..
  · exact ht.modCore ..
  · split
    · exact (ht.modCore ..).coreFault ..
    · exact ht

theorem judgeContribution {s : State} (h : FatalState s) (n k : Nat) : FatalState (judgeContribution s n k) := by
  have erased : ∀ k, FatalState (Machine.modDieAt s n fun d => { d with reds := d.reds.eraseIdx k }) := fun k =>
    h.modDieAt _ fun _ hd => hd
  unfold Machine.judgeContribution
  split
  · exact h
  · split
    · exact h
    · split
      · exact h.modDieAt _ fun _ hd => hd
      · dsimp only
        split
        · exact ((erased k).acceptContribution _).settleContribution ..
        · exact (erased k).settleContribution ..

theorem judgeWaiting (n : Nat) {s : State} (h : FatalState s) : FatalState (judgeWaiting n s) := by
  induction n generalizing s with
  | zero => exact h
  | succ n ih =>
    unfold Machine.judgeWaiting
    split
    · exact ih (h.judgeContribution ..)
    · exact h

/-- WHAT FOLLOWS EVERY TURN leaves the module fatal. -/
theorem settleTurn {s : State} (h : FatalState s) : FatalState (settleTurn s) := by
  unfold Machine.settleTurn
  dsimp only
  split
  · exact h.monitorsSee
  · exact ((foldl (fun t n ht => (ht.focus _).judgeWaiting _) _ h.monitorsSee).focus _).monitorsSee

/-! ### Hosts, peers and links -/

theorem requestReport {s : State} (h : FatalState s) (nonce : BitVec 256) : FatalState (requestReport s nonce) := by
  unfold Machine.requestReport
  split <;> exact h.of_dies rfl rfl

theorem externalAttr {s : State} (h : FatalState s) (pa : Nat) : FatalState (externalAttr s pa).1 := by
  have hl := (h.focus (Fin.ofNat 24 (homeDie (pa / 64)))).units
    (sameUnits_findLeaf _ noTlb (dieAt s (homeDie (pa / 64))).xattr (fun _ => true) pa)
  unfold Machine.externalAttr
  dsimp only
  split
  · split <;> next heq => rw [heq] at hl; exact hl.focus _
  · exact h

theorem externalLine {s : State} (h : FatalState s) (io pa : Nat) (data : List Byte) : FatalState (externalLine s io pa data) := by
  unfold Machine.externalLine
  dsimp only
  split
  · exact h
  · split
    · exact h.performBytes ..
    · have ha := (h.sendPacket io (homeDie (pa / 64)) .request data).externalAttr pa
      split
      · exact ha.modDieAt _ fun _ hd => hd
      · exact ha.performBytes ..

theorem externalWrite {s : State} (h : FatalState s) (io pa : Nat) (data : List Byte) : FatalState (externalWrite s io pa data) := by
  refine foldl (fun t p ht => ?_) _ h
  split
  · exact ht
  · exact ht.externalLine ..

theorem externalReadLine {s : State} (h : FatalState s) (io pa n : Nat) : FatalState (externalReadLine s io pa n).2 := by
  unfold Machine.externalReadLine
  split
  · exact h
  · dsimp only
    have ha : FatalState (if place pa == .hbm then Machine.externalAttr s pa else (s, ⟨0, 0, false⟩)).1 := by
      split
      · exact h.externalAttr pa
      · exact h
    exact (((ha.focus _).readPlace ..).focus _).sendRead ..

theorem externalRead {s : State} (h : FatalState s) (io pa n : Nat) : FatalState (externalRead s io pa n).2 := by
  unfold Machine.externalRead
  generalize splitLines pa (List.replicate n 0) = l
  suffices ∀ acc : List Byte × State, FatalState acc.2 → FatalState (l.foldl _ acc).2 from this _ h
  induction l with
  | nil => exact fun _ ha => ha
  | cons p l ih =>
    refine fun acc ha => ih _ ?_
    dsimp only
    split
    · exact ha
    · exact ha.externalReadLine ..

theorem clearEthernet {s : State} (h : FatalState s) (p : Nat) : FatalState (clearEthernet s p) := h.fresh.fresh.modEth ..

theorem arrivePacket {s : State} (h : FatalState s) (k : Nat) : FatalState (arrivePacket s k) := by
  unfold Machine.arrivePacket
  dsimp only
  split
  · exact h
  · split
    · exact h.modLink ..
    · exact (h.modLink ..).modLink ..

theorem enterFatal {s : State} (h : FatalState s) (cause : Nat) : FatalState (enterFatal s cause) := by
  simpa [Machine.enterFatal, h.1] using h

/-- An event that names no agent of a die. -/
theorem machineEvent {s t : State} {b : Bool} {f : State → State} (h : FatalState s) (he : machineEvent s b f = .next t)
    (hf : FatalState (f s)) : FatalState t := by
  cases he
  split
  · exact hf
  · exact h

/-- EVERY EVENT that still happens in the fatal state, but a power-on reset, keeps it. -/
theorem exec {s t : State} {i : Instr} (h : FatalState s) (hi : fatalEvent i = true) (hr : i ≠ .powerOnReset)
    (he : Machine.exec i s = .next t) : FatalState t := by
  cases i with
  | powerOnReset => exact absurd rfl hr
  | softError =>
    rw [exec_softError, execSoftError] at he
    exact h.machineEvent he (h.enterFatal 1)
  | powerFatal =>
    rw [exec_powerFatal, execPowerFatal] at he
    exact h.machineEvent he (h.enterFatal 2)
  | temperatureFatal =>
    rw [exec_temperatureFatal, execTemperatureFatal] at he
    exact h.machineEvent he (h.enterFatal 3)
  | fatalDumpDone =>
    rw [exec_fatalDumpDone, execFatalDumpDone] at he
    exact h.machineEvent he (h.of_dies rfl rfl)
  | attestationRequest =>
    rw [exec_attestationRequest, execAttestationRequest] at he
    exact h.machineEvent he (h.requestReport _)
  | attestationReport =>
    rw [exec_attestationReport, execAttestationReport] at he
    split at he
    · exact h.machineEvent he h
    · exact h.machineEvent he (h.of_dies rfl rfl)
  | hostWrite =>
    rw [exec_hostWrite, execHostWrite] at he
    refine h.machineEvent he ?_
    split
    · split
      · exact h.requestReport _
      · exact h.externalWrite ..
    · exact h.performBytes ..
    · exact h.externalWrite ..
  | hostRead =>
    rw [exec_hostRead, execHostRead] at he
    exact h.machineEvent he ((h.externalRead ..).of_dies rfl rfl)
  | hostLaunchWrite =>
    rw [exec_hostLaunchWrite, execHostLaunchWrite] at he
    exact h.machineEvent he ((h.sendPacket ..).launchWrite ..)
  | peerWrite =>
    rw [exec_peerWrite, execPeerWrite] at he
    refine h.machineEvent he ?_
    split
    · exact (h.modEth ..).externalWrite ..
    · exact h.clearEthernet _
  | peerRead p addr n =>
    rw [exec_peerRead, execPeerRead] at he
    have answered := (h.externalRead (ioOfPort p) addr n).sendAnswer p addr (Machine.externalRead s (ioOfPort p) addr n).1
    exact h.machineEvent he (answered.of_dies rfl rfl)
  | brunexPacketArrival =>
    rw [exec_brunexPacketArrival, execBrunexPacketArrival] at he
    exact h.machineEvent he (h.arrivePacket _)
  | linkRetrain =>
    rw [exec_linkRetrain, execLinkRetrain] at he
    exact h.machineEvent he (h.modLink ..)
  | ethernetLinkEvent =>
    rw [exec_ethernetLinkEvent, execEthernetLinkEvent] at he
    exact h.machineEvent he (h.clearEthernet _)
  | ptpEventTimestamp =>
    rw [exec_ptpEventTimestamp, execPtpEventTimestamp] at he
    exact h.machineEvent he (h.fresh.mapDies
      (f := fun d => { d with slew := ((Config.freeValue s.free).toNat % 11 : Nat) - 5 }) (fun _ => rfl) rfl rfl)
  | _ => exact absurd hi Bool.false_ne_true

end FatalState

/-! ### The turn -/

/-- No event of the fatal state asks a unit, so none gives way to one. -/
theorem requestOf_fatalEvent {i : Instr} (h : fatalEvent i = true) (s : State) : requestOf s i = none := by
  cases i with
  | powerOnReset | fatalDumpDone | attestationRequest | attestationReport | hostWrite | hostRead | peerWrite | peerRead
  | brunexPacketArrival | linkRetrain | ethernetLinkEvent | hostLaunchWrite | ptpEventTimestamp | softError | powerFatal
  | temperatureFatal => rfl
  | _ => exact absurd h Bool.false_ne_true

theorem FatalState.agentTurn {s t : State} {n : Turn} (h : FatalState s) (hn : n ≠ .event .powerOnReset)
    (ht : agentTurn s n = .next t) : FatalState t := by
  cases n with
  | core | region | tick => simp [Machine.agentTurn, h.1] at ht
  | die n =>
    cases ht
    exact h.focus n
  | event i =>
    simp only [Machine.agentTurn, h.1, Bool.true_and] at ht
    split at ht
    · cases ht
      exact h
    · cases hi : fatalEvent i with
      | false => simp [hi] at ht
      | true =>
        rw [hi, giveWay_of_none (requestOf_fatalEvent hi s)] at ht
        exact h.exec hi (fun e => hn (e ▸ rfl)) ht

theorem FatalState.nextTurn {s : State} (h : FatalState s) : FatalState (nextTurn s).2 := by
  unfold Machine.nextTurn
  split
  · exact h
  · exact h.of_dies rfl rfl

/-- Settles O58: a turn of an agent of a die faults, and every other turn but a reset is an event that keeps the fatal state. -/
theorem fatalStateIsKeptUntilReset : Obligations.FatalStateIsKeptUntilReset := by
  intro s h
  have stops : ∀ n, (nextTurn s).1 = n → Machine.agentTurn (nextTurn s).2 n = .fault .fatalState → step s = .fault .fatalState :=
    fun n hn ht => by rw [step, turn, hn, ht, onNext]
  refine ⟨fun c hc => stops _ hc ?_, fun g hg => stops _ hg ?_, fun ht => stops _ ht ?_, fun t ht hn => ?_⟩
  · simp [Machine.agentTurn, h.1]
  · simp [Machine.agentTurn, h.1]
  · simp [Machine.agentTurn, h.1]
  · unfold step turn at ht
    cases ha : Machine.agentTurn (nextTurn s).2 (nextTurn s).1 with
    | next u =>
      rw [ha] at ht
      cases ht
      exact (h.nextTurn.agentTurn hn ha).settleTurn
    | fault r => simp [ha, onNext] at ht
    | refused r => simp [ha, onNext] at ht

end Sys2Proof.Machine
end

section
/-! PROOFS. Every instruction and event answers a next state, and a turn faults in the fatal state alone (R312, spec/25: opcode table). -/

namespace Sys2Proof.Machine

/-- A result that is a next state. -/
def Answers (r : Result) : Prop := ∃ t, r = .next t

theorem answers_next (t : State) : Answers (.next t) := ⟨t, rfl⟩
theorem answers_event (i : Instr) (s : State) (b : Bool) (f : State → State) : Answers (event i s b f) := ⟨_, rfl⟩
theorem answers_machineEvent (s : State) (b : Bool) (f : State → State) : Answers (machineEvent s b f) := ⟨_, rfl⟩
theorem Answers.onNext {r : Result} (h : Answers r) (f : State → State) : Answers (onNext f r) := by
  obtain ⟨t, rfl⟩ := h
  exact ⟨f t, rfl⟩

/-- AN EVENT ANSWERS: it is one call of `event` or of `machineEvent`, which some make by what they find of their agent. -/
theorem answers_exec_of_event {i : Instr} (h : isWord i = false) (s : State) : Answers (exec i s) := by
  cases i with
  | windowDataArrival => rw [exec_windowDataArrival, execWindowDataArrival]; split <;> exact answers_event ..
  | windowClose => rw [exec_windowClose, execWindowClose]; split <;> exact answers_event ..
  | cueRelease => rw [exec_cueRelease, execCueRelease]; split <;> exact answers_event ..
  | understudySwitch => rw [exec_understudySwitch, execUnderstudySwitch]; split <;> exact answers_event ..
  | loadcfgInstall => rw [exec_loadcfgInstall, execLoadcfgInstall]; split <;> exact answers_event ..
  | gatherRowArrival => rw [exec_gatherRowArrival, execGatherRowArrival]; split <;> exact answers_event ..
  | unitTokenEmit => rw [exec_unitTokenEmit, execUnitTokenEmit]; split <;> exact answers_event ..
  | remoteBufputArrival => rw [exec_remoteBufputArrival, execRemoteBufputArrival]; split <;> exact answers_event ..
  | scalarChannelArrival => rw [exec_scalarChannelArrival, execScalarChannelArrival]; split <;> exact answers_event ..
  | vectorChannelArrival => rw [exec_vectorChannelArrival, execVectorChannelArrival]; split <;> exact answers_event ..
  | mwaitReturn => rw [exec_mwaitReturn, execMwaitReturn]; split <;> exact answers_event ..
  | barwReturn => rw [exec_barwReturn, execBarwReturn]; split <;> exact answers_event ..
  | graphEnd => rw [exec_graphEnd, execGraphEnd]; split <;> exact answers_event ..
  | wdogPreempt => rw [exec_wdogPreempt, execWdogPreempt, wdEvent]; split <;> exact answers_machineEvent ..
  | wdogKill => rw [exec_wdogKill, execWdogKill, wdEvent]; split <;> exact answers_machineEvent ..
  | wdogFence => rw [exec_wdogFence, execWdogFence, wdEvent]; split <;> exact answers_machineEvent ..
  | converterTokenIn =>
    rw [exec_converterTokenIn, execConverterTokenIn]
    split
    · split <;> exact answers_event ..
    · split <;> exact answers_event ..
  | attestationReport => rw [exec_attestationReport, execAttestationReport]; split <;> exact answers_machineEvent ..
  | prefComplete => rw [exec_prefComplete, execPrefComplete]; split <;> exact answers_machineEvent ..
  | saveComplete =>
    rw [exec_saveComplete, execSaveComplete]
    split
    · exact answers_machineEvent ..
    · split <;> exact answers_machineEvent ..
  | freezeLimit => rw [exec_freezeLimit, execFreezeLimit]; exact answers_event ..
  | invocationEnd => rw [exec_invocationEnd, execInvocationEnd]; exact answers_event ..
  | reconfTokenPass => rw [exec_reconfTokenPass, execReconfTokenPass]; exact answers_event ..
  | scoreFiring => rw [exec_scoreFiring, execScoreFiring]; exact answers_event ..
  | descendFiring => rw [exec_descendFiring, execDescendFiring]; exact answers_event ..
  | treeupdFiring => rw [exec_treeupdFiring, execTreeupdFiring]; exact answers_event ..
  | queryPin => rw [exec_queryPin, execQueryPin]; exact answers_event ..
  | queryUnpin => rw [exec_queryUnpin, execQueryUnpin]; exact answers_event ..
  | pkeyFiring => rw [exec_pkeyFiring, execPkeyFiring]; exact answers_event ..
  | cascellHeader => rw [exec_cascellHeader, execCascellHeader]; exact answers_event ..
  | cascellCollect => rw [exec_cascellCollect, execCascellCollect]; exact answers_event ..
  | cascellDrain => rw [exec_cascellDrain, execCascellDrain]; exact answers_event ..
  | cumselSampleFiring => rw [exec_cumselSampleFiring, execCumselSampleFiring]; exact answers_event ..
  | cumselVerifyFiring => rw [exec_cumselVerifyFiring, execCumselVerifyFiring]; exact answers_event ..
  | acceptFiring => rw [exec_acceptFiring, execAcceptFiring]; exact answers_event ..
  | grammarStepFiring => rw [exec_grammarStepFiring, execGrammarStepFiring]; exact answers_event ..
  | grammarMaskFiring => rw [exec_grammarMaskFiring, execGrammarMaskFiring]; exact answers_event ..
  | gatherFiring => rw [exec_gatherFiring, execGatherFiring]; exact answers_event ..
  | reduceFiring => rw [exec_reduceFiring, execReduceFiring]; exact answers_event ..
  | quantFiring => rw [exec_quantFiring, execQuantFiring]; exact answers_event ..
  | switchSteer => rw [exec_switchSteer, execSwitchSteer]; exact answers_event ..
  | switchMerge => rw [exec_switchMerge, execSwitchMerge]; exact answers_event ..
  | switchCopy => rw [exec_switchCopy, execSwitchCopy]; exact answers_event ..
  | distributorSendBeat => rw [exec_distributorSendBeat, execDistributorSendBeat]; exact answers_event ..
  | streamProducerStart => rw [exec_streamProducerStart, execStreamProducerStart]; exact answers_event ..
  | streamCommandFinish => rw [exec_streamCommandFinish, execStreamCommandFinish]; exact answers_event ..
  | redseqPlaceFree => rw [exec_redseqPlaceFree, execRedseqPlaceFree]; exact answers_event ..
  | asyncEventTake => rw [exec_asyncEventTake, execAsyncEventTake]; exact answers_event ..
  | graphStart => rw [exec_graphStart, execGraphStart]; exact answers_event ..
  | softError => rw [exec_softError, execSoftError]; exact answers_machineEvent ..
  | fatalDumpDone => rw [exec_fatalDumpDone, execFatalDumpDone]; exact answers_machineEvent ..
  | powerAverageHigh => rw [exec_powerAverageHigh, execPowerAverageHigh]; exact answers_machineEvent ..
  | powerFatal => rw [exec_powerFatal, execPowerFatal]; exact answers_machineEvent ..
  | temperatureFatal => rw [exec_temperatureFatal, execTemperatureFatal]; exact answers_machineEvent ..
  | powerOnReset => rw [exec_powerOnReset, execPowerOnReset]; exact answers_machineEvent ..
  | bringUpComplete => rw [exec_bringUpComplete, execBringUpComplete]; exact answers_machineEvent ..
  | attestationRequest => rw [exec_attestationRequest, execAttestationRequest]; exact answers_machineEvent ..
  | hostWrite => rw [exec_hostWrite, execHostWrite]; exact answers_machineEvent ..
  | hostRead => rw [exec_hostRead, execHostRead]; exact answers_machineEvent ..
  | peerWrite => rw [exec_peerWrite, execPeerWrite]; exact answers_machineEvent ..
  | peerRead => rw [exec_peerRead, execPeerRead]; exact answers_machineEvent ..
  | brunexPacketArrival => rw [exec_brunexPacketArrival, execBrunexPacketArrival]; exact answers_machineEvent ..
  | linkRetrain => rw [exec_linkRetrain, execLinkRetrain]; exact answers_machineEvent ..
  | ethernetLinkEvent => rw [exec_ethernetLinkEvent, execEthernetLinkEvent]; exact answers_machineEvent ..
  | ptpEventTimestamp => rw [exec_ptpEventTimestamp, execPtpEventTimestamp]; exact answers_machineEvent ..
  | powerAverageNormal => rw [exec_powerAverageNormal, execPowerAverageNormal]; exact answers_machineEvent ..
  | hostLaunchWrite => rw [exec_hostLaunchWrite, execHostLaunchWrite]; exact answers_machineEvent ..
  | silenceEviction => rw [exec_silenceEviction, execSilenceEviction]; exact answers_machineEvent ..
  | pageTableWalk => rw [exec_pageTableWalk, execPageTableWalk]; exact answers_machineEvent ..
  | codecBlockOperation => rw [exec_codecBlockOperation, execCodecBlockOperation]; exact answers_machineEvent ..
  | redseqArrival => rw [exec_redseqArrival, execRedseqArrival]; exact answers_machineEvent ..
  | _ => cases h

/-- EVERY INSTRUCTION AND EVENT answers a next state, in every state. -/
theorem answers_exec (i : Instr) (s : State) : Answers (exec i s) := by
  cases hi : isWord i with
  | true =>
    obtain ⟨f, g, he⟩ := exec_of_word hi s
    rw [he]
    exact word_answers f g
  | false => exact answers_exec_of_event hi s

theorem answers_runWord (s : State) (c : Nat) (w : Word) : Answers (runWord s c w) := by
  unfold runWord
  split
  · split
    · exact answers_next _
    · exact answers_exec ..
  · exact answers_next _

theorem answers_runCore (s : State) (c : Nat) : Answers (runCore s c) := by
  unfold runCore
  split
  · exact answers_runWord ..
  · exact answers_next _
  · exact answers_next _

theorem answers_coreTurn (s : State) (c : Fin 33) : Answers (coreTurn s c) := by
  unfold coreTurn
  dsimp only
  split
  · exact answers_next _
  split
  · exact answers_next _
  split
  · exact answers_exec ..
  split
  · exact answers_next _
  cases (core s c).wait with
  | none => exact answers_runCore ..
  | mwait | barw | load => exact answers_exec ..
  | reconf =>
    dsimp only
    split
    · exact answers_exec ..
    · exact answers_next _
  | retry | redseq | rtyw | query => exact answers_next _

theorem answers_elemTurn (s : State) (g : Fin 32) (k : Nat) : Answers (elemTurn s g k) := by
  refine Answers.onNext ?_ _
  split
  · exact answers_next _
  · split
    · exact answers_exec ..
    · exact answers_next _

theorem answers_regionTurn (s : State) (g : Fin 32) : Answers (regionTurn s g) := by
  unfold regionTurn
  generalize (if (region s g).cursor == 0 then askAgain s g else s) = t
  dsimp only
  split
  · exact answers_next _
  split
  · exact answers_next _
  split
  · exact answers_next _
  split
  · exact answers_elemTurn ..
  split
  · split
    · exact answers_exec ..
    · exact answers_next _
  · exact answers_next _

theorem answers_tickTurn (s : State) : Answers (tickTurn s) := by
  unfold tickTurn
  split <;> exact answers_next _

/-- A turn of an agent answers, but where the module is in the fatal state and the turn is its fault. -/
theorem agentTurn_answers_or_faults (s : State) (n : Turn) :
    Answers (agentTurn s n) ∨ s.io.fatal = true ∧ agentTurn s n = .fault .fatalState := by
  cases hf : s.io.fatal with
  | true =>
    cases n with
    | core | region | tick => exact .inr ⟨rfl, by simp [agentTurn, hf]⟩
    | die n => exact .inl (answers_next _)
    | event i =>
      simp only [agentTurn, hf, Bool.true_and]
      split
      · exact .inl (answers_next _)
      · split
        · exact .inr ⟨trivial, rfl⟩
        · exact .inl (answers_exec ..)
  | false =>
    refine .inl ?_
    cases n with
    | core c => simpa [agentTurn, hf] using answers_coreTurn s c
    | region g => simpa [agentTurn, hf] using answers_regionTurn s g
    | tick => simpa [agentTurn, hf] using answers_tickTurn s
    | die n => exact answers_next _
    | event i =>
      simp only [agentTurn, hf, Bool.false_and, Bool.false_eq_true, if_false]
      split
      · exact answers_next _
      · exact answers_exec ..

/-- Settles O6: every word is one call of `word`, every event one of `event`, and a turn of an agent is made of them. -/
theorem everyStepAnswers : Obligations.EveryStepAnswers := by
  refine ⟨answers_exec, fun s => ?_⟩
  have hs : step s = onNext settleTurn (agentTurn (nextTurn s).2 (nextTurn s).1) := rfl
  rcases agentTurn_answers_or_faults (nextTurn s).2 (nextTurn s).1 with h | ⟨hf, h⟩
  · rw [hs]
    exact .inl (h.onNext settleTurn)
  · rw [hs, h]
    exact .inr ⟨io_nextTurn s ▸ hf, rfl⟩

end Sys2Proof.Machine
end

section
/-! PROOFS. Which numbers name a system register in each context (R84, R395, Table 22-4). -/

namespace Sys2Proof.Machine

/-- The registers of a core itself stand below 0x400, those of regions and queues from there on. -/
theorem srOwn_of_le {c n : Nat} (h : 0x400 ≤ n) : srOwn c n = none := by
  unfold srOwn
  simp only [beq_iff_eq, Bool.and_eq_true, decide_eq_true_eq]
  repeat rw [if_neg (by omega)]

theorem srFar_of_lt {n : Nat} (h : n < 0x400) : srFar n = none := if_pos h

theorem stageNumber_iff (n : Nat) : stageNumber n = true ↔ (0x10 ≤ n ∧ n ≤ 0x18) ∨ n = 0x30 := by simp [stageNumber]
theorem mgrNumber_iff (n : Nat) : mgrNumber n = true ↔ n = 0x40 ∨ n = 0x41 ∨ n = 0x61 ∨ n = 0x62 ∨ n = 0x90 := by
  simp [mgrNumber, or_assoc]

/-- The numbers that a context may name (Table 22-4). -/
def mayName (k : Kind) (n : Nat) : Bool :=
  match k with
  | .elem => n == 0 || n == 0x20
  | .stage => decide (n < 0x400) && !mgrNumber n
  | .mgr => !stageNumber n

/-- What a number comes to in a context: nothing, the register it names, or PRIV. -/
theorem srOf_eq (k : Kind) (c n : Nat) :
    srOf k c n = match (srOwn c n).or (srFar n) with
      | none => .error 0x01
      | some r => if mayName k n then .ok r else .error 0x03 := by
  by_cases hn : n < 0x400
  · unfold srOf
    rw [srFar_of_lt hn, Option.or_none]
    cases srOwn c n with
    | none => rfl
    | some r =>
      cases k with
      | elem => rfl
      | stage => cases hm : mgrNumber n <;> simp [mayName, hn, hm]
      | mgr => cases hs : stageNumber n <;> simp [mayName, hs]
  · have hs : stageNumber n = false := by
      rw [← Bool.not_eq_true, stageNumber_iff]
      omega
    have h0 : (n == 0 || n == 0x20) = false := by
      simp
      omega
    unfold srOf
    rw [srOwn_of_le (by omega), Option.none_or]
    cases srFar n with
    | none => rfl
    | some r => cases k <;> simp [mayName, hn, hs, h0]

/-- Settles O51: a number is known to a context or to none, and each context may name its own. -/
theorem systemRegisterPrivileges : Obligations.SystemRegisterPrivileges := by
  intro k c n known mine managers may
  have hk : known ↔ ((srOwn c n.toNat).or (srFar n.toNat)).isSome = true := by simp [known, Option.isSome_or]
  have hm : may ↔ mayName k n.toNat = true := by
    cases k with
    | elem => simp [may, mayName, ← BitVec.toNat_inj]
    | stage =>
      have hg := mgrNumber_iff n.toNat
      simp [may, managers, mayName, ← BitVec.toNat_inj, ← Bool.not_eq_true, hg]
    | mgr =>
      have hg := stageNumber_iff n.toNat
      simp [may, mine, mayName, ← BitVec.toNat_inj, ← Bool.not_eq_true, hg]
  rw [srOf_eq]
  cases hr : (srOwn c n.toNat).or (srFar n.toNat) with
  | none => simp [hk, hr]
  | some r =>
    cases hmay : mayName k n.toNat <;> simp [hk, hr, hm, hmay]

end Sys2Proof.Machine
end

section
/-! PROOFS. What an integer word leaves: every flag, every fault, memory, and everything but its result (R336). -/

namespace Sys2Proof.Machine

/-! ### In a core -/

section
variable {s t : State} (h : OnlyCores s t)
include h

theorem OnlyCores.region (g : Nat) : Machine.region t g = Machine.region s g := by
  unfold Machine.region
  rw [h.2.1]
theorem OnlyCores.mgrWait : (die t).mgrWait = (die s).mgrWait := by rw [h.2.1]
theorem OnlyCores.fwEvents : (die t).fwEvents = (die s).fwEvents := by rw [h.2.1]

end

/-- A core after a result differs in its registers, its pc, and what its word has been supplied with. -/
theorem core_retX (s : State) (d : Reg) (v : X) (c : Nat) : core (retX s d v) c = { core s c with
    x := (core (retX s d v) c).x, pc := (core (retX s d v) c).pc, supplied := (core (retX s d v) c).supplied
    issued := (core (retX s d v) c).issued, awaits := (core (retX s d v) c).awaits } := by
  by_cases hc : myCore s = c
  · subst hc
    rw [core_retX_same, core_setX_same _ _ _ _ (myCore_lt s)]
  · rw [core_retX_ne _ _ _ _ hc]

/-- A result changes its register alone. -/
theorem xreg_retX_ne {s : State} {d : Reg} {c r : Nat} (v : X) (h : c ≠ myCore s ∨ r ≠ d.toNat) :
    xreg (retX s d v) c r = xreg s c r := by
  rw [retX, xreg_advance, xreg_setX_ne _ _ _ _ _ _ (h.imp Ne.symm Ne.symm)]

/-- An integer word of a core ends in its result. -/
theorem exec_int_of_core {f : IntFields} {s : State} {p : Instr × BitVec 64}
    (hp : p ∈ (.movh f.h f.d f.a f.imm, (f.imm ++ (xval s f.a).setWidth 32 : BitVec 64)) :: integerResults 64 (xval s) f)
    (hr : CoreRuns p.1 s) : exec p.1 s = .next (retX s f.d p.2) := by
  rcases List.mem_cons.mp hp with rfl | hp
  · exact integerWordsInCores.2 f s hr
  · exact integerWordsInCores.1 f s p hp hr

/-! ### In an element -/

section
variable {s t : State} {g k : Nat} (h : OnlyElem s t g k)
include h

theorem OnlyElem.core (c : Nat) : Machine.core t c = Machine.core s c := by
  unfold Machine.core
  rw [h.die]

/-- No region's faults, state or invocation move. -/
theorem OnlyElem.regionParts (g' : Nat) : (Machine.region t g').faults = (Machine.region s g').faults ∧
    (Machine.region t g').state = (Machine.region s g').state ∧ (Machine.region t g').inv = (Machine.region s g').inv := by
  by_cases hg : g' = g
  · subst hg
    rw [h.region]
    exact ⟨rfl, rfl, rfl⟩
  · rw [h.regions g' hg]
    exact ⟨rfl, rfl, rfl⟩

theorem OnlyElem.elemAt_ne {g' k' : Nat} (hk : g' ≠ g ∨ k' ≠ k) : elemAt t g' k' = elemAt s g' k' := by
  by_cases hg : g' = g
  · subst hg
    exact h.elems k' (hk.resolve_left (fun hn => hn rfl))
  · unfold elemAt
    rw [h.regions g' hg]

end

/-- An element's word that retires moves its element alone. -/
theorem onlyElem_elemRetire (i : Instr) (s : State) (fx : List Fx) : OnlyElem s (elemRetire i s fx) (myRegion s) (myElemIx s) := by
  rw [elemRetire_eq]
  exact onlyElem_modElem s (myRegion s) (myElemIx s) _ (myRegion_lt s)

/-- The registers and the flags of every element stay as its word retires. -/
theorem elemAt_elemRetire (i : Instr) (s : State) (fx : List Fx) (g k : Nat) :
    (elemAt (elemRetire i s fx) g k).fflags = (elemAt s g k).fflags ∧ (elemAt (elemRetire i s fx) g k).e = (elemAt s g k).e ∧
      (elemAt (elemRetire i s fx) g k).v = (elemAt s g k).v := by
  by_cases hk : g ≠ myRegion s ∨ k ≠ myElemIx s
  · rw [(onlyElem_elemRetire i s fx).elemAt_ne hk]
    exact ⟨rfl, rfl, rfl⟩
  · rw [not_or, not_not, not_not] at hk
    rw [hk.1, hk.2, elemRetire_eq, elemAt_modMyElem]
    exact ⟨rfl, rfl, rfl⟩

/-- The record of a retiring word holds its effects, or its effects and a restart mark (R53, R88). -/
theorem pend_elemRetire (i : Instr) (s : State) (fx : List Fx) : ∃ q : Pending,
    (elemAt (elemRetire i s fx) (myRegion s) (myElemIx s)).pend = (myElem s).pend ++ [q] ∧ (q.fx = fx ∨ q.fx = fx ++ [.mark]) := by
  rw [elemRetire_eq, elemAt_modMyElem]
  refine ⟨_, rfl, ?_⟩
  dsimp only
  split
  · exact .inr rfl
  · exact .inl (List.append_nil _)

/-- Settles O10: an integer word of a core ends in its result, one of an element in one record of its result. -/
theorem integerWordsNeverSetAFlag : Obligations.IntegerWordsNeverSetAFlag := by
  refine ⟨fun f s t p hp hr ht => ?core, fun f s t p hp hr ht => ?elem⟩
  case core =>
    rw [exec_int_of_core hp hr] at ht
    cases ht
    have only := OnlyCores.retX s f.d p.2
    refine ⟨only.1.sameOutside, only.region, fun c => ?_, only.mgrWait, only.fwEvents, fun c r => xreg_retX_ne _, only.1.byteAt⟩
    rw [core_retX]
    exact ⟨rfl, rfl, rfl, rfl, rfl, rfl, rfl, rfl, rfl, rfl, rfl⟩
  case elem =>
    rw [integerWordsInElements f s p hp hr] at ht
    cases ht
    have only := onlyElem_elemRetire p.1 s [.scalar f.d p.2]
    refine ⟨only.outside.sameOutside, only.core, only.regionParts, ?_, ?_, elemAt_elemRetire _ _ _, pend_elemRetire ..,
      fun g k hk => congrArg Element.pend (only.elemAt_ne hk), only.outside.byteAt⟩
    · rw [only.die]
    · rw [only.die]

end Sys2Proof.Machine
end

section
/-! PROOFS. Monitors and fences: MARM, MWAIT with its return, and FENCE at each scope (R286, R287, R368, R392). -/

namespace Sys2Proof.Machine

/-! ### Monitors -/

section
variable {h : Hdr} {d a : Reg} {s t : State} {x : Xlat}

theorem exec_marm_of_translated (hr : CoreRuns (.marm h a) s) (hva : (xval s a).toNat % 8 = 0)
    (ht : translate s (coreCtx s (myCore s)) .read (xval s a).toNat = (t, .ok x)) (hp : place x.pa = .hbm) :
    exec (.marm h a) s = .next (modCore (advance t) (myCore t) fun k => { k with mon := some (x.pa, x.codec, x.key) }) := by
  rw [exec_marm, execMarm, coreWord_of_core hr]
  simp only [hva, ht, hp, bne_self_eq_false, Bool.false_eq_true, if_false, coreOutcome_ok]

/-- MWAIT by what the core monitors: the value that stands there, or the wait for it. -/
theorem exec_mwait_of_armed (hr : CoreRuns (.mwait h d a) s) (hm : (core s (myCore s)).mon ≠ none) :
    exec (.mwait h d a) s = .next (if (xval s a).toNat ≤ (monitored s (myCore s)).1.toNat
      then retX (monitored s (myCore s)).2 d (monitored s (myCore s)).1
      else modCore s (myCore s) fun k => { k with wait := .mwait d (xval s a) none }) := by
  have hn : (core s (myCore s)).mon.isNone = false := Option.isNone_eq_false_iff.mpr (Option.isSome_iff_ne_none.mpr hm)
  rw [exec_mwait, execMwait, coreWord_of_core hr]
  simp only [hn, Bool.false_eq_true, if_false, BitVec.le_def]
  split <;> rfl

theorem exec_mwait_of_unarmed (hr : CoreRuns (.mwait h d a) s) (hm : (core s (myCore s)).mon = none) :
    exec (.mwait h d a) s = .next (coreFault s (myCore s) 0x01 0) := by
  rw [exec_mwait, execMwait, coreWord_of_core hr]
  simp only [hm, Option.isNone_none, if_true, coreOutcome_trap]

end

theorem exec_mwaitReturn_of_met {s : State} {c : Nat} {d : Reg} {thr : X} {met : Option X} (hw : (core s c).wait = .mwait d thr met)
    (hm : met ≠ none ∨ thr.toNat ≤ (monitored s c).1.toNat) (ha : AgentRuns (.mwaitReturn c)) :
    exec (.mwaitReturn c) s = .next (modCore (setX (monitored s c).2 c d.toNat (met.getD (monitored s c).1)) c fun k =>
      { k with wait := .none, pc := k.pc + 1, supplied := [], issued := none }) := by
  have he : (met.isSome || decide (thr.toNat ≤ (monitored s c).1.toNat)) = true := by
    simpa [Option.isSome_iff_ne_none] using hm
  rw [exec_mwaitReturn, execMwaitReturn, hw]
  exact event_of_enabled ha he

/-! ### Fences -/

/-- A contribution of a core of the focused die is under way, or waits at its home. -/
def contributionOpen (s : State) (c : Nat) : Bool :=
  (List.range 24).any fun n => (dieAt s n).reds.any fun k => k.die == s.cur.val && ofCore c k

theorem contributionOpen_iff (s : State) (c : Nat) :
    contributionOpen s c = true ↔ ∃ n, ∃ k ∈ (dieAt s n).reds, n < 24 ∧ k.die = s.cur.val ∧ ofCore c k = true := by
  simp only [contributionOpen, List.any_eq_true, List.mem_range, Bool.and_eq_true, beq_iff_eq]
  exact ⟨fun ⟨n, hn, k, hk, h⟩ => ⟨n, k, hk, hn, h⟩, fun ⟨n, k, hk, hn, h⟩ => ⟨n, hn, k, hk, h⟩⟩

theorem framesOpen_iff (s : State) (n c : Nat) :
    framesOpen s n c = true ↔ ∃ p ∈ s.io.eth, ∃ f ∈ p.2.unacked, f.die = n ∧ c ∈ f.parties := by
  simp [framesOpen, frameOpen]

section
variable {h : Hdr} {scope : BitVec 3} {s : State}

theorem exec_fence_elem (hr : ElemRuns (.fence h scope) s) : exec (.fence h scope) s = .next (elemRetire (.fence h scope) s []) := by
  rw [exec_fence, execFence, word_of_elem hr, elemOutcome_ok]

/-- FENCE in a core: its scope, and what of it is still open. -/
theorem exec_fence_core (hr : CoreRuns (.fence h scope) s) : exec (.fence h scope) s = .next (
    if 3 ≤ scope.toNat ∧ contributionOpen s (myCore s) = true then s
    else if scope = 4 ∧ framesOpen s s.cur.val (myCore s) = true then s
    else if scope = 4 then
      modCore (advance ((core s (myCore s)).wrote.foldl (fun s ln => invalidateCode s ln true) s)) (myCore s) fun k => { k with wrote := [] }
    else advance s) := by
  have h4 : (scope.toNat == 4) = decide (scope = 4) := by
    simp only [← BitVec.toNat_inj]
    rfl
  rw [exec_fence, execFence, word_of_core hr]
  simp only [h4, Bool.and_eq_true, decide_eq_true_eq, contributionOpen, apply_ite (coreOutcome s), coreOutcome_hold, coreOutcome_ok]
  rfl

end

/-- Settles O33: each word by what the core monitors or has open. -/
theorem monitorsAndFences : Obligations.MonitorsAndFences := by
  intro h d a s t x c thr scope me opened
  have ho : opened ↔ contributionOpen s me = true := (contributionOpen_iff s me).symm
  refine ⟨exec_marm_of_translated, fun hr hm hv => ?reached, fun hr hm hv => ?waits, exec_mwait_of_unarmed,
    fun met hw hm ha => exec_mwaitReturn_of_met hw hm ha, exec_fence_elem, fun hr hs => ?region, fun hr hs hc hf => ?system,
    fun hr hs hc => ?contribution, fun hr hs hf => ?frame, framesOpen_iff s _ _⟩
  case reached => rw [exec_mwait_of_armed hr hm, if_pos hv]
  case waits => rw [exec_mwait_of_armed hr hm, if_neg (Nat.not_le.mpr hv)]
  all_goals rw [exec_fence_core hr]
  case region =>
    rcases hs with rfl | rfl | ⟨rfl, hc⟩
    · rfl
    · rfl
    · rw [if_neg fun hn => hc (ho.mpr hn.2)]
      rfl
  case system =>
    rw [if_neg fun hn => hc (ho.mpr hn.2), if_neg fun hn => Bool.false_ne_true (hf.symm.trans hn.2), if_pos hs]
  case contribution =>
    have h3 : 3 ≤ scope.toNat := by rcases hs with rfl | rfl <;> decide
    rw [if_pos ⟨h3, ho.mp hc⟩]
  case frame =>
    have hw : scope = 4 ∧ framesOpen s s.cur.val (myCore s) = true := ⟨hs, hf⟩
    rw [if_pos hw, ite_self]

end Sys2Proof.Machine
end

section
/-! PROOFS. Traps: a fetch moves nothing of a core but its code lines, a stagehand takes its fault or escalates it, and the manager takes an
event or hands it to firmware (R304, R307 to R311, R362, R450). -/

namespace Sys2Proof.Machine

/-! ### What a fetch leaves -/

/-- From `s` to `t` no core moves, but for the code lines that core `c` holds. -/
structure OnlyCode (s t : State) (c : Nat) : Prop where
  here : core t c = { core s c with l1i := (core t c).l1i }
  others : ∀ c', c' ≠ c → core t c' = core s c'

theorem OnlyCode.of_cores {s t : State} {c : Nat} (h : ∀ c', core t c' = core s c') : OnlyCode s t c :=
  ⟨by rw [h], fun c' _ => h c'⟩

theorem OnlyCode.trans {s t u : State} {c : Nat} (h : OnlyCode s t c) (k : OnlyCode t u c) : OnlyCode s u c := by
  refine ⟨?_, fun c' hc => (k.others c' hc).trans (h.others c' hc)⟩
  rw [k.here, h.here]

theorem onlyCode_modCore (s : State) (c : Nat) (f : Table (Option Line) → Table (Option Line)) :
    OnlyCode s (modCore s c fun k => { k with l1i := f k.l1i }) c := by
  refine ⟨?_, fun c' hc => core_modCore_ne _ _ _ _ (Ne.symm hc)⟩
  by_cases hc : c < 33
  · rw [core_modCore_same _ _ _ hc]
  · simp [core, vget, Vector.getD, hc]

/-- A read leaves the dies. -/
theorem dies_readBytes (s : State) (c : Ctx) (x : Xlat) (n hint : Nat) :
    (readBytes s c x n hint).2.dies = s.dies ∧ (readBytes s c x n hint).2.cur = s.cur := by
  have hplace : (readPlace s c x n hint).2.dies = s.dies ∧ (readPlace s c x n hint).2.cur = s.cur := by
    unfold readPlace
    cases place x.pa with
    | hbm => exact ⟨(sameDies_loadLine ..).dies, (sameDies_loadLine ..).cur⟩
    | _ => exact ⟨rfl, rfl⟩
  exact ⟨(sameDies_sendRead ..).dies.trans hplace.1, (sameDies_sendRead ..).cur.trans hplace.2⟩

theorem core_readBytes (s : State) (c : Ctx) (x : Xlat) (n hint c' : Nat) : core (readBytes s c x n hint).2 c' = core s c' := by
  unfold core die
  simp only [dies_readBytes]

theorem onlyCode_fetchLine (s : State) (c idx : Nat) : OnlyCode s (fetchLine s c idx).1 c := by
  have ht : OnlyCode s (translate s (coreCtx s c) .fetch (codeLine idx)).1 c := .of_cores (sameUnits_translate ..).core
  unfold fetchLine
  dsimp only
  split
  · exact .of_cores fun _ => rfl
  · split
    · next heq => rwa [heq] at ht
    · next s' x heq =>
      rw [heq] at ht
      split
      · exact ht
      · split
        · exact ht
        · have hr : OnlyCode s (readBytes s' (coreCtx s' c) x 64 0).2 c := ht.trans (.of_cores (core_readBytes _ _ _ _ _))
          split
          · exact hr.trans (onlyCode_modCore ..)
          · exact hr

/-- THE FETCH OF A WORD. -/
theorem onlyCode_fetchWord (s : State) (c idx : Nat) : OnlyCode s (fetchWord s c idx).1 c := by
  have hl := onlyCode_fetchLine s c idx
  unfold fetchWord
  split
  · exact .of_cores fun _ => rfl
  · split
    · next heq => rwa [heq] at hl
    · next heq =>
      rw [heq] at hl
      split <;> exact hl

theorem onlyCode_of_fetched {s u : State} {c idx : Nat} {r : Except XFault Word} (h : fetchWord s c idx = (u, r)) : OnlyCode s u c := by
  have hw := onlyCode_fetchWord s c idx
  rwa [h] at hw

/-! ### The handler -/

theorem handler_eq (v : X) : bits v.toNat 0 54 = v.toNat % 2 ^ 54 := by simp [bits]

section
variable {s u : State} {c : Nat} {w : Word} {e : Event} {epc : BitVec 54}

/-- A core that takes a trap, after the fetch at its handler. -/
theorem core_enterHandler (hu : OnlyCode s u c) (hc : c < 33) : core (enterHandler u c e epc) c = { core s c with
    tepc := epc, tcause := tcauseOf e, tval := e.tval, inh := true, pc := (core s c).tvec.setWidth 54, run := .running
    wait := .none, supplied := [], issued := none, loading := false, l1i := (core u c).l1i } := by
  rw [enterHandler, core_modCore_same _ _ _ hc, hu.here]

theorem core_enterHandler_ne (hu : OnlyCode s u c) {c' : Nat} (hc : c' ≠ c) : core (enterHandler u c e epc) c' = core s c' := by
  rw [enterHandler, core_modCore_ne _ _ _ _ hc.symm, hu.others c' hc]

theorem stageTrap_of_handler (hv : (core s c).tvec.getLsbD 63 = true) (hi : (core s c).inh = false)
    (hf : fetchWord s c ((core s c).tvec.toNat % 2 ^ 54) = (u, .ok w)) : stageTrap s c e epc = enterHandler u c e epc := by
  simp only [stageTrap, hv, hi, handler_eq, hf, Bool.not_true, Bool.or_false, Bool.false_eq_true, if_false]

theorem stageTrap_of_none (h : (core s c).tvec.getLsbD 63 = false ∨ (core s c).inh = true) :
    stageTrap s c e epc = escalate s c e.code epc e.tval false := by
  rw [stageTrap, if_pos (by simpa using h)]

theorem managerTrap_of_handler (hv : (core s 32).tvec.getLsbD 63 = true) (hi : (core s 32).inh = false)
    (hf : fetchWord s 32 ((core s 32).tvec.toNat % 2 ^ 54) = (u, .ok w)) : managerTrap s e epc = enterHandler u 32 e epc := by
  simp only [managerTrap, hv, hi, handler_eq, hf, Bool.not_true, Bool.or_false, Bool.false_eq_true, if_false]

theorem managerTrap_of_none (h : (core s 32).tvec.getLsbD 63 = false ∨ (core s 32).inh = true) :
    managerTrap s e epc = modDie s fun d => { d with fwEvents := d.fwEvents ++ [e] } := by
  rw [managerTrap, if_pos (by simpa using h)]
  rfl

end

theorem toNat_append_eq {n m : Nat} (x : BitVec n) (y : BitVec m) : (x ++ y).toNat = 2 ^ m * x.toNat + y.toNat := by
  rw [BitVec.toNat_append, ← Nat.shiftLeft_add_eq_or_of_lt y.isLt, Nat.shiftLeft_eq, Nat.mul_comm]

/-- The fields of TCAUSE (Table 19-5). -/
theorem toNat_tcauseOf (e : Event) : (tcauseOf e).toNat = e.code.toNat + 2 ^ 8 * e.async.toNat + 2 ^ 9 * e.src.toNat +
    2 ^ 12 * e.region.toNat + 2 ^ 17 * e.more.toNat + 2 ^ 18 * e.job.toNat := by
  have h0 : (0 : BitVec 32).toNat = 0 := rfl
  simp only [tcauseOf, toNat_append_eq, BitVec.toNat_ofBool, h0]
  omega

/-! ### Escalation -/

section
variable {s : State} {g : Nat} {code : Code} {epc : BitVec 54} {v : X}

/-- The manager's place for an event: among those that wait, or behind them (R311). -/
theorem putMgr_eq (s : State) (e : Event) : putMgr s e = if (core s 32).events.length < 64
    then modCore s 32 fun c => { c with events := c.events ++ [e] } else modDie s fun d => { d with mgrWait := d.mgrWait ++ [e] } := rfl

theorem core_putMgr_ne (e : Event) (hg : g ≠ 32) : core (putMgr s e) g = core s g := by
  rw [putMgr_eq]
  split
  · exact core_modCore_ne _ _ _ _ hg.symm
  · simp [core]

theorem putMgr_holds (s : State) (e : Event) : if (core s 32).events.length < 64
    then (core (putMgr s e) 32).events = (core s 32).events ++ [e] else (die (putMgr s e)).mgrWait = (die s).mgrWait ++ [e] := by
  rw [putMgr_eq]
  split
  · rw [core_modCore_same _ _ _ (by decide)]
  · rw [die_modDie]

/-- What a stagehand keeps as it is frozen by an escalation. -/
theorem core_escalate (s : State) (code : Code) (epc : BitVec 54) (v : X) (hg : g < 32) :
    core (escalate s g code epc v false) g = { core s g with frozen := true, freezeReq := false, wait := .none } := by
  rw [escalate, postMgr, core_putMgr_ne _ (by omega), core_modCore_same _ _ _ (by omega)]
  simp

/-- The event of an escalation joins the manager's, or waits for a place among them. -/
theorem escalate_posts (s : State) (code : Code) (epc : BitVec 54) (v : X) (hg : g < 32) : ∃ e : Event,
    (if (core s 32).events.length < 64 then (core (escalate s g code epc v false) 32).events = (core s 32).events ++ [e]
      else (die (escalate s g code epc v false)).mgrWait = (die s).mgrWait ++ [e]) ∧
    e.code = code ∧ e.src = 6 ∧ e.region.toNat = g ∧ e.tval = v ∧ e.epc = epc := by
  let frozen := modCore s g fun k => { k with frozen := true, freezeReq := false, df := k.df || false, wait := .none }
  have hm : core frozen 32 = core s 32 := core_modCore_ne _ _ _ _ (by omega)
  have hd : (die frozen).mgrWait = (die s).mgrWait := by simp [frozen]
  have holds := putMgr_holds frozen (mkEvent frozen code.toNat 6 g v epc)
  rw [hm, hd] at holds
  exact ⟨_, holds, by simp [mkEvent], rfl, by simpa [mkEvent] using by omega, rfl, rfl⟩

end

/-! ### The words TRAP and ERET -/

theorem modCore_modCore (s : State) (c : Nat) (f f' : Core → Core) : modCore (modCore s c f) c f' = modCore s c fun k => f' (f k) := by
  simp only [modCore, modDie_modDie, vmod_vmod]

section
variable {h : Hdr} {imm : BitVec 32} {s : State}

theorem exec_trap_core (hr : CoreRuns (.trap h imm) s) :
    exec (.trap h imm) s = .next (coreFault s (myCore s) 0x04 (imm.setWidth 64)) := by
  rw [exec_trap, execTrap, word_of_core hr, coreOutcome_trap]

theorem exec_trap_elem (hr : ElemRuns (.trap h imm) s) : exec (.trap h imm) s = .next (elemFault s 0x04 0) := by
  rw [exec_trap, execTrap, word_of_elem hr, elemOutcome_trap]

theorem exec_eret_of_handler (hr : CoreRuns (.eret h) s) (hi : (core s (myCore s)).inh = true) : exec (.eret h) s =
    .next (modCore s (myCore s) fun k => { k with pc := k.tepc, inh := false, supplied := [], issued := none }) := by
  rw [exec_eret, execEret, coreWord_of_core hr, hi]
  simp only [Bool.not_true, Bool.false_eq_true, if_false, coreOutcome_ok, returnFromTrap, advance, modCore_modCore]

theorem exec_eret_of_none (hr : CoreRuns (.eret h) s) (hi : (core s (myCore s)).inh = false) :
    exec (.eret h) s = .next (coreFault s (myCore s) 0x01 0) := by
  rw [exec_eret, execEret, coreWord_of_core hr, hi]
  rfl

end

theorem coreFault_of_stage {s : State} {g : Nat} {code : Code} {v : X} (hg : g < 32) :
    coreFault s g code v = stageTrap s g (ownEvent s g code v) (core s g).pc := by
  rw [coreFault, if_neg (by simp; omega)]

/-- The event of a stagehand's own fault reports its code, its region and its job. -/
theorem tcause_ownEvent {s : State} {g : Nat} {code : Code} {v : X} (hg : g < 32) :
    (tcauseOf (ownEvent s g code v)).toNat = code.toNat + 2 ^ 12 * g + 2 ^ 18 * (jobOf s g).toNat := by
  rw [toNat_tcauseOf]
  simp [ownEvent, hg, Nat.mod_eq_of_lt hg]

/-- Settles O45: a fault of a stagehand enters its handler, or is escalated; TRAP and ERET by their words. -/
theorem trapsSaveAndEnterAndReturn : Obligations.TrapsSaveAndEnterAndReturn := by
  intro h imm s u g code v w k t k'
  refine ⟨fun hg hv hi hf => ?handler, fun hg hv => ?escalates, exec_trap_core, exec_trap_elem, exec_eret_of_handler, exec_eret_of_none⟩
  case handler =>
    have hu := onlyCode_of_fetched hf
    have ht : t = enterHandler u g (ownEvent s g code v) k.pc := (coreFault_of_stage hg).trans (stageTrap_of_handler hv hi hf)
    have hk : k' = _ := (congrArg (core · g) ht).trans (core_enterHandler hu (by omega))
    rw [hk]
    refine ⟨rfl, tcause_ownEvent hg, rfl, rfl, rfl, rfl, rfl, fun r => ?_, fun c hc => ?_⟩
    · have hx : (core t g).x = (core s g).x := by rw [show core t g = _ from hk]
      rw [xreg, hx, xreg]
    · rw [ht, core_enterHandler_ne hu hc]
  case escalates =>
    have ht : t = escalate s g code k.pc v false := (coreFault_of_stage hg).trans (stageTrap_of_none hv)
    have hk : k' = _ := (congrArg (core · g) ht).trans (core_escalate s code k.pc v hg)
    rw [hk, ht]
    exact ⟨rfl, rfl, rfl, rfl, rfl, rfl, escalate_posts s code k.pc v hg⟩

/-! ### Asynchronous events and the manager -/

theorem exec_asyncEventTake_of_event {s : State} {c : Nat} {e : Event} {l : List Event} (ha : AgentRuns (.asyncEventTake c))
    (ht : takesEvent (core s c) c = true) (he : (core s c).events = e :: l) :
    let taken := modCore s c fun k => { k with events := l, wait := .none, issued := none }
    exec (.asyncEventTake c) s =
      .next (if c = 32 then managerTrap (refillMgr taken) e (managerEpc (core s c) e) else stageTrap taken c e (core s c).pc) := by
  rw [exec_asyncEventTake, execAsyncEventTake, event_of_enabled ha ht]
  simp only [he, beq_iff_eq]

/-- A fault of the manager's own word stops it, and firmware takes the event (R311). -/
theorem coreFault_manager (s : State) (code : Code) (v : X) : coreFault s 32 code v =
    modCore (modDie s fun d => { d with fwEvents := d.fwEvents ++ [ownEvent s 32 code v] }) 32 fun k =>
      { k with run := .firmware, wait := .none } := rfl

/-- Settles O46: the oldest event is taken as a trap, and the manager's own fault is firmware's. -/
theorem asynchronousEventsAndTheManager : Obligations.AsynchronousEventsAndTheManager := by
  intro s u c e l code v w epc taken k
  refine ⟨exec_asyncEventTake_of_event, by simp [managerEpc, and_assoc], fun hv hi hf => ?handler, managerTrap_of_none, ?own⟩
  case handler =>
    rw [managerTrap_of_handler hv hi hf, core_enterHandler (onlyCode_of_fetched hf) (by decide)]
    exact ⟨rfl, rfl, rfl, rfl, rfl, rfl⟩
  case own =>
    intro t
    have hk : core t 32 = { core s 32 with run := .firmware, wait := .none } := by
      rw [show t = _ from coreFault_manager s code v, core_modCore_same _ _ _ (by decide)]
      simp [core]
    rw [hk, show t = _ from coreFault_manager s code v]
    exact ⟨rfl, by simp, rfl, rfl, rfl⟩

end Sys2Proof.Machine
end

section
/-! PROOFS. XBEGIN, XEND and XABORT, by the STATE of the commit group of the stagehand's graph (R319, R320, R475, R476). -/

namespace Sys2Proof.Machine

section
variable {h : Hdr} {d a : Reg} {s : State} {g : Graph}

/-! ### No graph owns the core -/

theorem myGroup_of_none (hg : myGraph s = none) : myGroup s = none := by rw [myGroup, hg, Option.map_none]

theorem exec_xbegin_of_none (hg : myGraph s = none) (hr : CoreRuns (.xbegin h) s) :
    exec (.xbegin h) s = .next (coreFault s (myCore s) 0x01 0) := by
  rw [exec_xbegin, execXbegin, coreWord_of_core hr, myGroup_of_none hg]
  rfl
theorem exec_xend_of_none (hg : myGraph s = none) (hr : CoreRuns (.xend h d) s) :
    exec (.xend h d) s = .next (coreFault s (myCore s) 0x01 0) := by
  rw [exec_xend, execXend, coreWord_of_core hr, myGroup_of_none hg]
  rfl
theorem exec_xabort_of_none (hg : myGraph s = none) (hr : CoreRuns (.xabort h a) s) :
    exec (.xabort h a) s = .next (coreFault s (myCore s) 0x01 0) := by
  rw [exec_xabort, execXabort, coreWord_of_core hr, myGroup_of_none hg]
  rfl

/-! ### The words, by STATE -/

section
variable (hg : myGraph s = some g)
include hg

theorem myGroup_of_state {n : BitVec 2} (hn : g.group.state = n) : myGroup s = some (g, n.toNat) := by
  rw [myGroup, hg, Option.map_some, hn]

theorem exec_xbegin_of_idle (hn : g.group.state = 0) (hr : CoreRuns (.xbegin h) s) : exec (.xbegin h) s = .next
    (modGraph (advance s) g.gid fun g => { g with group := { Group.none with state := 1, opener := myRegion s } }) := by
  rw [exec_xbegin, execXbegin, coreWord_of_core hr, myGroup_of_state hg hn]
  rfl
/-- A group that is open, released or aborted is not opened again. -/
theorem exec_xbegin_of_busy {n : BitVec 2} (hn : g.group.state = n) (h0 : n = 1 ∨ n = 2 ∨ n = 3) (hr : CoreRuns (.xbegin h) s) :
    exec (.xbegin h) s = .next (coreFault s (myCore s) 0x01 0) := by
  rw [exec_xbegin, execXbegin, coreWord_of_core hr, myGroup_of_state hg hn]
  rcases h0 with rfl | rfl | rfl <;> rfl

theorem exec_xend_of_idle (hn : g.group.state = 0) (hr : CoreRuns (.xend h d) s) :
    exec (.xend h d) s = .next (coreFault s (myCore s) 0x01 0) := by
  rw [exec_xend, execXend, coreWord_of_core hr, myGroup_of_state hg hn]
  rfl
/-- An open group is released once its grouped commands have written. -/
theorem exec_xend_of_open (hn : g.group.state = 1) (hr : CoreRuns (.xend h d) s) : exec (.xend h d) s = .next
    (if groupedLeft s g.gid = true then s
      else retX (modGraph s g.gid fun g => { g with group := { g.group with state := 2 } }) d 0) := by
  rw [exec_xend, execXend, coreWord_of_core hr, myGroup_of_state hg hn]
  exact congrArg _ (apply_ite (coreOutcome s) ..)
theorem exec_xend_of_released (hn : g.group.state = 2) (hr : CoreRuns (.xend h d) s) : exec (.xend h d) s = .next (retX s d 0) := by
  rw [exec_xend, execXend, coreWord_of_core hr, myGroup_of_state hg hn]
  rfl
theorem exec_xend_of_aborted (hn : g.group.state = 3) (hr : CoreRuns (.xend h d) s) : exec (.xend h d) s = .next
    (retX (modGraph (voidGrouped s g.gid) g.gid fun g => { g with group := { g.group with state := 0 } }) d 1) := by
  rw [exec_xend, execXend, coreWord_of_core hr, myGroup_of_state hg hn]
  rfl

theorem exec_xabort_of_open (hn : g.group.state = 1) (hr : CoreRuns (.xabort h a) s) :
    exec (.xabort h a) s = .next (advance (abortGroup s g.gid 1 ((xval s a).setWidth 32))) := by
  rw [exec_xabort, execXabort, coreWord_of_core hr, myGroup_of_state hg hn]
  rfl
theorem exec_xabort_of_aborted (hn : g.group.state = 3) (hr : CoreRuns (.xabort h a) s) : exec (.xabort h a) s = .next (advance s) := by
  rw [exec_xabort, execXabort, coreWord_of_core hr, myGroup_of_state hg hn]
  rfl
/-- A group that is not open and has not aborted cannot be aborted. -/
theorem exec_xabort_of_closed {n : BitVec 2} (hn : g.group.state = n) (h0 : n = 0 ∨ n = 2) (hr : CoreRuns (.xabort h a) s) :
    exec (.xabort h a) s = .next (coreFault s (myCore s) 0x01 0) := by
  rw [exec_xabort, execXabort, coreWord_of_core hr, myGroup_of_state hg hn]
  rcases h0 with rfl | rfl <;> rfl

end

end

/-- Settles O47: each word in each of the four states of the group, and where there is none. -/
theorem commitGroupWords : Obligations.CommitGroupWords := by
  intro h d a s g gives illegal group
  refine ⟨fun hg => ⟨exec_xbegin_of_none hg, exec_xend_of_none hg, exec_xabort_of_none hg⟩,
    fun hg => ⟨fun hn => ?idle, fun hn => ?opened, fun hn => ?released, fun hn => ?aborted⟩⟩
  case idle => exact ⟨exec_xbegin_of_idle hg hn, exec_xend_of_idle hg hn, exec_xabort_of_closed hg hn (.inl rfl)⟩
  case opened =>
    refine ⟨exec_xbegin_of_busy hg hn (.inl rfl), exec_xabort_of_open hg hn, fun hl hr => ?_, fun hl hr => ?_⟩
    · rw [exec_xend_of_open hg hn hr, if_neg (by simp [hl])]
    · rw [exec_xend_of_open hg hn hr, if_pos hl]
  case released =>
    exact ⟨exec_xbegin_of_busy hg hn (.inr (.inl rfl)), exec_xabort_of_closed hg hn (.inr rfl), exec_xend_of_released hg hn⟩
  case aborted =>
    exact ⟨exec_xbegin_of_busy hg hn (.inr (.inr rfl)), exec_xabort_of_aborted hg hn, exec_xend_of_aborted hg hn⟩

end Sys2Proof.Machine
end

section
/-! PROOFS. The bytes that a slot of the codec keeps of a code, on every later read (R262, R263, R265 to R267). -/

namespace Sys2Proof.Machine

/-- Settles O29: the fields of a code end below its budget, which the bytes of the slot cover, so a load finds every bit of the code. -/
theorem codecSlotsHoldTheirBlocks : Obligations.CodecSlotsHoldTheirBlocks := codecLoad_codecStore

end Sys2Proof.Machine
end

section
/-! PROOFS. What the static network brings between two cycles: values of channels and beats of remote BUFPUTs (R354, R431, R469). -/

namespace Sys2Proof.Machine

section
variable {s : State} {gr ch : Nat} {c : Chan} {f : Nat × Line × Nat × Nat}

theorem exec_scalarChannelArrival_of_due (hch : 16 ≤ ch) (ha : AgentRuns (.scalarChannelArrival gr ch))
    (hd : dueValue s gr ch = some (c, f)) (hs : betweenCycles s = true) :
    exec (.scalarChannelArrival gr ch) s = .next (arriveValue s gr c f) := by
  rw [exec_scalarChannelArrival, execScalarChannelArrival, hd]
  exact event_of_enabled ha (by simp [hch, hs])

theorem exec_vectorChannelArrival_of_due (hch : ch < 16) (ha : AgentRuns (.vectorChannelArrival gr ch))
    (hd : dueValue s gr ch = some (c, f)) (hs : betweenCycles s = true) :
    exec (.vectorChannelArrival gr ch) s = .next (arriveValue s gr c f) := by
  rw [exec_vectorChannelArrival, execVectorChannelArrival, hd]
  exact event_of_enabled ha (by simp [hch, hs])

/-- A value joins the queue of its channel, or finds it full and is lost with a fault of its producer. -/
theorem arriveValue_eq (s : State) (gr : Nat) (c : Chan) (f : Nat × Line × Nat × Nat) :
    let put := fun (f : Chan → Chan) => modGraph s gr fun q => { q with chans := q.chans.map fun o => if o.ch = c.ch then f o else o }
    arriveValue s gr c f = if 4 ≤ c.queue.length
      then modRegion (put fun k => { k with flight := k.flight.drop 1 }) c.prod.g fun r =>
        { r with faults := r.faults ++ [⟨f.2.2.1, c.prod.row, 15, f.2.2.2, 0x10, 1⟩] }
      else put fun k => { k with flight := k.flight.drop 1, queue := k.queue ++ [f.2.1] } := by
  simp only [arriveValue, beq_iff_eq]

end

section
variable {s : State} {g : Nat} {b : RemoteBeat} {q : Buffer}

/-- A beat lands in its place, but where it is column 0's and the place is full. -/
theorem arriveBeat_of_buffer (hq : bufAt (region s b.g) b.buf = some q) :
    arriveBeat s s g b = if b.col = 0 ∧ isFull q (vget 0 q.putIx b.col) = true then turnAway s g b
      else modRegion (modRegion s g fun r => { r with beats := r.beats.erase b }) b.g fun r =>
        landBeat r b.buf (vget 0 q.putIx b.col) b.off b.col b.data b.last b.wm := by
  simp only [arriveBeat, placeFull, hq, Option.any_some, Bool.and_eq_true, beq_iff_eq]

theorem exec_remoteBufputArrival_of_due (ha : AgentRuns (.remoteBufputArrival g)) (hd : dueBeat s g = some b)
    (hs : betweenCycles s = true) : exec (.remoteBufputArrival g) s = .next (arriveBeat s s g b) := by
  rw [exec_remoteBufputArrival, execRemoteBufputArrival, hd]
  exact event_of_enabled ha hs

end

/-- Settles O35: each arrival by what is due, and the place that it finds. -/
theorem scheduledArrivals : Obligations.ScheduledArrivals := by
  intro s gr ch g c f b q settled put value
  refine ⟨fun hch ha hd hs => ?scalar, fun hch ha hd hs => ?vector, fun ha hd hs hq => ?beat⟩
  case scalar => rw [exec_scalarChannelArrival_of_due hch ha hd hs, arriveValue_eq]
  case vector => rw [exec_vectorChannelArrival_of_due hch ha hd hs, arriveValue_eq]
  case beat => rw [exec_remoteBufputArrival_of_due ha hd hs, arriveBeat_of_buffer hq]

end Sys2Proof.Machine
end

section
/-! PROOFS. The channel words, by the context and by what the load made of the channel (R357, R358, R408, R409, R430, R431, R468, R469). -/

namespace Sys2Proof.Machine

theorem ofBool_eq_ofNat {n : Nat} (b : Bool) : (ofBool b : BitVec n) = BitVec.ofNat n (if b then 1 else 0) := by cases b <;> rfl

section
variable {h : Hdr} {a d : Reg} {ch : BitVec 6} {s : State} {c : Chan} {v : Line} {l : List Line}

theorem east_iff : east s = true ↔ myCol s = 15 := by simp only [east, beq_iff_eq]
theorem west_iff : west s = true ↔ myCol s = 0 := by simp only [west, beq_iff_eq]
theorem west_eq_false (hw : myCol s ≠ 0) : west s = false := by
  rw [← Bool.not_eq_true]
  exact fun hc => hw (west_iff.mp hc)

/-- An effect of a producing word stands in column 15 alone. -/
theorem ite_east (fx : List Fx) : (if east s then fx else []) = if myCol s = 15 then fx else [] := by simp only [east_iff]

/-! ### In an element: the words that produce -/

theorem exec_send_of_producer (hc : producing s ch.toNat = some c) (hr : ElemRuns (.send h a ch) s) : exec (.send h a ch) s = .next
    (elemRetire (.send h a ch) s (if myCol s = 15 then [.send ch.toNat (eScalar s a)] else [])) := by
  rw [exec_send, execSend, word_of_elem hr, hc]
  simp only [ite_east, elemOutcome_ok]
theorem exec_csend_of_producer (hc : producing s ch.toNat = some c) (hr : ElemRuns (.csend h a ch) s) : exec (.csend h a ch) s = .next
    (elemRetire (.csend h a ch) s (if myCol s = 15 then [.level ch.toNat ((eScalar s a).getLsbD 0)] else [])) := by
  rw [exec_csend, execCsend, word_of_elem hr, hc]
  simp only [ite_east, elemOutcome_ok]
theorem exec_vsend_of_producer (hc : producing s ch.toNat = some c)
    (hp : convBound s (myRegion s) (2 * myRegion s) ch.toNat = false ∧ convBound s (myRegion s) (2 * myRegion s + 1) ch.toNat = false)
    (hr : ElemRuns (.vsend h a ch) s) : exec (.vsend h a ch) s = .next
    (elemRetire (.vsend h a ch) s (if myCol s = 15 then [.beat ch.toNat (eVector s a 512)] else [])) := by
  rw [exec_vsend, execVsend, elemWord_of_elem hr, hc]
  obtain ⟨h0, h1⟩ := hp
  simp only [h0, h1, Option.isNone_some, Bool.or_false, Bool.and_false, Bool.false_eq_true, ↓reduceIte, ite_east, elemOutcome_ok]

theorem exec_send_of_stranger (hc : producing s ch.toNat = none) (hr : ElemRuns (.send h a ch) s) :
    exec (.send h a ch) s = .next (elemFault s 0x01 0) := by
  rw [exec_send, execSend, word_of_elem hr, hc, elemOutcome_trap]
theorem exec_csend_of_stranger (hc : producing s ch.toNat = none) (hr : ElemRuns (.csend h a ch) s) :
    exec (.csend h a ch) s = .next (elemFault s 0x01 0) := by
  rw [exec_csend, execCsend, word_of_elem hr, hc, elemOutcome_trap]
theorem exec_vsend_of_stranger (hc : producing s ch.toNat = none) (hp : convBound s (myRegion s) (2 * myRegion s) ch.toNat = false)
    (hr : ElemRuns (.vsend h a ch) s) : exec (.vsend h a ch) s = .next (elemFault s 0x01 0) := by
  rw [exec_vsend, execVsend, elemWord_of_elem hr, hc]
  simp only [hp, Bool.not_false, Option.isNone_none, Bool.or_true, Bool.and_true, ↓reduceIte, elemOutcome_trap]

/-! ### In an element: the words that consume -/

theorem exec_recv_of_east (hc : consuming s ch.toNat = some c) (hw : myCol s ≠ 0) (hr : ElemRuns (.recv h d ch) s) :
    exec (.recv h d ch) s = .next (elemRetire (.recv h d ch) s
      [.scalar d (((travelling (region s (myRegion s)) (myRow s) (myCol s)).headD 0).setWidth 32)]) := by
  rw [exec_recv, execRecv, word_of_elem hr, hc]
  simp only [west_eq_false hw, Bool.not_false, ↓reduceIte, elemOutcome_ok]
theorem exec_recv_of_west (hc : consuming s ch.toNat = some c) (hw : myCol s = 0) (hq : c.queue = v :: l)
    (hr : ElemRuns (.recv h d ch) s) : exec (.recv h d ch) s = .next (elemRetire (.recv h d ch)
      (sendEast (popChan s ch.toNat) [v.setWidth 1024]) [.scalar d (v.setWidth 32)]) := by
  rw [exec_recv, execRecv, word_of_elem hr, hc]
  simp only [west_iff.mpr hw, Bool.not_true, Bool.false_eq_true, ↓reduceIte, hq, elemOutcome_ok]
theorem exec_recv_of_empty (hc : consuming s ch.toNat = some c) (hw : myCol s = 0) (hq : c.queue = [])
    (hr : ElemRuns (.recv h d ch) s) : exec (.recv h d ch) s = .next (elemFault s 0x10 1) := by
  rw [exec_recv, execRecv, word_of_elem hr, hc]
  simp only [west_iff.mpr hw, Bool.not_true, Bool.false_eq_true, ↓reduceIte, hq, elemOutcome_miss]
theorem exec_recv_of_stranger (hc : consuming s ch.toNat = none) (hr : ElemRuns (.recv h d ch) s) :
    exec (.recv h d ch) s = .next (elemFault s 0x01 0) := by
  rw [exec_recv, execRecv, word_of_elem hr, hc, elemOutcome_trap]

section
variable (hp : convBound s (myRegion s) (2 * myRegion s) ch.toNat = false ∧ convBound s (myRegion s) (2 * myRegion s + 1) ch.toNat = false)
include hp

theorem exec_vrecv_of_east (hc : consuming s ch.toNat = some c) (hw : myCol s ≠ 0) (hr : ElemRuns (.vrecv h d ch) s) :
    exec (.vrecv h d ch) s = .next (elemRetire (.vrecv h d ch) s
      [.vector d (((travelling (region s (myRegion s)) (myRow s) (myCol s)).headD 0).setWidth 512)]) := by
  rw [exec_vrecv, execVrecv, elemWord_of_elem hr, hc]
  obtain ⟨h0, h1⟩ := hp
  simp only [h0, h1, Option.isNone_some, Bool.or_false, Bool.and_false, west_eq_false hw, Bool.not_false, Bool.false_eq_true, ↓reduceIte,
    elemOutcome_ok]
theorem exec_vrecv_of_west (hc : consuming s ch.toNat = some c) (hw : myCol s = 0) (hq : c.queue = v :: l)
    (hr : ElemRuns (.vrecv h d ch) s) : exec (.vrecv h d ch) s = .next (elemRetire (.vrecv h d ch)
      (sendEast (popChan s ch.toNat) [v.setWidth 1024]) [.vector d v]) := by
  rw [exec_vrecv, execVrecv, elemWord_of_elem hr, hc]
  obtain ⟨h0, h1⟩ := hp
  simp only [h0, h1, Option.isNone_some, Bool.or_false, Bool.and_false, west_iff.mpr hw, Bool.not_true, Bool.false_eq_true, ↓reduceIte,
    Option.map_some, Option.getD_some, hq, elemOutcome_ok]
theorem exec_vrecv_of_empty (hc : consuming s ch.toNat = some c) (hw : myCol s = 0) (hq : c.queue = [])
    (hr : ElemRuns (.vrecv h d ch) s) : exec (.vrecv h d ch) s = .next (elemFault s 0x10 1) := by
  rw [exec_vrecv, execVrecv, elemWord_of_elem hr, hc]
  obtain ⟨h0, h1⟩ := hp
  simp only [h0, h1, Option.isNone_some, Bool.or_false, Bool.and_false, west_iff.mpr hw, Bool.not_true, Bool.false_eq_true, ↓reduceIte,
    Option.map_some, Option.getD_some, hq, elemOutcome_miss]
end

theorem exec_vrecv_of_stranger (hc : consuming s ch.toNat = none) (hp : convBound s (myRegion s) (2 * myRegion s + 1) ch.toNat = false)
    (hr : ElemRuns (.vrecv h d ch) s) : exec (.vrecv h d ch) s = .next (elemFault s 0x01 0) := by
  rw [exec_vrecv, execVrecv, elemWord_of_elem hr, hc]
  simp only [hp, Bool.not_false, Option.isNone_none, Bool.or_true, Bool.and_true, ↓reduceIte, elemOutcome_trap]

theorem exec_crecv_of_consumer (hc : consuming s ch.toNat = some c) (hr : ElemRuns (.crecv h d ch) s) : exec (.crecv h d ch) s = .next
    (elemRetire (.crecv h d ch) s [.scalar d (BitVec.ofNat 32 (if levelAt c (region s (myRegion s)).rc then 1 else 0))]) := by
  rw [exec_crecv, execCrecv, word_of_elem hr, hc]
  simp only [elemOutcome_ok, ofBool_eq_ofNat]
theorem exec_crecv_of_stranger (hc : consuming s ch.toNat = none) (hr : ElemRuns (.crecv h d ch) s) :
    exec (.crecv h d ch) s = .next (elemFault s 0x01 0) := by
  rw [exec_crecv, execCrecv, word_of_elem hr, hc, elemOutcome_trap]

/-! ### In a core -/

theorem exec_send_of_room (hc : producing s ch.toNat = some c) (hn : c.queue.length + c.flight.length < 4)
    (hr : CoreRuns (.send h a ch) s) : exec (.send h a ch) s = .next (advance (modChan s (myRegion s) ch.toNat fun c =>
      { c with flight := c.flight ++ [(c.hops, ((xval s a).setWidth 32).setWidth 512, 0, 0)] })) := by
  rw [exec_send, execSend, word_of_core hr, hc]
  simp only [Nat.not_le.mpr hn, ↓reduceIte, coreOutcome_ok]
theorem exec_send_of_full (hc : producing s ch.toNat = some c) (hn : 4 ≤ c.queue.length + c.flight.length)
    (hr : CoreRuns (.send h a ch) s) : exec (.send h a ch) s = .next s := by
  rw [exec_send, execSend, word_of_core hr, hc]
  simp only [hn, ↓reduceIte, coreOutcome_hold]
theorem exec_csend_of_core (hc : producing s ch.toNat = some c) (hr : CoreRuns (.csend h a ch) s) : exec (.csend h a ch) s = .next
    (advance (driveLevel s (myRegion s) ch.toNat ((xval s a).getLsbD 0))) := by
  rw [exec_csend, execCsend, word_of_core hr, hc, coreOutcome_ok]
theorem exec_recv_of_value (hc : consuming s ch.toNat = some c) (hq : c.queue = v :: l) (hr : CoreRuns (.recv h d ch) s) :
    exec (.recv h d ch) s = .next (retX (popChan s ch.toNat) d ((v.setWidth 32).setWidth 64)) := by
  rw [exec_recv, execRecv, word_of_core hr, hc]
  simp only [hq, coreOutcome_ok]
theorem exec_recv_of_waiting (hc : consuming s ch.toNat = some c) (hq : c.queue = []) (hr : CoreRuns (.recv h d ch) s) :
    exec (.recv h d ch) s = .next s := by
  rw [exec_recv, execRecv, word_of_core hr, hc]
  simp only [hq, coreOutcome_hold]
theorem exec_crecv_of_core (hc : consuming s ch.toNat = some c) (hr : CoreRuns (.crecv h d ch) s) : exec (.crecv h d ch) s = .next
    (retX s d (BitVec.ofNat 64 (if (c.levels.head?.map fun p => p.2).getD false then 1 else 0))) := by
  rw [exec_crecv, execCrecv, word_of_core hr, hc]
  simp only [coreOutcome_ok, ofBool_eq_ofNat]

theorem exec_send_of_foreign (hc : producing s ch.toNat = none) (hr : CoreRuns (.send h a ch) s) :
    exec (.send h a ch) s = .next (coreFault s (myCore s) 0x01 0) := by
  rw [exec_send, execSend, word_of_core hr, hc, coreOutcome_trap]
theorem exec_csend_of_foreign (hc : producing s ch.toNat = none) (hr : CoreRuns (.csend h a ch) s) :
    exec (.csend h a ch) s = .next (coreFault s (myCore s) 0x01 0) := by
  rw [exec_csend, execCsend, word_of_core hr, hc, coreOutcome_trap]
theorem exec_recv_of_foreign (hc : consuming s ch.toNat = none) (hr : CoreRuns (.recv h d ch) s) :
    exec (.recv h d ch) s = .next (coreFault s (myCore s) 0x01 0) := by
  rw [exec_recv, execRecv, word_of_core hr, hc, coreOutcome_trap]
theorem exec_crecv_of_foreign (hc : consuming s ch.toNat = none) (hr : CoreRuns (.crecv h d ch) s) :
    exec (.crecv h d ch) s = .next (coreFault s (myCore s) 0x01 0) := by
  rw [exec_crecv, execCrecv, word_of_core hr, hc, coreOutcome_trap]

end

/-- Settles O34: the load makes the executing context a party of the channel or not; a consuming word turns besides on its column
and on whether the queue holds a value. -/
theorem channelWordsMoveValues : Obligations.ChannelWordsMoveValues := by
  intro h a d ch s c v l
  refine ⟨fun hc => ⟨exec_send_of_producer hc, exec_csend_of_producer hc, exec_vsend_of_producer hc, exec_send_of_room hc,
      exec_send_of_full hc, exec_csend_of_core hc⟩,
    fun hc => ⟨fun hw => ⟨exec_recv_of_east hc hw, fun hp => exec_vrecv_of_east hp hc hw⟩,
      fun hw hq => ⟨exec_recv_of_west hc hw hq, fun hp => exec_vrecv_of_west hp hc hw hq⟩,
      exec_recv_of_empty hc, exec_recv_of_value hc, exec_recv_of_waiting hc, exec_crecv_of_consumer hc, exec_crecv_of_core hc⟩,
    ⟨fun hc => ⟨exec_send_of_stranger hc, exec_csend_of_stranger hc, exec_vsend_of_stranger hc⟩,
      fun hc => ⟨exec_recv_of_stranger hc, exec_crecv_of_stranger hc, exec_vrecv_of_stranger hc⟩,
      fun hc hp hw hq => exec_vrecv_of_empty hp hc hw hq⟩,
    fun hc => ⟨exec_send_of_foreign hc, exec_csend_of_foreign hc⟩,
    fun hc => ⟨exec_recv_of_foreign hc, exec_crecv_of_foreign hc⟩⟩

end Sys2Proof.Machine
end

section
/-! PROOFS. The clock, predicate and cache words, each by the condition of its outcome (R282, R296, R329, R355, R378, R402, R433, R448,
R449, R451, R459). -/

namespace Sys2Proof.Machine

section
variable {h : Hdr} {d a b : Reg} {off : BitVec 20} {port : BitVec 6} {s t : State}

/-! ### The clock and the predicate words -/

theorem exec_phcrd_of_core (hr : CoreRuns (.phcrd h d a) s) : exec (.phcrd h d a) s = .next
    (retX (setX s (myCore s) a.toNat (BitVec.ofNat 64 (phcNanos s % 10 ^ 9))) d (BitVec.ofNat 64 (phcSeconds s))) := by
  rw [exec_phcrd, execPhcrd, coreWord_of_core hr, coreOutcome_ok]

theorem exec_vcset_of_fits (hv : (xval s a).toNat < 2 ^ 32) (hr : CoreRuns (.vcset h d a) s) : exec (.vcset h d a) s = .next
    (modRegion (advance s) (myRegion s) fun r => { r with vc := (xval s a).setWidth 32 }) := by
  rw [exec_vcset, execVcset, coreWord_of_core hr, if_neg (Nat.not_le.mpr hv), coreOutcome_ok]
theorem exec_vcset_of_large (hv : 2 ^ 32 ≤ (xval s a).toNat) (hr : CoreRuns (.vcset h d a) s) :
    exec (.vcset h d a) s = .next (coreFault s (myCore s) 0x01 0) := by
  rw [exec_vcset, execVcset, coreWord_of_core hr, if_pos hv, coreOutcome_trap]

theorem natCast_one_shiftLeft {w : Nat} (n : Nat) : ((1 <<< n : Nat) : BitVec w) = (1 : BitVec w) <<< n := by
  refine BitVec.eq_of_toNat_eq ?_
  rw [BitVec.toNat_shiftLeft, BitVec.natCast_eq_ofNat, BitVec.toNat_ofNat, BitVec.ofNat_eq_ofNat, BitVec.toNat_ofNat, Nat.shiftLeft_eq,
    Nat.shiftLeft_eq, Nat.mod_mul_mod]

theorem exec_tqset_of_writable (hn : d.toNat - 52 ≠ 0) (hr : CoreRuns (.tqset h d a) s) : exec (.tqset h d a) s = .next
    (modRegion (advance s) (myRegion s) fun r => { r with
      tq := if xval s a = 0 then r.tq &&& ~~~((1 : BitVec 8) <<< (d.toNat - 52)) else r.tq ||| (1 : BitVec 8) <<< (d.toNat - 52) }) := by
  rw [exec_tqset, execTqset, coreWord_of_core hr]
  simp only [beq_iff_eq, hn, ↓reduceIte, coreOutcome_ok, bne_iff_ne, ne_eq, ite_not, natCast_one_shiftLeft]

/-- A word that a stagehand admits, with a coded value that its entry leaves out, is ILLEGAL. -/
theorem legal_stage_of_form {i : Instr} (hc : contextOk .stage (contexts i) = true) (hp : contexts i ≠ .privileged)
    (hops : ∀ p ∈ operands i, ¬ MarkedContext .stage i p.2) (hcode : codedOk .stage i = false) : legal .stage i = some 0x01 := by
  have hx : ¬ FailsContext .stage i := by
    rintro (h | ⟨p, hp, hm⟩)
    · rw [hc] at h
      cases h
    · exact hops p hp hm
  rw [legal_eq, if_neg hx, if_neg fun h => hp h.2, if_pos (.inr (.inr hcode))]

/-- tq0 is no target: its number stops at the checks of R85. -/
theorem legal_tqset_zero (ha : a.toNat < 32) : legal .stage (.tqset h 52 a) = some 0x01 := by
  refine legal_stage_of_form rfl (fun hc => by cases hc) (fun p hp => ?_) rfl
  simp only [operands, List.mem_cons, List.not_mem_nil, or_false] at hp
  obtain rfl | rfl := hp
  · simp [MarkedContext, predWord]
  · simp only [MarkedContext]
    omega
theorem exec_tqset_zero (hk : kindOf s = .stage) (ha : a.toNat < 32) :
    exec (.tqset h 52 a) s = .next (coreFault s (myCore s) 0x01 0) := by
  have hgate : gate (.tqset h 52 a) s = .stop 0x01 := by
    rw [gate, hk, legal_tqset_zero ha]
    rfl
  rw [exec_tqset, execTqset, coreWord, word_of_stop hgate, hk]
  rfl

theorem exec_tqtest_of_core (hr : CoreRuns (.tqtest h d a) s) : exec (.tqtest h d a) s = .next
    (retX s d (if a.toNat - 52 = 0 ∨ (region s (myRegion s)).tq.getLsbD (a.toNat - 52) = true then 1 else 0)) := by
  rw [exec_tqtest, execTqtest, coreWord_of_core hr]
  simp only [coreOutcome_ok, ofBool, Bool.or_eq_true, beq_iff_eq]

/-! ### The code and translation words -/

theorem exec_ifence_of_core (hr : CoreRuns (.ifence h) s) :
    exec (.ifence h) s = .next (modCore (advance s) (myCore s) fun k => { k with l1i := [] }) := by
  rw [exec_ifence, execIfence, coreWord_of_core hr, coreOutcome_ok]

/-- What an access so translated has still to perform does not depend on the translations that are held. -/
theorem translatedOpen_invalidateTlbs (s : State) (keepLeaf : Tlb → Bool) (keepWalk : WalkEntry → Bool) (p : Nat → Bool) :
    translatedOpen (invalidateTlbs s keepLeaf keepWalk) p = translatedOpen s p := by
  simp only [translatedOpen, invalidateTlbs, Vector.toList_map, List.any_map]
  rfl

theorem settleInvalid_invalidateTlbs (s : State) (keepLeaf : Tlb → Bool) (keepWalk : WalkEntry → Bool) (p : Nat → Bool) :
    settleInvalid (invalidateTlbs s keepLeaf keepWalk) p =
      if translatedOpen s p = true then invalidateTlbs s keepLeaf keepWalk else advance (invalidateTlbs s keepLeaf keepWalk) := by
  rw [settleInvalid, translatedOpen_invalidateTlbs]

/-- A word that drops translations and then settles retires once the accesses so translated have performed, and waits until then. -/
theorem drops_of_settles {i : Instr} {p : Nat → Bool} {keepLeaf : Tlb → Bool} {keepWalk : WalkEntry → Bool}
    (hx : CoreRuns i s → exec i s = .next (settleInvalid (invalidateTlbs s keepLeaf keepWalk) p)) :
    (translatedOpen s p = false → CoreRuns i s → exec i s = .next (advance (invalidateTlbs s keepLeaf keepWalk))) ∧
      (translatedOpen s p = true → CoreRuns i s → exec i s = .next (invalidateTlbs s keepLeaf keepWalk)) :=
  ⟨fun ho hr => by rw [hx hr, settleInvalid_invalidateTlbs, if_neg (Bool.eq_false_iff.mp ho)],
    fun ho hr => by rw [hx hr, settleInvalid_invalidateTlbs, if_pos ho]⟩

theorem exec_tlbinvAll_of_core (hr : CoreRuns (.tlbinvAll h) s) : exec (.tlbinvAll h) s = .next
    (settleInvalid (invalidateTlbs s (fun _ => false) fun _ => false) fun _ => true) := by
  rw [exec_tlbinvAll, execTlbinvAll, coreWord_of_core hr, coreOutcome_ok]
theorem exec_tlbinvAsid_of_core (hr : CoreRuns (.tlbinvAsid h b) s) : exec (.tlbinvAsid h b) s = .next
    (settleInvalid (invalidateTlbs s (fun t => t.asid != rootAsid (xval s b)) fun w => w.asid != rootAsid (xval s b))
      (· == rootAsid (xval s b))) := by
  rw [exec_tlbinvAsid, execTlbinvAsid, coreWord_of_core hr, coreOutcome_ok]
theorem exec_tlbinvAddress_of_core (hr : CoreRuns (.tlbinvAddress h a b) s) : exec (.tlbinvAddress h a b) s = .next
    (settleInvalid (invalidateTlbs s (fun t => !(t.asid == rootAsid (xval s b) && (xval s a).toNat / 2 ^ t.size == t.page))
      fun w => w.asid != rootAsid (xval s b)) (· == rootAsid (xval s b))) := by
  rw [exec_tlbinvAddress, execTlbinvAddress, coreWord_of_core hr, coreOutcome_ok]

/-! ### The line words -/

theorem namedLine_of_translated {x : Xlat} (ht : translate s (coreCtx s (myCore s)) .read (coreAddr s a b off) = (t, .ok x))
    (hp : place x.pa = .hbm) : namedLine s a b off = .ok (x.pa / 64, t) := by
  simp only [namedLine, ht, hp, beq_self_eq_true, ↓reduceIte]

section
variable {ln : Nat} (hn : namedLine s a b off = .ok (ln, t))
include hn

theorem exec_clean_of_dirty {e : L2Line} (he : l2get t ln = some e) (hd : e.dirty = true) (hr : CoreRuns (.clean h a b off) s) :
    exec (.clean h a b off) s = .next
      (advance (l2put (slotWrite (askHome t ln) ln ⟨e.codec, e.key, e.dedup⟩ e.code e.dedup) ln (some { e with dirty := false }))) := by
  have he' : l2get (askHome t ln) ln = some e := ((sameStore_sendRead ..).l2get ln).trans he
  rw [exec_clean, execClean, coreWord_of_core hr, hn]
  simp only [he', hd, writeBack, ↓reduceIte, coreOutcome_ok]
theorem exec_clean_of_clean (he : (l2get t ln).all (fun e => !e.dirty) = true) (hr : CoreRuns (.clean h a b off) s) :
    exec (.clean h a b off) s = .next (advance (askHome t ln)) := by
  have hl : l2get (askHome t ln) ln = l2get t ln := (sameStore_sendRead ..).l2get ln
  rw [exec_clean, execClean, coreWord_of_core hr, hn]
  simp only [hl, coreOutcome_ok]
  cases hget : l2get t ln with
  | none => rfl
  | some e =>
    have hd : e.dirty = false := by simpa [hget] using he
    simp only [hd, Bool.false_eq_true, ↓reduceIte]
theorem exec_inval_of_named (hr : CoreRuns (.inval h a b off) s) : exec (.inval h a b off) s = .next
    (advance (invalidateCode (l2drop (askHome t ln) ln) ln false)) := by
  rw [exec_inval, execInval, coreWord_of_core hr, hn, coreOutcome_ok]
end

/-! ### Shadow windows -/

theorem bits_eq_zero_of_lt {v lo width : Nat} (hv : v < 2 ^ lo) : bits v lo width = 0 := by
  rw [bits, Nat.shiftRight_eq_div_pow, Nat.div_eq_of_lt hv, Nat.zero_mod]

/-- The bits of SHADOW's D that its entry reserves are 0: those above the region number in the manager, above the address in a stagehand. -/
theorem shadowReserved_eq_zero {mgr : Bool} {v : Nat} (hv : v < if mgr = true then 2 ^ 62 else 2 ^ 57) :
    (if mgr = true then bits v 62 2 else bits v 57 7) = 0 := by
  cases mgr with
  | true => exact bits_eq_zero_of_lt hv
  | false => exact bits_eq_zero_of_lt hv

theorem exec_shadow_of_tile {bs : List Byte} (hv : (xval s d).toNat < if (kindOf s).isMgr = true then 2 ^ 62 else 2 ^ 57)
    (hva : coreAddr s a b off % 4096 = 0) (hread : coreRead s (bits (xval s d).toNat 0 57) 64 0 15 0 = .ok (bs, t))
    (htile : tileOk (bytesLine bs) = true) (hr : CoreRuns (.shadow h d a b off port) s) : exec (.shadow h d a b off port) s = .next
      (advance (setShadow t (if (kindOf s).isMgr = true then bits (xval s d).toNat 57 5 else myRegion s) port.toNat
        { bound := true, base := coreAddr s a b off, tile := bits (xval s d).toNat 0 57, head := bytesLine bs })) := by
  rw [exec_shadow, execShadow, coreWord_of_core hr]
  simp only [shadowReserved_eq_zero hv, hva, hread, htile, bne_self_eq_false, Bool.not_true, Bool.false_eq_true, ↓reduceIte, coreOutcome_ok]

theorem exec_unshadow_of_stage (hk : (kindOf s).isMgr = false) (hr : CoreRuns (.unshadow h a port) s) :
    exec (.unshadow h a port) s = .next (advance (setShadow s (myRegion s) port.toNat Shadow.none)) := by
  rw [exec_unshadow, execUnshadow, coreWord_of_core hr]
  simp only [hk, Bool.false_eq_true, ↓reduceIte, coreOutcome_ok]
theorem exec_unshadow_of_mgr (hk : (kindOf s).isMgr = true) (hv : (xval s a).toNat < 32) (hr : CoreRuns (.unshadow h a port) s) :
    exec (.unshadow h a port) s = .next (advance (setShadow s (xval s a).toNat port.toNat Shadow.none)) := by
  rw [exec_unshadow, execUnshadow, coreWord_of_core hr]
  simp only [hk, Nat.not_le.mpr hv, ↓reduceIte, coreOutcome_ok]

end

/-- Settles O48: each word by its condition; TQSET of tq0 stops at the checks of R85, and what TLBINV waits for does not depend on the
translations that it drops. -/
theorem clockPredicateAndCacheWords : Obligations.ClockPredicateAndCacheWords := by
  intro h d a b off port s t x e bs me mine gives drops ns bit asid va ln named asked v
  have hnamed : named → namedLine s a b off = .ok (ln, t) := fun hn => namedLine_of_translated hn.1 hn.2
  refine ⟨exec_phcrd_of_core, exec_vcset_of_fits, exec_vcset_of_large, exec_tqset_of_writable,
    fun hk hd ha => by rw [hd]; exact exec_tqset_zero hk ha, exec_tqtest_of_core, exec_ifence_of_core,
    drops_of_settles exec_tlbinvAll_of_core, drops_of_settles exec_tlbinvAsid_of_core, drops_of_settles exec_tlbinvAddress_of_core,
    fun hn he hd => exec_clean_of_dirty (hnamed hn) he hd, fun hn he => exec_clean_of_clean (hnamed hn) he,
    fun hn => exec_inval_of_named (hnamed hn), ?shadow, exec_unshadow_of_stage, exec_unshadow_of_mgr⟩
  case shadow =>
    intro g hv hva hread htile hr
    have htile0 : bits v 0 57 = v % 2 ^ 57 := by rw [bits, Nat.shiftRight_zero]
    have hregion : bits v 57 5 = v / 2 ^ 57 % 32 := by rw [bits, Nat.shiftRight_eq_div_pow]; rfl
    rw [exec_shadow_of_tile hv hva (htile0 ▸ hread) htile hr, htile0, hregion]
    rfl

end Sys2Proof.Machine
end

section
/-! PROOFS. SNEXT after a contribution that is applied ahead of its turn (R291). -/

namespace Sys2Proof.Machine

/-- A contribution of element (0, 0) of region 0 of die 0 to line 0: it adds 5 to the integer at offset 0, and its index is 1. -/
def aheadContribution : Contribution := ⟨0, 0, 0, 11, 1, 5, 0, .elem 0 0 0, 0, false, false, false, 0⟩

/-- The reset state with that contribution at the home of its line. -/
def aheadState : State := modDieAt State.reset 0 fun d => { d with reds := [aheadContribution] }

theorem l2Agrees_aheadState : L2Agrees aheadState := l2Agrees_reset.of_sameStore (sameStore_modDieAt ..)

/-- No graph owns the sender's region. -/
theorem contributionGid_aheadState : contributionGid aheadState aheadContribution = none := by decide +kernel

/-- SNEXT of the line is 0, one below the index. -/
theorem snext_aheadState : snext aheadState aheadContribution = 0 := by decide +kernel

/-- Applied, the contribution leaves its own index plus 1 in SNEXT. -/
theorem byteAt_applyContribution_aheadState :
    byteAt (applyContribution aheadState aheadContribution) aheadContribution.attr 56 = 2 := by decide +kernel

/-- Refutes O31: the bytes of SNEXT are claimed without the premise that the index is next. A contribution of index 1 on a line
with SNEXT 0 leaves 2 there, not 1. -/
theorem not_contributionsApplyInIndexOrder : ¬ Obligations.ContributionsApplyInIndexOrder := by
  intro h
  obtain ⟨-, -, -, happlied, -⟩ := h aheadState 0 0 aheadContribution 0 0 0 (by decide +kernel) rfl rfl
  have hgroup : ∀ q, (contributionGid aheadState aheadContribution).bind
      (graph? { aheadState with cur := Fin.ofNat 24 aheadContribution.die }) = some q → q.group.attrs.get none aheadContribution.line = none := by
    rw [contributionGid_aheadState]
    exact fun q hq => nomatch hq
  obtain ⟨-, -, hsnext, -⟩ := happlied l2Agrees_aheadState rfl (by decide) hgroup
  have hbyte : (2 : Byte) = (natBytes (0 + 1 : BitVec 32).toNat 4).getD 0 0 :=
    byteAt_applyContribution_aheadState.symm.trans (snext_aheadState ▸ hsnext 0 (by decide))
  exact absurd hbyte (by decide)

end Sys2Proof.Machine
end

section
/-! PROOFS. The fatal state and its dump, reset, bring-up, power and attestation (R312, R331 to R334). -/

namespace Sys2Proof.Machine

section
variable {s : State} {n : Nat}

/-! ### The fatal state -/

theorem enterFatal_of_standing (h : s.io.fatal = false) (cause : Nat) : enterFatal s cause =
    { s with
      io := { s.io with
        fatal := true
        cause := BitVec.ofNat 2 cause
        msi := s.io.msi ++ [(0, 0), (1, 0)]
        eth := s.io.eth.map fun p => (p.1, { p.2 with unacked := [] }) }
      dies := s.dies.map stopDie
      links := s.links.map fun p => (p.1, { p.2 with wire := [], queues := Vector.replicate 4 [] }) } := by
  rw [enterFatal, if_neg (by simp [h])]
theorem enterFatal_of_fatal (h : s.io.fatal = true) (cause : Nat) : enterFatal s cause = s := by rw [enterFatal, if_pos h]

theorem machineEvent_of_fixed {b : Bool} {f : State → State} (h : f s = s) : machineEvent s b f = .next s := by
  rw [machineEvent, h, ite_self]

theorem exec_softError_eq : exec .softError s = .next (enterFatal s 1) := by
  rw [exec_softError, execSoftError, machineEvent_of_enabled rfl]
theorem exec_powerFatal_of_die (hn : n < 24) : exec (.powerFatal n) s = .next (enterFatal s 2) := by
  rw [exec_powerFatal, execPowerFatal, machineEvent_of_enabled (decide_eq_true hn)]
theorem exec_temperatureFatal_of_die (hn : n < 24) : exec (.temperatureFatal n) s = .next (enterFatal s 3) := by
  rw [exec_temperatureFatal, execTemperatureFatal, machineEvent_of_enabled (decide_eq_true hn)]
theorem exec_powerFatal_of_fatal (h : s.io.fatal = true) : exec (.powerFatal n) s = .next s := by
  rw [exec_powerFatal, execPowerFatal, machineEvent_of_fixed (enterFatal_of_fatal h 2)]
theorem exec_temperatureFatal_of_fatal (h : s.io.fatal = true) : exec (.temperatureFatal n) s = .next s := by
  rw [exec_temperatureFatal, execTemperatureFatal, machineEvent_of_fixed (enterFatal_of_fatal h 3)]
theorem exec_fatalDumpDone_of_fatal (h : s.io.fatal = true) :
    exec .fatalDumpDone s = .next (writeDump { s with io := { s.io with dumped := true } }) := by
  rw [exec_fatalDumpDone, execFatalDumpDone, machineEvent_of_enabled h]

/-- A die that has stopped holds no launch. -/
theorem queuesEmpty_stopDie (d : Die) : queuesEmpty (stopDie d) := by
  intro q
  by_cases hq : q < 64 <;> simp [vget, Vector.getD, stopDie, Queue.reset, hq]

/-! ### The dump -/

/-- A line encrypted under a key of the store is 64 bytes long. -/
theorem length_encryptUnit_line (key ln : Nat) (l : Line) : (encryptUnit s key ln (lineBytes l)).length = 64 := by
  rw [encryptUnit, (xtsUnit_undo _ _ _ (by rw [length_lineBytes]; decide)).1, length_lineBytes]

/-- Every line that a dump writes lies in the area of its die: a byte outside all areas stays. -/
theorem bytes_writeDump_apart (hs : MemoryOk s) {a : Nat} (ha : ∀ m < 24, a / 64 < dumpLine m 0 ∨ dumpLine m dumpLines ≤ a / 64) :
    Table.bytes (writeDump s).mem a 1 = Table.bytes s.mem a 1 := by
  suffices h : Table.wf 0 (writeDump s).mem = true ∧ Table.bytes (writeDump s).mem a 1 = Table.bytes s.mem a 1 from h.2
  refine List.foldlRecOn (motive := fun m => Table.wf 0 m = true ∧ Table.bytes m a 1 = Table.bytes s.mem a 1) _ _ ⟨hs, rfl⟩
    fun m hm n hn => ?_
  refine List.foldlRecOn (motive := fun m => Table.wf 0 m = true ∧ Table.bytes m a 1 = Table.bytes s.mem a 1) _ _ hm
    fun m hm k hk => ?_
  have hapart : a / 64 < dumpLine n k ∨ dumpLine n k < a / 64 := by
    have harea := ha n (List.mem_range.mp hn)
    have hk : k < dumpLines := (List.mem_range.mp hk).trans_le (Nat.le_of_lt_succ (Nat.mod_lt _ (Nat.succ_pos _)))
    rw [dumpLine, dumpLine, Nat.add_zero] at harea
    rw [dumpLine]
    exact harea.imp (fun h => h.trans_le (Nat.le_add_right _ _)) fun h => (Nat.add_lt_add_left hk _).trans_le h
  refine ⟨wf_setBytes _ _ _ hm.1, (bytes_setBytes_apart _ _ _ _ _ hm.1 ?_).trans hm.2⟩
  rw [length_encryptUnit_line]
  omega

/-! ### Reset, bring-up and attestation -/

theorem exec_powerOnReset_eq :
    exec .powerOnReset s = .next { State.reset with agenda := s.agenda, focus := s.focus, free := s.free } := by
  rw [exec_powerOnReset, execPowerOnReset, machineEvent_of_enabled rfl]

section
variable (hready : s.io.ready = false) (hfatal : s.io.fatal = false)
include hready hfatal

theorem exec_bringUpComplete_of_standing : exec .bringUpComplete s = .next
    (if Config.firmwareVerifies s.free then bringUp { s with free := s.free + 1 } else { s with free := s.free + 1 }) := by
  rw [exec_bringUpComplete, execBringUpComplete, machineEvent_of_enabled (by rw [hready, hfatal]; rfl)]
theorem exec_bringUpComplete_of_forged (hv : Config.firmwareVerifies s.free = false) :
    exec .bringUpComplete s = .next { s with free := s.free + 1 } := by
  rw [exec_bringUpComplete_of_standing hready hfatal, if_neg (by simp [hv])]
theorem exec_bringUpComplete_of_verified (hv : Config.firmwareVerifies s.free = true) :
    exec .bringUpComplete s = .next (bringUp { s with free := s.free + 1 }) := by
  rw [exec_bringUpComplete_of_standing hready hfatal, if_pos hv]
end

theorem exec_powerAverageHigh_of_die (hn : n < 24) :
    exec (.powerAverageHigh n) s = .next (modDieAt s n fun d => { d with hot := true }) := by
  rw [exec_powerAverageHigh, execPowerAverageHigh, machineEvent_of_enabled (decide_eq_true hn)]
theorem exec_powerAverageNormal_of_die (hn : n < 24) :
    exec (.powerAverageNormal n) s = .next (modDieAt s n fun d => { d with hot := false }) := by
  rw [exec_powerAverageNormal, execPowerAverageNormal, machineEvent_of_enabled (decide_eq_true hn)]

section
variable {nonce : BitVec 256}

theorem exec_attestationRequest_of_idle (h : s.io.nonce = none) :
    exec (.attestationRequest nonce) s = .next { s with io := { s.io with nonce := some nonce, busy := false } } := by
  rw [exec_attestationRequest, execAttestationRequest, machineEvent_of_enabled rfl, requestReport, if_neg (by simp [h])]
theorem exec_attestationRequest_of_busy (h : s.io.nonce ≠ none) :
    exec (.attestationRequest nonce) s = .next { s with io := { s.io with busy := true } } := by
  rw [exec_attestationRequest, execAttestationRequest, machineEvent_of_enabled rfl, requestReport,
    if_pos (Option.isSome_iff_ne_none.mpr h)]
theorem exec_attestationReport_of_nonce (h : s.io.nonce = some nonce) : exec .attestationReport s = .next
    { s with io := { s.io with report := reportFields s nonce ++ Config.sign (reportFields s nonce), nonce := none, busy := false } } := by
  rw [exec_attestationReport, execAttestationReport, h]
  exact machineEvent_of_enabled rfl

end

end

/-- Settles O56: each event by its condition; no line of a dump lies outside the area of its die. -/
theorem fatalResetAndBringUpEvents : Obligations.FatalResetAndBringUpEvents := by
  intro n s nonce fatal
  refine ⟨fun h => ?soft, fun h hn => ⟨?power, ?temperature⟩, fun h => ⟨?softKept, exec_powerFatal_of_fatal h,
      exec_temperatureFatal_of_fatal h, exec_fatalDumpDone_of_fatal h⟩,
    ⟨rfl, rfl, rfl, rfl, fun hs => ⟨hs.writeDump, fun a ha => bytes_writeDump_apart hs ha⟩⟩, fun d q _ => queuesEmpty_stopDie d q,
    exec_powerOnReset_eq, exec_bringUpComplete_of_forged, exec_bringUpComplete_of_verified,
    fun hn => ⟨exec_powerAverageHigh_of_die hn, exec_powerAverageNormal_of_die hn⟩,
    exec_attestationRequest_of_idle, exec_attestationRequest_of_busy, exec_attestationReport_of_nonce⟩
  case soft => rw [exec_softError_eq, enterFatal_of_standing h]
  case power => rw [exec_powerFatal_of_die hn, enterFatal_of_standing h]
  case temperature => rw [exec_temperatureFatal_of_die hn, enterFatal_of_standing h]
  case softKept => rw [exec_softError_eq, enterFatal_of_fatal h]

end Sys2Proof.Machine
end

section
/-! PROOFS. The stream words on their port (R418 to R420, R422 to R426): what a command's end leaves of its port, then each word by its
condition. -/

namespace Sys2Proof.Machine

/-! ### A port under the updates of regions -/

/-- An entry after an update at some place is what it was, or what the update makes of it. -/
theorem vget_vmod_cases {α : Type} {n : Nat} (d : α) (v : Vector α n) (i : Nat) (f : α → α) (j : Nat) :
    vget d (vmod v i f) j = vget d v j ∨ vget d (vmod v i f) j = f (vget d v j) := by
  by_cases hij : i = j
  · subst hij
    by_cases hi : i < n
    · exact .inr (vget_vmod_same d v i f hi)
    · exact .inl ((vget_vmod_out d v i i f (Nat.not_lt.mp hi)).trans (by simp [vget, Vector.getD, hi]))
  · exact .inl (vget_vmod_ne d v i j f hij)

theorem region_modRegion_cases (s : State) (g' : Nat) (f : Region → Region) (g : Nat) :
    region (modRegion s g' f) g = region s g ∨ region (modRegion s g' f) g = f (region s g) := by
  rw [region, die_modRegion]
  exact vget_vmod_cases ..

theorem port_modRegion_of_ports {f : Region → Region} (hf : ∀ r, (f r).ports = r.ports) (s : State) (g' g p : Nat) :
    port (modRegion s g' f) g p = port s g p := by
  unfold port
  rcases region_modRegion_cases s g' f g with h | h
  · rw [h]
  · rw [h, hf]

theorem port_modPort_cases (s : State) (g' p' : Nat) (f : Port → Port) (g p : Nat) :
    port (modPort s g' p' f) g p = port s g p ∨ port (modPort s g' p' f) g p = f (port s g p) := by
  unfold port modPort
  rcases region_modRegion_cases s g' (fun r => { r with ports := vmod r.ports p' f }) g with h | h
  · rw [h]; exact .inl rfl
  · rw [h]; exact vget_vmod_cases ..

theorem port_modPort_same (s : State) {g p : Nat} (f : Port → Port) (hg : g < 32) (hp : p < 64) :
    port (modPort s g p f) g p = f (port s g p) := by
  rw [port, modPort, region_modRegion_same _ _ _ hg]
  exact vget_vmod_same _ _ _ _ hp

theorem retry_modRegion (s : State) (g : Nat) (f : Region → Region) : (die (modRegion s g f)).retry = (die s).retry := by
  rw [die_modRegion]

theorem port_modDie_of_regions {f : Die → Die} (hf : ∀ d, (f d).regions = d.regions) (s : State) (g p : Nat) :
    port (modDie s f) g p = port s g p := by
  rw [port, region, die_modDie, hf]
  rfl

/-! ### What the end of a stream or of a subscription leaves of a port -/

/-- From `s` to `t` the dies alone change, no retry entry, and of a port at most its subscription, which may end. -/
structure KeepsPort (g p : Nat) (s t : State) : Prop where
  outside : OnlyDies s t
  retry : (die t).retry = (die s).retry
  port : { port t g p with sub := none } = { port s g p with sub := none }
  sub : (Machine.port s g p).sub = none → (Machine.port t g p).sub = none

namespace KeepsPort
variable {g p : Nat} {s t u : State}

theorem refl (s : State) : KeepsPort g p s s := ⟨.refl s, rfl, rfl, id⟩
theorem trans (h : KeepsPort g p s t) (k : KeepsPort g p t u) : KeepsPort g p s u :=
  ⟨h.outside.trans k.outside, k.retry.trans h.retry, k.port.trans h.port, fun hs => k.sub (h.sub hs)⟩

section
variable (h : KeepsPort g p s t)
include h
theorem queue : (Machine.port t g p).queue = (Machine.port s g p).queue := (congrArg Port.queue h.port :)
theorem bound : (Machine.port t g p).bound = (Machine.port s g p).bound := (congrArg Port.bound h.port :)
theorem seq : (Machine.port t g p).seq = (Machine.port s g p).seq := (congrArg Port.seq h.port :)
theorem code : (Machine.port t g p).code = (Machine.port s g p).code := (congrArg Port.code h.port :)
theorem cancelled : (Machine.port t g p).cancelled = (Machine.port s g p).cancelled := (congrArg Port.cancelled h.port :)
end

theorem of_port_eq (ho : OnlyDies s t) (hr : (die t).retry = (die s).retry) (hp : Machine.port t g p = Machine.port s g p) :
    KeepsPort g p s t := ⟨ho, hr, by rw [hp], fun hs => by rw [hp, hs]⟩

theorem foldl {α : Type} {f : State → α → State} (hf : ∀ s a, KeepsPort g p s (f s a)) (l : List α) (s : State) :
    KeepsPort g p s (l.foldl f s) :=
  List.foldlRecOn (motive := fun t => KeepsPort g p s t) _ _ (refl s) fun t ht a _ => ht.trans (hf t a)

theorem forgetTiles (s : State) (g' p' : Nat) : KeepsPort g p s (forgetTiles s g' p') :=
  of_port_eq rfl (retry_modRegion ..) (port_modRegion_of_ports (fun _ => by rfl) s g' g p)

theorem modStream (s : State) (n : Nat) (f : Stream → Stream) : KeepsPort g p s (modStream s n f) :=
  of_port_eq rfl (by rw [die_modStream]) (port_modDie_of_regions (f := fun d => { d with streams := vmod d.streams n f }) (fun _ => rfl) s g p)

/-- A subscription of some port ends. -/
theorem endSub (s : State) (g' p' : Nat) : KeepsPort g p s (modPort s g' p' fun q => { q with sub := none }) := by
  have ho : OnlyDies s (modPort s g' p' fun q => { q with sub := none }) := rfl
  have hr : (die (modPort s g' p' fun q => { q with sub := none })).retry = (die s).retry := retry_modRegion ..
  rcases port_modPort_cases s g' p' (fun q => { q with sub := none }) g p with h | h
  · exact of_port_eq ho hr h
  · exact ⟨ho, hr, by rw [h], fun _ => by rw [h]⟩

theorem endStream (s : State) (n : Nat) : KeepsPort g p s (endStream s n) := by
  refine (foldl (fun s u => ?_) _ s).trans (modStream ..)
  split
  · exact (forgetTiles ..).trans (endSub ..)
  · exact refl s

end KeepsPort

/-- A subscription that ends leaves the rest of its port, and none is left. -/
theorem keepsPort_unsubscribe (s : State) {g p : Nat} (hg : g < 32) (hp : p < 64) :
    KeepsPort g p s (unsubscribe s g p) ∧ (port (unsubscribe s g p) g p).sub = none := by
  unfold unsubscribe
  split
  case h_1 hsub => exact ⟨.refl s, hsub⟩
  case h_2 n ix _ =>
    have hend : KeepsPort g p s (modPort (forgetTiles s g p) g p fun q => { q with sub := none }) :=
      (KeepsPort.forgetTiles ..).trans (.endSub ..)
    refine ⟨hend.trans (.modStream ..), KeepsPort.sub (.modStream ..) ?_⟩
    rw [port_modPort_same _ _ hg hp]

/-! ### A cancelled command -/

/-- The port as a command that is cancelled leaves it. -/
def cancelledPort (k : Command) (q : Port) : Port :=
  { q with seq := q.seq + 1, bytes := cmdBytes k k.done % 2 ^ 40, code := 0, cancelled := true }

/-- A command without a stamp counts as cancelled, and leaves no more. -/
theorem keepsPort_noteFinished (s : State) (g p : Nat) {k : Command} (hk : k.stamp = none) :
    KeepsPort g p (modPort s g p (cancelledPort k)) (noteFinished s g p k 0 true) := by
  have hstamp : ∀ v, writeStamp (modPort s g p (cancelledPort k)) g k v = modPort s g p (cancelledPort k) := fun v => by rw [writeStamp, hk]
  rw [noteFinished]
  change KeepsPort g p _ (if isProducer k then endStream (writeStamp (modPort s g p (cancelledPort k)) g k _) _
    else writeStamp (modPort s g p (cancelledPort k)) g k _)
  rw [hstamp]
  split
  · exact .endStream ..
  · exact .refl _

section
variable {s : State} {g p : Nat} (hg : g < 32) (hp : p < 64)
include hg hp

/-- A stamp of a cancelled command that no group voids is the count, with bit 63 (R254, R423). -/
theorem noteFinished_of_stamp {k : Command} {x : Xlat} (hk : k.stamp = some x) (hv : k.void = false) (hpr : isProducer k = false) :
    noteFinished s g p k 0 true = writeBytes (modPort s g p (cancelledPort k)) (portAccess (modPort s g p (cancelledPort k)) g k).ctx x
      (natBytes (((port s g p).seq + 1).toNat ||| 2 ^ 63) 8) 0 := by
  have hseq : (port (modPort s g p (cancelledPort k)) g p).seq = (port s g p).seq + 1 := by rw [port_modPort_same _ _ hg hp]; rfl
  rw [← hseq]
  simp only [noteFinished, hpr, writeStamp, hk, hv, Bool.false_eq_true, ↓reduceIte]
  rfl

/-- What a run of cancelled commands without stamps leaves of their port: each one counts. -/
theorem noteFinished_foldl_cancelled (l : List Command) (hl : ∀ k ∈ l, k.stamp = none) (s : State) :
    let t := l.foldl (fun s k => noteFinished s g p k 0 true) s
    OnlyDies s t ∧ (die t).retry = (die s).retry ∧ (port t g p).queue = (port s g p).queue ∧ (port t g p).bound = (port s g p).bound ∧
      (port t g p).seq = (port s g p).seq + BitVec.ofNat 64 l.length ∧
      (l ≠ [] ∨ (port s g p).code = 0 ∧ (port s g p).cancelled = true → (port t g p).code = 0 ∧ (port t g p).cancelled = true) := by
  induction l generalizing s with
  | nil => exact ⟨.refl s, rfl, rfl, rfl, by simp, fun h => h.resolve_left (absurd rfl)⟩
  | cons k l ih =>
    have hone : KeepsPort g p (modPort s g p (cancelledPort k)) (noteFinished s g p k 0 true) :=
      keepsPort_noteFinished s g p (hl k List.mem_cons_self)
    have hport : port (modPort s g p (cancelledPort k)) g p = cancelledPort k (port s g p) := port_modPort_same _ _ hg hp
    obtain ⟨ho, hr, hq, hb, hs, hc⟩ := ih (fun k hk => hl k (List.mem_cons_of_mem _ hk)) (noteFinished s g p k 0 true)
    have hcount : (port s g p).seq + 1 + BitVec.ofNat 64 l.length = (port s g p).seq + BitVec.ofNat 64 (l.length + 1) := by
      rw [BitVec.ofNat_add, BitVec.add_assoc, BitVec.add_comm 1]
      rfl
    refine ⟨((OnlyDies.modDie s _).trans hone.outside).trans ho, hr.trans (hone.retry.trans (retry_modRegion ..)),
      hq.trans ?_, hb.trans ?_, hs.trans ?_, fun _ => hc (.inr ⟨?_, ?_⟩)⟩
    · rw [hone.queue, hport]; rfl
    · rw [hone.bound, hport]; rfl
    · rw [hone.seq, hport, List.length_cons, ← hcount]; rfl
    · rw [hone.code, hport]; rfl
    · rw [hone.cancelled, hport]; rfl

/-- What SCANCEL leaves of a port whose commands have no stamps (R423). -/
theorem cancelPort_spec (hl : ∀ k ∈ (port s g p).queue, k.stamp = none) :
    let t := cancelPort s g p
    (port t g p).queue = [] ∧ (port t g p).sub = none ∧ (port t g p).seq = (port s g p).seq + BitVec.ofNat 64 (port s g p).queue.length ∧
      (port t g p).bound = (port s g p).bound ∧
      ((port s g p).queue ≠ [] → (port t g p).code = 0 ∧ (port t g p).cancelled = true) ∧
      (∀ e ∈ (die t).retry, e.who ≠ .port g p) ∧ OnlyDies s t := by
  have hwithdrawn : port (withdrawPort s g p) g p = port s g p := port_modDie_of_regions
    (f := fun d => { d with retry := d.retry.filter fun r => !(r.who == .port g p) }) (fun _ => rfl) s g p
  have hempty : port (modPort (withdrawPort s g p) g p fun q => { q with queue := [] }) g p = { port s g p with queue := [] } := by
    rw [port_modPort_same _ _ hg hp, hwithdrawn]
  have hretry : ∀ e ∈ (die (modPort (withdrawPort s g p) g p fun q => { q with queue := [] })).retry, e.who ≠ .port g p := by
    rw [modPort, die_modRegion, withdrawPort, withdrawRetry, die_modDie]
    exact fun e he => bne_iff_ne.mp (List.mem_filter.mp he).2
  have hout : OnlyDies s (modPort (withdrawPort s g p) g p fun q => { q with queue := [] }) :=
    (OnlyDies.modDie s _).trans rfl
  obtain ⟨ho, hr, hq, hb, hs, hc⟩ := noteFinished_foldl_cancelled hg hp _ hl (modPort (withdrawPort s g p) g p fun q => { q with queue := [] })
  obtain ⟨hkeeps, hsub⟩ := keepsPort_unsubscribe
    ((port s g p).queue.foldl (fun s k => noteFinished s g p k 0 true) (modPort (withdrawPort s g p) g p fun q => { q with queue := [] })) hg hp
  rw [hempty] at hq hb hs hc
  refine ⟨hkeeps.queue.trans hq, hsub, hkeeps.seq.trans hs, hkeeps.bound.trans hb, fun hne => ?_, fun e he => hretry e ?_,
    (hout.trans ho).trans hkeeps.outside⟩
  · obtain ⟨hcode, hcancelled⟩ := hc (.inl hne)
    exact ⟨hkeeps.code.trans hcode, hkeeps.cancelled.trans hcancelled⟩
  · rw [← hr, ← hkeeps.retry]
    exact he

end

/-! ### The words -/

section
variable {h : Hdr} {a b c d p : BitVec 6} {strm : BitVec 8} {s t u : State} {x y : List Byte} {stamp : Option Xlat}

theorem exec_sbind_of_read (hx : coreRead s (xval s a).toNat 64 0 15 0 = .ok (x, t)) (hy : coreRead t (xval t b).toNat 64 0 15 0 = .ok (y, u))
    (hr : CoreRuns (.sbind h a b p strm) s) : exec (.sbind h a b p strm) s = .next
      (advance (modPort u (portOwner u strm) p.toNat fun p => { p with bound := some (bytesLine x, bytesLine y) })) := by
  rw [exec_sbind, execSbind, coreWord_of_core hr]
  simp only [hx, hy, coreOutcome_ok]

/-- A command as it enters a queue. -/
def newCommand (s : State) (src dst : Line) (scopy : Bool) (stamp : Option Xlat) : Command :=
  { src := src, dst := dst, scopy := scopy, stamp := stamp, asroot := myRoot s, mgr := (kindOf s).isMgr, grouped := groupStanding s,
    void := false, started := false, done := 0, gather := [], spill := [], retry := none, supplied := [], cycles := 0 }

section
variable {g q va : Nat} {src dst : Line} {scopy : Bool} (hs : stampOf s va = .ok (stamp, t))
include hs

theorem enqueue_of_room (hn : (port t g q).queue.length < 16) : enqueue s g q va src dst scopy =
    .ok (advance (modPort t g q fun q => { q with queue := q.queue ++ [newCommand t src dst scopy stamp] })) := by
  simp only [enqueue, hs, Nat.not_le.mpr hn, ↓reduceIte, newCommand]
theorem enqueue_of_full (hn : 16 ≤ (port t g q).queue.length) : enqueue s g q va src dst scopy = .error .hold := by
  simp only [enqueue, hs, hn, ↓reduceIte]

end

section
variable {src dst : Line} (hb : (port s (portOwner s strm) p.toNat).bound = some (src, dst))
  (hp : pairOk s (portOwner s strm) src.toNat dst.toNat = true) (hsub : (port s (portOwner s strm) p.toNat).sub = none)
  (hfree : dKind src.toNat ≠ 3 ∨ (stream s (bits src.toNat 0 8)).producer = none)
include hb hp hsub hfree

/-- SQ of a pair that passes its checks, for a stream without a producer if it makes one, is an enqueue. -/
theorem exec_sq_of_pair (hr : CoreRuns (.sq h a p strm) s) : exec (.sq h a p strm) s = .next (coreOutcome s
    ((enqueue s (portOwner s strm) p.toNat (xval s a).toNat src dst false).map fun t => if dKind src.toNat == 3 then
      modStream t (bits src.toNat 0 8) fun q => { q with producer := some (portOwner s strm, p.toNat) } else t)) := by
  have hpr : (dKind src.toNat == 3 && (stream s (bits src.toNat 0 8)).producer.isSome) = false := by
    rcases hfree with hk | hk
    · rw [beq_eq_false_iff_ne.mpr hk, Bool.false_and]
    · rw [hk, Option.isSome_none, Bool.and_false]
  rw [exec_sq, execSq, coreWord_of_core hr]
  simp only [hb, hp, hsub, hpr, Bool.not_true, Option.isSome_none, Bool.or_false, Bool.false_eq_true, ↓reduceIte]
  cases enqueue s (portOwner s strm) p.toNat (xval s a).toNat src dst false with
  | error e => rfl
  | ok t => rfl

theorem exec_sq_of_room (hs : stampOf s (xval s a).toNat = .ok (stamp, t)) (hn : (port t (portOwner s strm) p.toNat).queue.length < 16)
    (hr : CoreRuns (.sq h a p strm) s) : exec (.sq h a p strm) s = .next
      (if dKind src.toNat == 3 then
        modStream (advance (modPort t (portOwner s strm) p.toNat fun q => { q with queue := q.queue ++ [newCommand t src dst false stamp] }))
          (bits src.toNat 0 8) fun q => { q with producer := some (portOwner s strm, p.toNat) }
      else advance (modPort t (portOwner s strm) p.toNat fun q => { q with queue := q.queue ++ [newCommand t src dst false stamp] })) := by
  rw [exec_sq_of_pair hb hp hsub hfree hr, enqueue_of_room hs hn, Except.map, coreOutcome_ok]
theorem exec_sq_of_full (hs : stampOf s (xval s a).toNat = .ok (stamp, t)) (hn : 16 ≤ (port t (portOwner s strm) p.toNat).queue.length)
    (hr : CoreRuns (.sq h a p strm) s) : exec (.sq h a p strm) s = .next s := by
  rw [exec_sq_of_pair hb hp hsub hfree hr, enqueue_of_full hs hn]
  rfl
end

theorem exec_scopy_of_length (hlow : 0 < (xval s b).toNat) (hhigh : (xval s b).toNat ≤ 2 ^ 32)
    (hsub : (port s (portOwner s strm) p.toNat).sub = none) (hr : CoreRuns (.scopy h d a b c p strm) s) :
    exec (.scopy h d a b c p strm) s = .next (coreOutcome s (enqueue s (portOwner s strm) p.toNat (xval s c).toNat
      (BitVec.ofNat 512 ((xval s a).toNat + 2 ^ 64 * (xval s b).toNat)) ((xval s d).setWidth 512) true)) := by
  rw [exec_scopy, execScopy, coreWord_of_core hr]
  simp only [beq_iff_eq, hlow.ne', Nat.not_lt.mpr hhigh, hsub, Option.isSome_none, decide_false, Bool.or_false,
    ↓reduceIte]

theorem exec_scancel_of_core (hr : CoreRuns (.scancel h d p strm) s) : exec (.scancel h d p strm) s = .next
    (retX (cancelPort s (portOwner s strm) p.toNat) d (BitVec.ofNat 64 (port s (portOwner s strm) p.toNat).queue.length)) := by
  rw [exec_scancel, execScancel, coreWord_of_core hr, coreOutcome_ok]

/-- The region whose port SSUB names: the manager says it in A, a stagehand means its own (R424). -/
def subscriberRegion (s : State) (a : BitVec 6) : Nat := if (kindOf s).isMgr then (xval s a).toNat % 32 else myRegion s

theorem exec_ssub_of_idle (hfed : (region s (subscriberRegion s a)).bufs.any (fun b => b.sport == some p.toNat) = true)
    (hq : (port s (subscriberRegion s a) p.toNat).queue = []) (hsub : (port s (subscriberRegion s a) p.toNat).sub = none)
    (hst : (stream s strm.toNat).started = false) (hix : (stream s strm.toNat).subs.length < 16)
    (hr : CoreRuns (.ssub h d a p strm) s) : exec (.ssub h d a p strm) s = .next
      (retX (modStream (modPort s (subscriberRegion s a) p.toNat fun q => { q with sub := some (strm.toNat, (stream s strm.toNat).subs.length) })
        strm.toNat fun q => { q with subs := q.subs ++
          [{ g := subscriberRegion s a, port := p.toNat, window := 0, sent := 0, acked := 0, live := true }] })
        d (BitVec.ofNat 64 (stream s strm.toNat).subs.length)) := by
  have hregion : (if (kindOf s).isMgr = true then bits (xval s a).toNat 0 5 else myRegion s) = subscriberRegion s a := by
    rw [bits, Nat.shiftRight_zero]
    rfl
  rw [exec_ssub, execSsub, coreWord_of_core hr]
  simp only [hregion, hfed, hq, hsub, hst, Nat.not_le.mpr hix, Bool.not_true, List.isEmpty_nil, Option.isSome_none, decide_false,
    Bool.or_false, Bool.false_eq_true, ↓reduceIte, coreOutcome_ok]

theorem exec_sdist_of_windows {k : Command} (hx : coreRead s (xval s a).toNat 64 0 15 0 = .ok (x, t))
    (hk : producerOf t strm.toNat = some k) (hsubs : (stream t strm.toNat).subs ≠ []) (hst : (stream t strm.toNat).started = false)
    (hw : windowsOk (bytesNat x) (stream t strm.toNat).subs.length = true)
    (hmine : (kindOf t).isMgr = true ∨ (stream t strm.toNat).producer.map (fun gp => gp.1) = some (myRegion t))
    (hr : CoreRuns (.sdist h a strm) s) : exec (.sdist h a strm) s = .next
      (advance (modStream t strm.toNat fun q => { q with
        subs := (stream t strm.toNat).subs.zipIdx.map fun u => { u.1 with window := bits (bytesNat x) (32 * u.2) 32 }
        started := true
        total := producerBeats k })) := by
  have hparty : (!(kindOf t).isMgr && ((stream t strm.toNat).producer.map fun gp => gp.1) != some (myRegion t)) = false := by
    rcases hmine with hm | hm
    · rw [hm, Bool.not_true, Bool.false_and]
    · rw [hm, bne_self_eq_false, Bool.and_false]
  rw [exec_sdist, execSdist, coreWord_of_core hr]
  simp only [hx, hk, List.isEmpty_eq_false_iff.mpr hsubs, hst, hw, hparty, Bool.not_true, Bool.or_false, Bool.false_eq_true, ↓reduceIte,
    coreOutcome_ok]

theorem exec_sstat_of_core (hr : CoreRuns (.sstat h d a p strm) s) : exec (.sstat h d a p strm) s = .next
    (advance (setX (setX s (myCore s) d.toNat (BitVec.ofNat 64 (portStatus (port s (portOwner s strm) p.toNat)))) (myCore s) a.toNat
      (port s (portOwner s strm) p.toNat).seq)) := by
  rw [exec_sstat, execSstat, coreWord_of_core hr, coreOutcome_ok]

end

/-- Settles O36: each word by its condition; a command that ends, with its stream or its subscription, leaves the rest of its port. -/
theorem streamWordsActOnTheirPort : Obligations.StreamWordsActOnTheirPort := by
  intro h a b c d p strm s t u x y stamp k g q n gives command queued
  refine ⟨exec_sbind_of_read, fun src dst hb hp hsub hs => ⟨fun hk hn hr => ?sq, fun hk hfree hn hr => ?producer,
      fun hfree hn => exec_sq_of_full hb hp hsub hfree hs hn⟩,
    fun hlow hhigh hsub hs hn hr => ?scopyFull, fun hlow hhigh hsub hs hn hr => ?scopy, exec_scancel_of_core,
    fun hg hl => ?cancelled, fun x hg hk hv hpr => noteFinished_of_stamp hg p.isLt hk hv hpr, exec_ssub_of_idle, exec_sdist_of_windows,
    exec_sstat_of_core⟩
  case sq => rw [exec_sq_of_room hb hp hsub (.inl hk) hs hn hr, if_neg (by simpa using hk)]; rfl
  case producer => rw [exec_sq_of_room hb hp hsub (.inr hfree) hs hn hr, if_pos (by simpa using hk)]; rfl
  case scopyFull => rw [exec_scopy_of_length hlow hhigh hsub hr, enqueue_of_full hs hn, coreOutcome_hold]
  case scopy => rw [exec_scopy_of_length hlow hhigh hsub hr, enqueue_of_room hs hn, coreOutcome_ok]; rfl
  case cancelled =>
    obtain ⟨hqueue, hsub, hseq, hbound, hcode, hretry, hout⟩ := cancelPort_spec hg p.isLt hl
    exact ⟨hqueue, hsub, hseq, hbound, hcode, hretry, hout.sameOutside⟩

end Sys2Proof.Machine
end

section
/-! PROOFS. LAUNCH and TLAUNCH, LOADCFG and RECONF, SHRINK, WDOG, CSAVE and CREST, each by the condition of its outcome (R301, R306, R314,
R316, R318, R322, R380, R385, R407, R436, R447, R472). -/

namespace Sys2Proof.Machine

/-! ### Reads leave the executing context -/

theorem who_readPlace (s : State) (c : Ctx) (x : Xlat) (len hint : Nat) : (readPlace s c x len hint).2.who = s.who := by
  unfold readPlace
  split
  · exact (sameDies_loadLine ..).who
  all_goals rfl

theorem who_vread {s t : State} {c : Ctx} {va size hint ty dst : Nat} {bs : List Byte} (h : vread s c va size hint ty dst = .ok (bs, t)) :
    t.who = s.who := by
  unfold vread at h
  split at h
  · cases h
  · split at h
    · cases h
    · next u x hx =>
      split at h
      · cases h
      · have hread : (readBytes u c x size hint).2 = t := congrArg Prod.snd (Except.ok.inj h)
        rw [← hread, readBytes, (sameDies_sendRead ..).who, who_readPlace, (sameUnits_of_translated hx).who]

theorem who_coreRead {s t : State} {va size hint ty dst : Nat} {bs : List Byte} (h : coreRead s va size hint ty dst = .ok (bs, t)) :
    t.who = s.who := by
  unfold coreRead at h
  split at h
  · cases h; rfl
  · exact who_vread h

theorem who_opRead {s t : State} {a : OpAccess} {va size hint : Nat} {bs : List Byte} (h : opRead s a va size hint = .ok (bs, t)) :
    t.who = s.who := by
  unfold opRead at h
  split at h
  · cases h; rfl
  · exact who_vread h

theorem who_readLines {a : OpAccess} {n : Nat} {s t : State} {va : Nat} {bs : List Byte} (h : readLines s a va n = .ok (bs, t)) :
    t.who = s.who := by
  induction n generalizing s va bs with
  | zero => cases h; rfl
  | succ n ih =>
    unfold readLines at h
    split at h
    · cases h
    next hline =>
      split at h
      · cases h
      next hrest =>
        cases h
        exact (ih hrest).trans (who_opRead hline)

theorem who_readRecords {base n : Nat} {s t : State} {off : Nat} {rs : List (Nat × ImageRec)}
    (h : readRecords s base n off = .ok (rs, t)) : t.who = s.who := by
  induction n generalizing s off rs with
  | zero => cases h
  | succ n ih =>
    unfold readRecords at h
    split at h
    · cases h
    next hhead =>
      dsimp only at h
      split at h
      · cases h
      · split at h
        · cases h
        next hpay =>
          have hwho := (who_readLines hpay).trans (who_coreRead hhead)
          split at h
          · cases h
          · cases h; exact hwho
          · split at h
            · cases h
            next hrest =>
              cases h
              exact (ih hrest).trans hwho

theorem who_readUnders {base : Nat} {l : List (Nat × Nat × BitVec 32 × Nat)} {s t : State}
    {us : List (Nat × Nat × BitVec 32 × List (Nat × ImageRec))} (h : readUnders s base l = .ok (us, t)) : t.who = s.who := by
  induction l generalizing s us with
  | nil => cases h; rfl
  | cons u l ih =>
    unfold readUnders at h
    split at h
    · cases h
    next hrecords =>
      split at h
      · cases h
      next hrest =>
        cases h
        exact (ih hrest).trans (who_readRecords hrecords)

theorem who_readImage {s t : State} {gr : Graph} {base : Nat} {img : LoadImage} (h : readImage s gr base = .ok (img, t)) :
    t.who = s.who := by
  unfold readImage at h
  split at h
  · cases h
  next hrecords =>
    split at h
    · cases h
    next hunders =>
      dsimp only at h
      split at h
      · cases h
      · split at h
        · cases h
        · split at h
          · cases h
          · cases h
            exact (who_readUnders hunders).trans (who_readRecords hrecords)

section
variable {h : Hdr} {d a b : Reg} {imm : BitVec 32} {s t u : State} {gr : Graph} {bs cs : List Byte}

/-! ### LAUNCH and TLAUNCH -/

theorem dieAt_focus (s : State) : dieAt s s.cur.val = die s := by simp [dieAt, die, vget, Vector.getD]

/-- The status that enqueueing a descriptor gives: 2 in a disabled queue, 1 in a full one, else 0. -/
theorem retX_enqueueLaunch (t : State) (q : Nat) (desc : Line) (d : Reg) :
    retX (enqueueLaunch t t.cur.val q desc).1 d (BitVec.ofNat 64 (enqueueLaunch t t.cur.val q desc).2) =
      if (queue t q).cfg.getLsbD 4 = false then retX t d (BitVec.ofNat 64 2)
      else if 32 ≤ (queue t q).entries.length then retX (dropLaunch t t.cur.val q) d (BitVec.ofNat 64 1)
      else retX (modDie t fun d => { d with queues := vmod d.queues q fun k => { k with entries := k.entries ++ [⟨desc, t.clock, none⟩] } }) d
        (BitVec.ofNat 64 0) := by
  simp only [enqueueLaunch, dieAt_focus, ← modDie_eq_modDieAt, beq_iff_eq, queue]
  by_cases hoff : (vget Queue.reset (die t).queues q).cfg.getLsbD 4 = false
  · simp only [hoff, ↓reduceIte]
  · by_cases hfull : 32 ≤ (vget Queue.reset (die t).queues q).entries.length
    · simp only [hoff, hfull, Bool.true_eq_false, ↓reduceIte]
    · simp only [hoff, hfull, Bool.true_eq_false, ↓reduceIte]

theorem launchWord_of_far {i : Instr} (timed : Bool) (hq : 64 ≤ (xval s b).toNat) (hr : CoreRuns i s) :
    launchWord i d a b timed s = .next (coreFault s (myCore s) 0x01 0) := by
  rw [launchWord, coreWord_of_core hr, if_pos hq, coreOutcome_trap]

/-- A core that may launch in a queue enqueues the descriptor that it reads, TIMED as the word says. -/
theorem launchWord_of_read {i : Instr} {timed : Bool} (hq : (xval s b).toNat < 64)
    (hallowed : (kindOf s).isMgr = true ∨ (queue s (xval s b).toNat).cfg.getLsbD 6 = true)
    (hread : coreRead s (xval s a).toNat 64 0 15 0 = .ok (bs, t)) (hdesc : timed = true → descriptorOk (bytesLine bs) = true)
    (hr : CoreRuns i s) : launchWord i d a b timed s = .next
      (retX (enqueueLaunch t t.cur.val (xval s b).toNat
          (if timed then bytesLine bs ||| (1 <<< 208 : Line) else bytesLine bs &&& ~~~(1 <<< 208 : Line))).1 d
        (BitVec.ofNat 64 (enqueueLaunch t t.cur.val (xval s b).toNat
          (if timed then bytesLine bs ||| (1 <<< 208 : Line) else bytesLine bs &&& ~~~(1 <<< 208 : Line))).2)) := by
  have hmay : (!(kindOf s).isMgr && !(queue s (xval s b).toNat).cfg.getLsbD 6) = false := by
    rcases hallowed with h | h
    · rw [h, Bool.not_true, Bool.false_and]
    · rw [h, Bool.not_true, Bool.and_false]
  have hlegal : (timed && !descriptorOk (bytesLine bs)) = false := by
    cases timed with
    | false => rfl
    | true => rw [hdesc rfl]; rfl
  rw [launchWord, coreWord_of_core hr]
  simp only [Nat.not_le.mpr hq, hmay, hread, hlegal, Bool.false_eq_true, ↓reduceIte, coreOutcome_ok]

/-! ### LOADCFG and RECONF -/

/-- A checked image waits at its core for the installation, and the LOADCFG is in progress (R385, R386). -/
theorem exec_loadcfg_of_image {img : LoadImage} (hg : myGraph s = some gr) (hl : gr.load = none) (hn : loading s gr.gid = false)
    (hva : (xval s a).toNat % 64 = 0) (hi : readImage s gr (xval s a).toNat = .ok (img, t)) (hr : CoreRuns (.loadcfg h a) s) :
    exec (.loadcfg h a) s = .next (modCore t (myCore s) fun k => { k with wait := .load img, loading := true }) := by
  have hread : loadcfgRead a s = .ok (modCore t (myCore t) fun k => { k with wait := .load img }) := by
    simp only [loadcfgRead, hg, hl, hn, hva, hi, Option.isSome_none, Bool.or_false, bne_self_eq_false, Bool.false_eq_true, ↓reduceIte]
  rw [exec_loadcfg, execLoadcfg, coreWord_of_core hr, coreOutcome_ok, hread, coreOutcome_ok, myCore_congr (who_readImage hi), noteLoading,
    modCore_modCore]

theorem exec_reconf_of_none (hg : myGraph s = none) (hr : CoreRuns (.reconf h) s) : exec (.reconf h) s = .next (advance s) := by
  rw [exec_reconf, execReconf, coreWord_of_core hr, hg, coreOutcome_ok]
theorem exec_reconf_of_unloaded (hg : myGraph s = some gr) (hl : gr.load = none) (hr : CoreRuns (.reconf h) s) :
    exec (.reconf h) s = .next (advance (passToken s gr.gid)) := by
  rw [exec_reconf, execReconf, coreWord_of_core hr, hg]
  simp only [hl, Option.isNone_none, ↓reduceIte, coreOutcome_ok]
theorem exec_reconf_of_loaded (hg : myGraph s = some gr) (hl : gr.load ≠ none) (hr : CoreRuns (.reconf h) s) :
    exec (.reconf h) s = .next (modCore s (myCore s) fun k => { k with wait := .reconf }) := by
  rw [exec_reconf, execReconf, coreWord_of_core hr, hg]
  simp only [Option.isNone_iff_eq_none, hl, ↓reduceIte, coreOutcome_ok]

/-! ### Words that name a graph by a region in A -/

theorem namedGraph_of_owner (hva : (xval s a).toNat < 32) (ho : ownerOf s (xval s a).toNat = some gr) : namedGraph s a = .ok gr := by
  simp only [namedGraph, hva, ho, ↓reduceIte]

section
variable (hn : namedGraph s a = .ok gr)
include hn

theorem wdogWord_of_named {i : Instr} {f : State → Graph → State} (hr : CoreRuns i s) : wdogWord i a s f = .next (f s gr) := by
  rw [wdogWord, coreWord_of_core hr, hn, coreOutcome_ok]

section
variable (hb : (xval s b).toNat < 2 ^ 32)
include hb

theorem exec_shrink_of_unmarked (hm : (markedRegions s gr.gid).isEmpty = true ∨ gr.load = none) (hr : CoreRuns (.shrink h d a b) s) :
    exec (.shrink h d a b) s = .next (retX s d 2) := by
  have hidle : ((markedRegions s gr.gid).isEmpty || gr.load.isNone) = true := by
    simpa only [Bool.or_eq_true, Option.isNone_iff_eq_none] using hm
  rw [exec_shrink, execShrink, coreWord_of_core hr, if_neg (Nat.not_le.mpr hb), hn]
  simp only [hidle, ↓reduceIte, coreOutcome_ok]

section
variable (hm : (markedRegions s gr.gid).isEmpty = false) (hl : gr.load ≠ none)
include hm hl

theorem exec_shrink_of_selected {n : Nat} (hs : selectUnder gr ((xval s b).setWidth 32) = some n) (hr : CoreRuns (.shrink h d a b) s) :
    exec (.shrink h d a b) s = .next
      (retX (modGraph s gr.gid fun g => { g with pending := some n, pendingSince := s.clock }) d 0) := by
  rw [exec_shrink, execShrink, coreWord_of_core hr, if_neg (Nat.not_le.mpr hb), hn]
  simp only [hm, Option.isNone_iff_eq_none, hl, hs, Bool.or_eq_true, Bool.false_eq_true, or_self, ↓reduceIte, coreOutcome_ok]
theorem exec_shrink_of_unfit (hs : selectUnder gr ((xval s b).setWidth 32) = none) (hr : CoreRuns (.shrink h d a b) s) :
    exec (.shrink h d a b) s = .next (retX s d 1) := by
  rw [exec_shrink, execShrink, coreWord_of_core hr, if_neg (Nat.not_le.mpr hb), hn]
  simp only [hm, Option.isNone_iff_eq_none, hl, hs, Bool.or_eq_true, Bool.false_eq_true, or_self, ↓reduceIte, coreOutcome_ok]
end
end

/-- The query reports a pending switch, else one completed since the last query, which it clears (R314). -/
theorem exec_shrinkQuery_of_zero (hb : (xval s b).toNat = 0) (hr : CoreRuns (.shrinkQuery h d a b) s) :
    exec (.shrinkQuery h d a b) s = .next (retX (modGraph s gr.gid fun g => { g with shrunk := false }) d
      (if gr.pending.isSome then 1 else if gr.shrunk then 2 else 0)) := by
  have hzero : xval s b = 0 := BitVec.eq_of_toNat_eq hb
  rw [exec_shrinkQuery, execShrinkQuery, coreWord_of_core hr, hn]
  simp only [hzero, bne_self_eq_false, Bool.false_eq_true, ↓reduceIte, coreOutcome_ok]

theorem exec_wdogRestart_of_named (hr : CoreRuns (.wdogRestart h d a) s) : exec (.wdogRestart h d a) s = .next
    (retX (modGraph s gr.gid fun g => { g with wdStep := 0, wdCycles := 0, wdOff := false }) d 0) := by
  rw [exec_wdogRestart, execWdogRestart, wdogWord_of_named hn hr]
theorem exec_wdogReport_of_named (hr : CoreRuns (.wdogReport h d a) s) : exec (.wdogReport h d a) s = .next
    (retX s d (BitVec.ofNat 64 (gr.wdStep % 4 + 2 ^ 32 * (gr.wdCycles / 4096 % 2 ^ 32)))) := by
  rw [exec_wdogReport, execWdogReport, wdogWord_of_named hn hr]
theorem exec_wdogNextStep_of_named (hr : CoreRuns (.wdogNextStep h d a) s) :
    exec (.wdogNextStep h d a) s = .next (retX (wdStepOf s gr) d 0) := by
  rw [exec_wdogNextStep, execWdogNextStep, wdogWord_of_named hn hr]
theorem exec_wdogSuspend_of_named (hr : CoreRuns (.wdogSuspend h d a) s) : exec (.wdogSuspend h d a) s = .next
    (retX (modGraph s gr.gid fun g => { g with wdOff := true }) d 0) := by
  rw [exec_wdogSuspend, execWdogSuspend, wdogWord_of_named hn hr]

end

/-! ### CSAVE -/

section
variable (hva : (xval s a).toNat < 32) (hb : (xval s b).toNat % 4096 = 0)
include hva hb

theorem exec_csave_of_unowned (ho : ownerOf s (xval s a).toNat = none) (hr : CoreRuns (.csave h d a b imm) s) :
    exec (.csave h d a b imm) s = .next (retX s d 1) := by
  rw [exec_csave, execCsave, coreWord_of_core hr]
  simp only [Nat.not_le.mpr hva, hb, ho, bne_self_eq_false, Bool.false_eq_true, ↓reduceIte, coreOutcome_ok]
theorem exec_csave_of_saving (ho : ownerOf s (xval s a).toNat = some gr) (hs : (die s).save ≠ none) (hr : CoreRuns (.csave h d a b imm) s) :
    exec (.csave h d a b imm) s = .next (retX s d 1) := by
  rw [exec_csave, execCsave, coreWord_of_core hr]
  simp only [Nat.not_le.mpr hva, hb, ho, Option.isSome_iff_ne_none.mpr hs, bne_self_eq_false, Bool.false_eq_true, ↓reduceIte, coreOutcome_ok]
theorem exec_csave_of_idle (ho : ownerOf s (xval s a).toNat = some gr) (hs : (die s).save = none) (hr : CoreRuns (.csave h d a b imm) s) :
    exec (.csave h d a b imm) s = .next (retX (modGraph (modDie s fun d =>
      { d with save := some ⟨gr.gid, (xval s b).toNat, imm.toNat, myRoot s⟩ }) gr.gid fun g => { g with pending := none }) d 0) := by
  rw [exec_csave, execCsave, coreWord_of_core hr]
  simp only [Nat.not_le.mpr hva, hb, ho, hs, Option.isSome_none, bne_self_eq_false, Bool.false_eq_true, ↓reduceIte, coreOutcome_ok]

end

/-! ### CREST -/

/-- The header of an image that is whole and of this stepping passes its checks. -/
theorem crestHead_of_current {im : SaveImage} (hc : bytesNat bs % 2 ^ 64 = 1 ∧ im.step = (die t).stepping) :
    (bits (bytesNat bs) 0 64 != 1 || im.step != (die t).stepping) = false := by
  rw [bits, Nat.shiftRight_zero, hc.1, hc.2, bne_self_eq_false, bne_self_eq_false, Bool.or_false]

section
variable (hva : (xval s a).toNat % 4096 = 0)
include hva

theorem exec_crest_of_fault {f : Stop} (hread : coreRead s (xval s a).toNat 64 0 15 0 = .error f) (hr : CoreRuns (.crest h d a) s) :
    exec (.crest h d a) s = .next (crestFault s d (xval s a).toNat) := by
  rw [exec_crest, execCrest, coreWord_of_core hr]
  simp only [hva, hread, bne_self_eq_false, Bool.false_eq_true, ↓reduceIte, coreOutcome_ok]

section
variable (hread : coreRead s (xval s a).toNat 64 0 15 0 = .ok (bs, t))
include hread

theorem exec_crest_of_unknown (hf : (t.images.find? fun i => i.id == bits (bytesNat bs) 320 64) = none) (hr : CoreRuns (.crest h d a) s) :
    exec (.crest h d a) s = .next (retX t d 2) := by
  rw [exec_crest, execCrest, coreWord_of_core hr]
  simp only [hva, hread, hf, bne_self_eq_false, Bool.false_eq_true, ↓reduceIte, coreOutcome_ok]

section
variable {im : SaveImage} (hf : (t.images.find? fun i => i.id == bits (bytesNat bs) 320 64) = some im)
include hf

theorem exec_crest_of_stale (hc : ¬ (bytesNat bs % 2 ^ 64 = 1 ∧ im.step = (die t).stepping)) (hr : CoreRuns (.crest h d a) s) :
    exec (.crest h d a) s = .next (retX t d 2) := by
  have hstale : (bits (bytesNat bs) 0 64 != 1 || im.step != (die t).stepping) = true := by
    rw [bits, Nat.shiftRight_zero, Bool.or_eq_true, bne_iff_ne, bne_iff_ne]
    exact not_and_or.mp hc
  rw [exec_crest, execCrest, coreWord_of_core hr]
  simp only [hva, hread, hf, hstale, bne_self_eq_false, Bool.false_eq_true, ↓reduceIte, coreOutcome_ok]

section
variable (hc : bytesNat bs % 2 ^ 64 = 1 ∧ im.step = (die t).stepping)
include hc

theorem exec_crest_of_partial {f : Stop}
    (hw : readLines t (coreAccess t) (xval s a).toNat (bits (bytesNat bs) 64 64 / 64) = .error f) (hr : CoreRuns (.crest h d a) s) :
    exec (.crest h d a) s = .next (crestFault t d (xval s a).toNat) := by
  rw [exec_crest, execCrest, coreWord_of_core hr]
  simp only [hva, hread, hf, crestHead_of_current hc, hw, bne_self_eq_false, Bool.false_eq_true, ↓reduceIte, coreOutcome_ok]

section
variable (hw : readLines t (coreAccess t) (xval s a).toNat (bits (bytesNat bs) 64 64 / 64) = .ok (cs, u))
include hw

theorem exec_crest_of_fits (hfit : restoreFits u im = true) (hr : CoreRuns (.crest h d a) s) :
    exec (.crest h d a) s = .next (retX (restoreGraph u im cs) d 0) := by
  rw [exec_crest, execCrest, coreWord_of_core hr]
  simp only [hva, hread, hf, crestHead_of_current hc, hw, hfit, bne_self_eq_false, Bool.not_true, Bool.false_eq_true, ↓reduceIte,
    coreOutcome_ok]
theorem exec_crest_of_taken (hfit : restoreFits u im = false) (hr : CoreRuns (.crest h d a) s) :
    exec (.crest h d a) s = .next (retX u d 1) := by
  rw [exec_crest, execCrest, coreWord_of_core hr]
  simp only [hva, hread, hf, crestHead_of_current hc, hw, hfit, bne_self_eq_false, Bool.not_false, Bool.false_eq_true, ↓reduceIte,
    coreOutcome_ok]

end
end
end
end
end
end

/-- Settles O52: each word by the condition of its outcome. -/
theorem launchAndGraphWords : Obligations.LaunchAndGraphWords := by
  intro h d a b imm s t gr bs cs img im n u f completes va q allowed status k enqueued named dog head found current whole
  refine ⟨fun hq ha hread => ⟨fun hr => ?launch, fun hdesc hr => ?tlaunch⟩, fun hq => ⟨launchWord_of_far false hq, launchWord_of_far true hq⟩,
    exec_reconf_of_none, fun c hw ho ha => exec_loadcfgInstall_of_checked ha hw ho,
    fun hg => ⟨exec_loadcfg_of_image hg, exec_reconf_of_unloaded hg, exec_reconf_of_loaded hg⟩,
    fun ⟨hva, ho⟩ => ?named, fun hva ho hb => exec_csave_of_unowned hva hb ho, fun hva hread => exec_crest_of_fault hva hread,
    fun hva hread => ⟨exec_crest_of_unknown hva hread, exec_crest_of_stale hva hread, fun hf hc hw => exec_crest_of_partial hva hread hf hc hw,
      fun hf hc hw => ⟨exec_crest_of_fits hva hread hf hc hw, exec_crest_of_taken hva hread hf hc hw⟩⟩⟩
  case launch =>
    rw [exec_launch, execLaunch, launchWord_of_read (timed := false) hq ha hread (fun hc => nomatch hc) hr, retX_enqueueLaunch]
    rfl
  case tlaunch =>
    rw [exec_tlaunch, execTlaunch, launchWord_of_read (timed := true) hq ha hread (fun _ => hdesc) hr, retX_enqueueLaunch]
    rfl
  case named =>
    have hn : namedGraph s a = .ok gr := namedGraph_of_owner hva ho
    refine ⟨fun hb hm hl hs => exec_shrink_of_selected hn hb hm hl hs, fun hb hm hl hs => exec_shrink_of_unfit hn hb hm hl hs,
      fun hb hm => exec_shrink_of_unmarked hn hb hm, fun hb hp hr => ?pending, fun hb hp hs hr => ?shrunk, fun hb hp hs hr => ?quiet,
      exec_wdogRestart_of_named hn, exec_wdogReport_of_named hn, exec_wdogNextStep_of_named hn, exec_wdogSuspend_of_named hn,
      fun hb hs => exec_csave_of_idle hva hb ho hs, fun hb hs => exec_csave_of_saving hva hb ho hs⟩
    case pending => rw [exec_shrinkQuery_of_zero hn hb hr, if_pos (Option.isSome_iff_ne_none.mpr hp)]; rfl
    case shrunk => rw [exec_shrinkQuery_of_zero hn hb hr, hp, hs]; rfl
    case quiet => rw [exec_shrinkQuery_of_zero hn hb hr, hp, hs]; rfl

end Sys2Proof.Machine
end
